-- ==== Sys2Proof/Word.lean ====
section
/-! DEFINITION. The word types of Virlum (file 00 R11, file 08 R209): bytes, lane values, scalar values and instruction words. -/

namespace Sys2Proof

/-- One byte of a memory. -/
abbrev Byte := BitVec 8
/-- One lane of a vector register (R26). -/
abbrev W32 := BitVec 32
/-- A scalar register, a status register, an instruction word (R26, R28, R209). -/
abbrev W64 := BitVec 64
/-- A code of the 8-bit register namespace (R212). -/
abbrev RegCode := BitVec 8

end Sys2Proof
end

