-- ==== Sys2Proof/Syntax.lean ====
section
/-! DEFINITION. The syntax of the device's steps: one constructor per row of the operation table. The first group are the
instruction words of Virlum, in the four formats of file 08 R210, each with its fields as they stand in the word; the second
are the events of the device (file 95), each with the operands that say which of the outstanding things it is about. -/

namespace Sys2Proof

/-- The ancillary fields every word has (R209): guard selection, slot, stall count, and the reserved bits [4:0]. -/
structure Anc where
  gsel  : BitVec 2
  sb    : BitVec 3
  stall : BitVec 4
  res0  : BitVec 5
  deriving DecidableEq, Repr

/-- Format V (R210). -/
structure VOps where
  d   : RegCode
  a   : RegCode
  b   : RegCode
  c   : RegCode
  mod : BitVec 8
  anc : Anc
  deriving DecidableEq, Repr

/-- Format I (R210). -/
structure IOps where
  d   : RegCode
  a   : RegCode
  imm : BitVec 16
  mod : BitVec 8
  anc : Anc
  deriving DecidableEq, Repr

/-- Format W (R210). -/
structure WOps where
  d   : RegCode
  imm : BitVec 32
  anc : Anc
  deriving DecidableEq, Repr

/-- Format B (R210). -/
structure BOps where
  off : BitVec 32
  mod : BitVec 8
  anc : Anc
  deriving DecidableEq, Repr

/-- The structures of R420 in which a soft error may strike, with what locates it. -/
inductive SoftTarget where
  | register (g : Nat) (code : RegCode) (lane : Nat)
  /-- Counter k, box k, or a status register of a group, by its RDSR index (R326). -/
  | counter (g k : Nat)
  | box (g k : Nat)
  | statusReg (g k : Nat)
  | pcTable (g : Nat)
  | escrowEntry (entry : Nat)
  | opbufLine (g : Nat) (rec line : Nat)
  | tileLine (line : Nat)
  | homeLine (addr : Nat) (dirty : Bool)
  | vaultLine (addr : Nat)
  /-- A translation in a core's TLB; with core 256 + d in the second-level TLB of die d. -/
  | tlbEntry (core : Nat) (entry : Nat)
  | nameEntry (core : Nat) (entry : Nat)
  | nearEntry (core : Nat) (entry : Nat)
  | monitorEntry (g : Nat)
  /-- An error of any structure that its code corrected. -/
  | corrected
  deriving DecidableEq, Repr

/-- The group at the last step of its EXIT, and the sectors that one step of its exit commit takes: all of them where none is named (R54, R125). -/
structure ExitStep where
  group : Nat
  sel   : List Nat
  deriving DecidableEq, Repr

/-- A packet of the network: its flow, and its number in the flow (R394, R418). -/
structure FlowPacket where
  flow : Nat
  num  : Nat
  deriving DecidableEq, Repr

/-- A link of the fabric: its plane, and which of the two that carry the plane it is (R436). -/
structure FabricLink where
  plane : Nat
  which : Nat
  deriving DecidableEq, Repr

/-- What the requester of SPDM offers for the records of a session: the AEAD suite and the key schedule (R426). -/
structure SessionAlgs where
  aead  : Bool
  sched : Bool
  deriving DecidableEq, Repr

/-- The requests of R418 whose packets may fail their network tag. -/
inductive PacketKind where
  | loadReply (g : Nat) (debt : Nat)
  | loadRequest (g : Nat) (op : Nat)
  | retried
  | engine (core queue : Nat)
  deriving DecidableEq, Repr

/-- A function of the device that comes ready or leaves service (R428, R429). -/
inductive ReadyBit where
  | cores (die : Nat)
  | coll (n : Nat)
  | comp (n : Nat)
  | copyEngine (n : Nat)
  | clerk (n : Nat)
  | cxl (n : Nat)
  | plane (n : Nat)
  | dram (die : Nat)
  | host
  | core (die index : Nat)
  deriving DecidableEq, Repr

/-- What a fabric request asks at an offset of the exported window (R434). -/
inductive FabricOp where
  | load (bytes : Nat)
  /-- The bytes of a store, with its byte enables. -/
  | store (data : List (Option Byte))
  /-- An atomic of R298 on 2^width bytes: its operation, its operand, and the value that a compare-and-swap compares. -/
  | atomic (op width : Nat) (b x : W64)
  deriving DecidableEq, Repr

/-- The steps of the device. -/
inductive Instr where
  -- control, names, scheduling (file 09)
  | nop (o : VOps)
  | bra (o : BOps)
  | jmpi (o : VOps)
  | call (o : BOps)
  | ret (o : VOps)
  | exit (o : VOps)
  | trap (o : IOps)
  | tret (o : VOps)
  | suspendCounter (o : VOps)
  | suspendTill (o : VOps)
  | suspendMonitor (o : VOps)
  | yield (o : VOps)
  | grow (o : IOps)
  | shrink (o : IOps)
  | bart (o : IOps)
  | barc (o : IOps)
  | barg (o : IOps)
  | spawn (o : VOps)
  | signal (o : VOps)
  | wake (o : VOps)
  | deposit (o : VOps)
  | join (o : VOps)
  | evrd (o : VOps)
  | evadd (o : VOps)
  -- scalar integer (file 09)
  | sadd (o : VOps)
  | ssub (o : VOps)
  | smul (o : VOps)
  | smulh (o : VOps)
  | sdiv (o : VOps)
  | srem (o : VOps)
  | sand (o : VOps)
  | sor (o : VOps)
  | sxor (o : VOps)
  | sshl (o : VOps)
  | sshr (o : VOps)
  | ssar (o : VOps)
  | smin (o : VOps)
  | smax (o : VOps)
  | scmp (o : VOps)
  | ssel (o : VOps)
  | smov (o : VOps)
  | saddi (o : IOps)
  | smovi (o : WOps)
  | smovh (o : WOps)
  | spopc (o : VOps)
  | sclz (o : VOps)
  | sbfe (o : IOps)
  | sbfi (o : IOps)
  -- vector integer, moves, cross-lane (file 10)
  | iadd (o : VOps)
  | isub (o : VOps)
  | imul (o : VOps)
  | imulh (o : VOps)
  | imad (o : VOps)
  | iaddmin (o : VOps)
  | iabs (o : VOps)
  | iaddi (o : IOps)
  | idot4 (o : VOps)
  | iand (o : VOps)
  | ior (o : VOps)
  | ixor (o : VOps)
  | ishl (o : VOps)
  | ishr (o : VOps)
  | isar (o : VOps)
  | imin (o : VOps)
  | imax (o : VOps)
  | icmp (o : VOps)
  | isel (o : VOps)
  | ipopc (o : VOps)
  | iclz (o : VOps)
  | ibfe (o : IOps)
  | ibfi (o : IOps)
  | mov (o : VOps)
  | movi (o : WOps)
  | s2v (o : VOps)
  | v2s (o : VOps)
  | shfl (o : VOps)
  | shup (o : VOps)
  | shdn (o : VOps)
  | shxor (o : VOps)
  | vote (o : VOps)
  | reduce (o : VOps)
  | scan (o : VOps)
  | tagof (o : VOps)
  -- floating point (file 10)
  | fadd (o : VOps)
  | fsub (o : VOps)
  | fmul (o : VOps)
  | ffma (o : VOps)
  | fmin (o : VOps)
  | fmax (o : VOps)
  | faddmin (o : VOps)
  | fcmp (o : VOps)
  | fclass (o : VOps)
  | frnd (o : VOps)
  | fscale (o : VOps)
  | pkadd (o : VOps)
  | pkmul (o : VOps)
  | pkfma (o : VOps)
  | fdot2 (o : VOps)
  | fdot4 (o : VOps)
  | fdot8 (o : VOps)
  -- conversion, special functions, random numbers (file 11)
  | cvt (o : VOps)
  | cvtsr (o : VOps)
  | qblk (o : VOps)
  | dqblk (o : VOps)
  | rcp (o : VOps)
  | rsq (o : VOps)
  | sqrt (o : VOps)
  | exp2 (o : VOps)
  | log2 (o : VOps)
  | sinpi (o : VOps)
  | cospi (o : VOps)
  | tanh (o : VOps)
  | rand (o : VOps)
  -- memory, atomics, commits (file 11)
  | ldp (o : VOps)
  | stp (o : VOps)
  | ldt (o : VOps)
  | stt (o : VOps)
  | ldg (o : VOps)
  | stg (o : VOps)
  | ldw (o : VOps)
  | atomt (o : VOps)
  | atomg (o : VOps)
  | atomp (o : VOps)
  | commit (o : VOps)
  | abort (o : VOps)
  | pfg (o : VOps)
  -- engines, matrix, system (file 12)
  | bulk (o : VOps)
  | obres (o : VOps)
  | obrel (o : VOps)
  | obload (o : VOps)
  | modeM (o : VOps)
  | modeV (o : VOps)
  | mzero (o : VOps)
  | mop (o : IOps)
  | msync (o : VOps)
  | mdrain (o : VOps)
  | rdsr (o : IOps)
  | wrsr (o : IOps)
  | brk (o : IOps)
  /-- A word with an unassigned opcode (R224). -/
  | reservedOpcode (w : W64)
  -- scheduling events (files 01, 08, 18)
  | issueSlotGrant (core qtr : Nat)
  | clauseStart (g : Nat)
  | headerFetchFaultServiced (g : Nat)
  | admission (core qtr : Nat)
  | waitDemotion (g : Nat)
  | asyncTrapTaken (g : Nat)
  | groupDeath (x : ExitStep)
  | launchPlacement (l : Nat)
  | eviction (core qtr : Nat)
  | gridBarrierMessage (m : Nat)
  | gridBarrierReleaseMsg (m : Nat)
  -- names (file 02)
  | nameRequestDelivery (r : Nat)
  | nameResendTimer (r : Nat)
  | nameRequestAnswered (r : Nat)
  | savedDelivery (r : Nat)
  | joinAtHome (r : Nat)
  | restore (g slot : Nat)
  | moveInstallation (g : Nat)
  | forcedHalt (g : Nat)
  -- completions of variable-latency operations (files 03, 05, 11)
  | loadComplete (g op : Nat) (mask : BitVec 64) (near : Bool)
  | commitComplete (g op : Nat) (sel : List Nat)
  | releasePerform (g op : Nat) (sel : List Nat)
  | atomicPerformed (g op : Nat) (order : List Nat)
  | vaultRoutineRun (g op lane : Nat)
  | sfuComplete (g op : Nat)
  | mopComplete (core qtr : Nat)
  | multiplyArrayIssue (g : Nat)
  | obresComplete (g op : Nat)
  | obloadComplete (g op : Nat)
  | mdrainReadComplete (g op : Nat)
  | integrityCheckFail (g k : Nat)
  -- engines (files 03, 04, 12)
  | requestListTaken (core : Nat)
  | presenceClearAck (core queue : Nat)
  | engineEntryStart (core queue : Nat)
  | engineLineArrival (core queue : Nat)
  | engineEntryComplete (core queue : Nat)
  | fenceComplete (core queue : Nat)
  -- translation (file 21)
  | pageWalkComplete (w : Nat)
  | priResponse (r : Nat) (success : Bool)
  | atsInvalidate (func : Nat) (va pages : Nat)
  -- teller (file 20)
  | submit (func page off : Nat) (data : List Byte) (posted : Bool)
  | launch (q : Nat)
  | tellerSignal (q : Nat)
  | tellerDeposit (q : Nat)
  | copy (q : Nat)
  | move (q : Nat)
  | kill (q : Nat)
  | queueTableWrite (q word : Nat) (value : W64)
  -- partition commands (file 21)
  | configure
  | retire
  | admitWorld
  | depart
  | departComplete (func : Nat)
  | invtlb
  | invname
  | assign
  | release
  | relnames
  | routine
  | partitionTableWrite (p word : Nat) (value : W64)
  | registerWrite (off : Nat) (value : W64)
  -- pre-emption, faults, errors (file 22)
  | tenantSliceEnd (p : Nat)
  | graceExpiry (g : Nat)
  | clerkGraceExpiry (e : Nat)
  | responseTaken (func : Nat)
  | packetTagFailure (p : FlowPacket) (kind : PacketKind)
  | softError (t : SoftTarget)
  | treeNodeError (node port base frames : Nat)
  | hostWriteArrival (pa : Nat) (data : List (Option Byte)) (release : Bool)
  | hostCxlMemAccess (pa : Nat) (write : Option (List Byte)) (bytes : Nat)
  -- TDISP (file 21)
  | tdiError (func : Nat)
  | getTdispVersion (func : Nat)
  | getTdispCapabilities (func : Nat)
  | lockInterfaceRequest (func : Nat)
  | getDeviceInterfaceReport (func : Nat)
  | getDeviceInterfaceState (func : Nat)
  | startInterfaceRequest (func : Nat)
  | stopInterfaceRequest (func : Nat)
  -- boot, measurement, management (file 23)
  | powerOnBoot
  | mrExtend (n : Nat) (digest : BitVec 512)
  | fminRaise (svn : Nat)
  | readyBitSet (b : ReadyBit)
  | functionOutOfService (b : ReadyBit)
  | configRequest (func : Nat)
  | getVersion
  | getCapabilities
  | negotiateAlgorithms (hash asym dhe : Bool) (sess : SessionAlgs)
  | getDigests
  | getCertificate (off len : Nat)
  | challenge (nonce : List Byte)
  | getMeasurements (blocks : List Nat) (nonce : List Byte)
  | keyExchange (dheKey : List Byte)
  | finish (session : Nat) (mac : List Byte)
  | keyUpdate (session : Nat)
  | endSession (session : Nat)
  | ideKm (session stream : Nat) (key : List Byte)
  | spdmUnsupportedRequest (code : Nat)
  | pldmDiscovery (code : Nat)
  | pldmMonitoring (sensor : Nat)
  | pldmFirmwareUpdate (off : Nat) (data : List Byte)
  | activateFirmware
  -- fabric (file 24)
  | fabricRequest (ep off : Nat) (op : FabricOp)
  | planeDead (l : FabricLink)
  | heartbeatSend
  | peerSilent (n : Nat)
  | endpointClaimAck (ep plane : Nat)
  | windowEntryWrite (n : Nat) (value : W64)
  | collectiveSubmit (value : W64)
  | collectiveComplete (c : Nat)
  | dramRefresh (vault : Nat)
  | egressEscrowDrain (k : Nat)
  -- the remaining rows of the table
  | storeComplete (g op : Nat)
  | prefetchComplete (g op : Nat)
  | abortComplete (g op : Nat)
  | integrityCheckPass (g k : Nat)
  | heartbeatArrival (ep : Nat)
  | atsTranslationCompletion (r : Nat) (granted : Option (Nat × Bool))
  | clerkResponse (e : Nat) (handled : Bool) (act : Nat)
  | eventRingConsumed (func : Nat) (cons : W64)
  deriving DecidableEq, Repr

end Sys2Proof
end

