-- ==== Sys2Proof/Machine/Bits.lean ====
section
/-! DEFINITION. Bit fields, lane masks and byte order (R11, R203): the helpers every other file reads and writes fields with. -/

namespace Sys2Proof.Machine

/-- Bits [hi:lo] of a word as a natural number (R203). -/
def bitsN {n : Nat} (x : BitVec n) (hi lo : Nat) : Nat := (x.extractLsb' lo (hi + 1 - lo)).toNat

/-- Bits [hi:lo] of a natural number. -/
def natBits (x hi lo : Nat) : Nat := (x >>> lo) % 2 ^ (hi + 1 - lo)

/-- The word with bits [hi:lo] replaced by the low bits of v. -/
def setBits {n : Nat} (x : BitVec n) (hi lo v : Nat) : BitVec n :=
  let m : BitVec n := BitVec.ofNat n ((2 ^ (hi + 1 - lo) - 1) <<< lo)
  (x &&& ~~~m) ||| (BitVec.ofNat n (v <<< lo) &&& m)

/-- One bit of a word. -/
def bitAt {n : Nat} (x : BitVec n) (i : Nat) : Bool := x.getLsbD i

/-- The n-bit value x, sign-extended, as an integer (R203). -/
def sextI (x n : Nat) : Int := (BitVec.ofNat n x).toInt

/-- An integer as a 32-bit word, modulo 2^32. -/
def w32 (x : Int) : W32 := BitVec.ofInt 32 x

/-- An integer as a 64-bit word, modulo 2^64. -/
def w64 (x : Int) : W64 := BitVec.ofInt 64 x

/-- The low n bytes of a number, lowest first (R11). -/
def bytesLE : Nat → Nat → List Byte
  | 0, _ => []
  | n + 1, x => BitVec.ofNat 8 x :: bytesLE n (x / 256)

/-- The number that bytes give, lowest first (R11). -/
def ofBytesLE : List Byte → Nat
  | [] => 0
  | b :: bs => b.toNat + 256 * ofBytesLE bs

/-- The lanes of a mask, ascending. -/
def lanesOf (m : BitVec 64) : List Nat := (List.range 64).filter (fun i => m.getLsbD i)

/-- The mask of the lanes that satisfy p. -/
def laneMask (p : Nat → Bool) : BitVec 64 :=
  BitVec.ofNat 64 ((List.range 64).foldl (fun acc i => if p i then acc + 2 ^ i else acc) 0)

/-- The mask of a list of lanes. -/
def maskOf (ls : List Nat) : BitVec 64 := laneMask (fun i => ls.contains i)

/-- The lowest lane of a mask. -/
def lowLane (m : BitVec 64) : Option Nat := (List.range 64).find? (fun i => m.getLsbD i)

/-- The quads that hold a lane of the mask (R24). -/
def quadsOf (m : BitVec 64) : List Nat := (List.range 16).filter (fun q => (List.range 4).any (fun j => m.getLsbD (4 * q + j)))

/-- Element n of a list, or the default. -/
def nthD {α : Type} (l : List α) (n : Nat) (d : α) : α := l.getD n d

/-- A list with element n replaced by f of it. -/
def modifyNth {α : Type} (f : α → α) : Nat → List α → List α
  | _, [] => []
  | 0, x :: xs => f x :: xs
  | n + 1, x :: xs => x :: modifyNth f n xs

/-- A list with element n replaced. -/
def setNth {α : Type} (l : List α) (n : Nat) (v : α) : List α := modifyNth (fun _ => v) n l

/-- A list with its first element replaced by f of it. -/
def modHead {α : Type} (f : α → α) : List α → List α
  | [] => []
  | x :: xs => f x :: xs

/-- A list with element n removed. -/
def dropNth {α : Type} : Nat → List α → List α
  | _, [] => []
  | 0, _ :: xs => xs
  | n + 1, x :: xs => x :: dropNth n xs

/-- The value a list of pairs gives a key, or the default. -/
def lookupD {β : Type} (l : List (Nat × β)) (k : Nat) (d : β) : β :=
  match l with
  | [] => d
  | p :: ps => if p.1 = k then p.2 else lookupD ps k d

/-- The pairs with key k given value v, in place or at the end. -/
def setKey {β : Type} (l : List (Nat × β)) (k : Nat) (v : β) : List (Nat × β) :=
  match l with
  | [] => [(k, v)]
  | p :: ps => if p.1 = k then (k, v) :: ps else p :: setKey ps k v

/-- The pairs without key k. -/
def dropKey {β : Type} (l : List (Nat × β)) (k : Nat) : List (Nat × β) := l.filter (fun p => p.1 ≠ k)

/-- The positions of a list at which p holds, ascending. -/
def positions {α : Type} (p : α → Bool) : Nat → List α → List Nat
  | _, [] => []
  | n, x :: xs => if p x then n :: positions p (n + 1) xs else positions p (n + 1) xs

/-- The first position at which p holds. -/
def position {α : Type} (p : α → Bool) (l : List α) : Option Nat := (positions p 0 l).head?

/-- The list sorted by insertion, under a strict order that places equal elements in their first order. -/
def insertBy {α : Type} (lt : α → α → Bool) (x : α) : List α → List α
  | [] => [x]
  | y :: ys => if lt x y then x :: y :: ys else y :: insertBy lt x ys

def sortBy {α : Type} (lt : α → α → Bool) (l : List α) : List α :=
  l.foldl (fun acc x => insertBy lt x acc) []

/-- The list without repeats, keeping first places. -/
def dedupN (l : List Nat) : List Nat :=
  l.foldl (fun acc x => if acc.contains x then acc else acc ++ [x]) []

/-- x rounded down to a multiple of n. -/
def alignDown (x n : Nat) : Nat := x - x % n

end Sys2Proof.Machine
end

