-- ==== Sys2Proof/Machine/Keccak.lean ====
section
/-! DEFINITION. The two hash functions that the boot chain and the measurement registers name (R423, R425): SHA3-512 and SHAKE256 taken to 64
bytes. The manual names them; what they are is FIPS 202 (PRESUMED, log entry 57). -/

namespace Sys2Proof.Machine

/-- The rotation of each lane of the state, lane x + 5y (FIPS 202, ρ). -/
def keccakRot : List Nat :=
  [0, 1, 62, 28, 27, 36, 44, 6, 55, 20, 3, 10, 43, 25, 39, 41, 45, 15, 21, 8, 18, 2, 61, 56, 14]

/-- The round constants (FIPS 202, ι). -/
def keccakRc : List W64 :=
  [0x0000000000000001, 0x0000000000008082, 0x800000000000808A, 0x8000000080008000, 0x000000000000808B, 0x0000000080000001,
    0x8000000080008081, 0x8000000000008009, 0x000000000000008A, 0x0000000000000088, 0x0000000080008009, 0x000000008000000A] ++
  [0x000000008000808B, 0x800000000000008B, 0x8000000000008089, 0x8000000000008003, 0x8000000000008002, 0x8000000000000080,
    0x000000000000800A, 0x800000008000000A, 0x8000000080008081, 0x8000000000008080, 0x0000000080000001, 0x8000000080008008]

/-- One round: θ, then ρ and π, then χ and ι. -/
def keccakRound (a : List W64) (rc : W64) : List W64 :=
  let at_ := fun (l : List W64) (x y : Nat) => l.getD (x % 5 + 5 * (y % 5)) 0
  let column := (List.range 5).map (fun x => (List.range 5).foldl (fun s y => s ^^^ at_ a x y) 0)
  let mix := fun (x : Nat) => column.getD ((x + 4) % 5) 0 ^^^ (column.getD ((x + 1) % 5) 0).rotateLeft 1
  let theta := (List.range 25).map (fun k => a.getD k 0 ^^^ mix (k % 5))
  -- lane (x, y) of the result comes from lane (x + 3y, x)
  let b := (List.range 25).map (fun k =>
    let x := k % 5
    let y := k / 5
    let from_ := (x + 3 * y) % 5 + 5 * x
    (theta.getD from_ 0).rotateLeft (keccakRot.getD from_ 0))
  (List.range 25).map (fun k =>
    let x := k % 5
    let y := k / 5
    let v := at_ b x y ^^^ (~~~(at_ b (x + 1) y) &&& at_ b (x + 2) y)
    if k = 0 then v ^^^ rc else v)

/-- The permutation: 24 rounds. -/
def keccakF (a : List W64) : List W64 := keccakRc.foldl keccakRound a

/-- A message padded to whole blocks of `rate` bytes with a domain's suffix. -/
def keccakPad (rate suffix : Nat) (m : List Byte) : List Byte :=
  let n := rate - m.length % rate
  m ++ (List.range n).map (fun k => (if k = 0 then BitVec.ofNat 8 suffix else 0) ||| (if k + 1 = n then 0x80 else 0))

/-- A block taken into the state. -/
def keccakBlock (a : List W64) (block : List Byte) : List W64 :=
  keccakF ((List.range 25).map (fun k => a.getD k 0 ^^^ BitVec.ofNat 64 (ofBytesLE ((block.drop (8 * k)).take 8))))

/-- The sponge's state once a message has been taken in. -/
def absorb (rate suffix : Nat) (m : List Byte) : List W64 :=
  let p := keccakPad rate suffix m
  (List.range (p.length / rate)).foldl (fun a k => keccakBlock a ((p.drop (rate * k)).take rate)) (List.replicate 25 0)

/-- The first 64 bytes that the sponge gives for a message. -/
def sponge512 (rate suffix : Nat) (m : List Byte) : BitVec 512 :=
  BitVec.ofNat 512 (ofBytesLE (((absorb rate suffix m).take 8).flatMap (fun w => bytesLE 8 w.toNat)))

/-- SHA3-512 of a byte string, byte 0 lowest. -/
def sha3_512 (m : List Byte) : BitVec 512 := sponge512 72 0x06 m

/-- SHAKE256 of a byte string taken to 64 bytes, byte 0 lowest. -/
def shake256 (m : List Byte) : BitVec 512 := sponge512 136 0x1F m

end Sys2Proof.Machine
end

