-- ==== Sys2Proof/Machine/Falcon.lean ====
section
/-! DEFINITION. The check of a Falcon-1024 signature, which the boot ROM makes (R423 step 4). The manual names it; what it is is the Falcon
submission to NIST's post-quantum project, round 3 (PRESUMED, log entry 64). -/

namespace Sys2Proof.Machine

/-- The modulus, the number of coefficients, and the bound on the squared norm of Falcon-1024. -/
abbrev falconQ : Nat := 12289
abbrev falconN : Nat := 1024
abbrev falconBound : Nat := 70265242

/-- The bits of bytes, the highest of each byte first. -/
def bitsMsb (bs : List Byte) : List Bool := bs.flatMap (fun b => (List.range 8).map (fun k => b.getLsbD (7 - k)))

/-- A number from its bits, the highest first. -/
def ofBitsMsb (l : List Bool) : Nat := l.foldl (fun n b => 2 * n + (if b then 1 else 0)) 0

/-- n coefficients of 14 bits, each below the modulus. -/
def falconCoefs : Nat → List Bool → Option (List Nat)
  | 0, _ => some []
  | n + 1, l =>
    let c := ofBitsMsb (l.take 14)
    if falconQ ≤ c then none else (falconCoefs n (l.drop 14)).map (fun cs => c :: cs)

/-- The public key h: a header byte of 0x0A and 1,024 coefficients. -/
def falconKey (pk : List Byte) : Option (List Nat) :=
  if pk.headD 0 = 0x0A ∧ pk.length = 1793 then falconCoefs falconN (bitsMsb (pk.drop 1)) else none

/-- The zeros before the first one, and what follows it. -/
def unary : List Bool → Option (Nat × List Bool)
  | [] => none
  | true :: l => some (0, l)
  | false :: l => (unary l).map (fun r => (r.1 + 1, r.2))

/-- n coefficients of the compressed s2, each a sign, seven low bits and a unary high part, with zeros behind the last; a zero has no sign. -/
def falconDecompress : Nat → List Bool → Option (List Int)
  | 0, l => if l.any id then none else some []
  | n + 1, l =>
    match unary (l.drop 8) with
    | none => none
    | some (k, rest) =>
      let m := 128 * k + ofBitsMsb ((l.drop 1).take 7)
      if m = 0 ∧ l.headD false = true then none
      else (falconDecompress n rest).map (fun cs => (if l.headD false then -(m : Int) else (m : Int)) :: cs)

/-- A polynomial times x, modulo x^n + 1. -/
def timesX (p : List Int) : List Int := -(p.getLastD 0) :: p.dropLast

/-- The product of two polynomials modulo x^n + 1. -/
def falconMul (p : List Int) (h : List Nat) : List Int :=
  h.reverse.foldl (fun acc c => (timesX acc).zipWith (fun a b => (a + (c : Int) * b) % (falconQ : Int)) p) (List.replicate p.length 0)

/-- A coefficient by its representative nearest to 0. -/
def centered (x : Int) : Int :=
  let r := x % (falconQ : Int)
  if (falconQ : Int) < 2 * r then r - (falconQ : Int) else r

/-- The squared length of a polynomial. -/
def normSq (p : List Int) : Nat := p.foldl (fun n x => n + x.natAbs * x.natAbs) 0

/-- Coefficients from the bytes of one block, two bytes each, the higher first; a number of 5q or more is passed over. -/
def pointCoefs : List Byte → List Nat
  | a :: b :: rest =>
    let t := 256 * a.toNat + b.toNat
    if t < 5 * falconQ then t % falconQ :: pointCoefs rest else pointCoefs rest
  | _ => []

/-- The bytes that a sponge of SHAKE256 gives in one block. -/
def shakeBlock (a : List W64) : List Byte := (a.take 17).flatMap (fun w => bytesLE 8 w.toNat)

/-- n coefficients squeezed from a sponge, block after block, of at most `fuel` blocks. -/
def squeezePoint (n : Nat) : Nat → List W64 → List Nat → List Nat
  | 0, _, acc => acc
  | fuel + 1, a, acc =>
    let acc1 := acc ++ pointCoefs (shakeBlock a)
    if n ≤ acc1.length then acc1.take n else squeezePoint n fuel (keccakF a) acc1

/-- The point to which a nonce and a message are hashed. A digest that gives too few coefficients in 4,096 blocks gives no point. -/
def hashToPoint (nonce m : List Byte) : List Nat := squeezePoint falconN 4096 (absorb 136 0x1F (nonce ++ m)) []

/-- Whether a signature verifies: its header 0x3A, its nonce of 40 bytes and its s2, against a key and a message. -/
def falconVerify (pk m sig : List Byte) : Bool :=
  match falconKey pk, falconDecompress falconN (bitsMsb (sig.drop 41)) with
  | some h, some s2 =>
    let c := hashToPoint ((sig.drop 1).take 40) m
    let s1 := c.zipWith (fun a b => centered ((a : Int) - b)) (falconMul s2 h)
    sig.headD 0 == 0x3A && decide (41 ≤ sig.length) && c.length == falconN && decide (normSq s1 + normSq s2 ≤ falconBound)
  | _, _ => false

end Sys2Proof.Machine
end

