-- ==== Sys2Proof/Machine/Checks.lean ====
section
/-! DEFINITION. What the encoding alone decides: the row of R223 for each instruction, the operand kinds of R212, and the tests of
R225 that read nothing but the word (1, 4, 5, 6, 8 for SB, 9, and test 7 for GSEL). -/

namespace Sys2Proof.Machine

/-- Clause classes (R215). -/
inductive Class where | alu | sfu | mem | mat | ctrl
  deriving DecidableEq, Repr

/-- The code of a class in a clause header (R205). -/
def Class.code : Class → Nat
  | .alu => 0 | .sfu => 1 | .mem => 2 | .mat => 3 | .ctrl => 4

/-- Operand kinds (R212): `no` is an unused field; a number is how many registers a vector operand spans (R213); `raw` is a field
that names no register (R218, R220, R221); `md` carries MOD, whose width it depends on. -/
inductive Kind where
  | no | vs | vsN (n : Nat) | vd | vdN (n : Nat) | vdOpt (n : Nat) | ss | sd | us | st | ta | ga | md (mod : BitVec 8) | any | win | raw
  deriving DecidableEq, Repr

/-- What R217 asks of SB. -/
inductive SlotRule where | never | must | ifDest | opt
  deriving DecidableEq, Repr

/-- The four layouts of R210. -/
inductive Layout where
  | v (o : VOps) | i (o : IOps) | w (o : WOps) | b (o : BOps)
  deriving DecidableEq, Repr

/-- The row of R223 of an instruction with its operands: opcode, layout, class, kinds of D, A, B and C, the MOD bits the
description assigns (R211), the slot rule (R217), whether it is a control transfer or a gathering instruction (R216), and
whether it acts per lane (R208). -/
structure View where
  op       : BitVec 10
  lay      : Layout
  cls      : Class
  kd       : Kind
  ka       : Kind
  kb       : Kind
  kc       : Kind
  mask     : BitVec 8
  slot     : SlotRule
  transfer : Bool
  gather   : Bool
  perLane  : Bool
  deriving DecidableEq, Repr

/-- Registers that memory data of the width of MOD occupies (R218). -/
def dataSpan (mod : BitVec 8) : Nat :=
  match bitsN mod 2 0 with
  | 3 => 2
  | 4 => 4
  | _ => 1

/-- Registers that QBLK's operands span (R285). -/
def qblkSpan (mod : BitVec 8) : Nat := if mod.getLsbD 3 then 3 else 1

/-- The row of R223 of each instruction word; none for a reserved opcode and for an event of the device. Whether the word sets a slot decides test 8
(R217); SHRINK, which R217 does not list and which sets none by R245, is taken not to, so that its SB is 0 (the model's choice, log entry 68). -/
def view : Instr → Option View
  | .nop o => some ⟨0x000, .v o, .ctrl, .no, .no, .no, .no, 0x00, .never, false, false, false⟩
  | .bra o => some ⟨0x001, .b o, .ctrl, .no, .no, .no, .no, 0x00, .never, true, false, true⟩
  | .jmpi o => some ⟨0x002, .v o, .ctrl, .no, .us, .no, .no, 0x00, .never, true, false, true⟩
  | .call o => some ⟨0x003, .b o, .ctrl, .no, .no, .no, .no, 0x3F, .never, true, false, true⟩
  | .ret o => some ⟨0x004, .v o, .ctrl, .no, .ss, .no, .no, 0x00, .never, true, false, true⟩
  | .exit o => some ⟨0x005, .v o, .ctrl, .no, .us, .no, .no, 0x00, .never, true, false, true⟩
  | .trap o => some ⟨0x006, .i o, .ctrl, .no, .no, .no, .no, 0x00, .never, true, false, false⟩
  | .tret o => some ⟨0x007, .v o, .ctrl, .no, .no, .no, .no, 0x00, .never, true, true, false⟩
  | .suspendCounter o => some ⟨0x008, .v o, .ctrl, .no, .us, .no, .no, 0x3F, .never, true, true, false⟩
  | .suspendTill o => some ⟨0x008, .v o, .ctrl, .no, .us, .us, .no, 0x03, .never, true, true, false⟩
  | .suspendMonitor o => some ⟨0x008, .v o, .ctrl, .no, .us, .us, .no, 0x03, .never, true, true, false⟩
  | .yield o => some ⟨0x009, .v o, .ctrl, .no, .no, .no, .no, 0x01, .never, true, true, false⟩
  | .grow o => some ⟨0x00A, .i o, .ctrl, .no, .no, .no, .no, 0x00, .never, true, true, false⟩
  | .shrink o => some ⟨0x00B, .i o, .ctrl, .no, .no, .no, .no, 0x00, .never, false, true, false⟩
  | .bart o => some ⟨0x00C, .i o, .ctrl, .no, .no, .no, .no, 0x00, .never, true, true, false⟩
  | .barc o => some ⟨0x00D, .i o, .ctrl, .no, .no, .no, .no, 0x00, .never, true, true, false⟩
  | .barg o => some ⟨0x00E, .i o, .ctrl, .no, .no, .no, .no, 0x00, .never, true, true, false⟩
  | .spawn o => some ⟨0x00F, .v o, .ctrl, .st, .us, .no, .no, 0x00, .ifDest, false, false, false⟩
  | .signal o => some ⟨0x010, .v o, .ctrl, .st, .ss, .us, .no, 0x1F, .ifDest, false, false, false⟩
  | .wake o => some ⟨0x011, .v o, .ctrl, .st, .ss, .no, .no, 0x10, .ifDest, false, false, false⟩
  | .deposit o => some ⟨0x012, .v o, .ctrl, .st, .ss, .us, .no, 0x17, .ifDest, false, false, false⟩
  | .join o => some ⟨0x013, .v o, .ctrl, .st, .ss, .no, .no, 0x00, .ifDest, false, false, false⟩
  | .evrd o => some ⟨0x014, .v o, .ctrl, .sd, .no, .no, .no, 0x1F, .never, false, false, false⟩
  | .evadd o => some ⟨0x015, .v o, .ctrl, .no, .us, .no, .no, 0x0F, .never, false, false, false⟩
  | .sadd o => some ⟨0x080, .v o, .alu, .sd, .ss, .ss, .no, 0x01, .never, false, false, false⟩
  | .ssub o => some ⟨0x081, .v o, .alu, .sd, .ss, .ss, .no, 0x01, .never, false, false, false⟩
  | .smul o => some ⟨0x082, .v o, .alu, .sd, .ss, .ss, .no, 0x01, .never, false, false, false⟩
  | .smulh o => some ⟨0x083, .v o, .alu, .sd, .ss, .ss, .no, 0x02, .never, false, false, false⟩
  | .sdiv o => some ⟨0x084, .v o, .alu, .sd, .ss, .ss, .no, 0x02, .never, false, false, false⟩
  | .srem o => some ⟨0x085, .v o, .alu, .sd, .ss, .ss, .no, 0x02, .never, false, false, false⟩
  | .sand o => some ⟨0x086, .v o, .alu, .sd, .ss, .ss, .no, 0x00, .never, false, false, false⟩
  | .sor o => some ⟨0x087, .v o, .alu, .sd, .ss, .ss, .no, 0x00, .never, false, false, false⟩
  | .sxor o => some ⟨0x088, .v o, .alu, .sd, .ss, .ss, .no, 0x00, .never, false, false, false⟩
  | .sshl o => some ⟨0x089, .v o, .alu, .sd, .ss, .ss, .no, 0x00, .never, false, false, false⟩
  | .sshr o => some ⟨0x08A, .v o, .alu, .sd, .ss, .ss, .no, 0x00, .never, false, false, false⟩
  | .ssar o => some ⟨0x08B, .v o, .alu, .sd, .ss, .ss, .no, 0x00, .never, false, false, false⟩
  | .smin o => some ⟨0x08C, .v o, .alu, .sd, .ss, .ss, .no, 0x02, .never, false, false, false⟩
  | .smax o => some ⟨0x08D, .v o, .alu, .sd, .ss, .ss, .no, 0x02, .never, false, false, false⟩
  | .scmp o => some ⟨0x08E, .v o, .alu, .sd, .ss, .ss, .no, 0x1E, .never, false, false, false⟩
  | .ssel o => some ⟨0x08F, .v o, .alu, .sd, .ss, .ss, .ss, 0x00, .never, false, false, false⟩
  | .smov o => some ⟨0x090, .v o, .alu, .sd, .ss, .no, .no, 0x00, .never, false, false, false⟩
  | .saddi o => some ⟨0x091, .i o, .alu, .sd, .ss, .no, .no, 0x01, .never, false, false, false⟩
  | .smovi o => some ⟨0x092, .w o, .alu, .sd, .no, .no, .no, 0x00, .never, false, false, false⟩
  | .smovh o => some ⟨0x093, .w o, .alu, .sd, .no, .no, .no, 0x00, .never, false, false, false⟩
  | .spopc o => some ⟨0x094, .v o, .alu, .sd, .ss, .no, .no, 0x00, .never, false, false, false⟩
  | .sclz o => some ⟨0x095, .v o, .alu, .sd, .ss, .no, .no, 0x00, .never, false, false, false⟩
  | .sbfe o => some ⟨0x096, .i o, .alu, .sd, .ss, .no, .no, 0x02, .never, false, false, false⟩
  | .sbfi o => some ⟨0x097, .i o, .alu, .sd, .ss, .no, .no, 0x00, .never, false, false, false⟩
  | .iadd o => some ⟨0x100, .v o, .alu, .vd, .vs, .vs, .no, 0x01, .never, false, false, true⟩
  | .isub o => some ⟨0x101, .v o, .alu, .vd, .vs, .vs, .no, 0x01, .never, false, false, true⟩
  | .imul o => some ⟨0x102, .v o, .alu, .vd, .vs, .vs, .no, 0x01, .never, false, false, true⟩
  | .imulh o => some ⟨0x103, .v o, .alu, .vd, .vs, .vs, .no, 0x02, .never, false, false, true⟩
  | .imad o => some ⟨0x104, .v o, .alu, .vd, .vs, .vs, .vs, 0x03, .never, false, false, true⟩
  | .iaddmin o => some ⟨0x105, .v o, .alu, .vd, .vs, .vs, .vs, 0x03, .never, false, false, true⟩
  | .iabs o => some ⟨0x10E, .v o, .alu, .vd, .vs, .no, .no, 0x01, .never, false, false, true⟩
  | .iaddi o => some ⟨0x115, .i o, .alu, .vd, .vs, .no, .no, 0x01, .never, false, false, true⟩
  | .idot4 o => some ⟨0x116, .v o, .alu, .vd, .vs, .vs, .vs, 0x03, .never, false, false, true⟩
  | .iand o => some ⟨0x106, .v o, .alu, .vd, .vs, .vs, .no, 0x00, .never, false, false, true⟩
  | .ior o => some ⟨0x107, .v o, .alu, .vd, .vs, .vs, .no, 0x00, .never, false, false, true⟩
  | .ixor o => some ⟨0x108, .v o, .alu, .vd, .vs, .vs, .no, 0x00, .never, false, false, true⟩
  | .ishl o => some ⟨0x109, .v o, .alu, .vd, .vs, .vs, .no, 0x00, .never, false, false, true⟩
  | .ishr o => some ⟨0x10A, .v o, .alu, .vd, .vs, .vs, .no, 0x00, .never, false, false, true⟩
  | .isar o => some ⟨0x10B, .v o, .alu, .vd, .vs, .vs, .no, 0x00, .never, false, false, true⟩
  | .imin o => some ⟨0x10C, .v o, .alu, .vd, .vs, .vs, .no, 0x02, .never, false, false, true⟩
  | .imax o => some ⟨0x10D, .v o, .alu, .vd, .vs, .vs, .no, 0x02, .never, false, false, true⟩
  | .icmp o => some ⟨0x10F, .v o, .alu, .vd, .vs, .vs, .no, 0x1E, .never, false, false, true⟩
  | .isel o => some ⟨0x110, .v o, .alu, .vd, .vs, .vs, .vs, 0x00, .never, false, false, true⟩
  | .ipopc o => some ⟨0x111, .v o, .alu, .vd, .vs, .no, .no, 0x00, .never, false, false, true⟩
  | .iclz o => some ⟨0x112, .v o, .alu, .vd, .vs, .no, .no, 0x00, .never, false, false, true⟩
  | .ibfe o => some ⟨0x113, .i o, .alu, .vd, .vs, .no, .no, 0x02, .never, false, false, true⟩
  | .ibfi o => some ⟨0x114, .i o, .alu, .vd, .vs, .no, .no, 0x00, .never, false, false, true⟩
  | .mov o => some ⟨0x117, .v o, .alu, .vd, .vs, .no, .no, 0x00, .never, false, false, true⟩
  | .movi o => some ⟨0x118, .w o, .alu, .vd, .no, .no, .no, 0x00, .never, false, false, true⟩
  | .s2v o => some ⟨0x119, .v o, .alu, (.vdN 2), .ss, .no, .no, 0x00, .never, false, false, true⟩
  | .v2s o => some ⟨0x11A, .v o, .alu, .sd, .vs, .us, .no, 0x00, .never, false, false, false⟩
  | .shfl o => some ⟨0x11B, .v o, .alu, .vd, .vs, .vs, .no, 0x00, .never, false, false, true⟩
  | .shup o => some ⟨0x11C, .v o, .alu, .vd, .vs, .us, .vs, 0x00, .never, false, false, true⟩
  | .shdn o => some ⟨0x11D, .v o, .alu, .vd, .vs, .us, .vs, 0x00, .never, false, false, true⟩
  | .shxor o => some ⟨0x11E, .v o, .alu, .vd, .vs, .us, .no, 0x00, .never, false, false, true⟩
  | .vote o => some ⟨0x11F, .v o, .alu, .sd, .vs, .no, .no, 0x03, .never, false, false, false⟩
  | .reduce o => some ⟨0x120, .v o, .alu, .vd, .vs, .no, .no, 0x7F, .never, false, false, true⟩
  | .scan o => some ⟨0x121, .v o, .alu, .vd, .vs, .no, .no, 0xFF, .never, false, false, true⟩
  | .tagof o => some ⟨0x122, .v o, .alu, .sd, .any, .no, .no, 0x00, .never, false, false, false⟩
  | .fadd o => some ⟨0x180, .v o, .alu, .vd, .vs, .vs, .no, 0x0F, .never, false, false, true⟩
  | .fsub o => some ⟨0x181, .v o, .alu, .vd, .vs, .vs, .no, 0x0F, .never, false, false, true⟩
  | .fmul o => some ⟨0x182, .v o, .alu, .vd, .vs, .vs, .no, 0x0F, .never, false, false, true⟩
  | .ffma o => some ⟨0x183, .v o, .alu, .vd, .vs, .vs, .vs, 0x0F, .never, false, false, true⟩
  | .fmin o => some ⟨0x184, .v o, .alu, .vd, .vs, .vs, .no, 0x00, .never, false, false, true⟩
  | .fmax o => some ⟨0x185, .v o, .alu, .vd, .vs, .vs, .no, 0x00, .never, false, false, true⟩
  | .faddmin o => some ⟨0x186, .v o, .alu, .vd, .vs, .vs, .vs, 0x0F, .never, false, false, true⟩
  | .fcmp o => some ⟨0x187, .v o, .alu, .vd, .vs, .vs, .no, 0x1C, .never, false, false, true⟩
  | .fclass o => some ⟨0x188, .v o, .alu, .vd, .vs, .no, .no, 0x00, .never, false, false, true⟩
  | .frnd o => some ⟨0x189, .v o, .alu, .vd, .vs, .no, .no, 0x07, .never, false, false, true⟩
  | .fscale o => some ⟨0x18A, .v o, .alu, .vd, .vs, .vs, .no, 0x0F, .never, false, false, true⟩
  | .pkadd o => some ⟨0x18B, .v o, .alu, .vd, .vs, .vs, .no, 0xFF, .never, false, false, true⟩
  | .pkmul o => some ⟨0x18C, .v o, .alu, .vd, .vs, .vs, .no, 0xFF, .never, false, false, true⟩
  | .pkfma o => some ⟨0x18D, .v o, .alu, .vd, .vs, .vs, .vs, 0xFF, .never, false, false, true⟩
  | .fdot2 o => some ⟨0x18E, .v o, .alu, .vd, .vs, .vs, .vs, 0xFF, .never, false, false, true⟩
  | .fdot4 o => some ⟨0x18F, .v o, .alu, .vd, .vs, .vs, .vs, 0xFF, .never, false, false, true⟩
  | .fdot8 o => some ⟨0x190, .v o, .alu, .vd, .vs, .vs, .vs, 0xFF, .never, false, false, true⟩
  | .cvt o => some ⟨0x200, .v o, .alu, .vd, .vs, .no, .no, 0xFF, .never, false, false, true⟩
  | .cvtsr o => some ⟨0x201, .v o, .alu, .vd, .vs, .vs, .no, 0xF8, .never, false, false, true⟩
  | .qblk o => some ⟨0x202, .v o, .alu, (.vdN (qblkSpan o.mod)), (.vsN (qblkSpan o.mod)), (.vsN (qblkSpan o.mod)), .no, 0xFF, .never, false, false, true⟩
  | .dqblk o => some ⟨0x203, .v o, .alu, .vd, .vs, .vs, .no, 0xF0, .never, false, false, true⟩
  | .rcp o => some ⟨0x208, .v o, .sfu, .vd, .vs, .no, .no, 0x00, .must, false, false, true⟩
  | .rsq o => some ⟨0x209, .v o, .sfu, .vd, .vs, .no, .no, 0x00, .must, false, false, true⟩
  | .sqrt o => some ⟨0x20A, .v o, .sfu, .vd, .vs, .no, .no, 0x00, .must, false, false, true⟩
  | .exp2 o => some ⟨0x20B, .v o, .sfu, .vd, .vs, .no, .no, 0x00, .must, false, false, true⟩
  | .log2 o => some ⟨0x20C, .v o, .sfu, .vd, .vs, .no, .no, 0x00, .must, false, false, true⟩
  | .sinpi o => some ⟨0x20D, .v o, .sfu, .vd, .vs, .no, .no, 0x00, .must, false, false, true⟩
  | .cospi o => some ⟨0x20E, .v o, .sfu, .vd, .vs, .no, .no, 0x00, .must, false, false, true⟩
  | .tanh o => some ⟨0x20F, .v o, .sfu, .vd, .vs, .no, .no, 0x00, .must, false, false, true⟩
  | .rand o => some ⟨0x210, .v o, .alu, (.vdN 4), .ss, (.vdN 4), .no, 0x00, .never, false, false, true⟩
  | .ldp o => some ⟨0x280, .v o, .mem, (.vdN (dataSpan o.mod)), .ta, .no, .raw, 0xFF, .must, false, false, true⟩
  | .stp o => some ⟨0x281, .v o, .mem, .no, .ta, (.md o.mod), .raw, 0xFF, .opt, false, false, true⟩
  | .ldt o => some ⟨0x282, .v o, .mem, (.vdN (dataSpan o.mod)), .ta, .no, .raw, 0xFF, .must, false, false, true⟩
  | .stt o => some ⟨0x283, .v o, .mem, .no, .ta, (.md o.mod), .raw, 0xFF, .opt, false, false, true⟩
  | .ldg o => some ⟨0x284, .v o, .mem, (.vdN (dataSpan o.mod)), .ga, .no, .raw, 0xFF, .must, false, false, true⟩
  | .stg o => some ⟨0x285, .v o, .mem, .no, .ga, (.md o.mod), .raw, 0xFF, .opt, false, false, true⟩
  | .ldw o => some ⟨0x286, .v o, .mem, (.vdN (dataSpan o.mod)), (if o.b = 1 then .ga else .ta), .raw, .raw, 0xFF, .must, false, false, true⟩
  | .atomt o => some ⟨0x287, .v o, .mem, (.vdOpt (dataSpan o.mod)), .ta, (.vsN (dataSpan o.mod)), .raw, 0xFF, .ifDest, false, false, true⟩
  | .atomg o => some ⟨0x288, .v o, .mem, (.vdOpt (dataSpan o.mod)), .ga, (.vsN (dataSpan o.mod)), .raw, 0xFF, .ifDest, false, false, true⟩
  | .atomp o => some ⟨0x289, .v o, .mem, (.vdOpt (dataSpan o.mod)), .ga, (.vsN (dataSpan o.mod)), .raw, 0xFF, .ifDest, false, false, true⟩
  | .commit o => some ⟨0x28A, .v o, .mem, .st, .no, .no, .no, 0xE0, .ifDest, false, false, false⟩
  | .abort o => some ⟨0x28B, .v o, .mem, .st, .no, .no, .no, 0xE0, .ifDest, false, false, false⟩
  | .pfg o => some ⟨0x28C, .v o, .mem, .no, .ga, .no, .raw, 0xFF, .opt, false, false, true⟩
  | .bulk o => some ⟨0x300, .v o, .mem, .st, .ss, .ss, .ss, 0x1F, .ifDest, false, false, false⟩
  | .obres o => some ⟨0x301, .v o, .mat, .st, .ss, .no, .no, 0x07, .ifDest, false, false, false⟩
  | .obrel o => some ⟨0x302, .v o, .mat, .st, .no, .no, .no, 0x07, .ifDest, false, false, false⟩
  | .obload o => some ⟨0x303, .v o, .mat, .no, .ss, .ss, .ss, 0x07, .opt, false, false, false⟩
  | .modeM o => some ⟨0x304, .v o, .mat, .win, .no, .no, .no, 0xFF, .never, false, true, false⟩
  | .modeV o => some ⟨0x304, .v o, .mat, .no, .no, .no, .no, 0x01, .never, false, true, false⟩
  | .mzero o => some ⟨0x305, .v o, .mat, .no, .no, .no, .no, 0x00, .never, false, true, false⟩
  | .mop o => some ⟨0x306, .i o, .mat, .no, .no, .no, .no, 0x00, .opt, false, true, false⟩
  | .mdrain o => some ⟨0x307, .v o, .mat, .st, .ss, .ss, .ss, 0xFF, .ifDest, false, true, false⟩
  | .msync o => some ⟨0x308, .v o, .mat, .no, .no, .no, .no, 0x00, .never, false, false, false⟩
  | .rdsr o => some ⟨0x380, .i o, .ctrl, .sd, .no, .no, .no, 0x00, .never, false, false, false⟩
  | .wrsr o => some ⟨0x381, .i o, .ctrl, .no, .ss, .no, .no, 0x00, .never, false, false, false⟩
  | .brk o => some ⟨0x382, .i o, .ctrl, .no, .no, .no, .no, 0x00, .never, true, false, false⟩
  | .reservedOpcode _ => none
  | .issueSlotGrant .. => none
  | .clauseStart .. => none
  | .headerFetchFaultServiced .. => none
  | .admission .. => none
  | .waitDemotion .. => none
  | .asyncTrapTaken .. => none
  | .groupDeath .. => none
  | .launchPlacement .. => none
  | .eviction .. => none
  | .gridBarrierMessage .. => none
  | .gridBarrierReleaseMsg .. => none
  | .nameRequestDelivery .. => none
  | .nameResendTimer .. => none
  | .nameRequestAnswered .. => none
  | .savedDelivery .. => none
  | .joinAtHome .. => none
  | .restore .. => none
  | .moveInstallation .. => none
  | .forcedHalt .. => none
  | .loadComplete .. => none
  | .commitComplete .. => none
  | .releasePerform .. => none
  | .atomicPerformed .. => none
  | .vaultRoutineRun .. => none
  | .sfuComplete .. => none
  | .mopComplete .. => none
  | .multiplyArrayIssue .. => none
  | .obresComplete .. => none
  | .obloadComplete .. => none
  | .mdrainReadComplete .. => none
  | .integrityCheckFail .. => none
  | .requestListTaken .. => none
  | .presenceClearAck .. => none
  | .engineEntryStart .. => none
  | .engineLineArrival .. => none
  | .engineEntryComplete .. => none
  | .fenceComplete .. => none
  | .pageWalkComplete .. => none
  | .priResponse .. => none
  | .atsInvalidate .. => none
  | .submit .. => none
  | .launch .. => none
  | .tellerSignal .. => none
  | .tellerDeposit .. => none
  | .copy .. => none
  | .move .. => none
  | .kill .. => none
  | .queueTableWrite .. => none
  | .configure => none
  | .retire => none
  | .admitWorld => none
  | .depart => none
  | .departComplete .. => none
  | .invtlb => none
  | .invname => none
  | .assign => none
  | .release => none
  | .relnames => none
  | .routine => none
  | .partitionTableWrite .. => none
  | .registerWrite .. => none
  | .tenantSliceEnd .. => none
  | .graceExpiry .. => none
  | .clerkGraceExpiry .. => none
  | .responseTaken .. => none
  | .packetTagFailure .. => none
  | .softError .. => none
  | .treeNodeError .. => none
  | .hostWriteArrival .. => none
  | .hostCxlMemAccess .. => none
  | .tdiError .. => none
  | .getTdispVersion .. => none
  | .getTdispCapabilities .. => none
  | .lockInterfaceRequest .. => none
  | .getDeviceInterfaceReport .. => none
  | .getDeviceInterfaceState .. => none
  | .startInterfaceRequest .. => none
  | .stopInterfaceRequest .. => none
  | .powerOnBoot => none
  | .mrExtend .. => none
  | .fminRaise .. => none
  | .readyBitSet .. => none
  | .functionOutOfService .. => none
  | .configRequest .. => none
  | .getVersion => none
  | .getCapabilities => none
  | .negotiateAlgorithms .. => none
  | .getDigests => none
  | .getCertificate .. => none
  | .challenge .. => none
  | .getMeasurements .. => none
  | .keyExchange .. => none
  | .finish .. => none
  | .keyUpdate .. => none
  | .endSession .. => none
  | .ideKm .. => none
  | .spdmUnsupportedRequest .. => none
  | .pldmDiscovery .. => none
  | .pldmMonitoring .. => none
  | .pldmFirmwareUpdate .. => none
  | .activateFirmware => none
  | .fabricRequest .. => none
  | .planeDead .. => none
  | .heartbeatSend => none
  | .peerSilent .. => none
  | .endpointClaimAck .. => none
  | .windowEntryWrite .. => none
  | .collectiveSubmit .. => none
  | .collectiveComplete .. => none
  | .dramRefresh .. => none
  | .egressEscrowDrain .. => none
  | .storeComplete .. => none
  | .prefetchComplete .. => none
  | .abortComplete .. => none
  | .integrityCheckPass .. => none
  | .heartbeatArrival .. => none
  | .atsTranslationCompletion .. => none
  | .clerkResponse .. => none
  | .eventRingConsumed .. => none

/-- Register fields of a layout: D, A, B and C, 0xFF where the layout has none. -/
def Layout.d : Layout → RegCode
  | .v o => o.d | .i o => o.d | .w o => o.d | .b _ => 0xFF
def Layout.a : Layout → RegCode
  | .v o => o.a | .i o => o.a | .w _ => 0xFF | .b _ => 0xFF
def Layout.b' : Layout → RegCode
  | .v o => o.b | .i _ => 0xFF | .w _ => 0xFF | .b _ => 0xFF
def Layout.c : Layout → RegCode
  | .v o => o.c | .i _ => 0xFF | .w _ => 0xFF | .b _ => 0xFF
/-- The MOD field; format W has none (R210). -/
def Layout.mod : Layout → BitVec 8
  | .v o => o.mod | .i o => o.mod | .w _ => 0 | .b o => o.mod
def Layout.anc : Layout → Anc
  | .v o => o.anc | .i o => o.anc | .w o => o.anc | .b o => o.anc

/-- v0 to v191. -/
def isV (c : RegCode) : Bool := decide (c.toNat ≤ 0xBF)
/-- s0 to s47. -/
def isS (c : RegCode) : Bool := decide (0xC0 ≤ c.toNat ∧ c.toNat ≤ 0xEF)
def isZero (c : RegCode) : Bool := c == 0xF0
/-- `zero`, `lane` and `quad`. -/
def isSpecial (c : RegCode) : Bool := decide (0xF0 ≤ c.toNat ∧ c.toNat ≤ 0xF2)

/-- How many vector registers an operand of the kind spans when its code is a vector register (R213). -/
def Kind.span : Kind → Nat
  | .vsN n | .vdN n | .vdOpt n => n
  | .ga => 2
  | .md mod => dataSpan mod
  | .win => 64
  | _ => 1

/-- Test 5 of R225: the code is admitted by the kind, and the operand ends at v191 or below (R212, R213). -/
def Kind.admits (k : Kind) (c : RegCode) : Bool :=
  let fits := isV c && decide (c.toNat + k.span ≤ 192)
  match k with
  | .no => c == 0xFF
  | .vs | .vsN _ => fits || isS c || isSpecial c
  | .vd | .vdN _ => fits
  | .vdOpt _ => fits || c == 0xFF
  | .ss => isS c || isZero c
  | .sd => isS c
  | .us => isS c || isZero c || isV c
  | .st => isS c || c == 0xFF
  | .ta => isV c || isS c || isZero c
  | .ga => fits || isS c || isZero c
  | .md mod => fits || isZero c || (isS c && decide (bitsN mod 2 0 ≠ 4))
  | .any => isV c || isS c || isSpecial c
  | .win => isV c && decide (c.toNat % 16 = 0 ∧ c.toNat ≤ 0x80)
  | .raw => true

/-- The vector registers an operand names (R213). -/
def Kind.regs (k : Kind) (c : RegCode) : List Nat :=
  match k with
  | .raw | .no => []
  | _ => if isV c then (List.range k.span).map (fun j => c.toNat + j) else []

/-- Every vector register that the instruction names. -/
def View.regs (v : View) : List Nat :=
  v.kd.regs v.lay.d ++ v.ka.regs v.lay.a ++ v.kb.regs v.lay.b' ++ v.kc.regs v.lay.c

/-- Test 4: res0, unassigned MOD bits, unused register fields (R209, R211). -/
def View.res0Ok (v : View) : Bool :=
  v.lay.anc.res0 == 0 && v.lay.mod &&& ~~~v.mask == 0 &&
  (v.kd != .no || v.lay.d == 0xFF) && (v.ka != .no || v.lay.a == 0xFF) && (v.kb != .no || v.lay.b' == 0xFF) &&
  (v.kc != .no || v.lay.c == 0xFF)

/-- Test 5 (R212, R213). -/
def View.regsOk (v : View) : Bool :=
  v.kd.admits v.lay.d && v.ka.admits v.lay.a && v.kb.admits v.lay.b' && v.kc.admits v.lay.c

/-- Test 8, for SB (R217). -/
def View.slotOk (v : View) : Bool :=
  match v.slot with
  | .never => v.lay.anc.sb == 0
  | .must => v.lay.anc.sb != 0
  | .ifDest => v.lay.anc.sb != 0 || v.lay.d == 0xFF
  | .opt => true

/-- Whether the description requires GSEL 0 (R148). -/
def View.gselOk (v : View) : Bool := v.cls != .mat || v.lay.anc.gsel == 0

/-- Width, order and scope of MOD (R191). -/
def mWidth (mod : BitVec 8) : Nat := bitsN mod 2 0
def mOrder (mod : BitVec 8) : Nat := bitsN mod 4 3
def mScope (mod : BitVec 8) : Nat := bitsN mod 7 5

/-- The rounding field of R274 holds 0 to 3. -/
def rmOk (mod : BitVec 8) : Bool := decide (bitsN mod 2 0 ≤ 3)

/-- A condition code of SCMP, ICMP (0 to 5) or FCMP (0 to 6). -/
def condOk (mod : BitVec 8) (top : Nat) : Bool := decide (bitsN mod 4 2 ≤ top)

/-- The operation and width of ATOMT and ATOMG (R219, R220). -/
def atomOpOk (o : VOps) : Bool :=
  decide (o.c.toNat ≤ 0x0C) && (mWidth o.mod == 2 || (mWidth o.mod == 3 && decide (o.c.toNat < 0x0A))) &&
  (o.c != 9 || o.d != 0xFF)

/-- REDUCE and SCAN: operation and rounding (R271). -/
def treeOk (mod : BitVec 8) : Bool :=
  let op := bitsN mod 3 0
  let rm := bitsN mod 6 4
  decide (op ≤ 10) && (if op = 8 then decide (rm ≤ 3) else rm == 0)

/-- A packed or dot-product format field that admits lo to hi (R279). -/
def pkOk (mod : BitVec 8) (lo hi : Nat) : Bool :=
  rmOk mod && decide (lo ≤ bitsN mod 7 4 ∧ bitsN mod 7 4 ≤ hi)

/-- Test 6: reserved and excluded codes of the fields that name no register (R219 to R221 and the descriptions). -/
def codesOk : Instr → Bool
  | .call o => decide (bitsN o.mod 5 0 ≤ 47)
  | .suspendCounter o => bitsN o.mod 1 0 == 0
  | .suspendTill o => bitsN o.mod 1 0 == 1
  | .suspendMonitor o => bitsN o.mod 1 0 == 2
  | .yield o => o.mod.getLsbD 0
  | .evrd o => !(o.mod.getLsbD 4 && o.mod.getLsbD 3)
  | .scmp o | .icmp o => condOk o.mod 5
  | .fcmp o => condOk o.mod 6
  | .reduce o | .scan o => treeOk o.mod
  | .fadd o | .fsub o | .fmul o | .ffma o | .faddmin o | .frnd o | .fscale o => rmOk o.mod
  | .pkadd o | .pkmul o | .pkfma o | .fdot2 o => pkOk o.mod 1 2
  | .fdot4 o => pkOk o.mod 3 4
  | .fdot8 o => pkOk o.mod 5 5
  | .cvt o => rmOk o.mod && decide (bitsN o.mod 7 4 ≤ 8)
  | .cvtsr o => let t := bitsN o.mod 7 4; decide ((1 ≤ t ∧ t ≤ 5) ∨ t = 7 ∨ t = 8)
  | .qblk o =>
    let t := bitsN o.mod 7 4
    let r := bitsN o.mod 2 0
    decide (3 ≤ t ∧ t ≤ 6 ∧ r ≤ 4 ∧ ¬(r = 4 ∧ t = 6))
  | .dqblk o => let t := bitsN o.mod 7 4; decide (1 ≤ t ∧ t ≤ 7)
  | .ldp o | .stp o => decide (mWidth o.mod ≤ 4) && mOrder o.mod == 0 && mScope o.mod == 0
  | .ldt o => decide (mWidth o.mod ≤ 4 ∧ mOrder o.mod ≤ 1 ∧ mScope o.mod ≤ 3)
  | .ldg o => decide (mWidth o.mod ≤ 4 ∧ mOrder o.mod ≤ 1 ∧ mScope o.mod ≤ 4)
  | .stt o => decide (mWidth o.mod ≤ 4) &&
      ((mOrder o.mod == 0 && mScope o.mod == 0) || (mOrder o.mod == 2 && decide (1 ≤ mScope o.mod ∧ mScope o.mod ≤ 3)))
  | .stg o => decide (mWidth o.mod ≤ 4) &&
      ((mOrder o.mod == 0 && mScope o.mod == 0) || (mOrder o.mod == 2 && decide (1 ≤ mScope o.mod ∧ mScope o.mod ≤ 4)))
  | .ldw o => decide (o.b.toNat ≤ 1 ∧ mWidth o.mod ≤ 4 ∧ mOrder o.mod ≤ 1 ∧ (mScope o.mod = 1 ∨ mScope o.mod = 2))
  | .atomt o => atomOpOk o && decide (1 ≤ mScope o.mod ∧ mScope o.mod ≤ 3)
  | .atomg o => atomOpOk o && decide (1 ≤ mScope o.mod ∧ mScope o.mod ≤ 4)
  | .atomp o => decide (o.c.toNat ≤ 63) && (mWidth o.mod == 2 || mWidth o.mod == 3) && mScope o.mod == 3
  | .commit o | .abort o => decide (1 ≤ mScope o.mod ∧ mScope o.mod ≤ 4)
  | .pfg o => mWidth o.mod == 0 && mOrder o.mod == 0 && decide (mScope o.mod ≤ 4)
  | .modeM o => o.mod.getLsbD 0
  | .modeV o => !o.mod.getLsbD 0
  | .mdrain o =>
    let t := bitsN o.mod 7 4
    decide (t ≤ 3 ∨ t = 8) && !(o.mod.getLsbD 3 && decide (t = 3 ∨ t = 8))
  | _ => true

/-- The fate of test 9 (R211). -/
inductive ImmFate where | ok | illegal | growLimit
  deriving DecidableEq, Repr

/-- Test 9: immediates outside their limits (R211, R245, R246, R255, R267, R325). -/
def immFate : Instr → ImmFate
  | .grow o => if o.imm = 0 then .illegal else if 12 < o.imm.toNat then .growLimit else .ok
  | .shrink o => if o.imm = 0 ∨ 12 ≤ o.imm.toNat then .illegal else .ok
  | .bart o => if 15 < o.imm.toNat then .illegal else .ok
  | .barc o => if 7 < o.imm.toNat then .illegal else .ok
  | .barg o => if 63 < o.imm.toNat then .illegal else .ok
  | .sbfe o | .sbfi o =>
    if bitsN o.imm 15 12 ≠ 0 ∨ 64 < bitsN o.imm 5 0 + bitsN o.imm 11 6 + 1 then .illegal else .ok
  | .ibfe o | .ibfi o =>
    if bitsN o.imm 15 10 ≠ 0 ∨ 32 < bitsN o.imm 4 0 + bitsN o.imm 9 5 + 1 then .illegal else .ok
  | .rdsr o | .wrsr o => if 0x0E < o.imm.toNat then .illegal else .ok
  | _ => .ok

/-- The first test of R225 that the word alone fails: its number. -/
def staticTest (i : Instr) : Option Nat :=
  match view i with
  | none => some 1
  | some v =>
    if !v.res0Ok then some 4
    else if !v.regsOk then some 5
    else if !codesOk i then some 6
    else if !v.gselOk then some 7
    else if !v.slotOk then some 8
    else if immFate i = .illegal then some 9
    else none

end Sys2Proof.Machine
end

