-- ==== Sys2Proof/WellFormed.lean ====
section
/-! DEFINITION. Well-formed instructions: those whose word alone passes every encoding test of R225. GROW with n above 12 is one
of them: its encoding is legal and its fate is GROW_LIMIT (R245). -/

namespace Sys2Proof

/-- No test of R225 that reads the word alone fails. -/
def Instr.wellFormed (i : Instr) : Bool := (Machine.staticTest i).isNone

end Sys2Proof
end

