-- ==== Sys2Proof/Decode.lean ====
section
/-! DEFINITION. The decoder of 64-bit instruction words (R209, R210, R223), total on any bytes, and the encoder. -/

namespace Sys2Proof

/-- The common fields (R209). -/
def ancOf (w : W64) : Anc :=
  { gsel := w.extractLsb' 12 2, sb := w.extractLsb' 9 3, stall := w.extractLsb' 5 4, res0 := w.extractLsb' 0 5 }

/-- Format V (R210). -/
def vOps (w : W64) : VOps :=
  { d := w.extractLsb' 46 8, a := w.extractLsb' 38 8, b := w.extractLsb' 30 8, c := w.extractLsb' 22 8
    mod := w.extractLsb' 14 8, anc := ancOf w }

/-- Format I (R210). -/
def iOps (w : W64) : IOps :=
  { d := w.extractLsb' 46 8, a := w.extractLsb' 38 8, imm := w.extractLsb' 22 16, mod := w.extractLsb' 14 8, anc := ancOf w }

/-- Format W (R210). -/
def wOps (w : W64) : WOps :=
  { d := w.extractLsb' 46 8, imm := w.extractLsb' 14 32, anc := ancOf w }

/-- Format B (R210). -/
def bOps (w : W64) : BOps :=
  { off := w.extractLsb' 22 32, mod := w.extractLsb' 14 8, anc := ancOf w }

/-- The opcode (R209). -/
def opOf (w : W64) : BitVec 10 := w.extractLsb' 54 10

/-- SUSPEND's kind selects its form (R241); the reserved kind 3 is read as the counter form, which its check refuses. -/
def decodeSuspend (o : VOps) : Instr :=
  if o.mod.extractLsb' 0 2 = 1 then .suspendTill o
  else if o.mod.extractLsb' 0 2 = 2 then .suspendMonitor o
  else .suspendCounter o

/-- MODE's MOD [0] selects its form (R319). -/
def decodeMode (o : VOps) : Instr := if o.mod.getLsbD 0 then .modeM o else .modeV o

/-- The instruction a word is, with its fields as they stand; an unassigned opcode is a reserved word (R224). -/
def decodeRaw (w : W64) : Instr :=
  match (opOf w).toNat with
  | 0x000 => .nop (vOps w)
  | 0x001 => .bra (bOps w)
  | 0x002 => .jmpi (vOps w)
  | 0x003 => .call (bOps w)
  | 0x004 => .ret (vOps w)
  | 0x005 => .exit (vOps w)
  | 0x006 => .trap (iOps w)
  | 0x007 => .tret (vOps w)
  | 0x008 => decodeSuspend (vOps w)
  | 0x009 => .yield (vOps w)
  | 0x00A => .grow (iOps w)
  | 0x00B => .shrink (iOps w)
  | 0x00C => .bart (iOps w)
  | 0x00D => .barc (iOps w)
  | 0x00E => .barg (iOps w)
  | 0x00F => .spawn (vOps w)
  | 0x010 => .signal (vOps w)
  | 0x011 => .wake (vOps w)
  | 0x012 => .deposit (vOps w)
  | 0x013 => .join (vOps w)
  | 0x014 => .evrd (vOps w)
  | 0x015 => .evadd (vOps w)
  | 0x080 => .sadd (vOps w)
  | 0x081 => .ssub (vOps w)
  | 0x082 => .smul (vOps w)
  | 0x083 => .smulh (vOps w)
  | 0x084 => .sdiv (vOps w)
  | 0x085 => .srem (vOps w)
  | 0x086 => .sand (vOps w)
  | 0x087 => .sor (vOps w)
  | 0x088 => .sxor (vOps w)
  | 0x089 => .sshl (vOps w)
  | 0x08A => .sshr (vOps w)
  | 0x08B => .ssar (vOps w)
  | 0x08C => .smin (vOps w)
  | 0x08D => .smax (vOps w)
  | 0x08E => .scmp (vOps w)
  | 0x08F => .ssel (vOps w)
  | 0x090 => .smov (vOps w)
  | 0x091 => .saddi (iOps w)
  | 0x092 => .smovi (wOps w)
  | 0x093 => .smovh (wOps w)
  | 0x094 => .spopc (vOps w)
  | 0x095 => .sclz (vOps w)
  | 0x096 => .sbfe (iOps w)
  | 0x097 => .sbfi (iOps w)
  | 0x100 => .iadd (vOps w)
  | 0x101 => .isub (vOps w)
  | 0x102 => .imul (vOps w)
  | 0x103 => .imulh (vOps w)
  | 0x104 => .imad (vOps w)
  | 0x105 => .iaddmin (vOps w)
  | 0x106 => .iand (vOps w)
  | 0x107 => .ior (vOps w)
  | 0x108 => .ixor (vOps w)
  | 0x109 => .ishl (vOps w)
  | 0x10A => .ishr (vOps w)
  | 0x10B => .isar (vOps w)
  | 0x10C => .imin (vOps w)
  | 0x10D => .imax (vOps w)
  | 0x10E => .iabs (vOps w)
  | 0x10F => .icmp (vOps w)
  | 0x110 => .isel (vOps w)
  | 0x111 => .ipopc (vOps w)
  | 0x112 => .iclz (vOps w)
  | 0x113 => .ibfe (iOps w)
  | 0x114 => .ibfi (iOps w)
  | 0x115 => .iaddi (iOps w)
  | 0x116 => .idot4 (vOps w)
  | 0x117 => .mov (vOps w)
  | 0x118 => .movi (wOps w)
  | 0x119 => .s2v (vOps w)
  | 0x11A => .v2s (vOps w)
  | 0x11B => .shfl (vOps w)
  | 0x11C => .shup (vOps w)
  | 0x11D => .shdn (vOps w)
  | 0x11E => .shxor (vOps w)
  | 0x11F => .vote (vOps w)
  | 0x120 => .reduce (vOps w)
  | 0x121 => .scan (vOps w)
  | 0x122 => .tagof (vOps w)
  | 0x180 => .fadd (vOps w)
  | 0x181 => .fsub (vOps w)
  | 0x182 => .fmul (vOps w)
  | 0x183 => .ffma (vOps w)
  | 0x184 => .fmin (vOps w)
  | 0x185 => .fmax (vOps w)
  | 0x186 => .faddmin (vOps w)
  | 0x187 => .fcmp (vOps w)
  | 0x188 => .fclass (vOps w)
  | 0x189 => .frnd (vOps w)
  | 0x18A => .fscale (vOps w)
  | 0x18B => .pkadd (vOps w)
  | 0x18C => .pkmul (vOps w)
  | 0x18D => .pkfma (vOps w)
  | 0x18E => .fdot2 (vOps w)
  | 0x18F => .fdot4 (vOps w)
  | 0x190 => .fdot8 (vOps w)
  | 0x200 => .cvt (vOps w)
  | 0x201 => .cvtsr (vOps w)
  | 0x202 => .qblk (vOps w)
  | 0x203 => .dqblk (vOps w)
  | 0x208 => .rcp (vOps w)
  | 0x209 => .rsq (vOps w)
  | 0x20A => .sqrt (vOps w)
  | 0x20B => .exp2 (vOps w)
  | 0x20C => .log2 (vOps w)
  | 0x20D => .sinpi (vOps w)
  | 0x20E => .cospi (vOps w)
  | 0x20F => .tanh (vOps w)
  | 0x210 => .rand (vOps w)
  | 0x280 => .ldp (vOps w)
  | 0x281 => .stp (vOps w)
  | 0x282 => .ldt (vOps w)
  | 0x283 => .stt (vOps w)
  | 0x284 => .ldg (vOps w)
  | 0x285 => .stg (vOps w)
  | 0x286 => .ldw (vOps w)
  | 0x287 => .atomt (vOps w)
  | 0x288 => .atomg (vOps w)
  | 0x289 => .atomp (vOps w)
  | 0x28A => .commit (vOps w)
  | 0x28B => .abort (vOps w)
  | 0x28C => .pfg (vOps w)
  | 0x300 => .bulk (vOps w)
  | 0x301 => .obres (vOps w)
  | 0x302 => .obrel (vOps w)
  | 0x303 => .obload (vOps w)
  | 0x304 => decodeMode (vOps w)
  | 0x305 => .mzero (vOps w)
  | 0x306 => .mop (iOps w)
  | 0x307 => .mdrain (vOps w)
  | 0x308 => .msync (vOps w)
  | 0x380 => .rdsr (iOps w)
  | 0x381 => .wrsr (iOps w)
  | 0x382 => .brk (iOps w)
  | _ => .reservedOpcode w

/-- Why a byte string is no instruction. -/
inductive DecodeError where
  /-- Fewer than eight bytes. -/
  | tooShort
  /-- The word fails a test of R225, by number. -/
  | illegal (test : Nat)
  deriving DecidableEq, Repr

/-- The instruction at the front of a byte string, little-endian (R204), and the bytes after it; or the reason there is none. -/
def decode (bs : List Byte) : Except DecodeError (Instr × List Byte) :=
  if bs.length < 8 then .error .tooShort
  else
    let i := decodeRaw (BitVec.ofNat 64 (Machine.ofBytesLE (bs.take 8)))
    match Machine.staticTest i with
    | some t => .error (.illegal t)
    | none => .ok (i, bs.drop 8)

/-- The common fields as bits [13:0]. -/
def Anc.pack (a : Anc) : BitVec 14 := a.gsel ++ a.sb ++ a.stall ++ a.res0

/-- The word of an opcode and its fields (R209, R210). -/
def packWord (op : BitVec 10) : Machine.Layout → W64
  | .v o => ((op ++ o.d ++ o.a ++ o.b ++ o.c ++ o.mod : BitVec 50) ++ o.anc.pack : BitVec 64)
  | .i o => ((op ++ o.d ++ o.a ++ o.imm ++ o.mod : BitVec 50) ++ o.anc.pack : BitVec 64)
  | .w o => ((op ++ o.d ++ o.imm : BitVec 50) ++ o.anc.pack : BitVec 64)
  | .b o => ((op ++ o.off ++ o.mod : BitVec 50) ++ o.anc.pack : BitVec 64)

/-- The word of an instruction; none for an event of the device, which has no encoding. -/
def encode (i : Instr) : Option W64 :=
  match i with
  | .reservedOpcode w => some w
  | _ => (Machine.view i).map (fun v => packWord v.op v.lay)

/-- The bytes of a word as the device stores them (R204). -/
def wordBytes (w : W64) : List Byte := Machine.bytesLE 8 w.toNat

/-- The instruction whose bits are w: a word is 64 bits, laid out little-endian and given to the decoder. -/
def decodeTableWord (_nbits w : Nat) : Option Instr :=
  match decode (wordBytes (BitVec.ofNat 64 w)) with
  | .ok (i, _) => some i
  | .error _ => none

end Sys2Proof
end

