-- ==== Sys2Proof/Machine/Formats.lean ====
section
/-! DEFINITION. Number formats and rounding (file 06): values as exact dyadic numbers, decoding, the roundings of R164 to R169,
and IEEE comparison. -/

namespace Sys2Proof.Machine

/-- The element formats (R156). -/
inductive Fmt where
  | fp32 | fp16 | bf16 | e4m3 | e5m2 | e2m1 | d8 | int8 | int32 | s8
  deriving DecidableEq, Repr

/-- The 4-bit code of a format (R156); codes 10 to 15 are reserved. -/
def Fmt.ofCode : Nat → Option Fmt
  | 0 => some .fp32 | 1 => some .fp16 | 2 => some .bf16 | 3 => some .e4m3 | 4 => some .e5m2 | 5 => some .e2m1
  | 6 => some .d8 | 7 => some .int8 | 8 => some .int32 | 9 => some .s8
  | _ => none

/-- Width in bits (R156). -/
def Fmt.width : Fmt → Nat
  | .fp32 | .int32 => 32
  | .fp16 | .bf16 => 16
  | .e2m1 => 4
  | _ => 8

/-- Exponent bits, fraction bits and bias of a floating-point format (R157). -/
def Fmt.expBits : Fmt → Nat
  | .fp32 | .bf16 => 8 | .fp16 | .e5m2 => 5 | .e4m3 => 4 | .e2m1 => 2 | _ => 0
def Fmt.fracBits : Fmt → Nat
  | .fp32 => 23 | .fp16 => 10 | .bf16 => 7 | .e5m2 => 2 | .e4m3 => 3 | .e2m1 => 1 | _ => 0
def Fmt.bias : Fmt → Int
  | .fp32 | .bf16 => 127 | .fp16 | .e5m2 => 15 | .e4m3 => 7 | .e2m1 => 1 | _ => 0

/-- The code of the largest finite value, without its sign (R157). -/
def Fmt.largest : Fmt → Nat
  | .fp32 => 0x7F7FFFFF | .fp16 => 0x7BFF | .bf16 => 0x7F7F | .e5m2 => 0x7B | .e4m3 => 0x7E | .e2m1 => 7 | _ => 0

/-- The canonical NaN (R157). -/
def Fmt.nan : Fmt → Nat
  | .fp32 => 0x7FC00000 | .fp16 => 0x7E00 | .bf16 => 0x7FC0 | .e5m2 => 0x7E | .e4m3 => 0x7F | _ => 0

/-- The code of +∞ in a format that has one (R157). -/
def Fmt.inf : Fmt → Nat
  | .fp32 => 0x7F800000 | .fp16 => 0x7C00 | .bf16 => 0x7F80 | .e5m2 => 0x7C | _ => 0

/-- An exact value: NaN, an infinity, or (−1)^neg · m · 2^e, where m = 0 is a zero of that sign. -/
inductive Val where
  | nan
  | inf (neg : Bool)
  | fin (neg : Bool) (m : Nat) (e : Int)
  deriving DecidableEq, Repr

/-- FLAGS bits (R170). -/
abbrev Flags := BitVec 6
def fNV : Flags := 1
def fDZ : Flags := 2
def fOF : Flags := 4
def fUF : Flags := 8
def fNX : Flags := 16
def fSAT : Flags := 32

/-- A rounding mode (R163), with the random value under SR (R165). -/
inductive Rm where
  | rne | rtz | rdn | rup
  | sr (r : Nat)
  deriving DecidableEq, Repr

/-- The mode of a rounding field; SR takes its random operand's bits [23:0]. -/
def Rm.ofCode (c : Nat) (r : W32) : Rm :=
  match c with
  | 0 => .rne | 1 => .rtz | 2 => .rdn | 3 => .rup
  | _ => .sr (bitsN r 23 0)

/-- An integer as an exact value; zero is +0. -/
def Val.ofInt (x : Int) : Val := .fin (decide (x < 0)) x.natAbs 0

/-- D8's term of a code, in units of 2^−6 (R158). -/
def d8Term (c : Nat) : Nat := if c ≤ 6 then 2 ^ (6 - c) else 0

/-- The value of a D8 byte in units of 2^−6 (R158). -/
def d8Units (b : Nat) : Int :=
  let t1 : Int := d8Term (natBits b 6 4)
  let t2 : Int := d8Term (natBits b 2 0)
  (if natBits b 7 7 = 1 then -t1 else t1) + (if natBits b 3 3 = 1 then -t2 else t2)

/-- The exact value of a code of a format (R157, R158). An S8 code stands for its scale. -/
def decodeVal (f : Fmt) (x : Nat) : Val :=
  match f with
  | .int8 => .ofInt (sextI x 8)
  | .int32 => .ofInt (sextI x 32)
  | .d8 => let u := d8Units x; .fin (decide (u < 0)) u.natAbs (-6)
  | .s8 => if x % 256 = 255 then .nan else .fin false 1 ((x % 256 : Nat) - 127)
  | _ =>
    let fb := f.fracBits
    let eb := f.expBits
    let frac := x % 2 ^ fb
    let ex := (x >>> fb) % 2 ^ eb
    let neg := decide ((x >>> (fb + eb)) % 2 = 1)
    let special := decide (ex = 2 ^ eb - 1) && (f != .e2m1)
    if special && (f == .e4m3) && frac == 7 then .nan
    else if special && (f != .e4m3) then (if frac = 0 then .inf neg else .nan)
    else if ex = 0 then .fin neg frac (1 - f.bias - fb)
    else .fin neg (2 ^ fb + frac) ((ex : Int) - f.bias - fb)

/-- The FP32 value of a lane. -/
def f32 (x : W32) : Val := decodeVal .fp32 x.toNat

/-- floor(log2 |x|) of m · 2^e, for m ≠ 0. -/
def log2Of (m : Nat) (e : Int) : Int := (m.log2 : Int) + e

/-- The rounding of m · 2^e to a whole number of units 2^u by a mode (R163, R165), and whether it is inexact. -/
def roundUnits (neg : Bool) (m : Nat) (e u : Int) (rm : Rm) : Nat × Bool :=
  if u ≤ e then (m <<< (e - u).toNat, false)
  else
    let s := (u - e).toNat
    let n := m >>> s
    let rem := m % 2 ^ s
    if rem = 0 then (n, false)
    else
      let up : Bool := match rm with
        | .rne => decide (2 ^ s < 2 * rem) || (decide (2 ^ s = 2 * rem) && decide (n % 2 = 1))
        | .rtz => false
        | .rdn => neg
        | .rup => !neg
        | .sr r => decide (2 ^ 24 ≤ rem * 2 ^ 24 / 2 ^ s + r)
      (if up then n + 1 else n, true)

/-- The sign bit of a format, or 0. -/
def signBit (f : Fmt) (neg : Bool) : Nat := if neg then 2 ^ (f.width - 1) else 0

/-- What an overflow of a floating-point format gives, and its flags (R166). -/
def overflowResult (f : Fmt) (neg : Bool) (rm : Rm) (sat : Bool) : Nat × Flags :=
  let toInf : Bool := match rm with
    | .rne | .sr _ => true
    | .rtz => false
    | .rdn => neg
    | .rup => !neg
  let big := signBit f neg + f.largest
  if !toInf then (big, fOF ||| fNX)
  else if sat || f == .e2m1 then (big, fOF ||| fNX ||| fSAT)
  else if f == .e4m3 then (f.nan, fOF ||| fNX)
  else (signBit f neg + f.inf, fOF ||| fNX)

/-- Rounding of a finite value into an integer format of w bits (R164, R166). -/
def roundInt (w : Nat) (neg : Bool) (m : Nat) (e : Int) (rm : Rm) : Nat × Flags :=
  let top : Nat := if neg then 2 ^ (w - 1) else 2 ^ (w - 1) - 1
  let bound := if neg then 2 ^ w - 2 ^ (w - 1) else 2 ^ (w - 1) - 1
  if m = 0 then (0, 0)
  else if (w : Int) < log2Of m e then (bound, fNV ||| fSAT ||| fNX)
  else
    let (m', e') := if log2Of m e < -30 then (1, (-30 : Int)) else (m, e)
    let (n, nx) := roundUnits neg m' e' 0 rm
    if top < n then (bound, fNV ||| fSAT ||| fNX)
    else (if neg then (2 ^ w - n) % 2 ^ w else n, if nx then fNX else 0)

/-- Rounding of a finite value into a floating-point format other than D8 (R164). Codes of one sign rise with the values on the
grid of R164, so a result above the largest finite code is an overflow. -/
def roundFloat (f : Fmt) (neg : Bool) (m : Nat) (e : Int) (rm : Rm) (sat : Bool) : Nat × Flags :=
  if m = 0 then (signBit f neg, 0)
  else
    let fb : Int := f.fracBits
    let emin : Int := 1 - f.bias
    let low := emin - fb - 30
    let (m', e') := if log2Of m e < low then (1, low) else (m, e)
    let u := max (log2Of m' e' - fb) (emin - fb)
    let (n, nx) := roundUnits neg m' e' u rm
    let code := (u - (emin - fb)).toNat * 2 ^ f.fracBits + n
    if f.largest < code then overflowResult f neg rm sat
    else (signBit f neg + code,
      if nx then (if code < 2 ^ f.fracBits then fNX ||| fUF else fNX) else 0)

/-- How many nonzero terms the canonical byte of a D8 magnitude has, and that byte for either sign; none where no D8 value has the
magnitude (R162). Magnitudes are in units of 2^−6. -/
def d8Canon (mag : Nat) : Option (Nat × Nat × Nat) :=
  if mag = 0 then some (0, 0x77, 0x77)
  else if mag = 128 then some (2, 0x00, 0x88)
  else match (List.range 7).find? (fun c => d8Term c == mag) with
    | some c => some (1, c * 16 + 7, 0x80 + c * 16 + 7)
    | none =>
      let pairs := (List.range 7).flatMap (fun a => (List.range 7).filterMap (fun b => if a < b then some (a, b) else none))
      match pairs.find? (fun p => d8Term p.1 + d8Term p.2 == mag) with
      | some (a, b) => some (2, a * 16 + b, 0x88 + a * 16 + b)
      | none => match pairs.find? (fun p => d8Term p.1 - d8Term p.2 == mag) with
        | some (a, b) => some (2, a * 16 + 8 + b, 0x80 + a * 16 + b)
        | none => none

/-- The greatest D8 magnitude at or below a number of units. -/
def d8Floor : Nat → Nat
  | 0 => 0
  | n + 1 => if (d8Canon (n + 1)).isSome then n + 1 else d8Floor n

/-- The least D8 magnitude above a number of units, which is below 128. -/
def d8Above (n : Nat) : Nat := ((List.range 129).find? (fun k => decide (n < k) && (d8Canon k).isSome)).getD 128

/-- The canonical byte of a D8 magnitude with a sign (R162). -/
def d8Byte (neg : Bool) (mag : Nat) : Nat :=
  match d8Canon mag with
  | some (_, p, n) => if neg then n else p
  | none => 0x77

/-- Rounding of a finite value into D8 (R169). -/
def roundD8 (neg : Bool) (m : Nat) (e : Int) (rm : Rm) : Nat × Flags :=
  if m = 0 then (0x77, 0)
  else
    let (m', e') := if log2Of m e < -60 then (1, (-60 : Int)) else (m, e)
    -- |x| = m' · 2^e' above 2 exactly when its floor in units is above 128, or is 128 with a rest
    let big := decide (1 < log2Of m' e')
    let s := (-6 - e').toNat
    let fl := if e' ≤ -6 then m' >>> s else m' <<< (e' + 6).toNat
    let rest := if e' ≤ -6 then m' % 2 ^ s else 0
    if big || decide (128 < fl) || (decide (fl = 128) && decide (rest ≠ 0)) then
      (d8Byte neg 128, fOF ||| fSAT ||| fNX)
    else if rest = 0 && (d8Canon fl).isSome then (d8Byte neg fl, 0)
    else
      let lo := d8Floor fl
      let hi := d8Above fl
      -- twice |x| against lo + hi, in units of 2^−s of a unit
      let twice := 2 * (fl * 2 ^ s + rest)
      let mid := (lo + hi) * 2 ^ s
      let terms : Nat → Nat := fun k => match d8Canon k with
        | some (t, _, _) => t
        | none => 3
      let up : Bool := match rm with
        | .rtz => false
        | .rdn => neg
        | .rup => !neg
        | _ => decide (mid < twice) || (decide (mid = twice) && decide (terms hi < terms lo))
      let tiny := decide (fl = 0)
      (d8Byte neg (if up then hi else lo), if tiny then fNX ||| fUF else fNX)

/-- round(x, mode, format) with sat (R164, R168), and the flags it raises. -/
def round (x : Val) (rm : Rm) (f : Fmt) (sat : Bool) : Nat × Flags :=
  match x with
  | .nan =>
    match f with
    | .e2m1 | .int8 | .int32 => (0, fNV)
    | .d8 => (0x77, fNV)
    | _ => (f.nan, 0)
  | .inf neg =>
    match f with
    | .e4m3 => if sat then (signBit f neg + f.largest, fSAT) else (f.nan, fNV)
    | .e2m1 => (signBit f neg + f.largest, fSAT)
    | .d8 => (d8Byte neg 128, fSAT)
    | .int8 | .int32 => (if neg then 2 ^ (f.width - 1) else 2 ^ (f.width - 1) - 1, fNV ||| fSAT)
    | _ => (signBit f neg + f.inf, 0)
  | .fin neg m e =>
    match f with
    | .d8 => roundD8 neg m e rm
    | .int8 => roundInt 8 neg m e rm
    | .int32 => roundInt 32 neg m e rm
    | _ => roundFloat f neg m e rm sat

/-- round into FP32, as a lane value. -/
def roundF32 (x : Val) (rm : Rm) (sat : Bool) : W32 × Flags :=
  let r := round x rm .fp32 sat
  (BitVec.ofNat 32 r.1, r.2)

/-- The numerator of a finite value over 2^e0, for e0 at or below its exponent. -/
def scaledInt (neg : Bool) (m : Nat) (e e0 : Int) : Int :=
  let v : Int := ((m <<< (e - e0).toNat : Nat) : Int)
  if neg then -v else v

/-- The exact sum of two finite values; an exact zero takes its sign by IEEE 754-2019 (R172): `rdn` says the mode is RDN. -/
def addFin (n1 : Bool) (m1 : Nat) (e1 : Int) (n2 : Bool) (m2 : Nat) (e2 : Int) (rdn : Bool) : Val :=
  if m1 = 0 ∧ m2 = 0 then .fin (if n1 = n2 then n1 else rdn) 0 0
  else if m1 = 0 then .fin n2 m2 e2
  else if m2 = 0 then .fin n1 m1 e1
  else
    let e0 := min e1 e2
    let s := scaledInt n1 m1 e1 e0 + scaledInt n2 m2 e2 e0
    if s = 0 then .fin (if n1 = n2 then n1 else rdn) 0 0 else .fin (decide (s < 0)) s.natAbs e0

/-- exact(x + y) with IEEE 754-2019 specials (R172). -/
def addVal (x y : Val) (rdn : Bool) : Val × Flags :=
  match x, y with
  | .nan, _ | _, .nan => (.nan, 0)
  | .inf a, .inf b => if a = b then (.inf a, 0) else (.nan, fNV)
  | .inf a, .fin .. => (.inf a, 0)
  | .fin .., .inf b => (.inf b, 0)
  | .fin n1 m1 e1, .fin n2 m2 e2 => (addFin n1 m1 e1 n2 m2 e2 rdn, 0)

/-- exact(x · y) with IEEE 754-2019 specials (R172). -/
def mulVal (x y : Val) : Val × Flags :=
  match x, y with
  | .nan, _ | _, .nan => (.nan, 0)
  | .inf a, .inf b => (.inf (a != b), 0)
  | .inf a, .fin n m _ => if m = 0 then (.nan, fNV) else (.inf (a != n), 0)
  | .fin n m _, .inf b => if m = 0 then (.nan, fNV) else (.inf (n != b), 0)
  | .fin n1 m1 e1, .fin n2 m2 e2 => (.fin (n1 != n2) (m1 * m2) (e1 + e2), 0)

/-- −x. -/
def negVal : Val → Val
  | .nan => .nan
  | .inf n => .inf (!n)
  | .fin n m e => .fin (!n) m e

/-- x · 2^k for a finite x; other values as they are. -/
def scaleVal (x : Val) (k : Int) : Val :=
  match x with
  | .fin n m e => if m = 0 then x else .fin n m (e + k)
  | _ => x

def Val.isNan : Val → Bool
  | .nan => true
  | _ => false

def Val.isInf : Val → Bool
  | .inf _ => true
  | _ => false

def Val.isZero : Val → Bool
  | .fin _ m _ => m == 0
  | _ => false

def Val.isNeg : Val → Bool
  | .nan => false
  | .inf n => n
  | .fin n _ _ => n

/-- x < y for values that are no NaN; −0 and +0 are equal. -/
def ltVal (x y : Val) : Bool :=
  match x, y with
  | .inf a, .inf b => a && !b
  | .inf a, .fin .. => a
  | .fin .., .inf b => !b
  | .fin n1 m1 e1, .fin n2 m2 e2 =>
    let e0 := min e1 e2
    decide (scaledInt n1 m1 e1 e0 < scaledInt n2 m2 e2 e0)
  | _, _ => false

/-- x < y with −0 below +0 (R275, R277). -/
def ltValZ (x y : Val) : Bool := ltVal x y || (x.isZero && y.isZero && x.isNeg && !y.isNeg)

/-- The exact sum of a list of finite values, as a numerator over 2^e0 with e0 their least exponent; zeros count as exponent 0. -/
def sumFin (l : List Val) : Int × Int :=
  let e0 : Int := l.foldl (fun acc v => match v with
    | .fin _ m e => if m = 0 then acc else min acc e
    | _ => acc) 0
  (l.foldl (fun acc v => match v with
    | .fin n m e => if m = 0 then acc else acc + scaledInt n m e e0
    | _ => acc) 0, e0)

/-- Whether a list holds +∞ and −∞ both. -/
def bothInf (l : List Val) : Bool := l.contains (.inf true) && l.contains (.inf false)

/-- The exact sum of a list with the specials of R280: NaN and inf rules first, then an exact zero by the mode, −0 where every
term is −0. -/
def sumVals (l : List Val) (rdn : Bool) : Val × Flags :=
  if bothInf l then (.nan, fNV)
  else if l.any Val.isNan then (.nan, 0)
  else if l.any Val.isInf then (.inf (l.contains (.inf true)), 0)
  else
    let (s, e) := sumFin l
    if s = 0 then (.fin (rdn || l.all (fun v => v.isZero && v.isNeg)) 0 0, 0)
    else (.fin (decide (s < 0)) s.natAbs e, 0)

/-- The aligned sum of R177 over the accumulator and the products, with its flags. UF is that of the rounding of S, and NX that of the whole, also
where the two disagree about a tiny result, of which R177 and R170 say no more (log entry 53). -/
def alignedSum (l : List Val) (prodInvalid : Bool) : W32 × Flags :=
  if prodInvalid || bothInf l || l.any Val.isNan then (0x7FC00000, fNV)
  else if l.any Val.isInf then (if l.contains (.inf true) then 0xFF800000 else 0x7F800000, 0)
  else if l.all Val.isZero then (if l.all Val.isNeg then 0x80000000 else 0, 0)
  else
    let top : Option Int := l.foldl (fun acc v => match v with
      | .fin _ m e => if m = 0 then acc else match acc with
        | none => some (log2Of m e)
        | some t => some (max t (log2Of m e))
      | _ => acc) none
    let u := top.getD 0 - 31
    let s : Int := l.foldl (fun acc v => match v with
      | .fin n m e =>
        let k : Int := if u ≤ e then ((m <<< (e - u).toNat : Nat) : Int) else ((m >>> (u - e).toNat : Nat) : Int)
        if n then acc - k else acc + k
      | _ => acc) 0
    let r := roundF32 (.fin (decide (s < 0)) s.natAbs u) .rne false
    -- NX compares with the exact sum of the untruncated terms
    let (xs, xe) := sumFin l
    let same := match f32 r.1 with
      | .fin n m e =>
        let e0 := min e xe
        decide (scaledInt n m e e0 = scaledInt (decide (xs < 0)) xs.natAbs xe e0)
      | _ => false
    (r.1, (r.2 &&& ~~~fNX) ||| (if same then 0 else fNX))

/-- One round of Philox, and its ten rounds with their key schedule (R184). -/
def philoxRound (c : W32 × W32 × W32 × W32) (k0 k1 : W32) : W32 × W32 × W32 × W32 :=
  let p0 := 0xD2511F53 * c.1.toNat
  let p1 := 0xCD9E8D57 * c.2.2.1.toNat
  (BitVec.ofNat 32 (p1 >>> 32) ^^^ c.2.1 ^^^ k0, BitVec.ofNat 32 p1, BitVec.ofNat 32 (p0 >>> 32) ^^^ c.2.2.2 ^^^ k1,
    BitVec.ofNat 32 p0)

def philox (c : W32 × W32 × W32 × W32) (k0 k1 : W32) : Nat → W32 × W32 × W32 × W32
  | 0 => c
  | n + 1 => philox (philoxRound c k0 k1) (k0 + 0x9E3779B9) (k1 + 0xBB67AE85) n

end Sys2Proof.Machine
end

