-- ==== Sys2Proof/Machine/Flags.lean ====
section
/-! DEFINITION. Results with the flags they raise (R170, R171): the scalar operations of R254, the integer operations of R263 and
R266, the floating-point operations of R275 to R280, and the conversions of R283 to R286. Each is a function of operand values alone
(R182). -/

namespace Sys2Proof.Machine

/-! Scalar integers (R254) -/

/-- clamp to the signed 64-bit range, raising SAT when it changes the value. -/
def clamp64 (x : Int) : W64 × Flags :=
  if 2 ^ 63 - 1 < x then (w64 (2 ^ 63 - 1), fSAT)
  else if x < -(2 ^ 63) then (w64 (-(2 ^ 63)), fSAT)
  else (w64 x, 0)

/-- An exact sum, difference or product wrapped or clamped. -/
def fit64 (sat : Bool) (x : Int) : W64 × Flags := if sat then clamp64 x else (w64 x, 0)

/-- X(x): signed or unsigned by the signedness family, whose code 1 is unsigned. -/
def x64 (uns : Bool) (x : W64) : Int := if uns then (x.toNat : Int) else x.toInt

def sAdd (sat : Bool) (a b : W64) : W64 × Flags := fit64 sat (a.toInt + b.toInt)
def sSub (sat : Bool) (a b : W64) : W64 × Flags := fit64 sat (a.toInt - b.toInt)
def sMul (sat : Bool) (a b : W64) : W64 × Flags := fit64 sat (a.toInt * b.toInt)
def sMulh (uns : Bool) (a b : W64) : W64 := w64 ((x64 uns a * x64 uns b) / 2 ^ 64)
def sDiv (uns : Bool) (a b : W64) : W64 × Flags :=
  if b = 0 then (BitVec.allOnes 64, fDZ) else (w64 ((x64 uns a).tdiv (x64 uns b)), 0)
def sRem (uns : Bool) (a b : W64) : W64 × Flags :=
  if b = 0 then (a, fDZ) else (w64 ((x64 uns a).tmod (x64 uns b)), 0)
def sShl (a b : W64) : W64 := if 64 ≤ b.toNat then 0 else a <<< b.toNat
def sShr (a b : W64) : W64 := if 64 ≤ b.toNat then 0 else a >>> b.toNat
def sSar (a b : W64) : W64 := if 64 ≤ b.toNat then (if a.msb then BitVec.allOnes 64 else 0) else a.sshiftRight b.toNat
def sMin (uns : Bool) (a b : W64) : W64 := if x64 uns b < x64 uns a then b else a
def sMax (uns : Bool) (a b : W64) : W64 := if x64 uns a < x64 uns b then b else a

/-- A condition of the families of R253 and R265: eq, ne, lt, le, gt, ge. -/
def condI (c : Nat) (a b : Int) : Bool :=
  match c with
  | 0 => decide (a = b) | 1 => decide (a ≠ b) | 2 => decide (a < b) | 3 => decide (a ≤ b) | 4 => decide (b < a)
  | _ => decide (b ≤ a)

/-- One bits of a word. -/
def popCount {n : Nat} (x : BitVec n) : Nat := ((List.range n).filter (fun i => x.getLsbD i)).length
/-- Leading zero bits of a word. -/
def leadZeros {n : Nat} (x : BitVec n) : Nat := n - (if x.toNat = 0 then 0 else x.toNat.log2 + 1)

/-- A field of len bits at pos, extended by sign or by zeros. -/
def fieldGet {n : Nat} (sgn : Bool) (x : BitVec n) (pos len : Nat) : BitVec n :=
  let f := natBits x.toNat (pos + len - 1) pos
  if sgn then BitVec.ofInt n (sextI f len) else BitVec.ofNat n f

/-- d with the field replaced by the low len bits of a. -/
def fieldPut {n : Nat} (d a : BitVec n) (pos len : Nat) : BitVec n := setBits d (pos + len - 1) pos (a.toNat % 2 ^ len)

/-! Vector integers (R263, R266) -/

/-- X(x) on 32 bits. -/
def x32 (uns : Bool) (x : W32) : Int := if uns then (x.toNat : Int) else x.toInt

/-- fitS and fitX: wrapped, or clamped to the range of the signedness with SAT (R263). -/
def fit32 (sat uns : Bool) (x : Int) : W32 × Flags :=
  let lo : Int := if uns then 0 else -(2 ^ 31)
  let hi : Int := if uns then 2 ^ 32 - 1 else 2 ^ 31 - 1
  if !sat then (w32 x, 0)
  else if hi < x then (w32 hi, fSAT)
  else if x < lo then (w32 lo, fSAT)
  else (w32 x, 0)

def iMulh (uns : Bool) (a b : W32) : W32 := w32 ((x32 uns a * x32 uns b) / 2 ^ 32)
def iShl (a b : W32) : W32 := if 32 ≤ b.toNat then 0 else a <<< b.toNat
def iShr (a b : W32) : W32 := if 32 ≤ b.toNat then 0 else a >>> b.toNat
def iSar (a b : W32) : W32 := if 32 ≤ b.toNat then (if a.msb then 0xFFFFFFFF else 0) else a.sshiftRight b.toNat
def iMin (uns : Bool) (a b : W32) : W32 := if x32 uns b < x32 uns a then b else a
def iMax (uns : Bool) (a b : W32) : W32 := if x32 uns a < x32 uns b then b else a

/-- byte(x, n) of R263. -/
def byteX (uns : Bool) (x : W32) (n : Nat) : Int :=
  let b := natBits x.toNat (8 * n + 7) (8 * n)
  if uns then (b : Int) else sextI b 8

def iDot4 (uns : Bool) (a b c : W32) : Int :=
  x32 uns c + (List.range 4).foldl (fun acc n => acc + byteX uns a n * byteX uns b n) 0

/-! Floating point (R275 to R278) -/

/-- The rounding field of R274. -/
def rmOf (mod : BitVec 8) : Rm := Rm.ofCode (bitsN mod 2 0) 0
def satOf (mod : BitVec 8) : Bool := bitAt mod 3
def isRdn : Rm → Bool
  | .rdn => true
  | _ => false

/-- An exact value with flags, rounded to FP32. -/
def fRound (x : Val × Flags) (rm : Rm) (sat : Bool) : W32 × Flags :=
  let r := roundF32 x.1 rm sat
  (r.1, x.2 ||| r.2)

def fAdd (rm : Rm) (sat : Bool) (a b : W32) : W32 × Flags := fRound (addVal (f32 a) (f32 b) (isRdn rm)) rm sat
def fSub (rm : Rm) (sat : Bool) (a b : W32) : W32 × Flags := fRound (addVal (f32 a) (negVal (f32 b)) (isRdn rm)) rm sat
def fMul (rm : Rm) (sat : Bool) (a b : W32) : W32 × Flags := fRound (mulVal (f32 a) (f32 b)) rm sat

/-- a·b + c exactly; ∞ × 0 is invalid even where c is a NaN (R275). -/
def fmaVal (a b c : Val) (rdn : Bool) : Val × Flags :=
  let p := mulVal a b
  if p.2 ≠ 0 then (.nan, p.2) else addVal p.1 c rdn

def fFma (rm : Rm) (sat : Bool) (a b c : W32) : W32 × Flags := fRound (fmaVal (f32 a) (f32 b) (f32 c) (isRdn rm)) rm sat

/-- The canonical NaN of FP32. -/
def nan32 : W32 := 0x7FC00000

/-- FADDMIN (R275): the lesser of the exact sum and c, rounded once. -/
def fAddMin (rm : Rm) (sat : Bool) (a b c : W32) : W32 × Flags :=
  let s := addVal (f32 a) (f32 b) (isRdn rm)
  if s.1.isNan || (f32 c).isNan then (nan32, s.2)
  else if ltValZ s.1 (f32 c) then fRound s rm sat
  else (c, 0)

/-- FMIN and FMAX (R277): one of the operands' bit patterns, −0 below +0. -/
def fMin (a b : W32) : W32 :=
  if (f32 a).isNan && (f32 b).isNan then nan32
  else if (f32 a).isNan then b
  else if (f32 b).isNan then a
  else if ltValZ (f32 b) (f32 a) then b else a
def fMax (a b : W32) : W32 :=
  if (f32 a).isNan && (f32 b).isNan then nan32
  else if (f32 a).isNan then b
  else if (f32 b).isNan then a
  else if ltValZ (f32 a) (f32 b) then b else a

/-- FCMP (R276): code 6 is unordered. -/
def fCmp (c : Nat) (a b : W32) : Bool :=
  let x := f32 a
  let y := f32 b
  let un := x.isNan || y.isNan
  match c with
  | 0 => !un && !ltVal x y && !ltVal y x
  | 1 => un || ltVal x y || ltVal y x
  | 2 => !un && ltVal x y
  | 3 => !un && !ltVal y x
  | 4 => !un && ltVal y x
  | 5 => !un && !ltVal x y
  | _ => un

/-- FCLASS (R278). -/
def fClass (a : W32) : W32 :=
  let ex := bitsN a 30 23
  let fr := bitsN a 22 0
  let neg := a.msb
  let k : Nat :=
    if ex = 255 then (if fr = 0 then (if neg then 0 else 7) else if bitAt a 22 then 9 else 8)
    else if ex = 0 then (if fr = 0 then (if neg then 3 else 4) else if neg then 2 else 5)
    else if neg then 1 else 6
  BitVec.ofNat 32 (2 ^ k)

/-- FRND (R275): a rounded to an integer, kept as FP32. -/
def fRnd (rm : Rm) (a : W32) : W32 × Flags :=
  match f32 a with
  | .nan => (nan32, 0)
  | .inf _ => (a, 0)
  | .fin neg m e =>
    if m = 0 ∨ 0 ≤ e then (a, 0)
    else
      let r := roundUnits neg m e 0 rm
      ((roundF32 (.fin neg r.1 0) rm false).1, if r.2 then fNX else 0)

/-- FSCALE (R275): a · 2^S(b), rounded once. -/
def fScale (rm : Rm) (sat : Bool) (a b : W32) : W32 × Flags :=
  match f32 a with
  | .nan => (nan32, 0)
  | .inf _ => (a, 0)
  | .fin neg m e => if m = 0 then (a, 0) else roundF32 (.fin neg m (e + b.toInt)) rm sat

/-! Packed and dot products (R280) -/

/-- el(x, n) on w bits. -/
def elem (x : W32) (w n : Nat) : Nat := natBits x.toNat (w * n + w - 1) (w * n)

/-- Two halves computed each on its own; their flags are ORed. -/
def pk2 (f : Fmt) (rm : Rm) (sat : Bool) (op : Nat → Val × Flags) : W32 × Flags :=
  let half := fun n => let v := op n
                       let r := round v.1 rm f sat
                       (r.1, v.2 ||| r.2)
  let l := half 0
  let h := half 1
  (BitVec.ofNat 32 (h.1 * 65536 + l.1), l.2 ||| h.2)

def pkAdd (f : Fmt) (rm : Rm) (sat : Bool) (a b : W32) : W32 × Flags :=
  pk2 f rm sat (fun n => addVal (decodeVal f (elem a 16 n)) (decodeVal f (elem b 16 n)) (isRdn rm))
def pkMul (f : Fmt) (rm : Rm) (sat : Bool) (a b : W32) : W32 × Flags :=
  pk2 f rm sat (fun n => mulVal (decodeVal f (elem a 16 n)) (decodeVal f (elem b 16 n)))
def pkFma (f : Fmt) (rm : Rm) (sat : Bool) (a b c : W32) : W32 × Flags :=
  pk2 f rm sat (fun n => fmaVal (decodeVal f (elem a 16 n)) (decodeVal f (elem b 16 n)) (decodeVal f (elem c 16 n)) (isRdn rm))

/-- FDOTm (R280): m products of w-bit elements and the addend, summed exactly and rounded once. -/
def fDot (f : Fmt) (w m : Nat) (rm : Rm) (sat : Bool) (a b c : W32) : W32 × Flags :=
  let ps := (List.range m).map (fun n => mulVal (decodeVal f (elem a w n)) (decodeVal f (elem b w n)))
  if ps.any (fun p => p.2 != 0) then (nan32, fNV)
  else fRound (sumVals (ps.map Prod.fst ++ [f32 c]) (isRdn rm)) rm sat

/-! Conversions (R282 to R286) -/

/-- CVT and CVTSR of a lane: the source is INT32 where the target is FP32, and FP32 otherwise. -/
def cvt (t : Fmt) (rm : Rm) (sat : Bool) (a : W32) : W32 × Flags :=
  let x := if t = .fp32 then Val.ofInt a.toInt else f32 a
  let r := round x rm t sat
  (BitVec.ofNat 32 r.1, r.2)

/-- DQBLK of a lane (R286): an element of format f under the scale byte of b. -/
def dqblk (f : Fmt) (a b : W32) : W32 × Flags :=
  let e := bitsN b 7 0
  if e = 255 then (nan32, fNV)
  else roundF32 (scaleVal (decodeVal f (a.toNat % 2 ^ f.width)) ((e : Int) - 127)) .rne false

/-- floor(log2) of the largest magnitude of a list of finite values; none where every one is zero. -/
def amaxLog (l : List Val) : Option Int :=
  l.foldl (fun acc v => match v with
    | .fin _ m e => if m = 0 then acc else match acc with
      | none => some (log2Of m e)
      | some t => some (max t (log2Of m e))
    | _ => acc) none

/-- emax of R174. -/
def emaxOf : Fmt → Int
  | .e2m1 => 2 | .e4m3 => 8 | .e5m2 => 15 | _ => 0

/-- The positive-zero code of an element format (R174). -/
def zeroCode (f : Fmt) : Nat := if f = .d8 then 0x77 else 0

/-- The scale byte of a block (R174): of the elements that count, as FP32 values. 0xFF where one is NaN or ±∞. -/
def blockScale (f : Fmt) (l : List Val) : Nat :=
  if l.any (fun v => v.isNan || v.isInf) then 255
  else match amaxLog l with
    | none => 127
    | some t => (max (t - emaxOf f) (-127) + 127).toNat

/-- One element converted with its block's scale byte (R174 step 4); under 0xFF it is the positive-zero code. -/
def blockElem (f : Fmt) (e : Nat) (rm : Rm) (a : W32) : Nat × Flags :=
  if e = 255 then (zeroCode f, 0) else round (scaleVal (f32 a) (127 - (e : Int))) rm f true

/-! Atomic operations (R298) -/

/-- The new value that an atomic of w bits writes, or none where a compare-and-swap fails: `m` is the memory value, `b` the operand,
`x` the value compared. -/
def atomVal (op w m b x : Nat) : Option Nat :=
  let lt := fun (p q : Nat) => decide (sextI p w < sextI q w)
  match op with
  | 0 => some ((m + b) % 2 ^ w)
  | 1 => some (if lt b m then b else m)
  | 2 => some (if lt m b then b else m)
  | 3 => some (min m b)
  | 4 => some (max m b)
  | 5 => some (m &&& b)
  | 6 => some (m ||| b)
  | 7 => some (m ^^^ b)
  | 8 => some b
  | 9 => if m = x then some b else none
  | 10 => some (fAdd .rne false (BitVec.ofNat 32 m) (BitVec.ofNat 32 b)).1.toNat
  | 11 => some (fMin (BitVec.ofNat 32 m) (BitVec.ofNat 32 b)).toNat
  | _ => some (fMax (BitVec.ofNat 32 m) (BitVec.ofNat 32 b)).toNat

/-! Trees over lanes (R178, R179, R272) -/

/-- The combination of two lanes; ABSENT is none. -/
def combine (op : W32 → W32 → W32 × Flags) (l h : Option W32) : Option W32 × Flags :=
  match l, h with
  | none, h => (h, 0)
  | l, none => (l, 0)
  | some a, some b => let r := op a b
                      (some r.1, r.2)

/-- The operation and identity of REDUCE and SCAN (R272). -/
def treeOp (code : Nat) (rm : Rm) (a b : W32) : W32 × Flags :=
  match code with
  | 0 => (a + b, 0)
  | 1 => (iMin false a b, 0)
  | 2 => (iMax false a b, 0)
  | 3 => (iMin true a b, 0)
  | 4 => (iMax true a b, 0)
  | 5 => (a &&& b, 0)
  | 6 => (a ||| b, 0)
  | 7 => (a ^^^ b, 0)
  | 8 => fAdd rm false a b
  | 9 => (fMin a b, 0)
  | _ => (fMax a b, 0)

def treeIdentity : Nat → W32
  | 1 => 0x7FFFFFFF | 2 => 0x80000000 | 3 => 0xFFFFFFFF | 5 => 0xFFFFFFFF | 9 => 0x7F800000 | 10 => 0xFF800000
  | _ => 0

/-- One level of the reduction tree at distance d (R178). -/
def reduceLevel (op : W32 → W32 → W32 × Flags) (d : Nat) (x : List (Option W32)) : List (Option W32) × Flags :=
  let r := (List.range x.length).map (fun i =>
    if i % (2 * d) = 0 then combine op (x.getD i none) (x.getD (i + d) none) else (x.getD i none, 0))
  (r.map Prod.fst, r.foldl (fun f p => f ||| p.2) 0)

/-- One level of the scan tree at distance d (R179). -/
def scanLevel (op : W32 → W32 → W32 × Flags) (d : Nat) (x : List (Option W32)) : List (Option W32) × Flags :=
  let r := (List.range x.length).map (fun i =>
    if d ≤ i then combine op (x.getD (i - d) none) (x.getD i none) else (x.getD i none, 0))
  (r.map Prod.fst, r.foldl (fun f p => f ||| p.2) 0)

/-- The levels 1, 2, 4, 8, 16 and 32 in turn. -/
def levels (level : Nat → List (Option W32) → List (Option W32) × Flags) (x : List (Option W32)) : List (Option W32) × Flags :=
  [1, 2, 4, 8, 16, 32].foldl (fun acc d => let r := level d acc.1
                                          (r.1, acc.2 ||| r.2)) (x, 0)

end Sys2Proof.Machine
end

