-- ==== Sys2Proof/Config.lean ====
section
/-! DEFINITION. What an implementation fixes, and the free values: constants with no body, of which nothing can be proved
but what holds of every value (log entries 2 and 5). -/

namespace Sys2Proof.Config

/-- Bits in a lane mask, lanes in a group (R18). -/
def lanes : Nat := 64
/-- Bytes in one core's slice of the tile store (R5, R86). -/
def sliceBytes : Nat := 0x200000
/-- First offset of the engine region of a slice (R87). -/
def engineRegion : Nat := 0x1FF000
/-- Offset of the kick store (R87, R112). -/
def kickOffset : Nat := 0x1FFF00
/-- Register blocks in a quarter's pool (R27). -/
def poolBlocks : Nat := 64
/-- Group slots in a quarter (R27). -/
def slots : Nat := 16
/-- Groups in a quarter's active set (R27). -/
def activeMax : Nat := 8
/-- Lines of 64 bytes in a quarter's operand buffer (R132). -/
def opbufLines : Nat := 4096
/-- Escrow entries of a group in the core's pool (R94). -/
def escrowShare : Nat := 2048
/-- Escrow entries in one 64 KiB unit of a group's overflow area (R94). -/
def escrowUnit : Nat := 1024
/-- Escrow entries in a core's pool (R94). -/
def escrowPool : Nat := 16384
/-- Sectors in a watch set (R103). -/
def watchMax : Nat := 64
/-- Monitor entries of a core (R37). -/
def monitorMax : Nat := 32
/-- The largest count of a scoreboard slot (R217). -/
def slotMax : Nat := 63
/-- Operations in a quarter's array queue (R131). -/
def arrayMax : Nat := 4
/-- Translations in a core's L1 TLB, in a die's L2 TLB, and a die's walkers (R5, R390). -/
def l1Tlb : Nat := 256
def l2Tlb : Nat := 16384
def walkers : Nat := 128
/-- Lines of 128 bytes in a core's near cache (R5, R92). -/
def nearLines : Nat := 2048
/-- Lists the request engine holds (R316). -/
def listMax : Nat := 4
/-- Records of one request list (R316). -/
def listRecords : Nat := 256
/-- Commands a hub holds unwritten to an event ring per world (R415). -/
def heldEvents : Nat := 256

/-- FREE VALUE (log entry 2): the n-th bit drawn where the manual lets a value be the old or the new one (R204, R261, R341, R342). -/
opaque freeBit : Nat → Bool
/-- FREE VALUE (log entry 2): the n-th word drawn where a variable-latency result is read before it is known (R341). -/
opaque freeWord : Nat → W32
/-- FREE VALUE (log entry 2): which of the results within the bound of R183 the SFU gives. The same for one operation and one
operand in every run (R182, R287). -/
opaque sfuPick : Nat → W32 → Nat
/-- Whether the form brings out the three CXL memory ports (R3, R4): Z4P-256-A and Z4M-256-LCX do, Z4M-256-LC does not. Each
device is of one form; nothing is known of which. -/
opaque cxlForm : Bool

/-- FREE VALUE (log entry 51): the bytes that the engine context of a paused world takes in its save pool, less one (R399, R406). -/
opaque engineContext : Nat
/-- FREE VALUE (log entry 56): what a world reads in a block of CXL-attached memory that another world wrote under its own key (R397): the writer, the
reader, the address, and the sixteen bytes that the writer sees. -/
opaque otherKey : Nat → Nat → Nat → List Byte → Byte
/-- FREE VALUE (log entry 52): the CXL port to which the HDM decoders send an address of CXL-attached memory, modulo 3 (R376). -/
opaque hdmPort : Nat → Nat
/-- FREE VALUE (log entry 52): the page requests beyond one that the host's PRI allocation lets a function have outstanding (R393). -/
opaque priExtra : Nat → Nat
/-- FREE VALUE (log entry 12): the vault address at which a routine's first instruction stands, for AUIPC and JAL (R109). -/
opaque routineBase : W32
/-- FREE VALUE (log entry 5): the fused hash of the boot key, and the digest of the fused configuration, FMIN as it stands among it, that MR2 is
extended with (R423, R425). -/
opaque fusedKeyHash : BitVec 512
opaque fusedConfigDigest : Nat → BitVec 512
/-- FREE VALUE (log entry 25): the enterprise number that the SPDM responder gives as the vendor of Falcon-1024 (R426). -/
opaque vendorNumber : BitVec 32
/-- FREE VALUE (log entry 5): the device's Falcon-1024 signature over a byte string, under a key that is its own (R426). -/
opaque falconSign : List Byte → List Byte
/-- FREE VALUE (log entry 5): an answer of the management plane whose contents the manual does not give (sensor readings,
certificates, capabilities): request, sequence number, answer. -/
opaque freeAnswer : Nat → Nat → List Byte
/-- FREE VALUE (log entry 5): whether the MAC of a FINISH verifies for a session (R426). -/
opaque finishOk : Nat → List Byte → Bool
/-- FREE VALUE (log entry 5): the fused minimum SVN as made (R423, R424), and the boot flash where no update has written it (R422). -/
opaque fusedMinSvn : BitVec 16
opaque flashByte : Nat → Byte
/-- FREE VALUE (log entry 5): the temperature of a core in °C at the n-th placement step (R433, R446). -/
opaque temperature : Nat → Nat → Nat
/-- FREE VALUE (log entry 13): what a peer's contribution to an in-switch reduction is (R181, R445): reduction, element. -/
opaque peerContribution : Nat → Nat → List W32
/-- FREE VALUE (log entry 13): whether the other members of a reduction submitted matching records, and else the status (R445). -/
opaque peersAgree : Nat → Bool
opaque peersDenied : Nat → Bool

end Sys2Proof.Config
end

