-- ==== Sys2Proof/Machine/State.lean ====
section
/-! DEFINITION. The state of the device as plain data: groups, cores, memories, escrow, the hub's registers and queues, boot and
fabric state, and the fields of the model's own (agenda, cursor, counters, answers). -/

namespace Sys2Proof.Machine

/-- Why the machine stops with a fault. -/
inductive Fault where
  /-- Raised by the shared issue operation when an instruction word is executed while no clause issues (State.cur names none):
  no such step exists on the device. Safe. -/
  | noIssuingClause
  deriving DecidableEq, Repr

/-- Why a step has no meaning. -/
inductive Refusal where
  /-- Raised by exec for a row of the operation table that has no meaning yet. Safe. -/
  | notModelled (mnemonic : String)
  deriving DecidableEq, Repr

/-- Memory as a list of address and byte in one canonical form: addresses strictly rising, no byte equal to 0, which is what an
unlisted address reads as (log entry 4). -/
structure Memory where
  cells : List Host.Cell
  deriving DecidableEq, Repr

/-- Addresses strictly rise and lie above `lo`, and no listed byte is 0. -/
def Memory.wfFrom : Nat → List Host.Cell → Bool
  | _, [] => true
  | lo, c :: cs => decide (lo ≤ c.1) && decide (c.2 ≠ 0) && Memory.wfFrom (c.1 + 1) cs

/-- The canonical form. -/
def Memory.wf (m : Memory) : Bool := Memory.wfFrom 0 m.cells

/-- A register file of 64-bit words by byte offset, in the same canonical form: rising offsets, no word equal to its reset value. -/
structure RegFile where
  cells : List (Nat × W64)
  deriving DecidableEq, Repr

/-- Shape tags (R26, R258). -/
inductive Tag where | u | a | g
  deriving DecidableEq, Repr

/-- A vector register: 64 lane values and a tag (R26). The base and stride of an A register are read from its lanes. -/
structure VReg where
  tag   : Tag
  lanes : List W32
  deriving DecidableEq, Repr

/-- A register as created: 0 in every lane, tag U (R29). -/
def VReg.zero : VReg := ⟨.u, List.replicate 64 0⟩

/-- The seven states of a group (R30). -/
inductive GState where | active | pending | suspended | saved | moving | dead | invalid
  deriving DecidableEq, Repr

/-- Trap causes (R238). -/
inductive Cause where
  | illegal | alias_ | stallShort | shape | growLimit | misalign | space | page | integrity | escrow | mode | obrange
  | preempt | soft | break_ | trap
  deriving DecidableEq, Repr

/-- Address spaces that hold escrow (R81). -/
inductive Space where | tile | glob
  deriving DecidableEq, Repr

/-- What a suspended or waiting group waits on (R35, R354). -/
inductive Cond where
  | none
  | counter (k : Nat) (target : W64)
  | till (addr : Nat) (target : W64)
  | monitor (va pa : Nat) (expected : W64)
  | teamBarrier (id : Nat)
  | clusterBarrier (id : Nat)
  | gridBarrier (id : Nat)
  | pool (n : Nat)
  deriving DecidableEq, Repr

/-- How the accumulators of the window were last set (R145). -/
inductive AccOrigin where | kept | zeroed | other
  deriving DecidableEq, Repr

/-- A clause that has started (R206): its header's address and word, the run, the position of the next word, the sampled
guards, whether they are sampled yet (R340) and whether each sample was uncovered (R341), its earliest-issue mark (R338), the transfer
taken, and a trap that its word has met and that is still to be entered: cause, code, fault address, and the clock of its word (R226, R239, R390). -/
structure Clause where
  hdr    : W64
  word   : W64
  lanes  : BitVec 64
  pos    : Nat
  sampled : Bool
  g0     : BitVec 64
  g1     : BitVec 64
  short0 : Bool
  short1 : Bool
  mark   : Nat
  beside : Nat
  taken  : BitVec 64
  target : W64
  owes   : Option (Cause × Nat × W64 × Nat)
  deriving DecidableEq, Repr

/-- A run of the PC table: address, resume position, lanes (R20). -/
structure Run where
  addr  : W64
  pos   : Nat
  lanes : BitVec 64
  deriving DecidableEq, Repr

/-- A fixed-latency result that is not yet readable (R339-R342): the register, the clock from which it may be read, what the
register held before (lanes and tag, or the scalar value), the lanes written, the selection and clause that wrote it, its place in issue order, and
whether an array operation of the multiply class wrote it (R131, R147). -/
structure PendW where
  reg    : RegCode
  ready  : Nat
  oldV   : List W32
  oldT   : Tag
  oldS   : W64
  lanes  : BitVec 64
  beside : Nat
  seq    : Nat
  array  : Bool
  deriving DecidableEq, Repr

/-- A watched sector (R103, R104). -/
structure Watch where
  space  : Space
  sector : Nat
  scope  : Nat
  hit    : Bool
  deriving DecidableEq, Repr

/-- One lane's part of a memory instruction: the lane, its address, and the place of each byte. -/
structure Acc where
  lane  : Nat
  addr  : Nat
  place : List Nat
  deriving DecidableEq, Repr

/-- The kinds of outstanding operation, each with what it needs when it completes. -/
inductive OpKind where
  /-- LDP, LDT, LDG, LDW: own bytes seen at issue, lanes returned so far; `kind` as in R404. -/
  | load (kind : Nat) (mod : BitVec 8) (space : Space) (scope width : Nat) (acquire : Bool) (accs : List Acc)
      (own : List (Nat × Byte)) (got : List (Nat × List Byte))
  | store
  | storePrivate
  /-- A releasing store: its scope, and the number under which its own entries are sealed; those stored before it are sealed under
  the operation's number. -/
  | storeRel (scope own : Nat)
  /-- A memory operation that met a poisoned line: it stays until its group's INTEGRITY trap (R294); whether it was an acquire. -/
  | failed (acquire : Bool)
  | atomic (space : Space) (op scope width : Nat) (acquire release : Bool) (accs : List Acc) (b x : List W64)
      (got : List (Nat × W64))
  | atomp (slot width : Nat) (acquire release : Bool) (accs : List Acc) (b x : List W64) (got : List (Nat × W64))
  | commit (scope : Nat) (examined : Bool)
  | abort (scope : Nat)
  | prefetch (scope : Nat) (accs : List Acc)
  | sfu (res : VReg) (lanes : BitVec 64) (flags : BitVec 6)
  | mop (block : Nat)
  | obres (rec : Nat) (status : Nat) (lines : Nat)
  /-- OBLOAD: the group's own bytes of the source as they stood at issue. -/
  | obload (rec off src len : Nat) (own : List (Nat × Byte))
  | mdrain (status : Nat)
  /-- A name request: the scope of a release still to be made before it leaves the core. -/
  | request (rel : Option Nat)
  /-- A BULK: the scope of a release still to be made before its entry enters its queue. -/
  | bulk (rel : Option Nat)
  /-- A SPAWN: the record's address, the spawner's BASE, and whether its release is still to be made. -/
  | spawn (addr prio : Nat) (rel : Bool)
  /-- A kick store: the list addresses still to be taken, and whether its commit is still to be made. -/
  | kick (lists : List Nat) (rel : Bool)
  /-- An operation that has ended with a status, which lands once an earlier write to its register has landed (R342). -/
  | ended (status : W64)
  deriving DecidableEq, Repr

/-- An outstanding operation of a group: number, slot (0 none), destination code, registers it spans, lanes it writes, and the
selection and clause that issued it (R341). -/
structure Op where
  id     : Nat
  slot   : Nat
  dest   : RegCode
  span   : Nat
  lanes  : BitVec 64
  beside : Nat
  kind   : OpKind
  deriving DecidableEq, Repr

/-- A line under integrity debt (R113): a tile line or a global line. -/
structure Debt where
  space : Space
  line  : Nat
  deriving DecidableEq, Repr

/-- The status registers that WRSR writes as they stood before a WRSR that issued at a clock: they still govern a word that issues at that
clock in the clause beside it (R325, R339). -/
structure Was where
  clk      : Nat
  chk      : Bool
  flags    : W64
  tbase    : W64
  prioBase : Nat
  prioInh  : Nat
  deriving DecidableEq, Repr

/-- A group: its architectural state (R26, R28, R326), its place and its scheduling state. `halting` says that a forced halt of it has begun
and waits for an operation (R402). `pages` are the PAGE findings of operations that
go on (R392, R435): the operation whose slot must clear first (0: none), address and access. `whit` says that sectors watched before a save
stand as hit (R334), `blkLost` that a soft error took GSTAT.BLK, so that software reads it as 0 until it is written again, and `lost` names, by
their RDSR indices, the status words that a soft error took, which software reads as 0 while the device's own values stand (R420). -/
structure Group where
  name      : W64
  func      : Nat
  launch    : Nat
  pkg       : Nat
  qtr       : Nat
  slot      : Nat
  st        : GState
  v         : List VReg
  s         : List W64
  ctr       : List W64
  box       : List W64
  flags     : W64
  blk       : Nat
  wbase     : Nat
  ts        : Bool
  chk       : Bool
  mm        : Bool
  tbase     : W64
  tframe    : W64
  tcause    : W64
  prioBase  : Nat
  prioInh   : Nat
  cgen      : BitVec 16
  team      : W64
  teams     : W64
  clus      : W64
  grid      : W64
  live      : BitVec 64
  pwin      : W64
  pc        : List W64
  rpos      : List Nat
  progress  : Nat
  arec      : Nat
  brec      : Nat
  acc       : AccOrigin
  wtags     : List Tag
  obrec     : List W64
  watch     : List Watch
  wovf      : Bool
  cond      : Cond
  ops       : List Op
  debt      : List Debt
  emark     : Nat
  pendw     : List PendW
  pendf     : List (Nat × BitVec 6)
  clauses   : List Clause
  sel       : List Run
  selNo     : Nat
  waitClk   : Nat
  waiting   : Bool
  accept    : Bool
  place     : BitVec 16
  preempt   : Bool
  graceAt   : Option Nat
  owedInteg : Bool
  owedSoft  : Bool
  heldXf    : Bool
  heldBrk   : Bool
  pages     : List (Nat × Nat × Nat)
  sfaddr    : W64
  dying     : Bool
  killing   : Option (BitVec 32)
  halting   : Bool
  exitCode  : BitVec 32
  rclass    : Nat
  exitSys   : Bool
  ovf       : Nat
  ovfBase   : Nat
  image     : Nat
  packed    : List Op
  seals     : List Nat
  acqSeq    : Nat
  xfFail    : Option Nat
  was       : Option Was
  whit      : Bool
  blkLost   : Bool
  lost      : List Nat
  deriving DecidableEq, Repr

/-- A translation held in a TLB (R390): function, first address of the page, its size, first address of the frame, rights,
and whether D is known to be set. -/
structure Tlb where
  func : Nat
  va   : Nat
  size : Nat
  pa   : Nat
  w    : Bool
  x    : Bool
  d    : Bool
  deriving DecidableEq, Repr

/-- A page walk in flight (R390): the core that asked, what the access was (0 read, 1 write, 2 fetch, 3 atomic), who waits. -/
structure Walk where
  core   : Nat
  func   : Nat
  va     : Nat
  access : Nat
  group  : Option Nat
  deriving DecidableEq, Repr

/-- A clean line of a near cache (R92). `old` names the bytes of it that are older than what a group has already seen or written, by group
and place: that group's later loads are not served them (R118, R121, R124, R126; log entry 60). -/
structure NearLine where
  func : Nat
  line : Nat
  data : List Byte
  old  : List (Nat × Nat)
  deriving DecidableEq, Repr

/-- A cached name translation (R62). -/
structure NameLine where
  func   : Nat
  name   : W64
  word0  : W64
  word1  : W64
  word2  : W64
  deriving DecidableEq, Repr

/-- The kinds of entry of an engine queue (R306, R315, R323). -/
inductive EntryKind where
  | linear (sspace dspace : Space) (src dst len : Nat)
  | tensor (sshape dshape : Nat)
  | fence (qmask : Nat)
  | drain (acc : List VReg) (isInt : Bool) (target : Nat) (add sat : Bool) (mode : Nat) (row0 col0 : Int) (shape : Nat)
  deriving DecidableEq, Repr

/-- Whom an entry reports to (R307): an operation of a group, a completion word, its event alone, or a COPY command. -/
inductive Report where
  | bulk (g op : Nat)
  | list (tag cpl : Nat)
  | drain
  | copyCommand (id tag cpl : Nat)
  deriving DecidableEq, Repr

/-- Where the byte of a sector comes from: a source address with its byte when the entry started, where it could be read; for a drain,
four times an accumulator's number plus the number of the element's byte. -/
structure Src where
  space : Space
  addr  : Nat
  old   : Option Byte
  deriving DecidableEq, Repr

/-- A sector still to be written: virtual for global memory, a place for the tile store. -/
structure Todo where
  space  : Space
  sector : Nat
  srcs   : List (Option Src)
  deriving DecidableEq, Repr

/-- An entry of an engine queue: `rclass` is the reservation class of the group or command that placed it (R440); `till` is the till's place plus one, 0 for none; whether a presence acknowledgement is awaited; the
operation whose release or window read must come first (0: none). Once it has started, `todo` holds its sectors still to be
written, ascending. `lineAcc` counts the bytes written to the line under way, `turn` the packets of 256 bytes that it has sprayed over the planes,
`read` and `sent` name the block of memory and the turn of the packet last read from the fabric and last sent to it (R432). `status` and `fail` say
how and where the entry ends in error. -/
structure Entry where
  id      : Nat
  kind    : EntryKind
  report  : Report
  func    : Nat
  name    : W64
  rclass  : Nat
  core    : Nat
  till    : Nat
  awaitAck : Bool
  rel     : Nat
  started : Bool
  todo    : List Todo
  lineAcc : Nat
  turn    : Nat
  read    : Option (Nat × Nat)
  sent    : Option (Nat × Nat)
  status  : Nat
  fail    : Nat
  deriving DecidableEq, Repr

/-- A record of a request list as the engine has read it (R316): its words, or that it could not be read, with the status that its list ends with. -/
inductive ListRec where
  | words (w : List W64)
  | bad (status : Nat)
  deriving DecidableEq, Repr

/-- A list handed to a request engine (R316), the kick store that gave it, the record of it that is placed next, and the records from that one on
that have been read already. -/
structure ListReq where
  addr : Nat
  op   : Nat
  pos  : Nat
  g    : Nat
  func : Nat
  name : W64
  ahead : List ListRec
  deriving DecidableEq, Repr

/-- What one quarter keeps: round robin places (R32, R33), the first clock its issue slot is free and the group that took it last (whose
other clause may issue in the same clock, R24), the first clock its SFU is free (R288), the array queue, by group and operation (R131), and the words
that wait for the SFU, in the order in which they first did, by group, selection and clause, and position (R288). -/
structure Quarter where
  rrIssue : Nat
  rrAdmit : Nat
  free    : Nat
  user    : Nat
  sfuFree : Nat
  arrayQ  : List (Nat × Nat)
  sfuQ    : List (Nat × Nat × Nat)
  deriving DecidableEq, Repr

/-- What one core keeps. -/
structure Core where
  clk    : Nat
  tlb    : List Tlb
  near   : List NearLine
  ncache : List NameLine
  qtr    : List Quarter
  queues : List (List Entry)
  lists  : List ListReq
  deriving DecidableEq, Repr

/-- The levels below device at which an escrow entry may stand (R93). `priv` marks a private store (R85): it is no escrow entry,
but, like one, it is seen by its group at once and by others only later. -/
inductive Level where | priv | group | team | cluster
  deriving DecidableEq, Repr

/-- An escrow entry (R93): owner, level, sector, byte enables and data; `sealId` is the operation that will move or discard it
(0: none); a marked entry is translated again when it moves (R392); `after` are the operations of the same lane and place that come before it (R118);
`pool` says that it stands in the core's pool, not in the owner's overflow area (R94). -/
structure Esc where
  owner  : Nat
  level  : Level
  space  : Space
  sector : Nat
  va     : Nat
  data   : List (Option Byte)
  sealId : Nat
  marked : Bool
  after  : List Nat
  pool   : Bool
  deriving DecidableEq, Repr

/-- A sector in the hub's egress escrow (R97): its physical address and bytes, the engine copy that wrote it (0: none), whose sectors
reach their destination in order (R128), the group whose commit brought it there, with that operation (R435), its virtual address, the
physical plane of a sprayed packet (none: the plane of its line, R432), and the world whose group or engine entry wrote it (R386; none: the hub). -/
structure Egress where
  sector : Nat
  data   : List (Option Byte)
  copy   : Nat
  owner  : Option (Nat × Nat)
  va     : Nat
  plane  : Option Nat
  func   : Option Nat
  deriving DecidableEq, Repr

/-- Who sent a name request. -/
inductive Sender where
  | group (g op : Nat)
  | teller (q : Nat) (tag : BitVec 32) (note : BitVec 8) (cname caddr : W64)
  | joiner
  deriving DecidableEq, Repr

/-- The four requests that act on names (R63). -/
inductive NameOp where
  | signal (k : Nat) (value : W64)
  | wake
  | deposit (b : Nat) (value : W64)
  | join (caller : W64)
  deriving DecidableEq, Repr

/-- Where a request stands. -/
inductive ReqStage where
  | release (scope : Nat)
  | send
  | refused
  | answered (result : W64)
  /-- A teller command's completion that waits for a translation: its status and VALUE, and whether its record is written (R368). -/
  | completing (status : Nat) (value : W64) (recorded : Bool)
  deriving DecidableEq, Repr

/-- A name request in flight (R249), with the translation it was sent under; `resendAt` is the clock before which a request that a moving
target has refused is not sent again (R71). -/
structure Req where
  id     : Nat
  sender : Sender
  core   : Option Nat
  func   : Nat
  sclass : Nat
  name   : W64
  op     : NameOp
  stage  : ReqStage
  word0  : W64
  word1  : W64
  resendAt : Nat
  deriving DecidableEq, Repr

/-- Who asked for a launch. -/
inductive LaunchBy where
  | teller (q : Nat) (tag : BitVec 32) (note : BitVec 8) (cname caddr : W64)
  | spawn (g op : Nat)
  deriving DecidableEq, Repr

/-- A launch (R39, R40, R371): the eight words of its record, or its address alone while it is still to be read; who asked; its
priority; whether it is placed, done, and its names released; its number, groups and grid barriers. -/
structure Launch where
  words    : List W64
  func     : Nat
  by_      : LaunchBy
  prio     : Nat
  placed   : Bool
  done     : Bool
  released : Bool
  lnum     : Nat
  groups   : List Nat
  bars     : List Nat
  deriving DecidableEq, Repr

/-- An old word of global memory, for a fetch that may still see it (R204): physical address, old word, when it was replaced. -/
structure OldWord where
  addr : Nat
  word : W64
  seq  : Nat
  deriving DecidableEq, Repr

/-- An event record (R411-R413): world, class, payload words, group name, who answers it still; the hub clock of its claim, with the host's
owner bit, the clerks' grace, the ring's address and size in records, and the MSI-X entry as they stood then (R410); and an answer that waits for the record to be written (R415; 0 none, 1 RETRY or
RESUME, 2 FAIL or KILL). -/
structure Event where
  seq     : Nat
  func    : Nat
  cls     : Nat
  payload : List W64
  group   : W64
  disp    : Nat
  owner   : Option Nat
  waits   : Option Nat
  entry   : Option (Nat × Nat)
  written : Bool
  clerk   : Bool
  at_     : Nat
  host    : Bool
  grace   : Nat
  act     : Nat
  ring    : Nat
  size    : Nat
  vec     : Nat
  deriving DecidableEq, Repr

/-- A command accepted into a ring (R366): its function and its sixteen words. -/
structure Command where
  func  : Nat
  words : List W64
  deriving DecidableEq, Repr

/-- A page request to the host (R393). -/
structure PriReq where
  func  : Nat
  va    : Nat
  group : Option Nat
  deriving DecidableEq, Repr

/-- An ATS translation request (R393). -/
structure AtsReq where
  die   : Nat
  func  : Nat
  hpa   : Nat
  access : Nat
  group : Option Nat
  deriving DecidableEq, Repr

/-- A MOVE in progress (R372, R407): the groups still to be installed, the target, the destination core, the operand-buffer lines held
for each group there (group, first line, lines), who asked. -/
structure MoveReq where
  groups : List Nat
  lines  : List (Nat × Nat × Nat)
  target : Nat
  pkg    : Nat
  q      : Nat
  cmd    : List W64
  deriving DecidableEq, Repr

/-- A MOVE or KILL command taken from its ring that still waits (R332): its queue, function and words; whether a KILL has acted, or a MOVE has
found its room; whether it waits for its target's death; whether a MOVE has told of a lack of room in the save pool; whether it has waited for its
target to leave STATE 3, its privilege being settled. -/
structure Taken where
  q     : Nat
  func  : Nat
  words : List W64
  acted : Bool
  doomed : Bool
  told  : Bool
  judged : Bool
  deriving DecidableEq, Repr

/-- A COPY command under way (R373): its queue and words, and the record of its block that is read next, or performed now. -/
structure CopyReq where
  id   : Nat
  func : Nat
  q    : Nat
  cmd  : List W64
  pos  : Nat
  busy : Bool
  deriving DecidableEq, Repr

/-- The hub: its registers by PF BAR0 offset and its queues; `pcmd` holds the three words of the partition command being performed;
`contexts` are the places in the save pools of the engine contexts of paused worlds (world, address, length; length 0 while there is no
room, R399), `notes` the notifications whose translation is under way (world, address, data; R74), `puts` the words LOST and RACK that wait so (R413), `ringAt` where a queue's next command goes in its ring
(R366), `granted` how many commands of a partition and class (16 times the partition plus the class) have begun in the round under way
(R369), `sliceLen` the clocks of the slice under way of a partition (R384), `atsMap` the translations that the host has granted and not invalidated
(world, host page, frame; R393), which outlive their L2 TLB entries. -/
structure Hub where
  regs      : RegFile
  rings     : List (Nat × List Command)
  acc       : List (Nat × BitVec 16)
  ringAt    : List (Nat × Nat)
  bad       : List (Nat × BitVec 16)
  granted   : List (Nat × Nat)
  routines  : List (Nat × Nat × List (BitVec 32))
  frames    : List (Nat × Byte)
  treeLoss  : List (Nat × Nat)
  events    : List Event
  eseq      : List (Nat × Nat)
  lost      : List (Nat × Nat)
  slice     : List (Nat × Nat)
  sliceAt   : List (Nat × Nat)
  sliceLen  : List (Nat × Nat)
  placedN   : List (Nat × Nat)
  barMsgs   : List (Nat × Nat × Nat)
  barPort   : List (Nat × Nat × Nat)
  barRel    : List (Nat × Nat × Nat)
  images    : List (Nat × Nat × Nat)
  contexts  : List (Nat × Nat × Nat)
  taken     : List Taken
  moves     : List MoveReq
  copies    : List CopyReq
  notes     : List (Nat × Nat × List Byte)
  puts      : List (Nat × Nat × List Byte)
  pri       : List PriReq
  ats       : List AtsReq
  l2tlb     : List (Nat × Tlb)
  atsMap    : List (Nat × Nat × Nat)
  denied    : List (Nat × Nat)
  departing : List Nat
  pcmd      : List W64
  ide       : List (Nat × Nat × List Byte)
  netKeys   : List Nat
  areas     : List (Nat × Nat × Nat × Nat)
  deriving DecidableEq, Repr

/-- A secure session of the SPDM responder (R426): its number, whether FINISH has been done, how often its keys were updated. -/
structure Session where
  id       : Nat
  finished : Bool
  epoch    : Nat
  deriving DecidableEq, Repr

/-- The algorithms that the SPDM responder has negotiated (R426): base hash, extended asymmetric algorithm, DHE group, AEAD suite, key schedule. -/
structure Algs where
  hash  : Bool
  asym  : Bool
  dhe   : Bool
  aead  : Bool
  sched : Bool
  deriving DecidableEq, Repr

/-- Boot and management state that no register map holds (file 23): flash bytes written, the minimum SVN as raised, clerk core 0's
memory and program counter (R423), the running slot (15: none), the slot that an activation made the boot choice, the slot of a staged image; the corrected errors counted (R420). -/
structure Boot where
  flash    : List (Nat × Byte)
  raised   : Nat
  clerkMem : List Byte
  clerkPc  : Nat
  running  : Nat
  chosen   : Nat
  staged   : Option Nat
  sessions : List Session
  nextSess : Nat
  algs     : Algs
  corrected : Nat
  deriving DecidableEq, Repr

/-- A reduction under way (R445): its number, its record's address and world, the record where it is read (else empty), and the status that is
still to be written where it has ended. -/
structure Coll where
  id     : Nat
  addr   : Nat
  func   : Nat
  words  : List W64
  status : Option Nat
  deriving DecidableEq, Repr

/-- Network and fabric state that no register map holds (files 22 and 24): whole periods without a heartbeat by endpoint, endpoints whose heartbeat
has come in the period under way, endpoints claimed with the planes
that deliver for them, tag failures by flow, and by flow and packet (R418), reductions under way, the hub clock of the last heartbeat, the links out
of service (2p and 2p + 1 carry plane p, R436), and the endpoints whose silence PLDM monitoring reports (R438). -/
structure Fabric where
  missed   : List (Nat × Nat)
  heard    : List Nat
  claims   : List (Nat × List Nat)
  tagFails : List (Nat × Nat)
  resent   : List (Nat × Nat × Nat)
  colls    : List Coll
  sent     : Nat
  deadLinks : List Nat
  silent   : List Nat
  deriving DecidableEq, Repr

/-- What the device answers to the outside (log entry 7). -/
inductive Answer where
  | dmwr (code : Nat)
  | bytes (kind : Nat) (data : List Byte)
  | msix (func vec : Nat)
  | word (kind : Nat) (value : W64)
  deriving DecidableEq, Repr

/-- An entry of the agenda (log entry 1): clocks that pass on a core, then a step of the device, or the next word of a clause. -/
structure Sched where
  core   : Nat
  clocks : Nat
  what   : Option Instr
  deriving DecidableEq, Repr

/-- The state of the device. `tileOwn` gives a 4 KiB unit of the tile store (core · 512 + unit) the world whose team had it last, `opOwn` a line
of the operand buffers the world whose record had it last; `cxlKeys` gives a block of 16 bytes of CXL-attached memory the world under whose key it
stands (R397), 64 where that world has departed. -/
structure State where
  groups    : List Group
  cores     : List (Nat × Core)
  launches  : List Launch
  mem       : Memory
  tile      : Memory
  opbuf     : Memory
  tileOwn   : List (Nat × Nat)
  opOwn     : List (Nat × Nat)
  cxlKeys   : List (Nat × Nat)
  absent    : List Nat
  poison    : List Nat
  gpoison   : List Nat
  escrow    : List Esc
  egress    : List Egress
  wlog      : List OldWord
  walks     : List Walk
  reqs      : List Req
  hub       : Hub
  boot      : Boot
  fabric    : Fabric
  agenda    : List Sched
  cur       : Option (Nat × Nat)
  freeCount : Nat
  seq       : Nat
  out       : List Answer
  deriving DecidableEq, Repr

/-- A quarter at reset: round robins as if slot 15 was served last (R32, R33). -/
def Quarter.reset : Quarter := ⟨15, 15, 0, 0, 0, [], []⟩

/-- A core at reset (R326: CYC 0; log entry 3). -/
def Core.reset : Core := ⟨0, [], [], [], List.replicate 4 Quarter.reset, List.replicate 4 [], []⟩

/-- The hub at reset: every register at its reset value (file 20 to 24), nothing queued (log entry 3). -/
def Hub.reset : Hub :=
  { regs := ⟨[]⟩, rings := [], acc := [], ringAt := [], bad := [], granted := [], routines := [], frames := [], treeLoss := [], events := [], eseq := []
    lost := [], slice := [], sliceAt := [], sliceLen := [], placedN := [], barMsgs := [], barPort := [], barRel := [], images := [], contexts := [], taken := [], moves := [], copies := [], notes := [], puts := []
    pri := [], ats := [], l2tlb := [], atsMap := [], denied := [], departing := [], pcmd := [], ide := [], netKeys := [], areas := [] }

/-- Boot state at reset (log entry 5). -/
def Boot.reset : Boot :=
  { flash := [], raised := 0, clerkMem := [], clerkPc := 0, running := 15, chosen := 0, staged := none, sessions := [], nextSess := 1
    algs := ⟨false, false, false, false, false⟩, corrected := 0 }

/-- Fabric state at reset (log entry 3). -/
def Fabric.reset : Fabric := ⟨[], [], [], [], [], [], 0, [], []⟩

/-- The device right after reset: no group, nothing in flight, every register at its reset value, memory with nothing listed. -/
def State.reset : State :=
  { groups := [], cores := [], launches := [], mem := ⟨[]⟩, tile := ⟨[]⟩, opbuf := ⟨[]⟩, tileOwn := [], opOwn := [], cxlKeys := [], absent := [], poison := []
    gpoison := [], escrow := [], egress := [], wlog := [], walks := [], reqs := [], hub := Hub.reset, boot := Boot.reset
    fabric := Fabric.reset, agenda := [], cur := none, freeCount := 0, seq := 1, out := [] }

end Sys2Proof.Machine
end

