-- ==== Sys2Proof/Machine/Access.lean ====
section
/-! DEFINITION. Reading and writing the parts of State: groups, cores, memories in canonical form, the hub's register map, free
draws, and what follows from them (blocks in use, the PC table's runs, where a world runs). -/

namespace Sys2Proof.Machine

/-- The last n elements of a list. -/
def lastN {α : Type} (n : Nat) (l : List α) : List α := l.drop (l.length - n)

/-! Memories -/

/-- The byte a list of cells holds at an address; an unlisted address reads 0 (log entry 4). -/
def getCell : List Host.Cell → Nat → Byte
  | [], _ => 0
  | c :: cs, a => if c.1 = a then c.2 else getCell cs a

/-- The list with the byte at an address replaced, in canonical form: writing 0 removes the entry. -/
def putCell : List Host.Cell → Nat → Byte → List Host.Cell
  | [], a, b => if b = 0 then [] else [(a, b)]
  | c :: cs, a, b =>
    if a < c.1 then (if b = 0 then c :: cs else (a, b) :: c :: cs)
    else if a = c.1 then (if b = 0 then cs else (a, b) :: cs)
    else c :: putCell cs a b

/-- One byte of a memory. -/
def Memory.get (m : Memory) (a : Nat) : Byte := getCell m.cells a

/-- A memory with one byte written. -/
def Memory.put (m : Memory) (a : Nat) (b : Byte) : Memory := ⟨putCell m.cells a b⟩

/-- n bytes of a memory from an address on. -/
def Memory.read (m : Memory) (a n : Nat) : List Byte := (List.range n).map (fun k => m.get (a + k))

/-- A memory with bytes written from an address on. -/
def Memory.write (m : Memory) (a : Nat) : List Byte → Memory
  | [] => m
  | b :: bs => (m.put a b).write (a + 1) bs

/-- The little-endian 64-bit word at an address (R11). -/
def Memory.word (m : Memory) (a : Nat) : W64 := BitVec.ofNat 64 (ofBytesLE (m.read a 8))

/-- A memory with a 64-bit word written. -/
def Memory.putWord (m : Memory) (a : Nat) (w : W64) : Memory := m.write a (bytesLE 8 w.toNat)

/-! The hub's registers (PF BAR0) -/

/-- The reset value of the word at an offset of PF BAR0: the values of files 21 to 24, 0 for every other. World 0's entry reads
RUNNING in partition 0 (R385, log entry 6); BOOTSTAT's SLOT is 0xF and its FMIN the fused minimum (R424). -/
def regReset (off : Nat) : W64 :=
  if off = 0x180 then BitVec.ofNat 64 (256 * (Config.fusedMinSvn.toNat % 256) + 0xF0)
  else if off = 0x4000 then 0x200
  else if off = 0xA000 then 0x00FAC688
  else if off = 0xA020 then 3200
  else if off = 0xA028 then 95
  else 0

def getReg : List (Nat × W64) → Nat → W64
  | [], off => regReset off
  | c :: cs, off => if c.1 = off then c.2 else getReg cs off

def putReg : List (Nat × W64) → Nat → W64 → List (Nat × W64)
  | [], off, v => if v = regReset off then [] else [(off, v)]
  | c :: cs, off, v =>
    if off < c.1 then (if v = regReset off then c :: cs else (off, v) :: c :: cs)
    else if off = c.1 then (if v = regReset off then cs else (off, v) :: cs)
    else c :: putReg cs off v

/-- A register of the hub by offset. -/
def State.reg (s : State) (off : Nat) : W64 := getReg s.hub.regs.cells off

/-- The state with a register of the hub replaced. -/
def State.setReg (s : State) (off : Nat) (v : W64) : State :=
  { s with hub := { s.hub with regs := ⟨putReg s.hub.regs.cells off v⟩ } }

/-- Bits [hi:lo] of a register of the hub. -/
def State.regN (s : State) (off hi lo : Nat) : Nat := bitsN (s.reg off) hi lo

/-- The state with bits [hi:lo] of a register of the hub replaced. -/
def State.setRegN (s : State) (off hi lo v : Nat) : State := s.setReg off (setBits (s.reg off) hi lo v)

def offReady : Nat := 0x100
def offCready (d : Nat) : Nat := 0x140 + 8 * d
def offBootstat : Nat := 0x180
def offPcmd (w : Nat) : Nat := 0x200 + 8 * w
def offPstat : Nat := 0x220
def offMr (n w : Nat) : Nat := 0x400 + 64 * n + 8 * w
def offPart (p w : Nat) : Nat := 0x1000 + 0x100 * p + 8 * w
def offWorld (f w : Nat) : Nat := 0x4000 + 0x80 * f + 8 * w
def offSave (f w : Nat) : Nat := 0x6000 + 0x10 * f + 8 * w
def offFrt (f w : Nat) : Nat := 0x8000 + 0x40 * f + 8 * w
def offPlremap : Nat := 0xA000
def offOwnep : Nat := 0xA008
def offHbcfg : Nat := 0xA010
def offExpwin : Nat := 0xA018
def offPwrcap : Nat := 0xA020
def offTherm : Nat := 0xA028
def offWin (n : Nat) : Nat := 0xA100 + 8 * n
def offColldb : Nat := 0xA400
def offQueue (q w : Nat) : Nat := 0x100000 + 32 * q + 8 * w

/-- The partition of a world (R385). -/
def State.partOf (s : State) (f : Nat) : Nat := s.regN (offWorld f 0) 4 0
/-- STATE of a world: 0 ABSENT, 1 ADMITTED, 2 RUNNING, 3 DEPARTING. -/
def State.worldState (s : State) (f : Nat) : Nat := s.regN (offWorld f 0) 9 8
def State.worldConf (s : State) (f : Nat) : Bool := s.regN (offWorld f 0) 5 5 == 1
def State.worldCxlok (s : State) (f : Nat) : Bool := s.regN (offWorld f 0) 6 6 == 1
def State.tdi (s : State) (f : Nat) : Nat := s.regN (offWorld f 0) 17 16
/-- STATE of a partition: 0 EMPTY, 1 READY, 2 SCRUB (R382). -/
def State.partState (s : State) (p : Nat) : Nat := s.regN (offPart p 0) 1 0

/-- Whether a partition holds a core's requester port (R375, R382). -/
def State.partCore (s : State) (p pkg : Nat) : Bool := bitAt (s.reg (offPart p 1)) (pkg / 4)

/-- The package indices of a partition's cores, ascending. -/
def State.partCores (s : State) (p : Nat) : List Nat := (List.range 256).filter (fun c => s.partCore p c)

/-- Whether the connection matrix lets a core reach a memory port (R377): it changes only with CONFIGURE and RETIRE. -/
def State.matrix (s : State) (pkg port : Nat) : Bool :=
  (List.range 24).any (fun p => s.partState p != 0 && s.partCore p pkg && bitAt (s.reg (offPart p 2)) port)

/-- Whether a world's partition has a copy engine on a die (R310). -/
def State.copyEngine (s : State) (func die : Nat) : Bool :=
  s.regN (offPart (s.partOf func) 5) (4 * die + 3) (4 * die) != 0

/-- The worlds of a partition that are RUNNING, ascending (R387). -/
def State.running (s : State) (p : Nat) : List Nat :=
  (List.range 64).filter (fun f => s.worldState f == 2 && s.partOf f == p)

/-- WEIGHT of a reservation class in a partition; 0 is read as 1 (R382, R441). -/
def State.weight (s : State) (p c : Nat) : Nat := max 1 (s.regN (offPart p (8 + c / 8)) (8 * (c % 8) + 7) (8 * (c % 8)))

/-- The world whose tenant slice a partition is in (R387): the first of its running worlds until a slice has ended; 64 where none runs. -/
def State.sliceOf (s : State) (p : Nat) : Nat := lookupD s.hub.slice p ((s.running p).headD 64)

/-- Whether a world's tenant slice is current (R387): always where it is its partition's one running world. -/
def State.sliceCurrent (s : State) (f : Nat) : Bool :=
  let p := s.partOf f
  match s.running p with
  | _ :: _ :: _ => s.sliceOf p == f
  | _ => true

/-! Groups, cores and quarters -/

/-- What an index that names no group reads as: a group not allocated (R30). -/
def Group.blank : Group :=
  { name := 0, func := 0, launch := 0, pkg := 0, qtr := 0, slot := 0, st := .invalid, v := [], s := List.replicate 48 0
    ctr := List.replicate 16 0, box := List.replicate 8 0, flags := 0, blk := 0, wbase := 0, ts := false, chk := false, mm := false
    tbase := 0, tframe := 0, tcause := 0, prioBase := 0, prioInh := 0, cgen := 0, team := 0, teams := 0, clus := 0, grid := 0
    live := 0, pwin := 0, pc := List.replicate 64 0, rpos := List.replicate 64 0, progress := 0, arec := 0, brec := 0, acc := .other
    wtags := [], obrec := List.replicate 8 0, watch := [], wovf := false, cond := .none, ops := [], debt := [], emark := 0
    pendw := [], pendf := [], clauses := [], sel := [], selNo := 0, waitClk := 0, waiting := false, accept := false, place := 0
    preempt := false, graceAt := none, owedInteg := false, owedSoft := false, heldXf := false, heldBrk := false, pages := []
    sfaddr := 0, dying := false, killing := none, halting := false, exitCode := 0, rclass := 0, exitSys := false, ovf := 0, ovfBase := 0, image := 0
    packed := [], seals := [], acqSeq := 0
    xfFail := none, was := none, whit := false, blkLost := false, lost := [] }

/-- A group by its index. -/
def State.grp (s : State) (g : Nat) : Group := s.groups.getD g Group.blank

/-- The state with one group replaced. -/
def State.setGrp (s : State) (g : Nat) (x : Group) : State := { s with groups := setNth s.groups g x }

/-- The state with one group changed. -/
def State.modGrp (s : State) (g : Nat) (f : Group → Group) : State := { s with groups := modifyNth f g s.groups }

/-- The indices of the groups that satisfy p, ascending. -/
def State.grpsWhere (s : State) (p : Group → Bool) : List Nat := positions p 0 s.groups

def State.core (s : State) (pkg : Nat) : Core := lookupD s.cores pkg Core.reset
def State.setCore (s : State) (pkg : Nat) (c : Core) : State := { s with cores := setKey s.cores pkg c }
def State.modCore (s : State) (pkg : Nat) (f : Core → Core) : State := s.setCore pkg (f (s.core pkg))
def State.clk (s : State) (pkg : Nat) : Nat := (s.core pkg).clk
/-- A core's clock moved on to at least t; it never goes back. -/
def State.advance (s : State) (pkg t : Nat) : State := s.modCore pkg (fun c => { c with clk := max c.clk t })
def State.quarter (s : State) (pkg q : Nat) : Quarter := (s.core pkg).qtr.getD q Quarter.reset
def State.modQuarter (s : State) (pkg q : Nat) (f : Quarter → Quarter) : State :=
  s.modCore pkg (fun c => { c with qtr := modifyNth f q c.qtr })

/-- The hub clock (R5): the clock of the agenda's core 260. -/
def State.hubClk (s : State) : Nat := s.clk 260

/-- A fresh number: operations, requests, entries and old words are told apart by it. -/
def State.fresh (s : State) : Nat × State := (s.seq, { s with seq := s.seq + 1 })

/-- One free bit (log entry 2). -/
def State.draw (s : State) : Bool × State := (Config.freeBit s.freeCount, { s with freeCount := s.freeCount + 1 })

/-- n free bits from one place of the counter on; the counter passes them. -/
def State.drawN (s : State) (n : Nat) : (Nat → Bool) × State :=
  (fun k => Config.freeBit (s.freeCount + k), { s with freeCount := s.freeCount + n })

/-- n free 32-bit words. -/
def State.drawWords (s : State) (n : Nat) : (Nat → W32) × State :=
  (fun k => Config.freeWord (s.freeCount + k), { s with freeCount := s.freeCount + n })

/-- Whether a group sits in a slot (R30). -/
def Group.resident (g : Group) : Bool :=
  match g.st with
  | .active | .pending | .suspended => true
  | _ => false

/-- Whether a group is a live one: from its creation until it is dead (R47). -/
def Group.alive (g : Group) : Bool :=
  match g.st with
  | .dead | .invalid => false
  | _ => true

/-- The groups resident in a quarter. -/
def State.inQuarter (s : State) (pkg q : Nat) : List Nat :=
  s.grpsWhere (fun g => g.resident && g.pkg == pkg && g.qtr == q)

/-- The groups for which a MOVE holds room at a core, those apart that still stand there themselves (R71, R372). -/
def State.reservedAt (s : State) (pkg q : Nat) : List Nat :=
  (s.hub.moves.filter (fun m => m.pkg == pkg)).flatMap (fun m =>
    m.groups.filter (fun g => (s.grp g).qtr == q && !((s.grp g).resident && (s.grp g).pkg == pkg)))

/-- Register blocks free in a quarter's pool (R27). -/
def State.freeBlocks (s : State) (pkg q : Nat) : Nat :=
  Config.poolBlocks - ((s.inQuarter pkg q ++ s.reservedAt pkg q).foldl (fun n g => n + (s.grp g).blk) 0)

/-- Slots of a quarter in which no group sits, ascending (R27). -/
def State.openSlots (s : State) (pkg q : Nat) : List Nat :=
  let used := (s.inQuarter pkg q).map (fun g => (s.grp g).slot)
  (List.range Config.slots).filter (fun k => !used.contains k)

/-- Slots of a quarter free for others than the MOVEs that hold room there, ascending (R27, R372). -/
def State.freeSlots (s : State) (pkg q : Nat) : List Nat := (s.openSlots pkg q).drop (s.reservedAt pkg q).length

/-- Effective priority: the greater of BASE and any inherited one (R51). -/
def Group.prio (g : Group) : Nat := max g.prioBase g.prioInh

/-- TEAM, TEAMS and CLUS fields (R28). -/
def Group.tsoff (g : Group) : Nat := bitsN g.team 24 16
def Group.gidx (g : Group) : Nat := bitsN g.team 3 0
def Group.tidx (g : Group) : Nat := bitsN g.teams 31 0
def Group.cidx (g : Group) : Nat := bitsN g.clus 47 16
def Group.nbarg (g : Group) : Nat := bitsN g.grid 22 16
def Group.lnum (g : Group) : Nat := bitsN g.grid 15 0

/-- Members of one team, of one cluster and of one grid (R18). -/
def sameTeam (a b : Group) : Bool := a.launch == b.launch && a.tidx == b.tidx
def sameCluster (a b : Group) : Bool := a.launch == b.launch && a.cidx == b.cidx
def sameGrid (a b : Group) : Bool := a.launch == b.launch

/-- The runs of a group's PC table, in table order (R20). -/
def Group.runs (g : Group) : List Run :=
  let keys := (lanesOf g.live).map (fun i => ((g.pc.getD i 0).toNat, g.rpos.getD i 0))
  let keys := sortBy (fun a b => decide (a.1 < b.1) || (decide (a.1 = b.1) && decide (a.2 < b.2))) keys
  let keys := keys.foldl (fun acc k => if acc.contains k then acc else acc ++ [k]) []
  keys.map (fun k => ⟨BitVec.ofNat 64 k.1, k.2,
    laneMask (fun i => bitAt g.live i && (g.pc.getD i 0).toNat == k.1 && g.rpos.getD i 0 == k.2)⟩)

/-- The count of a scoreboard slot (R217). -/
def Group.slotCount (g : Group) (k : Nat) : Nat := (g.ops.filter (fun o => o.slot == k)).length

/-- A PAGE finding that a group owes a trap for once the slot of an operation has cleared (0: none; R392, R435). -/
def Group.owePage (g : Group) (op addr access : Nat) : Group := { g with pages := g.pages ++ [(op, addr, access)] }

/-- A group with one operation's record replaced. -/
def Group.setOp (g : Group) (id : Nat) (f : Op → Op) : Group :=
  { g with ops := g.ops.map (fun o => if o.id = id then f o else o) }

/-- A group without one operation: its slot's count falls by one. -/
def Group.dropOp (g : Group) (id : Nat) : Group := { g with ops := g.ops.filter (fun o => o.id ≠ id) }

def Group.op (g : Group) (id : Nat) : Option Op := g.ops.find? (fun o => o.id == id)

/-- GSTAT as it stands in the group's record and in its save image (R326). -/
def Group.gstat (g : Group) : W64 :=
  BitVec.ofNat 64 (g.blk * 2 ^ 16 + g.wbase * 2 ^ 8 + (if g.ts then 4 else 0) + (if g.chk then 2 else 0) + (if g.mm then 1 else 0))

/-- The word that RDSR PRIO returns (R28). -/
def Group.prioWord (g : Group) : W64 := BitVec.ofNat 64 (g.prio * 2 ^ 8 + g.prioBase)

/-- Flags ORed into FLAGS (R171). -/
def Group.orFlags (g : Group) (f : BitVec 6) : Group := { g with flags := g.flags ||| f.setWidth 64 }

/-- A group with what has been written by clock t: fixed-latency results that are readable, and the flags they raise (R171, R339). -/
def Group.landed (g : Group) (t : Nat) : Group :=
  { g with
    pendw := g.pendw.filter (fun w => decide (t < w.ready))
    pendf := g.pendf.filter (fun p => decide (t < p.1))
    flags := (g.pendf.filter (fun p => decide (p.1 ≤ t))).foldl (fun f p => f ||| p.2.setWidth 64) g.flags }

/-- A group with every fixed-latency result and its flags written. -/
def Group.landAll (g : Group) : Group :=
  { g with pendw := [], pendf := [], flags := g.pendf.foldl (fun f p => f ||| p.2.setWidth 64) g.flags }

/-- A group as a word that issues at clock t finds it: a WRSR that issued in the same clock governs only from the next (R325, R339). -/
def Group.asAt (g : Group) (t : Nat) : Group :=
  match g.was with
  | some w => if w.clk = t then { g with chk := w.chk, flags := w.flags, tbase := w.tbase, prioBase := w.prioBase, prioInh := w.prioInh } else g
  | none => g

/-- A group that remembers its status registers as they stand before a WRSR at clock t. -/
def Group.keepWas (g : Group) (t : Nat) : Group :=
  if g.was.any (fun w => w.clk == t) then g
  else { g with was := some ⟨t, g.chk, g.flags, g.tbase, g.prioBase, g.prioInh⟩ }

/-- The launch record of a group, as eight words. -/
def State.launchWords (s : State) (g : Group) : List W64 :=
  match s.launches[g.launch]? with
  | some l => l.words
  | none => []

/-- Tile-store units that a launch record asks for a team (R370). -/
def tileUnits (ws : List W64) : Nat := bitsN (ws.getD 4 0) 8 0

end Sys2Proof.Machine
end

