-- ==== Sys2Proof/Machine/Layers.lean ====
section
/-! DEFINITION. What a group sees of memory and how a write becomes visible (files 03 and 04): escrow, the layers of R95, writes at
device and system scope with their watch hits, monitor wakes and till evaluations, and the near cache. A place is a byte of the
tile store by absolute offset (package index · 2 MiB + offset) or a byte of global memory by physical address. -/

namespace Sys2Proof.Machine

/-- A near-cache line with the bytes marked that differ from what the groups of `who` have now seen or written (log entry 60). -/
def NearLine.outdate (l : NearLine) (who : List Nat) (bs : List (Nat × Byte)) : NearLine :=
  let differ := bs.filter (fun b => alignDown b.1 128 == l.line && l.data.getD (b.1 - l.line) 0 != b.2)
  { l with old := l.old ++ (differ.flatMap (fun b => who.map (fun g => (g, b.1)))).filter (fun x => !l.old.contains x) }

/-- The near caches' lines changed by f, core by core. -/
def State.mapNear (s : State) (f : Nat → List NearLine → List NearLine) : State :=
  { s with cores := s.cores.map (fun c => (c.1, { c.2 with near := f c.1 c.2.near })) }

/-- The near caches' bytes marked that differ from what the groups of `who` have now seen or written. -/
def State.outdate (s : State) (who : List Nat) (bs : List (Nat × Byte)) : State := s.mapNear (fun _ ls => ls.map (fun l => l.outdate who bs))

/-- A near-cache line with the marks that any group of `from_` has in it given to a group too. -/
def NearLine.inheritOld (l : NearLine) (gi : Nat) (from_ : List Nat) : NearLine :=
  { l with old := l.old ++ ((l.old.filter (fun x => from_.contains x.1)).map (fun x => (gi, x.2))).filter (fun x => !l.old.contains x) }

/-- The sector of a place: its first byte (R93). -/
def sectorOf (p : Nat) : Nat := alignDown p 32

/-- The region of a physical address (R376): 0 device DRAM, 1 CXL, 2 host, 3 fabric. -/
def regionOf (pa : Nat) : Nat := natBits pa 56 55

/-- The window entry of a fabric endpoint that is OPEN or FENCED (R433). -/
def State.window (s : State) (ep : Nat) : Option Nat :=
  (List.range 64).find? (fun n => s.regN (offWin n) 47 32 == ep && decide (1 ≤ s.regN (offWin n) 1 0 ∧ s.regN (offWin n) 1 0 ≤ 2))

/-- The ownership byte of a frame (R395). -/
def State.frame (s : State) (pa : Nat) : Byte := lookupD s.hub.frames (pa / 4096) 0

/-- The memory port of a device DRAM line (R376). -/
def memPort (pa : Nat) : Nat := natBits pa 37 32

/-- Whether a device DRAM address lies in a range reserved for the frame table or for an integrity tree (R376). -/
def State.reservedPa (s : State) (pa : Nat) : Bool :=
  let port := memPort pa
  let low := natBits pa 31 0
  natBits pa 31 20 == 0xFFF ||
  ((List.range 24).any (fun p => s.partState p != 0 && bitAt (s.reg (offPart p 3)) port) &&
    decide (0xFAF00000 ≤ low ∧ low ≤ 0xFFEFFFFF))

/-- Whether a world may reach a device DRAM address: it owns the frame, which is not reserved (R389, R395). -/
def State.frameOk (s : State) (func pa : Nat) : Bool :=
  let b := s.frame pa
  regionOf pa == 0 && natBits pa 54 38 == 0 && bitAt b 7 && bitsN b 5 0 == func && !s.reservedPa pa

/-- The endpoint of a fabric address and the logical plane of its line (R431, R432). -/
def fabricEp (pa : Nat) : Nat := natBits pa 54 39
def logicalPlane (pa : Nat) : Nat := natBits pa 12 10 ^^^ natBits pa 20 18

/-- Whether a request for an endpoint's line reaches this device: its own endpoint, or one claimed, from a plane's acknowledgement on. The
plane that a request comes by is the one to which the sender's MAP sends its line (R432, R434, R438; log entry 58). -/
def State.hasEndpoint (s : State) (ep : Nat) : Bool :=
  s.regN offOwnep 15 0 == ep || s.fabric.claims.any (fun c => c.1 == ep && !c.2.isEmpty)

/-- The physical address that an offset names in the exported window, for n bytes; none where it is not open so far (R434). -/
def State.exported (s : State) (off n : Nat) : Option Nat :=
  let w := s.reg offExpwin
  if bitAt w 63 && decide (off + n ≤ bitsN w 15 0 * 65536) then some (bitsN w 56 16 * 65536 + off) else none

/-- Where a fabric address stands in this device's own exported window: where the device itself holds the endpoint, the switches bring the
request back to it (R434, R439). None: elsewhere, or not served. -/
def State.servedAt (s : State) (pa : Nat) : Option Nat :=
  if regionOf pa == 3 && s.hasEndpoint (fabricEp pa) then s.exported (natBits pa 38 0) 1 else none

/-- The place at which the byte of a physical address stands: its own, but for an address that this device serves itself. -/
def State.home (s : State) (pa : Nat) : Nat := (s.servedAt pa).getD pa

/-- Whether a fabric address is one of this device's own that it does not serve: the window is closed there, or its frame is not the exporting
world's (R434). -/
def State.refusesOwn (s : State) (pa : Nat) : Bool :=
  s.hasEndpoint (fabricEp pa) && (match s.servedAt pa with
    | some h => !s.frameOk (s.regN offExpwin 62 57) h
    | none => true)

/-- Whether an access is answered FENCED (R431, R434, R435). -/
def State.fenced (s : State) (pa : Nat) : Bool :=
  regionOf pa == 3 && (match s.window (fabricEp pa) with
    | some n => s.regN (offWin n) 1 0 == 2 || s.refusesOwn pa
    | none => false)

/-- Whether a fabric address has no window entry that is OPEN or FENCED: an access to it is SPACE as it is sent (R431). -/
def State.unwindowed (s : State) (pa : Nat) : Bool := regionOf pa == 3 && (s.window (fabricEp pa)).isNone

/-- The code under which a group owes the trap of an access that is turned away: 4, SPACE, where no window entry is left for it (R431), else the
access itself, PAGE (R392, R435; log entry 62). -/
def State.turnedCode (s : State) (pa access : Nat) : Nat := if s.unwindowed pa then 4 else access

/-- The byte an escrow entry holds for a place. -/
def Esc.byte (e : Esc) (space : Space) (p : Nat) : Option Byte :=
  if e.space = space ∧ e.sector = sectorOf p then (e.data.getD (p - e.sector) none) else none

/-- The newest byte that entries satisfying f hold for a place: entries are kept oldest first. -/
def newestByte (es : List Esc) (f : Esc → Bool) (space : Space) (p : Nat) : Option Byte :=
  es.foldl (fun acc e => if f e then (match e.byte space p with
    | some b => some b
    | none => acc) else acc) none

/-- The byte the hub's egress escrow holds for a physical address, newest first (R97). -/
def egressByte (es : List Egress) (pa : Nat) : Option Byte :=
  es.foldl (fun acc e => if e.sector = sectorOf pa then (match e.data.getD (pa - e.sector) none with
    | some b => some b
    | none => acc) else acc) none

/-- The device-visible byte of a place (R95, layer 4). -/
def State.devByte (s : State) (space : Space) (p : Nat) : Byte :=
  match space with
  | .tile => s.tile.get p
  | .glob => match egressByte s.egress p with
    | some b => b
    | none => s.mem.get (s.home p)

/-- Bytes of device-visible memory. -/
def State.devRead (s : State) (space : Space) (p n : Nat) : List Byte := (List.range n).map (fun k => s.devByte space (p + k))

/-- A device-visible 64-bit word. -/
def State.devWord (s : State) (space : Space) (p : Nat) : W64 := BitVec.ofNat 64 (ofBytesLE (s.devRead space p 8))

/-! CXL-attached memory under the worlds' keys (R397) -/

/-- The world under whose key a byte of CXL-attached memory stands; none where no world has written its block (log entry 56). -/
def State.keyOf (s : State) (p : Nat) : Option Nat :=
  if regionOf p = 1 then (s.cxlKeys.find? (fun k => k.1 == p / 16)).map Prod.snd else none

/-- The device-visible byte of global memory as a world sees it: in a block that another world wrote it is what the wrong key gives. -/
def State.seenByte (s : State) (func p : Nat) : Byte :=
  match s.keyOf p with
  | some f => if f = func then s.devByte .glob p else Config.otherKey f func p (s.devRead .glob (alignDown p 16) 16)
  | none => s.devByte .glob p

/-- Bytes of device-visible memory as a world sees them. -/
def State.seenRead (s : State) (func : Nat) (space : Space) (p n : Nat) : List Byte :=
  match space with
  | .tile => s.devRead .tile p n
  | .glob => (List.range n).map (fun k => s.seenByte func (p + k))

/-- A device-visible 64-bit word of global memory as a world sees it. -/
def State.seenWord (s : State) (func p : Nat) : W64 := BitVec.ofNat 64 (ofBytesLE (s.seenRead func .glob p 8))

/-- The byte of layers 2 and 3 of R95 for a group: team-level entries of its team, then cluster-level entries of its cluster. -/
def State.midByte (s : State) (g : Group) (space : Space) (p : Nat) : Option Byte :=
  match newestByte s.escrow (fun e => e.level == .team && sameTeam (s.grp e.owner) g) space p with
  | some b => some b
  | none => newestByte s.escrow (fun e => e.level == .cluster && sameCluster (s.grp e.owner) g) space p

/-- The byte of the group's own group-level entries (R95, layer 1). -/
def State.ownByte (s : State) (gi : Nat) (space : Space) (p : Nat) : Option Byte :=
  newestByte s.escrow (fun e => e.level == .group && e.owner == gi) space p

/-- The byte of the group's own private stores (R85). -/
def State.privByte (s : State) (gi : Nat) (p : Nat) : Option Byte :=
  newestByte s.escrow (fun e => e.level == .priv && e.owner == gi) .glob p

/-- The group's own bytes at places, which its loads find whatever the layers below hold (R85, R95, R295); LDP (`kind` 0) finds private
stores alone. A private store stands behind the group's own entry and before those of its team and cluster: R95 lists no such layer, and R85 says
that the group sees it at once (the model's choice, log entry 67). -/
def State.ownSeen (s : State) (gi kind : Nat) (space : Space) (ps : List Nat) : List (Nat × Byte) :=
  ps.filterMap (fun p =>
    let priv := if space = .glob then (s.privByte gi p).map (fun b => (p, b)) else none
    if kind = 0 then priv
    else match s.ownByte gi space p with
      | some b => some (p, b)
      | none => priv)

/-- A private store of another group at a place: until it is visible at device scope, another group reads the byte before or after
it (R85). -/
def State.otherPriv (s : State) (gi : Nat) (p : Nat) : Option Byte :=
  newestByte s.escrow (fun e => e.level == .priv && e.owner != gi) .glob p

/-! Waking -/

/-- A group after an acquire at device or system scope: it fetches what had reached device scope by now (R119, R204). -/
def Group.acquired (g : Group) (seq : Nat) : Group := { g with acqSeq := seq }

/-- A near-cache line of a world with the bytes marked for a group that are no longer the device-visible ones. -/
def State.agedLine (s : State) (gi func : Nat) (l : NearLine) : NearLine :=
  if l.func = func then l.outdate [gi] ((List.range 128).map (fun k => (l.line + k, s.seenByte func (l.line + k)))) else l

/-- The effects of an acquire at scope s (R119): from cluster scope up the core drops the clean near-cache lines of the world; on the other cores,
to which a MOVE or a restore may bring the group, it is no longer served a byte older than now (R121, R126). At team scope no line is dropped, but
what a member of the team has written or seen is no longer served an older byte, on any core (log entry 60). -/
def State.acquire (s : State) (gi scope : Nat) : State :=
  let g := s.grp gi
  let s1 := if 2 ≤ scope then
      s.mapNear (fun pkg ls => if pkg = g.pkg then ls.filter (fun l => l.func ≠ g.func) else ls.map (s.agedLine gi g.func))
    else if scope = 1 then
      let team := s.grpsWhere (fun x => sameTeam x g)
      s.mapNear (fun _ ls => ls.map (fun l => l.inheritOld gi team))
    else s
  if 3 ≤ scope then s1.modGrp gi (fun x => x.acquired s1.seq) else s1

/-- A suspended group whose condition is met becomes pending; a counter wake is an acquire (R31, R36, R69). -/
def State.wake (s : State) (gi : Nat) (acq : Bool) : State :=
  let s1 := s.modGrp gi (fun g => if g.st = .suspended then { g with st := .pending, cond := .none } else { g with cond := .none })
  if acq then s1.acquire gi 4 else s1

/-- Counter k of a group raised by v modulo 2^64, and the wake it causes (R63, R243). -/
def State.addCounter (s : State) (gi k : Nat) (v : W64) : State :=
  let s1 := s.modGrp gi (fun g => { g with ctr := modifyNth (fun c => c + v) k g.ctr })
  let g := s1.grp gi
  match g.st, g.cond with
  | .suspended, .counter j t => if j = k ∧ t.toNat ≤ (g.ctr.getD k 0).toNat then s1.wake gi true else s1
  | _, _ => s1

/-- Whether a till condition is met now: its line is present and its word has reached the target (R337). -/
def State.tillMet (s : State) (addr : Nat) (target : W64) : Bool :=
  !s.absent.contains (alignDown addr 64) && decide (target.toNat ≤ (s.devWord .tile addr).toNat)

/-- The till conditions evaluated after a write has landed on a tile-store line (R337). -/
def State.evalTills (s : State) (line : Nat) : State :=
  (s.grpsWhere (fun g => g.st == .suspended && (match g.cond with
    | .till a _ => alignDown a 64 == line
    | _ => false))).foldl (fun s gi => match (s.grp gi).cond with
      | .till a t => if s.tillMet a t then s.wake gi false else s
      | _ => s) s

/-- The monitors of a 128-byte line wake (R35, R331). -/
def State.wakeMonitors (s : State) (pa : Nat) : State :=
  (s.grpsWhere (fun g => g.st == .suspended && (match g.cond with
    | .monitor _ p _ => alignDown p 128 == alignDown pa 128
    | _ => false))).foldl (fun s gi => s.wake gi false) s

/-! Watch hits (R104) -/

/-- The layer of the view of a byte for a watcher: 2 team, 1 cluster, 0 device. -/
def State.viewLayer (s : State) (w : Group) (space : Space) (p : Nat) : Nat :=
  if (newestByte s.escrow (fun e => e.level == .team && sameTeam (s.grp e.owner) w) space p).isSome then 2
  else if (newestByte s.escrow (fun e => e.level == .cluster && sameCluster (s.grp e.owner) w) space p).isSome then 1
  else 0

/-- The offsets of the bytes that a sector's data enables. -/
def enabled {α : Type} (d : List (Option α)) : List Nat := positions Option.isSome 0 d

/-- Watches of a sector recorded as hit by a write in layer `layer` (2: of the writer's team, 1: of its cluster, 0: device), by the
view that stands before the write. -/
def State.hitWrite (s : State) (layer : Nat) (by_ : Option Nat) (space : Space) (sector : Nat) (d : List (Option Byte)) : State :=
  let hits (gi : Nat) : Bool :=
    let w := s.grp gi
    let sees := match layer, by_ with
      | 2, some b => sameTeam (s.grp b) w
      | 1, some b => sameCluster (s.grp b) w
      | _, _ => true
    decide (by_ ≠ some gi) && sees && (enabled d).any (fun k => decide (s.viewLayer w space (sector + k) ≤ layer))
  (s.grpsWhere (fun g => g.watch.any (fun w => w.space == space && w.sector == sector))).foldl
    (fun acc gi => if hits gi then acc.modGrp gi (fun g =>
      { g with watch := g.watch.map (fun w => if w.space = space ∧ w.sector = sector then { w with hit := true } else w) })
    else acc) s

/-- Watches hit by the retraction of an entry: those whose view takes a byte from it (R102, R104). -/
def State.hitRetract (s : State) (e : Esc) : State :=
  let layer := match e.level with
    | .team => 2
    | .cluster => 1
    | _ => 0
  let newer (w : Group) (k : Nat) : Bool :=
    -- whether the entry is the one that gives the byte: the newest of its layer in the watcher's view
    s.escrow.reverse.find? (fun x => x.level == e.level && (x.data.getD k none).isSome && x.space == e.space &&
      x.sector == e.sector && (if layer = 2 then sameTeam (s.grp x.owner) w else sameCluster (s.grp x.owner) w)) == some e
  let hits (gi : Nat) : Bool :=
    let w := s.grp gi
    decide (e.owner ≠ gi) && (if layer = 2 then sameTeam (s.grp e.owner) w else sameCluster (s.grp e.owner) w) &&
    (enabled e.data).any (fun k => s.viewLayer w e.space (e.sector + k) == layer && newer w k)
  if layer = 0 then s
  else (s.grpsWhere (fun g => g.watch.any (fun w => w.space == e.space && w.sector == e.sector))).foldl
    (fun acc gi => if hits gi then acc.modGrp gi (fun g =>
      { g with watch := g.watch.map (fun w => if w.space = e.space ∧ w.sector = e.sector then { w with hit := true } else w) })
    else acc) s

/-! Writes at device and system scope -/

/-- The old words of a sector of global memory, for fetches that may still see them (R204, log entry 9); words that every live
group has already acquired past are dropped. -/
def State.logWords (s : State) (sector : Nat) (d : List (Option Byte)) : State :=
  let ws := (List.range 4).filterMap (fun j =>
    if ((d.drop (8 * j)).take 8).any Option.isSome then some ⟨sector + 8 * j, s.devWord .glob (sector + 8 * j), s.seq⟩ else none)
  let needed := fun (o : OldWord) => s.groups.any (fun g => g.alive && decide (g.acqSeq ≤ o.seq))
  { s with wlog := (s.wlog ++ ws).filter needed, seq := s.seq + 1 }

/-- A memory with the enabled bytes of a sector written. -/
def Memory.putSector (m : Memory) (a : Nat) : List (Option Byte) → Memory
  | [] => m
  | none :: bs => m.putSector (a + 1) bs
  | some b :: bs => (m.put a b).putSector (a + 1) bs

/-- The poisoned line a place lies in, if it is poisoned (R89, R419). -/
def State.poisoned (s : State) (space : Space) (p : Nat) : Bool :=
  match space with
  | .tile => s.poison.contains (alignDown p 64)
  | .glob => s.gpoison.contains (alignDown (s.home p) 128)

/-- Lost tree nodes that still have a poisoned line beneath them: the clerks rebuild the others (R421). -/
def State.rebuildTrees (s : State) : State :=
  { s with hub := { s.hub with treeLoss := s.hub.treeLoss.filter (fun t => s.gpoison.any (fun l => decide (t.1 ≤ l ∧ l < t.1 + t.2))) } }

/-- A line's poison mark cleared. -/
def State.unpoison (s : State) (space : Space) (p : Nat) : State :=
  match space with
  | .tile => { s with poison := s.poison.filter (fun l => l ≠ alignDown p 64) }
  | .glob => ({ s with gpoison := s.gpoison.filter (fun l => l ≠ alignDown (s.home p) 128) }).rebuildTrees

/-- A sector of the egress escrow turned away: it is discarded. The group whose commit brought it there owes PAGE, or SPACE, once that commit's slot
has cleared (R435, log entries 26 and 62); an engine entry that is still in its queue ends with FENCED, or with DENIED where no window entry is left,
and no later sector of it is written (R307, R435). -/
def State.egressFenced (s : State) (e : Egress) : State :=
  let st := if s.unwindowed e.sector then 0x02 else 0x11
  let stop := fun (x : Entry) => if x.id = e.copy ∧ x.status = 0 then { x with status := st, fail := e.va } else x
  let s1 := match e.owner with
    | some (gi, op) => s.modGrp gi (fun g => g.owePage op e.va (s.turnedCode e.sector 1))
    | none => s
  if e.copy = 0 then s1
  else { s1 with
    egress := s1.egress.filter (fun x => x.copy ≠ e.copy)
    cores := s1.cores.map (fun c => (c.1, { c.2 with queues := c.2.queues.map (fun q => q.map stop) })) }

/-- A sector at its destination: in its memory, or, where this device serves the address itself, a peer's write that reaches its line, the watches
and the monitors on it (R434, R439); onto a poisoned line it is dropped (R419). -/
def State.landAt (s : State) (sector : Nat) (d : List (Option Byte)) : State :=
  match s.servedAt sector with
  | none => { s with mem := s.mem.putSector sector d }
  | some h =>
    if s.poisoned .glob h then s
    else
      let s1 := (s.hitWrite 0 none .glob h d).logWords h d
      ({ s1 with mem := s1.mem.putSector h d }).wakeMonitors h

/-- Whether an access of a world is one to the host that its TDI ERROR has stopped (R386). -/
def State.hostStopped (s : State) (func pa : Nat) : Bool := regionOf pa == 2 && s.tdi func == 3

/-- Whether a sector of the egress escrow is a write to the host that has been stopped (R386). -/
def State.stopped (s : State) (e : Egress) : Bool := (e.func.map (fun f => s.hostStopped f e.sector)).getD false

/-- A sector of the egress escrow sent to its destination; one to a fenced endpoint, or to one without a window entry, is turned away (R431, R435),
and one to the host whose world is in TDI ERROR goes nowhere (R386). -/
def State.sendEgress (s : State) (e : Egress) : State :=
  if s.stopped e then s
  else if s.fenced e.sector || s.unwindowed e.sector then s.egressFenced e else s.landAt e.sector e.data

/-- Sectors brought to their destinations one after another, each that still stands in the egress escrow: where one is turned away, the later
sectors of its copy go with it (R128). -/
def State.sendEach (s : State) (es : List Egress) : State :=
  es.foldl (fun s e => if s.egress.contains e then ({ s with egress := s.egress.erase e } : State).sendEgress e else s) s

/-- The sectors that a write has added to the egress escrow changed by f. -/
def State.stampEgress (s before : State) (f : Egress → Egress) : State :=
  let n := before.egress.length
  { s with egress := s.egress.take n ++ (s.egress.drop n).map f }

/-- Of the egress escrow, newest first, what must reach its destination with the sectors of `secs` and the copies of `copies`: nothing older of
a sector that goes stays behind it (R129), and no earlier sector of a copy that goes (R128). Oldest first. -/
def egressWith (secs copies : List Nat) : List Egress → List Egress
  | [] => []
  | e :: es =>
    if secs.contains e.sector || (e.copy != 0 && copies.contains e.copy) then egressWith (e.sector :: secs) (e.copy :: copies) es ++ [e]
    else egressWith secs copies es

/-- The egress escrow's bytes of a sector brought to their destination, behind what must reach theirs before them (R128, R129). -/
def State.flushSector (s : State) (sector : Nat) : State :=
  s.sendEach (egressWith [sector] [] s.egress.reverse)

/-- A write of a sector at device scope (`sys`: at system scope, R97): watch hits beneath the layers above it, the bytes, monitors
and tills. Lines of host, CXL and fabric memory go to the hub's egress escrow at device scope and to their destination at system
scope. A write of no length changes nothing (R116). -/
def State.devWrite (s : State) (space : Space) (sector : Nat) (d : List (Option Byte)) (by_ : Option Nat) (sys : Bool) : State :=
  if (enabled d).isEmpty then s
  else
    let s1 := s.hitWrite 0 by_ space sector d
    match space with
    | .tile => ({ s1 with tile := s1.tile.putSector sector d }).evalTills (alignDown sector 64)
    | .glob =>
      let s2 := s1.logWords sector d
      let s3 := if regionOf sector = 0 then { s2 with mem := s2.mem.putSector sector d }
        else if sys then
          -- earlier egress bytes of the sector reach their destination first
          (s2.flushSector sector).landAt sector d
        else { s2 with egress := s2.egress ++ [⟨sector, d, 0, none, 0, none, none⟩] }
      s3.wakeMonitors sector

/-- A block of CXL-attached memory that a world is about to write comes under its key, with the bytes that the world sees in it. -/
def State.rekeyBlock (s : State) (func b : Nat) : State :=
  match s.keyOf (16 * b) with
  | none => { s with cxlKeys := setKey s.cxlKeys b func }
  | some f =>
    if f = func then s
    else
      let s1 := s.flushSector (sectorOf (16 * b))
      { s1 with mem := s1.mem.write (16 * b) (s1.seenRead func .glob (16 * b) 16), cxlKeys := setKey s1.cxlKeys b func }

/-- The blocks of CXL-attached memory at places that the host has written: they stand as it wrote them, under no world's key (R329, log entry 56). -/
def State.unkey (s : State) (ps : List Nat) : State :=
  { s with cxlKeys := s.cxlKeys.filter (fun k => !ps.any (fun p => regionOf p == 1 && p / 16 == k.1)) }

/-- The blocks of the places that a world is about to write brought under its key (R397). -/
def State.rekey (s : State) (func : Nat) (space : Space) (ps : List Nat) : State :=
  match space with
  | .tile => s
  | .glob => (dedupN ((ps.filter (fun p => regionOf p == 1)).map (fun p => p / 16))).foldl (fun s b => s.rekeyBlock func b) s

/-- Bytes written from a place on, sector by sector in ascending order. -/
def State.devWriteBytes (s : State) (space : Space) (p : Nat) (bs : List Byte) (by_ : Option Nat) (sys : Bool) : State :=
  let sectors := dedupN ((List.range bs.length).map (fun k => sectorOf (p + k)))
  sectors.foldl (fun s sec =>
    s.devWrite space sec ((List.range 32).map (fun k => if p ≤ sec + k then bs[sec + k - p]? else none)) by_ sys) s

/-! Escrow -/

/-- The data of a new entry with one byte. -/
def oneByte (off : Nat) (b : Byte) : List (Option Byte) := (List.range 32).map (fun k => if k = off then some b else none)

/-- One byte stored into a group's escrow at a level that only it sees (`priv` for private stores): it merges into the entry of
its sector under the same seal (0: no commit covers it yet), or takes a new entry (R93, R98). -/
def escPut (es : List Esc) (gi : Nat) (level : Level) (space : Space) (p va : Nat) (b : Byte) (sealId : Nat) (after : List Nat)
    (pool : Bool) : List Esc :=
  let same := fun (e : Esc) => e.owner == gi && e.level == level && e.space == space && e.sector == sectorOf p && e.sealId == sealId
  if es.any same then
    es.map (fun e => if same e then { e with
      data := (List.range 32).map (fun k => if k = p - e.sector then some b else e.data.getD k none)
      after := e.after ++ after.filter (fun o => !e.after.contains o) } else e)
  else es ++ [⟨gi, level, space, sectorOf p, sectorOf va, oneByte (p - sectorOf p) b, sealId, false, after, pool⟩]

/-- Entries that a group's store would add for a list of places (R93). -/
def State.newEntries (s : State) (gi : Nat) (space : Space) (ps : List Nat) : Nat :=
  ((dedupN (ps.map sectorOf)).filter (fun sec => !s.escrow.any (fun e => e.owner == gi && e.level == .group && e.space == space &&
    e.sector == sec && e.sealId == 0))).length

/-- Whether an entry takes a place in a core's pool or in an overflow area: it stands at group or team level (R94, R97). -/
def Esc.placed (e : Esc) : Bool := e.level == .group || e.level == .team

/-- New entries of a group that its core's pool still takes: it serves its groups first come, first served, 2,048 entries each (R94). -/
def State.poolRoom (s : State) (gi : Nat) (es : List Esc) : Nat :=
  let pool := es.filter (fun e => e.placed && e.pool)
  min (Config.escrowShare - (pool.filter (fun e => e.owner == gi)).length)
    (Config.escrowPool - (pool.filter (fun e => (s.grp e.owner).pkg == (s.grp gi).pkg)).length)

/-- New entries of a group that its overflow area still takes (R94). -/
def State.overRoom (s : State) (gi : Nat) (es : List Esc) : Nat :=
  Config.escrowUnit * (s.grp gi).ovf - (es.filter (fun e => e.placed && !e.pool && e.owner == gi)).length

/-- New entries that a group may take (R94). -/
def State.escRoom (s : State) (gi : Nat) : Nat := s.poolRoom gi s.escrow + s.overRoom gi s.escrow

/-- The level of a scope at which entries stand (R97). -/
def levelOf (scope : Nat) : Level := if scope = 1 then .team else .cluster

/-- Whether an entry's level lies below a scope (R97). A private store is carried at device scope and above (R85, R98). -/
def Esc.below (e : Esc) (scope : Nat) : Bool :=
  match e.level with
  | .group => decide (1 ≤ scope)
  | .team => decide (2 ≤ scope)
  | .cluster => decide (3 ≤ scope)
  | .priv => decide (3 ≤ scope)

/-- The entries of a group below a scope that no earlier commit covers are covered by operation `id` from now on (R98). -/
def State.sealEscrow (s : State) (gi scope id : Nat) : State :=
  { s with escrow := s.escrow.map (fun e =>
      if e.owner = gi ∧ e.sealId = 0 ∧ e.below scope = true then { e with sealId := id } else e) }

/-- The same for an ABORT, which leaves private stores to the next commit (R85, R101). -/
def State.sealAbort (s : State) (gi scope id : Nat) : State :=
  { s with escrow := s.escrow.map (fun e =>
      if e.owner = gi ∧ e.sealId = 0 ∧ e.below scope = true ∧ e.level ≠ .priv then { e with sealId := id } else e) }

/-- Entries of one group in the order of its stores, as far as their levels tell it: what stands higher was stored earlier (R97, R118). -/
def byAge (es : List Esc) : List Esc :=
  es.filter (fun e => e.level == .cluster) ++ es.filter (fun e => e.level == .team) ++
  es.filter (fun e => e.level != .cluster && e.level != .team)

/-- An entry moved up to team or cluster level: the newest there, with the watch hits of its write (R99, R104); `next` is the later
commit that covers it too. -/
def State.raiseEsc (s : State) (e : Esc) (level : Level) (next : Nat) : State :=
  let layer := if level = .team then 2 else 1
  let s1 := s.hitWrite layer (some e.owner) e.space e.sector e.data
  { s1 with escrow := s1.escrow.filter (fun x => x ≠ e) ++ [{ e with level := level, sealId := next, after := [] }] }

/-- An entry discarded: above group level it is retracted (R102). -/
def State.dropEsc (s : State) (e : Esc) : State :=
  let s1 := s.hitRetract e
  { s1 with escrow := s1.escrow.filter (fun x => x ≠ e) }

/-- The 32-byte sectors of the line (64 bytes of the tile store, 128 of global memory) that a place lies in. -/
def lineSectors (space : Space) (p : Nat) : List Nat :=
  match space with
  | .tile => (List.range 2).map (fun k => alignDown p 64 + 32 * k)
  | .glob => (List.range 4).map (fun k => alignDown p 128 + 32 * k)

/-- Whether entries covered by one commit write every byte of a line (R89, R419). -/
def coversLine (es : List Esc) (space : Space) (p : Nat) : Bool :=
  (lineSectors space p).all (fun sec => (List.range 32).all (fun k => es.any (fun e => (e.byte space (sec + k)).isSome)))

/-! The near cache (R92) -/

/-- A line of the near cache. -/
def Core.nearLine (c : Core) (func pa : Nat) : Option NearLine := c.near.find? (fun l => l.func == func && l.line == alignDown pa 128)

/-- The byte of the near cache that serves a group's load of a place, where it holds one that is not older than what the group has seen. -/
def Core.nearByte (c : Core) (gi func p : Nat) : Option Byte :=
  match c.nearLine func p with
  | some l => if l.old.contains (gi, p) then none else some (l.data.getD (p - l.line) 0)
  | none => none

/-- A line filled with its device-visible bytes as the world sees them; the oldest leaves where the near cache is full (R5, log entry 52). -/
def State.fillNear (s : State) (pkg func pa : Nat) : State :=
  let line := alignDown pa 128
  let d := s.seenRead func .glob line 128
  s.modCore pkg (fun c => { c with near := lastN Config.nearLines (c.near.filter (fun l => !(l.func == func && l.line == line)) ++ [⟨func, line, d, []⟩]) })

/-- The bytes that a load of a group gets at completion from layers 2 to 4 of R95 for one naturally aligned element (R117), where
`near` says the near cache serves it (R92); its own group-level and private bytes were taken at issue (R118). Another group's private
store shows all or nothing of the element (R85). -/
def State.loadElem (s : State) (gi : Nat) (space : Space) (ps : List Nat) (near : Bool) : List Byte × State :=
  let g := s.grp gi
  let others := space == .glob && ps.any (fun p => (s.otherPriv gi p).isSome)
  let (f, s1) := if others then s.draw else (false, s)
  let bs := ps.map (fun p => match s.midByte g space p with
    | some b => b
    | none => match space with
      | .tile => s.devByte .tile p
      | .glob => match f, s.otherPriv gi p with
        | true, some b => b
        | _, _ => match near, (s.core g.pkg).nearByte gi g.func p with
          | true, some b => b
          | _, _ => s.seenByte g.func p)
  (bs, if space = .glob then
      -- what is read is not read older from a near cache later, this core's or another's (R118)
      s1.outdate [gi] ((ps.zip bs).filter (fun x => (s.midByte g .glob x.1).isNone && (s.otherPriv gi x.1).isNone))
    else s1)

/-! Private space (R84) -/

/-- The global address of byte p of lane i's private window. -/
def Group.privAddr (g : Group) (i p : Nat) : Nat := 4096 * bitsN g.pwin 56 12 + 256 * (p / 4) + 4 * i + p % 4
/-- The virtual address that a finding on the byte at place p of a load's access names: in private space (`kind` 0) the byte's own in the window
of R84, elsewhere the address that the lane gave. -/
def Group.accVa (g : Group) (kind : Nat) (a : Acc) (p : Nat) : Nat :=
  if kind = 0 then g.privAddr a.lane (a.addr + (a.place.idxOf p)) else a.addr
/-- Private bytes of each lane. -/
def Group.privLen (g : Group) : Nat := 64 * bitsN g.pwin 11 0
/-- The private offset of the trap frame (R326). -/
def Group.frameOff (g : Group) : Nat := 64 * bitsN g.tframe 31 6

/-- Bytes of one sector put into a group's private stores or escrow, merging as R93 gives. -/
def escMerge (es : List Esc) (gi : Nat) (level : Level) (space : Space) (sector va : Nat) (d : List (Option Byte)) : List Esc :=
  let same := fun (e : Esc) => e.owner == gi && e.level == level && e.space == space && e.sector == sector && e.sealId == 0
  let mix := fun (e : Esc) (k : Nat) => match d.getD k none with
    | some x => some x
    | none => e.data.getD k none
  if (enabled d).isEmpty then es
  else if es.any same then es.map (fun e => if same e then { e with data := (List.range 32).map (mix e) } else e)
  else es ++ [⟨gi, level, space, sector, va, d, 0, false, [], false⟩]

/-- A byte of private space as the storing group sees it (R85). -/
def State.privSeen (s : State) (gi p : Nat) : Byte :=
  match s.privByte gi p with
  | some b => b
  | none => s.seenByte (s.grp gi).func p

end Sys2Proof.Machine
end

