-- ==== Sys2Proof/Machine/Translate.lean ====
section
/-! DEFINITION. Translation and the tests of an address (file 21 R375 to R377, R388 to R393, file 24 R431): page walks, TLBs, frame
ownership, ATS, and the connection matrix. -/

namespace Sys2Proof.Machine

/-- What an access is for its translation: the codes of R411's XFAULT payload. -/
abbrev accRead : Nat := 0
abbrev accWrite : Nat := 1
abbrev accFetch : Nat := 2
abbrev accAtomic : Nat := 3

/-- Whether an access needs W (R389). -/
def needsW (access : Nat) : Bool := access == 1 || access == 3

/-- The vault over the core of that package index, which is a device DRAM line's home slice too (R376). -/
def homeSlice (pa : Nat) : Nat := 4 * memPort pa + (natBits pa 31 30 ^^^ natBits pa 8 7)

/-- The CXL memory port of an address of region 1, as the HDM decoders give it (R376). -/
def cxlPort (pa : Nat) : Nat := Config.hdmPort (natBits pa 42 0) % 3

/-- Whether an access of a world is turned away where it is performed: the endpoint is fenced (R431, R435) or has no window entry left (R431),
the frame is the world's no longer (R389, R395), or it goes to the host from a world in TDI ERROR (R386). -/
def State.turnsAway (s : State) (func pa : Nat) : Bool :=
  s.fenced pa || s.unwindowed pa || (regionOf pa == 0 && !s.frameOk func pa) || s.hostStopped func pa

/-- The end of a walk: a translation with the entries whose A or D is to be set, a clear V, or a finding that is not replayable. -/
inductive WalkRes where
  | ok (t : Tlb) (upd : List (Nat × W64))
  | absent
  | bad
  deriving DecidableEq, Repr

/-- One level of a walk and the levels below it (R388): `n` is the level, 5 to 1, `table` the table's physical address. -/
def State.walkFrom (s : State) (func va : Nat) (write : Bool) : Nat → Nat → List (Nat × W64) → WalkRes
  | 0, _, _ => .bad
  | n + 1, table, upd =>
    if !(regionOf table == 0 && s.frameOk func table) then .bad
    else
      let idx := (va >>> (12 + 9 * n)) % 512
      let ea := table + 8 * idx
      let e := s.devWord .glob ea
      let addr := 4096 * bitsN e 56 12
      let size := 4096 * 512 ^ n
      let c := bitAt e 4
      let ps := bitAt e 3
      if !bitAt e 0 then .absent
      else if bitsN e 63 57 != 0 || bitsN e 11 7 != 0 then .bad
      else if ps && (n == 4 || n == 3 || n == 0) then .bad
      else if c && n != 0 then .bad
      else if ps || n == 0 then
        -- a leaf; its flags, A and D apart, and its frame follow those of its siblings where C is set
        let siblings := (List.range 16).map (fun j => (j, s.devWord .glob (alignDown ea 128 + 8 * j)))
        let base := alignDown addr 65536
        let same := siblings.all (fun p => bitsN p.2 63 57 == 0 && bitsN p.2 11 7 == 0 &&
          4096 * bitsN p.2 56 12 == base + 4096 * p.1 && bitsN p.2 4 0 == bitsN e 4 0)
        if c && !same then .bad
        else
          let sz := if c then 65536 else size
          let pa := if c then base else addr
          if pa % sz != 0 then .bad
          else
            let e' := e ||| 0x20 ||| (if write && bitAt e 1 then 0x40 else 0)
            .ok ⟨func, alignDown va sz, sz, pa, bitAt e 1, bitAt e 2, bitAt e' 6⟩
              (if e' = e then upd else upd ++ [(ea, e')])
      else if regionOf addr != 0 then .bad
      else
        let e' := e ||| 0x20
        s.walkFrom func va write n addr (if e' = e then upd else upd ++ [(ea, e')])

/-- A walk of a world's tables for an address (R388). -/
def State.walkTable (s : State) (func va : Nat) (write : Bool) : WalkRes :=
  s.walkFrom func va write 5 (4096 * s.regN (offWorld func 1) 56 12) []

/-- The state after the walker has set A and D in the entries of a walk. -/
def State.setAD (s : State) (upd : List (Nat × W64)) : State :=
  upd.foldl (fun s u => s.devWriteBytes .glob u.1 (bytesLE 8 u.2.toNat) none false) s

/-- What a translation gives: a physical address, a wait, a clear V, a PAGE finding, or a destination that is forbidden (R291). -/
inductive Tr where
  | ok (pa : Nat)
  | hold
  | absent
  | page
  | space
  deriving DecidableEq, Repr

def Tlb.covers (t : Tlb) (func va : Nat) : Bool := t.func == func && decide (t.va ≤ va ∧ va < t.va + t.size)

/-- The key under which an ATS translation of a host page is held in an L2 TLB (R393): no virtual address reaches it. -/
def atsKey (hpa : Nat) : Nat := 2 ^ 60 + alignDown hpa 4096

/-- The ATS translation of a host address that a die's L2 TLB holds, if it gives the access (R393). -/
def State.atsHit (s : State) (die func pa : Nat) (write : Bool) : Option Nat :=
  match s.hub.l2tlb.find? (fun e => e.1 == die && e.2.covers func (2 ^ 60 + natBits pa 54 0) && (e.2.w || !write)) with
  | some e => some (e.2.pa + pa % 4096)
  | none => none

/-- An ATS request sent unless one for the page is outstanding (R393). -/
def State.askAts (s : State) (die func pa access : Nat) (group : Option Nat) : State :=
  if s.hub.ats.any (fun r => r.func == func && r.die == die && alignDown r.hpa 4096 == alignDown pa 4096) ||
    s.hub.pri.any (fun r => r.func == func && alignDown r.va 4096 == alignDown pa 4096) then s
  else { s with hub := { s.hub with ats := s.hub.ats ++ [⟨die, func, pa, access, group⟩] } }

/-- Whether a world may reach an address of region 1: the form has the ports, the address lies in the 8 TiB, and a confidential world has
CXLOK (R4, R376, R389, R397). -/
def State.cxlOk (s : State) (func pa : Nat) : Bool :=
  Config.cxlForm && natBits pa 54 43 == 0 && (!s.worldConf func || s.worldCxlok func)

/-- The findings of R389 and the ATS step on a physical address that a table gave. -/
def State.finish (s : State) (die func pa access : Nat) (w x : Bool) (group : Option Nat) : Tr × State :=
  if needsW access && !w then (.page, s)
  else if access == accFetch && !x then (.page, s)
  else match regionOf pa with
    | 0 => if s.frameOk func pa then (.ok pa, s) else (.page, s)
    | 1 => if s.cxlOk func pa then (.ok pa, s) else (.page, s)
    | 2 => match s.atsHit die func pa (needsW access) with
      | some p => (.ok p, s)
      | none =>
        -- a page request that the host has refused gives PAGE once (R393)
        let page := (func, alignDown pa 4096)
        if s.hub.denied.contains page then (.page, { s with hub := { s.hub with denied := s.hub.denied.filter (fun d => d ≠ page) } })
        else (.hold, s.askAts die func pa access group)
    | _ => (.ok pa, s)

/-- A translation entered in a die's L2 TLB, the oldest leaving where it is full (R390, log entry 52). -/
def State.installL2 (s : State) (die : Nat) (t : Tlb) : State :=
  let l2 := s.hub.l2tlb.filter (fun e => !(e.1 == die && e.2.func == t.func && e.2.va == t.va)) ++ [(die, t)]
  let full := Config.l2Tlb < (l2.filter (fun e => e.1 == die)).length
  { s with hub := { s.hub with l2tlb := if full then l2.eraseP (fun e => e.1 == die) else l2 } }

/-- A translation entered in a core's L1 TLB and its die's L2 TLB (R390). -/
def State.installTlb (s : State) (pkg : Nat) (t : Tlb) : State :=
  (s.modCore pkg (fun c => { c with tlb := lastN Config.l1Tlb (c.tlb.filter (fun e => !(e.func == t.func && e.va == t.va)) ++ [t]) })).installL2
    (pkg / 64) t

/-- Whether two requests ask for one walk: the same page of a world, by any core of one die (R390). -/
def Walk.same (a b : Walk) : Bool := a.core / 64 == b.core / 64 && a.func == b.func && alignDown a.va 4096 == alignDown b.va 4096

/-- A walk asked for, once for each asker; requests for one page on a die are one walk (R390). -/
def State.startWalk (s : State) (pkg func va access : Nat) (group : Option Nat) : State :=
  let x : Walk := ⟨pkg, func, va, access, group⟩
  if s.walks.any (fun w => w.same x && needsW w.access == needsW access && w.group == group) then s else { s with walks := s.walks ++ [x] }

/-- Pages of requests, each once, in the order in which they were first asked for. -/
def walkPages (ws : List Walk) : List (Nat × Nat) :=
  ws.foldl (fun l w => if l.contains (w.func, alignDown w.va 4096) then l else l ++ [(w.func, alignDown w.va 4096)]) []

/-- Whether a request has one of its die's walkers: its page is among the first 128 that are asked for there (R390). -/
def State.walking (s : State) (x : Walk) : Bool :=
  ((walkPages (s.walks.filter (fun w => w.core / 64 == x.core / 64))).take Config.walkers).contains (x.func, alignDown x.va 4096)

/-- Translation of a group's access on its core (R388 to R393): from the TLBs, or a wait for a walk. A page at which a translation
fault has ended in FAIL is a PAGE finding (R416). -/
def State.translate (s : State) (gi va access : Nat) : Tr × State :=
  let g := s.grp gi
  if g.xfFail = some (alignDown va 4096) then (.page, s)
  else
    let usable := fun (t : Tlb) => t.covers g.func va && (!needsW access || t.d || !t.w)
    match (s.core g.pkg).tlb.find? usable with
    | some t => s.finish (g.pkg / 64) g.func (t.pa + (va - t.va)) access t.w t.x (some gi)
    | none =>
      match s.hub.l2tlb.find? (fun e => e.1 == g.pkg / 64 && usable e.2) with
      | some e =>
        (s.installTlb g.pkg e.2).finish (g.pkg / 64) g.func (e.2.pa + (va - e.2.va)) access e.2.w e.2.x (some gi)
      | none => (.hold, s.startWalk g.pkg g.func va access (some gi))

/-- Translation by the hub, an engine or the command processor in a world: a walk of its own, with A and D set, and the ATS
translations the die holds. -/
def State.hubTr (s : State) (die func va access : Nat) : Tr × State :=
  if 2 ^ 57 ≤ va then (.page, s)
  else match s.walkTable func va (needsW access) with
    | .bad => (.page, s)
    | .absent => (.absent, s)
    | .ok t upd => (s.setAD upd).finish die func (t.pa + (va - t.va)) access t.w t.x none

/-! Destination tests -/

/-- The destination test (test 4 of R291): the connection matrix, the partition's egress ports, the window table (R377, R431). A
core asks by its requester port; an engine by its partition's memory ports. A world in TDI ERROR reaches no host memory (R386). -/
def State.destOk (s : State) (func : Nat) (pkg : Option Nat) (pa : Nat) : Bool :=
  let p := s.partOf func
  match regionOf pa with
  | 0 => match pkg with
    | some c => s.matrix c (memPort pa)
    | none => bitAt (s.reg (offPart p 2)) (memPort pa)
  | 1 => bitAt (s.reg (offPart p 6)) (1 + cxlPort pa)
  | 2 => bitAt (s.reg (offPart p 6)) 0 && !s.hostStopped func pa
  | _ => bitAt (s.reg (offPart p 6)) (4 + logicalPlane pa) && (s.window (fabricEp pa)).isSome

/-! Tile-store addresses (R86, R87) -/

/-- The slice and offset a tile-store address names for a core; none where reserved bits are set. -/
def tilePlace (pkg addr : Nat) : Option (Nat × Nat) :=
  let a := addr % 2 ^ 32
  if natBits a 31 31 = 1 then some (pkg, natBits a 20 0)
  else if natBits a 30 29 ≠ 0 then none
  else some (natBits a 28 21, natBits a 20 0)

/-- The absolute place of an offset in a slice. -/
def tileAbs (pkg off : Nat) : Nat := pkg * Config.sliceBytes + off

/-- Whether a slice lies in the window of a world's partition; a core's own slice always does. -/
def State.inWindow (s : State) (func own pkg : Nat) : Bool :=
  let p := s.partOf func
  pkg == own || decide (s.regN (offPart p 4) 7 0 ≤ pkg ∧ pkg ≤ s.regN (offPart p 4) 15 8)

/-- Whether a byte of a slice lies in the allotment of a team of the world that has not ended (R87, R40). -/
def State.allotted (s : State) (func pkg off : Nat) : Bool :=
  s.groups.any (fun g => g.alive && g.func == func && g.pkg == pkg &&
    (let u := tileUnits (s.launchWords g)
     decide (4096 * g.tsoff ≤ off ∧ off < 4096 * (g.tsoff + u))))

/-- The tests of R86 and R87 on n bytes from a tile-store address: all inside one slice of the window, below the engine region and
allotted to the world. The absolute place of the first byte, or none. -/
def State.tileRange (s : State) (func own addr n : Nat) : Option Nat :=
  match tilePlace own addr with
  | none => none
  | some (pkg, off) =>
    if s.inWindow func own pkg && decide (off + n ≤ Config.engineRegion ∧ off < Config.engineRegion) &&
      s.allotted func pkg off && (n == 0 || s.allotted func pkg (off + n - 1)) &&
      (List.range ((n + 4095) / 4096)).all (fun j => s.allotted func pkg (min (off + 4096 * j) (off + n - 1)))
    then some (tileAbs pkg off) else none

end Sys2Proof.Machine
end

