-- ==== Sys2Proof/Machine/Events.lean ====
section
/-! DEFINITION. Fault events and the event rings (file 22 R410 to R415): an event is claimed by the fault routing table, and its
record is written to the world's ring as room allows. -/

namespace Sys2Proof.Machine

/-- The end of a write by the hub: done, held by a translation still under way, or not possible. -/
inductive Put where
  | done (s : State)
  | hold (s : State)
  | fail (s : State)
  deriving DecidableEq, Repr

/-- Bytes written by the hub at a virtual address of a world, inside one page; a fenced or forbidden destination is no write. -/
def State.hubPut (s : State) (func va : Nat) (bs : List Byte) (sys : Bool) : Put :=
  match s.hubTr 0 func va accWrite with
  | (.ok pa, s1) =>
    if !s1.destOk func none pa then .fail s1
    else if s1.fenced pa then .done s1
    else .done ((s1.rekey func .glob ((List.range bs.length).map (fun k => pa + k))).devWriteBytes .glob pa bs none sys)
  | (.hold, s1) => .hold s1
  | (_, s1) => .fail s1

/-- Bytes read by the hub at a virtual address of a world, inside one page. -/
def State.hubGet (s : State) (func va n : Nat) : Except Tr (List Byte × State) :=
  match s.hubTr 0 func va accRead with
  | (.ok pa, s1) => if s1.destOk func none pa && !s1.fenced pa && !s1.poisoned .glob pa then .ok (s1.seenRead func .glob pa n, s1) else .error .page
  | (t, _) => .error t

/-- Event classes (R411). -/
abbrev evDenial : Nat := 0
abbrev evXfault : Nat := 1
abbrev evPage : Nat := 2
abbrev evGfault : Nat := 3
abbrev evBreak : Nat := 4
abbrev evEngine : Nat := 5
abbrev evInteg : Nat := 6
abbrev evPoison : Nat := 7
abbrev evSoft : Nat := 8
abbrev evLink : Nat := 9
abbrev evSave : Nat := 10

/-- Whether a class takes a response (R411). -/
def takesResponse (cls : Nat) : Bool := cls == evXfault || cls == evBreak

/-- RING of a world's routing entry (R410); 0: no ring. -/
def State.ringVa (s : State) (func : Nat) : Nat := 4096 * s.regN (offFrt func 1) 56 12
/-- Records the ring holds (R410). -/
def State.ringSize (s : State) (func : Nat) : Nat := 16 * 2 ^ s.regN (offFrt func 1) 3 0
/-- PROD of a world: records written (R413). -/
def State.prod (s : State) (func : Nat) : Nat := lookupD s.hub.eseq func 0

/-- The owner bits of a class: host and clerk (R410). -/
def State.evHost (s : State) (func cls : Nat) : Bool := bitAt (s.reg (offFrt func 0)) (2 * cls)
def State.evClerk (s : State) (func cls : Nat) : Bool := bitAt (s.reg (offFrt func 0)) (2 * cls + 1)

/-- The 64 bytes of a record (R413). -/
def recordBytes (e : Event) (seq : Nat) : List Byte :=
  (List.range 4).flatMap (fun k => bytesLE 8 (e.payload.getD k 0).toNat) ++ bytesLE 4 seq ++ bytesLE 1 e.cls ++ bytesLE 1 e.disp ++
  bytesLE 2 0 ++ bytesLE 8 e.group.toNat ++ List.replicate 16 0

/-- The request for an ATS translation that an attempt of the hub's has sent, and nothing else of the attempt (R393). -/
def State.asked (s s1 : State) : State := { s with hub := s1.hub }

/-- A write of the hub's own that waits, where its translation is under way, until that has come; one that cannot be translated is left out. -/
def State.hubPost (s : State) (func va : Nat) (bs : List Byte) : State :=
  match s.hubPut func va bs true with
  | .done s1 => s1
  | .hold s1 => { s1 with hub := { s1.hub with puts := s1.hub.puts ++ [(func, va, bs)] } }
  | .fail s1 => s1

/-- The hub's writes that wait for a translation tried again, in order. -/
def State.flushPuts (s : State) : State :=
  s.hub.puts.foldl (fun s n => s.hubPost n.1 n.2.1 n.2.2) { s with hub := { s.hub with puts := [] } }

/-- One record written to its world's ring where PROD − CONS leaves room, then PROD with release at system scope and, where the host
owns the event, the MSI-X message (R412, R413, R415); none where it stays unwritten, with the translation asked that it waits for. -/
def State.writeRecord (s : State) (e : Event) : Option Event × State :=
  let f := e.func
  let ring := e.ring
  if ring = 0 then (none, s)
  else match s.hubGet f (ring + 0x80) 8 with
    | .error .hold => (none, s.asked (s.hubTr 0 f (ring + 0x80) accRead).2)
    | .error _ => (none, s)
    | .ok (cb, s0) =>
      let n := e.size
      let prod := s0.prod f
      if n ≤ (prod + 2 ^ 64 - ofBytesLE cb) % 2 ^ 64 then (none, s)
      else
        let seq := prod + 1
        match s0.hubPut f (ring + 0x100 + 64 * (seq % n)) (recordBytes e (seq % 2 ^ 32)) true with
        | .done s1 =>
          match s1.hubPut f ring (bytesLE 8 seq) true with
          | .done s2 =>
            let s3 := { s2 with hub := { s2.hub with eseq := setKey s2.hub.eseq f seq } }
            let s4 := if e.disp = 1 ∨ e.disp = 3 then { s3 with out := s3.out ++ [.msix f e.vec] } else s3
            (some { e with seq := seq, written := true }, s4)
          | .hold s2 => (none, s.asked s2)
          | .fail _ => (none, s)
        | .hold s1 => (none, s.asked s1)
        | .fail _ => (none, s)

/-- Whether an event whose record is written still waits for its response (R412, R414). -/
def Event.awaits (e : Event) : Bool := takesResponse e.cls && (e.disp == 1 || e.disp == 3)

/-- Every unwritten record that no clerk still has, written in order as room allows; events with nothing left to wait for leave. An answer
that waited for its record (R415) is still to be acted on. -/
def State.flushList (s : State) : List Event → State
  | [] => s
  | e :: es =>
    let blocked := s.hub.events.any (fun x => x.func == e.func && !x.written && !x.clerk)
    if e.written || e.clerk || blocked then ({ s with hub := { s.hub with events := s.hub.events ++ [e] } }).flushList es
    else match s.writeRecord e with
      | (some e', s1) =>
        (if e'.awaits || e'.act != 0 then { s1 with hub := { s1.hub with events := s1.hub.events ++ [e'] } } else s1).flushList es
      | (none, s1) => ({ s1 with hub := { s1.hub with events := s1.hub.events ++ [e] } }).flushList es

def State.flushEvents (s : State) : State :=
  ({ s with hub := { s.hub with events := [] } }).flushList s.hub.events

/-- An event held by the hub and written if it can be: beyond 256 unwritten events of a world, one that is only logged is dropped
and counted in LOST (R415). -/
def State.queueEvent (s : State) (e : Event) : State :=
  let unwritten := (s.hub.events.filter (fun x => x.func == e.func && !x.written)).length
  if Config.heldEvents ≤ unwritten && e.cls != evDenial && e.cls != evXfault && e.cls != evBreak then
    let n := lookupD s.hub.lost e.func 0 + 1
    let s1 : State := { s with hub := { s.hub with lost := setKey s.hub.lost e.func n } }
    s1.hubPost e.func (e.ring + 8) (bytesLE 8 n)
  else ({ s with hub := { s.hub with events := s.hub.events ++ [e] } }).flushEvents

/-- An event as the routing table claims it now (R410, R412). -/
def State.claim (s : State) (func cls : Nat) (payload : List W64) (group : W64) (owner waits : Option Nat) (entry : Option (Nat × Nat)) : Event :=
  let clerk := s.evClerk func cls
  let host := s.evHost func cls
  { seq := 0, func := func, cls := cls, payload := payload, group := group, disp := if clerk then 0 else if host then 1 else 0, owner := owner
    waits := waits, entry := entry, written := false, clerk := clerk, at_ := s.hubClk, host := host
    grace := max 1 (s.regN (offFrt func 2) 63 32), act := 0, ring := s.ringVa func
    size := s.ringSize func, vec := s.regN (offFrt func 2) 10 0 }

/-- An event that is only logged, claimed by the routing table (R412): written at once, or after the clerk services have acted.
`waits`: the request whose result waits for a DENIAL record (R333). A world without a ring has no record (R415). -/
def State.raiseLog (s : State) (func cls : Nat) (payload : List W64) (group : W64) (waits : Option Nat) : State :=
  if s.ringVa func = 0 then s else s.queueEvent (s.claim func cls payload group none waits none)

/-- The payload of an XFAULT or PAGE event: address, access, source (R411). -/
def xfaultPayload (va access source : Nat) : List W64 := [BitVec.ofNat 64 va, BitVec.ofNat 64 (access + 256 * source), 0, 0]

/-- The PAGE record of a trap that a group takes (R389). -/
def State.pageRecord (s : State) (gi va access : Nat) : State :=
  let g := s.grp gi
  s.raiseLog g.func evPage (xfaultPayload va access 0) g.name none

/-- The INTEG record of an integrity failure that a group meets: `source` 0 a packet tag, 1 a poisoned line, with an address (R411; that
each failure has a record is DEDUCED, log entry 31). -/
def State.integRecord (s : State) (gi source addr : Nat) : State :=
  let g := s.grp gi
  s.raiseLog g.func evInteg [BitVec.ofNat 64 source, BitVec.ofNat 64 addr, 0, 0] g.name none

/-- The finding of the lowest address. -/
def lowestPage : List (Nat × Nat × Nat) → Option (Nat × Nat × Nat)
  | [] => none
  | p :: ps => match lowestPage ps with
    | some q => if q.2.1 < p.2.1 then some q else some p
    | none => some p

/-- The PAGE finding that a group's next boundary takes: of those whose operations' slots have cleared, the lowest address (R392, R435). -/
def Group.duePage (g : Group) : Option (Nat × Nat × Nat) := lowestPage (g.pages.filter (fun p => (g.op p.1).isNone))

/-- A group whose due PAGE findings are answered by one trap. -/
def Group.clearPages (g : Group) : Group := { g with pages := g.pages.filter (fun p => (g.op p.1).isSome) }

/-- The operation whose commit step covers an entry: that under whose number it is sealed, or the releasing store whose own entry it is. -/
def Group.sealOp (g : Group) (sealId : Nat) : Nat :=
  match g.ops.find? (fun o => match o.kind with
    | .storeRel _ own => own == sealId
    | _ => false) with
  | some o => o.id
  | none => sealId

/-- The PAGE record of the exporting world for a request of this device's own, at an address that it holds itself, to a frame that is not that
world's (R434, R439). -/
def State.servedPage (s : State) (pa access : Nat) : State :=
  let f := s.regN offExpwin 62 57
  match s.servedAt pa with
  | some h => if s.fenced pa && !s.frameOk f h then s.raiseLog f evPage (xfaultPayload h access 0) 0 none else s
  | none => s

/-- An escrow entry discarded because its page is not to be written, or its endpoint turns it away: the group owes PAGE, or SPACE, once the commit's
slot has cleared (R392, R431, R435). -/
def State.discardEsc (s : State) (e : Esc) : State :=
  ((s.dropEsc e).modGrp e.owner (fun g => g.owePage (g.sealOp e.sealId) e.va (s.turnedCode e.sector accWrite))).servedPage e.sector accWrite

/-- FAIL on a held translation fault: the group traps PAGE when its word is performed again; a commit discards the sectors of the page
(R392); an engine entry ends with XLATE (R416). -/
def State.xfaultFail (s : State) (e : Event) : State :=
  let va := (e.payload.getD 0 0).toNat
  match e.owner, e.entry, e.waits with
  | some gi, _, some _ =>
    (s.escrow.filter (fun x => x.owner == gi && x.marked && (x.sealId != 0 || (s.grp gi).dying) && alignDown x.va 4096 == alignDown va 4096)).foldl
      State.discardEsc s
  | some gi, _, none => s.modGrp gi (fun g => { g with heldXf := false, xfFail := some (alignDown va 4096) })
  | none, some (c, q), _ => s.modCore c (fun k => { k with queues := modifyNth (fun l =>
      l.takeWhile (fun h => h.func ≠ e.func) ++ modHead (fun h => { h with status := 0x12, fail := va }) (l.dropWhile (fun h => h.func ≠ e.func))) q k.queues })
  | none, none, _ => s

/-- RETRY: the word is issued again whole, and the commit or entry goes on (R416). -/
def State.xfaultRetry (s : State) (e : Event) : State :=
  match e.owner, e.waits with
  | some gi, none => s.modGrp gi (fun g => { g with heldXf := false })
  | _, _ => s

/-- An XFAULT event for a group's word, a group's commit (`waits`) or an engine entry, claimed by the routing table; its default action
is FAIL (R411, R412), taken once its record is written (R415). -/
def State.raiseXfault (s : State) (func va access source : Nat) (group : Option Nat) (entry : Option (Nat × Nat)) (waits : Option Nat)
    (name : W64) : State :=
  let e := s.claim func evXfault (xfaultPayload va access source) name group waits entry
  if s.ringVa func = 0 then s.xfaultFail e
  else s.queueEvent (if e.host || e.clerk then e else { e with act := 2 })

/-- Whether an XFAULT of an engine entry of a world awaits its response. -/
def State.entryHeld (s : State) (core q func : Nat) : Bool :=
  s.hub.events.any (fun e => e.cls == evXfault && e.entry == some (core, q) && e.func == func)

end Sys2Proof.Machine
end

