-- ==== Sys2Proof/Machine/Names.lean ====
section
/-! DEFINITION. Virtual thread names (file 02): the walk of a name table, the statuses of R66, and the three points at which a
request is applied: a slot (R70), a save image at its entry's home (R72), a posting record (R74). -/

namespace Sys2Proof.Machine

/-- Status codes (R65). -/
abbrev stOk : Nat := 0x00
abbrev stDead : Nat := 0x01
abbrev stDenied : Nat := 0x02
abbrev stNoname : Nat := 0x03
abbrev stFull : Nat := 0x04
abbrev stConflict : Nat := 0x08
abbrev stWatchfull : Nat := 0x09
abbrev stNoengine : Nat := 0x10
abbrev stFenced : Nat := 0x11
abbrev stXlate : Nat := 0x12
abbrev stIntegrity : Nat := 0x13

/-- A name entry (R60): where it stands and its four words. -/
structure NameEnt where
  pa : Nat
  w0 : W64
  w1 : W64
  w2 : W64
  w3 : W64
  deriving DecidableEq, Repr

def nState (w0 : W64) : Nat := bitsN w0 2 0
def nGen (w0 : W64) : Nat := bitsN w0 10 3
def nPlace (w0 : W64) : Nat := bitsN w0 26 11
def nClass (w0 : W64) : Nat := bitsN w0 29 27
def nFunc (w2 : W64) : Nat := bitsN w2 37 32
def NameEnt.state (e : NameEnt) : Nat := nState e.w0
def NameEnt.gen (e : NameEnt) : Nat := nGen e.w0
/-- ADDR of a saved or host entry (R60). -/
def NameEnt.addr (e : NameEnt) : Nat := bitsN e.w1 56 0
def NameEnt.exitCode (e : NameEnt) : BitVec 32 := e.w0.extractLsb' 32 32
/-- JOINP: the joiner block's address, 0 for none. -/
def NameEnt.joinp (e : NameEnt) : Nat := 32 * bitsN e.w3 56 5
/-- The name's generation and index (R55). -/
def nameGen (n : W64) : Nat := bitsN n 63 56
def nameIndex (n : W64) : Nat := bitsN n 47 0

/-- A directory entry (R59): the next level's address, or a status; its reserved bits are tested before V (log entry 53). -/
def dirNext (e : W64) : Except Nat Nat :=
  if bitsN e 63 57 != 0 || bitsN e 11 1 != 0 then .error stXlate
  else if !bitAt e 0 then .error stNoname
  else .ok (4096 * bitsN e 56 12)

/-- Whether the fields of a name entry are good ones (R60): otherwise XLATE. Of two it states no fate: a HOSTN that disagrees with STATE 4 gives XLATE
too, and an ADDR that is not 256-byte aligned is taken as it stands (log entry 53). -/
def NameEnt.fieldsOk (e : NameEnt) : Bool :=
  let st := e.state
  let host := bitAt e.w2 40
  !bitAt e.w0 31 && decide (st ≤ 5) &&
  (!(st == 1 || st == 3) || bitsN e.w1 63 14 == 0) &&
  (!(st == 2 || st == 4) || bitsN e.w1 63 57 == 0) &&
  bitsN e.w2 63 41 == 0 && bitsN e.w2 39 38 == 0 && (host == (st == 4)) &&
  bitsN e.w3 63 57 == 0 && bitsN e.w3 4 0 == 0

/-- A word of a table level, or XLATE where its line is poisoned (R66). -/
def State.nameWord (s : State) (pa : Nat) : Except Nat W64 :=
  if s.poisoned .glob pa then .error stXlate else .ok (s.devWord .glob pa)

/-- Where the entry of an index stands (R58, R59). -/
def State.entryPa (s : State) (func index : Nat) : Except Nat Nat :=
  match dirNext (s.reg (offWorld func 2)) with
  | .error e => .error e
  | .ok l1 =>
    match s.nameWord (l1 + 8 * natBits index 47 32) with
    | .error e => .error e
    | .ok d1 => match dirNext d1 with
      | .error e => .error e
      | .ok l2 =>
        match s.nameWord (l2 + 8 * natBits index 31 16) with
        | .error e => .error e
        | .ok d2 => match dirNext d2 with
          | .error e => .error e
          | .ok leaf => .ok (leaf + 32 * natBits index 15 0)

/-- The four words at an entry's place. -/
def State.entryAt (s : State) (pa : Nat) : NameEnt :=
  ⟨pa, s.devWord .glob pa, s.devWord .glob (pa + 8), s.devWord .glob (pa + 16), s.devWord .glob (pa + 24)⟩

/-- The walk of R66. -/
def State.walkName (s : State) (func index : Nat) : Except Nat NameEnt :=
  match s.entryPa func index with
  | .error e => .error e
  | .ok pa =>
    if s.poisoned .glob pa then .error stXlate
    else
      let e := s.entryAt pa
      if e.fieldsOk then .ok e else .error stXlate

/-- A word of an entry written at its home, as one update of its line (R61). -/
def State.putEntry (s : State) (pa k : Nat) (w : W64) : State := s.devWriteBytes .glob (pa + 8 * k) (bytesLE 8 w.toNat) none false

/-- The location word of a slot (R60). -/
def locWord (pkg q slot : Nat) : W64 := BitVec.ofNat 64 ((pkg / 64) * 2 ^ 12 + (pkg % 64) * 2 ^ 6 + q * 2 ^ 4 + slot)

/-- Operation bits (R63). -/
def NameOp.bit : NameOp → Nat
  | .signal .. => 0
  | .wake => 1
  | .deposit .. => 2
  | .join _ => 3

/-- The tests of R66 before delivery: a status (a JOIN's exit code in [63:32]), the entry at which DENIED was found, or the entry to
deliver to. -/
inductive NameRes where
  | answer (result : W64)
  | denied
  | go (e : NameEnt)
  deriving DecidableEq, Repr

def State.nameTest (s : State) (func sclass : Nat) (name : W64) (op : NameOp) : NameRes :=
  if bitsN name 55 48 != 0 then .answer (BitVec.ofNat 64 stNoname)
  else match s.walkName func (nameIndex name) with
    | .error st => .answer (BitVec.ofNat 64 st)
    | .ok e =>
      if e.state == 0 || nFunc e.w2 != func then .answer (BitVec.ofNat 64 stNoname)
      else if e.gen != nameGen name then .answer (BitVec.ofNat 64 stDead)
      else if !bitAt e.w2 (4 * sclass + op.bit) then .denied
      else if e.state == 5 then
        match op with
        | .join _ => .answer (e.exitCode ++ (BitVec.ofNat 32 stOk))
        | _ => .answer (BitVec.ofNat 64 stDead)
      else .go e

/-- The denial record of R67 as an event payload. -/
def denialPayload (sender target : W64) (op cls func : Nat) : List W64 :=
  [sender, target, BitVec.ofNat 64 (op + 256 * cls + 65536 * func), 0]

/-! Points of application -/

/-- A request applied to a resident group (R63). -/
def State.applySlot (s : State) (gi : Nat) (op : NameOp) : State :=
  match op with
  | .signal k v => s.addCounter gi k v
  | .wake => s.addCounter gi 0 1
  | .deposit b v => (s.modGrp gi (fun g => { g with box := setNth g.box b v })).addCounter gi (8 + b) 1
  | .join _ => s

/-- The group of a world that a slot holds under a name, with a PLACE and an open acceptance flag (R70, R79). -/
def State.slotHolder (s : State) (func : Nat) (name w0 w1 : W64) : Option Nat :=
  (s.grpsWhere (fun g => g.resident && g.func == func && g.name == name && locWord g.pkg g.qtr g.slot == w1 && g.accept &&
    g.place.toNat == nPlace w0)).head?

/-- Offsets of a save image (R352). -/
abbrev imCtr (k : Nat) : Nat := 0x100 + 8 * k
abbrev imBox (b : Nat) : Nat := 0x180 + 8 * b

/-- A 64-bit word written in physical memory by the hub or a vault routine. -/
def State.putPhys (s : State) (pa : Nat) (w : W64) : State := s.devWriteBytes .glob pa (bytesLE 8 w.toNat) none false

/-- Whether an image's condition is a counter condition that is met now (R72, R354). -/
def State.imageMet (s : State) (img : Nat) : Bool :=
  let cond := s.devWord .glob (img + 0x70)
  bitsN cond 2 0 == 1 &&
    decide ((s.devWord .glob (img + 0x78)).toNat ≤ (s.devWord .glob (img + imCtr (bitsN cond 11 8))).toNat)

/-- Counter k of an image raised. -/
def State.imageAdd (s : State) (img k : Nat) (v : W64) : State := s.putPhys (img + imCtr k) (s.devWord .glob (img + imCtr k) + v)

/-- A request applied to a save image at its entry's home, with WP set where its counter condition is met (R72). A poisoned line of the image is read
and written as any, and the answer is OK: R72 names no status for it (the model's choice, log entry 66). -/
def State.applyImage (s : State) (e : NameEnt) (op : NameOp) : State :=
  let s1 := match op with
    | .signal k v => s.imageAdd e.addr k v
    | .wake => s.imageAdd e.addr 0 1
    | .deposit b v => (s.putPhys (e.addr + imBox b) v).imageAdd e.addr (8 + b) 1
    | .join _ => s
  if s1.imageMet e.addr then s1.putEntry e.pa 0 (s1.devWord .glob e.pa ||| 0x40000000) else s1

/-- A 64-bit word of a world's posting record changed by a system-scope atomic, with no test for poison (log entry 66). -/
def State.postWord (s : State) (func pa : Nat) (f : W64 → W64) : State :=
  let s1 := s.rekey func .glob ((List.range 8).map (fun k => pa + k))
  s1.devWriteBytes .glob pa (bytesLE 8 (f (s1.seenWord func pa)).toNat) none true

/-- The counter that a request steps and by how much (R63). -/
def NameOp.step : NameOp → Option (Nat × W64)
  | .signal k v => some (k, v)
  | .wake => some (0, 1)
  | .deposit b _ => some (8 + b, 1)
  | .join _ => none

/-- The write of a notification (R74): it is skipped with a PAGE record of source 2, and kept while its translation is under way (R393). -/
def State.sendNote (s : State) (func na : Nat) (nd : List Byte) : State :=
  let skip := fun (t : State) => t.raiseLog func evPage (xfaultPayload na accWrite 2) 0 none
  if na % 4 != 0 || decide (2 ^ 57 ≤ na) then skip s
  else match s.hubPut func na nd true with
    | .done s1 => s1
    | .hold s1 => { s1 with hub := { s1.hub with notes := s1.hub.notes ++ [(func, na, nd)] } }
    | .fail s1 => skip s1

/-- The notifications that wait for a translation sent again. -/
def State.flushNotes (s : State) : State :=
  s.hub.notes.foldl (fun s n => s.sendNote n.1 n.2.1 n.2.2) { s with hub := { s.hub with notes := [] } }

/-- The notification of a posting record (R74): NDATA written to NADDR, both read after the request has been applied. -/
def State.notify (s : State) (func pa : Nat) : State :=
  let na := (s.seenWord func (pa + 192 + 8)).toNat
  if na = 0 then s else s.sendNote func na (s.seenRead func .glob (pa + 208) 4)

/-- A request applied to a posting record (R74): the status, or none while a translation is under way. A record that translates but that the
connection matrix refuses, or that a fenced window holds, completes it with XLATE: R74 names no status for it (log entry 53). A record in a poisoned
line of device DRAM is read and written as any, with OK (the model's choice, log entry 66). -/
def State.applyHost (s : State) (func va : Nat) (op : NameOp) : Option Nat × State :=
  match op with
  | .join _ => (some stNoname, s)
  | _ =>
    match s.hubTr 0 func va accAtomic with
    | (.hold, s1) => (none, s1)
    | (.ok pa, s1) =>
      if !s1.destOk func none pa || s1.fenced pa then (some stXlate, s1)
      else
        let s2 := match op with
          | .deposit b v => s1.postWord func (pa + 128 + 8 * b) (fun _ => v)
          | _ => s1
        let s3 := match op.step with
          | some (k, v) => (s2.postWord func (pa + 8 * k) (fun c => c + v)).postWord func (pa + 192) (fun p => p ||| (1#64 <<< k))
          | none => s2
        (some stOk, s3.notify func pa)
    | (_, s1) => (some stXlate, s1)

/-- A JOIN at the entry's home line (R75): the status. A block without a free slot gives FULL, also to a caller that is in it; a poisoned line of the
block is read and written as any (the model's choice, log entry 66). -/
def State.applyJoin (s : State) (e : NameEnt) (caller : W64) : Nat × State :=
  if e.joinp = 0 then (stFull, s)
  else
    let names := (List.range 4).map (fun j => s.devWord .glob (e.joinp + 8 * j))
    match position (fun n => n == 0) names with
    | none => (stFull, s)
    | some j => (stOk, if names.contains caller then s else s.putPhys (e.joinp + 8 * j) caller)

/-- A signal that the device itself sends, to a joiner or for a reduction, applied where its entry allows it now (R76, R445): whether it is done
with, and the state after it, in which a host target's translation is under way where it must be sent again. R76 skips a name that no longer
matches; a walk that ends in XLATE or meets a poisoned line, of which it says nothing, skips the signal too (log entry 53). -/
def State.signalJoiner (s : State) (func : Nat) (name : W64) (op : NameOp) : Bool × State :=
  match s.walkName func (nameIndex name) with
  | .error _ => (true, s)
  | .ok e =>
    if bitsN name 55 48 != 0 || e.state == 0 || nFunc e.w2 != func || e.gen != nameGen name || e.state == 5 then (true, s)
    else match e.state with
      | 1 => match s.slotHolder func name e.w0 e.w1 with
        | some gi => (true, s.applySlot gi op)
        | none => (false, s)
      | 2 => (true, s.applyImage e op)
      | 4 =>
        let r := s.applyHost func e.addr op
        (r.1.isSome, r.2)
      | _ => (false, s)

/-- Whether a name's entry reads STATE 3: a moving target refuses, and is asked again 256 clocks later (R71). -/
def State.nameMoving (s : State) (func : Nat) (name : W64) : Bool :=
  match s.walkName func (nameIndex name) with
  | .ok e => e.state == 3
  | .error _ => false

/-- The clock at which a refused request may be sent again: 256 clocks later on its sender's core, or on the hub, where its target moves (R71). -/
def State.resendClock (s : State) (core : Option Nat) (moving : Bool) : Nat := if moving then s.clk (core.getD 260) + 256 else 0

/-- The name of a request's sender (R67). -/
def State.senderName (s : State) : Sender → W64
  | .group g _ => (s.grp g).name
  | .teller q .. => s.reg (offQueue q 1)
  | .joiner => 0

/-- A signal of the device's own sent: applied now, or kept as a request of its own while its target cannot be reached (R71, R76). -/
def State.deviceSignal (s : State) (func : Nat) (name : W64) (op : NameOp) : State :=
  match s.signalJoiner func name op with
  | (true, s1) => s1
  | (false, s0) =>
    let (id, s1) := s0.fresh
    { s1 with reqs := s1.reqs ++ [⟨id, .joiner, none, func, 0, name, op, .refused, 0, 0,
      s.resendClock none (s.nameMoving func name)⟩] }

/-- The entry's one update at death (R76): EXIT, STATE 5, the joiner block read and cleared, and each joiner signalled; those that
cannot be reached now keep a request of their own. The model's choices (log entry 66): WP is cleared with them; where the walk finds no entry there
is no update and no signal; a poisoned line of the entry or of its block is read and written as any. -/
def State.nameDeath (s : State) (func : Nat) (name : W64) (code : BitVec 32) : State :=
  match s.walkName func (nameIndex name) with
  | .error _ => s
  | .ok e =>
    if e.gen != nameGen name then s
    else
      let w0 : W64 := code ++ (BitVec.ofNat 32 ((e.w0.toNat % 2 ^ 30) / 8 * 8 + 5))
      let s1 := s.putEntry e.pa 0 w0
      let joiners := if e.joinp = 0 then [] else (List.range 4).map (fun j => s1.devWord .glob (e.joinp + 8 * j))
      let s2 := if e.joinp = 0 then s1 else s1.devWriteBytes .glob e.joinp (List.replicate 32 0) none false
      joiners.foldl (fun t n => if n = 0 then t else t.deviceSignal func n (.signal 15 1)) s2

end Sys2Proof.Machine
end

