-- ==== Sys2Proof/Machine/Operands.lean ====
section
/-! DEFINITION. Register operands: what a word reads (R212, R214, R256, R340, R341, R261), what it writes (R257, R342), and how a
variable-latency result lands (R292, R342, R355). -/

namespace Sys2Proof.Machine

/-! Registers -/

/-- The vector register of a number. -/
def Group.vreg (g : Group) (n : Nat) : VReg := g.v.getD n VReg.zero
/-- One lane of a vector register. -/
def VReg.lane (r : VReg) (i : Nat) : W32 := r.lanes.getD i 0
/-- A group with a vector register replaced. -/
def Group.setV (g : Group) (n : Nat) (r : VReg) : Group := { g with v := setNth g.v n r }
/-- The number of a scalar register code. -/
def sNum (c : RegCode) : Nat := c.toNat - 0xC0
/-- The scalar register of a code. -/
def Group.sreg (g : Group) (c : RegCode) : W64 := g.s.getD (sNum c) 0
/-- A group with a scalar register replaced. -/
def Group.setS (g : Group) (c : RegCode) (x : W64) : Group := { g with s := setNth g.s (sNum c) x }

/-- The stride of an affine register (R258): the difference of its first two lanes. -/
def strideOf (l : List W32) : W32 := l.getD 1 0 - l.getD 0 0

/-- Whether lanes have the form that a tag says: U one value, A a base and a stride. -/
def conforms (t : Tag) (l : List W32) : Bool :=
  match t with
  | .u => (List.range 64).all (fun i => l.getD i 0 == l.getD 0 0)
  | .a => (List.range 64).all (fun i => l.getD i 0 == l.getD 0 0 + BitVec.ofNat 32 i * strideOf l)
  | .g => true

/-- A tag where the lanes have its form, G elsewhere. -/
def tagIf (t : Tag) (l : List W32) : Tag := if conforms t l then t else .g

/-! Clauses issued beside each other (R24) -/

/-- Whether two clause marks name two clauses of one selection. -/
def besideOther (a b : Nat) : Bool := a / 2 == b / 2 && a != b

/-- Whether an operation will write a register (R213). -/
def Op.writes (o : Op) (c : RegCode) : Bool :=
  if isV o.dest then decide (o.dest.toNat ≤ c.toNat ∧ c.toNat < o.dest.toNat + o.span) else o.dest == c && o.dest != 0xFF

/-- Whether a fixed-latency write to a register is not yet readable at clock u, those issued beside the reading clause apart (R340,
R341). -/
def Group.fixedShort (g : Group) (c : RegCode) (u beside : Nat) : Bool :=
  g.pendw.any (fun w => w.reg == c && decide (u < w.ready) && !besideOther w.beside beside)

/-- Whether a variable-latency result into a register is outstanding. `cross`: the lanes of the issuing run, for the A operand of a
cross-lane instruction, which does not see results of other runs (R341). -/
def Group.varShort (g : Group) (c : RegCode) (beside : Nat) (cross : Option (BitVec 64)) : Bool :=
  g.ops.any (fun o => o.writes c && !besideOther o.beside beside && (match cross with
    | some run => o.lanes &&& run != 0
    | none => true))

/-- Whether a read is not covered, where it is checked (R340, R341). -/
def Group.short (g : Group) (c : RegCode) (u beside : Nat) (cross : Option (BitVec 64)) : Bool :=
  g.fixedShort c u beside || g.varShort c beside cross

/-- Whether a write is out of turn (R342): an earlier fixed-latency write would become readable at the same clock or later, or a
variable-latency result is outstanding. A write of the clause beside it that becomes readable in the same clock is no such write (R252,
R261, log entry 48). `ready` is none for a variable-latency destination. -/
def Group.writeShort (g : Group) (c : RegCode) (ready : Option Nat) (beside : Nat) : Bool :=
  g.ops.any (fun o => o.writes c) || (match ready with
    | some r => g.pendw.any (fun w => w.reg == c && decide (r ≤ w.ready) && !(w.ready == r && besideOther w.beside beside))
    | none => false)

/-! Reads -/

/-- One lane as a read finds it under pending fixed-latency writes, the newest first: before or after each (R341). -/
def pickLane (f : Nat → Bool) (i : Nat) (cur : W32) : List PendW → Nat → W32
  | [], _ => cur
  | w :: ws, k =>
    if w.lanes.getLsbD i then (if f (64 * k + i) then pickLane f i (w.oldV.getD i 0) ws (k + 1) else cur)
    else pickLane f i cur ws (k + 1)

/-- A scalar register as a read finds it. -/
def pickScalar (f : Nat → Bool) (i : Nat) (cur : W64) : List PendW → Nat → W64
  | [], _ => cur
  | w :: ws, k => if f (64 * k + i) then pickScalar f i w.oldS ws (k + 1) else cur

/-- The pending fixed-latency writes to a register at clock u, newest first. -/
def Group.pendTo (g : Group) (c : RegCode) (u : Nat) : List PendW :=
  (g.pendw.filter (fun w => w.reg == c && decide (u < w.ready))).reverse

/-- The operations whose result into a register is outstanding. -/
def Group.opsTo (g : Group) (c : RegCode) : List Op := g.ops.filter (fun o => o.writes c)

/-- The word that a load's returned bytes give the r-th register of its destination (R218). -/
def loadedWord (bytes : List Byte) (r : Nat) : W32 := BitVec.ofNat 32 (ofBytesLE ((bytes.drop (4 * r)).take 4))

/-- What an outstanding result will write to a lane of a register, where it is known: the result of a special function, the lanes of a
load or an atomic that have returned (log entry 40). -/
def Op.known (o : Op) (c : RegCode) (i : Nat) : Option W32 :=
  let j := c.toNat - o.dest.toNat
  match o.kind with
  | .sfu res lanes _ => if lanes.getLsbD i then some (res.lane i) else none
  | .load _ _ _ _ _ _ _ _ got => match got.find? (fun p => p.1 == i) with
    | some p => if 4 * j < p.2.length then some (loadedWord p.2 j) else none
    | none => none
  | .atomic _ _ _ _ _ _ _ _ _ got => match got.find? (fun p => p.1 == i) with
    | some p => some (p.2.extractLsb' (32 * j) 32)
    | none => none
  | .atomp _ _ _ _ _ _ _ got => match got.find? (fun p => p.1 == i) with
    | some p => some (p.2.extractLsb' (32 * j) 32)
    | none => none
  | _ => none

/-- One lane as a read finds it under outstanding results, the oldest first: what stands, or what a known result writes (R341, R261). -/
def pickKnown (f : Nat → Bool) (c : RegCode) (i : Nat) (cur : W32) : List Op → Nat → W32
  | [], _ => cur
  | o :: os, base => pickKnown f c i (match o.known c i with
      | some x => if f (base + i) then x else cur
      | none => cur) os (base + 64)

/-- A register as a whole under pending fixed-latency writes, the newest first: before or after each (R273, R341). -/
def pickReg (f : Nat → Bool) (r : VReg) : List PendW → Nat → VReg × Nat
  | [], k => (r, k)
  | w :: ws, k => if f k then pickReg f ⟨w.oldT, w.oldV⟩ ws (k + 1) else (r, k + 1 + ws.length)

/-- What a register is once an operation's result has landed in it, as far as it is known: of a special function its lanes and its tag; any other
result makes it G (R292). -/
def Op.landedReg (o : Op) (r : VReg) : VReg :=
  match o.kind with
  | .sfu res lanes _ => ⟨res.tag, (List.range 64).map (fun i => if lanes.getLsbD i then res.lanes.getD i 0 else r.lanes.getD i 0)⟩
  | _ => ⟨.g, r.lanes⟩

/-- The same under outstanding results, the oldest first. -/
def pickOp (f : Nat → Bool) (r : VReg) : List Op → Nat → VReg
  | [], _ => r
  | o :: os, k => pickOp f (if f k then o.landedReg r else r) os (k + 1)

/-- A register as a whole under writes in flight: as it was before each of them, or as it is after (R261, R273, R341). -/
def pickWhole (f : Nat → Bool) (r : VReg) (ps : List PendW) (os : List Op) : VReg :=
  let x := pickReg f r ps 0
  pickOp f x.1 os x.2

/-- A vector register read at clock u: its lanes and its tag. Lanes that a write has not yet reached give the value before it or the one
after it (R341, R261). -/
def State.readVec (s : State) (gi : Nat) (c : RegCode) (u : Nat) : List W32 × Tag × State :=
  let g := s.grp gi
  let r := g.vreg c.toNat
  let ps := g.pendTo c u
  let os := g.opsTo c
  if ps.isEmpty && os.isEmpty then (r.lanes, r.tag, s)
  else
    let (f, s1) := s.drawN (65 * ps.length + 65 * os.length)
    let base := 64 * ps.length
    let v := (List.range 64).map (fun i => pickKnown f c i (pickLane f i (r.lane i) ps 0) os base)
    (v, tagIf (pickWhole (fun k => f (base + 64 * os.length + k)) r ps os).tag v, s1)

/-- A vector register read as a whole at clock u (R273): with a write in flight, as it was before it or as it is after it (R261, R341). -/
def State.readWhole (s : State) (gi : Nat) (c : RegCode) (u : Nat) : VReg × State :=
  let g := s.grp gi
  let ps := g.pendTo c u
  let os := g.opsTo c
  if ps.isEmpty && os.isEmpty then (g.vreg c.toNat, s)
  else
    let (f, s1) := s.drawN (ps.length + os.length)
    (pickWhole f (g.vreg c.toNat) ps os, s1)

/-- The status that an operation will write to its scalar register, where it is known already: one that has ended, an OBRES or OBREL, an MDRAIN, an
ABORT, and a commit that has passed its examination (R105, R302; log entry 40). -/
def Op.knownStatus (o : Op) : Option W64 :=
  match o.kind with
  | .ended x => some x
  | .obres _ st _ => some (BitVec.ofNat 64 st)
  | .mdrain st => some (BitVec.ofNat 64 st)
  | .abort _ => some 0
  | .commit sc examined => if examined || decide (3 ≤ sc) then some 0 else none
  | _ => none

/-- A scalar register as a read finds it under outstanding statuses, the oldest first: what stands, or what a known one writes (R341). -/
def pickStatus (f : Nat → Bool) (i : Nat) (cur : W64) : List Op → Nat → W64
  | [], _ => cur
  | o :: os, base => pickStatus f i (match o.knownStatus with
      | some x => if f (base + i) then x else cur
      | none => cur) os (base + 64)

/-- A scalar register read at clock u, once for each of n readers: before or after each write that is pending and each status that is outstanding
(R341). -/
def State.readScalars (s : State) (gi : Nat) (c : RegCode) (u : Nat) : (Nat → W64) × State :=
  let g := s.grp gi
  let x := g.sreg c
  let ps := g.pendTo c u
  let os := g.opsTo c
  if ps.isEmpty && os.isEmpty then (fun _ => x, s)
  else
    let (f, s1) := s.drawN (64 * ps.length + 64 * os.length)
    (fun i => pickStatus f (i % 64) (pickScalar f (i % 64) x ps 0) os (64 * ps.length), s1)

/-- A vector source operand (kind vs): 64 lanes and a tag (R214). -/
def State.readLanes (s : State) (gi : Nat) (c : RegCode) (u : Nat) : List W32 × Tag × State :=
  if isV c then s.readVec gi c u
  else if isS c then
    let (x, s1) := s.readScalars gi c u
    let v := (List.range 64).map (fun i => (x i).setWidth 32)
    (v, tagIf .u v, s1)
  else if c = 0xF1 then ((List.range 64).map (fun i => BitVec.ofNat 32 i), .a, s)
  else if c = 0xF2 then ((List.range 64).map (fun i => BitVec.ofNat 32 (i / 4)), .g, s)
  else (List.replicate 64 0, .u, s)

/-- A 64-bit operand (kinds ss and us) for the group; a vector register gives the value of the issuing lane, zero-extended (R212). -/
def State.readU (s : State) (gi : Nat) (c : RegCode) (u lane : Nat) : W64 × State :=
  if isV c then
    let r := s.readVec gi c u
    ((r.1.getD lane 0).setWidth 64, r.2.2)
  else if isS c then
    let r := s.readScalars gi c u
    (r.1 0, r.2)
  else (0, s)

/-- A 64-bit value in every lane of a span of two vector registers, of a scalar, or of `lane` or `quad` (kinds ga, md and vs at b64, R214). -/
def State.readPair (s : State) (gi : Nat) (c : RegCode) (u : Nat) : List W64 × State :=
  if isV c then
    let l := s.readVec gi c u
    let h := l.2.2.readVec gi (c + 1) u
    ((List.range 64).map (fun i => h.1.getD i 0 ++ l.1.getD i 0), h.2.2)
  else if isS c then
    let r := s.readScalars gi c u
    ((List.range 64).map r.1, r.2)
  else if c = 0xF1 then ((List.range 64).map (fun i => BitVec.ofNat 64 i), s)
  else if c = 0xF2 then ((List.range 64).map (fun i => BitVec.ofNat 64 (i / 4)), s)
  else (List.replicate 64 0, s)

/-- n consecutive vector registers read at clock u. -/
def State.readSpan (s : State) (gi : Nat) (c : RegCode) (u : Nat) : Nat → List (List W32) × State
  | 0 => ([], s)
  | n + 1 =>
    let r := s.readVec gi c u
    let rest := r.2.2.readSpan gi (c + 1) u n
    (r.1 :: rest.1, rest.2)

/-- Memory data of `bytes` bytes for each lane (R218): the low bytes of the registers, of a scalar, or zeros. -/
def State.readData (s : State) (gi : Nat) (c : RegCode) (u bytes : Nat) : List (List Byte) × State :=
  if isV c then
    let r := s.readSpan gi c u ((bytes + 3) / 4)
    ((List.range 64).map (fun i => (r.1.flatMap (fun l => bytesLE 4 (l.getD i 0).toNat)).take bytes), r.2)
  else if isS c then
    let r := s.readScalars gi c u
    ((List.range 64).map (fun i => (bytesLE 8 (r.1 i).toNat).take bytes), r.2)
  else (List.replicate 64 (List.replicate bytes 0), s)

/-! Writes -/

/-- The lanes of a register with those of a mask replaced. -/
def putLanes (old : List W32) (mask : BitVec 64) (vals : List W32) : List W32 :=
  (List.range 64).map (fun i => if mask.getLsbD i then vals.getD i 0 else old.getD i 0)

/-- A fixed-latency write to lanes of a vector register, readable from clock `ready`. Where an earlier write would land later, each
lane ends with either (R342). -/
def State.fixedV (s : State) (gi : Nat) (c : RegCode) (mask : BitVec 64) (vals : List W32) (tag : Tag) (ready beside : Nat)
    (array : Bool) : State :=
  let g := s.grp gi
  let r := g.vreg c.toNat
  let late := g.pendw.filter (fun w => w.reg == c && decide (ready < w.ready))
  let (f, s1) := if late.isEmpty then ((fun _ => false), s) else s.drawN 64
  let eff := laneMask (fun i => mask.getLsbD i && !(f i && late.any (fun w => w.lanes.getLsbD i)))
  let new := putLanes r.lanes eff vals
  let rdy := late.foldl (fun m w => max m w.ready) ready
  let t := if late.isEmpty then tag else tagIf tag new
  let (q, s2) := s1.fresh
  s2.modGrp gi (fun g => { g.setV c.toNat ⟨t, new⟩ with pendw := g.pendw ++ [⟨c, rdy, r.lanes, r.tag, 0, mask, beside, q, array⟩] })

/-- Whether the second of two clauses beside each other has a write to a register that becomes readable at a clock, and the clause that
writes now is the first (R252, R261). -/
def Group.secondWrites (g : Group) (c : RegCode) (ready beside : Nat) : Bool :=
  g.pendw.any (fun w => w.reg == c && w.ready == ready && besideOther w.beside beside && w.beside % 2 == 1)

/-- A fixed-latency write to a scalar register. Of two clauses beside each other whose writes become readable in one clock the second
run's value is kept (R252, R261). -/
def State.fixedS (s : State) (gi : Nat) (c : RegCode) (x : W64) (ready beside : Nat) : State :=
  let g := s.grp gi
  if g.secondWrites c ready beside then s
  else
  let old := g.sreg c
  let late := g.pendw.filter (fun w => w.reg == c && decide (ready < w.ready))
  let (f, s1) := if late.isEmpty then (false, s) else s.draw
  let rdy := late.foldl (fun m w => max m w.ready) ready
  let (q, s2) := s1.fresh
  s2.modGrp gi (fun g =>
    { g.setS c (if f then old else x) with pendw := g.pendw ++ [⟨c, rdy, [], .g, old, BitVec.allOnes 64, beside, q, false⟩] })

/-- Whether every fixed-latency write to a register that issued before an operation has landed by the core's clock (R342). -/
def State.landed (s : State) (gi : Nat) (o : Op) : Bool :=
  let g := s.grp gi
  !g.pendw.any (fun w => o.writes w.reg && decide (s.clk g.pkg < w.ready) && decide (w.seq < o.id))

/-- The pending writes that land after now, with the lanes that the result reaches beneath them, and its tag beneath the first (R258, R273). -/
def underPend (c : RegCode) (now : Nat) (mask : BitVec 64) (vals : List W32) (tag : Tag) (done : BitVec 64) : List PendW → List PendW
  | [] => []
  | w :: ws =>
    if w.reg == c && decide (now < w.ready) then
      let old := putLanes w.oldV (mask &&& ~~~done) vals
      { w with oldV := old, oldT := if done = 0 then tagIf tag old else w.oldT } :: underPend c now mask vals tag (done ||| w.lanes) ws
    else w :: underPend c now mask vals tag done ws

/-- A variable-latency result into lanes of a vector register, which becomes G: it overwrites what is readable by now, and lies beneath
fixed-latency writes that become readable later (R292, R342). -/
def State.landV (s : State) (gi : Nat) (c : RegCode) (mask : BitVec 64) (vals : List W32) (tag : Tag) : State :=
  let g := s.grp gi
  let now := s.clk g.pkg
  let later := g.pendw.filter (fun w => w.reg == c && decide (now < w.ready))
  let above := later.foldl (fun m w => m ||| w.lanes) 0#64
  let r := g.vreg c.toNat
  let new := putLanes r.lanes (mask &&& ~~~above) vals
  let t := if later.isEmpty then tag else tagIf r.tag new
  s.modGrp gi (fun g => { g.setV c.toNat ⟨t, new⟩ with pendw := underPend c now mask vals tag 0 g.pendw })

/-- A variable-latency result into a scalar register. -/
def State.landS (s : State) (gi : Nat) (c : RegCode) (x : W64) : State :=
  let g := s.grp gi
  let now := s.clk g.pkg
  let isLater := fun (w : PendW) => w.reg == c && decide (now < w.ready)
  if g.pendw.any isLater then
    s.modGrp gi (fun g => { g with pendw := match g.pendw.find? isLater with
      | some w0 => g.pendw.map (fun w => if w.seq = w0.seq then { w with oldS := x } else w)
      | none => g.pendw })
  else s.modGrp gi (fun g => g.setS c x)

/-- Offset of a scalar register in a save image (R352), and of the slot counts (R353). -/
def imScalar (c : RegCode) : Nat := 0x1C0 + 8 * sNum c
def imSlots : Nat := 0x98

/-- An operation with a scalar status ends: its status lands in the register, or in the image of a group that is saved or moving, and
its slot's count falls (R217, R355). While an earlier fixed-latency write to the register has still to land the operation stays, with
its status (R342). -/
def State.endStatus (s : State) (gi id : Nat) (x : W64) : State :=
  let g := s.grp gi
  match g.op id with
  | none => s
  | some o =>
    let stored := g.st == .saved || g.st == .moving
    if !stored && !s.landed gi o then s.modGrp gi (fun g => g.setOp id (fun o => { o with kind := .ended x }))
    else
      let s1 := if !isS o.dest then s else if stored then s.putPhys (g.image + imScalar o.dest) x else s.landS gi o.dest x
      let s2 := if stored && o.slot != 0 then s1.putPhys (g.image + imSlots) (s1.devWord .glob (g.image + imSlots) - (1#64 <<< (6 * (o.slot - 1))))
        else s1
      s2.modGrp gi (fun g => g.dropOp id)

/-- The status of an operation that has ended and waits only for an earlier write to its register to land. -/
def Op.ended? (o : Op) : Option W64 :=
  match o.kind with
  | .ended x => some x
  | _ => none

/-- Statuses whose registers' earlier writes have landed by now land too (R342). -/
def State.landStatuses (s : State) : State :=
  (s.grpsWhere (fun g => g.ops.any (fun o => o.ended?.isSome))).foldl (fun s gi =>
    (s.grp gi).ops.foldl (fun s o => match o.ended? with
      | some x => s.endStatus gi o.id x
      | none => s) s) s

/-! Latencies (R339) -/

/-- Whether an opcode lies in a range. -/
def opIn (op : BitVec 10) (lo hi : Nat) : Bool := decide (lo ≤ op.toNat ∧ op.toNat ≤ hi)

/-- The latency of an opcode's fixed-latency result. -/
def latency (op : BitVec 10) : Nat :=
  if opIn op 0x080 0x097 || opIn op 0x117 0x119 || op == 0x014 || op == 0x003 || op == 0x380 || op == 0x122 then 2
  else if opIn op 0x100 0x116 then 4
  else if opIn op 0x180 0x190 || op == 0x200 || op == 0x201 || op == 0x203 then 6
  else if opIn op 0x11A 0x121 || op == 0x202 || op == 0x210 then 8
  else 0

/-- The multiply class (R131): vector instructions that are array operations. -/
def isArrayOp (op : BitVec 10) : Bool := op == 0x182 || op == 0x183 || opIn op 0x18D 0x190

/-- The cross-lane instructions of R341. -/
def isCross (op : BitVec 10) : Bool := opIn op 0x11A 0x121

/-- Whether an instruction reads its D register. -/
def readsD : Instr → Bool
  | .smovh _ | .sbfi _ | .ibfi _ => true
  | .atomt o | .atomg o => o.c == 9
  | .atomp o => o.d != 0xFF
  | _ => false

/-- Register codes that an operand of a kind names. -/
def Kind.codes (k : Kind) (c : RegCode) : List RegCode :=
  match k with
  | .raw | .no => []
  | _ => if isV c then (List.range k.span).map (fun j => c + BitVec.ofNat 8 j) else if isS c then [c] else []

end Sys2Proof.Machine
end

