-- ==== Sys2Proof/Machine/Vault.lean ====
section
/-! DEFINITION. Vault routines (R109, R299, R380): up to 16 instructions of RV32IM run on one locked 128-byte line. The meaning of an
RV32IM instruction is that of the RISC-V unprivileged architecture, which the manual names and does not restate (PRESUMED, log
entry 12). -/

namespace Sys2Proof.Machine

/-- What a routine works on: registers x0 to x31, the line, and the offsets that stores have written. -/
structure Rv where
  x     : List W32
  line  : List Byte
  wrote : List Nat
  deriving DecidableEq, Repr

def Rv.get (m : Rv) (r : Nat) : W32 := if r = 0 then 0 else m.x.getD r 0
def Rv.set (m : Rv) (r : Nat) (v : W32) : Rv := if r = 0 then m else { m with x := setNth m.x r v }

/-- n bytes from an address taken modulo 128, byte by byte (R109). -/
def Rv.load (m : Rv) (a n : Nat) : Nat := ofBytesLE ((List.range n).map (fun k => m.line.getD ((a + k) % 128) 0))

def Rv.store (m : Rv) (a n : Nat) (v : W32) : Rv :=
  { m with
    line := (List.range n).foldl (fun l k => setNth l ((a + k) % 128) (BitVec.ofNat 8 (v.toNat >>> (8 * k)))) m.line
    wrote := m.wrote ++ (List.range n).map (fun k => (a + k) % 128) }

/-- Instruction fields. -/
def rvOp (w : W32) : Nat := bitsN w 6 0
def rvRd (w : W32) : Nat := bitsN w 11 7
def rvF3 (w : W32) : Nat := bitsN w 14 12
def rvRs1 (w : W32) : Nat := bitsN w 19 15
def rvRs2 (w : W32) : Nat := bitsN w 24 20
def rvF7 (w : W32) : Nat := bitsN w 31 25
def rvImmI (w : W32) : Int := sextI (bitsN w 31 20) 12
def rvImmS (w : W32) : Int := sextI (32 * bitsN w 31 25 + bitsN w 11 7) 12
def rvImmB (w : W32) : Int :=
  sextI (4096 * bitsN w 31 31 + 2048 * bitsN w 7 7 + 32 * bitsN w 30 25 + 2 * bitsN w 11 8) 13
def rvImmJ (w : W32) : Int :=
  sextI (2 ^ 20 * bitsN w 31 31 + 4096 * bitsN w 19 12 + 2048 * bitsN w 20 20 + 2 * bitsN w 30 21) 21

/-- Whether a word is an RV32IM instruction that R109 admits: no ECALL, EBREAK, FENCE, CSR access or JALR, and no backward branch or
jump; one of offset 0, to itself, counts as backward (log entry 53). -/
def rvAdmitted (w : W32) : Bool :=
  match rvOp w with
  | 0x37 | 0x17 => true
  | 0x6F => decide (0 < rvImmJ w)
  | 0x63 => (rvF3 w != 2 && rvF3 w != 3) && decide (0 < rvImmB w)
  | 0x03 => rvF3 w != 3 && decide (rvF3 w ≤ 5)
  | 0x23 => decide (rvF3 w ≤ 2)
  | 0x13 => if rvF3 w = 1 then rvF7 w == 0 else if rvF3 w = 5 then rvF7 w == 0 || rvF7 w == 0x20 else true
  | 0x33 => rvF7 w == 0 || rvF7 w == 1 || (rvF7 w == 0x20 && (rvF3 w == 0 || rvF3 w == 5))
  | _ => false

/-- Signed and unsigned values of a word. -/
def sI (x : W32) : Int := x.toInt

/-- The M extension. -/
def rvMul (f3 : Nat) (a b : W32) : W32 :=
  match f3 with
  | 0 => a * b
  | 1 => w32 ((sI a * sI b) / 2 ^ 32)
  | 2 => w32 ((sI a * (b.toNat : Int)) / 2 ^ 32)
  | 3 => BitVec.ofNat 32 (a.toNat * b.toNat / 2 ^ 32)
  | 4 => if b = 0 then 0xFFFFFFFF else w32 ((sI a).tdiv (sI b))
  | 5 => if b = 0 then 0xFFFFFFFF else BitVec.ofNat 32 (a.toNat / b.toNat)
  | 6 => if b = 0 then a else w32 ((sI a).tmod (sI b))
  | _ => if b = 0 then a else BitVec.ofNat 32 (a.toNat % b.toNat)

/-- The base instruction set's register arithmetic; `alt` is bit 30. -/
def rvAlu (f3 : Nat) (alt : Bool) (a b : W32) : W32 :=
  match f3 with
  | 0 => if alt then a - b else a + b
  | 1 => a <<< (b.toNat % 32)
  | 2 => if sI a < sI b then 1 else 0
  | 3 => if a.toNat < b.toNat then 1 else 0
  | 4 => a ^^^ b
  | 5 => if alt then a.sshiftRight (b.toNat % 32) else a >>> (b.toNat % 32)
  | 6 => a ||| b
  | _ => a &&& b

/-- A branch condition. -/
def rvBranch (f3 : Nat) (a b : W32) : Bool :=
  match f3 with
  | 0 => a == b
  | 1 => a != b
  | 4 => decide (sI a < sI b)
  | 5 => decide (sI b ≤ sI a)
  | 6 => decide (a.toNat < b.toNat)
  | _ => decide (b.toNat ≤ a.toNat)

/-- One instruction at a byte offset of the routine: the machine after it and the offset of the next. -/
def rvStep (m : Rv) (pc : Nat) (w : W32) : Rv × Nat :=
  let a := m.get (rvRs1 w)
  let b := m.get (rvRs2 w)
  let rd := rvRd w
  let here : W32 := Config.routineBase + BitVec.ofNat 32 pc
  match rvOp w with
  | 0x37 => (m.set rd (BitVec.ofNat 32 (bitsN w 31 12 * 4096)), pc + 4)
  | 0x17 => (m.set rd (here + BitVec.ofNat 32 (bitsN w 31 12 * 4096)), pc + 4)
  | 0x6F => (m.set rd (here + 4), pc + (rvImmJ w).toNat)
  | 0x63 => (m, if rvBranch (rvF3 w) a b then pc + (rvImmB w).toNat else pc + 4)
  | 0x03 =>
    let addr := (w32 (sI a + rvImmI w)).toNat
    let v := match rvF3 w with
      | 0 => w32 (sextI (m.load addr 1) 8)
      | 1 => w32 (sextI (m.load addr 2) 16)
      | 2 => BitVec.ofNat 32 (m.load addr 4)
      | 4 => BitVec.ofNat 32 (m.load addr 1)
      | _ => BitVec.ofNat 32 (m.load addr 2)
    (m.set rd v, pc + 4)
  | 0x23 =>
    let addr := (w32 (sI a + rvImmS w)).toNat
    (m.store addr (2 ^ rvF3 w) b, pc + 4)
  | 0x13 =>
    let imm := w32 (rvImmI w)
    (m.set rd (rvAlu (rvF3 w) (rvF3 w == 5 && rvF7 w == 0x20) a imm), pc + 4)
  | 0x33 =>
    (m.set rd (if rvF7 w = 1 then rvMul (rvF3 w) a b else rvAlu (rvF3 w) (rvF7 w == 0x20) a b), pc + 4)
  | _ => (m, pc + 4)

/-- A routine run from an offset: it ends past its last instruction. Branches go forward only, so each instruction runs at most once;
an offset that is no multiple of 4 ends it. -/
def rvRun (ws : List W32) (m : Rv) (pc : Nat) : Nat → Rv
  | 0 => m
  | n + 1 =>
    if pc % 4 ≠ 0 then m
    else match ws[pc / 4]? with
      | none => m
      | some w =>
        let r := rvStep m pc w
        rvRun ws r.1 r.2 n

/-- A routine on a line with a0 to a4 (R109, R299): the bytes it stored, and a0 and a1. -/
def runRoutine (ws : List W32) (line : List Byte) (a : List W32) : List (Option Byte) × W32 × W32 :=
  let x : List W32 := (List.range 32).map (fun r => if 10 ≤ r then a.getD (r - 10) 0 else 0)
  let m := rvRun ws ⟨x, line, []⟩ 0 16
  ((List.range 128).map (fun k => if m.wrote.contains k then m.line[k]? else none), m.get 10, m.get 11)

end Sys2Proof.Machine
end

