-- ==== Sys2Proof/Machine/Commit.lean ====
section
/-! DEFINITION. Commits, releases and atomics as they are performed (R97 to R109, R118 to R120, R298 to R302, R392, R435). -/

namespace Sys2Proof.Machine

/-- The scope of the commit step that an operation has still to make (R48): of a COMMIT or an ABORT, or of a release. A SPAWN's release
counts, which R48's list does not name (log entry 53). -/
def Op.commitStep (o : Op) : Option Nat :=
  match o.kind with
  | .commit sc _ => some sc
  | .abort sc => some sc
  | .storeRel sc _ => some sc
  | .atomic _ _ sc _ _ rel _ _ _ _ => if rel then some sc else none
  | .atomp _ _ _ rel _ _ _ _ => if rel then some 3 else none
  | .request rel => rel
  | .bulk rel => rel
  | .spawn _ _ rel => if rel then some 3 else none
  | .kick _ rel => if rel then some 3 else none
  | _ => none

/-- Whether an earlier commit step of the group is still to be made (R98, R120). -/
def Group.commitsBefore (g : Group) (id : Nat) : Bool := g.ops.any (fun o => decide (o.id < id) && o.commitStep.isSome)

/-- Whether an operation is one that a later release waits for (R120, R217, R310): an access, or an operation without a status. -/
def Op.awaited (o : Op) : Bool :=
  match o.kind with
  | .load .. | .store | .storePrivate | .storeRel .. | .atomic .. | .atomp .. | .kick .. | .prefetch .. | .mop .. | .obload .. | .failed _
  | .bulk _ | .mdrain .. => true
  | .commit .. | .abort .. | .request .. | .spawn .. | .obres .. => o.dest == 0xFF
  | .sfu .. | .ended _ => false

/-- Whether an operation is an acquire that has not returned its value (R119). -/
def Op.isAcquire (o : Op) : Bool :=
  match o.kind with
  | .load _ _ _ _ _ acq _ _ _ => acq
  | .atomic _ _ _ _ acq _ _ _ _ _ => acq
  | .atomp _ _ acq _ _ _ _ _ => acq
  | .failed acq => acq
  | _ => false

/-- Whether a group has an acquire that has not returned its value: no later access begins (R119). -/
def Group.acquiring (g : Group) : Bool := g.ops.any Op.isAcquire

/-- Whether an effect that leaves the group must wait (R114, R115): lines are unchecked, or one has failed its check. -/
def Group.indebted (g : Group) : Bool := !g.debt.isEmpty || g.owedInteg

/-- Whether an operation's commit step waits for an acquire before it (R119). -/
def Group.behindAcquire (g : Group) (id : Nat) : Bool := g.ops.any (fun o => decide (o.id < id) && o.isAcquire)

/-- The accesses that an operation has still to perform. -/
def Op.accs (o : Op) : List Acc :=
  match o.kind with
  | .load _ _ _ _ _ _ a _ got => a.filterMap (fun x =>
      let n := (lookupD got x.lane []).length
      if n < x.place.length then some { x with place := x.place.drop n } else none)
  | .atomic _ _ _ _ _ _ a _ _ _ => a
  | .atomp _ _ _ _ a _ _ _ => a
  | _ => []

/-- The space of an operation's accesses. -/
def Op.space (o : Op) : Space :=
  match o.kind with
  | .load _ _ sp _ _ _ _ _ _ => sp
  | .atomic sp _ _ _ _ _ _ _ _ _ => sp
  | _ => .glob

/-- The accesses with every byte that each may reach: an ATOMP's routine may read and write its whole line (R109). -/
def Op.reaches (o : Op) : List Acc :=
  match o.kind with
  | .atomp .. => o.accs.map (fun a => { a with place := (List.range 128).map (fun k => alignDown (a.place.headD 0) 128 + k) })
  | _ => o.accs

/-- Whether an operation is an LDW that has still to return a byte: what its sectors' watches stand for is not settled (R103, R130). -/
def Op.watching (o : Op) : Bool :=
  match o.kind with
  | .load kind _ _ _ _ _ _ _ _ => decide (3 ≤ kind) && !o.accs.isEmpty
  | _ => false

/-- Whether two accesses share a byte. -/
def Acc.meets (a b : Acc) : Bool := a.place.any (fun p => b.place.contains p)

/-- Whether an earlier operation of the same lane at the same place is still to be performed (R118). -/
def Group.laneBefore (g : Group) (id : Nat) (space : Space) (a : Acc) : Bool :=
  g.ops.any (fun o => decide (o.id < id) && o.space == space && o.reaches.any (fun x => x.lane == a.lane && x.meets a))

/-- The operations of a lane that have still to reach a place (R118). -/
def Group.pins (g : Group) (space : Space) (lane p : Nat) : List Nat :=
  (g.ops.filter (fun o => o.space == space && o.reaches.any (fun x => x.lane == lane && x.place.contains p))).map Op.id

/-- Whether an entry still waits for operations that come before it at its place (R118). -/
def State.pinned (s : State) (e : Esc) : Bool :=
  (s.grp e.owner).ops.any (fun o => e.after.contains o.id && o.space == e.space && o.reaches.any (fun x =>
    x.place.any (fun p => sectorOf p == e.sector)))

/-! Moving escrow -/

/-- The hub's egress escrow brought to its destinations, oldest first (R97). -/
def State.drainEgress (s : State) : State :=
  s.egress.foldl (fun s e => if s.egress.contains e then
    (({ s with egress := s.egress.erase e } : State).servedPage e.sector accWrite).sendEgress e else s) s

/-- The later commit step of the group that covers an entry standing at a level; 0 for none. -/
def Group.nextSeal (g : Group) (id : Nat) (level : Level) : Nat :=
  match g.ops.find? (fun o => decide (id < o.id) && (match o.commitStep, level with
    | some sc, .team => decide (2 ≤ sc)
    | some sc, .cluster => decide (3 ≤ sc)
    | some _, _ => true
    | none, _ => false)) with
  | some o => o.id
  | none => 0

/-- A marked entry translated again (R392): its entry now, or none where it is discarded or must wait. -/
def State.retranslate (s : State) (e : Esc) : State :=
  let g := s.grp e.owner
  match s.hubTr (g.pkg / 64) g.func e.va accWrite with
  | (.ok pa, s1) => { s1 with escrow := s1.escrow.map (fun x => if x = e then { e with sector := pa, marked := false } else x) }
  | (.page, s1) | (.space, s1) => s1.discardEsc e
  | (.hold, s1) => s1
  | (.absent, s1) =>
    if s1.hub.events.any (fun v => v.cls == evXfault && v.owner == some e.owner && v.waits.isSome &&
      alignDown (v.payload.getD 0 0).toNat 4096 == alignDown e.va 4096) then s1
    else s1.raiseXfault g.func e.va accWrite 0 (some e.owner) none (some e.va) g.name

/-- The groups whose loads have found an entry's bytes in escrow: its owner, from team level its team, from cluster level its cluster (R95). -/
def State.viewers (s : State) (e : Esc) : List Nat :=
  match e.level with
  | .priv | .group => [e.owner]
  | .team => s.grpsWhere (fun x => sameTeam (s.grp e.owner) x)
  | .cluster => s.grpsWhere (fun x => sameCluster (s.grp e.owner) x)

/-- The bytes that an entry holds, by place. -/
def Esc.bytes (e : Esc) : List (Nat × Byte) :=
  (enabled e.data).filterMap (fun k => (e.data.getD k none).map (fun b => (e.sector + k, b)))

/-- An entry's write at device scope, or at system scope where `sys`; the entry leaves escrow, and no near cache then serves an older byte to
those whose loads have found it there (R118, R121, R124). -/
def State.writeEsc (s : State) (sys : Bool) (e : Esc) : State :=
  let s0 := s.rekey (s.grp e.owner).func e.space ((enabled e.data).map (fun k => e.sector + k))
  let s1 := (s0.devWrite e.space e.sector e.data (some e.owner) sys).stampEgress s0 (fun x =>
    { x with owner := some (e.owner, (s.grp e.owner).sealOp e.sealId), va := e.va, func := some (s.grp e.owner).func })
  let s2 := if e.space = .glob then s1.outdate (s.viewers e) e.bytes else s1
  { s2 with escrow := s2.escrow.filter (fun x => x ≠ e) }

/-- An entry reaches device or system scope: onto a poisoned line the commit's entries land only where together they cover it, and are
dropped otherwise, the group owing INTEGRITY (R89, R419); a sector that is turned away is discarded (R389, R395, R435). `mine`: the entries of the commit. -/
def State.landEsc (s : State) (sys : Bool) (mine : Esc → Bool) (e : Esc) : State :=
  if !s.escrow.contains e then s
  else if s.poisoned e.space e.sector then
    let all := byAge (s.escrow.filter (fun x => mine x && x.space == e.space && (lineSectors e.space e.sector).contains x.sector))
    if coversLine all e.space e.sector then (all.foldl (fun s x => s.writeEsc sys x) s).unpoison e.space e.sector
    else ((all.foldl State.dropEsc s).modGrp e.owner (fun g => { g with owedInteg := true })).integRecord e.owner 1 e.va
  else if e.space == .glob && s.turnsAway (s.grp e.owner).func e.sector then s.discardEsc e
  else s.writeEsc sys e

/-- Whether an entry's line is absent: its commit waits (R88). -/
def State.absentEsc (s : State) (e : Esc) : Bool := e.space == .tile && s.absent.contains (alignDown e.sector 64)

/-- Whether an entry may move now: it is not to be translated again, comes after no operation still to be performed, and its line is
present (R88, R118, R392). -/
def State.movable (s : State) (re : Bool) (e : Esc) : Bool := !(re && e.marked) && !s.pinned e && !s.absentEsc e

/-- An OBLOAD outstanding that keeps a line of its source as the group sees it now: the group's later store leaves its level, and the line gives its
bytes from before that store or from after it, as a whole (R136, R348). -/
def State.keepLine (s : State) (g : Group) (line : Nat) (o : Op) : Op :=
  match o.kind with
  | .obload r off src len own =>
    if src ≤ line ∧ line < src + len then
      let under := fun (p : Nat) => (s.midByte g .tile p).getD (s.devByte .tile p)
      let new := ((List.range 64).map (fun k => line + k)).filter (fun p => !own.any (fun x => x.1 == p))
      { o with kind := .obload r off src len (own ++ new.map (fun p => (p, under p))) }
    else o
  | _ => o

/-- The lines of a group's outstanding OBLOADs that entries stand in, kept before the entries move. -/
def State.keepLines (s : State) (gi : Nat) (es : List Esc) : State :=
  let loading := (s.grp gi).ops.any (fun o => match o.kind with
    | .obload .. => true
    | _ => false)
  if !loading then s
  else
    let lines := dedupN ((es.filter (fun e => e.space == .tile)).map (fun e => alignDown e.sector 64))
    (lines.filter (fun l => !s.poison.contains l)).foldl (fun s l => s.modGrp gi (fun g => { g with ops := g.ops.map (s.keepLine g l) })) s

/-- Entries of a group moved up to a scope (R97, R99): those that satisfy `mine`, in the sectors of `sel` (all where it is empty), a sector
whole or not at all (R117), in the order of their stores; at team scope all at once. `re`: marked entries are translated again (R392). -/
def State.moveEscrow (s : State) (gi id scope : Nat) (sel : List Nat) (re : Bool) (mine : Esc → Bool) : State :=
  let chosen := fun (e : Esc) => mine e && (sel.isEmpty || scope == 1 || sel.contains e.sector)
  let s1 := if re then (s.escrow.filter (fun e => chosen e && e.marked && e.space == .glob)).foldl State.retranslate s else s
  let s2 := if scope = 4 then s1.drainEgress else s1
  let es := s2.escrow.filter chosen
  let ready := byAge (es.filter (fun e => es.all (fun x => x.space != e.space || x.sector != e.sector || s2.movable re x)))
  let s3 := s2.keepLines gi ready
  if scope = 1 then
    if es.all (fun e => ready.contains e) then
      ready.foldl (fun s e => s.raiseEsc e .team ((s.grp gi).nextSeal id .team)) s3
    else s2
  else if scope = 2 then ready.foldl (fun s e => s.raiseEsc e .cluster ((s.grp gi).nextSeal id .cluster)) s3
  else ready.foldl (fun s e => s.landEsc (scope == 4) mine e) s3

/-- The entries that an operation's commit step covers and that have not reached its scope. -/
def coveredBy (gi id scope : Nat) (e : Esc) : Bool := e.owner == gi && e.sealId == id && e.below scope

/-- A commit step of an operation: the state after it, and whether every covered entry has reached the scope. -/
def State.commitStep (s : State) (gi id scope : Nat) (sel : List Nat) (re : Bool) : State × Bool :=
  let s1 := s.moveEscrow gi id scope sel re (coveredBy gi id scope)
  (s1, !s1.escrow.any (coveredBy gi id scope))

/-- Entries below a scope discarded: those of an ABORT or of a failed commit (R101, R105). -/
def State.discardBelow (s : State) (gi : Nat) (mine : Esc → Bool) : State :=
  (s.escrow.filter (fun e => e.owner == gi && e.level != .priv && mine e)).foldl State.dropEsc s

/-- The watch set cleared. -/
def Group.unwatch (g : Group) : Group := { g with watch := [], wovf := false, whit := false }

/-- Whether a sector of the watch set has been hit, or stands as hit because it was watched before a save (R104, R334). -/
def Group.watchHit (g : Group) : Bool := g.whit || g.watch.any (fun w => w.hit)

/-- A release's steps 1 and 2 (R120), once integrity debt is zero (R114): whether its own access may be performed now. -/
def State.releaseStep (s : State) (gi id scope : Nat) (sel : List Nat) : State × Bool :=
  let g := s.grp gi
  if g.commitsBefore id || g.behindAcquire id || g.indebted || g.ops.any (fun o => decide (o.id < id) && o.awaited) then (s, false)
  else s.commitStep gi id scope sel true

/-- A COMMIT as far as it can go now (R301, R105): the sectors of `sel`. It is examined once the group's LDWs before it have returned, so that a hit
between is found (R130). A team commit is examined once it can be published at once, so that
commits of one team are performed one at a time. A commit to cluster scope is examined once every one of its cluster that was examined before
it has been published (R130, log entry 61). -/
def State.runCommit (s : State) (gi id : Nat) (sel : List Nat) : State :=
  let g := s.grp gi
  match g.op id with
  | some ⟨_, _, _, _, _, _, .commit scope examined⟩ =>
    let cluster := scope == 2 && !examined && (s.grpsWhere (fun x => sameCluster x g)).any (fun j =>
      decide (j ≠ gi) && (s.grp j).ops.any (fun o => match o.kind with
        | .commit 2 true => true
        | _ => false))
    let team := scope == 1 && !(s.escrow.filter (coveredBy gi id 1)).all (s.movable false)
    let reading := decide (scope ≤ 2) && !examined && g.ops.any (fun o => decide (o.id < id) && o.watching)
    if g.commitsBefore id || g.behindAcquire id || g.indebted || cluster || team || reading then s
    else if scope ≤ 2 ∧ examined = false ∧ (g.wovf = true ∨ g.watchHit = true) then
      let st := if g.wovf then stWatchfull else stConflict
      ((s.discardBelow gi (coveredBy gi id scope)).modGrp gi Group.unwatch).endStatus gi id (BitVec.ofNat 64 st)
    else
      let s1 := if scope ≤ 2 ∧ examined = false then
          s.modGrp gi (fun g => g.unwatch.setOp id (fun o => { o with kind := .commit scope true }))
        else s
      let r := s1.commitStep gi id scope sel (decide (2 ≤ scope))
      if r.2 then r.1.endStatus gi id (BitVec.ofNat 64 stOk) else r.1
  | _ => s

/-- An ABORT when its turn comes (R302). -/
def State.runAbort (s : State) (gi id : Nat) : State :=
  let g := s.grp gi
  match g.op id with
  | some ⟨_, _, _, _, _, _, .abort scope⟩ =>
    if g.commitsBefore id then s
    else ((s.discardBelow gi (coveredBy gi id scope)).modGrp gi Group.unwatch).endStatus gi id (BitVec.ofNat 64 stOk)
  | _ => s

/-! Loads, stores and atomics -/

/-- An operation ends: its slot's count falls. -/
def State.endOp (s : State) (gi id : Nat) : State := s.modGrp gi (fun g => g.dropOp id)

/-- An operation fails its integrity check: its slot stays until the group's INTEGRITY trap (R294). -/
def State.failOp (s : State) (gi id : Nat) : State :=
  s.modGrp gi (fun g => { g.setOp id (fun o => { o with kind := .failed o.isAcquire }) with owedInteg := true })

/-- A memory operation meets a poisoned line: the group owes INTEGRITY, nothing is written, and the operation's slot stays until the trap
(R89, R115, R294, R419). -/
def State.integOp (s : State) (gi id addr : Nat) : State := (s.failOp gi id).integRecord gi 1 addr

/-- A group without the operations that met poisoned lines. -/
def Group.dropFailed (g : Group) : Group := { g with ops := g.ops.filter (fun o => match o.kind with
    | .failed _ => false
    | _ => true) }

/-- A releasing store as far as it can go now (R120, R296). -/
def State.runStoreRel (s : State) (gi id : Nat) (sel : List Nat) : State :=
  match (s.grp gi).op id with
  | some ⟨_, _, _, _, _, _, .storeRel scope own⟩ =>
    let r := s.releaseStep gi id scope sel
    if !r.2 then r.1
    else
      let r2 := r.1.commitStep gi own scope sel true
      if r2.2 then r2.1.endOp gi id else r2.1
  | _ => s

/-- The group's own private stores that an atomic of it meets at its places: they are visible to it at once, and are no escrow (R85, R107). -/
def State.privMet (s : State) (gi : Nat) (space : Space) (ps : List Nat) : List Esc :=
  if space = .glob then
    s.escrow.filter (fun e => e.owner == gi && e.level == .priv && !e.marked && ps.any (fun p => (e.byte .glob p).isSome))
  else []

/-- Whether such a store must come behind an operation that is still to be performed (R118): the atomic waits with it. -/
def State.privWaits (s : State) (gi : Nat) (space : Space) (ps : List Nat) : Bool := (s.privMet gi space ps).any s.pinned

/-- The private stores that an atomic meets brought to their line before it, so that it finds their bytes and no later commit overwrites its
result; to other groups they were old or new until now (R85). -/
def State.landOwnPriv (s : State) (gi : Nat) (space : Space) (ps : List Nat) : State := (s.privMet gi space ps).foldl (fun s e => s.writeEsc false e) s

/-- A lane's operation at its point (R298): the old value, and the state after it. Lines of host, CXL and fabric memory are reached at
their destination (R106). Another group's private store that has not reached its line comes after it: of the two orders that R85 allows the model
takes this one (log entry 67). -/
def State.atomAt (s : State) (gi : Nat) (space : Space) (op scope width : Nat) (place : Nat) (b x : W64) : W64 × State :=
  let n := 2 ^ width
  let func := (s.grp gi).func
  let ps := (List.range n).map (fun k => place + k)
  let s0 := s.landOwnPriv gi space ps
  let m := ofBytesLE (s0.seenRead func space place n)
  let mask := 2 ^ (8 * n)
  let seen := fun (v : Nat) (t : State) => if space = .glob then t.outdate [gi] (ps.zip (bytesLE n v)) else t
  match atomVal op (8 * n) m (b.toNat % mask) (x.toNat % mask) with
  | some v =>
    let s1 := s0.rekey func space ps
    (BitVec.ofNat 64 m, seen v (s1.devWriteBytes space place (bytesLE n v) (some gi) (scope == 4 || regionOf place != 0)))
  | none => (BitVec.ofNat 64 m, seen m s0)

/-- Values of 32 or 64 bits written to lanes of one or two registers (R292), with tag G. -/
def State.landWide (s : State) (gi : Nat) (c : RegCode) (width : Nat) (vals : List (Nat × W64)) : State :=
  let mask := maskOf (vals.map Prod.fst)
  let at_ := fun (i : Nat) => lookupD vals i 0
  let s1 := s.landV gi c mask ((List.range 64).map (fun i => (at_ i).setWidth 32)) .g
  if width = 3 then s1.landV gi (c + 1) mask ((List.range 64).map (fun i => (at_ i).extractLsb' 32 32)) .g else s1

/-- One lane of an atomic performed where it can be: absent lines wait (R88), a poisoned line is an integrity failure (R89), an
access that is turned away is not performed (R395, R435). -/
def State.atomLane (s : State) (gi id lane : Nat) : State :=
  let g := s.grp gi
  match g.op id with
  | some o =>
    match o.kind with
    | .atomic space op scope width acq rel accs b x got =>
      match accs.find? (fun a => a.lane == lane) with
      | none => s
      | some a =>
        let p := a.place.headD 0
        let rest := accs.filter (fun a => a.lane ≠ lane)
        let store := fun (got : List (Nat × W64)) (g : Group) =>
          g.setOp id (fun o => { o with kind := .atomic space op scope width acq rel rest b x got })
        if space == .tile && s.absent.contains (alignDown p 64) then s
        else if g.laneBefore id space a || s.privWaits gi space a.place then s
        else if s.poisoned space p then s.integOp gi id a.addr
        else if space == .glob && s.turnsAway g.func p then ((s.modGrp gi (store got)).modGrp gi (fun g => g.owePage id a.addr (s.turnedCode p accAtomic))).servedPage p accAtomic
        else
          let r := s.atomAt gi space op scope width p (b.getD lane 0) (x.getD lane 0)
          r.2.modGrp gi (store (got ++ [(lane, r.1)]))
    | _ => s
  | none => s

/-- An atomic whose lanes are all performed returns its old values and ends, once the earlier writes to its registers have landed (R342);
with `.acq` it is then an acquire (R298, R119). -/
def State.endAtomic (s : State) (gi id : Nat) : State :=
  match (s.grp gi).op id with
  | none => s
  | some o =>
    let close := fun (scope width : Nat) (acq : Bool) (got : List (Nat × W64)) =>
      let s1 := if o.dest = 0xFF then s else s.landWide gi o.dest width got
      let s2 := s1.endOp gi id
      if acq then s2.acquire gi scope else s2
    if !s.landed gi o then s
    else match o.kind with
      | .atomic _ _ scope width acq _ [] _ _ got => close scope width acq got
      | .atomp _ width acq _ [] _ _ got => close 3 width acq got
      | _ => s

/-- An operation's release made: its commit step is behind it. -/
def Op.released (o : Op) : Op :=
  { o with kind := match o.kind with
      | .atomic sp op sc w acq _ a b x got => .atomic sp op sc w acq false a b x got
      | .atomp sl w acq _ a b x got => .atomp sl w acq false a b x got
      | .request _ => .request none
      | .bulk _ => .bulk none
      | .spawn a p _ => .spawn a p false
      | .kick l _ => .kick l false
      | k => k }

/-- The release of an operation other than a store, where it has one, as far as it can go: of the covered sectors those of `sel` (all where it is empty). An
effect that leaves the group waits for integrity debt (R114). -/
def State.atomRelease (s : State) (gi id : Nat) (sel : List Nat) : State × Bool :=
  match (s.grp gi).op id with
  | none => (s, false)
  | some o => match o.commitStep with
    | none => (s, !(s.grp gi).behindAcquire id && !(s.grp gi).indebted)
    | some sc =>
      let r := s.releaseStep gi id sc sel
      if r.2 then (r.1.modGrp gi (fun g => g.setOp id Op.released), true) else r

/-- An atomic's lanes performed in an order, or all that remain in ascending order (R300). -/
def State.runAtomic (s : State) (gi id : Nat) (order : List Nat) : State :=
  let r := s.atomRelease gi id []
  if !r.2 then r.1
  else match (r.1.grp gi).op id with
    | none => r.1
    | some o =>
      let lanes := if order.isEmpty then o.accs.map Acc.lane else order
      (lanes.foldl (fun s i => s.atomLane gi id i) r.1).endAtomic gi id

/-- The routine of a slot of a world's table (R109, R380). -/
def State.routineOf (s : State) (func slot : Nat) : Option (List (BitVec 32)) :=
  (s.hub.routines.find? (fun r => r.1 == func && r.2.1 == slot)).map (fun r => r.2.2)

/-- One lane of an ATOMP: its line locked, the routine run, its stores visible together (R109, R299). -/
def State.atompLane (s : State) (gi id lane : Nat) : State :=
  let g := s.grp gi
  match g.op id with
  | some o =>
    match o.kind with
    | .atomp slot width acq rel accs b x got =>
      match accs.find? (fun a => a.lane == lane) with
      | none => s
      | some a =>
        let p := a.place.headD 0
        let line := alignDown p 128
        let rest := accs.filter (fun a => a.lane ≠ lane)
        let ps := (List.range 128).map (fun k => line + k)
        if g.laneBefore id .glob { a with place := ps } || s.privWaits gi .glob ps then s
        else if s.poisoned .glob p then s.integOp gi id a.addr
        else if s.turnsAway g.func p then
          s.modGrp gi (fun g => (g.setOp id (fun o => { o with kind := .atomp slot width acq rel rest b x got })).owePage id a.addr (s.turnedCode p accAtomic)) |>.servedPage p accAtomic
        else
          let bv := b.getD lane 0
          let xv := x.getD lane 0
          let s0 := s.landOwnPriv gi .glob ps
          let r := runRoutine ((s.routineOf g.func slot).getD []) (s0.devRead .glob line 128)
            [BitVec.ofNat 32 (p - line), bv.setWidth 32, bv.extractLsb' 32 32, xv.setWidth 32, xv.extractLsb' 32 32]
          let s1 := (List.range 4).foldl (fun s k =>
            s.devWrite .glob (line + 32 * k) ((r.1.drop (32 * k)).take 32) (some gi) false) s0
          let res : W64 := r.2.2 ++ r.2.1
          let mine := (List.range 128).filterMap (fun k => (r.1.getD k none).map (fun b => (line + k, b)))
          (s1.outdate [gi] mine).modGrp gi (fun g => g.setOp id (fun o => { o with kind := .atomp slot width acq rel rest b x (got ++ [(lane, res)]) }))
    | _ => s
  | none => s

/-- An ATOMP's lane run, with its release before the first and its end after the last (R298). -/
def State.runAtomp (s : State) (gi id : Nat) (lanes : List Nat) : State :=
  let r := s.atomRelease gi id []
  if !r.2 then r.1 else (lanes.foldl (fun s i => s.atompLane gi id i) r.1).endAtomic gi id

end Sys2Proof.Machine
end

