-- ==== Sys2Proof/Machine/Buffer.lean ====
section
/-! DEFINITION. The operand buffer and the multiplier array (R131 to R142, R150, R176, R177): records and their ranges, the block of a
MOP, and the completion of MOP, OBLOAD and the window read of MDRAIN. -/

namespace Sys2Proof.Machine

/-! Records (R133) -/

def obValid (r : W64) : Bool := bitAt r 63
def obBase (r : W64) : Nat := bitsN r 62 51
def obLen (r : W64) : Nat := bitsN r 50 38
def obFmt (r : W64) : Nat := bitsN r 37 34
/-- Elements in one scale block: 48, or 16 where BLK is set. -/
def obBlock (r : W64) : Nat := if bitAt r 33 then 16 else 48
def obKMajor (r : W64) : Bool := bitAt r 32
def obSoff (r : W64) : Nat := bitsN r 31 19
def obScnt (r : W64) : Nat := bitsN r 17 8
/-- K: elements of each of the 64 vectors (R134). -/
def obK (r : W64) : Nat := obScnt r * obBlock r

/-- Bits of an element of a format code of R133. -/
def obBits (fmt : Nat) : Nat := if fmt ≤ 2 then 16 else if fmt = 5 then 4 else 8

/-- Whether a descriptor meets the tests of R133, R134 and R318; otherwise OBRANGE. -/
def obDescOk (x : W64) : Bool :=
  !obValid x && obBase x == 0 && !bitAt x 18 && bitsN x 7 0 == 0 &&
  decide (1 ≤ obLen x ∧ obLen x ≤ 4096 ∧ 1 ≤ obScnt x) && obK x % 48 == 0 &&
  decide (64 * obK x * obBits (obFmt x) ≤ 64 * obSoff x * 8 ∧ obSoff x + obScnt x ≤ obLen x ∧ 1 ≤ obFmt x ∧ obFmt x ≤ 7)

/-- The lines that a group's valid records hold (R132). -/
def Group.ranges (g : Group) : List (Nat × Nat) := (g.obrec.filter obValid).map (fun r => (obBase r, obLen r))

/-- Whether n lines from c on meet no range. -/
def clearOf (used : List (Nat × Nat)) (c n : Nat) : Bool := used.all (fun r => decide (c + n ≤ r.1 ∨ r.1 + r.2 ≤ c))

/-- The first free run of n lines, lowest first: it starts at 0 or where a range ends (R135). -/
def firstRun (used : List (Nat × Nat)) (n : Nat) : Option Nat :=
  (sortBy (fun a b => decide (a < b)) (0 :: used.map (fun r => r.1 + r.2))).find? (fun c =>
    decide (c + n ≤ Config.opbufLines) && clearOf used c n)

/-- Ranges of a quarter in use, those of one group's record apart. -/
def State.usedLines (s : State) (pkg q : Nat) : List (Nat × Nat) :=
  (s.inQuarter pkg q).flatMap (fun g => (s.grp g).ranges) ++
  (s.hub.moves.filter (fun m => m.pkg == pkg)).flatMap (fun m =>
    (m.lines.filter (fun l => m.groups.contains l.1 && (s.grp l.1).qtr == q)).map Prod.snd)

/-- The place of a line of a quarter's operand buffer. -/
def obPlace (pkg q line : Nat) : Nat := ((pkg * 4 + q) * Config.opbufLines + line) * 64

/-- Bytes of the operand buffer set to zero. -/
def State.clearBuf (s : State) (a n : Nat) : State :=
  { s with opbuf := ⟨s.opbuf.cells.filter (fun c => decide (c.1 < a ∨ a + n ≤ c.1))⟩ }

/-- The lines of a range tagged with a world (R398). -/
def State.tagBuf (s : State) (a n func : Nat) : State :=
  { s with opOwn := (List.range n).foldl (fun l k => setKey l (a / 64 + k) func) s.opOwn }

/-- One element of a range (R134): vector v, index t. -/
def State.obElem (s : State) (base : Nat) (r : W64) (v t : Nat) : Nat :=
  let n := if obKMajor r then 64 * t + v else v * obK r + t
  match obBits (obFmt r) with
  | 16 => ofBytesLE (s.opbuf.read (base + 2 * n) 2)
  | 4 => natBits (s.opbuf.get (base + n / 2)).toNat (4 * (n % 2) + 3) (4 * (n % 2))
  | _ => (s.opbuf.get (base + n)).toNat

/-- The scale byte of vector v for index t (R134). -/
def State.obScale (s : State) (base : Nat) (r : W64) (v t : Nat) : Nat :=
  (s.opbuf.get (base + 64 * obSoff r + 64 * (t / obBlock r) + v)).toNat

/-- The format of a record's code (R133): INT8 for 7. -/
def obFormat (fmt : Nat) : Fmt := (Fmt.ofCode fmt).getD .e4m3

/-- An element's value under its scale byte (R173): 0xFF makes it NaN. -/
def scaledVal (f : Fmt) (code scale : Nat) : Val :=
  if scale = 255 then .nan else scaleVal (decodeVal f code) ((scale : Int) - 127)

/-- Whether a pair of formats is one of R139. -/
def pairOk (a b : Nat) : Bool :=
  (decide (3 ≤ a ∧ a ≤ 6) && decide (3 ≤ b ∧ b ≤ 6)) || (a == b && (a == 7 || a == 2 || a == 1))

/-- One accumulator after a block (R140, R141): INT8 exactly modulo 2^32; BF16 and FP16 by the aligned sum; the others exact, rounded
once. A NaN among the elements makes the products' sum a NaN, which no infinity in the accumulator then meets. -/
def State.mopCell (s : State) (ba bb : Nat) (ra rb : W64) (b i j : Nat) (acc : W32) : W32 × Flags :=
  let ts := (List.range 48).map (fun t => 48 * b + t)
  if obFmt ra = 7 then
    (w32 (ts.foldl (fun x t => x + sextI (s.obElem ba ra i t) 8 * sextI (s.obElem bb rb j t) 8) acc.toInt), 0)
  else
    let ps := ts.map (fun t => mulVal (scaledVal (obFormat (obFmt ra)) (s.obElem ba ra i t) (s.obScale ba ra i t))
      (scaledVal (obFormat (obFmt rb)) (s.obElem bb rb j t) (s.obScale bb rb j t)))
    let bad := ps.any (fun p => p.2 != 0)
    if obFmt ra ≤ 2 then alignedSum (f32 acc :: ps.map Prod.fst) bad
    else if bad then (nan32, fNV)
    else if (ps.map Prod.fst).any Val.isNan && !bothInf (ps.map Prod.fst) then (nan32, 0)
    else fRound (sumVals (f32 acc :: ps.map Prod.fst) false) .rne false

/-- The place of a record's range. -/
def Group.obRange (g : Group) (n : Nat) : Nat := obPlace g.pkg g.qtr (obBase (g.obrec.getD n 0))

/-- Block b accumulated: accumulator (i, j) is lane i of v[w + j] (R138). -/
def State.mopBlock (s : State) (gi b : Nat) : State :=
  let g := s.grp gi
  let ra := g.obrec.getD g.arec 0
  let rb := g.obrec.getD g.brec 0
  let ba := g.obRange g.arec
  let bb := g.obRange g.brec
  let cols := (List.range 64).map (fun j =>
    (List.range 64).map (fun i => s.mopCell ba bb ra rb b i j ((g.vreg (g.wbase + j)).lane i)))
  let flags : Flags := cols.foldl (fun f c => c.foldl (fun f p => f ||| p.2) f) 0
  s.modGrp gi (fun g =>
    let v := (List.range g.v.length).map (fun n =>
      if g.wbase ≤ n ∧ n < g.wbase + 64 then ⟨.g, (cols.getD (n - g.wbase) []).map Prod.fst⟩ else g.vreg n)
    { (g.orFlags flags) with v := v, acc := .other })

/-- Whether a group has a MOP earlier than an operation that is not complete (R150). -/
def Group.mopBefore (g : Group) (id : Nat) : Bool := g.ops.any (fun o => decide (o.id < id) && (match o.kind with
  | .mop _ => true
  | _ => false))

/-- Whether an OBLOAD into a record is not complete (R136). -/
def Group.loading (g : Group) (rec : Nat) : Bool := g.ops.any (fun o => match o.kind with
  | .obload r _ _ _ _ => r == rec
  | _ => false)

/-- Whether the window read of an MDRAIN is still to come (R150): it issued with a place in a queue. -/
def Group.draining (g : Group) : Bool := g.ops.any (fun o => match o.kind with
  | .mdrain st => st == stOk
  | _ => false)

/-- Whether a MOP of the group has not completed (R145, R147). -/
def Group.multiplying (g : Group) : Bool := g.ops.any (fun o => match o.kind with
  | .mop _ => true
  | _ => false)

/-- A queue with its entries in order of entry (R306, R310): an entry enters once its acknowledgement has come and its release or window
read is done, after every earlier entry of its group; entries that have not yet entered follow in order of issue. -/
def enterQueue (q : List Entry) : List Entry :=
  let r := q.foldl (fun (acc : List Entry × List Entry) e =>
    if !e.awaitAck && e.rel == 0 && !acc.2.any (fun x => x.func == e.func && x.name == e.name) then (acc.1 ++ [e], acc.2)
    else (acc.1, acc.2 ++ [e])) ([], [])
  r.1 ++ r.2

/-- The MOP at the head of a quarter's array queue completes (R131, R142). -/
def State.runMop (s : State) (pkg q : Nat) : State :=
  match (s.quarter pkg q).arrayQ with
  | [] => s
  | (gi, id) :: _ =>
    let s1 := s.modQuarter pkg q (fun x => { x with arrayQ := x.arrayQ.drop 1 })
    match (s1.grp gi).op id with
    | some ⟨_, _, _, _, _, _, .mop b⟩ => (s1.mopBlock gi b).endOp gi id
    | _ => s1

/-- Whether an earlier OBLOAD of the group into the same bytes of a record is not complete (R136). -/
def Group.loadBefore (g : Group) (id rec off len : Nat) : Bool := g.ops.any (fun o => decide (o.id < id) && (match o.kind with
  | .obload r f _ n _ => r == rec && decide (f < off + len ∧ off < f + n)
  | _ => false))

/-- An OBLOAD completes (R136): after the array operations that read its range, earlier OBLOADs into its bytes, and acquires before it; it waits
for absent lines unless every byte is the group's own (R88), and a poisoned one is an integrity failure. Of the group's own stores after it,
each line has all or none (R348). -/
def State.runObload (s : State) (gi id : Nat) : State :=
  let g := s.grp gi
  match g.op id with
  | some ⟨_, _, _, _, _, _, .obload rec off src len own⟩ =>
    let lines := (List.range (len / 64)).map (fun k => src + 64 * k)
    let allOwn := (List.range len).all (fun k => own.any (fun x => x.1 == src + k))
    if g.behindAcquire id || g.loadBefore id rec off len || (g.mopBefore id && g.mm && (rec == g.arec || rec == g.brec)) ||
      (!allOwn && lines.any (fun l => s.absent.contains l)) then s
    else if lines.any (fun l => s.poison.contains l) then s.integOp gi id src
    else
      let (f, s1) := s.drawN lines.length
      let bytes := (List.range len).map (fun k =>
        let p := src + k
        let mine := if f (k / 64) then s.ownByte gi .tile p else lookupD (own.map (fun x => (x.1, some x.2))) p none
        match mine with
        | some b => b
        | none => match s.midByte g .tile p with
          | some b => b
          | none => s.devByte .tile p)
      ({ s1 with opbuf := s1.opbuf.write (g.obRange rec + off) bytes }).endOp gi id
  | _ => s

/-- The window read of an MDRAIN (R150, R323): after every earlier MOP, and only while no line is in integrity debt (R114); its entry may then start, and its status is OK. -/
def State.runMdrain (s : State) (gi id : Nat) : State :=
  let g := s.grp gi
  match g.op id with
  | some ⟨_, _, _, _, _, _, .mdrain st⟩ =>
    if st ≠ stOk then s.endStatus gi id (BitVec.ofNat 64 st)
    else if g.mopBefore id || g.indebted then s
    else
      let acc := (List.range 64).map (fun j => g.vreg (g.wbase + j))
      let fill := fun (e : Entry) => if e.rel = id then
          match e.kind with
          | .drain _ i t a x m r c sh => { e with rel := 0, kind := .drain acc i t a x m r c sh }
          | _ => e
        else e
      (s.modCore g.pkg (fun c => { c with queues := c.queues.map (fun q => enterQueue (q.map fill)) })).endStatus gi id (BitVec.ofNat 64 stOk)
  | _ => s

end Sys2Proof.Machine
end

