-- ==== Sys2Proof/Machine/Complete.lean ====
section
/-! DEFINITION. Completions of loads, SFU results and kick stores (R92, R112, R113, R117 to R119, R288, R293 to R297, R435), and the
settling of a group's operations at a halt (R402, R403). -/

namespace Sys2Proof.Machine

/-- A list cut into pieces of at most eight: the naturally aligned elements of an access (R117). -/
def elements : List Nat → List (List Nat)
  | p0 :: p1 :: p2 :: p3 :: p4 :: p5 :: p6 :: p7 :: rest => [p0, p1, p2, p3, p4, p5, p6, p7] :: elements rest
  | [] => []
  | l => [l]

/-- Whether a line reaches the group's registers before its packet's tag is checked (R113): from another core's slice, another die's
home, or host, CXL or fabric memory. -/
def remoteLine (pkg : Nat) (space : Space) (p : Nat) : Bool :=
  match space with
  | .tile => p / Config.sliceBytes != pkg
  | .glob => regionOf p != 0 || homeSlice p / 64 != pkg / 64

/-- The line of a place. -/
def lineOf (space : Space) (p : Nat) : Nat :=
  match space with
  | .tile => alignDown p 64
  | .glob => alignDown p 128

/-- A group's integrity debt with a line added. -/
def Group.addDebt (g : Group) (space : Space) (line : Nat) : Group :=
  if g.debt.contains ⟨space, line⟩ then g else { g with debt := g.debt ++ [⟨space, line⟩] }

/-- The bytes of one lane of a load: the group's own bytes taken at issue, over the elements' bytes of the layers below (R95). -/
def State.laneBytes (s : State) (gi : Nat) (space : Space) (own : List (Nat × Byte)) (near : Bool) (place : List Nat) :
    List Byte × State :=
  (elements place).foldl (fun acc ps =>
    let r := acc.2.loadElem gi space ps near
    (acc.1 ++ (ps.zip r.1).map (fun x => lookupD own x.1 x.2), r.2)) ([], s)

/-- One lane of a load whose data returns (R294): all of it, or, unless `whole`, the next of its elements (R117). It waits for earlier
accesses of its lane, for an acquire before it, and for absent lines unless every byte of the whole load is the group's own (R88); a poisoned line is an
integrity failure (R89); a fenced lane's destination is not written. A line of fabric memory is never served by the near cache, since
loads of it are of system scope (R92, R431). -/
def State.loadLane (s : State) (gi id : Nat) (near whole : Bool) (lane : Nat) : State :=
  let g := s.grp gi
  match g.op id with
  | some o =>
    match o.kind with
    | .load kind mod space scope width acq accs own got =>
      match o.accs.find? (fun a => a.lane == lane) with
      | none => s
      | some a =>
        let had := lookupD got lane []
        let others := got.filter (fun p => p.1 ≠ lane)
        let rest := a.place.drop had.length
        let below := rest.filter (fun p => !own.any (fun x => x.1 == p))
        let setKind := fun (accs : List Acc) (got : List (Nat × List Byte)) (g : Group) =>
          g.setOp id (fun o => { o with kind := .load kind mod space scope width acq accs own got })
        let turned := (below.find? (fun p => s.turnsAway g.func p)).getD 0
        let serves := near && kind == 2 && decide (scope ≤ 2) && !(acq && scope == 2) && !below.any (fun p => regionOf p == 3)
        let cached := fun (p : Nat) => serves && ((s.core g.pkg).nearByte gi g.func p).isSome
        let allOwn := accs.all (fun x => x.place.all (fun p => own.any (fun y => y.1 == p)))
        if g.laneBefore id space a || g.behindAcquire id then s
        else if space == .tile && !allOwn && rest.any (fun p => s.absent.contains (alignDown p 64)) then s
        else if let some p := rest.find? (fun p => s.poisoned space p) then s.integOp gi id (g.accVa kind a p)
        else if space == .glob && below.any (fun p => !cached p && s.turnsAway g.func p) then
          (s.modGrp gi (setKind (accs.filter (fun x => x.lane ≠ lane)) others)).modGrp gi (fun g => g.owePage id (g.accVa kind a turned) (s.turnedCode turned accRead)) |>.servedPage turned accRead
        else
          let now := if whole then rest else (elements rest).headD []
          let below := now.filter (fun p => below.contains p)
          let hit := serves && below.all cached
          let s1 := if serves && !hit then
              below.foldl (fun s p => if ((s.core g.pkg).nearByte gi g.func p).isSome then s else s.fillNear g.pkg g.func p) s
            else s
          -- LDP: the latest STP of the lane, else the device-visible value (R295)
          let r := if kind = 0 then
              (now.map (fun p => lookupD own p (s1.seenByte g.func p)), s1.outdate [gi] (below.map (fun p => (p, s1.seenByte g.func p))))
            else s1.laneBytes gi space own serves now
          let debts := if hit then [] else dedupN ((below.filter (fun p => remoteLine g.pkg space p)).map (lineOf space))
          (r.2.modGrp gi (setKind accs (others ++ [(lane, had ++ r.1)]))).modGrp gi (fun g => debts.foldl (fun g l => g.addDebt space l) g)
    | _ => s
  | none => s

/-- The values of a load written to its registers for the lanes that have returned (R218, R292). -/
def State.landLoad (s : State) (gi : Nat) (dest : RegCode) (span : Nat) (got : List (Nat × List Byte)) : State :=
  let mask := maskOf (got.map Prod.fst)
  (List.range span).foldl (fun s r =>
    s.landV gi (dest + BitVec.ofNat 8 r) mask ((List.range 64).map (fun i => loadedWord (lookupD got i []) r)) .g) s

/-- A load whose every lane has returned ends: its registers are written, and an `.acq` load is then an acquire (R293, R119). -/
def State.endLoad (s : State) (gi id : Nat) : State :=
  match (s.grp gi).op id with
  | some o =>
    match o.kind with
    | .load _ _ _ scope _ acq _ _ got =>
      if o.accs.isEmpty && s.landed gi o then
        let s1 := (s.landLoad gi o.dest o.span got).endOp gi id
        if acq then s1.acquire gi scope else s1
      else s
    | _ => s
  | none => s

/-- Data returns for lanes of a load: for every lane where the mask names all 64, else for the next element of each lane that it names. -/
def State.runLoad (s : State) (gi id : Nat) (mask : BitVec 64) (near : Bool) : State :=
  ((lanesOf mask).foldl (fun s i => s.loadLane gi id near (mask == BitVec.allOnes 64) i) s).endLoad gi id

/-- An SFU result lands, and its flags are ORed in (R287). -/
def State.runSfu (s : State) (gi id : Nat) : State :=
  match (s.grp gi).op id with
  | some o =>
    match o.kind with
    | .sfu res lanes flags =>
      if s.landed gi o then
        ((s.landV gi o.dest lanes res.lanes res.tag).endOp gi id).modGrp gi (fun g => g.orFlags flags)
      else s
    | _ => s
  | none => s

/-- A kick store as far as it can go now (R112, R114, R316): its commit to device scope, by the sectors of `sel`, once integrity debt is
zero, then its addresses while the request engine has room. -/
def State.runKick (s : State) (gi id : Nat) (sel : List Nat) : State :=
  let g := s.grp gi
  match g.op id with
  | some ⟨_, _, _, _, _, _, .kick lists rel⟩ =>
    let r := if rel then (if g.commitsBefore id || g.behindAcquire id || g.indebted then (s, false) else s.commitStep gi id 3 sel true) else (s, true)
    if !r.2 || (r.1.grp gi).indebted then r.1
    else
      let s1 := r.1
      let room := Config.listMax - (s1.core g.pkg).lists.length
      let s2 := s1.modCore g.pkg (fun c => { c with lists := c.lists ++ (lists.take room).map (fun a => ⟨a, id, 0, gi, g.func, g.name, []⟩) })
      if lists.length ≤ room then s2.endOp gi id
      else s2.modGrp gi (fun g => g.setOp id (fun o => { o with kind := .kick (lists.drop room) false }))
  | _ => s

/-- The array operations of a group completed, with those ahead of them in the quarter's queue, which holds at most four. -/
def State.runMops (s : State) (pkg q gi : Nat) : Nat → State
  | 0 => s
  | n + 1 => if (s.quarter pkg q).arrayQ.any (fun x => x.1 == gi) then (s.runMop pkg q).runMops pkg q gi n else s

/-- Whether an operation may stay outstanding through a halt (R403). -/
def Op.mayStay (o : Op) : Bool :=
  match o.kind with
  | .load .. | .obres .. | .request .. | .bulk .. | .spawn .. => true
  | _ => false

/-- The launch of a SPAWN whose release is made: its record is still to be read (R42, R247). -/
def State.spawned (s : State) (gi id : Nat) (o : Op) : State :=
  match o.kind with
  | .spawn addr prio _ =>
    { s with launches := s.launches ++ [{ words := [BitVec.ofNat 64 addr], func := (s.grp gi).func, by_ := .spawn gi id, prio := prio
                                          placed := false, done := false, released := false, lnum := 0, groups := [], bars := [] }] }
  | _ => s

/-- A request whose release is behind it leaves the core: a name request is sent, a SPAWN's record is to be read, and an engine entry may
start. -/
def State.letGo (s : State) (gi id : Nat) (o : Op) : State :=
  let t := s.spawned gi id o
  let out := fun (q : Req) => match q.sender, q.stage with
    | .group g i, .release _ => if g = gi ∧ i = id then { q with stage := .send } else q
    | _, _ => q
  let ready := fun (e : Entry) => if e.rel = id then { e with rel := 0 } else e
  { t with reqs := t.reqs.map out, cores := t.cores.map (fun c =>
    (c.1, { c.2 with queues := c.2.queues.map (fun q => enterQueue (q.map ready)) })) }

/-- The release of a name request, a SPAWN or a BULK made as far as it can be now (R249, R247, R309); the request then leaves the core,
and an engine entry may start. The release of a group that is saved or moving waits for its installation. -/
def State.runRequest (s : State) (gi id : Nat) (sel : List Nat) : State :=
  match (s.grp gi).op id with
  | none => s
  | some o =>
    if o.commitStep.isNone || !(s.grp gi).resident then s
    else
      let r := s.atomRelease gi id sel
      if r.2 then r.1.letGo gi id o else r.1

/-- The requests that an ended group has not yet sent go on (R403, R408): its escrow and its loads are gone, so that nothing is left for
their releases to wait for. -/
def State.letAllGo (s : State) (gi : Nat) : State :=
  (s.grp gi).ops.foldl (fun s o => match o.kind with
    | .request (some _) | .bulk (some _) | .spawn _ _ true => s.letGo gi o.id o
    | _ => s) s

/-- One outstanding operation settled at a halt, as R403 gives, as far as it can be now. -/
def State.settleOp (s : State) (gi id : Nat) : State :=
  let g := s.grp gi
  match g.op id with
  | none => s
  | some o =>
    match o.kind with
    | .load .. =>
      -- a load is finished where something later must be (R118 to R120); others are packed
      if g.ops.any (fun x => decide (id < x.id) && !x.mayStay) then s.runLoad gi id (BitVec.allOnes 64) false else s
    | .prefetch .. | .store | .storePrivate => s.endOp gi id
    | .sfu .. => s.runSfu gi id
    | .commit .. => s.runCommit gi id []
    | .abort .. => s.runAbort gi id
    | .storeRel .. => s.runStoreRel gi id []
    | .atomic .. => s.runAtomic gi id []
    | .atomp .. => s.runAtomp gi id (o.accs.map Acc.lane)
    | .mop .. => s.runMops g.pkg g.qtr gi 4
    | .obload .. => s.runObload gi id
    | .mdrain .. => s.runMdrain gi id
    | .kick .. => s.runKick gi id []
    | .request .. | .bulk .. | .spawn .. => s.runRequest gi id []
    | .failed _ => s.endOp gi id
    | .ended x => s.endStatus gi id x
    | .obres .. => s

/-- What the failure of a check discards before anything leaves the group: its group-level entries and its watch set (R115). -/
def State.integLoss (s : State) (gi : Nat) : State :=
  ((s.escrow.filter (fun e => e.owner == gi && e.level == .group)).foldl State.dropEsc s).modGrp gi Group.unwatch

/-- A group about to be halted that owes INTEGRITY: where a commit step of it is outstanding, its group-level entries, which the trap would
discard, go first, so that nothing of them leaves it. Otherwise they, and its watch set in any case, stay for the image (R115, R402, log entry 50). -/
def State.haltLoss (s : State) (gi : Nat) : State :=
  let g := s.grp gi
  if g.owedInteg && g.ops.any (fun o => o.commitStep.isSome) then
    (s.escrow.filter (fun e => e.owner == gi && e.level == .group)).foldl State.dropEsc s
  else s

/-- A group's operations settled in issue order, and whether nothing is left that a halt waits for. Lines in integrity debt are
checked (R402 step 3), and fixed-latency results are written (R402 step 1). An owed INTEGRITY stays owed, and the effects that
wait for it end (log entry 50). -/
def State.settle (s : State) (gi : Nat) : State × Bool :=
  let s0 := s.modGrp gi (fun g => { g.landAll with debt := [] })
  let owed := (s0.grp gi).owedInteg
  let s1 := (s0.haltLoss gi).modGrp gi (fun g => { g with owedInteg := false })
  let s2 := ((s1.grp gi).ops.map Op.id).foldl (fun s id => (s.settleOp gi id).modGrp gi (fun g => { g with debt := [] })) s1
  let s3 := s2.modGrp gi (fun g => { g with owedInteg := owed || g.owedInteg })
  (s3, (s3.grp gi).ops.all Op.mayStay)

end Sys2Proof.Machine
end

