-- ==== Sys2Proof/Machine/Groups.lean ====
section
/-! DEFINITION. Groups as a whole: the register pool (R45), barriers and inherited priority (R47 to R53), the completion of teller
commands (R368), death (R54, R76), kill and group fault (R408, R409). -/

namespace Sys2Proof.Machine

/-! The register pool (R45) -/

/-- Whether a group comes before another in the pool's order: higher effective priority, then lower slot. -/
def poolBefore (a b : Group) : Bool := decide (b.prio < a.prio) || (a.prio == b.prio && decide (a.slot < b.slot))

/-- A group given n more register blocks, which read 0 with tag U (R43). -/
def Group.grown (g : Group) (n : Nat) : Group :=
  { g with blk := g.blk + n, v := g.v ++ List.replicate (16 * n) VReg.zero, blkLost := false }

/-- Blocks returned to a quarter's pool go to its waiters in order, each served if its whole request fits (R45). -/
def State.poolReturn (s : State) (pkg q : Nat) : State :=
  let waiters := (s.inQuarter pkg q).filter (fun g => match (s.grp g).cond with
    | .pool _ => true
    | _ => false)
  (sortBy (fun a b => poolBefore (s.grp a) (s.grp b)) waiters).foldl (fun s g => match (s.grp g).cond with
    | .pool n => if n ≤ s.freeBlocks pkg q then s.modGrp g (fun x => { x.grown n with cond := .none }) else s
    | _ => s) s

/-! Inherited priority (R51, R52) -/

/-- Whether a condition is a barrier, and whether two groups are participants of one such barrier (R47). -/
def Cond.isBarrier : Cond → Bool
  | .teamBarrier _ | .clusterBarrier _ | .gridBarrier _ => true
  | _ => false

def sameBarrier (c : Cond) (a b : Group) : Bool :=
  match c with
  | .teamBarrier _ => sameTeam a b
  | .clusterBarrier _ => sameCluster a b
  | .gridBarrier _ => sameGrid a b
  | _ => false

/-- Whether the grid barrier at which a group waits has released at the port, and its team's message is under way (R49): it confers no
priority any more (R51). -/
def State.portReleased (s : State) (w : Group) : Bool :=
  match w.cond with
  | .gridBarrier id => s.hub.barRel.contains (w.launch, id, w.tidx)
  | _ => false

/-- Whether a group has arrived at the barrier at which another waits: it waits there itself, and not for the release message of the round before
(R49, R51). -/
def State.hasArrived (s : State) (w x : Group) : Bool := w.cond == x.cond && !s.portReleased x

/-- The greatest effective priority of the groups that wait at a barrier which x has not reached. -/
def State.inherited (s : State) (x : Group) : Nat :=
  (s.groups.filter (fun w => w.alive && w.cond.isBarrier && !s.portReleased w && sameBarrier w.cond w x && !s.hasArrived w x)).foldl
    (fun m w => max m w.prio) 0

/-- Inherited priorities recomputed, transitively through waiters. -/
def State.inheritPass (s : State) : Nat → State
  | 0 => s
  | n + 1 =>
    let one := fun (x : Group) => if x.alive then { x with prioInh := s.inherited x } else x
    ({ s with groups := s.groups.map one } : State).inheritPass n

/-- Inherited priorities at an arrival, a release or a death; a saved participant's rise is recorded in its image (R52). -/
def State.inherit (s : State) : State :=
  let s0 : State := { s with groups := s.groups.map (fun (x : Group) => { x with prioInh := 0 }) }
  let s1 := s0.inheritPass (s.groups.length + 1)
  (s1.grpsWhere (fun x => x.st == .saved)).foldl (fun t g =>
    if (s.grp g).prio < (s1.grp g).prio then t.putPhys ((s1.grp g).image + 0x30) (s1.grp g).prioWord else t) s1

/-! Barriers -/

/-- The live participants of the barrier that a condition names for a group (R47). -/
def State.participants (s : State) (g : Group) (c : Cond) : List Nat := s.grpsWhere (fun x => x.alive && sameBarrier c x g)

/-- The wake-pending flag of a saved group's entry set (R38, R72). -/
def State.setWp (s : State) (func : Nat) (name : W64) : State :=
  match s.walkName func (nameIndex name) with
  | .ok e => if e.state == 2 && e.gen == nameGen name then s.putEntry e.pa 0 (s.devWord .glob e.pa ||| 0x40000000) else s
  | .error _ => s

/-- A barrier's release at one waiter, wherever it is (R53). -/
def State.releaseWaiter (s : State) (gi : Nat) : State :=
  let g := s.grp gi
  match g.st with
  | .saved =>
    let s1 := s.modGrp gi (fun g => { g with cond := .none })
    match s1.walkName g.func (nameIndex g.name) with
    | .ok e =>
      if e.state == 2 && e.gen == nameGen g.name then
        (s1.putPhys (e.addr + 0x70) (setBits (s1.devWord .glob (e.addr + 0x70)) 2 0 0)).putEntry e.pa 0 (s1.devWord .glob e.pa ||| 0x40000000)
      else s1
    | .error _ => s1
  | .moving => s.modGrp gi (fun g => { g with cond := .none })
  | _ => s.wake gi false

/-- A team or cluster barrier whose every live participant has arrived releases and resets (R48, R50). -/
def State.tryBarrier (s : State) (gi : Nat) (c : Cond) : State :=
  let ps := s.participants (s.grp gi) c
  if ps.all (fun p => (s.grp p).cond == c) then ps.foldl State.releaseWaiter s else s

/-- The live teams of a launch. -/
def State.liveTeams (s : State) (launch : Nat) : List Nat :=
  dedupN ((s.groups.filter (fun g => g.alive && g.launch == launch)).map Group.tidx)

/-- A grid barrier at the command processor's port: when every live team has been counted, one release message goes to each (R49). -/
def State.tryGrid (s : State) (launch id : Nat) : State :=
  let ts := s.liveTeams launch
  if !ts.isEmpty && ts.all (fun t => s.hub.barPort.contains (launch, id, t)) then
    { s with hub := { s.hub with
        barPort := s.hub.barPort.filter (fun m => !(m.1 == launch && m.2.1 == id))
        barRel := s.hub.barRel ++ ts.map (fun t => (launch, id, t)) } }
  else s

/-- A team whose live groups have all arrived at a grid barrier sends its one message (R49). -/
def State.tryTeam (s : State) (launch tidx id : Nat) : State :=
  let ps := s.grpsWhere (fun g => g.alive && g.launch == launch && g.tidx == tidx)
  let m := (launch, id, tidx)
  if !ps.isEmpty && ps.all (fun p => (s.grp p).cond == .gridBarrier id) && !s.hub.barMsgs.contains m && !s.hub.barPort.contains m &&
      !s.hub.barRel.contains m then
    { s with hub := { s.hub with barMsgs := s.hub.barMsgs ++ [m] } }
  else s

/-- A group's arrival at a barrier (R48, R49, R51): whether it completes the barrier, and the state after it. At a grid barrier the group
suspends in any case, until its team's release message returns (log entry 53). -/
def State.arrive (s : State) (gi : Nat) (c : Cond) : Bool × State :=
  let g := s.grp gi
  let s1 := s.modGrp gi (fun g => { g with cond := c })
  match c with
  | .gridBarrier id => (false, (s1.tryTeam g.launch g.tidx id).inherit)
  | _ =>
    let s2 := s1.tryBarrier gi c
    ((s2.grp gi).cond == .none, s2.inherit)

/-- The barriers that a group's death may complete (R50). -/
def State.barriersAfter (s : State) (gi : Nat) : State :=
  let d := s.grp gi
  let waiting := s.grpsWhere (fun w => w.alive && w.cond.isBarrier && sameBarrier w.cond w d)
  (waiting.foldl (fun s w => match (s.grp w).cond with
    | .gridBarrier id => (s.tryTeam d.launch d.tidx id).tryGrid d.launch id
    | .teamBarrier id => s.tryBarrier w (.teamBarrier id)
    | .clusterBarrier id => s.tryBarrier w (.clusterBarrier id)
    | _ => s) s).inherit

/-! Completion of teller commands (R368) -/

/-- The 16 bytes of a completion record. -/
def completionBytes (status : Nat) (tag : BitVec 32) (value : W64) : List Byte :=
  bytesLE 4 status ++ bytesLE 4 tag.toNat ++ bytesLE 8 value.toNat

/-- Step 3 of R368: counter CK of CNAME is signalled, without a rights check, if CNAME names a host entry of the world: whether the step is
done, which it is not while a translation is under way. -/
def State.signalHost (s : State) (func : Nat) (cname : W64) (ck : Nat) : Bool × State :=
  match s.walkName func (nameIndex cname) with
  | .error _ => (true, s)
  | .ok e =>
    if bitsN cname 55 48 != 0 || e.state != 4 || nFunc e.w2 != func || e.gen != nameGen cname then (true, s)
    else match s.applyHost func e.addr (.signal ck 1) with
      | (some _, s1) => (true, s1)
      | (none, s1) => (false, s1)

/-- Steps 2 and 3 of a command's completion (R368), step 2 unless its record is written; while the hub waits for an ATS translation, what
is left of the completion stands in `reqs`. -/
def State.completeFrom (s : State) (func q : Nat) (tag : BitVec 32) (note : BitVec 8) (cname caddr : W64) (status : Nat)
    (value : W64) (recorded : Bool) : State :=
  let later := fun (t : State) (rec_ : Bool) =>
    let (id, t1) := t.fresh
    { t1 with reqs := t1.reqs ++ [⟨id, .teller q tag note cname caddr, none, func, 0, cname, .wake, .completing status value rec_, 0, 0, 0⟩] }
  let signal := fun (t : State) =>
    if bitAt note 4 then
      let r := t.signalHost func cname (bitsN note 3 0)
      if r.1 then r.2 else later r.2 true
    else t
  if caddr = 0 ∨ recorded = true then signal s
  else match s.hubPut func caddr.toNat (completionBytes status tag value) true with
    | .done s1 => signal s1
    | .hold s1 => later s1 false
    | .fail s1 => signal s1

/-- A command completes: its record, then its signal (R368). -/
def State.completeCommand (s : State) (func q : Nat) (tag : BitVec 32) (note : BitVec 8) (cname caddr : W64) (status : Nat)
    (value : W64) : State :=
  s.completeFrom func q tag note cname caddr status value false

/-- Completions that waited for a translation, tried again. -/
def State.flushCompletions (s : State) : State :=
  let ready := s.reqs.filter (fun r => match r.stage with
    | .completing .. => true
    | _ => false)
  let s0 := { s with reqs := s.reqs.filter (fun r => !ready.contains r) }
  ready.foldl (fun s r => match r.sender, r.stage with
    | .teller q tag note cname caddr, .completing st v rec_ => s.completeFrom r.func q tag note cname caddr st v rec_
    | _, _ => s) s0

/-! Death (R54, R76) -/

/-- A launch whose last team has ended completes; a LAUNCH command then completes with OK and its LNUM (R369). -/
def State.launchEnd (s : State) (l : Nat) : State :=
  match s.launches[l]? with
  | none => s
  | some x =>
    if x.done || !x.placed || x.groups.any (fun g => (s.grp g).alive) then s
    else
      let s1 := { s with launches := setNth s.launches l { x with done := true } }
      match x.by_ with
      | .teller q tag note cname caddr => s1.completeCommand x.func q tag note cname caddr stOk (BitVec.ofNat 64 x.lnum)
      | .spawn _ _ => s1

/-- A MOVE whose last group is installed or gone completes, its VALUE the target's location (R369); a target that has died meanwhile
gives DEAD and 0 (log entry 20). -/
def State.finishMoves (s : State) : State :=
  let ended := s.hub.moves.filter (fun m => m.groups.isEmpty)
  ended.foldl (fun s m =>
    let y := s.grp m.target
    let w := fun (k : Nat) => m.cmd.getD k 0
    s.completeCommand y.func m.q ((w 0).extractLsb' 32 32) ((w 0).extractLsb' 8 8) (w 1) (w 2) (if y.alive then stOk else stDead)
      (if y.alive then locWord y.pkg y.qtr y.slot else 0))
    ({ s with hub := { s.hub with moves := s.hub.moves.filter (fun m => !m.groups.isEmpty) } } : State)

/-- A group becomes dead: its entry's one update with the exit code and its joiners' signals (R76), then its private areas, ranges,
blocks and slot return, barriers stop expecting it, and its launch may complete. Requests that it has not sent go on (R408). -/
def State.endGroup (s : State) (gi : Nat) (code : BitVec 32) : State :=
  let g := s.grp gi
  let s1 := (s.letAllGo gi).nameDeath g.func g.name code
  let s2 : State := { s1 with hub := { s1.hub with
    areas := s1.hub.areas.filter (fun a => a.2.2.2 ≠ gi)
    moves := s1.hub.moves.map (fun m => { m with groups := m.groups.filter (fun j => j ≠ gi) })
    images := if g.st == GState.saved || g.st == GState.moving then s1.hub.images.filter (fun i => !(i.1 == g.func && i.2.1 == g.image)) else s1.hub.images } }
  let s3 := s2.modGrp gi (fun g => { g with
    st := .dead, accept := false, ops := [], debt := [], clauses := [], sel := [], pendw := [], pendf := [], watch := [], wovf := false, whit := false, cond := .none
    obrec := List.replicate 8 0, dying := false, killing := none, halting := false, waiting := false, preempt := false, heldXf := false, heldBrk := false })
  let s4 := if g.resident then s3.poolReturn g.pkg g.qtr else s3
  ((s4.barriersAfter gi).launchEnd g.launch).finishMoves

/-- A killed group's end (R408): its operations settled or dropped, its escrow discarded and retracted, no exit commit; private stores
stay. While an operation still has to complete, the group stays and issues nothing (`killing`). -/
def State.killGroup (s : State) (gi : Nat) (code : BitVec 32) : State :=
  let g := s.grp gi
  if !g.alive then s
  else
    let r := if g.resident then s.settle gi else (s, true)
    if !r.2 then r.1.modGrp gi (fun g => { g with killing := some code, accept := false, clauses := [], sel := [] })
    else
      let s1 := (r.1.escrow.filter (fun e => e.owner == gi && e.level != .priv)).foldl State.dropEsc r.1
      s1.endGroup gi code

/-- A group ended by force (R402, R408): it starts no clause any more; a started clause runs to its end, and GROUP_DEATH then kills. -/
def State.kill (s : State) (gi : Nat) (code : BitVec 32) : State :=
  let g := s.grp gi
  if g.resident && !g.clauses.isEmpty then s.modGrp gi (fun g => { g with killing := some code, accept := false }) else s.killGroup gi code

def exitKilled : BitVec 32 := 0xFFFFFFFF
def exitFault : BitVec 32 := 0xFFFFFFFE

/-- Codes of the trap causes (R238). -/
def Cause.code : Cause → Nat
  | .illegal => 1 | .alias_ => 2 | .stallShort => 3 | .shape => 4 | .growLimit => 5 | .misalign => 6 | .space => 7 | .page => 8
  | .integrity => 9 | .escrow => 0xA | .mode => 0xB | .obrange => 0xC | .preempt => 0x10 | .soft => 0x11 | .break_ => 0x12 | .trap => 0x13

/-- A group fault (R409): a GFAULT event with its causes, REASON and the head run's header, and, in bytes 16 to 23, the fault address
(R448; R411 gives it no bytes: log entry 53), then the kill with exit code 0xFFFF_FFFE. -/
def State.groupFault (s : State) (gi : Nat) (cause second reason : Nat) (faddr : W64) : State :=
  let g := s.grp gi
  let header := match g.runs with
    | r :: _ => r.addr
    | [] => 0
  let s1 := s.raiseLog g.func evGfault [BitVec.ofNat 64 (cause + 256 * second + 65536 * reason), header, faddr, 0] g.name none
  s1.killGroup gi exitFault

/-- The final step of EXIT (R54): once debt is zero and nothing is outstanding, the exit commit, in the sectors of `sel` (all where it is empty;
it gives no order among them, R125), then death. An owed INTEGRITY is taken here (R115): its escrow is discarded, and the group faults where the
trap could not enter; no clause is about to issue, and the fault address, which R448 does not give then, is 0 (log entry 63). -/
def State.runDeath (s : State) (gi : Nat) (sel : List Nat) : State :=
  let g := s.grp gi
  match g.killing with
  | some code => if g.clauses.isEmpty then s.killGroup gi code else s
  | none =>
    if !g.dying || !g.debt.isEmpty || !g.dropFailed.ops.isEmpty then s
    else if g.owedInteg && (g.ts || g.tbase == 0) then
      s.groupFault gi Cause.integrity.code 0 (if g.ts then 0 else 1) 0
    else
      let s1 := if g.owedInteg then (s.integLoss gi).modGrp gi (fun g => { g.dropFailed with owedInteg := false }) else s
      let scope := if g.exitSys then 4 else 3
      let s2 := s1.moveEscrow gi 0 scope sel true (fun e => e.owner == gi)
      if s2.escrow.any (fun e => e.owner == gi) then s2 else s2.endGroup gi g.exitCode

end Sys2Proof.Machine
end

