-- ==== Sys2Proof/Machine/Save.lean ====
section
/-! DEFINITION. Saving a group and installing it again (files 02, 19 and 22; R38, R71, R73, R96, R153, R334, R336, R350 to R357, R399, R402
to R405): the save image as bytes of device DRAM, its room in the world's save pool, and the request packets. -/

namespace Sys2Proof.Machine

/-! The image, written (R352 to R357) -/

/-- A number rounded up to a multiple. -/
def alignUp (x n : Nat) : Nat := (x + n - 1) / n * n

/-- COND, CVAL and CADDR of a group (R354): a till address in the own-slice form (log entry 14). -/
def Group.condWords (g : Group) : W64 × W64 × W64 :=
  match g.cond with
  | .none => (0, 0, 0)
  | .counter k t => (BitVec.ofNat 64 (256 * k + 1), t, 0)
  | .till a t => (2, t, BitVec.ofNat 64 (2 ^ 31 + a % Config.sliceBytes))
  | .monitor va _ x => (3, x, BitVec.ofNat 64 va)
  | .teamBarrier id => (BitVec.ofNat 64 (256 * id + 4), 0, 0)
  | .clusterBarrier id => (BitVec.ofNat 64 (256 * id + 5), 0, 0)
  | .gridBarrier id => (BitVec.ofNat 64 (256 * id + 6), 0, 0)
  | .pool n => (BitVec.ofNat 64 (256 * n + 7), 0, 0)

/-- MISC (R353). -/
def Group.miscWord (g : Group) : W64 :=
  let b := fun (x : Bool) (k : Nat) => if x then 2 ^ k else 0
  BitVec.ofNat 64 ((if g.mm then 4096 * g.brec + 256 * g.arec else 0) + b g.owedInteg 2 + b (!g.pages.isEmpty) 3 + b g.owedSoft 4 +
    b g.heldXf 5 + b g.heldBrk 6 + b g.wovf 1 + b (g.whit || !g.watch.isEmpty) 0)

/-- SLOTS (R353). -/
def Group.slotsWord (g : Group) : W64 :=
  BitVec.ofNat 64 ((List.range 7).foldl (fun n k => n + g.slotCount (k + 1) * 2 ^ (6 * k)) 0)

/-- Whether a register is stored as G whatever its tag (R355). -/
def Group.storedG (g : Group) (n : Nat) : Bool :=
  (g.mm && decide (g.wbase ≤ n ∧ n < g.wbase + 64)) || g.ops.any (fun o => o.writes (BitVec.ofNat 8 n))

/-- The tag under which a register is stored. -/
def Group.storedTag (g : Group) (n : Nat) : Tag := if g.storedG n then .g else (g.vreg n).tag

def Tag.code : Tag → Nat
  | .u => 0 | .a => 1 | .g => 2

/-- Bytes of one register in the image. -/
def Group.regBytes (g : Group) (n : Nat) : List Byte :=
  let r := g.vreg n
  match g.storedTag n with
  | .u => bytesLE 4 (r.lane 0).toNat ++ List.replicate 4 0
  | .a => bytesLE 4 (r.lane 0).toNat ++ bytesLE 4 (strideOf r.lanes).toNat
  | .g => (List.range 64).flatMap (fun i => bytesLE 4 (r.lane i).toNat)

/-- The tag map. -/
def Group.tagMap (g : Group) : List Byte :=
  (List.range 48).map (fun k => BitVec.ofNat 8 ((List.range 4).foldl (fun x j =>
    if 4 * k + j < 16 * g.blk then x + (g.storedTag (4 * k + j)).code * 4 ^ j else x) 0))

/-- An escrow entry in the image (R356). -/
def escBytes (e : Esc) : List Byte :=
  let sec := match e.space with
    | .tile => e.sector
    | .glob => 2 ^ 63 + e.va
  let ben := (List.range 32).foldl (fun x k => if (e.data.getD k none).isSome then x + 2 ^ k else x) 0
  bytesLE 8 sec ++ bytesLE 4 ben ++ List.replicate 20 0 ++ (List.range 32).map (fun k => (e.data.getD k none).getD 0)

/-- A request packet (R404): its header word, the lanes it serves with their offsets, and its sector address. -/
structure Packet where
  hdr   : W64
  lanes : List (Nat × Nat)
  addr  : Nat
  deriving DecidableEq, Repr

def Packet.bytes (p : Packet) : List Byte :=
  bytesLE 8 p.hdr.toNat ++ bytesLE 8 (maskOf (p.lanes.map Prod.fst)).toNat ++ bytesLE 8 p.addr ++
  bytesLE 40 (p.lanes.foldl (fun x l => x + l.2 * 2 ^ (5 * l.1)) 0)

/-- The parts of a lane's access, one in each sector: its first address there. An LDP's words lie in rows of 256 bytes (R84). -/
def Group.accParts (g : Group) (kind width : Nat) (a : Acc) : List Nat :=
  if kind = 0 then (List.range (if width ≤ 2 then 1 else 2 ^ (width - 2))).map (fun k => g.privAddr a.lane (a.addr + 4 * k))
  else if kind = 1 ∨ kind = 3 then [a.place.headD 0]
  else [a.addr]

/-- The packets of a load: its sectors ascending, each with the lanes that read it. -/
def Group.loadPackets (g : Group) (o : Op) : List Packet :=
  match o.kind with
  | .load kind mod _ _ width _ _ _ _ =>
    let hdr : W64 := BitVec.ofNat 64 (kind * 2 ^ 56 + mod.toNat * 2 ^ 48 + o.dest.toNat * 2 ^ 40 + o.slot * 2 ^ 37)
    let parts := o.accs.flatMap (fun a => (g.accParts kind width a).map (fun p => (a.lane, p)))
    let secs := sortBy (fun a b => decide (a < b)) (dedupN (parts.map (fun p => sectorOf p.2)))
    secs.map (fun sec => ⟨hdr, (parts.filter (fun p => sectorOf p.2 == sec)).map (fun p => (p.1, p.2 - sec)), sec⟩)
  | _ => []

/-- Length of an image before rounding (R357). -/
def Group.imageParts (g : Group) (nesc npkt : Nat) : Nat × Nat × Nat × Nat :=
  let regs := (List.range (16 * g.blk)).foldl (fun n k => n + (if g.storedTag k = .g then 256 else 8)) 0
  let esc := 0x600 + alignUp regs 64
  let rng := esc + 64 * nesc
  let ops := rng + g.ranges.foldl (fun n r => n + 64 * r.2) 0
  (esc, rng, ops, alignUp (ops + 64 + 64 * npkt) 256)

/-- The bytes of a group's save image (R352). -/
def State.imageBytes (s : State) (gi : Nat) : List Byte :=
  let g := s.grp gi
  let escs := s.escrow.filter (fun e => e.owner == gi && e.level == .group)
  let pkts := g.ops.flatMap g.loadPackets
  let (pe, _, po, len) := g.imageParts escs.length pkts.length
  let c := g.condWords
  let words := fun (l : List W64) => l.flatMap (fun w => bytesLE 8 w.toNat)
  let pad := fun (n : Nat) (l : List Byte) => l ++ List.replicate (n - l.length) 0
  let head := words ([BitVec.ofNat 64 (2 ^ 32 + len), g.name, g.gstat, g.flags, g.tbase, g.tframe, g.prioWord, g.live,
    g.cgen.setWidth 64, g.team, g.teams, g.clus, g.grid, g.pwin, c.1, c.2.1, c.2.2, g.miscWord, BitVec.ofNat 64 escs.length,
    g.slotsWord, (lowestPage g.pages).elim 0 (fun p => BitVec.ofNat 64 p.2.1), if g.owedSoft then g.sfaddr else 0] ++ List.replicate 10 0 ++ g.ctr ++ g.box ++ g.s ++
    g.obrec ++ (List.range 64).map (fun i => if g.live.getLsbD i then g.pc.getD i 0 else 0))
  let fixed := pad 0x600 (head ++ g.rpos.map (BitVec.ofNat 8) ++ g.tagMap)
  let regs := pad pe (fixed ++ (List.range (16 * g.blk)).flatMap g.regBytes)
  let bufs := (g.ranges).flatMap (fun r => s.opbuf.read (obPlace g.pkg g.qtr r.1) (64 * r.2))
  pad len (pad (po + 64) (regs ++ escs.flatMap escBytes ++ bufs ++ bytesLE 8 pkts.length) ++ pkts.flatMap Packet.bytes)

/-! Room (R399) -/

/-- What stands in the save pools: images, and the engine contexts of paused worlds (R399). -/
def State.poolUsed (s : State) : List (Nat × Nat × Nat) := s.hub.images ++ s.hub.contexts.filter (fun c => c.2.2 != 0)

/-- Whether a run of bytes of a world's save pool is free. -/
def poolFree (used : List (Nat × Nat × Nat)) (func a n : Nat) : Bool :=
  used.all (fun i => i.1 != func || decide (a + n ≤ i.2.1 ∨ i.2.1 + i.2.2 ≤ a))

/-- The first free place of n bytes in a world's save pool, in 4 KiB units; the candidates are its base and the ends of what it holds. -/
def State.imageRoom (s : State) (func n : Nat) : Option Nat :=
  let base := 65536 * s.regN (offSave func 0) 56 16
  let size := 65536 * s.regN (offSave func 1) 31 0
  (sortBy (fun a b => decide (a < b)) (base :: ((s.poolUsed.filter (fun i => i.1 == func)).map (fun i => i.2.1 + i.2.2)))).find? (fun a =>
    decide (base ≤ a ∧ a + n ≤ base + size) && poolFree s.poolUsed func a n)

/-- Whether a world has engine entries or lists that its next slice goes on with (R406). -/
def State.engineWork (s : State) (f : Nat) : Bool :=
  s.cores.any (fun c => c.2.lists.any (fun l => l.func == f) || c.2.queues.any (fun q => q.any (fun e => e.func == f)))

/-- The engine context of a world whose slice is over allotted in its save pool (R399, R406, log entry 51); without room it stays where it is,
with one SAVE event. What the context holds stays in the queues and lists, which pause. -/
def State.saveEngines (s : State) (f : Nat) : State :=
  let n := alignUp (1 + Config.engineContext) 4096
  let set := fun (t : State) (a n : Nat) =>
    ({ t with hub := { t.hub with contexts := t.hub.contexts.filter (fun c => c.1 ≠ f) ++ [(f, a, n)] } } : State)
  if !s.engineWork f then s
  else match s.imageRoom f n with
    | some a => set s a n
    | none =>
      if s.hub.contexts.any (fun c => c.1 == f) then s
      else (set s 0 0).raiseLog f evSave [0, BitVec.ofNat 64 n, 0, 0] 0 none

/-- Whether the switch away from a world waits for room for its engine context (R399). -/
def State.enginesWait (s : State) (f : Nat) : Bool := s.hub.contexts.any (fun c => c.1 == f && c.2.2 == 0)

/-- A world's engine context back on the die, its room freed. -/
def State.dropContext (s : State) (f : Nat) : State :=
  { s with hub := { s.hub with contexts := s.hub.contexts.filter (fun c => c.1 ≠ f) } }

/-! Saving (R402) -/

/-- How a save ends: done, no room for the image, or something the halt waits for. -/
inductive SaveRes where
  | done (s : State)
  | noRoom (s : State)
  | wait (s : State)
  deriving DecidableEq, Repr

/-- In place of an operation's number, the mark of the PAGE finding that a save image records (R353). -/
def savedMark : Nat := 2 ^ 64

/-- What a group's record keeps while its image holds the rest: who it is, what it waits on, what is outstanding outside it, the loads
of its packets with their places in issue order and the group's own bytes that they saw (R118, R120), and which entries a release covers. -/
def Group.husk (g : Group) (st : GState) (image : Nat) (seals : List Nat) : Group :=
  { Group.blank with
    name := g.name, func := g.func, launch := g.launch, pkg := g.pkg, qtr := g.qtr, slot := g.slot, st := st, blk := g.blk
    prioBase := g.prioBase, prioInh := g.prioInh, cgen := g.cgen, team := g.team, teams := g.teams, clus := g.clus, grid := g.grid
    live := g.live, pwin := g.pwin, acc := if g.acc = .zeroed then .zeroed else .other, mm := g.mm, wbase := g.wbase
    cond := g.cond, ops := g.ops.filter (fun o => match o.kind with
      | .load .. => false
      | _ => true)
    place := g.place, heldXf := g.heldXf, heldBrk := g.heldBrk, exitCode := g.exitCode, rclass := g.rclass, exitSys := g.exitSys
    ovf := g.ovf, ovfBase := g.ovfBase, image := image
    packed := g.ops.filter (fun o => match o.kind with
      | .load .. => true
      | _ => false)
    seals := seals, selNo := g.selNo, blkLost := g.blkLost, lost := g.lost, acqSeq := g.acqSeq, xfFail := g.xfFail, tbase := g.tbase, tframe := g.tframe, tcause := g.tcause
    pages := (lowestPage g.pages).toList.map (fun p => (savedMark, p.2)) }

/-- Values that have returned for loads whose rest is packed reach the registers (R403). -/
def State.landReturned (s : State) (gi : Nat) : State :=
  (s.grp gi).ops.foldl (fun s o => match o.kind with
    | .load _ _ _ _ _ _ accs _ got =>
      let full := got.filter (fun p => accs.any (fun a => a.lane == p.1 && decide (a.place.length ≤ p.2.length)))
      if full.isEmpty then s else s.landLoad gi o.dest o.span full
    | _ => s) s

/-- The entry of a saved or moving group, in one update of its line (R61): STATE 2 with the image's address and WP, or STATE 3 with the source
slot (R60); `image` is the word 1 that it gets. Where the walk of the name table finds no entry the update is left out (the model's choice, log
entry 66). -/
def State.entrySaved (s : State) (func : Nat) (name : W64) (moving wp : Bool) (image : Nat) : State :=
  match s.walkName func (nameIndex name) with
  | .error _ => s
  | .ok e =>
    if moving then s.devWriteBytes .glob e.pa (bytesLE 8 (setBits e.w0 2 0 3).toNat ++ bytesLE 8 image) none false
    else
      let w0 := setBits (setBits e.w0 2 0 2) 30 30 (if wp then 1 else 0)
      s.devWriteBytes .glob e.pa (bytesLE 8 w0.toNat ++ bytesLE 8 image) none false

/-- Whether a save sets WP (R72): the group was not suspended, or waits on a till or a monitor. -/
def Group.wakesAtSave (g : Group) : Bool :=
  g.st != .suspended || (match g.cond with
    | .till .. | .monitor .. => true
    | _ => false)

/-- A group saved, or halted for a MOVE: its operations settled, its image written, its blocks, slot and ranges returned. `forced`:
CGEN rises (R402); YIELD.saved alone saves without that (R401). Without room for the image a SAVE event is raised once and the group
stays (R399), marked by an image address of 1; its acceptance flag then closes for a forced halt and stays open for YIELD.saved, of which R70 and
R399 say nothing (log entry 53). A forced halt that waits for an operation has begun: the group issues nothing more and its flag is closed. -/
def State.saveGroup (s : State) (gi : Nat) (forced moving : Bool) : SaveRes :=
  let r := s.settle gi
  if !r.2 then .wait (if forced then r.1.modGrp gi (fun g => { g with halting := true, accept := false }) else r.1)
  else
    let s1 := r.1.landReturned gi
    let s2 := if forced then s1.modGrp gi (fun g => { g with cgen := g.cgen + 1 }) else s1
    let g := s2.grp gi
    let bytes := s2.imageBytes gi
    match s2.imageRoom g.func (alignUp bytes.length 4096) with
    | none =>
      if g.image = 1 then .noRoom s
      else
        let s3 := r.1.modGrp gi (fun g => { g with image := 1, accept := g.accept && !forced })
        .noRoom (s3.raiseLog g.func evSave [0, BitVec.ofNat 64 bytes.length, 0, 0] g.name none)
    | some a =>
      let wp := g.wakesAtSave
      let s3 := s2.devWriteBytes .glob a bytes none false
      let seals := (s2.escrow.filter (fun e => e.owner == gi && e.level == .group)).map Esc.sealId
      let s4 : State := { s3 with
        hub := { s3.hub with images := s3.hub.images ++ [(g.func, a, alignUp bytes.length 4096)] }
        escrow := s3.escrow.filter (fun e => !(e.owner == gi && e.level == .group)) }
      let s5 := (s4.setGrp gi (g.husk (if moving then .moving else .saved) a seals)).entrySaved g.func g.name moving wp
        (if moving then (locWord g.pkg g.qtr g.slot).toNat else a)
      .done (s5.poolReturn g.pkg g.qtr)

/-! The image, read -/

/-- A word, a byte and a run of bytes of an image. -/
def State.imWord (s : State) (a off : Nat) : W64 := s.devWord .glob (a + off)
def State.imByte (s : State) (a off : Nat) : Byte := s.devByte .glob (a + off)
def State.imZero (s : State) (a off n : Nat) : Bool := (s.devRead .glob (a + off) n).all (fun b => b == 0)

/-- The tag code of register n in an image. -/
def State.imTag (s : State) (a n : Nat) : Nat := bitsN (s.imByte a (0x5C0 + n / 4)) (2 * (n % 4) + 1) (2 * (n % 4))

/-- The registers of an image from an offset on, and the offset after them. -/
def State.imRegs (s : State) (a : Nat) : List Nat → Nat → List VReg × Nat
  | [], off => ([], off)
  | n :: ns, off =>
    let w := fun (k : Nat) => BitVec.ofNat 32 (ofBytesLE (s.devRead .glob (a + off + 4 * k) 4))
    let t := s.imTag a n
    let r : VReg := if t = 0 then ⟨.u, List.replicate 64 (w 0)⟩
      else if t = 1 then ⟨.a, (List.range 64).map (fun i => w 0 + BitVec.ofNat 32 i * w 1)⟩
      else ⟨.g, (List.range 64).map w⟩
    let rest := s.imRegs a ns (off + (if t ≤ 1 then 8 else 256))
    (r :: rest.1, rest.2)

/-- The condition of an image (R354), with tills in the slice of a core and monitors at a physical address. -/
def State.imCond (s : State) (a pkg pa : Nat) : Cond :=
  let w := s.imWord a 0x70
  let k := bitsN w 15 8
  let v := s.imWord a 0x78
  let x := s.imWord a 0x80
  match bitsN w 2 0 with
  | 1 => .counter (k % 16) v
  | 2 => .till (tileAbs pkg (bitsN x 20 0)) v
  | 3 => .monitor x.toNat pa v
  | 4 => .teamBarrier k
  | 5 => .clusterBarrier k
  | 6 => .gridBarrier k
  | 7 => .pool k
  | _ => .none

/-- Offsets of the parts of an image, from its own contents: the end of the registers, escrow entries, ranges, operations, length. -/
def State.imParts (s : State) (a : Nat) : Nat × Nat × Nat × Nat × Nat :=
  let blk := bitsN (s.imWord a 0x10) 19 16
  let regs := (List.range (16 * blk)).foldl (fun n k => n + (if s.imTag a k ≤ 1 then 8 else 256)) 0x600
  let esc := alignUp regs 64
  let rng := esc + 64 * bitsN (s.imWord a 0x90) 31 0
  let ops := rng + ((List.range 8).filter (fun k => obValid (s.imWord a (0x340 + 8 * k)))).foldl (fun n k =>
    n + 64 * obLen (s.imWord a (0x340 + 8 * k))) 0
  (regs, esc, rng, ops, bitsN (s.imWord a 0) 31 0)

/-- The res0 bits of the status words of an image, by offset (R28, R55, R83, R326, R353). -/
def imReserved : List (Nat × W64) :=
  [(0x00, 0xFFFFFF0000000000), (0x08, 0x00FF000000000000), (0x10, 0xFFFFFFFFFF0000F8), (0x18, 0xFFFFFFFFFFFFFFC0), (0x20, 0xFE00000000000007),
    (0x28, 0xFFFFFFFF0000003F), (0x30, 0xFFFFFFFFFFFFF8F8), (0x40, 0xFFFFFFFFFFFF0000), (0x48, 0xFFFFFFFFFE00FF00),
    (0x58, 0xFFFF00000000F000), (0x60, 0xFFFFFFFFFF800000), (0x68, 0xFE00000000000000), (0x70, 0xFFFFFFFFFFFF00F8),
    (0x88, 0xFFFFFFFFFFFF8880), (0x90, 0xFFFFFFFF00000000), (0x98, 0xFFFFFC0000000000)] ++
  (List.range 8).map (fun k => (0x340 + 8 * k, 0x00000000000400FF))

/-- Whether an escrow entry's address has its res0 bits clear (R356). -/
def escWordOk (sec : W64) : Bool := bitsN sec 62 57 == 0 && bitsN sec 4 0 == 0 && (bitAt sec 63 || bitsN sec 56 32 == 0)

/-- The checks of an image (R352, R404): version, gaps, reserved bits, tag codes, kinds. A poisoned line fails them too (log entry 14). -/
def State.imageOk (s : State) (a : Nat) : Bool :=
  let (regs, esc, rng, ops, len) := s.imParts a
  let blk := bitsN (s.imWord a 0x10) 19 16
  let n := bitsN (s.imWord a 0x90) 31 0
  let pk := ofBytesLE (s.devRead .glob (a + ops) 8)
  (List.range ((len + 127) / 128)).all (fun k => !s.poisoned .glob (a + 128 * k)) &&
  bitsN (s.imWord a 0) 39 32 == 1 && imReserved.all (fun p => s.imWord a p.1 &&& p.2 == 0) && s.imZero a 0xB0 80 && s.imZero a 0x5F0 16 &&
  (List.range 192).all (fun k => if k < 16 * blk then s.imTag a k != 3 else s.imTag a k == 0) &&
  s.imZero a regs (esc - regs) &&
  (List.range n).all (fun k => escWordOk (s.imWord a (esc + 64 * k)) && s.imZero a (esc + 64 * k + 12) 20) && decide (rng = esc + 64 * n) && s.imZero a (ops + 8) 56 &&
  (List.range pk).all (fun k => let h := s.imWord a (ops + 64 + 64 * k)
                                decide (bitsN h 58 56 ≤ 4) && bitsN h 63 59 == 0 && bitsN h 36 0 == 0) &&
  decide (ops + 64 + 64 * pk ≤ len) && s.imZero a (ops + 64 + 64 * pk) (len - (ops + 64 + 64 * pk))

/-- The records of an image given ranges of a quarter, in ascending record number (R336); none where they do not fit. -/
def placeRecords (used : List (Nat × Nat)) : List W64 → Option (List W64)
  | [] => some []
  | r :: rs =>
    if !obValid r then (placeRecords used rs).map (fun l => r :: l)
    else match firstRun used (obLen r) with
      | none => none
      | some b => (placeRecords (used ++ [(b, obLen r)]) rs).map (fun l => setBits r 62 51 b :: l)

/-- A packet of an image. -/
def State.imPacket (s : State) (a off : Nat) : Packet :=
  let lanes := s.imWord a (off + 8)
  let offs := ofBytesLE (s.devRead .glob (a + off + 24) 40)
  ⟨s.imWord a off, (lanesOf lanes).map (fun i => (i, natBits offs (5 * i + 4) (5 * i))), (s.imWord a (off + 16)).toNat⟩

/-- How a virtual address of a saved group is found at its installation. -/
inductive Found where
  | at_ (pa : Nat)
  | page
  | wait
  deriving DecidableEq, Repr

/-- The translation of an address as a group is installed: a FAIL answered to its fault makes it a PAGE finding; a clear V raises an
XFAULT event once and holds the installation (log entry 14). -/
def State.findAt (s : State) (gi va access : Nat) : Found × State :=
  let g := s.grp gi
  if g.xfFail = some (alignDown va 4096) then (.page, s)
  else match s.hubTr (g.pkg / 64) g.func va access with
    | (.ok pa, s1) => if s1.destOk g.func (some g.pkg) pa then (.at_ pa, s1) else (.page, s1)
    | (.page, s1) | (.space, s1) => (.page, s1)
    | (.hold, s1) => (.wait, s1)
    | (.absent, s1) =>
      if s1.hub.events.any (fun e => e.cls == evXfault && e.owner == some gi) then (.wait, s1)
      else (.wait, s1.raiseXfault g.func va access 0 (some gi) none none g.name)

/-- Offsets in an image, each with the number that the group's record kept for it; 0 where the image lists another count of them. -/
def withIds (ids offs : List Nat) : List (Nat × Nat) :=
  if ids.length = offs.length then offs.zip ids else offs.map (fun o => (o, 0))

/-- The escrow entries of an image: those found at a physical place, the addresses whose page is not to be written, and whether any waits. -/
def State.imEscrow (s : State) (gi a : Nat) (pins : List Nat) : List (Nat × Nat) → List Esc → List Nat → Option (List Esc × List Nat) × State
  | [], es, bad => (some (es, bad), s)
  | (off, sl) :: offs, es, bad =>
    let sec := s.imWord a off
    let ben := ofBytesLE (s.devRead .glob (a + off + 8) 4)
    let data := (List.range 32).map (fun k => if Nat.testBit ben k then some (s.imByte a (off + 32 + k)) else none)
    if !bitAt sec 63 then
      s.imEscrow gi a pins offs (es ++ [⟨gi, .group, .tile, bitsN sec 56 5 * 32, bitsN sec 56 5 * 32, data, sl, false, pins, false⟩]) bad
    else
      let va := bitsN sec 56 5 * 32
      match s.findAt gi va accWrite with
      | (.at_ pa, s1) => s1.imEscrow gi a pins offs (es ++ [⟨gi, .group, .glob, pa, va, data, sl, false, pins, false⟩]) bad
      | (.page, s1) => s1.imEscrow gi a pins offs es (bad ++ [va])
      | (.wait, s1) => (none, s1)

/-- A word of a load's lane that a packet covers: the load's place in issue order (0: not known), lane, index of the word in the access (0 but for LDP), first place of its bytes. -/
structure Piece where
  hdr   : W64
  id    : Nat
  lane  : Nat
  word  : Nat
  va    : Nat
  place : Nat
  deriving DecidableEq, Repr

/-- The pieces of packets, each with its load's place in issue order, translated. -/
def State.imPieces (s : State) (gi : Nat) : List (Nat × Packet) → List Piece → List Nat → Option (List Piece × List Nat) × State
  | [], ps, bad => (some (ps, bad), s)
  | (id, p) :: rest, ps, bad =>
    let kind := bitsN p.hdr 58 56
    let width := bitsN p.hdr 50 48
    let mk := fun (base : Nat) => p.lanes.map (fun l =>
      let va := p.addr + l.2
      let row := (va / 256) % (2 ^ (width - 2))
      (⟨p.hdr, id, l.1, if kind = 0 ∧ 2 < width then row else 0, va, base + l.2⟩ : Piece))
    if kind = 1 ∨ kind = 3 then s.imPieces gi rest (ps ++ mk p.addr) bad
    else match s.findAt gi p.addr accRead with
      | (.at_ pa, s1) => s1.imPieces gi rest (ps ++ mk pa) bad
      | (.page, s1) => s1.imPieces gi rest ps (bad ++ [p.addr + (p.lanes.map Prod.snd).foldl min 31])
      | (.wait, s1) => (none, s1)

/-- Pieces gathered into loads: those of one header and one place in issue order belong to one load while no lane has the same word twice (R405). -/
def joinPieces : List Piece → List (List Piece) → List (List Piece)
  | [], acc => acc
  | p :: ps, acc =>
    let fits := fun (l : List Piece) => (l.headD p).hdr == p.hdr && (l.headD p).id == p.id && !l.any (fun x => x.lane == p.lane && x.word == p.word)
    match position fits acc with
    | some k => joinPieces ps (setNth acc k (acc.getD k [] ++ [p]))
    | none => joinPieces ps (acc ++ [[p]])

/-- The own bytes that a kept load saw when it issued. -/
def Op.ownKept (o : Op) : List (Nat × Byte) :=
  match o.kind with
  | .load _ _ _ _ _ _ _ own _ => own
  | _ => []

/-- A load reissued at installation from its pieces; `kept` are the loads of the group's record. -/
def State.reissue (s : State) (gi : Nat) (kept : List Op) (l : List Piece) : State :=
  match l with
  | [] => s
  | p :: _ =>
    let kind := bitsN p.hdr 58 56
    let mod := BitVec.ofNat 8 (bitsN p.hdr 55 48)
    let width := bitsN mod 2 0
    let space : Space := if kind = 1 ∨ kind = 3 then .tile else .glob
    let lanes := sortBy (fun a b => decide (a < b)) (dedupN (l.map Piece.lane))
    let n := if kind = 0 ∧ 2 < width then 4 else 2 ^ width
    let accs := lanes.map (fun i =>
      let mine := sortBy (fun (a b : Piece) => decide (a.word < b.word)) (l.filter (fun x => x.lane == i))
      let first := mine.headD p
      (⟨i, if kind = 0 then 4 * ((first.va - 4096 * bitsN (s.grp gi).pwin 56 12) / 256) + first.va % 4 else first.va,
        mine.flatMap (fun x => (List.range n).map (fun k => x.place + k))⟩ : Acc))
    let ps := accs.flatMap Acc.place
    let own := match kept.find? (fun o => o.id == p.id) with
      | some o => o.ownKept
      | none => s.ownSeen gi kind space ps
    let span := if width = 4 then 4 else if width = 3 then 2 else 1
    let (id, s1) := if p.id = 0 then s.fresh else (p.id, s)
    let op : Op := ⟨id, bitsN p.hdr 39 37, BitVec.ofNat 8 (bitsN p.hdr 47 40), span, maskOf lanes, 0,
      .load kind mod space (bitsN mod 7 5) width (bitsN mod 4 3 == 1) accs own []⟩
    s1.modGrp gi (fun g => { g with ops := sortBy (fun a b => decide (a.id < b.id)) (g.ops ++ [op]) })

/-- How an installation ends. -/
inductive Install where
  | done (s : State)
  | hold (s : State)
  | bad (s : State)
  deriving DecidableEq, Repr

/-- The PAGE findings of a group as it is installed (R353): the one that its image records, whose kind of access its record kept, and those that
it came to owe while it was out (R435). -/
def Group.imPages (h : Group) (misc addr : W64) : List (Nat × Nat × Nat) :=
  let kept := h.pages.filter (fun p => p.1 == savedMark)
  (if bitAt misc 3 then [(0, addr.toNat, (kept.map (fun p => p.2.2)).headD accWrite)] else []) ++ h.pages.filter (fun p => p.1 != savedMark)

/-- The group that an image holds, on a core, quarter and slot; `h` is its record while it was out. What was watched stands as hit (R334): the
image names no sector, so it takes no place of the watch set (log entry 14). -/
def State.imGroup (s : State) (a : Nat) (h : Group) (pkg q slot : Nat) (recs : List W64) (cond : Cond) (watch : List Watch) : Group :=
  let w := s.imWord a
  let misc := w 0x88
  let gst := w 0x10
  let blk := bitsN gst 19 16
  { h with
    pkg := pkg, qtr := q, slot := slot, name := w 8, blk := blk, wbase := bitsN gst 15 8, ts := bitAt gst 2, chk := bitAt gst 1
    mm := bitAt gst 0, flags := w 0x18, tbase := w 0x20, tframe := w 0x28, prioBase := bitsN (w 0x30) 2 0
    prioInh := max h.prioInh (bitsN (w 0x30) 10 8), live := w 0x38, cgen := (w 0x40).setWidth 16, team := w 0x48, teams := w 0x50
    clus := w 0x58, grid := w 0x60, pwin := w 0x68
    v := (s.imRegs a (List.range (16 * blk)) 0x600).1
    ctr := (List.range 16).map (fun k => w (0x100 + 8 * k)), box := (List.range 8).map (fun k => w (0x180 + 8 * k))
    s := (List.range 48).map (fun k => w (0x1C0 + 8 * k)), obrec := recs
    pc := (List.range 64).map (fun i => w (0x380 + 8 * i)), rpos := (List.range 64).map (fun i => (s.imByte a (0x580 + i)).toNat)
    tcause := h.tcause, brec := bitsN misc 14 12, arec := bitsN misc 10 8, wtags := []
    owedInteg := h.owedInteg || bitAt misc 2, pages := h.imPages misc (w 0xA0)
    owedSoft := h.owedSoft || bitAt misc 4
    heldXf := h.heldXf && bitAt misc 5, heldBrk := h.heldBrk && bitAt misc 6
    sfaddr := if bitAt misc 4 then w 0xA8 else h.sfaddr
    wovf := bitAt misc 1, whit := bitAt misc 0, watch := watch, cond := cond, st := .pending, accept := true, place := h.place + 1, progress := 0
    emark := 0, image := 0, packed := [], seals := [], waitClk := 0, waiting := false, preempt := false }

/-- The contents of the ranges of an image written to the operand buffer. -/
def State.loadRanges (s : State) (func a pkg q : Nat) : List W64 → Nat → State
  | [], _ => s
  | r :: rs, off =>
    if obValid r then
      (({ s with opbuf := s.opbuf.write (obPlace pkg q (obBase r)) (s.devRead .glob (a + off) (64 * obLen r)) } : State).tagBuf
        (obPlace pkg q (obBase r)) (obLen r) func).loadRanges func a pkg q rs (off + 64 * obLen r)
    else s.loadRanges func a pkg q rs off

/-- Monitor entries of a core in use (R37). -/
def State.monitors (s : State) (pkg : Nat) : Nat :=
  (s.grpsWhere (fun g => g.resident && g.pkg == pkg && (match g.cond with
    | .monitor .. => true
    | _ => false))).length

/-- The condition of a group just installed, evaluated again (R72, R73): met, it leaves the group pending; else the group is suspended. -/
def State.recheck (s : State) (gi : Nat) : State :=
  let g := s.grp gi
  let sleep := fun (s : State) => s.modGrp gi (fun g => { g with st := .suspended })
  match g.cond with
  | .none | .pool _ => s
  | .counter k t => if t.toNat ≤ (g.ctr.getD k 0).toNat then s.wake gi true else sleep s
  | .till a t => if s.tillMet a t then s.wake gi false else sleep s
  | .monitor _ pa x => if Config.monitorMax < s.monitors g.pkg || s.seenWord g.func pa != x then s.wake gi false else sleep s
  | _ => sleep s

/-- Entries of a group placed in its core's pool as far as it takes them, then in its overflow area (R94). -/
def State.placeEscrow (s : State) (gi : Nat) (es : List Esc) : State :=
  es.foldl (fun s e => { s with escrow := s.escrow ++ [{ e with pool := decide (0 < s.poolRoom gi s.escrow) }] }) s

/-- A saved or moving group installed in a slot of a core and quarter (R73, R71, R350, R336, R405): the entry reads STATE 1 there with
PLACE one higher. It holds while ranges, escrow or a translation are wanting. An image that fails its checks is `bad`. Where the walk of the name
table finds no entry its update is left out, and the group is installed all the same (the model's choice, log entry 66). -/
def State.install (s : State) (gi pkg q slot : Nat) : Install :=
  let h := s.grp gi
  let a := h.image
  if !s.imageOk a then .bad s
  else
    let (_, esc, rng, ops, _) := s.imParts a
    let recs0 := (List.range 8).map (fun k => s.imWord a (0x340 + 8 * k))
    match placeRecords (s.usedLines pkg q) recs0 with
    | none => .hold s
    | some recs =>
      let n := bitsN (s.imWord a 0x90) 31 0
      if (s.modGrp gi (fun g => { g with pkg := pkg })).escRoom gi < n then .hold s
      else
        let mon := bitsN (s.imWord a 0x70) 2 0 == 3
        let fm := if mon then s.findAt gi (s.imWord a 0x80).toNat accRead else (.page, s)
        if mon && fm.1 == .wait then .hold fm.2
        else match fm.2.imEscrow gi a (h.packed.map Op.id) (withIds h.seals ((List.range n).map (fun k => esc + 64 * k))) [] [] with
        | (none, s1) => .hold s1
        | (some (es, bad1), s1) =>
          let pk := ofBytesLE (s1.devRead .glob (a + ops) 8)
          match s1.imPieces gi ((withIds (h.packed.flatMap (fun o => (h.loadPackets o).map (fun _ => o.id))) ((List.range pk).map (fun k => ops + 64 + 64 * k))).map (fun x => (x.2, s1.imPacket a x.1))) [] [] with
          | (none, s2) => .hold s2
          | (some (pieces, bad2), s2) =>
            let c0 := s2.imCond a pkg (match fm.1 with
              | .at_ pa => pa
              | _ => 0)
            -- a barrier released, or a monitor that no longer translates, leaves the group pending
            let cond := match c0 with
              | .teamBarrier _ | .clusterBarrier _ | .gridBarrier _ => h.cond
              | .monitor .. => if fm.1 = .page then .none else c0
              | c => c
            let lw := pieces.filter (fun p => decide (3 ≤ bitsN p.hdr 58 56))
            let watch := dedupN (lw.map (fun p => sectorOf p.place))
            let sp := fun (sec : Nat) => match lw.find? (fun p => sectorOf p.place == sec) with
              | some p => if bitsN p.hdr 58 56 = 3 then Space.tile else Space.glob
              | none => Space.glob
            let ws := watch.map (fun sec => ⟨sp sec, sec, 1, true⟩)
            let g := s2.imGroup a h pkg q slot recs cond ws
            let s3 := (s2.setGrp gi g).loadRanges h.func a pkg q recs rng
            let s4 := s3.placeEscrow gi es
            let s5 := (bad1 ++ bad2).foldl (fun s va => s.modGrp gi (fun g => g.owePage 0 va accWrite)) s4
            let s6 := (joinPieces pieces []).foldl (fun s l => s.reissue gi h.packed l) s5
            let s7 := match s6.walkName g.func (nameIndex g.name) with
              | .error _ => s6
              | .ok e =>
                let w0 := setBits (setBits (setBits e.w0 2 0 1) 30 30 0) 26 11 g.place.toNat
                s6.devWriteBytes .glob e.pa (bytesLE 8 w0.toNat ++ bytesLE 8 (locWord pkg q slot).toNat) none false
            let s8 : State := { s7 with hub := { s7.hub with images := s7.hub.images.filter (fun i => !(i.1 == g.func && i.2.1 == a)) } }
            .done ((s8.recheck gi).poolReturn pkg q)

end Sys2Proof.Machine
end

