-- ==== Sys2Proof/Machine/Ops.lean ====
section
/-! DEFINITION. The shared operations of instruction words: taking a trap and returning from one (R226, R235 to R240, R358, R448), the
order of checks (R225), and the issue of a word at its clock (R206 to R208, R338). -/

namespace Sys2Proof.Machine

/-- The end of an attempt that a translation may hold up. -/
inductive Try where
  | done (s : State)
  | hold (s : State)
  deriving DecidableEq, Repr

/-- The pages that n bytes from an address touch. -/
def pagesOf (va n : Nat) : List Nat :=
  if n = 0 then [] else (List.range ((va + n - 1) / 4096 - va / 4096 + 1)).map (fun k => alignDown va 4096 + 4096 * k)

/-- Translations of the pages of a range for a group: pairs of page and frame, or a wait, or a finding. -/
def State.pageMap (s : State) (gi access : Nat) : List Nat → List (Nat × Nat) → Tr × List (Nat × Nat) × State
  | [], acc => (.ok 0, acc, s)
  | p :: ps, acc =>
    match s.translate gi p access with
    | (.ok pa, s1) =>
      if s1.destOk (s1.grp gi).func (some (s1.grp gi).pkg) pa then s1.pageMap gi access ps (acc ++ [(p, pa)]) else (.space, [(p, 0)], s1)
    | (t, s1) => (t, [(p, 0)], s1)

/-- The physical place of an address under such pairs. -/
def placeIn (m : List (Nat × Nat)) (va : Nat) : Nat := lookupD m (alignDown va 4096) 0 + va % 4096

/-! Taking a trap (R239) -/

/-- Where a trap strikes: the lanes of its run, the position it records, and where the run resumes. -/
structure TrapAt where
  run    : BitVec 64
  pos    : Nat
  resume : W64
  rpos   : Nat
  deriving DecidableEq, Repr

/-- The PC table with every started clause's lanes at the word they issue next, and the trapping run's at its resume point (R226). The group's
earliest-issue mark is then the latest of its clauses' (R338, R347), and nothing waits any more (R31). -/
def Group.record (g : Group) (r : TrapAt) : Group :=
  let at_ := fun (i : Nat) => if r.run.getLsbD i then (r.resume, r.rpos) else
    match g.clauses.find? (fun c => c.lanes.getLsbD i) with
    | some c => (c.hdr, c.pos)
    | none => (g.pc.getD i 0, g.rpos.getD i 0)
  { g with pc := (List.range 64).map (fun i => (at_ i).1), rpos := (List.range 64).map (fun i => (at_ i).2), clauses := [], sel := []
           emark := g.clauses.foldl (fun m c => max m c.mark) g.emark, waiting := false, waitClk := 0 }

/-- TCAUSE as a trap entry writes it (R237). -/
def tcauseWord (cause : Cause) (code pos : Nat) : W64 := BitVec.ofNat 64 (65536 * (code % 65536) + 256 * pos + cause.code)

/-- The four words of a lane's trap frame (R358). -/
def Group.frameWords (g : Group) (r : TrapAt) (cause : W64) (faddr : W64) (i : Nat) : List W64 :=
  [g.pc.getD i 0, faddr, cause, BitVec.ofNat 64 ((if r.run.getLsbD i then 256 else 0) + g.rpos.getD i 0)]

/-- The frames of every live lane written as private stores: byte p of every lane's window lies in one row of 256 bytes (R84). -/
def State.putFrames (s : State) (gi : Nat) (words : Nat → List W64) (m : List (Nat × Nat)) : State :=
  let g := s.grp gi
  let f := g.frameOff
  let byte := fun (i k : Nat) => (bytesLE 8 ((words i).getD (k / 8) 0).toNat).getD (k % 8) 0
  { s with escrow := (List.range 64).foldl (fun es j =>
      -- sector j of the 2 KiB: row j / 8, lanes 8 (j mod 8) to 8 (j mod 8) + 7
      let va := g.privAddr (8 * (j % 8)) (f + 4 * (j / 8))
      let d := (List.range 32).map (fun b =>
        let i := 8 * (j % 8) + b / 4
        if g.live.getLsbD i then some (byte i (4 * (j / 8) + b % 4)) else none)
      escMerge es gi .priv .glob (placeIn m va) va d) s.escrow }

/-- What INTEGRITY discards at its entry: the group's group-level entries and its watch set (R115), and the operations that met poisoned
lines, whose slots clear (R294). -/
def State.integDiscard (s : State) (gi : Nat) : State := (s.integLoss gi).modGrp gi (fun g => { g.dropFailed with owedInteg := false })

/-- Taking a trap: the one operation by which every trap enters the handler (R239). The run's position is recorded, each live lane's
frame is written, TCAUSE is set, every live lane goes to TBASE, and TS is set. With TS set, TBASE 0 or a faulting frame store, the group
faults instead (R409). A frame store's translation may hold the entry. -/
def State.trapEntry (s : State) (gi : Nat) (cause : Cause) (code : Nat) (faddr : W64) (r : TrapAt) : Try :=
  let g0 := s.grp gi
  let g := g0.record r
  if g0.ts then
    .done ((s.setGrp gi g).groupFault gi (bitsN g0.tcause 7 0) cause.code 0 faddr)
  else if g0.tbase = 0 then .done ((s.setGrp gi g).groupFault gi cause.code 0 1 faddr)
  else if g.privLen < g.frameOff + 32 then .done ((s.setGrp gi g).groupFault gi cause.code 0 2 faddr)
  else
    match s.pageMap gi accWrite (pagesOf (g.privAddr 0 g.frameOff) 2048) [] with
    | (.hold, _, s1) => .hold s1
    | (.ok _, m, s1) =>
      let tc := tcauseWord cause code r.pos
      let s2 := (s1.modGrp gi (fun g => g.record r)).putFrames gi (fun i => g.frameWords r tc faddr i) m
      let s3 := if cause = .integrity then s2.integDiscard gi else s2
      .done (s3.modGrp gi (fun g => { g with
        tcause := tc, ts := true, pc := (List.range 64).map (fun i => if g.live.getLsbD i then g.tbase else 0)
        rpos := List.replicate 64 0, xfFail := none }))
    | (_, _, s1) => .done ((s1.modGrp gi (fun g => g.record r)).groupFault gi cause.code 0 2 faddr)

/-! Returning from a trap (R240) -/

/-- The PC and resume words of the trap frames, read as the group's own private loads would be. -/
def State.getFrames (s : State) (gi : Nat) (m : List (Nat × Nat)) : List (W64 × W64) :=
  let g := s.grp gi
  let word := fun (i off : Nat) => BitVec.ofNat 64 (ofBytesLE ((List.range 8).map (fun k =>
    s.privSeen gi (placeIn m (g.privAddr i (g.frameOff + off + k))))))
  (List.range 64).map (fun i => if g.live.getLsbD i then (word i 0, word i 24) else (0, 0))

/-- The return: every live lane at the PC and position of its frame, TS clear. -/
def Group.trapReturn (g : Group) (f : List (W64 × W64)) : Group :=
  { g with
    pc := (List.range 64).map (fun i => if g.live.getLsbD i then (f.getD i (0, 0)).1 else 0)
    rpos := (List.range 64).map (fun i => if g.live.getLsbD i then bitsN (f.getD i (0, 0)).2 4 0 else 0)
    ts := false, clauses := [], sel := [] }

/-! A word's context -/

/-- The context of a word that issues: group, clause and its place, issue clock, lanes of the run with a true guard, the word's view,
and whether a write of it is full (R257). -/
structure Ctx where
  gi   : Nat
  k    : Nat
  cl   : Clause
  t    : Nat
  act  : BitVec 64
  view : View
  full : Bool
  deriving DecidableEq, Repr

/-- How a word's own description ends: performed; not issued yet, since it is held (R131, R217, R288 and the waits of its own
description); issued and waiting for a translation; or a trap with its code and fault address. -/
inductive Res where
  | done (s : State)
  | hold (s : State)
  | wait (s : State)
  | trap (s : State) (cause : Cause) (code : Nat) (faddr : W64)
  deriving DecidableEq, Repr

/-- Number of instruction words of a clause, and the address of the next header (R204). -/
def Clause.count (c : Clause) : Nat := bitsN c.word 59 56 + 1
def Clause.next (c : Clause) : W64 := c.hdr + BitVec.ofNat 64 (8 * (c.count + 1))
/-- The byte address of the word at the clause's position (R448). -/
def Clause.wordAddr (c : Clause) : W64 := c.hdr + BitVec.ofNat 64 (8 * c.pos)

/-- The lowest lane that acts: the issuing lane of a once-for-the-group word (R208). -/
def Ctx.lane (c : Ctx) : Nat := (lowLane c.act).getD 0

/-- The context of a word that has no view of its own. -/
def Ctx.bare (gi k : Nat) (cl : Clause) (t : Nat) : Ctx :=
  ⟨gi, k, cl, t, cl.lanes, ⟨0, .v ⟨0xFF, 0xFF, 0xFF, 0xFF, 0, ⟨0, 0, 0, 0⟩⟩, .ctrl, .no, .no, .no, .no, 0, .never, false, false, false⟩,
    false⟩

/-- A trap at the word itself (R448). -/
def Ctx.trap (c : Ctx) (s : State) (cause : Cause) : Res := .trap s cause 0 c.cl.wordAddr

/-- A trap with an address of its own: SPACE or MISALIGN (R448). -/
def Res.at_ (s : State) (cause : Cause) (addr : Nat) : Res := .trap s cause 0 (BitVec.ofNat 64 addr)

/-- A PAGE trap at an address, for an access (R389). -/
def Res.page (s : State) (addr access : Nat) : Res := .trap s .page access (BitVec.ofNat 64 addr)

/-! Guards (R205, R207) -/

/-- The guard field 0 or 1 of a header. -/
def guardField (w : W64) (n : Nat) : BitVec 16 := w.extractLsb' (if n = 0 then 32 else 16) 16
def guardReg (f : BitVec 16) : RegCode := f.extractLsb' 6 8

/-- Whether a guard field is refused at the header (R205). -/
def guardBad (f : BitVec 16) : Bool :=
  if bitAt f 15 then
    decide (0xF3 ≤ (guardReg f).toNat) || (isV (guardReg f) && decide (32 ≤ bitsN f 5 0))
  else f != 0

/-- Whether a header fails the checks of R205. -/
def headerBad (w : W64) : Bool :=
  decide (5 ≤ bitsN w 63 60) || bitsN w 15 0 != 0 || guardBad (guardField w 0) || guardBad (guardField w 1)

/-- A guard sampled for every lane at clock u (R207): the value, and whether the read was uncovered (R341). -/
def State.sampleGuard (s : State) (gi : Nat) (f : BitVec 16) (u beside : Nat) : BitVec 64 × Bool × State :=
  let reg := guardReg f
  let bit := bitsN f 5 0
  let flip := fun (m : BitVec 64) => if bitAt f 14 then ~~~m else m
  if !bitAt f 15 then (0, false, s)
  else if isV reg then
    let r := s.readVec gi reg u
    (flip (laneMask (fun i => bitAt (r.1.getD i 0) bit)), (s.grp gi).short reg u beside none, r.2.2)
  else if isS reg then
    let r := s.readScalars gi reg u
    (flip (laneMask (fun i => bitAt (r.1 i) bit)), (s.grp gi).short reg u beside none, r.2)
  else if reg = 0xF1 then (flip (laneMask (fun i => Nat.testBit i bit)), false, s)
  else if reg = 0xF2 then (flip (laneMask (fun i => Nat.testBit (i / 4) bit)), false, s)
  else (flip 0, false, s)

/-- A clause's guards sampled where its first word has not issued yet (R206 step 3, R340): the sample stands from the clock at which
that word issues. -/
def State.sample (s : State) (gi : Nat) (c : Clause) (u : Nat) : Clause × State :=
  if c.sampled then (c, s)
  else
    let a := s.sampleGuard gi (guardField c.word 0) u c.beside
    let b := a.2.2.sampleGuard gi (guardField c.word 1) u c.beside
    ({ c with g0 := a.1, g1 := b.1, short0 := a.2.1, short1 := b.2.1 }, b.2.2)

/-- The lanes of a clause with a true guard under a GSEL (R207). -/
def Clause.active (c : Clause) (gsel : BitVec 2) : BitVec 64 :=
  c.lanes &&& (if gsel.getLsbD 0 then c.g0 else BitVec.allOnes 64) &&& (if gsel.getLsbD 1 then c.g1 else BitVec.allOnes 64)

/-- The guard fields that a GSEL selects, with whether each sample was uncovered. -/
def Clause.selected (c : Clause) (gsel : BitVec 2) : List (BitVec 16 × Bool) :=
  (if gsel.getLsbD 0 then [(guardField c.word 0, c.short0)] else []) ++ (if gsel.getLsbD 1 then [(guardField c.word 1, c.short1)] else [])

/-! The order of checks (R225) -/

/-- Tests 1 to 9: of the word and its clause's header. GROW_LIMIT is the fate that test 9 names for GROW. -/
def encodingFate (i : Instr) (v : View) (c : Clause) : Option Cause :=
  let gsel := v.lay.anc.gsel
  let classBad := v.cls.code != bitsN c.word 63 60 && !(c.pos == c.count && v.cls == .ctrl)
  let placeBad := v.transfer && c.pos != c.count
  let gatherBad := v.gather && !bitAt c.word 48
  let guardOff := (c.selected gsel).any (fun f => !bitAt f.1 15)
  if classBad || placeBad || (staticTest i).isSome || gatherBad || guardOff then some .illegal
  else match immFate i with
    | .growLimit => some .growLimit
    | _ => none

/-- Whether a vector register number lies in the matrix window. -/
def Group.inWindow (g : Group) (n : Nat) : Bool := g.mm && decide (g.wbase ≤ n ∧ n < g.wbase + 64)

/-- Whether an instruction is not admitted in the group's mode (R142, R145, R320). -/
def modeBad (i : Instr) (mm : Bool) : Bool :=
  match i with
  | .modeM _ => mm
  | .modeV _ | .mzero _ | .mop _ | .mdrain _ => !mm
  | _ => false

/-- The register codes that a word reads, with whether each is the A operand of a cross-lane instruction. QBLK reads its B register
under SR alone (R285). -/
def View.readCodes (v : View) (dRead : Bool) : List (RegCode × Bool) :=
  let cross := isCross v.op
  let kb := if v.op == 0x202 && bitsN v.lay.mod 2 0 != 4 then Kind.no else v.kb
  ((v.ka.codes v.lay.a).map (fun c => (c, cross)) ++ (kb.codes v.lay.b').map (fun c => (c, false)) ++
    (v.kc.codes v.lay.c).map (fun c => (c, false))) ++ (if dRead then (v.kd.codes v.lay.d).map (fun c => (c, false)) else [])

/-- The register codes that a word writes. CALL's link register stands in MOD (R230). -/
def View.writeCodes (v : View) : List RegCode :=
  match v.kd with
  | .win => []
  | k => k.codes v.lay.d ++ (if v.op == 0x003 then [0xC0 + v.lay.mod] else [])

/-- The vector registers of the guards that a word selects. -/
def guardRegs (v : View) (c : Clause) : List Nat :=
  (((c.selected v.lay.anc.gsel).map (fun f => guardReg f.1)).filter isV).map BitVec.toNat

/-- Tests 10 and 11 of a word's registers and mode (R225): of its selected guards, and, where some lane acts, of its operands. -/
def stateFate (g : Group) (i : Instr) (v : View) (c : Clause) : Option Cause :=
  let acts := c.active v.lay.anc.gsel != 0
  let regs := guardRegs v c ++ (if acts then v.regs else [])
  if regs.any (fun n => decide (16 * g.blk ≤ n)) then some .illegal
  else if acts && modeBad i g.mm then some .mode
  else if v.cls != .mat && regs.any (fun n => g.inWindow n) then some .alias_
  else none

/-- Tests 12 and 13 at the clock t at which the word issues (R225, R340 to R342). Where CHK is clear and a write to a us operand is under way, test 13
reads the tag that the register has at that clock, the newest fixed-latency write's among them, whether or not its value can be read yet; the result
of an outstanding operation gives its tag once it has ended (the model's choice, log entry 68). -/
def issueFate (g : Group) (i : Instr) (v : View) (c : Clause) (t : Nat) : Option Cause :=
  let acts := c.active v.lay.anc.gsel != 0
  let lat := latency v.op
  let short := (c.selected v.lay.anc.gsel).any (fun f => f.2) || (acts &&
    ((v.readCodes (readsD i)).any (fun r => g.short r.1 t c.beside (if r.2 then some c.lanes else none)) ||
      v.writeCodes.any (fun r => g.writeShort r (if lat = 0 then none else some (t + lat)) c.beside)))
  let uniform := fun (k : Kind) (r : RegCode) => k != .us || !isV r || (g.vreg r.toNat).tag == .u
  if g.chk && short then some .stallShort
  else if acts && !(uniform v.ka v.lay.a && uniform v.kb v.lay.b' && uniform v.kc v.lay.c) then some .shape
  else none

/-! Issue -/

/-- A clause's lanes leave it (R20): those of its transfer to the target, the others to the next header. -/
def Group.endClause (g : Group) (c : Clause) : Group :=
  let go := fun (i : Nat) => c.lanes.getLsbD i && g.live.getLsbD i
  { g with
    pc := (List.range 64).map (fun i => if go i then (if c.taken.getLsbD i then c.target else c.next)
      else if g.live.getLsbD i then g.pc.getD i 0 else 0)
    rpos := (List.range 64).map (fun i => if go i then 0 else if g.live.getLsbD i then g.rpos.getD i 0 else 0) }

/-- A word has issued at clock t: the clause's mark rises (R338), its position advances, and after its last word it ends. -/
def Group.wordDone (g : Group) (k t stall : Nat) : Group :=
  let mark := t + max 1 stall
  match g.clauses[k]? with
  | none => { g with emark := max g.emark mark }
  | some c =>
    if c.pos < c.count then { g with clauses := setNth g.clauses k { c with mark := mark, pos := c.pos + 1, sampled := true } }
    else
      let g1 := g.endClause c
      { g1 with clauses := dropNth k g.clauses, emark := max g.emark mark }

/-- Whether a clause issues no further word because of a trap that the one beside it owes: its word of that clock is performed (R226). -/
def Clause.stoppedBy (c beside : Clause) : Bool :=
  match beside.owes with
  | some x => decide (x.2.2.2 < c.mark)
  | none => false

/-- The clause of a group that issues next at a clock or later: of two beside each other the head run's, unless the other's word is due
before it, or a trap that one owes stops the other (R24, R226). -/
def Group.nextClause (g : Group) (now : Nat) : Option Nat :=
  match g.clauses with
  | [] => none
  | [_] => some 0
  | a :: b :: _ =>
    if a.owes.isSome then some (if b.stoppedBy a then 0 else 1)
    else if b.owes.isSome then some (if a.stoppedBy b then 1 else 0)
    else some (if max now b.mark < max now a.mark then 1 else 0)

/-- The first clock at which a quarter's issue slot is free for a group: two clauses beside each other issue in one clock (R24, R345). -/
def Quarter.freeFor (x : Quarter) (gi : Nat) : Nat := if x.user = gi then x.free - 1 else x.free

/-- The clock at which a clause's next word issues: the core's clock, the clause's mark, and the quarter's issue slot (R24, R338,
R345). -/
def State.issueClock (s : State) (gi : Nat) (c : Clause) : Nat :=
  let g := s.grp gi
  max (max (s.clk g.pkg) c.mark) ((s.quarter g.pkg g.qtr).freeFor gi)

/-- The clause of a group that issues next: at the first clock at which its quarter's issue slot is free for it. -/
def State.nextClause (s : State) (gi : Nat) : Option Nat :=
  let g := s.grp gi
  g.nextClause (max (s.clk g.pkg) ((s.quarter g.pkg g.qtr).freeFor gi))

/-- Groups in order of effective priority, then of slot number after the one served last (R32). -/
def State.inTurn (s : State) (last : Nat) (l : List Nat) : List Nat :=
  let key := fun (g : Nat) => ((s.grp g).slot + 15 - last) % 16
  sortBy (fun a b => decide ((s.grp b).prio < (s.grp a).prio) || ((s.grp a).prio == (s.grp b).prio && decide (key a < key b))) l

/-- The words due in a core: the groups inside clauses, by quarter and there in the order of R32, each with its clause and clock. -/
def State.due (s : State) (pkg : Nat) : List (Nat × Nat × Nat) :=
  (List.range 4).flatMap (fun q =>
    (s.inTurn (s.quarter pkg q).rrIssue (s.inQuarter pkg q)).filterMap (fun gi =>
      match s.nextClause gi with
      | some k => (s.grp gi).clauses[k]?.map (fun c => (gi, k, s.issueClock gi c))
      | none => none))

/-- The first of a list by the clock that it names. -/
def soonest : List (Nat × Nat × Nat) → Option (Nat × Nat × Nat)
  | [] => none
  | x :: xs => match soonest xs with
    | some y => if y.2.2 < x.2.2 then some y else some x
    | none => some x

/-- The cursor after a word: the word of the core that is due first, which R32 decides among those of one quarter (R345). -/
def State.moveCur (s : State) (pkg : Nat) : State := { s with cur := (soonest (s.due pkg)).map (fun x => (x.1, x.2.1)) }

/-- Whether a group's next word is due first: in its quarter as R32 decides, and no later than any other of the core (R345). -/
def State.dueFirst (s : State) (gi : Nat) : Bool :=
  let g := s.grp gi
  match soonest ((s.due g.pkg).filter (fun y => (s.grp y.1).qtr == g.qtr)) with
  | some y => y.1 == gi && (s.due g.pkg).all (fun z => decide (y.2.2 ≤ z.2.2))
  | none => false

/-- The issue slot taken by a group at clock t. -/
def State.takeSlot (s : State) (pkg q gi t : Nat) : State := s.modQuarter pkg q (fun x => { x with free := max x.free (t + 1), user := gi })

/-- A word that is held at clock t: it is tried again from the next clock on, and the clock is free for others (R217, R345). -/
def State.held (s : State) (gi k t : Nat) : State :=
  (s.modGrp gi (fun g => { g with clauses := modifyNth (fun c => { c with mark := max c.mark (t + 1) }) k g.clauses })).moveCur (s.grp gi).pkg

/-- A trap taken, with its PAGE record where it is a PAGE trap, whose `code` then says what the access was (R389). -/
def State.takeTrap (s : State) (gi : Nat) (cause : Cause) (code : Nat) (faddr : W64) (r : TrapAt) : Try :=
  if cause = .page then
    match s.trapEntry gi cause 0 faddr r with
    | .hold s1 => .hold s1
    | .done _ => (s.pageRecord gi faddr.toNat code).trapEntry gi cause 0 faddr r
  else s.trapEntry gi cause code faddr r

/-- A trap remembered by the clause whose word met it, with the clock at which it first did. The STALL of a TRAP or BRK counts from the clock of its
issue (R338). -/
def State.owe (s : State) (c : Ctx) (cause : Cause) (code : Nat) (faddr : W64) : State :=
  s.modGrp c.gi (fun g => { g with
    clauses := modifyNth (fun x => { x with owes := some (cause, code, faddr, (c.cl.owes.map (fun y => y.2.2.2)).getD c.t) }) c.k g.clauses
    emark := if cause = .trap ∨ cause = .break_ then max g.emark (c.t + max 1 c.view.lay.anc.stall.toNat) else g.emark })

/-- The earliest-issue mark of a group whose clauses end at a trap at clock t (R338, R347): the latest of its own, its clauses', and that
of the trapping word, whose STALL counts where the word is performed (TRAP and BRK). -/
def Group.trapMark (g : Group) (t stall : Nat) : Nat := g.clauses.foldl (fun m c => max m c.mark) (max g.emark (t + max 1 stall))

/-- The trap of a word taken at its clock: it records the word's position; TRAP and BRK resume at the next header (R236, R328). A WRSR in
the same clock does not govern it (R325). -/
def State.enterTrap (s : State) (c : Ctx) (cause : Cause) (code : Nat) (faddr : W64) : State :=
  let after := cause == .trap || cause == .break_
  let g := s.grp c.gi
  let r : TrapAt := ⟨c.cl.lanes, c.cl.pos, if after then c.cl.next else c.cl.hdr, if after then 0 else c.cl.pos⟩
  let mark := g.trapMark c.t (if after then c.view.lay.anc.stall.toNat else 0)
  match (s.modGrp c.gi (fun x => { x with tbase := (g.asAt c.t).tbase })).takeTrap c.gi cause code faddr r with
  | .done s1 => ((s1.modGrp c.gi (fun x => { x with tbase := g.tbase, emark := mark })).takeSlot g.pkg g.qtr c.gi c.t).moveCur g.pkg
  | .hold s1 => ((s1.modGrp c.gi (fun x => { x with tbase := g.tbase })).owe c cause code faddr).held c.gi c.k c.t

/-- A trap at a word of a clause. Of two clauses beside each other the other first completes the word that issues in the same clock; where
both trap the head run's trap is taken, and the second run's word traps again when it next issues (R226, R239). -/
def State.trapWord (s : State) (c : Ctx) (cause : Cause) (code : Nat) (faddr : W64) : State :=
  let others := dropNth c.k (s.grp c.gi).clauses
  if others.any (fun x => x.owes.isSome) && c.cl.owes.isNone then s.held c.gi c.k c.t
  else if others.any (fun x => decide (x.mark ≤ c.t)) && c.cl.owes.isNone then
    { s.owe c cause code faddr with cur := some (c.gi, 1 - c.k) }
  else s.enterTrap c cause code faddr

/-- A word that has issued and waits for a translation: a trap that the clause beside it owes since that clock waits for it (R226). -/
def State.waiting (s : State) (c : Ctx) : State :=
  let wait := fun (x : Clause) => { x with owes := x.owes.map (fun y => (y.1, y.2.1, y.2.2.1, if y.2.2.2 = c.t then c.t + 1 else y.2.2.2)) }
  (s.modGrp c.gi (fun g => { g with clauses := modifyNth wait (1 - c.k) g.clauses })).held c.gi c.k c.t

/-- What a word's end gives the machine. -/
def Ctx.close (c : Ctx) (r : Res) : State :=
  match r with
  | .hold s => s.held c.gi c.k c.t
  | .wait s => s.waiting c
  | .trap s cause code faddr => s.trapWord c cause code faddr
  | .done s =>
    let g := s.grp c.gi
    ((s.modGrp c.gi (fun g => g.wordDone c.k c.t c.view.lay.anc.stall.toNat)).takeSlot g.pkg g.qtr c.gi c.t).moveCur g.pkg

/-- A word's issue begun at its clock: the core's clock moves on, what is readable by now is written, and the clause's guards are sampled
(R206, R338, R340): the clock, the clause, and the state. -/
def State.enterWord (s : State) (gi k : Nat) (c0 : Clause) : Nat × Clause × State :=
  let t := s.issueClock gi c0
  let s1 := (s.advance (s.grp gi).pkg t).modGrp gi (fun g => g.landed t)
  let r := s1.sample gi c0 t
  (t, r.1, r.2.modGrp gi (fun g => { g with clauses := setNth g.clauses k r.1 }))

/-- Tests 1 to 11 of a word (R225), which no wait of it changes. -/
def wordFate (i : Instr) (v : View) (g : Group) (cl : Clause) : Option Cause :=
  match encodingFate i v cl with
  | some x => some x
  | none => stateFate g i v cl

/-- The context of a word that issues at clock t. -/
def wordCtx (g : Group) (gi k : Nat) (cl : Clause) (t : Nat) (v : View) : Ctx :=
  ⟨gi, k, cl, t, cl.active v.lay.anc.gsel, v, cl.lanes == g.live && cl.active v.lay.anc.gsel == cl.lanes⟩

/-- How a word that has begun ends: a trap that it already met, a trap of tests 1 to 11 of R225, held as its own description `body`
says, a trap of tests 12 and 13 at the clock at which it issues (R340, R341), nothing where no lane acts (R208), or as `body` says. -/
def wordRes (i : Instr) (body : Ctx → State → Res) (gi k : Nat) (r : Nat × Clause × State) : Ctx × Res :=
  let bare := Ctx.bare gi k r.2.1 r.1
  match r.2.1.owes, view i with
  | some x, _ => (bare, .trap r.2.2 x.1 x.2.1 x.2.2.1)
  | none, none => (bare, bare.trap r.2.2 .illegal)
  | none, some v =>
    let g := (r.2.2.grp gi).asAt r.1
    let c := wordCtx g gi k r.2.1 r.1 v
    (c, match wordFate i v g r.2.1 with
      | some cause => c.trap r.2.2 cause
      | none =>
        let own := if c.act = 0 then .done r.2.2 else body c r.2.2
        match own, issueFate g i v r.2.1 r.1 with
        | .hold s1, _ => .hold s1
        | _, some cause => c.trap r.2.2 cause
        | x, none => x)

/-- The issue of an instruction word by the clause that the cursor names. -/
def issueWord (i : Instr) (body : Ctx → State → Res) (s : State) : Host.Outcome State Fault Refusal :=
  match s.cur with
  | none => .fault .noIssuingClause
  | some (gi, k) =>
    match (s.grp gi).clauses[k]? with
    | none => .fault .noIssuingClause
    | some c0 =>
      let x := wordRes i body gi k (s.enterWord gi k c0)
      .next (x.1.close x.2)

/-! Operands and results in a word's context -/

/-- A vector source (kind vs). -/
def Ctx.vec (c : Ctx) (s : State) (r : RegCode) : List W32 × Tag × State := s.readLanes c.gi r c.t
/-- A scalar or uniform source (kinds ss and us). -/
def Ctx.uni (c : Ctx) (s : State) (r : RegCode) : W64 × State := s.readU c.gi r c.t c.lane

/-- A fixed-latency vector result (R257): a full write covers all 64 lanes and takes the tag of R258, any other makes the register G.
A full QBLK write of U sources in which a whole block has exited makes it G too, since that block's scale differs (R285, log entry 53). -/
def Ctx.putV (c : Ctx) (s : State) (d : RegCode) (vals : List W32) (tag : Tag) : State :=
  s.fixedV c.gi d (if c.full then BitVec.allOnes 64 else c.act) vals (if c.full then tagIf tag vals else .g) (c.t + latency c.view.op)
    c.cl.beside (isArrayOp c.view.op)

/-- A fixed-latency scalar result. -/
def Ctx.putS (c : Ctx) (s : State) (d : RegCode) (x : W64) : State := s.fixedS c.gi d x (c.t + latency c.view.op) c.cl.beside

/-- Flags that a word raises when its fixed-latency result is written (R171). -/
def Ctx.flags (c : Ctx) (s : State) (f : Flags) : State :=
  if f = 0 then s else s.modGrp c.gi (fun g => { g with pendf := g.pendf ++ [(c.t + latency c.view.op, f)] })

/-- The flags of the lanes that act. -/
def Ctx.laneFlags (c : Ctx) (rs : List (W32 × Flags)) : Flags :=
  ((rs.zip (List.range 64)).filter (fun p => c.act.getLsbD p.2)).foldl (fun f p => f ||| p.1.2) 0

/-- The lanewise tag (R258): U if every source is U. -/
def lanewise (ts : List Tag) : Tag := if ts.all (fun t => t == .u) then .u else .g

/-- The tag of an affine result (R258): U where its stride is 0. -/
def affine (vals : List W32) : Tag := if strideOf vals = 0 then .u else .a

/-- Lanes written with their tag, and the flags of those that act. -/
def Ctx.putLanes (c : Ctx) (s : State) (d : RegCode) (rs : List (W32 × Flags)) (tag : Tag) : Res :=
  .done (c.flags (c.putV s d (rs.map Prod.fst) tag) (c.laneFlags rs))

/-- Per-lane words of one, two or three vector sources; `tag` gives the tag of a full write from the sources' tags and the values. -/
def Ctx.lane1T (c : Ctx) (s : State) (d a : RegCode) (tag : Tag → List W32 → Tag) (f : W32 → W32 × Flags) : Res :=
  let x := c.vec s a
  let rs := (List.range 64).map (fun i => f (x.1.getD i 0))
  c.putLanes x.2.2 d rs (tag x.2.1 (rs.map Prod.fst))

def Ctx.lane2T (c : Ctx) (s : State) (d a b : RegCode) (tag : Tag → Tag → List W32 → Tag) (f : W32 → W32 → W32 × Flags) : Res :=
  let x := c.vec s a
  let y := c.vec x.2.2 b
  let rs := (List.range 64).map (fun i => f (x.1.getD i 0) (y.1.getD i 0))
  c.putLanes y.2.2 d rs (tag x.2.1 y.2.1 (rs.map Prod.fst))

def Ctx.lane3T (c : Ctx) (s : State) (d a b e : RegCode) (tag : Tag → Tag → Tag → List W32 → Tag) (f : W32 → W32 → W32 → W32 × Flags) : Res :=
  let x := c.vec s a
  let y := c.vec x.2.2 b
  let z := c.vec y.2.2 e
  let rs := (List.range 64).map (fun i => f (x.1.getD i 0) (y.1.getD i 0) (z.1.getD i 0))
  c.putLanes z.2.2 d rs (tag x.2.1 y.2.1 z.2.1 (rs.map Prod.fst))

/-- The same under the lanewise tag rule. -/
def Ctx.lane1 (c : Ctx) (s : State) (d a : RegCode) (f : W32 → W32 × Flags) : Res := c.lane1T s d a (fun t _ => lanewise [t]) f
def Ctx.lane2 (c : Ctx) (s : State) (d a b : RegCode) (f : W32 → W32 → W32 × Flags) : Res :=
  c.lane2T s d a b (fun p q _ => lanewise [p, q]) f
def Ctx.lane3 (c : Ctx) (s : State) (d a b e : RegCode) (f : W32 → W32 → W32 → W32 × Flags) : Res :=
  c.lane3T s d a b e (fun p q r _ => lanewise [p, q, r]) f

/-- A word of the multiply class: held until the quarter's array queue is empty (R131, R260). -/
def Ctx.array (c : Ctx) (s : State) (r : Res) : Res :=
  let g := s.grp c.gi
  if (s.quarter g.pkg g.qtr).arrayQ.isEmpty then r else .hold s

/-- A once-for-the-group word of one, two or three scalar sources. -/
def Ctx.scal1 (c : Ctx) (s : State) (d a : RegCode) (f : W64 → W64 × Flags) : Res :=
  let x := c.uni s a
  let r := f x.1
  .done (c.flags (c.putS x.2 d r.1) r.2)

def Ctx.scal2 (c : Ctx) (s : State) (d a b : RegCode) (f : W64 → W64 → W64 × Flags) : Res :=
  let x := c.uni s a
  let y := c.uni x.2 b
  let r := f x.1 y.1
  .done (c.flags (c.putS y.2 d r.1) r.2)

def Ctx.scal3 (c : Ctx) (s : State) (d a b e : RegCode) (f : W64 → W64 → W64 → W64 × Flags) : Res :=
  let x := c.uni s a
  let y := c.uni x.2 b
  let z := c.uni y.2 e
  let r := f x.1 y.1 z.1
  .done (c.flags (c.putS z.2 d r.1) r.2)

/-- Whether the word's slot is full: it is held until the count falls (R217). -/
def Ctx.slotFull (c : Ctx) (s : State) : Bool :=
  let k := c.view.lay.anc.sb.toNat
  decide (k ≠ 0) && decide (Config.slotMax ≤ (s.grp c.gi).slotCount k)

/-- Whether a memory access is held: its slot is full, or an acquire before it has not returned its value (R119, R217). -/
def Ctx.accHeld (c : Ctx) (s : State) : Bool := c.slotFull s || (s.grp c.gi).acquiring

/-- An outstanding operation of the word with a result into lanes of its destination: it sets the word's slot (R217). Its number, and the
state with it. -/
def Ctx.issueOpTo (c : Ctx) (s : State) (dest : RegCode) (span : Nat) (lanes : BitVec 64) (kind : OpKind) : Nat × State :=
  let (id, s1) := s.fresh
  (id, s1.modGrp c.gi (fun g => { g with ops := g.ops ++ [⟨id, c.view.lay.anc.sb.toNat, dest, span, lanes, c.cl.beside, kind⟩] }))

/-- The same with a result into the lanes that act. -/
def Ctx.issueOp (c : Ctx) (s : State) (dest : RegCode) (span : Nat) (kind : OpKind) : Nat × State := c.issueOpTo s dest span c.act kind

/-- The wait of an effect that leaves the group (R114): none where it may begin; a hold while lines are unchecked; INTEGRITY where one
has failed (R115). -/
def Ctx.leave (c : Ctx) (s : State) : Option Res :=
  let g := s.grp c.gi
  if g.owedInteg then some (.trap s .integrity 0 c.cl.hdr)
  else if g.debt.isEmpty then none
  else some (.hold s)

end Sys2Proof.Machine
end

