-- ==== Sys2Proof/Machine/Fetch.lean ====
section
/-! DEFINITION. Code as the device fetches it (R204) and the choice of a group's next run (R21, R24, R25). -/

namespace Sys2Proof.Machine

/-- What a fetch of a word of code gives: the word, a wait for its translation, or a trap with its fault address. -/
inductive Fetch where
  | word (w : W64) (s : State)
  | hold (s : State)
  | trap (cause : Cause) (s : State)
  deriving DecidableEq, Repr

/-- The new word, or one of the old ones that the fetch may still see, newest first (R204). -/
def pickOld (f : Nat → Bool) : Nat → W64 → List OldWord → W64
  | _, cur, [] => cur
  | k, cur, o :: os => if f k then pickOld f (k + 1) o.word os else cur

/-- A word of code at a physical address: the device-visible one, or an old one replaced since the group's last acquire (R204). -/
def State.codeWord (s : State) (gi pa : Nat) : W64 × State :=
  let olds := (s.wlog.filter (fun o => o.addr == pa && decide ((s.grp gi).acqSeq ≤ o.seq))).reverse
  let now := s.seenWord (s.grp gi).func pa
  if olds.isEmpty then (now, s)
  else
    let (f, s1) := s.drawN olds.length
    (pickOld f 0 now olds, s1)

/-- A fetch at a virtual address, handled as a data access of the group (R204, R291); a poisoned line is an integrity failure, a fenced
one a PAGE finding. -/
def State.fetch (s : State) (gi va : Nat) : Fetch :=
  if 2 ^ 57 ≤ va then .trap .space s
  else match s.translate gi va accFetch with
    | (.ok pa, s1) =>
      if !s1.destOk (s1.grp gi).func (some (s1.grp gi).pkg) pa then .trap .space s1
      else if s1.fenced pa then .trap .page s1
      else if s1.poisoned .glob pa then .trap .integrity s1
      else
        let r := s1.codeWord gi pa
        .word r.1 r.2
    | (.hold, s1) => .hold s1
    | (.space, s1) => .trap .space s1
    | (_, s1) => .trap .page s1

/-! The choice of a run -/

/-- The header of a run for its choice: waiting for a fetch, a header, or one that counts as GATHER clear (R21). -/
inductive Peek where
  | hold
  | header (w : W64)
  | clear
  deriving DecidableEq, Repr

/-- The headers of runs as the core's translations show them: looking at one starts no walk (log entry 49). -/
def State.peek (s : State) (gi : Nat) : List Run → List Peek × State
  | [] => ([], s)
  | r :: rs =>
    match s.fetch gi r.addr.toNat with
    | .word w s1 =>
      let rest := s1.peek gi rs
      ((if headerBad w then .clear else .header w) :: rest.1, rest.2)
    | .hold _ =>
      let rest := s.peek gi rs
      (.hold :: rest.1, rest.2)
    | .trap .. =>
      let rest := s.peek gi rs
      (.clear :: rest.1, rest.2)

/-- Whether every slot that a header WAITs on reads zero (R206). -/
def Group.waitMet (g : Group) (w : W64) : Bool := (List.range 7).all (fun k => !bitAt w (49 + k) || g.slotCount (k + 1) == 0)

/-- A choice: a fetch to wait for, no eligible run (R25), or a run, the one beside it, and the progress counter after it. -/
inductive Choice where
  | hold
  | deadlock
  | runs (r : Run) (p : Peek) (second : Option Run) (progress : Nat)
  deriving DecidableEq, Repr

/-- Whether a second run issues beside the head run (R24). A second run whose header fails the checks of R205, or cannot be fetched now,
does not: the head run issues alone (log entry 49). -/
def Group.dual (g : Group) (a b : Run) (pa pb : Peek) : Bool :=
  match pa, pb with
  | .header wa, .header wb =>
    (quadsOf a.lanes).all (fun q => !(quadsOf b.lanes).contains q) && !bitAt wa 48 && !bitAt wb 48 &&
    (bitsN wa 63 60 == 0 || bitsN wb 63 60 == 0) && g.waitMet wa && g.waitMet wb
  | _, _ => false

/-- Whether a run is eligible (R21). A header that is not held yet counts as one with GATHER clear (log entry 49). -/
def Group.eligible (g : Group) (x : Run × Peek) : Bool :=
  match x.2 with
  | .header w => !bitAt w 48 || x.1.lanes == g.live
  | _ => true

/-- A choice made, or held by the chosen run's header fetch, which begins now (R21). -/
def State.chosen (s : State) (gi : Nat) (x : Run × Peek) (second : Option Run) (progress : Nat) : Choice × State :=
  match x.2, s.fetch gi x.1.addr.toNat with
  | .hold, .hold s1 => (.hold, s1)
  | p, _ => (.runs x.1 p second progress, s)

/-- The run that R21 chooses, with what R24 adds. -/
def State.choose (s : State) (gi : Nat) : Choice × State :=
  let g := s.grp gi
  let (ps, s1) := s.peek gi g.runs
  let table := g.runs.zip ps
  let el := table.filter g.eligible
  match el.head?, el.getLast? with
  | some lo, some hi =>
    if 1 < el.length ∧ g.progress = 31 then s1.chosen gi hi none 0
    else
      let second := match table with
        | a :: b :: _ => if a.1 = lo.1 ∧ g.dual a.1 b.1 a.2 b.2 = true then some b.1 else none
        | _ => none
      let served := decide (el.length = 1) || lo.1 == hi.1 || second == some hi.1
      s1.chosen gi lo second (if served then 0 else g.progress + 1)
  | _, _ => (.deadlock, s1)

/-- The run about to issue, for an asynchronous trap: the one selected, else the one that R21 would choose, else the head run. -/
def State.aboutTo (s : State) (gi : Nat) : Option Run :=
  let g := s.grp gi
  match g.sel with
  | r :: _ => some r
  | [] => match (s.choose gi).1 with
    | .runs r .. => some r
    | _ => g.runs.head?

/-! The next word of a clause -/

/-- A word's context before it is decoded. -/
def State.wordCtx (s : State) (gi k : Nat) (c : Clause) : Ctx := Ctx.bare gi k c (s.issueClock gi c)

/-- A core's clock moved to that at which a clause's next word issues. -/
def State.toIssue (s : State) (gi : Nat) (c : Clause) : State := s.advance (s.grp gi).pkg (s.issueClock gi c)

/-- A word that cannot be fetched: a trap at the word; INTEGRITY names the clause's header (R115, R204, R448). -/
def State.fetchTrap (s : State) (gi k : Nat) (c : Clause) (cause : Cause) : State :=
  let s0 := s.toIssue gi c
  let s1 := if cause = .integrity then s0.integRecord gi 1 c.wordAddr.toNat else s0
  s1.trapWord (s.wordCtx gi k c) cause (if cause = .page then accFetch else 0) (if cause = .integrity then c.hdr else c.wordAddr)

/-- A word whose fetch waits for its translation. -/
def State.fetchHeld (s : State) (gi k : Nat) (c : Clause) : State := (s.toIssue gi c).held gi k (s.issueClock gi c)

/-- A trap that a clause's word has met and that is still to be entered. -/
def State.retryTrap (s : State) (gi k : Nat) (c : Clause) (x : Cause × Nat × W64 × Nat) : State :=
  (s.toIssue gi c).trapWord (s.wordCtx gi k c) x.1 x.2.1 x.2.2.1

/-- Whether a step of the agenda names a word of Virlum: it stands for the next word of the clause that issues. -/
def isWord (i : Instr) : Bool :=
  match i with
  | .reservedOpcode _ => true
  | _ => (view i).isSome

/-! A word placed where the next step fetches it -/

/-- The header of a clause that holds one word: of its class, gathering, with both guards true in every lane. -/
def oneWordHeader (i : Instr) : W64 :=
  let cls := match view i with
    | some v => v.cls.code
    | none => 0
  BitVec.ofNat 64 (cls * 2 ^ 60 + 2 ^ 48 + 0xFC00 * 2 ^ 32 + 0xFC00 * 2 ^ 16)

/-- A group in quarter 0 of core 0, of world 0, with 12 blocks and every lane live, inside a clause that stands at 0x1000. -/
def fetchGroup (w : W64) (clk seq : Nat) : Group :=
  let c : Clause := { hdr := 0x1000, word := oneWordHeader (decodeRaw w), lanes := BitVec.allOnes 64, pos := 1, sampled := false, g0 := 0, g1 := 0
                      short0 := false, short1 := false, mark := clk, beside := 0, taken := 0, target := 0, owes := none }
  { Group.blank with
    name := 0x0100000000000000, st := .active, v := List.replicate 192 VReg.zero, blk := 12, live := BitVec.allOnes 64
    pc := List.replicate 64 0x1000, accept := true, clauses := [c], acqSeq := seq }

/-- The translation of the page 0x1000 of world 0 to the frame at 0x1000. -/
def fetchTlb : Tlb := ⟨0, 0x1000, 4096, 0x1000, true, true, true⟩

/-- The state with a word placed at 0x1008 and a clause of a group that fetches it next: the frame owned by world 0, mapped for core 0,
and partition 0 READY with core 0 and memory port 0. -/
def State.placeWord (s : State) (w : W64) : State :=
  let s1 := ((s.setReg (offPart 0 0) 1).setReg (offPart 0 1) 1).setReg (offPart 0 2) 1
  let s2 := s1.modCore 0 (fun c => { c with tlb := fetchTlb :: c.tlb })
  { s2 with
    groups := s2.groups ++ [fetchGroup w (s.clk 0) s.seq]
    mem := s2.mem.write 0x1008 (bytesLE 8 w.toNat)
    hub := { s2.hub with frames := setKey s2.hub.frames 1 0x80 }
    cur := some (s2.groups.length, 0)
    agenda := ⟨0, 0, none⟩ :: s2.agenda }

end Sys2Proof.Machine
end

