-- ==== Sys2Proof/Machine/Launch.lean ====
section
/-! DEFINITION. Launches (R39 to R42, R56, R61, R247, R370, R371): the checks of a launch record, the placement of its teams with their
names and areas, and LAUNCH_PLACEMENT. -/

namespace Sys2Proof.Machine

/-! The launch record (R370) -/

def lrNbarg (w : List W64) : Nat := bitsN (w.getD 2 0) 34 28
def lrPriv (w : List W64) : Nat := bitsN (w.getD 2 0) 51 40
def lrPrio (w : List W64) : Nat := bitsN (w.getD 2 0) 18 16
def lrCh (w : List W64) : Nat := bitsN (w.getD 2 0) 15 12
def lrCw (w : List W64) : Nat := bitsN (w.getD 2 0) 11 8
def lrBlk (w : List W64) : Nat := bitsN (w.getD 2 0) 7 4
/-- Groups per team. -/
def lrGroups (w : List W64) : Nat := bitsN (w.getD 2 0) 3 0 + 1
/-- Teams. -/
def lrGrid (w : List W64) : Nat := bitsN (w.getD 3 0) 31 0
def lrOvf (w : List W64) : Nat := bitsN (w.getD 4 0) 31 16

/-- Whether a quantity lies outside R39 or a res0 field is not zero: DENIED. -/
def recordBad (w : List W64) : Bool :=
  let area := lrCw w * lrCh w
  bitsN (w.getD 0 0) 63 57 != 0 || bitsN (w.getD 2 0) 63 52 != 0 || bitsN (w.getD 2 0) 39 35 != 0 || bitAt (w.getD 2 0) 19 ||
  bitsN (w.getD 4 0) 63 32 != 0 || bitsN (w.getD 4 0) 15 9 != 0 || bitsN (w.getD 5 0) 63 32 != 0 || bitsN (w.getD 5 0) 5 0 != 0 ||
  w.getD 6 0 != 0 || w.getD 7 0 != 0 || decide (64 < lrNbarg w) || decide (lrCw w < 1 ∨ 8 < lrCw w ∨ lrCh w < 1 ∨ 8 < lrCh w) ||
  decide (12 < area) || decide (lrBlk w < 1 ∨ 12 < lrBlk w) || lrGrid w == 0 || lrGrid w % area != 0

/-- Reading a record: its words, a wait for a translation, or a failure. -/
inductive RecordRead where
  | words (w : List W64) (s : State)
  | hold (s : State)
  | bad
  deriving DecidableEq, Repr

/-- The 64 bytes of a record at a global address of a world, as the hub reads them. -/
def State.readRecord (s : State) (func addr : Nat) : RecordRead :=
  match s.hubTr 0 func addr accRead with
  | (.ok pa, s1) =>
    if s1.destOk func none pa && !s1.fenced pa && !s1.poisoned .glob pa then .words ((List.range 8).map (fun k => s1.seenWord func (pa + 8 * k))) s1
    else .bad
  | (.hold, s1) => .hold s1
  | _ => .bad

/-! Room on a core (R40 step 1) -/

/-- Groups of a team that go to quarter q. -/
def shareOf (n q : Nat) : Nat := ((List.range n).filter (fun g => g % 4 == q)).length

/-- The tile-store runs of a core that teams hold, in units of 4 KiB. -/
def State.tileRuns (s : State) (pkg : Nat) : List (Nat × Nat) :=
  (s.groups.filter (fun g => g.alive && g.pkg == pkg)).map (fun g => (g.tsoff, tileUnits (s.launchWords g)))

/-- Units of 4 KiB below the engine region (R40). -/
def tileLimit : Nat := 511

/-- The lowest offset at which n units fit: 0 or the end of a run. -/
def firstUnits (used : List (Nat × Nat)) (n : Nat) : Option Nat :=
  if n = 0 then some 0
  else (sortBy (fun a b => decide (a < b)) (0 :: used.map (fun r => r.1 + r.2))).find? (fun c =>
    decide (c + n ≤ tileLimit) && used.all (fun r => r.2 == 0 || decide (c + n ≤ r.1 ∨ r.1 + r.2 ≤ c)))

/-- Whether a core fits a team of a launch now. -/
def State.fitsTeam (s : State) (w : List W64) (pkg : Nat) : Bool :=
  (List.range 4).all (fun q =>
    let k := shareOf (lrGroups w) q
    decide (k ≤ (s.freeSlots pkg q).length) && decide (k * lrBlk w ≤ s.freeBlocks pkg q)) &&
  (firstUnits (s.tileRuns pkg) (tileUnits w)).isSome

/-- Whether a core is ready (R428, R429). -/
def State.coreReady (s : State) (pkg : Nat) : Bool := bitAt (s.reg (offCready (pkg / 64))) (pkg % 64)

/-- The cores of the rectangle whose top-left core is given, row-major; none where it leaves the die (R19, R40). -/
def rectangle (cw ch pkg : Nat) : Option (List Nat) :=
  if pkg % 8 + cw ≤ 8 ∧ pkg % 64 / 8 + ch ≤ 8 then
    some ((List.range ch).flatMap (fun r => (List.range cw).map (fun c => pkg + 8 * r + c)))
  else none

/-- The cores of the lowest free rectangle whose every core is usable and fits. -/
def firstRect (cw ch : Nat) (ok : Nat → Bool) : Option (List Nat) :=
  (List.range 256).findSome? (fun p => match rectangle cw ch p with
    | some cs => if cs.all ok then some cs else none
    | none => none)

/-- Teams that an empty core fits. -/
def emptyTeams (w : List W64) : Nat :=
  let per := (List.range 4).foldl (fun m q =>
    let k := shareOf (lrGroups w) q
    if k = 0 then m else min m (min (Config.slots / k) (Config.poolBlocks / (k * lrBlk w)))) 64
  if tileUnits w = 0 then per else min per (tileLimit / tileUnits w)

/-- Clusters that fit where each core has still so many places, taken rectangle by rectangle in ascending order. -/
def clustersFit (cw ch : Nat) : List Nat → List (Nat × Nat) → Nat
  | [], _ => 0
  | p :: ps, room =>
    match rectangle cw ch p with
    | none => clustersFit cw ch ps room
    | some cs =>
      let n := cs.foldl (fun m c => min m (lookupD room c 0)) (lookupD room p 0)
      n + clustersFit cw ch ps (cs.foldl (fun r c => setKey r c (lookupD r c 0 - n)) room)

/-- Whether the grid would fit the partition's cores with every core empty (R41). The 64 grid-barrier counters always suffice for one
launch (R39). -/
def State.everFits (s : State) (func : Nat) (w : List W64) : Bool :=
  let cores := s.partCores (s.partOf func)
  let area := lrCw w * lrCh w
  if area = 1 then decide (lrGrid w ≤ cores.length * emptyTeams w)
  else decide (lrGrid w ≤ area * clustersFit (lrCw w) (lrCh w) (List.range 256) (cores.map (fun c => (c, emptyTeams w))))

/-! Names (R56, R61) -/

/-- The next level below a directory entry. -/
def State.dirAt (s : State) (pa : Nat) : Option Nat :=
  match s.nameWord pa with
  | .ok d => (match dirNext d with
    | .ok n => some n
    | .error _ => none)
  | .error _ => none

/-- The first allocatable entry of a leaf: STATE 0 and a GEN below 0xFF. -/
def State.freeInLeaf (s : State) (leaf : Nat) : Option Nat :=
  (List.range 65536).find? (fun k =>
    !s.poisoned .glob (leaf + 32 * k) &&
    (let w0 := s.devWord .glob (leaf + 32 * k)
     nState w0 == 0 && decide (nGen w0 < 0xFF)))

/-- The allocatable entry of lowest INDEX of a world's table: its index and place. -/
def State.freeName (s : State) (func : Nat) : Option (Nat × Nat) :=
  match dirNext (s.reg (offWorld func 2)) with
  | .error _ => none
  | .ok l1 => (List.range 65536).findSome? (fun i => match s.dirAt (l1 + 8 * i) with
    | none => none
    | some l2 => (List.range 65536).findSome? (fun j => match s.dirAt (l2 + 8 * j) with
      | none => none
      | some leaf => (s.freeInLeaf leaf).map (fun k => (2 ^ 32 * i + 2 ^ 16 * j + k, leaf + 32 * k))))

/-- A name taken for a group at a location: STATE 1, PLACE 0, GEN raised, CLASS and RIGHTS of the record. -/
def State.takeName (s : State) (func : Nat) (w : List W64) (loc : W64) : Option (W64 × State) :=
  match s.freeName func with
  | none => none
  | some (idx, pa) =>
    let gen := nGen (s.devWord .glob pa) + 1
    let sclass := bitsN (w.getD 2 0) 26 24
    let rights := bitsN (w.getD 3 0) 63 32
    let s1 := s.putEntry pa 0 (BitVec.ofNat 64 (sclass * 2 ^ 27 + gen * 8 + 1))
    let s2 := (s1.putEntry pa 1 loc).putEntry pa 2 (BitVec.ofNat 64 (func * 2 ^ 32 + rights))
    some (BitVec.ofNat 64 (gen * 2 ^ 56 + idx), s2)

/-! Areas of the private pool (R371) -/

/-- The lowest address of a world's private pool at which n bytes fit. -/
def State.areaRoom (s : State) (func n : Nat) : Option Nat :=
  let base := 4096 * bitsN (s.reg (offWorld func 3)) 56 12
  let size := 4096 * s.regN (offWorld func 4) 31 0
  let used := s.hub.areas.filter (fun a => a.1 == func)
  (sortBy (fun a b => decide (a < b)) (base :: used.map (fun a => a.2.1 + a.2.2.1))).find? (fun c =>
    decide (base ≤ c ∧ c + n ≤ base + size) && used.all (fun a => decide (c + n ≤ a.2.1 ∨ a.2.1 + a.2.2.1 ≤ c)))

/-- An area allotted to a group to be: its address, 0 where nothing is asked. -/
def State.takeArea (s : State) (func n gi : Nat) : Option (Nat × State) :=
  if n = 0 then some (0, s)
  else match s.areaRoom func n with
    | none => none
    | some a => some (a, { s with hub := { s.hub with areas := s.hub.areas ++ [(func, a, n, gi)] } })

/-! Placement (R40) -/

/-- One group of a team created on its core (R29, R40): its slot, name, private window and overflow area. -/
def State.placeGroup (s : State) (l : Nat) (x : Launch) (t pos pkg tsoff gidx : Nat) : Option State :=
  let w := x.words
  let gi := s.groups.length
  let q := gidx % 4
  match (s.freeSlots pkg q).head? with
  | none => none
  | some slot =>
    if s.freeBlocks pkg q < lrBlk w then none
    else match s.takeName x.func w (locWord pkg q slot) with
      | none => none
      | some (name, s1) =>
        match s1.takeArea x.func (4096 * lrPriv w) gi with
        | none => none
        | some (win, s2) =>
          match s2.takeArea x.func (65536 * lrOvf w) gi with
          | none => none
          | some (ovf, s3) =>
            let entry : W64 := BitVec.ofNat 64 (bitsN (w.getD 0 0) 56 0)
            let cluster := t / (lrCw w * lrCh w)
            let g : Group := { Group.blank with
              name := name, func := x.func, launch := l, pkg := pkg, qtr := q, slot := slot, st := .pending
              v := List.replicate (16 * lrBlk w) VReg.zero, s := setNth (List.replicate 48 0) 0 (w.getD 1 0), blk := lrBlk w
              tframe := w.getD 5 0, prioBase := x.prio, live := BitVec.allOnes 64, pc := List.replicate 64 entry
              team := BitVec.ofNat 64 (tsoff * 2 ^ 16 + (lrGroups w - 1) * 2 ^ 4 + gidx)
              teams := BitVec.ofNat 64 (lrGrid w * 2 ^ 32 + t)
              clus := BitVec.ofNat 64 (cluster * 2 ^ 16 + lrCh w * 2 ^ 8 + lrCw w * 2 ^ 4 + pos)
              grid := BitVec.ofNat 64 (lrNbarg w * 2 ^ 16 + x.lnum)
              pwin := BitVec.ofNat 64 (win + lrPriv w), accept := true, rclass := bitsN (w.getD 2 0) 23 20
              exitSys := bitAt (w.getD 2 0) 27, ovf := lrOvf w, ovfBase := ovf }
            some ({ s3 with groups := s3.groups ++ [g] } : State)

/-- The groups of one team created, in order. -/
def State.placeGroups (s : State) (l : Nat) (x : Launch) (t pos pkg tsoff : Nat) : List Nat → Option State
  | [] => some s
  | g :: gs =>
    match s.placeGroup l x t pos pkg tsoff g with
    | none => none
    | some s1 => s1.placeGroups l x t pos pkg tsoff gs

/-- One team placed on a core. -/
def State.placeTeam (s : State) (l : Nat) (x : Launch) (t pos pkg : Nat) : Option State :=
  match firstUnits (s.tileRuns pkg) (tileUnits x.words) with
  | none => none
  | some off =>
    let units := (List.range (tileUnits x.words)).map (fun k => 512 * pkg + off + k)
    (units.foldl (fun (s : State) u => { s with tileOwn := setKey s.tileOwn u x.func }) s).placeGroups l x t pos pkg off
      (List.range (lrGroups x.words))

/-- The teams of one cluster placed on the cores of its rectangle. -/
def State.placeCluster (s : State) (l : Nat) (x : Launch) (t : Nat) : List Nat → Nat → Option State
  | [], _ => some s
  | c :: cs, pos =>
    match s.placeTeam l x (t + pos) pos c with
    | none => none
    | some s1 => s1.placeCluster l x t cs (pos + 1)

/-- Cores above THERM.HOT (R446): their temperatures are free values, one for each placement of a launch. -/
def State.hot (s : State) (t pkg : Nat) : Bool :=
  let limit := s.regN offTherm 7 0
  limit != 0 && decide (limit < Config.temperature t pkg)

/-- The clusters of a launch placed in order from one on (R40 steps 2 and 3; a team of a 1 × 1 launch is its own cluster): hot cores are
taken only where nothing else fits (R446). `t` is the placement's place among the free values. -/
def State.placeAll (s : State) (l : Nat) (x : Launch) (t k : Nat) : Nat → Option State
  | 0 => some s
  | n + 1 =>
    let usable := fun (c : Nat) => s.partCore (s.partOf x.func) c && s.coreReady c && s.fitsTeam x.words c
    let cool := firstRect (lrCw x.words) (lrCh x.words) (fun c => usable c && !s.hot t c)
    match (if cool.isSome then cool else firstRect (lrCw x.words) (lrCh x.words) usable) with
    | none => none
    | some cs =>
      match s.placeCluster l x (k * (lrCw x.words * lrCh x.words)) cs 0 with
      | none => none
      | some s1 => s1.placeAll l x t (k + 1) n

/-- Grid-barrier counters not allotted to a launch that has not ended (R40 step 4). -/
def State.freeBars (s : State) : List Nat :=
  let used := (s.launches.filter (fun x => x.placed && !x.done)).flatMap Launch.bars
  (List.range 64).filter (fun b => !used.contains b)

/-- A waiting launch placed whole, or not at all (R40): while its world runs, its slice is current and its partition is READY (R398); its groups begin with an acquire,
at system scope for a LAUNCH and at device scope for a SPAWN (R247, R371). -/
def State.placeLaunch (s : State) (l : Nat) : Option State :=
  match s.launches[l]? with
  | none => none
  | some x0 =>
    if x0.placed || x0.done || x0.words.length != 8 || s.worldState x0.func != 2 || !s.sliceCurrent x0.func ||
      s.partState (s.partOf x0.func) != 1 then none
    else
      let n := lookupD s.hub.placedN x0.func 0
      let bars := s.freeBars.take (lrNbarg x0.words)
      if bars.length < lrNbarg x0.words then none
      else
        let x := { x0 with lnum := n % 2 ^ 16 }
        match s.placeAll l x s.freeCount 0 (lrGrid x.words / (lrCw x.words * lrCh x.words)) with
        | none => none
        | some s1 =>
          let new := (List.range (s1.groups.length - s.groups.length)).map (fun k => s.groups.length + k)
          let s2 : State := { s1 with
            launches := setNth s1.launches l { x with placed := true, groups := new, bars := bars }
            freeCount := s1.freeCount + 1
            hub := { s1.hub with placedN := setKey s1.hub.placedN x.func (n + 1) } }
          let scope := match x.by_ with
            | .teller .. => 4
            | .spawn .. => 3
          some (new.foldl (fun s g => s.acquire g scope) s2)

/-- A launch that is refused: it is over, and it is not counted (R371). -/
def State.dropLaunch (s : State) (l : Nat) : State :=
  { s with launches := modifyNth (fun x => { x with done := true, released := true }) l s.launches }

/-- What a launch's reply says to its sender: the status of a SPAWN, or a LAUNCH command's completion at refusal (R247, R369). -/
def State.refuseLaunch (s : State) (l st : Nat) : State :=
  match s.launches[l]? with
  | none => s
  | some x => match x.by_ with
    | .spawn g op => (s.dropLaunch l).endStatus g op (BitVec.ofNat 64 st)
    | .teller q tag note cname caddr => (s.dropLaunch l).completeCommand x.func q tag note cname caddr st 0

/-- A launch whose words are read: refused by R39 and R41, else placed where it fits now, else left waiting. A SPAWN's slot clears at
placement (R247); a LAUNCH's ring entry is freed (R365). -/
def State.admitLaunch (s : State) (l : Nat) : State :=
  match s.launches[l]? with
  | none => s
  | some x =>
    if recordBad x.words then s.refuseLaunch l stDenied
    else if !s.everFits x.func x.words then s.refuseLaunch l stFull
    else match s.placeLaunch l with
      | none => s
      | some s1 => match x.by_ with
        | .spawn g op => s1.endStatus g op (BitVec.ofNat 64 stOk)
        | .teller .. => s1

/-- The record of a launch read where it is still to be: its priority is the lower of the record's and the spawner's BASE (R42). -/
def State.readLaunch (s : State) (l : Nat) : State :=
  match s.launches[l]? with
  | none => s
  | some x =>
    if x.done || x.words.length == 8 then s
    else match s.readRecord x.func (x.words.headD 0).toNat with
      | .hold s1 => s1
      | .bad => s.refuseLaunch l stXlate
      | .words w s1 =>
        ({ s1 with launches := setNth s1.launches l { x with words := w, prio := min x.prio (lrPrio w) } } : State).admitLaunch l

/-- LAUNCH_PLACEMENT (R40): a launch that waits is placed whole once it fits; a SPAWN's record is read first. -/
def execLaunchPlacement (l : Nat) (s : State) : Host.Outcome State Fault Refusal :=
  match s.launches[l]? with
  | none => .next s
  | some x =>
    if x.done || x.placed then .next s
    else if x.words.length ≠ 8 then .next (s.readLaunch l)
    else match s.placeLaunch l with
      | none => .next s
      | some s1 => match x.by_ with
        | .spawn g op => .next (s1.endStatus g op (BitVec.ofNat 64 stOk))
        | .teller q .. => .next { s1 with hub := { s1.hub with rings := setKey s1.hub.rings q ((lookupD s1.hub.rings q []).drop 1) } }

end Sys2Proof.Machine
end

