-- ==== Sys2Proof/Machine/CompleteEv.lean ====
section
/-! DEFINITION. Completions of variable-latency operations (file 11 R287 to R303, files 03 to 05). An event that is not enabled leaves the
state as it is. -/

namespace Sys2Proof.Machine

/-- LOAD_COMPLETE (R293, R294, R405): data returns for the lanes of `mask`; `near` says that the near cache serves them. -/
def execLoadComplete (g op : Nat) (mask : BitVec 64) (near : Bool) (s : State) : Host.Outcome State Fault Refusal :=
  .next (s.runLoad g op mask near)

/-- STORE_COMPLETE (R293): of a plain store. -/
def execStoreComplete (g op : Nat) (s : State) : Host.Outcome State Fault Refusal :=
  match (s.grp g).op op with
  | some o => match o.kind with
    | .store | .storePrivate => .next (s.endOp g op)
    | _ => .next s
  | none => .next s

/-- COMMIT_COMPLETE (R301, R98, R105): the sectors of `sel` reach the scope, all that remain where it is empty; the status comes with the
last of them. -/
def execCommitComplete (g op : Nat) (sel : List Nat) (s : State) : Host.Outcome State Fault Refusal := .next (s.runCommit g op sel)

/-- ABORT_COMPLETE (R302, R101, R102). -/
def execAbortComplete (g op : Nat) (s : State) : Host.Outcome State Fault Refusal := .next (s.runAbort g op)

/-- RELEASE_PERFORM (R120): the release of a store, an atomic, a request, a SPAWN or a kick store as far as it can go; after it the store
lands, the request leaves the core, the launch record is read, the list is handed over. -/
def execReleasePerform (g op : Nat) (sel : List Nat) (s : State) : Host.Outcome State Fault Refusal :=
  match (s.grp g).op op with
  | none => .next s
  | some o =>
    match o.kind with
    | .storeRel .. => .next (s.runStoreRel g op sel)
    | .atomic .. | .atomp .. => .next (s.atomRelease g op sel).1
    | .kick .. => .next (s.runKick g op sel)
    | .request .. | .bulk .. => .next (s.runRequest g op sel)
    | .spawn .. =>
      let s1 := s.runRequest g op sel
      if s.launches.length < s1.launches.length then .next (s1.readLaunch s.launches.length) else .next s1
    | _ => .next s

/-- ATOMIC_PERFORMED (R298, R300): the lanes of `order` in that order, or all that remain in ascending order. -/
def execAtomicPerformed (g op : Nat) (order : List Nat) (s : State) : Host.Outcome State Fault Refusal := .next (s.runAtomic g op order)

/-- VAULT_ROUTINE_RUN (R109, R299): one lane's routine. A request that the line's queue refuses is resent and runs at a later event. -/
def execVaultRoutineRun (g op lane : Nat) (s : State) : Host.Outcome State Fault Refusal := .next (s.runAtomp g op [lane])

/-- The SFU operation that a quarter's SFU serves next: the first in order of issue (R288). -/
def State.sfuFirst (s : State) (pkg q : Nat) : Option Nat :=
  let ids := (s.inQuarter pkg q).flatMap (fun g => ((s.grp g).ops.filter (fun o => match o.kind with
    | .sfu .. => true
    | _ => false)).map Op.id)
  (sortBy (fun a b => decide (a < b)) ids).head?

/-- SFU_COMPLETE (R287, R288). -/
def execSfuComplete (g op : Nat) (s : State) : Host.Outcome State Fault Refusal :=
  let x := s.grp g
  if s.sfuFirst x.pkg x.qtr = some op then .next (s.runSfu g op) else .next s

/-- MOP_COMPLETE (R142): of the block at the head of a quarter's array queue. -/
def execMopComplete (core qtr : Nat) (s : State) : Host.Outcome State Fault Refusal := .next (s.runMop core qtr)

/-- MULTIPLY_ARRAY_ISSUE (R131, R260): once the array queue is empty, a group's held multiply-class word has the issue slot in its turn (R345). -/
def execMultiplyArrayIssue (g : Nat) (s : State) : Host.Outcome State Fault Refusal :=
  let x := s.grp g
  match s.nextClause g with
  | none => .next s
  | some k =>
    match x.clauses[k]? with
    | none => .next s
    | some c =>
      if !x.resident || !(s.quarter x.pkg x.qtr).arrayQ.isEmpty || x.killing.isSome || !s.dueFirst g then .next s
      else match s.fetch g c.wordAddr.toNat with
        | .word w s1 => if isArrayOp (opOf w) then .next { s1 with cur := some (g, k) } else .next s
        | _ => .next s

/-- OBRES_COMPLETE (R135): the status of an OBRES or an OBREL. -/
def execObresComplete (g op : Nat) (s : State) : Host.Outcome State Fault Refusal :=
  match (s.grp g).op op with
  | some o => match o.kind with
    | .obres _ st _ => .next (s.endStatus g op (BitVec.ofNat 64 st))
    | _ => .next s
  | none => .next s

/-- OBLOAD_COMPLETE (R136). -/
def execObloadComplete (g op : Nat) (s : State) : Host.Outcome State Fault Refusal := .next (s.runObload g op)

/-- MDRAIN_READ_COMPLETE (R150, R323). -/
def execMdrainReadComplete (g op : Nat) (s : State) : Host.Outcome State Fault Refusal := .next (s.runMdrain g op)

/-! Integrity debt (R113 to R115) -/

/-- A group's debt without its k-th line. -/
def Group.lessDebt (g : Group) (k : Nat) : Group := { g with debt := dropNth k g.debt }

/-- INTEGRITY_CHECK_PASS (R113): the k-th line in debt is checked. -/
def execIntegrityCheckPass (g k : Nat) (s : State) : Host.Outcome State Fault Refusal := .next (s.modGrp g (fun x => x.lessDebt k))

/-- INTEGRITY_CHECK_FAIL (R115): the group owes INTEGRITY; the registers keep what they hold. -/
def execIntegrityCheckFail (g k : Nat) (s : State) : Host.Outcome State Fault Refusal :=
  if k < (s.grp g).debt.length then
    .next ((s.modGrp g (fun x => { x.lessDebt k with owedInteg := true })).integRecord g 0 (((s.grp g).debt.map Debt.line).getD k 0))
  else .next s

/-! Prefetch (R303) -/

/-- The physical address of a prefetched lane's line, where its address passes every test of R291: no fault is taken, and no page is
asked for. -/
def State.prefetchPa (s : State) (g : Group) (va : Nat) : Option Nat :=
  if 2 ^ 57 ≤ va then none
  else match s.walkTable g.func va false with
    | .ok t _ =>
      let pa := t.pa + (va - t.va)
      let found := match regionOf pa with
        | 0 => if s.frameOk g.func pa then some pa else none
        | 1 => if s.cxlOk g.func pa then some pa else none
        | 2 => s.atsHit (g.pkg / 64) g.func pa false
        | _ => some pa
      match found with
      | some p => if s.destOk g.func (some g.pkg) p && !s.fenced p then some p else none
      | none => none
    | _ => none

/-- PREFETCH_COMPLETE (R303): at group, team or cluster scope the lines stand in the near cache; else they stand nearer their home, which
changes nothing that is read. A poisoned line is dropped. -/
def execPrefetchComplete (g op : Nat) (s : State) : Host.Outcome State Fault Refusal :=
  match (s.grp g).op op with
  | some o => match o.kind with
    | .prefetch scope accs =>
      let x := s.grp g
      let fill := fun (t : State) (a : Acc) => match t.prefetchPa x a.addr with
        | some pa => if scope ≤ 2 ∧ regionOf pa ≠ 3 ∧ t.poisoned .glob pa = false then t.fillNear x.pkg x.func pa else t
        | none => t
      .next ((accs.foldl fill s).endOp g op)
    | _ => .next s
  | none => .next s

end Sys2Proof.Machine
end

