-- ==== Sys2Proof/Machine/Engines.lean ====
section
/-! DEFINITION. What BULK, MDRAIN, request lists and COPY commands share (file 12 R306 to R315): the tests of a copy, presence, and the
placing of an entry in a queue. -/

namespace Sys2Proof.Machine

/-- The place of an own-slice address outside the engine region (R309). -/
def ownPlace (own addr : Nat) : Option Nat :=
  match tilePlace own addr with
  | some (p, off) => if p = own ∧ off < Config.engineRegion then some (tileAbs p off) else none
  | none => none

/-- One end of a copy (R310): the place of a tile-store range, or a global range's address; none where it is refused. -/
def State.copyEnd (s : State) (func own : Nat) (space : Space) (addr len : Nat) : Option Nat :=
  match space with
  | .tile => s.tileRange func own (addr % 2 ^ 32) len
  | .glob => if 2 ^ 57 ≤ addr ∨ 2 ^ 57 < addr + len then none else some addr

/-- The address that an operand names in its space. -/
def spaceAddr (space : Space) (a : Nat) : Nat :=
  match space with
  | .tile => a % 2 ^ 32
  | .glob => a

/-- A copy's places once its tests are passed; `till` is the till's place plus one, 0 for none. -/
structure CopyPlan where
  src  : Nat
  dst  : Nat
  till : Nat
  deriving DecidableEq, Repr

/-- The tests of R310 in order: SPACE of source, destination and till, then MISALIGN; each with its fault address (R448). -/
def State.copyPlan (s : State) (func own : Nat) (ss ds : Space) (src dst len till : Nat) : Except (Cause × Nat) CopyPlan :=
  match s.copyEnd func own ss src len, s.copyEnd func own ds dst len, ownPlace own till with
  | none, _, _ => .error (.space, spaceAddr ss src)
  | some _, none, _ => .error (.space, spaceAddr ds dst)
  | some a, some b, t =>
    if till ≠ 0 ∧ t = none then .error (.space, till)
    else if src % 32 ≠ 0 then .error (.misalign, spaceAddr ss src)
    else if dst % 32 ≠ 0 then .error (.misalign, spaceAddr ds dst)
    else if len % 32 ≠ 0 then .error (.misalign, spaceAddr ss src)
    else if till % 8 ≠ 0 then .error (.misalign, till)
    else .ok ⟨a, b, if till = 0 then 0 else t.getD 0 + 1⟩

/-- The presence bits of the tile-store lines of a range cleared (R88); a range of no length clears none. -/
def State.clearPresence (s : State) (p len : Nat) : State :=
  if len = 0 then s
  else
    let lines := (List.range ((p + len - 1) / 64 - p / 64 + 1)).map (fun k => alignDown p 64 + 64 * k)
    { s with absent := s.absent ++ lines.filter (fun l => !s.absent.contains l) }

/-- An entry that has not started. -/
def Entry.fresh_ (id : Nat) (kind : EntryKind) (report : Report) (func : Nat) (name : W64) (rclass core till : Nat) : Entry :=
  { id := id, kind := kind, report := report, func := func, name := name, rclass := rclass, core := core, till := till, awaitAck := false, rel := 0
    started := false, todo := [], lineAcc := 0, turn := 0, read := none, sent := none, status := 0, fail := 0 }

/-- An entry placed in a queue of a core (R306). -/
def State.pushEntry (s : State) (q : Nat) (e : Entry) : State :=
  s.modCore e.core (fun c => { c with queues := modifyNth (fun l => enterQueue (l ++ [e])) q c.queues })

/-- A linear copy's entry placed, with its destination's presence (R88, R310): cleared now in the core's own slice, by a message and its
acknowledgement elsewhere or behind a release. -/
def State.placeCopy (s : State) (q : Nat) (e : Entry) (ds : Space) (dst len : Nat) : State :=
  let message := ds == .tile && (dst / Config.sliceBytes != e.core || e.rel != 0)
  let s1 := if ds == .tile && !message then s.clearPresence dst len else s
  s1.pushEntry q { e with awaitAck := message }

/-- Whether an entry of a group's list has still to enter its queue: it waits for an acknowledgement, or stands behind one that does (R306). -/
def Entry.outside (q : List Entry) (e : Entry) (func : Nat) (name : W64) : Bool :=
  e.func == func && e.name == name && (match e.report with
    | .list .. => true
    | _ => false) && (q.takeWhile (fun x => x.id != e.id) ++ [e]).any (fun x => x.func == func && x.name == name && (x.awaitAck || x.rel != 0))

/-- Whether records of lists that a group kicked before operation `op` have still to enter their queues, on whatever core it kicked them
(R306). -/
def State.listBefore (s : State) (gi op : Nat) (func : Nat) (name : W64) : Bool :=
  s.cores.any (fun c => c.2.lists.any (fun l => l.g == gi && decide (l.op < op)) ||
    c.2.queues.any (fun q => q.any (fun e => Entry.outside q e func name)))

/-- Whether a list that a group kicked has records still to be placed (R306). -/
def State.listing (s : State) (gi : Nat) : Bool :=
  let g := s.grp gi
  s.listBefore gi s.seq g.func g.name || g.ops.any (fun o => match o.kind with
    | .kick _ _ => true
    | _ => false)

/-- The ring or slice space that a MOD or record bit names. -/
def spaceOf (b : Bool) : Space := if b then .glob else .tile

end Sys2Proof.Machine
end

