-- ==== Sys2Proof/Machine/EngineEv.lean ====
section
/-! DEFINITION. The copy engines and the request engine (file 12 R306 to R316, R323; files 03 and 04 R88 to R90, R110, R127, R128): entries
as they start, write and end, and the records of lists. An event that is not enabled leaves the state as it is. -/

namespace Sys2Proof.Machine

/-! Entries of queues -/

/-- The die whose engines serve a queue; core 256 + d stands for the COPY commands of die d (R306, R373). -/
def dieOf (core : Nat) : Nat := if core < 256 then core / 64 else core - 256

/-- The entry at the head of a queue that has entered it (R306); the entries of a world whose slice is not current are in its save pool
(R399, R406). -/
def State.engineHead (s : State) (core q : Nat) : Option Entry :=
  match ((s.core core).queues.getD q []).find? (fun e => s.sliceCurrent e.func) with
  | some e => if !e.awaitAck && e.rel == 0 then some e else none
  | none => none

/-- A queue changed. -/
def State.modQueue (s : State) (core q : Nat) (f : List Entry → List Entry) : State :=
  s.modCore core (fun c => { c with queues := modifyNth f q c.queues })

/-- The head entry replaced. -/
def State.setHead (s : State) (core q : Nat) (e : Entry) : State := s.modQueue core q (fun l => l.map (fun x => if x.id = e.id then e else x))

/-- Whether an entry may go on: its engine is not paused at a tenant switch, and no translation fault of it is open (R308, R387, R416). -/
def State.engineRuns (s : State) (core q : Nat) (e : Entry) : Bool := s.sliceCurrent e.func && !s.entryHeld core q e.func

/-- Whether an entry is sprayed over planes, not bound to the planes of its lines (R432): a copy, and not a drain. -/
def Entry.sprayed (e : Entry) : Bool :=
  match e.kind with
  | .linear .. | .tensor .. => true
  | _ => false

/-- The planes over which a world's copies are sprayed (R432), each once: those READY that are the image under MAP of a plane of its partition. -/
def State.sprayPlanes (s : State) (func : Nat) : List Nat :=
  (List.range 8).filter (fun p => bitAt (s.reg offReady) (5 + p) && (List.range 8).any (fun l =>
    bitAt (s.reg (offPart (s.partOf func) 6)) (4 + l) && s.regN offPlremap (3 * l + 2) (3 * l) == p))

/-- Whether a sector of the fabric begins a sprayed packet of 256 bytes, `last` being the one before (R432). -/
def Entry.newPacket (e : Entry) (last : Option (Nat × Nat)) (pa : Nat) : Bool :=
  e.sprayed && regionOf pa == 3 && last.map Prod.fst != some (pa / 256)

/-- A sector read from the fabric, or sent to it: a packet takes the next turn as it begins (R432, log entry 26). -/
def Entry.readPacket (e : Entry) (pa : Nat) : Entry :=
  if e.newPacket e.read pa then { e with turn := e.turn + 1, read := some (pa / 256, e.turn) } else e
def Entry.sendPacket (e : Entry) (pa : Nat) : Entry :=
  if e.newPacket e.sent pa then { e with turn := e.turn + 1, sent := some (pa / 256, e.turn) } else e

/-- Whether an entry's packets may go to an address (R91, R377, R432): a copy's to the fabric where its partition has any plane. -/
def State.entryMay (s : State) (e : Entry) (pa : Nat) : Bool :=
  if e.sprayed && regionOf pa == 3 then s.regN (offPart (s.partOf e.func) 6) 11 4 != 0 && (s.window (fabricEp pa)).isSome
  else s.destOk e.func none pa

/-- The end of an attempt to reach an address: its place, a wait, or a status and the address that failed (R307). -/
inductive Reach where
  | at_ (p : Nat) (s : State)
  | wait (s : State)
  | fail (status addr : Nat) (s : State)
  deriving DecidableEq, Repr

/-- The place of an address that an entry reads or writes (R307): tile-store bytes in the window and allotted, global ones translated and
allowed. A clear V is a replayable fault. -/
def State.reach (s : State) (q : Nat) (e : Entry) (space : Space) (addr access : Nat) : Reach :=
  match space with
  | .tile =>
    let pkg := addr / Config.sliceBytes
    let off := addr % Config.sliceBytes
    if s.inWindow e.func e.core pkg && decide (off < Config.engineRegion) && s.allotted e.func pkg off then .at_ addr s
    else .fail stDenied addr s
  | .glob =>
    match s.hubTr (dieOf e.core) e.func addr access with
    | (.ok pa, s1) =>
      if !s1.entryMay e pa then .fail stDenied addr s1
      else if s1.fenced pa then .fail stFenced addr (s1.servedPage pa access)
      else if e.sprayed && regionOf pa == 3 && (s1.sprayPlanes e.func).isEmpty then .wait s1
      else .at_ pa s1
    | (.hold, s1) => .wait s1
    | (.absent, s1) => .wait (s1.raiseXfault e.func addr access 1 none (some (e.core, q)) none e.name)
    | (_, s1) => .fail stXlate addr s1

/-- An entry that ends in error. -/
def Entry.failed (e : Entry) (status addr : Nat) : Entry := { e with status := status, fail := addr }

/-! Shape records (R312, R313) -/

def shNdim (w : List W64) : Nat := bitsN (w.getD 1 0) 6 5 + 1
def shSpace (w : List W64) : Space := if bitAt (w.getD 1 0) 4 then .glob else .tile
def shFmt (w : List W64) : Nat := bitsN (w.getD 1 0) 3 0
/-- Size of dimension d; a dimension that is not there has size 1. -/
def shSize (w : List W64) (d : Nat) : Nat :=
  if shNdim w ≤ d then 1
  else bitsN (w.getD (2 + d / 2) 0) (32 * (d % 2) + 31) (32 * (d % 2))
/-- Stride of dimension d; 0 where it is not read. -/
def shStride (w : List W64) (d : Nat) : Nat := if d = 0 ∨ shNdim w ≤ d then 0 else (w.getD (3 + d) 0).toNat

/-- Width in bits of a format code (R156); none where it is reserved. -/
def codeBits (c : Nat) : Option Nat := (Fmt.ofCode c).map Fmt.width

/-- The base of a shape as an entry's engine finds it: a place or an address; none where the record is refused. `bits` is the element's
width. -/
def State.shapeBase (s : State) (e : Entry) (w : List W64) (bits : Nat) : Option Nat :=
  let base := (w.getD 0 0).toNat
  let z := max 1 (bits / 8)
  if bitsN (w.getD 1 0) 63 7 ≠ 0 ∨ w.getD 7 0 ≠ 0 ∨ base % z ≠ 0 ∨ (bits = 4 ∧ shSize w 0 % 2 ≠ 0) then none
  else if (List.range 4).any (fun d => shStride w d % z != 0) then none
  else match shSpace w with
    | .glob => if 2 ^ 57 ≤ base then none else some base
    | .tile =>
      if 2 ^ 32 ≤ base then none
      else match tilePlace e.core base with
        | some (pkg, off) => if s.inWindow e.func e.core pkg then some (tileAbs pkg off) else none
        | none => none

/-- Whether the bytes that a box touches stay where they may (R313): inside the base's slice and below its engine region, or below 2^57. -/
def boxOk (space : Space) (base : Nat) (ps : List Nat) : Bool :=
  match space with
  | .glob => ps.all (fun p => decide (p < 2 ^ 57))
  | .tile =>
    let slice := base / Config.sliceBytes
    ps.all (fun p => p / Config.sliceBytes == slice && decide (p % Config.sliceBytes < Config.engineRegion))

/-- The words of a shape record, or how its reading ends: a record that cannot be read is XLATE (R307), and so is one in a poisoned line, which
R419 would have end the entry with INTEGRITY (log entry 65). -/
def State.readShape (s : State) (q : Nat) (e : Entry) (addr : Nat) : Except Reach (List W64 × State) :=
  match s.hubTr (dieOf e.core) e.func addr accRead with
  | (.ok pa, s1) =>
    if s1.destOk e.func none pa && !s1.fenced pa && !s1.poisoned .glob pa then
      .ok ((List.range 8).map (fun k => s1.seenWord e.func (pa + 8 * k)), s1)
    else .error (.fail stXlate addr s1)
  | (.hold, s1) => .error (.wait s1)
  | (.absent, s1) => .error (.wait (s1.raiseXfault e.func addr accRead 1 none (some (e.core, q)) none e.name))
  | (_, s1) => .error (.fail stXlate addr s1)

/-! The start of an entry (R110, R127, R311) -/

/-- The place of a source sector as it can be read now. -/
def State.peekSector (s : State) (e : Entry) (space : Space) (addr : Nat) : Option Nat :=
  match space with
  | .tile => some addr
  | .glob => match (s.hubTr (dieOf e.core) e.func addr accRead).1 with
    | .ok pa => some pa
    | _ => none

/-- A byte that an engine reads for a world. -/
def State.srcByte (s : State) (func : Nat) (space : Space) (p : Nat) : Byte :=
  match space with
  | .tile => s.devByte .tile p
  | .glob => s.seenByte func p

/-- Sectors from pairs of a destination byte and its source byte: ascending, the last pair of a byte prevailing (R315). -/
def State.sectorsOf (s : State) (e : Entry) (ds ss : Space) (ps : List (Nat × Nat)) : List Todo :=
  let secs := sortBy (fun a b => decide (a < b)) (dedupN (ps.map (fun p => sectorOf p.1)))
  secs.map (fun sec =>
    let mine := ps.filter (fun p => sectorOf p.1 == sec)
    ⟨ds, sec, (List.range 32).map (fun b => match mine.reverse.find? (fun p => p.1 == sec + b) with
      | some p => some ⟨ss, p.2, (s.peekSector e ss (sectorOf p.2)).map (fun q => s.srcByte e.func ss (q + p.2 % 32))⟩
      | none => none)⟩)

/-- The sectors of a linear copy. -/
def State.linearTodo (s : State) (e : Entry) (ss ds : Space) (src dst len : Nat) : List Todo :=
  (List.range (len / 32)).map (fun k =>
    let old := s.peekSector e ss (src + 32 * k)
    ⟨ds, dst + 32 * k, (List.range 32).map (fun b => some ⟨ss, src + 32 * k + b, old.map (fun p => s.srcByte e.func ss (p + b))⟩)⟩)

/-- The bytes of a box of n0 to n3 elements, in the order of R315: for each the offsets in destination and source. -/
def boxBytes (bits : Nat) (n : Nat → Nat) (w v : List W64) : List (Nat × Nat) :=
  (List.range (n 3)).flatMap (fun k3 => (List.range (n 2)).flatMap (fun k2 => (List.range (n 1)).flatMap (fun r =>
    (List.range (n 0 * bits / 8)).map (fun b =>
      (b + r * shStride w 1 + k2 * shStride w 2 + k3 * shStride w 3, b + r * shStride v 1 + k2 * shStride v 2 + k3 * shStride v 3)))))

/-- A tensor copy's sectors from its source record v and destination record w; none where a record is refused. -/
def State.tensorTodo (s : State) (e : Entry) (v w : List W64) : Option (List Todo) :=
  match codeBits (shFmt w) with
  | none => none
  | some bits =>
    if shNdim v ≠ shNdim w ∨ shFmt v ≠ shFmt w then none
    else match s.shapeBase e v bits, s.shapeBase e w bits with
      | some a, some b =>
        let ps := (boxBytes bits (fun d => min (shSize v d) (shSize w d)) w v).map (fun p => (b + p.1, a + p.2))
        if boxOk (shSpace w) b (ps.map Prod.fst) && boxOk (shSpace v) a (ps.map Prod.snd) then some (s.sectorsOf e (shSpace w) (shSpace v) ps)
        else none
      | _, _ => none

/-- The elements of a drain inside the record's box: destination and accumulator number 64 j + i (R150). -/
def drainElems (base z : Nat) (w : List W64) (row0 col0 : Int) : List (Nat × Nat) :=
  (List.range 64).flatMap (fun (i : Nat) => (List.range 64).filterMap (fun (j : Nat) =>
    let r := row0 + (i : Int)
    let c := col0 + (j : Int)
    if 0 ≤ r ∧ r < (shSize w 1 : Int) ∧ 0 ≤ c ∧ c < (shSize w 0 : Int) then
      some (base + c.toNat * z + r.toNat * shStride w 1, 64 * j + i)
    else none))

/-- The sectors of a drain's elements (R323); with `.add`, one for each element, which is an atomic of its own (R151). Where elements
share a byte, `free` chooses the one that prevails, and the order of the sums (log entry 44). -/
def drainSectors (free : Nat → Nat) (ds : Space) (z : Nat) (add : Bool) (es : List (Nat × Nat)) : List Todo :=
  let bytes := fun (x : Nat × Nat) => (List.range z).map (fun b => (x.1 + b, 4 * x.2 + b))
  let pick := fun (sec : Nat) (l : List (Nat × Nat)) =>
    (⟨ds, sec, (List.range 32).map (fun b =>
      let c := l.filter (fun p => p.1 == sec + b)
      (c.drop (free (c.headD (0, 0)).2 % max 1 c.length)).head?.map (fun p => (⟨.tile, p.2, none⟩ : Src)))⟩ : Todo)
  if add then
    (sortBy (fun a b => decide (sectorOf a.1 < sectorOf b.1) || (decide (sectorOf a.1 = sectorOf b.1) && decide (free a.2 < free b.2))) es).map
      (fun x => pick (sectorOf x.1) (bytes x))
  else
    let ps := es.flatMap bytes
    (sortBy (fun a b => decide (a < b)) (dedupN (ps.map (fun p => sectorOf p.1)))).map (fun sec =>
      pick sec (ps.filter (fun p => sectorOf p.1 == sec)))

/-- A drain's sectors. A free value is drawn only where rows overlap. -/
def State.drainTodo (s : State) (e : Entry) (w : List W64) (target : Nat) (add : Bool) (row0 col0 : Int) : Option (List Todo × State) :=
  match codeBits target with
  | none => none
  | some bits =>
    let z := bits / 8
    match s.shapeBase e w bits with
    | none => none
    | some base =>
      let es := drainElems base z w row0 col0
      if !boxOk (shSpace w) base (es.flatMap (fun x => (List.range z).map (fun b => x.1 + b))) then none
      else if shStride w 1 < z * min 64 (shSize w 0) then
        let (f, s1) := s.drawWords 16384
        some (drainSectors (fun n => (f n).toNat) (shSpace w) z add es, s1)
      else some (drainSectors id (shSpace w) z add es, s)

/-- The presence bits of the tile-store lines that sectors touch cleared (R88). -/
def State.clearLines (s : State) (ts : List Todo) : State :=
  let lines := dedupN ((ts.filter (fun t => t.space == .tile)).map (fun t => alignDown t.sector 64))
  { s with absent := s.absent ++ lines.filter (fun l => !s.absent.contains l) }

/-- A till whose word lies outside every allotment ends its entry with DENIED (R87, R307). -/
def State.tillBad (s : State) (e : Entry) : Bool :=
  decide (e.till ≠ 0) && !s.allotted e.func ((e.till - 1) / Config.sliceBytes) ((e.till - 1) % Config.sliceBytes)

/-- An entry started with its sectors: those of the tile store lose their presence where the engine alone knew them (R88). -/
def State.begin_ (s : State) (core q : Nat) (e : Entry) (ts : List Todo) (clear : Bool) : State :=
  let e1 := { e with started := true, todo := ts }
  (if clear then s.clearLines ts else s).setHead core q (if s.tillBad e then e1.failed stDenied (e.till - 1) else e1)

/-- A copy of no length: translated and checked, and nothing else (R116, R311). -/
def State.beginEmpty (s : State) (core q : Nat) (e : Entry) (ss ds : Space) (src dst : Nat) : State :=
  match s.reach q e ss src accRead with
  | .wait s1 => s1
  | .fail st a s1 => s1.setHead core q ({ e with started := true }.failed st a)
  | .at_ _ s1 => match s1.reach q e ds dst accWrite with
    | .wait s2 => s2
    | .fail st a s2 => s2.setHead core q ({ e with started := true }.failed st a)
    | .at_ _ s2 => s2.begin_ core q e [] false

/-- ENGINE_ENTRY_START (R127, R110, R312, R313, R315, R323): the head entry of a queue; fences do not start. The failing address of a tensor copy whose
records are refused is its source record's, whichever of the two is at fault (log entry 65). -/
def execEngineEntryStart (core queue : Nat) (s : State) : Host.Outcome State Fault Refusal :=
  match s.engineHead core queue with
  | none => .next s
  | some e =>
    if e.started || e.status ≠ 0 || !s.engineRuns core queue e then .next s
    else
      let ended := fun (r : Reach) => match r with
        | .wait s1 => s1
        | .fail st a s1 => s1.setHead core queue (e.failed st a)
        | .at_ _ s1 => s1
      match e.kind with
      | .fence _ => .next s
      | .linear ss ds src dst len =>
        if len = 0 then .next (s.beginEmpty core queue e ss ds src dst)
        else .next (s.begin_ core queue e (s.linearTodo e ss ds src dst len) false)
      | .tensor sh dh =>
        match s.readShape queue e sh with
        | .error r => .next (ended r)
        | .ok (v, s1) => match s1.readShape queue e dh with
          | .error r => .next (ended r)
          | .ok (w, s2) => match s2.tensorTodo e v w with
            | none => .next (s2.setHead core queue (e.failed stDenied sh))
            | some ts => .next (s2.begin_ core queue e ts true)
      | .drain _ _ target add _ _ row0 col0 sh =>
        match s.readShape queue e sh with
        | .error r => .next (ended r)
        | .ok (w, s1) => match s1.drainTodo e w target add row0 col0 with
          | none => .next (s1.setHead core queue (e.failed stDenied sh))
          | some (ts, s2) => .next (s2.begin_ core queue e ts true)

/-! The arrival of a sector (R88 to R90, R110, R111, R128) -/

/-- Places of source sectors: pairs of sector and place, or how the attempt ends. -/
def State.sources (s : State) (q : Nat) (e : Entry) : List (Space × Nat) → List (Nat × Nat) → Except Reach (List (Nat × Nat) × State)
  | [], m => .ok (m, s)
  | x :: xs, m =>
    match s.reach q e x.1 x.2 accRead with
    | .at_ p s1 => if s1.poisoned x.1 p then .error (.fail stIntegrity x.2 s1) else s1.sources q e xs (m ++ [(x.2, p)])
    | r => .error r

/-- The source sectors that a sector is copied from. -/
def Todo.sources (t : Todo) : List (Space × Nat) :=
  let l := t.srcs.filterMap (fun x => x.map (fun y => (y.space, sectorOf y.addr)))
  l.foldl (fun acc x => if acc.any (fun y => y.2 == x.2) then acc else acc ++ [x]) []

/-- The bytes of a sector from the places of its sources: each source sector as it stood at the start or as it stands now (R311). -/
def State.copyData (s : State) (func : Nat) (t : Todo) (m : List (Nat × Nat)) : List (Option Byte) × State :=
  let (f, s1) := s.drawN m.length
  (t.srcs.map (fun x => x.map (fun y =>
    let k := (position (fun (p : Nat × Nat) => p.1 == sectorOf y.addr) m).getD 0
    let now := s.srcByte func y.space (lookupD m (sectorOf y.addr) 0 + y.addr % 32)
    if f k then y.old.getD now else now)), s1)

/-- Rounding modes of MDRAIN (R322). -/
def drainRm (mode : Nat) : Rm := Rm.ofCode mode 0

/-- An accumulator as a drain writes it (R151, R323). -/
def drainBits (isInt : Bool) (target : Nat) (sat : Bool) (mode : Nat) (a : W32) : Nat :=
  if isInt && target == 8 then a.toNat
  else
    let f := (Fmt.ofCode target).getD .fp32
    (round (if isInt then Val.ofInt a.toInt else f32 a) (drainRm mode) f sat).1

/-- An accumulator added to an element of memory in the target format. -/
def drainAdd (isInt : Bool) (target : Nat) (sat : Bool) (mode m : Nat) (a : W32) : Nat :=
  let f := (Fmt.ofCode target).getD .fp32
  let rm := drainRm mode
  (round (addVal (decodeVal f m) (if isInt then Val.ofInt a.toInt else f32 a) (isRdn rm)).1 rm f sat).1

/-- Accumulator n of a drained window: lane n mod 64 of register n div 64. -/
def drainAcc (acc : List VReg) (n : Nat) : W32 := (acc.getD (n / 64) VReg.zero).lane (n % 64)

/-- The bytes of a drain's sector at a place. -/
def State.drainData (s : State) (func : Nat) (t : Todo) (p : Nat) (acc : List VReg) (isInt : Bool) (target : Nat) (add sat : Bool) (mode : Nat) :
    List (Option Byte) :=
  let z := ((codeBits target).getD 32) / 8
  t.srcs.zip (List.range 32) |>.map (fun x => x.1.map (fun y =>
    let n := y.addr / 4
    let b := y.addr % 4
    let v := if add then drainAdd isInt target sat mode (ofBytesLE (s.seenRead func t.space (p + x.2 - b) z)) (drainAcc acc n)
      else drainBits isInt target sat mode (drainAcc acc n)
    (bytesLE z v).getD b 0))

/-- Bytes of a line of a space (R89, R419). -/
def lineBytes (space : Space) : Nat :=
  match space with
  | .tile => 64
  | .glob => 128

/-- Whether two sectors lie in one line. -/
def Todo.sameLine (a b : Todo) : Bool := a.space == b.space && a.sector / lineBytes a.space == b.sector / lineBytes b.space

/-- The bytes that an entry's sectors write into the line of the first of them, those written before included. -/
def Entry.lineTotal (e : Entry) (t : Todo) : Nat :=
  (e.todo.filter (fun x => x.sameLine t)).foldl (fun n x => n + (enabled x.srcs).length) e.lineAcc

/-- A till raised by n bytes: a device-scope atomic at the till's core (R90). It is performed at once, and on an absent or poisoned line as on any: the
spec does not say what an engine's add does there (the model's choice, log entry 68). -/
def State.tillAdd (s : State) (till n : Nat) : State :=
  if till = 0 ∨ n = 0 then s
  else s.devWriteBytes .tile (till - 1) (bytesLE 8 (s.devWord .tile (till - 1) + BitVec.ofNat 64 n).toNat) none false

/-- A line that is complete: it is present (R88), and then the till counts its bytes (R90). -/
def State.lineDone (s : State) (space : Space) (p till n : Nat) : State :=
  let s1 := match space with
    | .tile => ({ s with absent := s.absent.filter (fun l => l ≠ alignDown p 64) } : State).evalTills (alignDown p 64)
    | .glob => s
  s1.tillAdd till n

/-- The physical plane of the packet that an entry sends to an address (R432): round robin over the planes of the entry's world, by the packet's turn
(log entry 26). None: the packet keeps to the plane of its line. -/
def State.sprayPlane (s : State) (e : Entry) (pa : Nat) : Option Nat :=
  let planes := s.sprayPlanes e.func
  if e.sprayed && regionOf pa == 3 then planes[((e.sent.map Prod.snd).getD 0) % planes.length]? else none

/-- A sector that an entry writes, at its address `va`; what goes to the hub's egress escrow keeps the entry's number (R128) and the plane of its
packet. -/
def State.entryWrite (s : State) (e : Entry) (space : Space) (va p : Nat) (d : List (Option Byte)) : State :=
  let s0 := s.rekey e.func space ((enabled d).map (fun k => p + k))
  (s0.devWrite space p d none false).stampEgress s0 (fun x => { x with copy := e.id, va := va, plane := s0.sprayPlane e p, func := some e.func })

/-- A sector written at its place, with the end of its line where it is the last there. `wasBad`: the line was poisoned. -/
def State.writeSector (s : State) (core q : Nat) (e : Entry) (t : Todo) (rest : List Todo) (p : Nat) (d : List (Option Byte)) (wasBad : Bool) :
    State :=
  let n := e.lineAcc + (enabled d).length
  let s1 := s.entryWrite e t.space t.sector p d
  if rest.any (fun x => x.sameLine t) then s1.setHead core q { e with todo := rest, lineAcc := n }
  else
    let s2 := if wasBad then s1.unpoison t.space p else s1
    (s2.lineDone t.space p e.till n).setHead core q { e with todo := rest, lineAcc := 0 }

/-- The next sector of an entry arrives. -/
def State.arriveSector (s : State) (core q : Nat) (e : Entry) (t : Todo) (rest : List Todo) : State :=
  let ended := fun (r : Reach) => match r with
    | .wait s1 => s1
    | .fail st a s1 => s1.setHead core q (e.failed st a)
    | .at_ _ s1 => s1
  let drains := match e.kind with
    | .drain .. => true
    | _ => false
  let adds := match e.kind with
    | .drain _ _ _ add _ _ _ _ _ => add
    | _ => false
  match s.sources q e (if drains then [] else t.sources) [] with
  | .error r => ended r
  | .ok (m, s1) =>
    -- packets read from the fabric, then the one that is sent
    let read := m.foldl (fun x y => x.readPacket y.2) e
    match s1.reach q e t.space t.sector (if adds then accAtomic else accWrite) with
    | .at_ p s2 =>
      let bad := s2.poisoned t.space p
      let e := read.sendPacket p
      if bad && (adds || e.lineTotal t != lineBytes t.space) then s2.setHead core q (e.failed stIntegrity t.sector)
      else match e.kind with
        | .drain acc isInt target add sat mode _ _ _ =>
          s2.writeSector core q e t rest p (s2.drainData e.func t p acc isInt target add sat mode) bad
        | _ =>
          let r := s2.copyData e.func t m
          r.2.writeSector core q e t rest p r.1 bad
    | r => ended r

/-- ENGINE_LINE_ARRIVAL (R88 to R90, R110, R128): the next sector of the head entry, in ascending order; the line is present, and its bytes
are added to the till, with its last sector. -/
def execEngineLineArrival (core queue : Nat) (s : State) : Host.Outcome State Fault Refusal :=
  match s.engineHead core queue with
  | none => .next s
  | some e =>
    if !e.started || e.status ≠ 0 || !s.engineRuns core queue e then .next s
    else match e.todo with
      | [] => .next s
      | t :: rest => .next (s.arriveSector core queue e t rest)

/-! The end of an entry (R307) -/

/-- The tile-store lines that an entry in error has not completed: present and poisoned (R89). No write lands on them, so no till is
evaluated (R337). -/
def State.poisonRest (s : State) (ts : List Todo) : State :=
  let lines := dedupN ((ts.filter (fun t => t.space == .tile)).map (fun t => alignDown t.sector 64))
  { s with
    absent := s.absent.filter (fun l => !lines.contains l)
    poison := s.poison ++ lines.filter (fun l => !s.poison.contains l) }

/-- The ENGINE event of an error (R307, R411). -/
def State.engineEvent (s : State) (func kind status addr : Nat) (name : W64) : State :=
  s.raiseLog func evEngine [BitVec.ofNat 64 (kind + 256 * status), BitVec.ofNat 64 addr, 0, 0] name none

/-- The code of an entry's kind in the event. -/
def Report.code : Report → Nat
  | .bulk .. => 0
  | .list .. => 1
  | .drain => 2
  | .copyCommand .. => 3

/-- A completion word written at device scope (R315); `cpl` is its place plus one, 0 for none. -/
def State.completionWord (s : State) (cpl tag status : Nat) : State :=
  if cpl = 0 then s else s.devWriteBytes .tile (cpl - 1) (bytesLE 8 (tag * 2 ^ 32 + status)) none false

/-- A COPY command ends: the number of records performed is its VALUE (R369). -/
def State.endCopy (s : State) (c : CopyReq) (status performed : Nat) : State :=
  let w := fun (k : Nat) => c.cmd.getD k 0
  ({ s with hub := { s.hub with copies := s.hub.copies.filter (fun x => x.id ≠ c.id) } } : State).completeCommand c.func c.q
    ((w 0).extractLsb' 32 32) ((w 0).extractLsb' 8 8) (w 1) (w 2) status (BitVec.ofNat 64 performed)

/-- A record of a COPY command has ended: the next is read, or the command ends with the error (R373). -/
def State.copyRecordDone (s : State) (id status : Nat) : State :=
  match s.hub.copies.find? (fun c => c.id == id) with
  | none => s
  | some c =>
    if status ≠ 0 then s.endCopy c status c.pos
    else { s with hub := { s.hub with copies := s.hub.copies.map (fun x => if x.id = id then { x with pos := x.pos + 1, busy := false } else x) } }

/-- An entry leaves its queue with its status: its event, and what R307 says of its report. -/
def State.endEntry (s : State) (core q : Nat) (e : Entry) : State :=
  let s1 := if e.status = 0 then s else (s.poisonRest e.todo).engineEvent e.func e.report.code e.status e.fail e.name
  let s2 := s1.modQueue core q (fun l => enterQueue (l.filter (fun x => x.id ≠ e.id)))
  match e.report with
  | .bulk g op => s2.endStatus g op (BitVec.ofNat 64 e.status)
  | .list tag cpl => s2.completionWord cpl tag e.status
  | .drain => s2
  | .copyCommand id tag cpl => (s2.completionWord cpl tag e.status).copyRecordDone id e.status

/-- ENGINE_ENTRY_COMPLETE (R127, R307, R308): every sector is written, or the entry has met an error. -/
def execEngineEntryComplete (core queue : Nat) (s : State) : Host.Outcome State Fault Refusal :=
  match s.engineHead core queue with
  | none => .next s
  | some e =>
    if s.engineRuns core queue e && (decide (e.status ≠ 0) || (e.started && e.todo.isEmpty)) then .next (s.endEntry core queue e)
    else .next s

/-- FENCE_COMPLETE (R127, R315): a fence at the head of every queue it names ends in all of them. -/
def execFenceComplete (core queue : Nat) (s : State) : Host.Outcome State Fault Refusal :=
  match s.engineHead core queue with
  | none => .next s
  | some e =>
    match e.kind with
    | .fence mask =>
      let qs := (List.range 4).filter (fun k => Nat.testBit mask k)
      if s.engineRuns core queue e && qs.all (fun k => (s.engineHead core k).any (fun x => x.id == e.id)) then
        let s1 := qs.foldl (fun s k => s.modQueue core k (fun l => enterQueue (l.filter (fun x => x.id ≠ e.id)))) s
        match e.report with
        | .list tag cpl => .next (s1.completionWord cpl tag 0)
        | _ => .next s1
      else .next s
    | _ => .next s

/-- PRESENCE_CLEAR_ACK (R310): the owning core has cleared the presence bits, and the entry enters its queue. -/
def execPresenceClearAck (core queue : Nat) (s : State) : Host.Outcome State Fault Refusal :=
  match ((s.core core).queues.getD queue []).find? (fun e => e.awaitAck && e.rel == 0 && s.sliceCurrent e.func) with
  | none => .next s
  | some e =>
    let s1 := match e.kind with
      | .linear _ _ _ dst len => s.clearPresence dst len
      | _ => s
    .next (s1.modQueue core queue (fun l => enterQueue (l.map (fun x => if x.id = e.id then { x with awaitAck := false } else x))))

/-! Copy request records (R314, R315) -/

/-- How a record is to be carried out: the end of its list, a refusal with a status and an address, an entry for a queue, or a fence. -/
inductive RecordFate where
  | end_
  | refuse (status addr : Nat)
  | copy (q : Nat) (kind : EntryKind) (till : Nat)
  | fence (mask : Nat)
  deriving DecidableEq, Repr

def recKind (w : List W64) : Nat := bitsN (w.getD 0 0) 7 0
def recLen (w : List W64) : Nat := bitsN (w.getD 0 0) 63 32
def recMask (w : List W64) : Nat := bitsN (w.getD 0 0) 19 16
def recTag (w : List W64) : Nat := bitsN (w.getD 4 0) 63 32

/-- CPL as a place plus one (R314 check 2): none where it is not valid. `place` gives the place of an address that a record may name. -/
def State.recCpl (s : State) (func : Nat) (place : Nat → Option Nat) (w : List W64) : Option Nat :=
  let a := bitsN (w.getD 4 0) 31 0
  if a = 0 then some 0
  else match place a with
    | some p => if a % 8 = 0 ∧ s.allotted func (p / Config.sliceBytes) (p % Config.sliceBytes) = true then some (p + 1) else none
    | none => none

/-- Whether the fields that a record's kind leaves out are zero (R314). -/
def recClean (w : List W64) : Bool :=
  let z := fun (k : Nat) => w.getD k 0 == 0
  let w0 := w.getD 0 0
  let res0 := bitsN w0 31 20 == 0 && bitsN w0 15 12 == 0 && bitsN (w.getD 3 0) 63 32 == 0 && z 7
  res0 && (match recKind w with
    | 0 => recMask w == 0 && recLen w == 0 && bitsN w0 11 10 == 0 && z 1 && z 2 && z 5 && z 6
    | 1 => recMask w == 0 && z 5 && z 6
    | 2 => recMask w == 0 && recLen w == 0 && bitsN w0 11 10 == 0 && z 1 && z 2
    | 3 => recMask w != 0 && recLen w == 0 && bitsN w0 11 8 == 0 && z 1 && z 2 && z 3 && z 5 && z 6
    | _ => false)

/-- A global address of a shape record (R312). -/
def shapeAddrOk (a : W64) : Bool := bitsN a 63 57 == 0 && bitsN a 5 0 == 0

/-- The checks of R314 in order, of a record that stands at `at_`; `core` is the issuing core, or stands for a COPY command's die. The failing
address is the record's own, but for a bad till, source, destination, shape or completion-word address, which is that field's, in this order (log
entry 33). -/
def State.recordFate (s : State) (func core at_ : Nat) (place : Nat → Option Nat) (w : List W64) : RecordFate :=
  let till := bitsN (w.getD 3 0) 31 0
  let w0 := w.getD 0 0
  let tp := if till = 0 then some 0 else if till % 8 ≠ 0 then none else (place till).map (fun p => p + 1)
  let own : RecordFate :=
    if !recClean w then .refuse stDenied at_
    else match recKind w, tp with
      | 0, _ => .end_
      | 3, _ => .fence (recMask w)
      | _, none => .refuse stDenied till
      | 1, some t =>
        let ss := spaceOf (bitAt w0 10)
        let ds := spaceOf (bitAt w0 11)
        (match s.copyPlan func core ss ds (w.getD 1 0).toNat (w.getD 2 0).toNat (recLen w) 0 with
          | .error (_, a) => .refuse stDenied a
          | .ok p => .copy (bitsN w0 9 8) (.linear ss ds p.src p.dst (recLen w)) t)
      | _, some t =>
        if !shapeAddrOk (w.getD 5 0) then .refuse stDenied (w.getD 5 0).toNat
        else if !shapeAddrOk (w.getD 6 0) then .refuse stDenied (w.getD 6 0).toNat
        else .copy (bitsN w0 9 8) (.tensor (w.getD 5 0).toNat (w.getD 6 0).toNat) t
  match own with
  | .refuse st a => .refuse st a
  | r =>
    if (s.recCpl func place w).isNone then .refuse stDenied (bitsN (w.getD 4 0) 31 0)
    else if !s.copyEngine func (dieOf core) then .refuse stNoengine at_
    else r

/-! Request lists (R316) -/

/-- Whether a list's next record may be placed: its world is not paused (R399, R406), and the records before it, of its own list and of its group's
earlier ones, have entered their queues (R306). -/
def State.listReady (s : State) (l : ListReq) : Bool := s.sliceCurrent l.func && !s.listBefore l.g l.op l.func l.name

/-- The list that a core's request engine serves: the first that is ready. One that waits holds back no list of another group (R306). -/
def State.curList (s : State) (core : Nat) : Option ListReq := (s.core core).lists.find? s.listReady

/-- A core's lists with the one that is served changed, or taken away. -/
def State.modList (s : State) (core : Nat) (f : ListReq → Option ListReq) : State :=
  s.modCore core (fun c => { c with lists := (c.lists.takeWhile (fun l => !s.listReady l)) ++
    (match c.lists.dropWhile (fun l => !s.listReady l) with
      | [] => []
      | l :: ls => (f l).toList ++ ls) })

/-- The list that a core's request engine serves taken away. -/
def State.dropList (s : State) (core : Nat) : State := s.modList core (fun _ => none)

/-- The next record of the list, `ahead` being what has been read from there on; the list ends after its 256th record or at the engine region. -/
def State.nextRecord (s : State) (core off : Nat) (l : ListReq) (ahead : List ListRec) : State :=
  if Config.listRecords ≤ l.pos + 1 ∨ Config.engineRegion ≤ off + 64 then s.dropList core
  else s.modList core (fun x => some { x with pos := x.pos + 1, ahead := ahead })

/-- Record k of a list whose first stands at place p (R316): its device-visible words, or that it cannot be read. -/
def State.listRecord (s : State) (core : Nat) (l : ListReq) (p k : Nat) : ListRec :=
  let off := p % Config.sliceBytes + 64 * k
  if l.addr % 64 ≠ 0 ∨ s.allotted l.func core off = false then .bad stDenied
  else if s.poisoned .tile (tileAbs core off) then .bad stIntegrity
  else .words ((List.range 8).map (fun j => s.devWord .tile (tileAbs core off + 8 * j)))

/-- Whether a record that has been read is a copy, or the last of its list. -/
def ListRec.stops : ListRec → Bool
  | .words w => recKind w == 1 || recKind w == 2 || recKind w == 0
  | .bad _ => true

/-- The records of a list from the k-th on, as far as the next copy or the end of the list, at most n: they are read before the copy that stands
before them is placed, so that none is left to be read once the last copy's completion word is written (R316). -/
def State.readAhead (s : State) (core : Nat) (l : ListReq) (p : Nat) : Nat → Nat → List ListRec
  | 0, _ => []
  | n + 1, k =>
    if Config.listRecords ≤ k ∨ Config.engineRegion ≤ p % Config.sliceBytes + 64 * k then []
    else
      let r := s.listRecord core l p k
      if r.stops then [r] else r :: s.readAhead core l p n (k + 1)

/-- A record of a list placed in its queue, or refused (R314); a refused end record ends its list all the same (R316). -/
def State.placeRecord (s : State) (core off : Nat) (l : ListReq) (ahead : List ListRec) (w : List W64) : State :=
  let at_ := 2 ^ 31 + off
  let cpl := s.recCpl l.func (ownPlace core) w
  let s1 := if recKind w = 0 then s.dropList core else s.nextRecord core off l ahead
  let (id, s2) := s1.fresh
  let entry := fun (k : EntryKind) (till : Nat) => Entry.fresh_ id k (.list (recTag w) (cpl.getD 0)) l.func l.name (s.grp l.g).rclass core till
  match s.recordFate l.func core at_ (ownPlace core) w with
  | .end_ => s1
  | .refuse st a =>
    let s3 := s1.completionWord (cpl.getD 0) (recTag w) st
    if st = stDenied then s3.engineEvent l.func 1 st a l.name else s3
  | .fence mask => ((List.range 4).filter (fun k => Nat.testBit mask k)).foldl (fun s k => s.pushEntry k (entry (.fence mask) 0)) s2
  | .copy q (.linear ss ds src dst len) till => s2.placeCopy q (entry (.linear ss ds src dst len) till) ds dst len
  | .copy q k till => s2.pushEntry q (entry k till)

/-- The next record of the list that a core's request engine serves (R316): a list whose address is not one of the core's own is discarded. Records
are read in ascending order and placed one by one. -/
def State.takeRecord (s : State) (core : Nat) : State :=
  match s.curList core with
  | none => s
  | some l => match ownPlace core l.addr with
    | none => (s.dropList core).engineEvent l.func 4 stDenied l.addr l.name
    | some p => match l.ahead.headD (s.listRecord core l p l.pos) with
      | .bad st => (s.dropList core).engineEvent l.func 4 st l.addr l.name
      | .words w =>
        let rest := l.ahead.drop 1
        let ahead := if rest.isEmpty && recKind w != 0 then s.readAhead core l p Config.listRecords (l.pos + 1) else rest
        s.placeRecord core (p % Config.sliceBytes + 64 * l.pos) l ahead w

/-- The kick stores of a core's groups that have not handed over every list. -/
def State.kicks (s : State) (core : Nat) : List (Nat × Nat) :=
  (s.grpsWhere (fun g => g.alive && g.pkg == core)).flatMap (fun g =>
    ((s.grp g).ops.filter (fun o => match o.kind with
      | .kick _ _ => true
      | _ => false)).map (fun o => (g, o.id)))

/-- REQUEST_LIST_TAKEN (R112, R314 to R316): list addresses are taken while there is room, in order of issue; else the next record of the
first list that is ready is read and placed. -/
def execRequestListTaken (core : Nat) (s : State) : Host.Outcome State Fault Refusal :=
  let s1 := (sortBy (fun (a b : Nat × Nat) => decide (a.2 < b.2)) (s.kicks core)).foldl (fun s k => s.runKick k.1 k.2 []) s
  if (s.core core).lists.length < (s1.core core).lists.length then .next s1 else .next (s1.takeRecord core)

end Sys2Proof.Machine
end

