-- ==== Sys2Proof/Machine/NamesInstr.lean ====
section
/-! DEFINITION. The name unit of a core (file 02 R62, R66 to R69, R78), the name requests and SPAWN as instructions (file 09 R247 to R250). -/

namespace Sys2Proof.Machine

/-- The CLASS of a group's own entry (R78); where that entry cannot be read, the class its launch record gave it. -/
def State.classOf (s : State) (gi : Nat) : Nat :=
  let g := s.grp gi
  match s.walkName g.func (nameIndex g.name) with
  | .ok e => nClass e.w0
  | .error _ => bitsN ((s.launchWords g).getD 2 0) 26 24

/-- A name found for a request of a core: through its cache unless `again`, when the table is walked and the new translation replaces
the old one. Only STATE 1 and STATE 4 translations are cached, at most 64 (R62); of 65 the oldest leaves (log entry 52). -/
def State.lookName (s : State) (pkg func sclass : Nat) (name : W64) (op : NameOp) (again : Bool) : NameRes × State :=
  let mine := fun (l : NameLine) => l.func == func && l.name == name
  match (if again then none else (s.core pkg).ncache.find? mine) with
  | some l =>
    if !bitAt l.word2 (4 * sclass + op.bit) then (.denied, s) else (.go ⟨0, l.word0, l.word1, l.word2, 0⟩, s)
  | none =>
    let r := s.nameTest func sclass name op
    let keep := fun (l : List NameLine) => s.modCore pkg (fun c => { c with ncache := lastN 64 (c.ncache.filter (fun x => !mine x) ++ l) })
    match r with
    | .go e => if e.state == 1 || e.state == 4 then (r, keep [⟨func, name, e.w0, e.w1, e.w2⟩]) else (r, keep [])
    | _ => (r, keep [])

/-- The denial of a request recorded (R67, R333): its result waits for the record. -/
def State.denial (s : State) (sender target : W64) (op sclass func : Nat) (id : Nat) : State :=
  s.raiseLog func evDenial (denialPayload sender target op sclass func) sender (some id)

/-- A name request of the word (R249): held by a full slot and by integrity debt; its status is found at once where nothing is to be
delivered; otherwise its release covers the stores issued before it, at the scope of R69. -/
def Ctx.nameRequest (c : Ctx) (s : State) (d : RegCode) (name : W64) (op : NameOp) (rel : Bool) : State :=
  let g := s.grp c.gi
  let sclass := s.classOf c.gi
  let look := s.lookName g.pkg g.func sclass name op false
  let scope := match look.1 with
    | .go e => if rel then some (if e.state == 4 then 4 else 3) else none
    | _ => none
  let (id, s1) := c.issueOp look.2 d 1 (.request scope)
  let post := fun (t : State) (stage : ReqStage) (w0 w1 : W64) =>
    ({ t with reqs := t.reqs ++ [⟨id, .group c.gi id, some g.pkg, g.func, sclass, name, op, stage, w0, w1, 0⟩] } : State)
  match look.1 with
  | .answer r => post s1 (.answered r) 0 0
  | .denied => post (s1.denial g.name name op.bit sclass g.func id) (.answered (BitVec.ofNat 64 stDenied)) 0 0
  | .go e =>
    match scope with
    | some sc => post (s1.sealEscrow c.gi sc id) (.release sc) e.w0 e.w1
    | none => post s1 .send e.w0 e.w1

/-- Whether a name request's word must wait, or traps, before it begins (R114, R115, R217). -/
def Ctx.before (c : Ctx) (s : State) : Option Res := if c.slotFull s then some (.hold s) else c.leave s

/-- SIGNAL (R248, R249). -/
def execSignal (o : VOps) (s : State) : Host.Outcome State Fault Refusal :=
  issueWord (.signal o) (fun c s =>
    match c.before s with
    | some r => r
    | none =>
      let a := c.uni s o.a
      let b := c.uni a.2 o.b
      .done (c.nameRequest b.2 o.d a.1 (.signal (bitsN o.mod 3 0) b.1) (!bitAt o.mod 4))) s

/-- WAKE (R248, R249). -/
def execWake (o : VOps) (s : State) : Host.Outcome State Fault Refusal :=
  issueWord (.wake o) (fun c s =>
    match c.before s with
    | some r => r
    | none =>
      let a := c.uni s o.a
      .done (c.nameRequest a.2 o.d a.1 .wake (!bitAt o.mod 4))) s

/-- DEPOSIT (R248, R249). -/
def execDeposit (o : VOps) (s : State) : Host.Outcome State Fault Refusal :=
  issueWord (.deposit o) (fun c s =>
    match c.before s with
    | some r => r
    | none =>
      let a := c.uni s o.a
      let b := c.uni a.2 o.b
      .done (c.nameRequest b.2 o.d a.1 (.deposit (bitsN o.mod 2 0) b.1) (!bitAt o.mod 4))) s

/-- JOIN (R248, R249): it never releases (R69). -/
def execJoin (o : VOps) (s : State) : Host.Outcome State Fault Refusal :=
  issueWord (.join o) (fun c s =>
    match c.before s with
    | some r => r
    | none =>
      let a := c.uni s o.a
      .done (c.nameRequest a.2 o.d a.1 (.join (s.grp c.gi).name) false)) s

/-- SPAWN (R247): tests of its address, the wait of R114, then a release at device scope, after which the record is read. -/
def execSpawn (o : VOps) (s : State) : Host.Outcome State Fault Refusal :=
  issueWord (.spawn o) (fun c s =>
    if c.slotFull s then .hold s
    else
      let a := c.uni s o.a
      if bitsN a.1 63 57 != 0 then Res.at_ a.2 .space a.1.toNat
      else if bitsN a.1 5 0 != 0 then Res.at_ a.2 .misalign a.1.toNat
      else match c.leave s with
        | some r => r
        | none =>
          let (id, s1) := c.issueOp a.2 o.d 1 (.spawn a.1.toNat (s.grp c.gi).prioBase true)
          .done (s1.sealEscrow c.gi 3 id)) s

end Sys2Proof.Machine
end

