-- ==== Sys2Proof/Machine/NamesEv.lean ====
section
/-! DEFINITION. Events of name requests (files 02 and 14), restores, installations of moves and forced halts (files 02, 19 and 22). An event
that is not enabled leaves the state as it is. -/

namespace Sys2Proof.Machine

/-! Requests in flight -/

/-- A request by its number. -/
def State.req (s : State) (r : Nat) : Option Req := s.reqs.find? (fun x => x.id == r)

/-- A request's stage changed. -/
def State.setStage (s : State) (r : Nat) (stage : ReqStage) : State :=
  { s with reqs := s.reqs.map (fun x => if x.id = r then { x with stage := stage } else x) }

/-- Whether two requests come from one group, or from one queue (R68, R369). -/
def sameSender (a b : Sender) : Bool :=
  match a, b with
  | .group g _, .group h _ => g == h
  | .teller p .., .teller q .. => p == q
  | _, _ => false

/-- Whether a stage comes before the request's application. -/
def ReqStage.open_ : ReqStage → Bool
  | .release _ | .send | .refused => true
  | _ => false

/-- Whether an earlier request of the same sender to the same name has still to be applied: this one is held behind it (R68). -/
def State.behind (s : State) (x : Req) : Bool :=
  s.reqs.any (fun y => decide (y.id < x.id) && sameSender y.sender x.sender && y.name == x.name && y.stage.open_)

/-- A request that may be applied now: sent, and behind no other. -/
def State.sent (s : State) (r : Nat) : Option Req :=
  match s.req r with
  | some x => if x.stage = .send ∧ s.behind x = false then some x else none
  | none => none

/-- A request refused: as stale, or by a moving target, which is asked again 256 clocks later (R70, R71). -/
def State.refuse (s : State) (r : Nat) (moving : Bool) : State :=
  { s with reqs := s.reqs.map (fun x => if x.id = r then { x with stage := .refused, resendAt := s.resendClock x.core moving } else x) }

/-- Whether a request is served at the home line of its target's entry (R72, R75). -/
def Req.home (x : Req) : Bool :=
  x.stage == .send && (match x.op, nState x.word0 with
    | .join _, st => decide (1 ≤ st ∧ st ≤ 3)
    | _, st => st == 2)

/-- Whether a request finds its target's line with 16 requests queued (R72): where so many others are on their way to it, a free bit tells
whether they came before it. A line holds the entries of four names. -/
def State.lineFull (s : State) (x : Req) : Bool × State :=
  let others := s.reqs.filter (fun y => y.id != x.id && y.home && y.func == x.func && nameIndex y.name / 4 == nameIndex x.name / 4)
  if 16 ≤ others.length then s.draw else (false, s)

/-- A request answered with OK and the upper half given. -/
def State.answer (s : State) (r : Nat) (result : W64) : State := s.setStage r (.answered result)

/-- NAME_REQUEST_DELIVERY (R70, R71, R74, R75): at the slot of a resident target, refused as stale unless name, PLACE and flag match; at the
posting record of a host target; refused by a moving target. -/
def execNameRequestDelivery (r : Nat) (s : State) : Host.Outcome State Fault Refusal :=
  match s.sent r with
  | none => .next s
  | some x =>
    match x.op, nState x.word0 with
    | .join _, 4 => .next (s.answer r (BitVec.ofNat 64 stNoname))
    | .join _, _ => .next s
    | _, 1 => match s.slotHolder x.func x.name x.word0 x.word1 with
      | some gi => .next ((s.applySlot gi x.op).answer r (BitVec.ofNat 64 stOk))
      | none => .next (s.refuse r false)
    | _, 4 => match s.applyHost x.func (bitsN x.word1 56 0) x.op with
      | (some st, s1) => .next (s1.answer r (BitVec.ofNat 64 st))
      | (none, s1) => .next s1
    | _, 3 => .next (s.refuse r true)
    | _, _ => .next s

/-- SAVED_DELIVERY (R72): at the home of a saved target's entry; refused where the entry reads another state or generation, or its line has
16 requests queued. -/
def execSavedDelivery (r : Nat) (s : State) : Host.Outcome State Fault Refusal :=
  match s.sent r with
  | none => .next s
  | some x =>
    match x.op, nState x.word0 with
    | .join _, _ => .next s
    | _, 2 =>
      let f := s.lineFull x
      if f.1 then .next (f.2.refuse r false)
      else match s.walkName x.func (nameIndex x.name) with
        | .ok e =>
          if e.state = 2 ∧ e.gen = nameGen x.name then .next ((f.2.applyImage e x.op).answer r (BitVec.ofNat 64 stOk))
          else .next (f.2.refuse r false)
        | .error _ => .next (f.2.refuse r false)
    | _, _ => .next s

/-- JOIN_AT_HOME (R75): the caller enters the target's joiner block; a target that has died meanwhile is found by another walk. -/
def execJoinAtHome (r : Nat) (s : State) : Host.Outcome State Fault Refusal :=
  match s.sent r with
  | none => .next s
  | some x =>
    match x.op, nState x.word0 with
    | .join caller, 1 | .join caller, 2 | .join caller, 3 =>
      let f := s.lineFull x
      if f.1 then .next (f.2.refuse r false)
      else match s.walkName x.func (nameIndex x.name) with
        | .ok e =>
          if 1 ≤ e.state ∧ e.state ≤ 3 ∧ e.gen = nameGen x.name then
            let a := f.2.applyJoin e caller
            .next (a.2.answer r (BitVec.ofNat 64 a.1))
          else .next (f.2.refuse r false)
        | .error _ => .next (f.2.refuse r false)
    | _, _ => .next s

/-- NAME_RESEND_TIMER (R71, R76): a refused request, once its wait is over, walks the table again and is sent according to the state it
finds; a joiner's signal is tried again. -/
def execNameResendTimer (r : Nat) (s : State) : Host.Outcome State Fault Refusal :=
  match s.req r with
  | none => .next s
  | some x =>
    if x.stage ≠ .refused ∨ s.clk (x.core.getD 260) < x.resendAt then .next s
    else match x.sender with
      | .joiner => match s.signalJoiner x.func x.name x.op with
        | (true, s1) => .next { s1 with reqs := s1.reqs.filter (fun y => y.id ≠ r) }
        | (false, s1) => .next (s1.refuse r (s1.nameMoving x.func x.name))
      | _ =>
        let look := match x.core with
          | some pkg => s.lookName pkg x.func x.sclass x.name x.op true
          | none => (s.nameTest x.func x.sclass x.name x.op, s)
        match look.1 with
        | .answer res => .next (look.2.answer r res)
        | .denied =>
          .next ((look.2.denial (s.senderName x.sender) x.name x.op.bit x.sclass x.func r).answer r (BitVec.ofNat 64 stDenied))
        | .go e =>
          .next { look.2 with reqs := look.2.reqs.map (fun y => if y.id = r then { y with stage := .send, word0 := e.w0, word1 := e.w1 } else y) }

/-- Whether a request's DENIAL record is still to be written (R333). -/
def State.unlogged (s : State) (r : Nat) : Bool := s.hub.events.any (fun e => e.waits == some r && !e.written && e.cls == evDenial)

/-- NAME_REQUEST_ANSWERED (R64, R355, R369): the result reaches the sender's destination, wherever the sender is, or the command's
completion. -/
def execNameRequestAnswered (r : Nat) (s : State) : Host.Outcome State Fault Refusal :=
  match s.req r with
  | none => .next s
  | some x =>
    match x.stage with
    | .answered res =>
      if s.unlogged r then .next s
      else
        let s1 : State := { s with reqs := s.reqs.filter (fun y => y.id ≠ r) }
        match x.sender with
        | .group g op => .next (s1.endStatus g op res)
        | .teller q tag note cname caddr => .next (s1.completeCommand x.func q tag note cname caddr (bitsN res 31 0) res)
        | .joiner => .next s1
    | _ => .next s

/-! Restores and installations -/

/-- The blocks that a saved group needs: those it holds and those it waits for (R46). -/
def Group.needs (g : Group) : Nat :=
  g.blk + (match g.cond with
    | .pool n => n
    | _ => 0)

/-- Whether a saved group is runnable: the flag WP of its entry (R38, R72). -/
def State.wpSet (s : State) (gi : Nat) : Bool :=
  let g := s.grp gi
  match s.walkName g.func (nameIndex g.name) with
  | .ok e => e.state == 2 && e.gen == nameGen g.name && bitAt e.w0 30
  | .error _ => false

/-- Whether the escrow entries of a saved group's image find room in the core's pool or the group's overflow area, and its ranges in the
quarter's operand buffer (R94, R336, R356). An image that fails its checks is not held back for them. -/
def State.imageFits (s : State) (gi : Nat) : Bool :=
  let g := s.grp gi
  !s.imageOk g.image || (decide (bitsN (s.imWord g.image 0x90) 31 0 ≤ s.escRoom gi) &&
    (placeRecords (s.usedLines g.pkg g.qtr) ((List.range 8).map (fun k => s.imWord g.image (0x340 + 8 * k)))).isSome)

/-- Whether the hub may restore a group now (R38, R46, R356): one that does not fit waits, and others go before it. -/
def State.restorable (s : State) (gi : Nat) : Bool :=
  let g := s.grp gi
  g.st == .saved && s.wpSet gi && s.sliceCurrent g.func && !s.hub.moves.any (fun m => m.groups.contains gi) &&
  !(s.freeSlots g.pkg g.qtr).isEmpty && decide (g.needs ≤ s.freeBlocks g.pkg g.qtr) && s.imageFits gi

/-- RESTORE (R38, R52, R73, R96): of the restorable groups, in order of effective priority, into a free slot of the core and quarter it was
saved from. An image that fails its checks is a group fault (R409). -/
def execRestore (g slot : Nat) (s : State) : Host.Outcome State Fault Refusal :=
  let x := s.grp g
  if s.restorable g && (s.freeSlots x.pkg x.qtr).contains slot &&
      !(s.grpsWhere (fun y => y.st == .saved && decide (x.prio < y.prio))).any (fun j => s.restorable j) then
    match s.install g x.pkg x.qtr slot with
    | .done s1 => .next s1
    | .hold s1 => .next s1
    | .bad s1 => .next (s1.groupFault g 0 0 3 0)
  else .next s

/-- MOVE_INSTALLATION (R71, R405, R407): one group of a moving team is installed in the lowest free slot of the same quarter of the
destination; with the last of them the command completes, its VALUE the target's location (R369). -/
def execMoveInstallation (g : Nat) (s : State) : Host.Outcome State Fault Refusal :=
  match s.hub.moves.find? (fun m => m.groups.contains g) with
  | none => .next s
  | some m =>
    let x := s.grp g
    let less := { m with groups := m.groups.filter (fun j => j ≠ g) }
    let swap := fun (t : State) (a b : MoveReq) =>
      ({ t with hub := { t.hub with moves := t.hub.moves.map (fun y => if y = a then b else y) } } : State)
    let s0 := swap s m less
    match (if x.st = .moving then (s0.openSlots m.pkg x.qtr).head? else none) with
    | none => .next s
    | some slot =>
      match s0.install g m.pkg x.qtr slot with
      | .done s1 => .next s1.finishMoves
      | .hold s1 => .next (swap s1 less m)
      | .bad s1 => .next (s1.groupFault g 0 0 3 0)

/-! Forced halts (R400 to R402) -/

/-- Whether a group is at an issue boundary at which it may be halted: no started clause is left (R335). -/
def Group.between (g : Group) : Bool := g.resident && g.clauses.isEmpty && g.killing.isNone && !g.dying

/-- Whether a group to which PREEMPT was posted has suspended since (R401). -/
def Group.idle (g : Group) : Bool := g.st == .suspended

/-- A group saved by force, or left where it is for want of room. -/
def State.halt (s : State) (gi : Nat) (forced : Bool) : State :=
  match s.saveGroup gi forced false with
  | .done s1 => s1
  | .noRoom s1 => s1
  | .wait s1 => s1

/-- FORCED_HALT (R400 to R402, R399): of a resident group whose world's slice is over, at once where no PREEMPT was posted to it or it has
suspended since; and of a group whose halt has begun and waits for an operation, or whose save waits for room in the pool; a MOVE halts
its team itself. -/
def execForcedHalt (g : Nat) (s : State) : Host.Outcome State Fault Refusal :=
  let x := s.grp g
  if !x.between || s.hub.moves.any (fun m => m.groups.contains g) then .next s
  else if x.halting then .next (s.halt g true)
  else if x.image = 1 then .next (s.halt g (!x.accept))
  else if s.sliceCurrent x.func = false ∧ (x.graceAt = none ∨ x.idle = true) then .next (s.halt g true)
  else .next s

end Sys2Proof.Machine
end

