-- ==== Sys2Proof/Machine/Teller.lean ====
section
/-! DEFINITION. The host's attachment (file 20): teller pages and the queue table, and the six kinds of command. An event that is not
enabled leaves the state as it is. -/

namespace Sys2Proof.Machine

/-! The queue table (R363) -/

/-- Fields of a queue table entry. -/
def State.qValid (s : State) (q : Nat) : Bool := bitAt (s.reg (offQueue q 0)) 0
def State.qPriv (s : State) (q : Nat) : Bool := bitAt (s.reg (offQueue q 0)) 1
def State.qPrio (s : State) (q : Nat) : Nat := s.regN (offQueue q 0) 5 3
def State.qClass (s : State) (q : Nat) : Nat := s.regN (offQueue q 0) 9 6
def State.qFunc (s : State) (q : Nat) : Nat := s.regN (offQueue q 0) 15 10
def State.qPage (s : State) (q : Nat) : Nat := s.regN (offQueue q 0) 31 16
/-- Commands that the queue holds. -/
def State.qDepth (s : State) (q : Nat) : Nat := s.regN (offQueue q 0) 43 32 + 1
def State.qRing (s : State) (q : Nat) : List Command := lookupD s.hub.rings q []

/-- The bits of each word that a write changes. -/
def queueMask (word : Nat) : W64 :=
  match word with
  | 0 => 0x00000FFFFFFFFFFB
  | 1 => 0xFFFFFFFFFFFFFFFF
  | 2 => 0x01FFFFFFFFFFFF80
  | _ => 0

/-- Whether another valid entry binds a function's page. -/
def State.pageTaken (s : State) (q func page : Nat) : Bool :=
  (List.range 4096).any (fun k => k != q && s.qValid k && s.qFunc k == func && s.qPage k == page)

/-- QUEUE_TABLE_WRITE (R363): while V is set only a write that clears V is taken; a page that another valid entry binds leaves V clear. -/
def execQueueTableWrite (q word : Nat) (value : W64) (s : State) : Host.Outcome State Fault Refusal :=
  if 4096 ≤ q ∨ 3 ≤ word then .next s
  else if s.qValid q && !(word == 0 && !bitAt value 0) then .next s
  else
    let v := value &&& queueMask word
    let bound := word == 0 && bitAt v 0 && s.pageTaken q (bitsN v 15 10) (bitsN v 31 16)
    .next (s.setReg (offQueue q word) (if bound then setBits v 0 0 0 else v))

/-! Submitting (R364 to R366) -/

/-- The queue that a function's page is bound to. -/
def State.queueOf (s : State) (func page : Nat) : Option Nat :=
  (List.range 4096).find? (fun q => s.qValid q && s.qFunc q == func && s.qPage q == page)

/-- QSTAT of a page (R364). -/
def State.qstat (s : State) (func page : Nat) : W64 :=
  match s.queueOf func page with
  | none => 0
  | some q => BitVec.ofNat 64 ((lookupD s.hub.bad q 0).toNat * 2 ^ 48 + (lookupD s.hub.acc q 0).toNat * 2 ^ 32 +
      s.qDepth q * 2 ^ 16 + (s.qDepth q - (s.qRing q).length))

/-- The 64-bit word at an offset of a teller page as a read of it finds it (R364): QSTAT at 0x080, and 0 at every other; that SUBMIT, which is written only, reads so too is the
model's choice (log entry 68). -/
def State.pageWord (s : State) (func page off : Nat) : W64 := if off = 0x80 then s.qstat func page else 0

def cmdKind (w : List W64) : Nat := bitsN (w.getD 0 0) 7 0
def cmdNote (w : List W64) : BitVec 8 := (w.getD 0 0).extractLsb' 8 8
def cmdTag (w : List W64) : BitVec 32 := (w.getD 0 0).extractLsb' 32 32
/-- A byte of a command. -/
def cmdByte (w : List W64) (k : Nat) : Nat := bitsN (w.getD (k / 8) 0) (8 * (k % 8) + 7) (8 * (k % 8))

/-- Whether a command's header is one that SUBMIT takes (R365, R367). -/
def headerOk (w : List W64) : Bool :=
  decide (1 ≤ cmdKind w ∧ cmdKind w ≤ 6) && bitsN (w.getD 0 0) 31 16 == 0 && bitsN (w.getD 0 0) 15 13 == 0 && w.getD 3 0 == 0 &&
  bitsN (w.getD 2 0) 3 0 == 0

/-- Whether a world's pages answer at all: a CONF world's do once it is RUNNING (R386). -/
def State.pagesAnswer (s : State) (func : Nat) : Bool := !s.worldConf func || s.worldState func == 2

/-- The fates of R365. -/
abbrev dmwrDone : Nat := 0
abbrev dmwrRetry : Nat := 1
abbrev dmwrUnsupported : Nat := 2

/-- A write refused as malformed is counted. -/
def State.countBad (s : State) (q : Nat) : State :=
  { s with hub := { s.hub with bad := setKey s.hub.bad q (lookupD s.hub.bad q 0 + 1) } }

/-- A command accepted: it stands at the end of its ring, in device DRAM as well, one place after the command before it (R363, R366; log
entry 15). -/
def State.accept (s : State) (q func : Nat) (w : List W64) : State :=
  let k := lookupD s.hub.ringAt q 0 % s.qDepth q
  let place := 128 * bitsN (s.reg (offQueue q 2)) 56 7 + 128 * k
  let s1 := s.devWriteBytes .glob place (w.flatMap (fun x => bytesLE 8 x.toNat)) none false
  { s1 with hub := { s1.hub with
      acc := setKey s1.hub.acc q (lookupD s.hub.acc q 0 + 1)
      ringAt := setKey s1.hub.ringAt q (k + 1)
      rings := setKey s1.hub.rings q (s1.qRing q ++ [⟨func, w⟩]) } }

/-- The words of a write's bytes. -/
def wordsOf (data : List Byte) : List W64 :=
  (List.range (data.length / 8)).map (fun k => BitVec.ofNat 64 (ofBytesLE ((data.drop (8 * k)).take 8)))

/-- What becomes of a Deferrable Memory Write to a teller page. -/
def State.dmwr (s : State) (func page off : Nat) (data : List Byte) : Nat × State :=
  match s.queueOf func page with
  | none => (dmwrUnsupported, s)
  | some q =>
    if !s.pagesAnswer func then (dmwrUnsupported, s)
    else if off ≠ 0 ∨ data.length ≠ 128 then (dmwrUnsupported, s.countBad q)
    else
      let w := wordsOf data
      if !headerOk w then (dmwrUnsupported, s.countBad q)
      else if s.qDepth q ≤ (s.qRing q).length then (dmwrRetry, s)
      else (dmwrDone, s.accept q func w)

/-- SUBMIT (R365, R366, R386): a write that reaches a teller page. A posted write to SUBMIT is discarded and counted. -/
def execSubmit (func page off : Nat) (data : List Byte) (posted : Bool) (s : State) : Host.Outcome State Fault Refusal :=
  if posted then
    match s.queueOf func page with
    | some q => if off < 128 then .next (s.countBad q) else .next s
    | none => .next s
  else
    let r := s.dmwr func page off data
    .next { r.2 with out := r.2.out ++ [.dmwr r.1] }

/-! Beginning a command (R365, R369) -/

/-- Whether the LAUNCH at the head of a queue has been read and waits to be placed (R40, R365). -/
def State.headWaits (s : State) (q : Nat) : Bool :=
  s.launches.any (fun l => !l.placed && !l.done && (match l.by_ with
    | .teller p .. => p == q
    | .spawn .. => false))

/-- Whether a queue has a command that may begin: its head is none that waits (R40, R365). -/
def State.headReady (s : State) (q : Nat) : Bool := !(s.qRing q).isEmpty && !s.headWaits q

/-- The partition and class of a queue's commands as one number (R369, R440): 16 times the partition plus the class. -/
def State.classKey (s : State) (q : Nat) : Nat := 16 * s.partOf (s.qFunc q) + s.qClass q

/-- Whether a queue's partition and class have a grant left in the round under way: each has as many as its weight (R369, R382). -/
def State.hasGrant (s : State) (q : Nat) : Bool :=
  let k := s.classKey q
  decide (lookupD s.hub.granted k 0 < s.weight (k / 16) (k % 16))

/-- Whether no other queue that is ready goes before queue q: none has a higher priority, and where q's partition and class have no grant left
none of the same priority has one (R369; log entry 55). -/
def State.turnOf (s : State) (q : Nat) : Bool :=
  s.hub.rings.all (fun r => !s.headReady r.1 ||
    (decide (s.qPrio r.1 ≤ s.qPrio q) && (s.hasGrant q || s.qPrio r.1 != s.qPrio q || !s.hasGrant r.1)))

/-- Whether a queue's head may begin (R369). -/
def State.mayBegin (s : State) (q : Nat) : Bool := s.headReady q && s.turnOf q

/-- The command that a queue may begin now, if it is of a kind. -/
def State.headOf (s : State) (q kind : Nat) : Option Command :=
  if s.mayBegin q then
    match (s.qRing q).head? with
    | some c => if cmdKind c.words = kind then some c else none
    | none => none
  else none

/-- A grant given to a queue; with none left another round begins (R369). -/
def State.grantTo (s : State) (q : Nat) : State :=
  let k := s.classKey q
  { s with hub := { s.hub with granted := if s.hasGrant q then setKey s.hub.granted k (lookupD s.hub.granted k 0 + 1) else [(k, 1)] } }

/-- A queue's head taken from its ring: its entry is free (R365). -/
def State.popRing (s : State) (q : Nat) : State := { s with hub := { s.hub with rings := setKey s.hub.rings q ((s.qRing q).drop 1) } }

/-- A queue's head begins: it takes a grant and leaves its ring. -/
def State.beginPop (s : State) (q : Nat) : State := (s.grantTo q).popRing q

/-- A command's completion. -/
def State.finishCmd (s : State) (q func : Nat) (w : List W64) (status : Nat) (value : W64) : State :=
  s.completeCommand func q (cmdTag w) (cmdNote w) (w.getD 1 0) (w.getD 2 0) status value

/-- Whether byte k of a command belongs to its kind's payload (R367, R370, R372, R373). -/
def usedByte (kind k : Nat) : Bool :=
  decide (k < 40) ||
  (match kind with
    | 2 | 3 => k == 40 || decide (48 ≤ k ∧ k < 56)
    | 4 => k == 40
    | 5 => k == 40 || k == 41
    | _ => false)

/-- Whether every payload byte that a kind leaves out is zero. -/
def payloadOk (w : List W64) : Bool :=
  (List.range 96).all (fun j => usedByte (cmdKind w) (32 + j) || cmdByte w (32 + j) == 0)

/-- LAUNCH at the head of its queue (R370, R371): its record is read once and refused, placed, or left waiting with its ring entry kept. -/
def State.beginLaunch (s : State) (q : Nat) (c : Command) : State :=
  let w := c.words
  let rec_ := w.getD 4 0
  if !payloadOk w || bitsN rec_ 5 0 != 0 || bitsN rec_ 63 57 != 0 then (s.beginPop q).finishCmd q c.func w stDenied 0
  else match s.readRecord c.func rec_.toNat with
    | .hold s1 => s1
    | .bad => (s.beginPop q).finishCmd q c.func w stXlate 0
    | .words r s1 =>
      let l := s1.launches.length
      let x : Launch := { words := r, func := c.func, by_ := .teller q (cmdTag w) (cmdNote w) (w.getD 1 0) (w.getD 2 0), prio := lrPrio r
                          placed := false, done := false, released := false, lnum := 0, groups := [], bars := [] }
      let s2 := (({ s1 with launches := s1.launches ++ [x] } : State).grantTo q).admitLaunch l
      match s2.launches[l]? with
      | some y => if y.placed || y.done then s2.popRing q else s2
      | none => s2

/-- LAUNCH (R371). -/
def execLaunch (q : Nat) (s : State) : Host.Outcome State Fault Refusal :=
  match s.headOf q 1 with
  | some c => .next (s.beginLaunch q c)
  | none => .next s

/-! SIGNAL and DEPOSIT (R372) -/

/-- The sender class of a queue's page: the CLASS of its host name, if that names a STATE 4 entry of the world (R78, R372). -/
def State.pageClass (s : State) (q func : Nat) : Option Nat :=
  let h := s.reg (offQueue q 1)
  match s.walkName func (nameIndex h) with
  | .ok e => if bitsN h 55 48 = 0 ∧ e.state = 4 ∧ nFunc e.w2 = func ∧ e.gen = nameGen h then some (nClass e.w0) else none
  | .error _ => none

/-- A SIGNAL or DEPOSIT begins: it is refused, answered at once, or becomes a request. `limit` is the greatest value of byte 40. -/
def State.beginRequest (s : State) (q : Nat) (c : Command) (limit : Nat) (op : NameOp) : State :=
  let w := c.words
  let s1 := s.beginPop q
  let no := s1.finishCmd q c.func w stDenied (BitVec.ofNat 64 stDenied)
  if !payloadOk w || decide (limit < cmdByte w 40) then no
  else match s1.pageClass q c.func with
    | none => no
    | some cls =>
      let name := w.getD 4 0
      let (id, s2) := s1.fresh
      let post := fun (t : State) (stage : ReqStage) (w0 w1 : W64) =>
        ({ t with reqs := t.reqs ++ [⟨id, .teller q (cmdTag w) (cmdNote w) (w.getD 1 0) (w.getD 2 0), none, c.func, cls, name, op, stage,
          w0, w1, 0⟩] } : State)
      match s2.nameTest c.func cls name op with
      | .answer r => post s2 (.answered r) 0 0
      | .denied => post (s2.denial (s2.reg (offQueue q 1)) name op.bit cls c.func id) (.answered (BitVec.ofNat 64 stDenied)) 0 0
      | .go e => post s2 .send e.w0 e.w1

/-- TELLER_SIGNAL (R372). -/
def execTellerSignal (q : Nat) (s : State) : Host.Outcome State Fault Refusal :=
  match s.headOf q 2 with
  | some c => .next (s.beginRequest q c 15 (.signal (cmdByte c.words 40) (c.words.getD 6 0)))
  | none => .next s

/-- TELLER_DEPOSIT (R372). -/
def execTellerDeposit (q : Nat) (s : State) : Host.Outcome State Fault Refusal :=
  match s.headOf q 3 with
  | some c => .next (s.beginRequest q c 7 (.deposit (cmdByte c.words 40) (c.words.getD 6 0)))
  | none => .next s

/-! COPY (R373) -/

/-- The place of a till or completion word of a copy control block: an explicit address inside the partition's window. -/
def State.blockPlace (s : State) (func addr : Nat) : Option Nat :=
  match tilePlace 256 addr with
  | some (pkg, off) =>
    if pkg < 256 ∧ s.inWindow func 256 pkg = true ∧ off < Config.engineRegion then some (tileAbs pkg off) else none
  | none => none

/-- A COPY begins: refused, or under way with its first record still to be read. -/
def State.beginCopy (s : State) (q : Nat) (c : Command) : State :=
  let w := c.words
  let s1 := s.beginPop q
  let die := cmdByte w 40
  if !payloadOk w || decide (3 < die) || bitsN (w.getD 4 0) 5 0 != 0 then s1.finishCmd q c.func w stDenied 0
  else if !s1.copyEngine c.func die then s1.finishCmd q c.func w stNoengine 0
  else
    let (id, s2) := s1.fresh
    { s2 with hub := { s2.hub with copies := s2.hub.copies ++ [⟨id, c.func, q, w, 0, false⟩] } }

/-- The next record of a COPY's block read and begun; a fence waits for nothing. -/
def State.copyNext (s : State) (c : CopyReq) : State :=
  let core := 256 + cmdByte c.cmd 40
  let addr := (c.cmd.getD 4 0).toNat + 64 * c.pos
  let place := s.blockPlace c.func
  if Config.listRecords ≤ c.pos then s.endCopy c stOk c.pos
  else match s.readRecord c.func addr with
    | .hold s1 => s1
    | .bad => s.endCopy c stXlate c.pos
    | .words r s1 =>
      let cpl := (s1.recCpl c.func place r).getD 0
      let entry := fun (t : State) (q : Nat) (k : EntryKind) (till : Nat) =>
        let (id, t1) := t.fresh
        let e := Entry.fresh_ id k (.copyCommand c.id (recTag r) cpl) c.func 0 (s.qClass c.q) core till
        let t2 : State := { t1 with hub := { t1.hub with copies := t1.hub.copies.map (fun x => if x.id = c.id then { x with busy := true } else x) } }
        match k with
        | .linear _ ds _ dst len => t2.placeCopy q e ds dst len
        | _ => t2.pushEntry q e
      match s1.recordFate c.func core addr place r with
      | .end_ => s1.endCopy c stOk c.pos
      | .refuse st a =>
        let s2 := s1.completionWord cpl (recTag r) st
        (if st = stDenied then s2.engineEvent c.func 3 st a 0 else s2).endCopy c st c.pos
      | .fence _ => (s1.completionWord cpl (recTag r) stOk).copyRecordDone c.id stOk
      | .copy q k till => entry s1 q k till

/-- COPY (R373): the next record of a command of the queue under way, or the beginning of the one at its head. The engines of a world whose slice is
not current are paused, and its commands with them (R387, R406). -/
def execCopy (q : Nat) (s : State) : Host.Outcome State Fault Refusal :=
  match s.hub.copies.find? (fun c => c.q == q && !c.busy && s.sliceCurrent c.func) with
  | some c => .next (s.copyNext c)
  | none => match s.headOf q 4 with
    | some c => .next (s.beginCopy q c)
    | none => .next s

/-! MOVE and KILL (R332) -/

/-- What the target of a MOVE or KILL is found to be; `doomed`: it has executed its EXIT and dies. -/
inductive Aim where
  | answer (status : Nat)
  | wait
  | doomed
  | group (g : Nat)
  deriving DecidableEq, Repr

/-- The rows of R332 in order; `judged`: the command has waited, and its queue's privilege, which it had then, is tested no more. -/
def State.aim (s : State) (q func : Nat) (name : W64) (judged : Bool) : Aim :=
  if bitsN name 55 48 != 0 then .answer stNoname
  else match s.walkName func (nameIndex name) with
    | .error st => .answer st
    | .ok e =>
      if e.state == 0 || nFunc e.w2 != func then .answer stNoname
      else if e.gen != nameGen name then .answer stDead
      else if (!judged && !s.qPriv q) || e.state == 4 then .answer stDenied
      else if e.state == 5 then .answer stDead
      else if e.state == 3 then .wait
      else match (s.grpsWhere (fun g => g.alive && g.func == func && g.name == name)).head? with
        | some gi => if (s.grp gi).dying then .doomed else .group gi
        | none => .wait

/-- A list with the first occurrence of an element replaced. -/
def swapFirst {α : Type} [DecidableEq α] (a b : α) : List α → List α
  | [] => []
  | x :: xs => if x = a then b :: xs else x :: swapFirst a b xs

/-- A taken command's record changed, or gone. -/
def State.setTaken (s : State) (t u : Taken) : State := { s with hub := { s.hub with taken := swapFirst t u s.hub.taken } }
def State.dropTaken (s : State) (t : Taken) : State := { s with hub := { s.hub with taken := s.hub.taken.erase t } }

/-- A taken command ends. -/
def State.endTaken (s : State) (t : Taken) (status : Nat) : State := (s.dropTaken t).finishCmd t.q t.func t.words status 0

/-- Whether a name's entry no longer names a living group. -/
def State.nameGone (s : State) (func : Nat) (name : W64) : Bool :=
  match s.walkName func (nameIndex name) with
  | .ok e => !(decide (1 ≤ e.state ∧ e.state ≤ 3) && e.gen == nameGen name)
  | .error _ => true

/-- A KILL that has acted completes once the entry reads STATE 5 (R369). -/
def State.killDone (s : State) (t : Taken) : State :=
  if s.nameGone t.func (t.words.getD 4 0) then s.endTaken t stOk else s

/-- A command whose target dies: DEAD once the entry reads STATE 5 (R332). -/
def State.awaitDeath (s : State) (t : Taken) : Option State :=
  if s.nameGone t.func (t.words.getD 4 0) then some (s.endTaken t stDead) else none

/-- A command that waits for its target to leave STATE 3, or for a member of the team, keeps waiting: that its queue may send it is settled (R332). -/
def State.keepWaiting (s : State) (t : Taken) : Option State := if t.judged then none else some (s.setTaken t { t with judged := true })

/-- A KILL taken from its ring goes on, if it can (R76, R332, R408). -/
def State.killStep (s : State) (t : Taken) : Option State :=
  if t.doomed then s.awaitDeath t
  else if t.acted then (if s.nameGone t.func (t.words.getD 4 0) then some (s.killDone t) else none)
  else if !payloadOk t.words then some (s.endTaken t stDenied)
  else match s.aim t.q t.func (t.words.getD 4 0) t.judged with
    | .answer st => some (s.endTaken t st)
    | .wait => s.keepWaiting t
    | .doomed => some (s.setTaken t { t with doomed := true })
    | .group gi =>
      let g := s.grp gi
      let u := { t with acted := true }
      if g.killing.isSome then some (s.setTaken t u)
      else some (((s.setTaken t u).kill gi exitKilled).killDone u)

/-- Room for a team at a destination core, the team's own slots, blocks and lines there counted as free (R372): the lines found for each
group; none where it does not fit. -/
def State.moveRoom (s : State) (team : List Nat) (pkg : Nat) : Option (List (Nat × Nat × Nat)) :=
  let t := team.foldl (fun (s : State) g => s.modGrp g (fun x => { x with st := .moving })) s
  let fits := (List.range 4).all (fun q =>
    let mine := team.filter (fun g => (s.grp g).qtr == q)
    decide (mine.length ≤ (t.freeSlots pkg q).length) &&
    decide (mine.foldl (fun n g => n + (s.grp g).blk) 0 ≤ t.freeBlocks pkg q))
  let recs := fun (g : Nat) =>
    let x := s.grp g
    if x.resident then x.obrec else (List.range 8).map (fun k => s.imWord x.image (0x340 + 8 * k))
  let lines := team.foldl (fun (acc : Option (List (Nat × Nat × Nat))) g => match acc with
    | none => none
    | some ls =>
      let q := (s.grp g).qtr
      let used := t.usedLines pkg q ++ (ls.filter (fun l => (s.grp l.1).qtr == q)).map Prod.snd
      match placeRecords used (recs g) with
      | none => none
      | some rs => some (ls ++ (rs.filter obValid).map (fun r => (g, obBase r, obLen r)))) (some [])
  if fits then lines else none

/-- The members of a team halted by force as one step (R407): all, or none; `full`: a member found no room for its image. -/
inductive Halted where
  | done (s : State)
  | full (g : Nat)
  | wait
  deriving DecidableEq, Repr

/-- A saved group accepted for a MOVE: its image stays, and its entry reads STATE 3 (R31, R71). R60 gives word 1 then as the source slot, and a saved
group has none: the model writes the slot that it held last (log entry 66). -/
def State.movingSaved (s : State) (gi : Nat) : State :=
  let g := s.grp gi
  (s.modGrp gi (fun g => { g with st := .moving })).entrySaved g.func g.name true false (locWord g.pkg g.qtr g.slot).toNat

def State.haltTeam (s : State) : List Nat → Halted
  | [] => .done s
  | g :: gs =>
    if (s.grp g).st = .saved then (s.movingSaved g).haltTeam gs
    else if !(s.grp g).between then .wait
    else match s.saveGroup g true true with
      | .done s1 => s1.haltTeam gs
      | .noRoom _ => .full g
      | .wait _ => .wait

/-- The members of a team whose MOVE is accepted issue nothing more, and the acceptance flag of each closes once no started clause of it is
left (R402). -/
def State.closeTeam (s : State) (team : List Nat) : State :=
  team.foldl (fun s g => if (s.grp g).resident then
    s.modGrp g (fun x => { x with halting := true, accept := x.accept && !x.clauses.isEmpty }) else s) s

/-- An accepted MOVE halts its team, if it can now: with the last member halted the command waits for its installations alone. A member
without room for its image is told of once by a SAVE event (R399), and the team waits for it. -/
def State.haltMove (s : State) (t : Taken) : Option State :=
  match s.hub.moves.find? (fun m => m.q == t.q && m.cmd == t.words) with
  | none => some (s.dropTaken t)
  | some m => match s.haltTeam m.groups with
    | .done s1 => some (s1.dropTaken t)
    | .wait =>
      if m.groups.any (fun g => (s.grp g).resident && (s.grp g).accept && (s.grp g).clauses.isEmpty) then some (s.closeTeam m.groups) else none
    | .full j =>
      if t.told then none
      else
        let n := ((s.settle j).1.imageBytes j).length
        some ((s.setTaken t { t with told := true }).raiseLog t.func evSave [0, BitVec.ofNat 64 n, 0, 0] (s.grp j).name none)

/-- A MOVE taken from its ring goes on, if it can (R71, R332, R372, R407): its room at the destination is held from the test on. -/
def State.moveStep (s : State) (t : Taken) : Option State :=
  let w := t.words
  let die := cmdByte w 40
  let index := cmdByte w 41
  let pkg := 64 * die + index
  if t.doomed then s.awaitDeath t
  else if t.acted then s.haltMove t
  else if !payloadOk w || decide (3 < die) || decide (63 < index) then some (s.endTaken t stDenied)
  else match s.aim t.q t.func (w.getD 4 0) t.judged with
    | .answer st => some (s.endTaken t st)
    | .wait => s.keepWaiting t
    | .doomed => some (s.setTaken t { t with doomed := true })
    | .group gi =>
      let g := s.grp gi
      let rec_ := s.launchWords g
      if !s.partCore (s.partOf t.func) pkg || decide (lrCw rec_ * lrCh rec_ ≠ 1) || decide (tileUnits rec_ ≠ 0) then some (s.endTaken t stDenied)
      else
        let team := s.grpsWhere (fun x => x.alive && sameTeam x g)
        if team.any (fun j => (s.grp j).dying || (s.grp j).killing.isSome || s.hub.moves.any (fun m => m.groups.contains j)) then s.keepWaiting t
        else match s.moveRoom team pkg with
          | none => some (s.endTaken t stFull)
          | some lines =>
            if !s.coreReady pkg then some (s.endTaken t stFull)
            else
              let m : MoveReq := { groups := team, lines := lines, target := gi, pkg := pkg, q := t.q, cmd := w }
              let u := { t with acted := true }
              let s1 := (({ s with hub := { s.hub with moves := s.hub.moves ++ [m] } } : State).setTaken t u).closeTeam team
              some ((s1.haltMove u).getD s1)

/-- The first of a queue's commands of a kind that were taken and can go on does. -/
def State.goOn (s : State) (q kind : Nat) (f : Taken → Option State) : State :=
  ((s.hub.taken.filter (fun t => t.q == q && cmdKind t.words == kind)).findSome? f).getD s

/-- A MOVE or KILL taken from its ring, whose entry is then free (R365). -/
def State.takeCommand (s : State) (q : Nat) (c : Command) : State :=
  let s1 := s.beginPop q
  { s1 with hub := { s1.hub with taken := s1.hub.taken ++ [⟨q, c.func, c.words, false, false, false, false⟩] } }

/-- MOVE (R71, R332, R372): the command at the head of the queue is taken and acts, or waits; else one that waited acts. -/
def execMove (q : Nat) (s : State) : Host.Outcome State Fault Refusal :=
  let s1 := match s.headOf q 5 with
    | some c => s.takeCommand q c
    | none => s
  .next (s1.goOn q 5 s1.moveStep)

/-- KILL (R76, R332, R408): the command at the head of the queue is taken and acts, or waits; else one that waited acts. -/
def execKill (q : Nat) (s : State) : Host.Outcome State Fault Refusal :=
  let s1 := match s.headOf q 6 with
    | some c => s.takeCommand q c
    | none => s
  .next (s1.goOn q 6 s1.killStep)

end Sys2Proof.Machine
end

