-- ==== Sys2Proof/Machine/TranslateEv.lean ====
section
/-! DEFINITION. The ends of page walks and of ATS and PRI requests (file 21 R388 to R393), and the removal of translations (R391, R392). An
event that is not enabled leaves the state as it is. -/

namespace Sys2Proof.Machine

/-- A group held on a translation fault (R31, R416): pending, with every started clause recorded at the word it issues next. -/
def Group.holdXf (g : Group) : Group :=
  { g.record ⟨0, 0, 0, 0⟩ with st := if g.st = .active then .pending else g.st, heldXf := true, waiting := false }

/-- The cursor taken from a group. -/
def State.uncur (s : State) (gi : Nat) : State := if s.cur.any (fun c => c.1 == gi) then { s with cur := none } else s

/-- A walk's finding for a group: PAGE at the page, to be met when the word is performed again (R389). -/
def State.walkBad (s : State) (w : Walk) : State :=
  match w.group with
  | some gi => s.modGrp gi (fun g => { g with xfFail := some (alignDown w.va 4096) })
  | none => s

/-- A replayable fault of a group's access (R389, R416). -/
def State.walkAbsent (s : State) (w : Walk) : State :=
  match w.group with
  | some gi =>
    let g := s.grp gi
    if g.resident && !g.heldXf then
      ((s.modGrp gi Group.holdXf).uncur gi).raiseXfault w.func w.va w.access 0 (some gi) none none g.name
    else s
  | none => s

/-- PAGE_WALK_COMPLETE (R388 to R390): a walk that has a walker ends, for all who asked for its page on the die: with a translation in both
TLB levels, with A and D set, or with its finding. -/
def execPageWalkComplete (w : Nat) (s : State) : Host.Outcome State Fault Refusal :=
  match s.walks[w]? with
  | none => .next s
  | some x =>
    if !s.walking x then .next s
    else
      let mine := s.walks.filter (fun y => y.same x)
      let s1 : State := { s with walks := s.walks.filter (fun y => !y.same x) }
      match s1.walkTable x.func x.va (mine.any (fun y => needsW y.access)) with
      | .ok t upd => .next (mine.foldl (fun s y => s.installTlb y.core t) (s1.setAD upd))
      | .bad => .next (mine.foldl State.walkBad s1)
      | .absent => .next (mine.foldl State.walkAbsent s1)

/-- What waits for a translation of the hub's tried again: words, records, notifications and completions (R74, R368, R415). -/
def State.afterAts (s : State) : State := s.flushPuts.flushEvents.flushNotes.flushCompletions

/-- ATS_TRANSLATION_COMPLETION (R393): the translation, with or without write access, fills the die's L2 TLB; no access, or none for a
write that asks it, sends a page request. -/
def execAtsTranslationCompletion (r : Nat) (granted : Option (Nat × Bool)) (s : State) : Host.Outcome State Fault Refusal :=
  match s.hub.ats[r]? with
  | none => .next s
  | some x =>
    let s1 : State := { s with hub := { s.hub with ats := dropNth r s.hub.ats } }
    let refuse : State := { s1 with hub := { s1.hub with pri := s1.hub.pri ++ [⟨x.func, x.hpa, x.group⟩] } }
    match granted with
    | none => .next refuse
    | some (pa, w) =>
      if needsW x.access && !w then .next refuse
      else
        let page := atsKey (natBits x.hpa 54 0)
        let t : Tlb := ⟨x.func, page, 4096, alignDown pa 4096, w, true, true⟩
        let known := (x.func, page, alignDown pa 4096)
        let s2 : State := { s1 with hub := { s1.hub with atsMap := s1.hub.atsMap.filter (fun m => m ≠ known) ++ [known] } }
        .next (s2.installL2 x.die t).afterAts

/-- Whether the r-th page request is outstanding, within the allocation that the host has granted its function; further ones wait (R393). -/
def State.priSent (s : State) (r func : Nat) : Bool :=
  decide (((s.hub.pri.take r).filter (fun x => x.func == func)).length < 1 + Config.priExtra func)

/-- PRI_RESPONSE (R393), to a request that is outstanding: Success replays the access; any other response gives PAGE. -/
def execPriResponse (r : Nat) (success : Bool) (s : State) : Host.Outcome State Fault Refusal :=
  match s.hub.pri[r]? with
  | none => .next s
  | some x =>
    if !s.priSent r x.func then .next s
    else
    let s1 : State := { s with hub := { s.hub with pri := dropNth r s.hub.pri } }
    if success then .next s1.afterAts
    else
      let s2 : State := { s1 with hub := { s1.hub with denied := s1.hub.denied ++ [(x.func, alignDown x.va 4096)] } }
      .next s2.afterAts

/-! Removal (R391, R392) -/

/-- Whether an address lies in n pages from one on; n = 0 names every page. -/
def inPages (va pages a : Nat) : Bool := pages == 0 || decide (va ≤ a ∧ a < va + 4096 * pages)

/-- Whether a held translation meets those pages. -/
def Tlb.meets (t : Tlb) (func va pages : Nat) : Bool :=
  t.func == func && (pages == 0 || decide (t.va < va + 4096 * pages ∧ va < t.va + t.size))

/-- Whether an access of a world that used a translation of those pages has still to be performed (R391). -/
def State.pagesBusy (s : State) (func va pages : Nat) : Bool :=
  s.groups.any (fun g => g.alive && g.func == func && g.ops.any (fun o => o.space == .glob && o.accs.any (fun a =>
    (match o.kind with
      | .load 0 .. => a.place.zipIdx.any (fun p => inPages va pages (g.privAddr a.lane (a.addr + p.2)))
      | _ => inPages va pages a.addr))))

/-- A world's private stores that satisfy p performed now: until they are visible to all, others may read the bytes before or after them,
so this is a moment as any other (R85, R391). -/
def State.landPriv (s : State) (func : Nat) (p : Esc → Bool) : State :=
  (s.escrow.filter (fun e => e.level == .priv && (s.grp e.owner).func == func && p e)).foldl (fun s e => s.landEsc false (fun x => x == e) e) s

/-- The translations of a world's pages removed from every TLB, its walks ended with no result, its private stores to the pages performed,
every ATS translation of the world dropped, and its escrow entries of those pages marked (R391, R392). -/
def State.dropPages (s0 : State) (func va pages : Nat) : State :=
  let s := s0.landPriv func (fun e => inPages va pages e.va)
  { s with
    cores := s.cores.map (fun (c : Nat × Core) => (c.1, { c.2 with tlb := c.2.tlb.filter (fun t => !t.meets func va pages) }))
    walks := s.walks.filter (fun w => w.func ≠ func)
    hub := { s.hub with l2tlb := s.hub.l2tlb.filter (fun e => !(e.2.meets func va pages || (e.2.func == func && decide (2 ^ 60 ≤ e.2.va)))) }
    escrow := s.escrow.map (fun e =>
      if e.space = .glob ∧ e.level ≠ .priv ∧ (s.grp e.owner).func = func ∧ inPages va pages e.va = true then { e with marked := true } else e) }

/-- ATS_INVALIDATE (R393): the host's request for pages of its own addresses completes under the conditions of R391: the requests in flight
end with no result, and what waits for them asks again; no access that used one of their translations is outstanding, whether or not a TLB
still holds it; entries for region 2 are marked. What the hub has accepted for the frames is brought there first. -/
def execAtsInvalidate (func va pages : Nat) (s0 : State) : Host.Outcome State Fault Refusal :=
  let named := fun (key : Nat) => decide (2 ^ 60 ≤ key) && inPages va pages (key - 2 ^ 60)
  let frames := (s0.hub.atsMap.filter (fun m => m.1 == func && named m.2.1)).map (fun m => m.2.2)
  let uses := fun (pa : Nat) => regionOf pa == 2 && frames.contains (alignDown pa 4096)
  let s := s0.landPriv func (fun e => uses e.sector)
  if s.groups.any (fun g => g.alive && g.func == func && g.ops.any (fun o => o.space == .glob && o.accs.any (fun a => a.place.any uses))) then
    .next s
  else
    let s1 := (dedupN ((s.egress.map Egress.sector).filter uses)).foldl State.flushSector s
    .next ({ s1 with
      hub := { s1.hub with
        l2tlb := s1.hub.l2tlb.filter (fun e => !(e.2.func == func && named e.2.va))
        atsMap := s1.hub.atsMap.filter (fun m => !(m.1 == func && named m.2.1))
        ats := s1.hub.ats.filter (fun r => !(r.func == func && inPages va pages (natBits r.hpa 54 0))) }
      escrow := s1.escrow.map (fun e =>
        if e.space = .glob ∧ e.level ≠ .priv ∧ (s1.grp e.owner).func = func ∧ uses e.sector = true then { e with marked := true } else e) } : State).afterAts

end Sys2Proof.Machine
end

