-- ==== Sys2Proof/Machine/Partition.lean ====
section
/-! DEFINITION. Partitions and worlds (file 21): the partition commands, admission and departure, and the writes of management
registers. A command that is not the one being performed leaves the state as it is. -/

namespace Sys2Proof.Machine

/-! The command unit (R378) -/

/-- The command being performed completes with a status: PSTAT's BUSY clears and SEQ rises. -/
def State.pcmdDone (s : State) (st : Nat) : State :=
  let seq := (s.regN offPstat 47 32 + 1) % 2 ^ 16
  ({ s with hub := { s.hub with pcmd := [] } } : State).setReg offPstat (BitVec.ofNat 64 (seq * 2 ^ 32 + st))

def pcOp (w : List W64) : Nat := bitsN (w.getD 0 0) 7 0
def pcPart (w : List W64) : Nat := bitsN (w.getD 0 0) 12 8
def pcFunc (w : List W64) : Nat := bitsN (w.getD 0 0) 21 16
def pcArg0 (w : List W64) : W64 := w.getD 1 0
def pcArg1 (w : List W64) : W64 := w.getD 2 0

/-- Whether word 0 of a command is one that every command needs (R378, R379). -/
def pcmdOk (w : List W64) : Bool :=
  bitsN (w.getD 0 0) 63 22 == 0 && bitsN (w.getD 0 0) 15 13 == 0 && decide (pcPart w ≤ 23)

/-- The command being performed, if it has an OP: its three words. -/
def State.pcmdOf (s : State) (op : Nat) : Option (List W64) :=
  if s.hub.pcmd.length = 3 ∧ pcOp s.hub.pcmd = op then some s.hub.pcmd else none

/-- A command performed: one that word 0 makes malformed completes with DENIED. -/
def State.perform (s : State) (op : Nat) (f : List W64 → State) : State :=
  match s.pcmdOf op with
  | none => s
  | some w => if pcmdOk w then f w else s.pcmdDone stDenied

/-! CONFIGURE and RETIRE (R379, R383, R429) -/

/-- Whether a TDISP lock freezes a world's entry, or a partition's (R386). -/
def State.frozen (s : State) (func : Nat) : Bool := s.tdi func == 1 || s.tdi func == 2
def State.frozenPart (s : State) (p : Nat) : Bool := (List.range 64).any (fun f => s.frozen f && s.partOf f == p)

/-- Partitions other than p that are not EMPTY. -/
def State.otherParts (s : State) (p : Nat) : List Nat := (List.range 24).filter (fun k => k != p && s.partState k != 0)

/-- Whether the window of a partition is exactly its cores' slices (R87, R383). -/
def State.windowExact (s : State) (p : Nat) : Bool :=
  let lo := s.regN (offPart p 4) 7 0
  let hi := s.regN (offPart p 4) 15 8
  decide (lo ≤ hi) && (List.range 256).all (fun c => decide (lo ≤ c ∧ c ≤ hi) == s.partCore p c)

/-- Whether READY's bits allow what a partition names (R429). -/
def State.partsReady (s : State) (p : Nat) : Bool :=
  let r := s.reg offReady
  let eng := (s.reg (offPart p 5)).toNat
  let net := (s.reg (offPart p 6)).toNat
  (List.range 16).all (fun k => !Nat.testBit eng k || bitAt r (20 + k)) &&
  (List.range 4).all (fun k => !Nat.testBit eng (16 + k) || bitAt r (36 + k)) &&
  (List.range 8).all (fun k => !Nat.testBit eng (20 + k) || bitAt r (40 + k)) &&
  (List.range 3).all (fun k => !Nat.testBit net (1 + k) || bitAt r (13 + k)) &&
  (List.range 8).all (fun k => !Nat.testBit net (4 + k) || bitAt r (5 + k)) &&
  (List.range 64).all (fun m => !bitAt (s.reg (offPart p 2)) m || bitAt r (1 + m / 16))

/-- Whether CONFIGURE passes (R383, R386, R429). -/
def State.configOk (s : State) (p : Nat) : Bool :=
  let w := fun (k : Nat) => s.reg (offPart p k)
  s.partState p == 0 && !s.frozenPart p && w 1 != 0 && w 2 != 0 && (w 3 &&& ~~~(w 2)) == 0 && s.windowExact p &&
  bitsN (w 4) 63 16 == 0 && bitsN (w 5) 63 28 == 0 && bitsN (w 6) 63 12 == 0 &&
  (s.otherParts p).all (fun k =>
    (w 1 &&& s.reg (offPart k 1)) == 0 && (w 2 &&& s.reg (offPart k 2)) == 0 && (w 5 &&& s.reg (offPart k 5)) == 0) &&
  s.partsReady p

/-- Worlds that are not ABSENT in a partition. -/
def State.worldsIn (s : State) (p : Nat) : Nat := ((List.range 64).filter (fun f => s.worldState f != 0 && s.partOf f == p)).length

/-- CONFIGURE (R383): the partition is READY, with the worlds that are in it already (world 0, R385). -/
def execConfigure (s : State) : Host.Outcome State Fault Refusal :=
  .next (s.perform 1 (fun w =>
    let p := pcPart w
    if s.configOk p then ((s.setRegN (offPart p 0) 1 0 1).setRegN (offPart p 0) 9 4 (s.worldsIn p)).pcmdDone stOk else s.pcmdDone stDenied))

/-- RETIRE (R379): a READY partition with no world is EMPTY again. -/
def execRetire (s : State) : Host.Outcome State Fault Refusal :=
  .next (s.perform 2 (fun w =>
    let p := pcPart w
    if s.partState p = 1 ∧ s.worldsIn p = 0 ∧ s.frozenPart p = false then (s.setRegN (offPart p 0) 1 0 0).pcmdDone stOk
    else s.pcmdDone stDenied))

/-! Admission (R386, R387, R394) -/

/-- The hub clocks of a slice that begins now (R382, R384, R387): SLICE units of 1,024, 0 read as 1. -/
def State.sliceClocks (s : State) (p : Nat) : Nat := 1024 * max 1 (s.regN (offPart p 7) 63 32)

/-- A slice of a partition begins for a world: its length is SLICE's as it stands now, which a later write does not cut short (R384). -/
def State.setSlice (s : State) (p f : Nat) : State :=
  { s with hub := { s.hub with
      slice := setKey s.hub.slice p f, sliceAt := setKey s.hub.sliceAt p s.hubClk, sliceLen := setKey s.hub.sliceLen p (s.sliceClocks p) } }

/-- A world starts to run: where it meets a second one in its partition, the slice of the one that ran begins now (R387). -/
def State.startWorld (s : State) (f : Nat) : State :=
  let p := s.partOf f
  let s1 := s.setRegN (offWorld f 0) 9 8 2
  match s.running p with
  | [] => s1.setSlice p f
  | [w] => s1.setSlice p w
  | _ => s1

/-- Whether ADMIT passes (R379, R385, R386). -/
def State.admitOk (s : State) (f p : Nat) : Bool :=
  s.worldState f == 0 && s.partState p == 1 && bitsN (s.reg (offWorld f 1)) 63 57 == 0 && bitsN (s.reg (offWorld f 1)) 11 0 == 0 &&
  (!s.worldConf f || s.tdi f == 1)

/-- ADMIT (R386): the world is ADMITTED under a new network key, and runs at once unless it is confidential. -/
def execAdmitWorld (s : State) : Host.Outcome State Fault Refusal :=
  .next (s.perform 3 (fun w =>
    let f := pcFunc w
    let p := pcPart w
    if s.admitOk f p then
      let s1 := (s.setRegN (offWorld f 0) 4 0 p).setRegN (offWorld f 0) 9 8 1
      let s2 := s1.setRegN (offPart p 0) 9 4 (s1.worldsIn p)
      let s3 : State := { s2 with hub := { s2.hub with
        netKeys := s2.hub.netKeys.filter (fun k => k ≠ f) ++ [f]
        placedN := s2.hub.placedN.filter (fun x => x.1 ≠ f) } }
      (if s3.worldConf f then s3 else s3.startWorld f).pcmdDone stOk
    else s.pcmdDone stDenied))

/-! Departure (R386, R398) -/

/-- The slice of a partition passed on, where the world that had it runs no longer: to the next running world in ascending order. -/
def State.passSlice (s : State) (p : Nat) : State :=
  let cur := s.sliceOf p
  let rs := s.running p
  if rs.contains cur then s
  else match (rs.filter (fun f => decide (cur < f)) ++ rs).head? with
    | none => s
    | some f => (s.setSlice p f).dropContext f

/-- Launches of a world that wait are refused, with their ring entries freed (log entry 17). -/
def State.refuseWaiting (s : State) (f : Nat) : State :=
  let ls := (List.range s.launches.length).filter (fun l => match s.launches[l]? with
    | some x => x.func == f && !x.placed && !x.done
    | none => false)
  ls.foldl (fun s l => match s.launches[l]? with
    | some x => match x.by_ with
      | .teller q .. => (s.refuseLaunch l stDenied).popRing q
      | .spawn .. => s.refuseLaunch l stDenied
    | none => s) s

/-- Steps 1 and 2 of R398: pages unbound, and every group halted by force and dead; the partition reads SCRUB meanwhile. -/
def State.startDepart (s : State) (f : Nat) : State :=
  if s.worldState f = 0 ∨ s.worldState f = 3 then s
  else
    let p := s.partOf f
    let s1 := (s.setRegN (offWorld f 0) 9 8 3).setRegN (offPart p 0) 1 0 2
    let s2 : State := { s1 with hub := { s1.hub with departing := s1.hub.departing ++ [f] } }
    let bound := (List.range 4096).filter (fun q => s2.qValid q && s2.qFunc q == f)
    let s3 := bound.foldl (fun s q => s.setRegN (offQueue q 0) 0 0 0) s2
    let s4 := s3.refuseWaiting f
    ((s4.grpsWhere (fun g => g.alive && g.func == f)).foldl (fun s g => s.kill g exitKilled) s4).passSlice p

/-- Whether an address lies in a list of ranges of 4 KiB frames. -/
def inFrames (frames : List Nat) (a : Nat) : Bool := frames.contains (a / 4096)

/-- Steps 3 to 5 of R398: engine entries and reductions cancelled, every row tagged with the world cleared, operand-buffer lines among them
(R132), its keys retired, its frames released and its IDE stream closed. The bytes of its frames stay where they are, under a key that is gone.
Its launches are over, so that no later RELNAMES finds one (R381). -/
def State.scrub (s : State) (f : Nat) : State :=
  let mine := (s.hub.frames.filter (fun x => bitAt x.2 7 && bitsN x.2 5 0 == f)).map Prod.fst
  let units := (s.tileOwn.filter (fun x => x.2 == f)).map Prod.fst
  let inUnits := fun (a : Nat) => units.contains (a / 4096)
  let lines := (s.opOwn.filter (fun x => x.2 == f)).map Prod.fst
  let clean := fun (c : Core) => { c with
    tlb := c.tlb.filter (fun t => t.func ≠ f), near := c.near.filter (fun l => l.func ≠ f), ncache := c.ncache.filter (fun l => l.func ≠ f)
    queues := c.queues.map (fun q => enterQueue (q.filter (fun e => e.func ≠ f))), lists := c.lists.filter (fun l => l.func ≠ f) }
  ({ s with
    cores := s.cores.map (fun (c : Nat × Core) => (c.1, clean c.2))
    tile := ⟨s.tile.cells.filter (fun c => !inUnits c.1)⟩, absent := s.absent.filter (fun a => !inUnits a), poison := s.poison.filter (fun a => !inUnits a)
    tileOwn := s.tileOwn.filter (fun x => x.2 ≠ f)
    cxlKeys := s.cxlKeys.map (fun k => if k.2 = f then (k.1, 64) else k)
    opbuf := ⟨s.opbuf.cells.filter (fun c => !lines.contains (c.1 / 64))⟩, opOwn := s.opOwn.filter (fun x => x.2 ≠ f)
    launches := s.launches.map (fun l => if l.func = f then { l with done := true, released := true } else l)
    fabric := { s.fabric with colls := s.fabric.colls.filter (fun c => c.func ≠ f) }
    gpoison := s.gpoison.filter (fun a => !inFrames mine a)
    escrow := s.escrow.filter (fun e => (s.grp e.owner).func ≠ f)
    walks := s.walks.filter (fun w => w.func ≠ f), reqs := s.reqs.filter (fun r => r.func ≠ f)
    hub := { s.hub with
      l2tlb := s.hub.l2tlb.filter (fun e => e.2.func ≠ f), atsMap := s.hub.atsMap.filter (fun m => m.1 ≠ f)
      ats := s.hub.ats.filter (fun r => r.func ≠ f)
      pri := s.hub.pri.filter (fun r => r.func ≠ f), denied := s.hub.denied.filter (fun d => d.1 ≠ f)
      copies := s.hub.copies.filter (fun c => c.func ≠ f), events := s.hub.events.filter (fun e => e.func ≠ f)
      eseq := s.hub.eseq.filter (fun x => x.1 ≠ f), lost := s.hub.lost.filter (fun x => x.1 ≠ f)
      images := s.hub.images.filter (fun i => i.1 ≠ f), contexts := s.hub.contexts.filter (fun c => c.1 ≠ f)
      notes := s.hub.notes.filter (fun n => n.1 ≠ f), puts := s.hub.puts.filter (fun n => n.1 ≠ f), moves := s.hub.moves.filter (fun m => m.groups.all (fun g => (s.grp g).func ≠ f))
      areas := s.hub.areas.filter (fun a => a.1 ≠ f)
      frames := s.hub.frames.filter (fun x => !(bitAt x.2 7 && bitsN x.2 5 0 == f))
      netKeys := s.hub.netKeys.filter (fun k => k ≠ f), ide := s.hub.ide.filter (fun x => x.1 ≠ f) } } : State).rebuildTrees

/-- Whether every group of a world has ended. -/
def State.allEnded (s : State) (f : Nat) : Bool := s.groups.all (fun g => g.func != f || !g.alive)

/-- DEPART (R398): its steps begin; those after the groups' end follow at once where every group has ended. A world that is ABSENT has
nothing to depart. -/
def execDepart (s : State) : Host.Outcome State Fault Refusal :=
  .next (s.perform 4 (fun w =>
    let f := pcFunc w
    if s.worldState f = 0 then s.pcmdDone stDenied
    else
      let s1 := s.startDepart f
      if s1.allEnded f then s1.scrub f else s1))

/-- DEPART_COMPLETE (R398): every step has reported; the world is ABSENT, the partition READY again once none of its worlds departs, and a
DEPART command for the world completes. -/
def execDepartComplete (func : Nat) (s : State) : Host.Outcome State Fault Refusal :=
  if s.hub.departing.contains func && s.allEnded func then
    let p := s.partOf func
    let s1 := (s.scrub func).setRegN (offWorld func 0) 9 8 0
    let s2 : State := { s1 with hub := { s1.hub with departing := s1.hub.departing.filter (fun f => f ≠ func) } }
    let s3 := s2.setRegN (offPart p 0) 9 4 (s2.worldsIn p)
    let s4 := if s3.hub.departing.any (fun f => s3.partOf f == p) then s3 else s3.setRegN (offPart p 0) 1 0 1
    match s4.pcmdOf 4 with
    | some w => if pcFunc w = func then .next (s4.pcmdDone stOk) else .next s4
    | none => .next s4
  else .next s

/-- A TDISP error (R386): TDI reads ERROR, the world's accesses to the host stop, its groups are killed, and DEPART is performed. -/
def State.tdiFail (s : State) (f : Nat) : State := (s.setRegN (offWorld f 0) 17 16 3).startDepart f

/-! Translations, names, frames and routines (R379 to R381, R391, R395) -/

/-- INVTLB (R391): the translations go at once; the command completes when no access that used one has still to be performed. -/
def execInvtlb (s : State) : Host.Outcome State Fault Refusal :=
  .next (s.perform 5 (fun w =>
    let va := (pcArg0 w).toNat
    let n := (pcArg1 w).toNat
    if va % 4096 ≠ 0 then s.pcmdDone stDenied
    else
      let s1 := s.dropPages (pcFunc w) va n
      if s1.pagesBusy (pcFunc w) va n then s1 else s1.pcmdDone stOk))

/-- A world's cached name translations that satisfy p removed from every core. -/
def State.dropNames (s : State) (f : Nat) (p : W64 → Bool) : State :=
  { s with cores := s.cores.map (fun (c : Nat × Core) => (c.1, { c.2 with ncache := c.2.ncache.filter (fun l => !(l.func == f && p l.name)) })) }

/-- INVNAME (R62, R379). -/
def execInvname (s : State) : Host.Outcome State Fault Refusal :=
  .next (s.perform 6 (fun w => (s.dropNames (pcFunc w) (fun _ => true)).pcmdDone stOk))

/-- The frames that ASSIGN or RELEASE names; none where they are not aligned frames of device DRAM. -/
def frameList (w : List W64) : Option (List Nat) :=
  let pa := (pcArg0 w).toNat
  let n := (pcArg1 w).toNat
  if pa % 4096 ≠ 0 ∨ 2 ^ 38 < pa + 4096 * n then none else some ((List.range n).map (fun k => pa / 4096 + k))

/-- Whether ASSIGN may give a frame to a world (R395): not owned, not reserved, on its partition's ports, on tree ports for CONF. -/
def State.assignable (s : State) (f frame : Nat) : Bool :=
  let port := frame / 2 ^ 20
  let p := s.partOf f
  !bitAt (lookupD s.hub.frames frame 0) 7 && !s.reservedPa (4096 * frame) && bitAt (s.reg (offPart p 2)) port &&
  (!s.worldConf f || bitAt (s.reg (offPart p 3)) port)

/-- ASSIGN (R395): zeros are written under the world's key, then ownership is set; any frame that may not be given refuses the whole. -/
def execAssign (s : State) : Host.Outcome State Fault Refusal :=
  .next (s.perform 7 (fun w =>
    let f := pcFunc w
    match frameList w with
    | none => s.pcmdDone stDenied
    | some fs =>
      if fs.all (fun x => s.assignable f x) then
        let own : Byte := BitVec.ofNat 8 (0x80 + (if s.worldConf f then 0x40 else 0) + f)
        (({ s with
          mem := ⟨s.mem.cells.filter (fun c => !inFrames fs c.1)⟩
          gpoison := s.gpoison.filter (fun a => !inFrames fs a)
          hub := { s.hub with frames := fs.foldl (fun l x => setKey l x own) s.hub.frames } } : State).rebuildTrees).pcmdDone stOk
      else s.pcmdDone stDenied))

/-- RELEASE (R395, R419, R421): frames that the world owns are free; a frame of another world refuses the whole. Poison goes with them. -/
def execRelease (s : State) : Host.Outcome State Fault Refusal :=
  .next (s.perform 8 (fun w =>
    let f := pcFunc w
    match frameList w with
    | none => s.pcmdDone stDenied
    | some fs =>
      let owner := fun (x : Nat) => lookupD s.hub.frames x 0
      if fs.any (fun x => bitAt (owner x) 7 && bitsN (owner x) 5 0 != f) then s.pcmdDone stDenied
      else
        let mine := fs.filter (fun x => bitAt (owner x) 7)
        (({ s with
          gpoison := s.gpoison.filter (fun a => !inFrames mine a)
          hub := { s.hub with frames := s.hub.frames.filter (fun x => !mine.contains x.1) } } : State).rebuildTrees).pcmdDone stOk))

/-- The oldest completed launch of a world with an LNUM that holds unreleased names (R381). -/
def State.oldLaunch (s : State) (f lnum : Nat) : Option Nat :=
  let ls := (List.range s.launches.length).filter (fun l => match s.launches[l]? with
    | some x => x.func == f && x.placed && x.done && !x.released && x.lnum == lnum
    | none => false)
  let first : Nat → Nat := fun l => match s.launches[l]? with
    | some x => x.groups.headD 0
    | none => 0
  (sortBy (fun a b => decide (first a < first b)) ls).head?

/-- A dead group's name released: STATE 0, with GEN left (R56, R381). -/
def State.releaseName (s : State) (gi : Nat) : State :=
  let g := s.grp gi
  let s1 := match s.walkName g.func (nameIndex g.name) with
    | .ok e => if e.state == 5 && e.gen == nameGen g.name then s.putEntry e.pa 0 (setBits e.w0 2 0 0) else s
    | .error _ => s
  s1.modGrp gi (fun g => { g with st := .invalid })

/-- RELNAMES (R381). -/
def execRelnames (s : State) : Host.Outcome State Fault Refusal :=
  .next (s.perform 9 (fun w =>
    let f := pcFunc w
    if bitsN (pcArg0 w) 63 16 ≠ 0 ∨ pcArg1 w ≠ 0 then s.pcmdDone stDenied
    else match s.oldLaunch f (bitsN (pcArg0 w) 15 0) with
      | none => s.pcmdDone stDenied
      | some l =>
        let gs := ((s.launches[l]?).map Launch.groups).getD []
        let names := gs.map (fun g => (s.grp g).name)
        let s1 := gs.foldl State.releaseName s
        let s2 : State := { s1 with launches := modifyNth (fun (x : Launch) => { x with released := true }) l s1.launches }
        (s2.dropNames f (fun n => names.contains n)).pcmdDone stOk))

/-- The words of a routine, if they lie in world 0's frames and pass R109. -/
def State.routineWords (s : State) (addr n : Nat) : Option (List (BitVec 32)) :=
  let inside := (List.range (4 * n)).all (fun k => s.frameOk 0 (addr + k) && !s.poisoned .glob (addr + k))
  let ws := (List.range n).map (fun k => BitVec.ofNat 32 (ofBytesLE (s.devRead .glob (addr + 4 * k) 4)))
  if addr % 4 = 0 ∧ inside = true ∧ ws.all rvAdmitted = true then some ws else none

/-- ROUTINE (R109, R380): a slot of the world's table is written, or cleared. -/
def execRoutine (s : State) : Host.Outcome State Fault Refusal :=
  .next (s.perform 10 (fun w =>
    let f := pcFunc w
    let n := bitsN (pcArg0 w) 10 6
    let slot := bitsN (pcArg0 w) 5 0
    let rest := s.hub.routines.filter (fun r => !(r.1 == f && r.2.1 == slot))
    if bitsN (pcArg0 w) 63 11 ≠ 0 ∨ 16 < n then s.pcmdDone stDenied
    else if n = 0 then ({ s with hub := { s.hub with routines := rest } } : State).pcmdDone stOk
    else match s.routineWords (pcArg1 w).toNat n with
      | none => s.pcmdDone stDenied
      | some ws => ({ s with hub := { s.hub with routines := rest ++ [(f, slot, ws)] } } : State).pcmdDone stOk))

/-! Register writes (R382, R384, R385, R399, R410, R433) -/

/-- PARTITION_TABLE_WRITE (R382, R384, R386): words 1 to 6 of an EMPTY partition, words 7 to 9 of any; none of one that a lock
freezes. -/
def execPartitionTableWrite (p word : Nat) (value : W64) (s : State) : Host.Outcome State Fault Refusal :=
  let open_ := !s.frozenPart p && (decide (7 ≤ word) || s.partState p == 0)
  if p < 24 ∧ 1 ≤ word ∧ word ≤ 9 ∧ open_ = true then .next (s.setReg (offPart p word) value) else .next s

/-- A word of a world table entry written (R385, R386): while the world is ABSENT; a write to an entry that a lock freezes is a TDISP
error. World 0 is never CONF. -/
def State.writeWorld (s : State) (f word : Nat) (v : W64) : State :=
  if s.frozen f then s.tdiFail f
  else if s.worldState f ≠ 0 then s
  else match word with
    | 0 => s.setRegN (offWorld f 0) 6 0 (if f = 0 then bitsN v 6 0 / 64 * 64 + bitsN v 4 0 else bitsN v 6 0)
    | 1 | 2 => s.setReg (offWorld f word) v
    | 3 => s.setReg (offWorld f 3) (v &&& 0x01FFFFFFFFFFF000)
    | 4 => s.setReg (offWorld f 4) (v &&& 0x00000000FFFFFFFF)
    | _ => s

/-- PCMD written (R378): word 0 issues the command with words 1 and 2 as they stand, unless one is being performed; an OP that names no
command completes with DENIED at once. -/
def State.writePcmd (s : State) (word : Nat) (v : W64) : State :=
  if word ≠ 0 then s.setReg (offPcmd word) v
  else if !s.hub.pcmd.isEmpty then s
  else
    let s1 := (s.setReg (offPcmd 0) v).setRegN offPstat 63 63 1
    let w := [v, s.reg (offPcmd 1), s.reg (offPcmd 2)]
    let s2 : State := { s1 with hub := { s1.hub with pcmd := w } }
    if pcOp w < 1 ∨ 10 < pcOp w then s2.pcmdDone stDenied else s2

/-- A fault routing table word written, its res0 bits left zero (R410). -/
def State.writeFrt (s : State) (f word : Nat) (v : W64) : State :=
  match word with
  | 0 => s.setReg (offFrt f 0) (v &&& 0x00000000003FFFFF)
  | 1 => s.setReg (offFrt f 1) (v &&& 0x01FFFFFFFFFFF00F)
  | 2 => s.setReg (offFrt f 2) (v &&& 0xFFFFFFFF000007FF)
  | _ => s

/-- A save pool word written (R399). -/
def State.writeSave (s : State) (f word : Nat) (v : W64) : State :=
  if s.worldState f ≠ 0 then s
  else match word with
    | 0 => s.setReg (offSave f 0) (v &&& 0x01FFFFFFFFFF0000)
    | _ => s.setReg (offSave f 1) (v &&& 0x00000000FFFFFFFF)

/-- REGISTER_WRITE (R385, and R378, R399, R410, R433): a write to a management register that no other row names; read-only registers and
offsets that hold none take none. -/
def execRegisterWrite (off : Nat) (value : W64) (s : State) : Host.Outcome State Fault Refusal :=
  if off % 8 ≠ 0 then .next s
  else if 0x200 ≤ off ∧ off < 0x218 then .next (s.writePcmd ((off - 0x200) / 8) value)
  else if 0x4000 ≤ off ∧ off < 0x6000 then .next (s.writeWorld ((off - 0x4000) / 0x80) ((off - 0x4000) % 0x80 / 8) value)
  else if 0x6000 ≤ off ∧ off < 0x6400 then .next (s.writeSave ((off - 0x6000) / 0x10) ((off - 0x6000) % 0x10 / 8) value)
  else if 0x8000 ≤ off ∧ off < 0x9000 then .next (s.writeFrt ((off - 0x8000) / 0x40) ((off - 0x8000) % 0x40 / 8) value)
  else if off = offOwnep then .next (s.setReg off (value &&& 0xFFFF))
  else if off = offHbcfg then .next (s.setReg off (value &&& 0xFFFFFFFF))
  else if off = offExpwin then .next (s.setReg off value)
  else if off = offPwrcap then .next (s.setReg off (BitVec.ofNat 64 (min 3200 (max 1600 (bitsN value 15 0)))))
  else if off = offTherm then .next (s.setReg off (value &&& 0xFF))
  else .next s

end Sys2Proof.Machine
end

