-- ==== Sys2Proof/Machine/Sched.lean ====
section
/-! DEFINITION. Scheduling events: issue slot grants, clause starts, admission, asynchronous traps, death, eviction, grid barriers (files
01, 08 and 18). An event that is not enabled leaves the state as it is. -/

namespace Sys2Proof.Machine

/-! Readiness and order (R30, R32, R33) -/

/-- Whether the clause of a pending or active group's next run WAITs on a slot that is not clear. -/
def State.waits (s : State) (gi : Nat) : Bool :=
  match (s.choose gi).1 with
  | .runs _ (.header w) _ _ => !(s.grp gi).waitMet w
  | _ => false

/-- Whether a pending group is ready (R30). -/
def State.ready (s : State) (gi : Nat) : Bool :=
  let g := s.grp gi
  g.st == .pending && !(match g.cond with
    | .pool _ => true
    | _ => false) && !g.heldXf && !g.heldBrk && g.live != 0 && g.killing.isNone && !g.halting && g.image == 0 && !s.waits gi

/-- Ready pending groups and active groups of a quarter. -/
def State.readyIn (s : State) (pkg q : Nat) : List Nat := (s.inQuarter pkg q).filter (fun g => s.ready g)
def State.activeIn (s : State) (pkg q : Nat) : List Nat := (s.inQuarter pkg q).filter (fun g => (s.grp g).st == .active)

/-- Traps owed that a group takes at its next issue boundary (R353, R239). -/
def Group.owes (g : Group) : Bool := g.owedInteg || g.duePage.isSome || ((g.owedSoft || g.preempt) && !g.ts)

/-- Whether a group may choose a run and start a clause: active, at an issue boundary, with nothing that holds or stops it. -/
def State.atBoundary (s : State) (gi : Nat) : Bool :=
  let g := s.grp gi
  g.st == .active && g.clauses.isEmpty && !g.dying && g.killing.isNone && !g.halting && g.live != 0 && g.image == 0 && !g.heldXf && !g.heldBrk

/-- Whether it may do so now: its earliest-issue mark has come and it owes no trap (R338). -/
def State.maySelect (s : State) (gi : Nat) : Bool :=
  let g := s.grp gi
  s.atBoundary gi && !g.owes && decide (g.emark ≤ s.clk g.pkg)

/-- Whether a group can start a clause: the run it has chosen, or would choose, has its slots clear. -/
def State.canStart (s : State) (gi : Nat) : Bool :=
  let g := s.grp gi
  s.maySelect gi && (match g.sel with
    | r :: _ => (match (s.peek gi [r]).1 with
      | [.header w] => g.waitMet w
      | [.clear] => true
      | _ => false)
    | [] => (match (s.choose gi).1 with
      | .runs _ (.header w) _ _ => g.waitMet w
      | .runs _ .clear _ _ => true
      | _ => false))

/-- Whether the next word of a group inside a clause may issue now (R345). -/
def State.mayIssue (s : State) (gi : Nat) : Bool :=
  let g := s.grp gi
  g.resident && (match s.nextClause gi with
    | some k => (g.clauses[k]?).any (fun c => decide (s.issueClock gi c = s.clk g.pkg))
    | none => false)

/-- The group of a quarter to which R32 gives a clause start: none in a clock whose issue slot is taken, or in which the next word of a
group inside a clause may issue (R345). -/
def State.starter (s : State) (pkg q : Nat) : Option Nat :=
  if (s.inQuarter pkg q).any s.mayIssue || decide (s.clk pkg < (s.quarter pkg q).free) then none
  else (s.inTurn (s.quarter pkg q).rrIssue ((s.inQuarter pkg q).filter (fun g => s.canStart g))).head?

/-! Run selection (R21, R25) -/

/-- A trap at a run's header: position 0, and the run resumes where it stood. -/
def State.headerTrap (s : State) (gi : Nat) (r : Run) (cause : Cause) (code : Nat) : State :=
  match s.takeTrap gi cause code r.addr ⟨r.lanes, 0, r.addr, r.pos⟩ with
  | .done s1 => if cause = .integrity then s1.integRecord gi 1 r.addr.toNat else s1
  | .hold s1 => s1

/-- A group's choice made: its runs selected and its progress counter moved, or the trap of R25, or a fetch awaited. -/
def State.select (s : State) (gi : Nat) : State :=
  match s.choose gi with
  | (.hold, s1) => s1
  | (.deadlock, s1) => match (s1.grp gi).runs with
    | r :: _ => s1.headerTrap gi r .illegal 0
    | [] => s1
  | (.runs r p second n, s1) => s1.modGrp gi (fun g =>
      let met := match p with
        | .header w => g.waitMet w
        | _ => true
      { g with sel := r :: second.toList, progress := n, waiting := !met
               waitClk := if !met && !g.waiting then s1.clk g.pkg else g.waitClk })

/-- Groups in turn choose their runs until one can start. -/
def State.selectInTurn (s : State) : List Nat → State
  | [] => s
  | g :: gs =>
    let s1 := if (s.grp g).sel.isEmpty then s.select g else s
    if s1.canStart g then s1 else s1.selectInTurn gs

/-- ISSUE_SLOT_GRANT (R32, R345): a group inside a clause whose next word may issue has the slot first; else the groups that may start one
choose their runs in turn. -/
def execIssueSlotGrant (core qtr : Nat) (s : State) : Host.Outcome State Fault Refusal :=
  let rr := (s.quarter core qtr).rrIssue
  match s.inTurn rr ((s.inQuarter core qtr).filter (fun g => s.mayIssue g)) with
  | g :: _ => .next { s with cur := (s.nextClause g).map (fun k => (g, k)) }
  | [] => .next (s.selectInTurn (s.inTurn rr ((s.inQuarter core qtr).filter (fun g => s.maySelect g))))

/-! Clause start (R206) -/

/-- A clause of a run as it starts: at its first word, or at the position at which the run resumes (R20, R226). -/
def newClause (r : Run) (w : W64) (mark beside : Nat) : Clause :=
  { hdr := r.addr, word := w, lanes := r.lanes, pos := if r.pos = 0 then 1 else r.pos, sampled := false, g0 := 0, g1 := 0
    short0 := false, short1 := false, mark := mark, beside := beside, taken := 0, target := 0, owes := none }

/-- The clauses of a group's selected runs started: header fetched and checked, then WAIT (R206 steps 1 and 2). A second run whose header, as it
is fetched now, does not admit it beside the head run is left (R24, R343). -/
def State.start (s : State) (gi : Nat) : State :=
  match (s.grp gi).sel with
  | [] => s
  | r :: rest =>
    match s.fetch gi r.addr.toNat with
    | .hold s1 => s1
    | .trap cause s1 => s1.headerTrap gi r cause (if cause = .page then accFetch else 0)
    | .word w s1 =>
      let g := s1.grp gi
      let count := bitsN w 59 56 + 1
      if headerBad w || decide (count < r.pos) then s1.headerTrap gi r .illegal 0
      else if bitAt w 48 && r.lanes != g.live then s1.modGrp gi (fun g => { g with sel := [] })
      else if !g.waitMet w then s1
      else
        let (extra, s2) := match rest with
          | r2 :: _ => match s1.fetch gi r2.addr.toNat with
            | .word w2 s2 =>
              let pairs := !headerBad w2 && !bitAt w2 48 && (bitsN w 63 60 == 0 || bitsN w2 63 60 == 0) && g.waitMet w2
              if !pairs || decide (bitsN w2 59 56 + 1 < r2.pos) then ([], s2)
              else ([newClause r2 w2 g.emark (2 * (g.selNo + 1) + 1)], s2)
            | .hold s2 => ([], s2)
            | .trap _ s2 => ([], s2)
          | [] => ([], s1)
        let s3 := s2.modGrp gi (fun g =>
          { g with clauses := newClause r w g.emark (2 * (g.selNo + 1)) :: extra, sel := [], selNo := g.selNo + 1, waiting := false })
        let g := s3.grp gi
        { s3.modQuarter g.pkg g.qtr (fun x => { x with rrIssue := g.slot }) with cur := some (gi, 0) }

/-- A group that may start a clause: its run selected, then started. -/
def State.beginClause (s : State) (gi : Nat) : State := (if (s.grp gi).sel.isEmpty then s.select gi else s).start gi

/-- CLAUSE_START (R206): of the group to which R32 gives the slot. -/
def execClauseStart (g : Nat) (s : State) : Host.Outcome State Fault Refusal :=
  let x := s.grp g
  if s.starter x.pkg x.qtr = some g then .next (s.beginClause g) else .next s

/-! Clocks (log entry 1) -/

/-- The clock up to which a core's clock may run: that of the first word due there, which issues at that clock (R345); none where no clause is
started there. -/
def State.dueClock (s : State) (pkg : Nat) : Option Nat := (soonest (s.due pkg)).map (fun x => x.2.2)

/-- The first clock at which a group can start a clause: at its mark, once its quarter's issue slot is free; none where something other than a clock
is wanting (R338). -/
def State.startClock (s : State) (gi : Nat) : Option Nat :=
  let g := s.grp gi
  if !s.atBoundary gi || g.owes then none
  else
    let t := max (max (s.clk g.pkg) g.emark) (s.quarter g.pkg g.qtr).free
    match g.sel with
    | r :: _ => (match (s.peek gi [r]).1 with
      | [.header w] => if g.waitMet w then some t else none
      | _ => none)
    | [] => (match (s.choose gi).1 with
      | .runs _ (.header w) _ _ => if g.waitMet w then some t else none
      | _ => none)

/-- The group of a core that can start a clause first, as R32 decides among those of one quarter, with its quarter and that clock. -/
def State.firstStart (s : State) (pkg : Nat) : Option (Nat × Nat × Nat) :=
  soonest ((List.range 4).flatMap (fun q =>
    (s.inTurn (s.quarter pkg q).rrIssue (s.inQuarter pkg q)).filterMap (fun gi => (s.startClock gi).map (fun t => (gi, q, t)))))

/-- The clock up to which a core's clock may run of itself: that of the first word due there, or of the first clause that can start there. -/
def State.stopClock (s : State) (pkg : Nat) : Option Nat :=
  match s.dueClock pkg, s.firstStart pkg with
  | some t, some x => some (min t x.2.2)
  | some t, none => some t
  | none, some x => some x.2.2
  | none, none => none

/-- The head of the agenda taken: its clocks pass on its core (log entry 1), as far as the next word due there, or the next clause that can start
(R338, R345). -/
def State.takeAgenda (s : State) (e : Sched) (rest : List Sched) : State :=
  let stop := s.clk e.core + e.clocks
  ({ s with agenda := rest } : State).advance e.core ((s.stopClock e.core).elim stop (min stop))

/-- The clause that can start on a core before every word due there, started at its clock: it does not wait for those words (R338, R345). None
where there is none, or where a header fetched anew keeps it from starting. -/
def State.startDue (s : State) (pkg : Nat) (before : Nat) : Option State :=
  match s.firstStart pkg with
  | some (gi, _, t) =>
    if t < before ∧ (s.dueClock pkg).all (fun d => decide (t < d)) = true then
      let s1 := (s.advance pkg t).beginClause gi
      if (s1.grp gi).clauses.isEmpty && s1.maySelect gi && (s1.grp gi).ts == (s.grp gi).ts then none else some s1
    else none
  | none => none

/-- The first word that is due on some core at the clock at which that core stands. -/
def State.dueNow (s : State) : Option (Nat × Nat) :=
  s.cores.findSome? (fun x => match soonest (s.due x.1) with
    | some y => if y.2.2 ≤ x.2.clk then some (y.1, y.2.1) else none
    | none => none)

/-- The clause that can start on some core at the clock at which that core stands, started. -/
def State.startNow (s : State) : Option State := (dedupN (s.groups.map Group.pkg)).findSome? (fun p => s.startDue p (s.clk p + 1))

/-- Where the cursor names no clause: it goes to a word that is due now; where none is, a clause that can start now does; and where none can, a
clock passes on every core. -/
def State.idle (s : State) : State :=
  match s.dueNow with
  | some x => { s with cur := some x }
  | none => match s.startNow with
    | some s1 => s1
    | none => { s with cores := s.cores.map (fun (x : Nat × Core) => (x.1, { x.2 with clk := x.2.clk + 1 })) }

/-- HEADER_FETCH_FAULT_SERVICED (R21, R204): the group that waited for a header chooses its run, or fetches that of the run it has
chosen. -/
def execHeaderFetchFaultServiced (g : Nat) (s : State) : Host.Outcome State Fault Refusal :=
  if s.maySelect g then match (s.grp g).sel with
    | [] => .next (s.select g)
    | r :: _ => match s.fetch g r.addr.toNat with
      | .hold s1 => .next s1
      | _ => .next s
  else .next s

/-! Admission and displacement (R31, R33) -/

/-- A group leaves the active set: its selection is made anew later. -/
def Group.demote (g : Group) : Group := { g with st := .pending, sel := [], waiting := false }

/-- A group enters the active set. -/
def State.admit_ (s : State) (gi : Nat) : State :=
  let g := s.grp gi
  (s.modGrp gi (fun g => { g with st := .active })).modQuarter g.pkg g.qtr (fun x => { x with rrAdmit := g.slot })

/-- The active group that leaves: of lowest effective priority, then of highest slot. -/
def State.lowest (s : State) (l : List Nat) : Option Nat :=
  (sortBy (fun a b => decide ((s.grp a).prio < (s.grp b).prio) || ((s.grp a).prio == (s.grp b).prio &&
    decide ((s.grp b).slot < (s.grp a).slot))) l).head?

/-- ADMISSION (R33): into a free place, or in place of an active group of lower effective priority at its issue boundary (R345). -/
def execAdmission (core qtr : Nat) (s : State) : Host.Outcome State Fault Refusal :=
  let act := s.activeIn core qtr
  match (s.inTurn (s.quarter core qtr).rrAdmit (s.readyIn core qtr)).head? with
  | none => .next s
  | some g =>
    if act.length < Config.activeMax then .next (s.admit_ g)
    else match s.lowest act with
      | none => .next s
      | some v =>
        if (s.grp v).prio < (s.grp g).prio ∧ (s.grp v).clauses.isEmpty = true then .next ((s.modGrp v Group.demote).admit_ g)
        else .next s

/-- Whether the selected clause of a group is held by its WAIT: a slot that its header names is not clear (R21, R31). -/
def State.waitHeld (s : State) (gi : Nat) : Bool :=
  match (s.grp gi).sel with
  | r :: _ => (match (s.peek gi [r]).1 with
    | [.header w] => !(s.grp gi).waitMet w
    | _ => false)
  | [] => false

/-- WAIT_DEMOTION (R31): 64 clocks held by WAIT, in each of which a ready pending group existed. -/
def execWaitDemotion (g : Nat) (s : State) : Host.Outcome State Fault Refusal :=
  let x := s.grp g
  if x.st = .active ∧ x.waiting = true ∧ x.clauses.isEmpty = true ∧ x.waitClk + 64 ≤ s.clk x.pkg ∧ (s.readyIn x.pkg x.qtr).isEmpty = false ∧
      s.waitHeld g = true then
    .next (s.modGrp g Group.demote)
  else .next s

/-- The counts of R31 after clocks have passed between two states: a wait's count starts again where no ready pending group existed. -/
def State.recount (before after : State) : State :=
  let late := before.grpsWhere (fun g => g.waiting && g.st == .active)
  late.foldl (fun s gi =>
    let g := before.grp gi
    if before.clk g.pkg < s.clk g.pkg && (before.readyIn g.pkg g.qtr).isEmpty then
      s.modGrp gi (fun x => { x with waitClk := s.clk g.pkg })
    else s) after

/-! Asynchronous traps (R239, R353, R400, R420) -/

/-- A trap owed by a group taken at the boundary of a run: the owed mark cleared, and the trap entered, or held by its frame's translation. -/
def State.takeOwed (s : State) (gi : Nat) (r : Run) (cause : Cause) (code : Nat) (faddr : W64) (clear : Group → Group) : State :=
  match (s.modGrp gi clear).takeTrap gi cause code faddr ⟨r.lanes, 0, r.addr, r.pos⟩ with
  | .done s1 => s1
  | .hold s1 => { s with walks := s1.walks, cores := s1.cores, hub := s1.hub }

/-- The head run of a group's PC table (R20). -/
def Group.headRun (g : Group) : Run := (g.runs.head?).getD ⟨0, 0, 0⟩

/-- ASYNC_TRAP_TAKEN: the first trap owed, in the order INTEGRITY, PAGE or SPACE (by its code, log entry 62), SOFT, PREEMPT: the first two at the run
about to issue (R115), the others at the head run (R239). -/
def execAsyncTrapTaken (g : Nat) (s : State) : Host.Outcome State Fault Refusal :=
  let x := s.grp g
  if !s.atBoundary g then .next s
  else match s.aboutTo g with
    | none => .next s
    | some r =>
      if x.owedInteg then .next (s.takeOwed g r .integrity 0 r.addr (fun g => { g with owedInteg := false }))
      else match x.duePage with
      | some p =>
        if p.2.2 = 4 then .next (s.takeOwed g r .space 0 (BitVec.ofNat 64 p.2.1) Group.clearPages)
        else .next (s.takeOwed g r .page p.2.2 (BitVec.ofNat 64 p.2.1) Group.clearPages)
      | none =>
      if x.ts then .next s
      else if x.owedSoft then .next (s.takeOwed g x.headRun .soft 0 x.sfaddr (fun g => { g with owedSoft := false, sfaddr := 0 }))
      else if x.preempt then .next (s.takeOwed g x.headRun .preempt 0 0 (fun g => { g with preempt := false }))
      else .next s

/-- GROUP_DEATH (R54, R76, R408): the exit commit brings the sectors named, all that remain where none is; death follows the last. -/
def execGroupDeath (x : ExitStep) (s : State) : Host.Outcome State Fault Refusal := .next (s.runDeath x.group x.sel)

/-! Eviction (R46) -/

/-- EVICTION: where some group waits on the pool and every other is suspended or waits on it too, the victim is saved. -/
def execEviction (core qtr : Nat) (s : State) : Host.Outcome State Fault Refusal :=
  let all := s.inQuarter core qtr
  let pools := all.filter (fun g => match (s.grp g).cond with
    | .pool _ => (s.grp g).st == .pending
    | _ => false)
  if pools.isEmpty || !all.all (fun g => pools.contains g || (s.grp g).st == .suspended) then .next s
  else
    let before := fun (a b : Nat) =>
      let x := s.grp a
      let y := s.grp b
      decide (x.prio < y.prio) || (x.prio == y.prio && (decide (y.blk < x.blk) || (x.blk == y.blk && decide (y.slot < x.slot))))
    match (sortBy before all).head? with
    | none => .next s
    | some v => match s.saveGroup v true false with
      | .done s1 => .next s1
      | .noRoom s1 => .next s1
      | .wait s1 => .next s1

/-! Grid barriers (R49) -/

/-- GRID_BARRIER_MESSAGE: a team's arrival reaches the command processor's port, which counts it and releases when all have come; inherited
priorities end there (R51). -/
def execGridBarrierMessage (m : Nat) (s : State) : Host.Outcome State Fault Refusal :=
  match s.hub.barMsgs[m]? with
  | none => .next s
  | some x =>
    let s1 : State := { s with hub := { s.hub with barMsgs := dropNth m s.hub.barMsgs, barPort := s.hub.barPort ++ [x] } }
    .next (s1.tryGrid x.1 x.2.1).inherit

/-- GRID_BARRIER_RELEASE_MSG: a release reaches a team; every waiter is released, wherever it is (R53). -/
def execGridBarrierReleaseMsg (m : Nat) (s : State) : Host.Outcome State Fault Refusal :=
  match s.hub.barRel[m]? with
  | none => .next s
  | some x =>
    let s1 : State := { s with hub := { s.hub with barRel := dropNth m s.hub.barRel } }
    let ws := s1.grpsWhere (fun g => g.alive && g.launch == x.1 && g.tidx == x.2.2 && g.cond == .gridBarrier x.2.1)
    .next ((ws.foldl State.releaseWaiter s1).inherit)

end Sys2Proof.Machine
end

