-- ==== Sys2Proof/Machine/System.lean ====
section
/-! DEFINITION. The system instructions RDSR, WRSR and BRK (file 12 R325 to R328), and words with an unassigned opcode (R224). -/

namespace Sys2Proof.Machine

/-- What RDSR returns for an index at a clock (R326): 0, or GSTAT with BLK 0, where a soft error took the word (R420, log entry 21). -/
def Group.status (g : Group) (idx clk : Nat) : W64 :=
  if g.lost.contains idx then 0
  else match idx with
  | 0x0 => ({ g with blk := if g.blkLost then 0 else g.blk } : Group).gstat
  | 0x1 => g.flags
  | 0x2 => g.tbase
  | 0x3 => g.tframe
  | 0x4 => g.tcause
  | 0x5 => g.name
  | 0x6 => BitVec.ofNat 64 clk
  | 0x7 => g.prioWord
  | 0x8 => g.cgen.setWidth 64
  | 0x9 => g.team
  | 0xA => g.teams
  | 0xB => g.clus
  | 0xC => g.grid
  | 0xD => g.live
  | _ => g.pwin

/-- RDSR (R325, R326). -/
def execRdsr (o : IOps) (s : State) : Host.Outcome State Fault Refusal :=
  issueWord (.rdsr o) (fun c s => .done (c.putS s o.d (((s.grp c.gi).asAt c.t).status o.imm.toNat c.t))) s

/-- WRSR (R327): it governs every word from the clock after its issue (R325, R339). -/
def execWrsr (o : IOps) (s : State) : Host.Outcome State Fault Refusal :=
  issueWord (.wrsr o) (fun c s =>
    let a := c.uni s o.a
    let x := a.1
    let s1 := a.2.modGrp c.gi (fun g => g.keepWas c.t)
    match o.imm.toNat with
    | 0 => .done (s1.modGrp c.gi (fun g => { g with chk := bitAt x 1 }))
    | 1 => .done (s1.modGrp c.gi (fun g => { g with flags := BitVec.ofNat 64 (bitsN x 5 0) }))
    | 2 => .done (s1.modGrp c.gi (fun g => { g with tbase := BitVec.ofNat 64 (8 * bitsN x 56 3) }))
    | 7 =>
      if (s1.grp c.gi).prioBase < bitsN x 2 0 then c.trap a.2 .illegal
      else .done (s1.modGrp c.gi (fun g => { g with prioBase := bitsN x 2 0 })).inherit
    | _ => c.trap a.2 .illegal) s

/-- A BREAK event that the routing table claims (R411, R412, R417): the group is pending and held until the owner's response. A world
without a ring takes the default action, KILL (R415). -/
def State.raiseBreak (s : State) (gi code pos : Nat) (header : W64) : State :=
  let g := s.grp gi
  if s.ringVa g.func = 0 then s.killGroup gi exitKilled
  else
    let s1 := s.modGrp gi (fun g => { g with st := .pending, heldBrk := true, waiting := false })
    s1.queueEvent (s1.claim g.func evBreak [BitVec.ofNat 64 (code + 65536 * pos), header, 0, 0] g.name (some gi) none none)

/-- BRK (R328): as TRAP, with cause BREAK; where class 4 has an owner, the group is halted with the same recorded position instead. With
TS set it is a double trap. -/
def execBrk (o : IOps) (s : State) : Host.Outcome State Fault Refusal :=
  issueWord (.brk o) (fun c s =>
    let g := s.grp c.gi
    if !g.ts && (s.evHost g.func evBreak || s.evClerk g.func evBreak) then
      .done ((s.modGrp c.gi (fun g => g.record ⟨c.cl.lanes, c.cl.pos, c.cl.next, 0⟩)).raiseBreak c.gi o.imm.toNat c.cl.pos c.cl.hdr)
    else .trap s .break_ o.imm.toNat c.cl.wordAddr) s

/-- A word with an unassigned opcode (R224): ILLEGAL. -/
def execReservedOpcode (w : W64) (s : State) : Host.Outcome State Fault Refusal :=
  issueWord (.reservedOpcode w) (fun c s => c.trap s .illegal) s

end Sys2Proof.Machine
end

