-- ==== Sys2Proof/Machine/FaultsEv.lean ====
section
/-! DEFINITION. Tenant slices and pre-emption (files 21 and 22), answers to events, errors, and the host's accesses to device memory. An
event that is not enabled leaves the state as it is. -/

namespace Sys2Proof.Machine

/-! Tenant slices (R387, R400, R401) -/

/-- GRACE of a partition in a core's clocks (R382). -/
def State.grace (s : State) (p : Nat) : Nat := s.regN (offPart p 7) 31 0

/-- PREEMPT posted to a resident group of the outgoing world (R400): where it is active or ready pending and has a handler, and there is
grace; every other group is for FORCED_HALT at once. -/
def State.postPreempt (s : State) (gi : Nat) : State :=
  let g := s.grp gi
  let n := s.grace (s.partOf g.func)
  if (g.st == .active || s.ready gi) && g.tbase != 0 && n != 0 then
    s.modGrp gi (fun g => { g with preempt := true, graceAt := some (s.clk g.pkg + n) })
  else s

/-- The world whose slice comes after the current one's in a partition. -/
def State.nextSlice (s : State) (p : Nat) : Option Nat :=
  let cur := s.sliceOf p
  let rs := s.running p
  (rs.filter (fun f => decide (cur < f)) ++ rs).head?

/-- TENANT_SLICE_END (R387, R399, R400): the slice passes to the next running world, once the switch before it has left no group of another
world resident and no engine context without its room; engines of the outgoing world pause (State.engineRuns), their context goes to the
save pool, and the incoming world's comes back. -/
def execTenantSliceEnd (p : Nat) (s0 : State) : Host.Outcome State Fault Refusal :=
  let cur := s0.sliceOf p
  let waiting := (s0.running p).filter (fun f => f != cur && s0.enginesWait f)
  let s := waiting.foldl State.saveEngines s0
  let late := s.groups.any (fun g => g.resident && s.partOf g.func == p && g.func != cur) || waiting.any (fun f => s.enginesWait f)
  if (s.running p).length < 2 ∨ late = true ∨ s.hubClk < lookupD s.hub.sliceAt p 0 + lookupD s.hub.sliceLen p 1024 then .next s
  else match s.nextSlice p with
    | none => .next s
    | some f =>
      let s1 := ((s.setSlice p f).dropContext f).saveEngines cur
      .next ((s1.grpsWhere (fun g => g.resident && g.func == cur)).foldl State.postPreempt s1)

/-- GRACE_EXPIRY (R401): a group still resident when its count reaches GRACE is halted by force. -/
def execGraceExpiry (g : Nat) (s : State) : Host.Outcome State Fault Refusal :=
  let x := s.grp g
  match x.graceAt with
  | some t => if x.between && !s.sliceCurrent x.func && decide (t ≤ s.clk x.pkg) then .next (s.halt g true) else .next s
  | none => .next s

/-! Answers to events (R412, R414 to R417) -/

/-- An event of the hub's list changed. -/
def State.setEvent (s : State) (k : Nat) (e : Event) : State := { s with hub := { s.hub with events := setNth s.hub.events k e } }

/-- What an answer does: RETRY or RESUME (1), FAIL or KILL (2). -/
def State.answerEvent (s : State) (e : Event) (act : Nat) : State :=
  if e.cls = evXfault then (if act = 1 then s.xfaultRetry e else s.xfaultFail e)
  else if e.cls = evBreak then
    match e.owner with
    | some gi => if act = 1 then s.modGrp gi (fun g => { g with heldBrk := false }) else s.kill gi exitKilled
    | none => s
  else s

/-- The answers of events whose records are written now acted on (R415). -/
def State.actAnswers (s : State) : State :=
  let due := s.hub.events.filter (fun e => e.written && e.act != 0)
  due.foldl (fun s e => s.answerEvent e e.act) { s with hub := { s.hub with events := s.hub.events.filter (fun e => !(e.written && e.act != 0)) } }

/-- An event that the clerks have had: its record is written as room allows, and what is to be done follows it (R412, R415). -/
def State.settleEvent (s : State) (k : Nat) (e : Event) (disp act : Nat) : State :=
  (s.setEvent k { e with clerk := false, disp := disp, act := if takesResponse e.cls then act else 0 }).flushEvents.actAnswers

/-- The clerks leave an event: to the host where it owned the class too as the event was claimed, else to the default action (R410, R412). -/
def State.clerkLeaves (s : State) (k : Nat) (e : Event) : State := if e.host then s.settleEvent k e 3 0 else s.settleEvent k e 4 2

/-- CLERK_GRACE_EXPIRY (R412): no answer within CGRACE hub clocks, as CGRACE stood when the event was claimed. -/
def execClerkGraceExpiry (e : Nat) (s : State) : Host.Outcome State Fault Refusal :=
  match s.hub.events[e]? with
  | some x =>
    if x.clerk && decide (x.at_ + x.grace ≤ s.hubClk) then .next (s.clerkLeaves e x) else .next s
  | none => .next s

/-- CLERK_RESPONSE (R412, R414): the clerks handle an event, with RETRY or RESUME (1) or FAIL or KILL (2) where its class takes a response, or
leave it unhandled. -/
def execClerkResponse (e : Nat) (handled : Bool) (act : Nat) (s : State) : Host.Outcome State Fault Refusal :=
  match s.hub.events[e]? with
  | some x =>
    if !x.clerk then .next s
    else if !handled then .next (s.clerkLeaves e x)
    else if takesResponse x.cls && !(act == 1 || act == 2) then .next s
    else .next (s.settleEvent e x 2 act)
  | none => .next s

/-- The response that stands in RESP of a ring taken (R414): where its SEQ names a record of that ring that awaits one it is acted on, and RACK then
shows it; one whose translation is still to come is asked for. None: nothing there names such a record. -/
def State.takeResponse (s : State) (func ring : Nat) : Option State :=
  match s.hubGet func (ring + 0x88) 8 with
  | .error .hold => some (s.hubTr 0 func (ring + 0x88) accRead).2
  | .error _ => none
  | .ok (b, s1) =>
    let r := ofBytesLE b
    let act := natBits r 7 0
    match s1.hub.events.find? (fun e => e.func == func && e.written && e.awaits && e.ring == ring && e.seq % 2 ^ 32 == natBits r 63 32) with
    | none => none
    | some e =>
      if natBits r 31 8 ≠ 0 ∨ (act ≠ 1 ∧ act ≠ 2) then none
      else
        let s2 : State := { s1 with hub := { s1.hub with events := s1.hub.events.erase e } }
        some ((s2.answerEvent e act).hubPost func (ring + 0x10) (bytesLE 8 e.seq))

/-- RESPONSE_TAKEN (R410, R414): a write of RESP is taken in the ring that the record was written to, whatever RING says now. -/
def execResponseTaken (func : Nat) (s : State) : Host.Outcome State Fault Refusal :=
  let rings := dedupN ((s.hub.events.filter (fun e => e.func == func && e.written && e.awaits)).map Event.ring)
  .next ((rings.findSome? (s.takeResponse func)).getD s)

/-- The ring whose CONS the owner of a world's records writes: the one for which the oldest unwritten record was claimed, else the one that RING
names (R410, R415). -/
def State.consRing (s : State) (func : Nat) : Nat :=
  match s.hub.events.find? (fun e => e.func == func && !e.written && e.ring != 0) with
  | some e => e.ring
  | none => s.ringVa func

/-- EVENT_RING_CONSUMED (R413, R415): the owner writes CONS, and held records are written as far as there is room. -/
def execEventRingConsumed (func : Nat) (cons : W64) (s : State) : Host.Outcome State Fault Refusal :=
  let ring := s.consRing func
  if ring = 0 then .next s
  else match s.hubPut func (ring + 0x80) (bytesLE 8 cons.toNat) true with
    | .done s1 => .next s1.flushEvents.actAnswers
    | .hold s1 => .next s1
    | .fail s1 => .next s1

/-! Packets (R394, R418) -/

/-- The world of a flow (R394). -/
def flowFunc (flow : Nat) : Nat := natBits flow 11 6

/-- The LINK event of a flow (R411, R418). -/
def State.linkEvent (s : State) (flow n : Nat) : State :=
  s.raiseLog (flowFunc flow) evLink [BitVec.ofNat 64 (flow % 2 ^ 32), BitVec.ofNat 64 n, 0, 0] 0 none

/-- What the loss of a packet at its fifth failure does to the request that waited on it (R418). An engine entry's failing address is that of the
destination sector that it writes next, whichever packet was lost (the model's choice, log entry 68). -/
def State.packetLost (s : State) (kind : PacketKind) : State :=
  match kind with
  | .loadReply .. | .retried => s
  | .loadRequest g op => match (s.grp g).op op with
    | some o => match o.kind with
      | .load kind .. => (s.failOp g op).integRecord g 0 ((o.accs.map (fun a => (s.grp g).accVa kind a (a.place.headD 0))).headD 0)
      | _ => s
    | none => s
  | .engine core queue => match s.engineHead core queue with
    | some e => if e.started && e.status == 0 then s.setHead core queue (e.failed stIntegrity ((e.todo.map Todo.sector).headD 0)) else s
    | none => s

/-- A failed check of the k-th line in a group's debt (R113, R115). -/
def State.debtFails (s : State) (g k : Nat) : State :=
  if k < (s.grp g).debt.length then
    (s.modGrp g (fun x => { x.lessDebt k with owedInteg := true })).integRecord g 0 (((s.grp g).debt.map Debt.line).getD k 0)
  else s

/-- The failures so far of a packet of a flow. -/
def State.failures (s : State) (flow pkt : Nat) : Nat :=
  ((s.fabric.resent.find? (fun r => r.1 == flow && r.2.1 == pkt)).map (fun r => r.2.2)).getD 0

/-- A packet's failures set; 0 leaves none. -/
def State.setFailures (s : State) (flow pkt n : Nat) : State :=
  let rest := s.fabric.resent.filter (fun r => !(r.1 == flow && r.2.1 == pkt))
  { s with fabric := { s.fabric with resent := if n = 0 then rest else rest ++ [(flow, pkt, n)] } }

/-- PACKET_TAG_FAILURE (R394, R418): a load's reply is an integrity failure at once; another packet is resent from the sender's copy, and
dropped at its own fifth failure. A LINK event is raised at every fifth failure of the flow, and at a packet's own fifth. -/
def execPacketTagFailure (p : FlowPacket) (kind : PacketKind) (s : State) : Host.Outcome State Fault Refusal :=
  let flow := p.flow
  let pkt := p.num
  let f := flowFunc flow
  if f ≠ 0 ∧ s.hub.netKeys.contains f = false then .next s
  else
    let n := lookupD s.fabric.tagFails flow 0 + 1
    let s1 : State := { s with fabric := { s.fabric with tagFails := setKey s.fabric.tagFails flow n } }
    let m := s1.failures flow pkt + 1
    let dropped := match kind with
      | .loadReply .. => false
      | _ => decide (5 ≤ m)
    let s2 := match kind with
      | .loadReply g k => s1.debtFails g k
      | _ => if m < 5 then s1.setFailures flow pkt m else (s1.setFailures flow pkt 0).packetLost kind
    .next (if n % 5 = 0 ∨ dropped = true then s2.linkEvent flow n else s2)

/-! Soft errors and tree nodes (R420, R421) -/

/-- A SOFT event: the number of the structure's row in R420, and a location (log entry 21). -/
def State.softEvent (s : State) (func structure_ location : Nat) (name : W64) : State :=
  s.raiseLog func evSoft [BitVec.ofNat 64 structure_, BitVec.ofNat 64 location, 0, 0] name none

/-- A group owes a SOFT trap: the fault address of the first that it owes stands. -/
def Group.oweSoft (g : Group) (faddr : Nat) : Group :=
  if g.owedSoft then g else { g with owedSoft := true, sfaddr := BitVec.ofNat 64 faddr }

/-- An uncorrectable error in a word of a group's state (row 0). -/
def State.softWord (s : State) (gi faddr : Nat) (f : Group → Group) : State :=
  let g := s.grp gi
  if g.resident then (s.modGrp gi (fun g => (f g).oweSoft faddr)).softEvent g.func 0 faddr g.name else s

/-- A vector register with a lane reading 0: it turns G. -/
def VReg.lose (r : VReg) (i : Nat) : VReg := ⟨.g, setNth r.lanes i 0⟩

/-- A status register that reads 0 (R326): by its RDSR index. Of GSTAT the mode bits and the window fall, and BLK reads 0
while the blocks that the group holds stay its own. NAME, TEAM, TEAMS, CLUS, GRID and LIVE read 0 for software, while the device's own record of
the group's name, place, allotment, launch and live lanes stands (R40, R47, R54; log entry 21). -/
def Group.loseStatus (g : Group) : Nat → Group
  | 0 => { g with wbase := 0, ts := false, chk := false, mm := false, blkLost := true }
  | 1 => { g with flags := 0 }
  | 2 => { g with tbase := 0 }
  | 3 => { g with tframe := 0 }
  | 4 => { g with tcause := 0 }
  | 7 => { g with prioBase := 0, prioInh := 0 }
  | 8 => { g with cgen := 0 }
  | 14 => { g with pwin := 0 }
  | k => if [5, 9, 10, 11, 12, 13].contains k && !g.lost.contains k then { g with lost := g.lost ++ [k] } else g

/-- A line poisoned (R89, R419). -/
def State.setPoison (s : State) (space : Space) (p : Nat) : State :=
  if s.poisoned space p then s
  else match space with
    | .tile => { s with poison := s.poison ++ [alignDown p 64] }
    | .glob => { s with gpoison := s.gpoison ++ [alignDown p 128] }

/-- The world that owns a frame, if one does (R395). -/
def State.frameOwner (s : State) (pa : Nat) : Option Nat :=
  if bitAt (s.frame pa) 7 then some (bitsN (s.frame pa) 5 0) else none

/-- The SOFT event of a line of global space. -/
def State.softLine (s : State) (row pa : Nat) : State :=
  match s.frameOwner pa with
  | some f => s.softEvent f row pa 0
  | none => s

/-- The k-th translation of a die's second-level TLB: its place in the list of all. -/
def State.l2Entry (s : State) (die k : Nat) : Option Nat := (positions (fun (e : Nat × Tlb) => e.1 == die) 0 s.hub.l2tlb)[k]?

/-- A translation dropped for a parity error: from a core's TLB, or, for core 256 + die, from the die's second-level TLB. -/
def State.softTlb (s : State) (core k : Nat) : State :=
  if core < 256 then match (s.core core).tlb[k]? with
    | some t => (s.modCore core (fun c => { c with tlb := dropNth k c.tlb })).softEvent t.func 6 t.va 0
    | none => s
  else match s.l2Entry (core - 256) k with
    | some i => match s.hub.l2tlb[i]? with
      | some e => ({ s with hub := { s.hub with l2tlb := dropNth i s.hub.l2tlb } } : State).softEvent e.2.func 6 e.2.va 0
      | none => s
    | none => s

/-- SOFT_ERROR (R420): an uncorrectable error, or a corrected one, which is counted and raises no event. -/
def execSoftError (t : SoftTarget) (s : State) : Host.Outcome State Fault Refusal :=
  match t with
  | .register g code lane =>
    let x := s.grp g
    let n := code.toNat
    if n < x.v.length then
      .next (s.softWord g (n + 256 * (lane % 64)) (fun y => y.setV n ((y.vreg n).lose (lane % 64))))
    else if 0xC0 ≤ n ∧ n ≤ 0xEF then .next (s.softWord g n (fun y => y.setS code 0))
    else .next s
  | .counter g k =>
    let d := s.drawWords 1
    .next (d.2.softWord g (d.1 0).toNat (fun y => { y with ctr := setNth y.ctr k 0 }))
  | .box g k =>
    let d := s.drawWords 1
    .next (d.2.softWord g (d.1 0).toNat (fun y => { y with box := setNth y.box k 0 }))
  | .statusReg g k =>
    let d := s.drawWords 1
    .next (d.2.softWord g (d.1 0).toNat (fun y => y.loseStatus k))
  | .pcTable g =>
    let x := s.grp g
    if !x.resident then .next s
    else
      let header := match x.runs with
        | r :: _ => r.addr
        | [] => 0
      .next (((s.softEvent x.func 0 0 x.name).raiseLog x.func evGfault [BitVec.ofNat 64 (65536 * 4), header, 0, 0] x.name none).kill g exitFault)
  | .escrowEntry k => match s.escrow[k]? with
    | none => .next s
    | some e =>
      let x := s.grp e.owner
      if e.level = .priv then .next s
      else .next (((s.dropEsc e).modGrp e.owner (fun g => g.oweSoft e.va)).softEvent x.func 1 e.va x.name)
  | .opbufLine g rec_ line =>
    let x := s.grp g
    let r := x.obrec.getD rec_ 0
    if x.resident && obValid r && decide (line < obLen r) then
      .next ((({ s with opbuf := s.opbuf.write (obPlace x.pkg x.qtr (obBase r) + 64 * line) (List.replicate 64 0) } : State).modGrp g
        (fun y => y.oweSoft rec_)).softEvent x.func 2 rec_ x.name)
    else .next s
  | .tileLine line =>
    match s.tileOwn.find? (fun x => x.1 == line / 4096) with
    | some u => .next ((s.setPoison .tile line).softEvent u.2 3 (alignDown line 64) 0)
    | none => .next (s.setPoison .tile line)
  | .homeLine addr dirty => .next ((if dirty then s.setPoison .glob addr else s).softLine 4 (alignDown addr 128))
  | .vaultLine addr => .next ((s.setPoison .glob addr).softLine 5 (alignDown addr 128))
  | .tlbEntry core k => .next (s.softTlb core k)
  | .corrected => .next { s with boot := { s.boot with corrected := s.boot.corrected + 1 } }
  | .nameEntry core k => match (s.core core).ncache[k]? with
    | some l => .next ((s.modCore core (fun c => { c with ncache := dropNth k c.ncache })).softEvent l.func 6 l.name.toNat 0)
    | none => .next s
  | .nearEntry core k => match (s.core core).near[k]? with
    | some l => .next ((s.modCore core (fun c => { c with near := dropNth k c.near })).softEvent l.func 6 l.line 0)
    | none => .next s
  | .monitorEntry g =>
    let x := s.grp g
    match x.st, x.cond with
    | .suspended, .monitor va _ _ => .next ((s.wake g false).softEvent x.func 6 va x.name)
    | _, _ => .next s

/-- Runs of contiguous numbers in an ascending list: first and count. -/
def contiguous : List Nat → List (Nat × Nat)
  | [] => []
  | x :: xs => match contiguous xs with
    | (y, n) :: rest => if y = x + 1 then (x, n + 1) :: rest else (x, 1) :: (y, n) :: rest
    | [] => [(x, 1)]

/-- The confidential world whose device DRAM frame a byte lies in. -/
def State.confAt (s : State) (pa : Nat) : Option Nat :=
  if regionOf pa = 0 then match s.frameOwner pa with
    | some f => if bitAt (s.frame pa) 6 then some f else none
    | none => none
  else none

/-- A read whose path through a port's tree does not verify: its line, one of a confidential world, is poisoned, and the world told (R396,
R411). -/
def State.pathFails (s : State) (pa : Nat) : State :=
  match s.confAt pa with
  | some f => (s.setPoison .glob pa).raiseLog f evInteg [2, BitVec.ofNat 64 (alignDown pa 128), 0, 0] 0 none
  | none => s

/-- TREE_NODE_ERROR (R396, R421): the lines beneath a lost node of a port's tree, those of frames of confidential worlds from `base` on, are
poisoned, and each world is told of its own frames, one POISON record for each run of contiguous ones. A node of no frame stands for a line
at `base` whose path does not verify. -/
def execTreeNodeError (node port base frames : Nat) (s : State) : Host.Outcome State Fault Refusal :=
  let first := alignDown base 4096
  let inPort := fun (k : Nat) => natBits (4096 * k) 54 32 == port
  let mine := ((List.range frames).map (fun k => first / 4096 + k)).filter (fun k => inPort k && bitsN (s.frame (4096 * k)) 7 6 == 3)
  let tree := (List.range 24).any (fun p => s.partState p != 0 && bitAt (s.reg (offPart p 3)) port)
  if !tree then .next s
  else if frames = 0 then .next (if natBits base 54 32 = port then s.pathFails base else s)
  else
    let s1 := mine.foldl (fun s k => (List.range 32).foldl (fun s j => s.setPoison .glob (4096 * k + 128 * j)) s) s
    let s2 : State := { s1 with hub := { s1.hub with treeLoss := s1.hub.treeLoss ++ [(first, 4096 * frames)] } }
    let s3 := (List.range 64).foldl (fun s f =>
      (contiguous (mine.filter (fun k => bitsN (s.frame (4096 * k)) 5 0 == f))).foldl (fun s r =>
        s.raiseLog f evPoison [BitVec.ofNat 64 (4096 * r.1), BitVec.ofNat 64 r.2, BitVec.ofNat 64 node, 0] 0 none) s) s2
    .next s3.rebuildTrees

/-! The host's accesses (R329, R331, R395) -/

/-- Kinds of answers (log entry 7). -/
abbrev ansHostRead : Nat := 0
abbrev ansConfig : Nat := 0
abbrev ansPoison : Nat := 6

/-- The first confidential world that a host access of n bytes reaches; one of no length is checked as its first byte is (R116). -/
def State.confOwner (s : State) (pa n : Nat) : Option Nat := (List.range (max 1 n)).findSome? (fun k => s.confAt (pa + k))

/-- Whether the host finds memory at a physical address: device DRAM ends at 256 GiB and CXL-attached memory at 8 TiB (R5), reserved ranges are no
one's (R376), and a form whose ports are not brought out has no CXL-attached memory (R4). -/
def State.hostSees (s : State) (pa : Nat) : Bool :=
  match regionOf pa with
  | 0 => natBits pa 54 38 == 0 && !s.reservedPa pa
  | 1 => Config.cxlForm && natBits pa 54 43 == 0
  | _ => true

/-- Bytes at their destination, as the host sees them: what stands in the hub's egress escrow has not reached it (R97, R329). -/
def State.sysRead (s : State) (pa n : Nat) : List Byte := s.mem.read pa n

/-- The INTEG record of a host access to a confidential frame (R395; its class is log entry 22). -/
def State.confEvent (s : State) (f pa : Nat) : State := s.raiseLog f evInteg [2, BitVec.ofNat 64 pa, 0, 0] 0 none

/-- Bytes from a place on cut into sectors. -/
def sectorParts (pa : Nat) (data : List (Option Byte)) : List (Nat × List (Option Byte)) :=
  (dedupN ((List.range data.length).map (fun k => sectorOf (pa + k)))).map (fun sec =>
    (sec, (List.range 32).map (fun k => if pa ≤ sec + k then (data.getD (sec + k - pa) none) else none)))

/-- The lines of a write that are poisoned stay as they are unless it covers them whole (R419). -/
def hostCovers (pa : Nat) (data : List (Option Byte)) (line : Nat) : Bool :=
  (List.range 128).all (fun k => decide (pa ≤ line + k) && (data.getD (line + k - pa) none).isSome)

/-- A write by the host, at system scope; a block of CXL-attached memory that it writes stands under no world's key then. -/
def State.hostWrite (s : State) (pa : Nat) (data : List (Option Byte)) : State :=
  (sectorParts pa data).foldl (fun s p =>
    let line := alignDown p.1 128
    let put := fun (t : State) => (t.devWrite .glob p.1 p.2 none true).unkey ((enabled p.2).map (fun k => p.1 + k))
    if s.poisoned .glob line then (if hostCovers pa data line then put (s.unpoison .glob line) else s) else put s) s

/-- HOST_WRITE_ARRIVAL (R329, R331, R395): a host write reaches its line and meets the monitors on it; one to a frame of a confidential world
is dropped. That it is a release adds nothing here: writes arrive in their order. -/
def execHostWriteArrival (pa : Nat) (data : List (Option Byte)) (release : Bool) (s : State) : Host.Outcome State Fault Refusal :=
  let _ := release
  match s.confOwner pa data.length with
  | some f => .next (s.confEvent f pa)
  | none => .next (if s.hostSees pa then s.hostWrite pa data else s)

/-- HOST_CXL_MEM_ACCESS (R395): a read or write of device memory by the host. A read of a confidential frame, of a reserved range, of memory
that the form lacks or of a poisoned line gives poison; a frame that no world owns reads under no key: its bytes are free values. -/
def execHostCxlMemAccess (pa : Nat) (write : Option (List Byte)) (bytes : Nat) (s : State) : Host.Outcome State Fault Refusal :=
  let answer := fun (t : State) (a : Answer) => ({ t with out := t.out ++ [a] } : State)
  match s.confOwner pa (match write with
    | some bs => bs.length
    | none => bytes), write with
  | some f, some _ => .next (s.confEvent f pa)
  | some f, none => .next (answer (s.confEvent f pa) (.word ansPoison 0))
  | none, some bs => .next (if s.hostSees pa then s.hostWrite pa (bs.map some) else s)
  | none, none =>
    let places := (List.range bytes).map (fun k => pa + k)
    if places.any (fun p => s.poisoned .glob p || !s.hostSees p) then .next (answer s (.word ansPoison 0))
    else if regionOf pa = 0 ∧ s.frameOwner pa = none then
      let d := s.drawWords bytes
      .next (answer d.2 (.bytes ansHostRead ((List.range bytes).map (fun k => (d.1 k).setWidth 8))))
    else .next (answer s (.bytes ansHostRead (s.sysRead pa bytes)))

end Sys2Proof.Machine
end

