-- ==== Sys2Proof/Machine/Tdisp.lean ====
section
/-! DEFINITION. The TDISP requests of a virtual function (file 21 R386). The contents of an answer that the manual does not give are free
values (log entry 5); an answer stands in State.out (log entry 7). -/

namespace Sys2Proof.Machine

/-- Kinds of answers to TDISP requests. -/
abbrev ansTdisp : Nat := 1

/-- An answer given to the outside. -/
def State.say (s : State) (a : Answer) : State := { s with out := s.out ++ [a] }

/-- The error answer of a TDISP request. -/
def State.tdispError (s : State) : State := s.say (.word ansTdisp 0xFFFFFFFF)

/-- An answer whose contents the manual does not give. -/
def State.sayFree (s : State) (kind request : Nat) : State :=
  let (id, s1) := s.fresh
  s1.say (.bytes kind (Config.freeAnswer request id))

/-- TDI of a function changed. -/
def State.setTdi (s : State) (f v : Nat) : State := s.setRegN (offWorld f 0) 17 16 v

/-- Whether a number names a virtual function (R362). -/
def isVf (f : Nat) : Bool := decide (1 ≤ f ∧ f ≤ 63)

/-- TDI_ERROR (R386): a TDISP error, or an IDE error on the world's stream. -/
def execTdiError (func : Nat) (s : State) : Host.Outcome State Fault Refusal := if isVf func then .next (s.tdiFail func) else .next s

/-- GET_TDISP_VERSION. -/
def execGetTdispVersion (func : Nat) (s : State) : Host.Outcome State Fault Refusal :=
  if isVf func then .next (s.sayFree ansTdisp 0x81) else .next s.tdispError

/-- GET_TDISP_CAPABILITIES. -/
def execGetTdispCapabilities (func : Nat) (s : State) : Host.Outcome State Fault Refusal :=
  if isVf func then .next (s.sayFree ansTdisp 0x82) else .next s.tdispError

/-- LOCK_INTERFACE_REQUEST: from CONFIG_UNLOCKED to CONFIG_LOCKED, which freezes the world's entry and its partition's; an error answer in
another state (log entry 23). -/
def execLockInterfaceRequest (func : Nat) (s : State) : Host.Outcome State Fault Refusal :=
  if isVf func && s.tdi func == 0 then .next ((s.setTdi func 1).say (.word ansTdisp 0)) else .next s.tdispError

/-- The bytes of an interface report: the world's teller pages, its partition's ports and engines, and TREEMASK (the order is log entry
23). -/
def State.reportBytes (s : State) (f : Nat) : List Byte :=
  let p := s.partOf f
  let pages := ((List.range 4096).filter (fun q => s.qValid q && s.qFunc q == f)).map (fun q => s.qPage q)
  bytesLE 2 pages.length ++ pages.flatMap (fun k => bytesLE 2 k) ++
  ([1, 2, 5, 6, 3].flatMap (fun k => bytesLE 8 (s.reg (offPart p k)).toNat))

/-- GET_DEVICE_INTERFACE_REPORT. -/
def execGetDeviceInterfaceReport (func : Nat) (s : State) : Host.Outcome State Fault Refusal :=
  if isVf func then .next (s.say (.bytes ansTdisp (s.reportBytes func))) else .next s.tdispError

/-- GET_DEVICE_INTERFACE_STATE: the TDISP state. -/
def execGetDeviceInterfaceState (func : Nat) (s : State) : Host.Outcome State Fault Refusal :=
  if isVf func then .next (s.say (.word ansTdisp (BitVec.ofNat 64 (s.tdi func)))) else .next s.tdispError

/-- START_INTERFACE_REQUEST: from CONFIG_LOCKED to RUN; an ADMITTED world then runs. -/
def execStartInterfaceRequest (func : Nat) (s : State) : Host.Outcome State Fault Refusal :=
  if isVf func && s.tdi func == 1 then
    let s1 := s.setTdi func 2
    .next ((if s1.worldState func = 1 then s1.startWorld func else s1).say (.word ansTdisp 0))
  else .next s.tdispError

/-- STOP_INTERFACE_REQUEST: CONFIG_UNLOCKED, and DEPART is performed. -/
def execStopInterfaceRequest (func : Nat) (s : State) : Host.Outcome State Fault Refusal :=
  if isVf func then .next (((s.setTdi func 0).startDepart func).say (.word ansTdisp 0)) else .next s.tdispError

end Sys2Proof.Machine
end

