-- ==== Sys2Proof/Machine/Boot.lean ====
section
/-! DEFINITION. Boot, measurement registers and ready bits (file 23 R422 to R429). -/

namespace Sys2Proof.Machine

/-! The boot flash (R422) -/

/-- A byte of the boot flash: as written, else as made. -/
def State.flash (s : State) (a : Nat) : Byte := lookupD s.boot.flash a (Config.flashByte a)
/-- The first byte of a slot: 0 is A, 1 is B. -/
def slotBase (slot : Nat) : Nat := 0x1000000 * slot
/-- n bytes of a slot from an offset on. -/
def State.slotBytes (s : State) (slot off n : Nat) : List Byte := (List.range n).map (fun k => s.flash (slotBase slot + off + k))
def State.slotNat (s : State) (slot off n : Nat) : Nat := ofBytesLE (s.slotBytes slot off n)
/-- Whether bytes [lo, hi) of a slot are zero. -/
def State.slotZero (s : State) (slot lo hi : Nat) : Bool := (s.slotBytes slot lo (hi - lo)).all (fun b => b == 0)

def State.slotSvn (s : State) (slot : Nat) : Nat := s.slotNat slot 4 2
def State.slotLen (s : State) (slot : Nat) : Nat := s.slotNat slot 8 4

/-- The digest H of a slot (R423 step 4). -/
def State.slotDigest (s : State) (slot : Nat) : BitVec 512 :=
  shake256 (s.slotBytes slot 0 2048 ++ s.slotBytes slot 0x1000 (s.slotLen slot))

/-- The minimum SVN: as fused, or as raised since (R424). -/
def State.minSvn (s : State) : Nat := max Config.fusedMinSvn.toNat s.boot.raised

/-- Step 1 of R423: MAGIC, LEN, ENTRY, and every res0 field. -/
def State.slotFields (s : State) (slot : Nat) : Bool :=
  let len := s.slotLen slot
  let entry := s.slotNat slot 12 4
  let sigLen := s.slotNat slot 2048 2
  s.slotNat slot 0 4 == 0x5A344246 && s.slotZero slot 6 8 && len % 4096 == 0 && decide (len ≤ 0x800000) && entry % 4 == 0 &&
  decide (entry < len) && s.slotZero slot 1809 2048 && decide (1 ≤ sigLen ∧ sigLen ≤ 1280) && s.slotZero slot (2050 + sigLen) 3330 &&
  s.slotZero slot 3330 4096

/-- Steps 1 to 4 of R423: whether a slot is accepted. -/
def State.slotOk (s : State) (slot : Nat) : Bool :=
  let key := s.slotBytes slot 16 1793
  s.slotFields slot && shake256 key == Config.fusedKeyHash && decide (s.minSvn ≤ s.slotSvn slot) &&
  falconVerify key (bytesLE 64 (s.slotDigest slot).toNat) (s.slotBytes slot 2050 (s.slotNat slot 2048 2))

/-! Measurement registers (R425) -/

/-- MRn, and MRn replaced. -/
def State.mr (s : State) (n : Nat) : BitVec 512 :=
  BitVec.ofNat 512 (ofBytesLE ((List.range 8).flatMap (fun w => bytesLE 8 (s.reg (offMr n w)).toNat)))
def State.setMr (s : State) (n : Nat) (v : BitVec 512) : State :=
  (List.range 8).foldl (fun s w => s.setReg (offMr n w) (BitVec.ofNat 64 (bitsN v (64 * w + 63) (64 * w)))) s

/-- An extension: MRn := SHA3-512(MRn ‖ d). -/
def State.extend (s : State) (n : Nat) (d : BitVec 512) : State :=
  s.setMr n (sha3_512 (bytesLE 64 (s.mr n).toNat ++ bytesLE 64 d.toNat))

/-! Boot (R423, R424) -/

def State.stage (s : State) : Nat := s.regN offBootstat 3 0
/-- Whether firmware runs: the first stage, or the runtime. -/
def State.firmware (s : State) : Bool := s.stage == 1 || s.stage == 2

/-- The device as power-on leaves it: what outlives it is the flash, the fuses, the boot choice, the memory of others under keys that are gone
(R397), and the model's own fields. -/
def State.powerOn (s : State) : State :=
  { State.reset with
    mem := ⟨s.mem.cells.filter (fun c => regionOf c.1 != 0)⟩
    cxlKeys := s.cxlKeys.map (fun k => (k.1, 64))
    boot := { Boot.reset with flash := s.boot.flash, raised := s.boot.raised, chosen := s.boot.chosen }
    agenda := s.agenda, freeCount := s.freeCount, seq := s.seq, out := s.out }

/-- A slot's image runs: MR0 covers it, it stands in clerk core 0's memory, and the core is at its ENTRY (R423 step 5). -/
def State.runSlot (s : State) (slot : Nat) : State :=
  let s1 := s.extend 0 (s.slotDigest slot)
  let s2 : State := { s1 with boot := { s1.boot with
      running := slot, clerkMem := s1.slotBytes slot 0x1000 (s1.slotLen slot), clerkPc := s1.slotNat slot 12 4 } }
  s2.setReg offBootstat (BitVec.ofNat 64 (65536 * s2.slotSvn slot + 256 * (s2.minSvn % 256) + 16 * slot + 1))

/-- POWER_ON_BOOT (R423, R424, R430): the ROM tries the boot choice and then the other slot, slot A first where none was activated; the first
that passes its checks runs, else the ROM enters recovery. -/
def execPowerOnBoot (s : State) : Host.Outcome State Fault Refusal :=
  let s1 := s.powerOn
  match ([s1.boot.chosen, 1 - s1.boot.chosen]).find? (fun k => s1.slotOk k) with
  | some k => .next (s1.runSlot k)
  | none => .next (s1.setReg offBootstat (BitVec.ofNat 64 (256 * (s1.minSvn % 256) + 0xFF)))

/-- MR_EXTEND (R425): by firmware, never MR0; MR2 takes the fused configuration, FMIN as BOOTSTAT shows it among it. The first image that
MR1 covers is the runtime (log entry 24). -/
def execMrExtend (n : Nat) (digest : BitVec 512) (s : State) : Host.Outcome State Fault Refusal :=
  if n = 0 ∨ 15 < n ∨ s.firmware = false then .next s
  else
    let s1 := s.extend n (if n = 2 then Config.fusedConfigDigest (s.regN offBootstat 15 8) else digest)
    .next (if n = 1 ∧ s.stage = 1 then s1.setRegN offBootstat 3 0 2 else s1)

/-- FMIN_RAISE (R424): by firmware, never above the running SVN, never down. -/
def execFminRaise (svn : Nat) (s : State) : Host.Outcome State Fault Refusal :=
  if s.firmware && decide (svn ≤ s.regN offBootstat 31 16 ∧ s.minSvn < svn) then
    .next (({ s with boot := { s.boot with raised := svn } } : State).setRegN offBootstat 15 8 (svn % 256))
  else .next s

/-! Ready bits (R428, R429) -/

/-- The place of a ready bit: a register and a bit. -/
def readyPlace : ReadyBit → Nat × Nat
  | .cores d => (offReady, 48 + d % 4)
  | .coll n => (offReady, 40 + n % 8)
  | .comp n => (offReady, 36 + n % 4)
  | .copyEngine n => (offReady, 20 + n % 16)
  | .clerk n => (offReady, 16 + n % 4)
  | .cxl n => (offReady, 13 + n % 3)
  | .plane n => (offReady, 5 + n % 8)
  | .dram d => (offReady, 1 + d % 4)
  | .host => (offReady, 0)
  | .core d i => (offCready (d % 4), i % 64)

/-- Whether a function may come up (R4, R423, R428, R433): in recovery only the host port; the CXL ports of a form that brings them out; a die
whose every core is ready; no plane that is dead. -/
def State.mayBeReady (s : State) : ReadyBit → Bool
  | .host => s.stage != 0
  | .cxl _ => s.firmware && Config.cxlForm
  | .cores d => s.firmware && s.reg (offCready (d % 4)) == BitVec.allOnes 64
  | .plane n => s.firmware && !bitAt (s.reg offPlremap) (24 + n % 8)
  | _ => s.firmware

/-- READY_BIT_SET (R428). -/
def execReadyBitSet (b : ReadyBit) (s : State) : Host.Outcome State Fault Refusal :=
  let p := readyPlace b
  if s.mayBeReady b then .next (s.setRegN p.1 p.2 p.2 1) else .next s

/-- FUNCTION_OUT_OF_SERVICE (R429): the bit clears; a die with a core that has left is no longer ready whole. -/
def execFunctionOutOfService (b : ReadyBit) (s : State) : Host.Outcome State Fault Refusal :=
  let p := readyPlace b
  let s1 := s.setRegN p.1 p.2 p.2 0
  match b with
  | .core d _ => .next (s1.setRegN offReady (48 + d % 4) (48 + d % 4) 0)
  | _ => .next s1

/-- CONFIG_REQUEST (R428): Configuration Request Retry Status (1) until HOST is set. -/
def execConfigRequest (func : Nat) (s : State) : Host.Outcome State Fault Refusal :=
  let _ := func
  .next (s.say (.word ansConfig (if bitAt (s.reg offReady) 0 then 0 else 1)))

end Sys2Proof.Machine
end

