-- ==== Sys2Proof/Machine/Attest.lean ====
section
/-! DEFINITION. The SPDM responder and the PLDM terminus (file 23 R426, R427, R430). The contents of an answer that the manual does not give
are free values (log entry 5). The responder runs on the clerks: without firmware it does not answer. -/

namespace Sys2Proof.Machine

/-- Kinds of answers, and the codes of SPDM's ERROR (PRESUMED, log entry 25). -/
abbrev ansSpdm : Nat := 2
abbrev ansPldm : Nat := 3
abbrev ansSpdmError : Nat := 7
abbrev errInvalid : Nat := 0x01
abbrev errUnexpected : Nat := 0x04
abbrev errDecrypt : Nat := 0x06
abbrev errUnsupported : Nat := 0x07
abbrev errSessionLimit : Nat := 0x0A
/-- PLDM's completion code for a sensor that does not exist (PRESUMED, log entry 25). -/
abbrev errNoSensor : W64 := 0x80

/-- An ERROR answer. -/
def State.spdmError (s : State) (code : Nat) : State := s.say (.word ansSpdmError (BitVec.ofNat 64 code))

/-- A request served, where firmware runs. -/
def State.spdm (s : State) (f : State) : Host.Outcome State Fault Refusal := if s.firmware then .next f else .next s

/-- A request that needs algorithms to be negotiated first (log entry 25). -/
def State.spdmAfter (s : State) (need : Algs → Bool) (f : State) : Host.Outcome State Fault Refusal :=
  s.spdm (if need s.boot.algs then f else s.spdmError errUnexpected)

/-- What an answer signed with Falcon-1024 over a SHA3-512 hash needs, and what a secure session needs. -/
def Algs.signs (a : Algs) : Bool := a.hash && a.asym
def Algs.secures (a : Algs) : Bool := a.signs && a.dhe && a.aead && a.sched

/-- GET_VERSION: SPDM 1.3; a connection begins anew. -/
def execGetVersion (s : State) : Host.Outcome State Fault Refusal :=
  s.spdm (({ s with boot := { s.boot with algs := Boot.reset.algs } } : State).say (.bytes ansSpdm [0x13]))

/-- GET_CAPABILITIES: neither pre-shared keys nor mutual authentication, a byte of 0 for each; the rest of the answer is free (log entry 25). -/
def execGetCapabilities (s : State) : Host.Outcome State Fault Refusal :=
  let (id, s1) := s.fresh
  s.spdm (s1.say (.bytes ansSpdm ([0x61, 0, 0] ++ Config.freeAnswer 0xE1 id)))

/-- The one algorithm of each class that the responder knows, named where it is negotiated (R426, log entry 25): SHA3-512 by 1; Falcon-1024
by its registry identifier, the vendor's number and its algorithm identifier; secp384r1, AES-256-GCM and SPDM's key schedule by 1 each; 0 where
there is none. -/
def algorithmBytes (a : Algs) : List Byte :=
  let one := fun (b : Bool) => if b then (1 : Byte) else 0
  [one a.hash] ++ (if a.asym then [0x04] ++ bytesLE 4 Config.vendorNumber.toNat ++ [0x01, 0x00] else List.replicate 7 0) ++
  [one a.dhe, one a.aead, one a.sched]

/-- NEGOTIATE_ALGORITHMS: SHA3-512, Falcon-1024, secp384r1, AES-256-GCM and SPDM's key schedule, each where the requester offers it; a requester
that offers none of them receives ERROR. -/
def execNegotiateAlgorithms (hash asym dhe : Bool) (sess : SessionAlgs) (s : State) : Host.Outcome State Fault Refusal :=
  let a : Algs := ⟨hash, asym, dhe, sess.aead, sess.sched⟩
  s.spdm (if hash || asym || dhe || sess.aead || sess.sched then
      ({ s with boot := { s.boot with algs := a } } : State).say (.bytes ansSpdm ([0x63] ++ algorithmBytes a))
    else s.spdmError errInvalid)

/-- GET_DIGESTS. -/
def execGetDigests (s : State) : Host.Outcome State Fault Refusal := s.spdmAfter Algs.hash (s.sayFree ansSpdm 0x81)

/-- GET_CERTIFICATE: a part of the certificate chain. -/
def execGetCertificate (off len : Nat) (s : State) : Host.Outcome State Fault Refusal :=
  s.spdmAfter Algs.signs (s.say (.bytes ansSpdm (((Config.freeAnswer 0x82 0).drop off).take len)))

/-- CHALLENGE: an answer signed over the requester's nonce. -/
def execChallenge (nonce : List Byte) (s : State) : Host.Outcome State Fault Refusal :=
  let (id, s1) := s.fresh
  let body := Config.freeAnswer 0x83 id
  s.spdmAfter Algs.signs (s1.say (.bytes ansSpdm (body ++ Config.falconSign (nonce ++ body))))

/-- GET_MEASUREMENTS (R426, R427): block n + 1 reports MRn; the answer and its signature are built from one snapshot. -/
def execGetMeasurements (blocks : List Nat) (nonce : List Byte) (s : State) : Host.Outcome State Fault Refusal :=
  let body := blocks.flatMap (fun b => bytesLE 64 (s.mr (b - 1)).toNat)
  s.spdmAfter Algs.signs (if blocks.all (fun b => decide (1 ≤ b ∧ b ≤ 16)) then s.say (.bytes ansSpdm (body ++ Config.falconSign (nonce ++ body)))
    else s.spdmError errInvalid)

/-- KEY_EXCHANGE: a session opens, where all that it needs was negotiated; a fifth is refused. -/
def execKeyExchange (dheKey : List Byte) (s : State) : Host.Outcome State Fault Refusal :=
  let _ := dheKey
  s.spdmAfter Algs.secures (if 4 ≤ s.boot.sessions.length then s.spdmError errSessionLimit
    else ({ s with boot := { s.boot with sessions := s.boot.sessions ++ [⟨s.boot.nextSess, false, 0⟩], nextSess := s.boot.nextSess + 1 } } : State).sayFree
      ansSpdm 0xE4)

/-- A session by its number. -/
def State.session (s : State) (id : Nat) : Option Session := s.boot.sessions.find? (fun x => x.id == id)

/-- A session replaced. -/
def State.setSession (s : State) (x : Session) : State :=
  { s with boot := { s.boot with sessions := s.boot.sessions.map (fun y => if y.id = x.id then x else y) } }

/-- FINISH: the handshake completes, if its MAC verifies; else the session is gone. -/
def execFinish (session : Nat) (mac : List Byte) (s : State) : Host.Outcome State Fault Refusal :=
  s.spdmAfter Algs.secures (match s.session session with
    | some x =>
      if x.finished then s.spdmError errUnexpected
      else if Config.finishOk session mac then (s.setSession { x with finished := true }).sayFree ansSpdm 0xE5
      else ({ s with boot := { s.boot with sessions := s.boot.sessions.filter (fun y => y.id ≠ session) } } : State).spdmError errDecrypt
    | none => s.spdmError errInvalid)

/-- A request within a session whose handshake is complete. -/
def State.inSession (s : State) (id : Nat) (f : Session → State) : Host.Outcome State Fault Refusal :=
  s.spdm (match s.session id with
    | some x => if x.finished then f x else s.spdmError errUnexpected
    | none => s.spdmError errUnexpected)

/-- KEY_UPDATE. -/
def execKeyUpdate (session : Nat) (s : State) : Host.Outcome State Fault Refusal :=
  s.inSession session (fun x => (s.setSession { x with epoch := x.epoch + 1 }).say (.word ansSpdm 0x69))

/-- END_SESSION. -/
def execEndSession (session : Nat) (s : State) : Host.Outcome State Fault Refusal :=
  s.inSession session (fun _ =>
    ({ s with boot := { s.boot with sessions := s.boot.sessions.filter (fun y => y.id ≠ session) } } : State).say (.word ansSpdm 0x6C))

/-- Whether the host link has a stream: 64 is the link's, 0 to 63 are those of the worlds that are confidential and RUNNING (R397). -/
def State.hasStream (s : State) (stream : Nat) : Bool :=
  stream == 64 || (decide (stream < 64) && s.worldConf stream && s.worldState stream == 2)

/-- IDE_KM (R397): the key of a stream, carried in a session. -/
def execIdeKm (session stream : Nat) (key : List Byte) (s : State) : Host.Outcome State Fault Refusal :=
  s.inSession session (fun _ =>
    if !s.hasStream stream then s.spdmError errInvalid
    else ({ s with hub := { s.hub with ide := s.hub.ide.filter (fun x => x.1 ≠ stream) ++ [(stream, session, key)] } } : State).say
      (.word ansSpdm 0xFE))

/-- Every other request code: ERROR UnsupportedRequest. -/
def execSpdmUnsupportedRequest (code : Nat) (s : State) : Host.Outcome State Fault Refusal :=
  let _ := code
  s.spdm (s.spdmError errUnsupported)

/-! PLDM (R430) -/

/-- PLDM Type 0: discovery. -/
def execPldmDiscovery (code : Nat) (s : State) : Host.Outcome State Fault Refusal :=
  if s.stage = 0 then .next s else .next (s.sayFree ansPldm code)

/-- The sensors of R430 and R438 by number (log entry 25): 0 power, 1 to 4 the temperature of each die, 5 that of the module, 6 to 9 the clock of
each die, 10 the corrected errors, 11 the silent peers. -/
abbrev sensorCorrected : Nat := 10
abbrev sensorSilent : Nat := 11

/-- PLDM Type 2: a sensor's reading: the count of corrected errors (R420), the endpoints that have fallen silent and were not opened again (R438),
or a physical quantity, which is free; a number that names no sensor is refused. -/
def execPldmMonitoring (sensor : Nat) (s : State) : Host.Outcome State Fault Refusal :=
  if s.stage = 0 then .next s
  else if sensor = sensorCorrected then .next (s.say (.bytes ansPldm (0 :: bytesLE 8 s.boot.corrected)))
  else if sensor = sensorSilent then .next (s.say (.bytes ansPldm (0 :: s.fabric.silent.flatMap (fun ep => bytesLE 2 ep))))
  else if sensor < sensorCorrected then .next (s.sayFree ansPldm (256 + sensor))
  else .next (s.say (.word ansPldm errNoSensor))

/-- PLDM Type 5 (R423, R430): bytes of an image written at a flash offset, into a slot that is not running. -/
def execPldmFirmwareUpdate (off : Nat) (data : List Byte) (s : State) : Host.Outcome State Fault Refusal :=
  let slot := off / 0x1000000
  if s.stage = 0 then .next s
  else if 1 < slot ∨ slot = s.boot.running ∨ 0x1000000 < off % 0x1000000 + data.length then .next (s.say (.word ansPldm 1))
  else
    let flash := (data.zip (List.range data.length)).foldl (fun l x => setKey l (off + x.2) x.1) s.boot.flash
    .next (({ s with boot := { s.boot with flash := flash, staged := some slot } } : State).say (.word ansPldm 0))

/-- ActivateFirmware (R427, R430): a staged image that passes the checks of R423 is the boot choice at the next reset; another is refused,
and the slot that runs is the boot choice. -/
def execActivateFirmware (s : State) : Host.Outcome State Fault Refusal :=
  if s.stage = 0 then .next s
  else match s.boot.staged with
    | none => .next (s.say (.word ansPldm 1))
    | some slot =>
      let s1 : State := { s with boot := { s.boot with staged := none } }
      if s.slotOk slot then .next (({ s1 with boot := { s1.boot with chosen := slot } } : State).say (.word ansPldm 0))
      else
        let s2 : State := if s.boot.running < 2 then { s1 with boot := { s1.boot with chosen := s1.boot.running } } else s1
        .next (s2.say (.word ansPldm 1))

end Sys2Proof.Machine
end

