-- ==== Sys2Proof/Machine/Control.lean ====
section
/-! DEFINITION. Control flow, traps, waiting, register growth, barriers, own counters (file 09 R230 to R246, R251; file 01 R35 to R50). -/

namespace Sys2Proof.Machine

/-- The clause of a word with the transfer of its acting lanes to a target (R232). -/
def Ctx.goTo (c : Ctx) (s : State) (t : W64) : State :=
  s.modGrp c.gi (fun g => { g with clauses := modifyNth (fun x => { x with taken := c.act, target := t }) c.k g.clauses })

/-- The tests of a transfer's target: SPACE, then MISALIGN where it comes from a register (R210, R232). -/
def badTarget (t : W64) (aligned : Bool) : Option Cause :=
  if bitsN t 63 57 ≠ 0 then some .space else if aligned && bitsN t 2 0 != 0 then some .misalign else none

/-- A transfer (R232). -/
def Ctx.transfer (c : Ctx) (s : State) (t : W64) (aligned : Bool) : Res :=
  match badTarget t aligned with
  | some cause => .trap s cause 0 t
  | none => .done (c.goTo s t)

/-- The target of a format B transfer (R210). -/
def Ctx.branch (c : Ctx) (off : BitVec 32) : W64 := c.cl.hdr + (off.signExtend 64) * 8

/-- NOP (R231). -/
def execNop (o : VOps) (s : State) : Host.Outcome State Fault Refusal := issueWord (.nop o) (fun _ s => .done s) s

/-- BRA (R232). -/
def execBra (o : BOps) (s : State) : Host.Outcome State Fault Refusal :=
  issueWord (.bra o) (fun c s => c.transfer s (c.branch o.off) false) s

/-- JMPI (R232). -/
def execJmpi (o : VOps) (s : State) : Host.Outcome State Fault Refusal :=
  issueWord (.jmpi o) (fun c s => let a := c.uni s o.a
                                  c.transfer a.2 a.1 true) s

/-- CALL (R232): its link register receives the next header. -/
def execCall (o : BOps) (s : State) : Host.Outcome State Fault Refusal :=
  issueWord (.call o) (fun c s =>
    match badTarget (c.branch o.off) false with
    | some cause => .trap s cause 0 (c.branch o.off)
    | none => .done (c.goTo (c.putS s (0xC0 + o.mod) c.cl.next) (c.branch o.off))) s

/-- RET (R232, R233). -/
def execRet (o : VOps) (s : State) : Host.Outcome State Fault Refusal :=
  issueWord (.ret o) (fun c s => let a := c.uni s o.a
                                 c.transfer a.2 a.1 true) s

/-- A group without the lanes of a mask (R234): with none left, its acceptance flag closes and its death begins (R54, R70). -/
def Group.exitLanes (g : Group) (m : BitVec 64) (code : BitVec 32) : Group :=
  let live := g.live &&& ~~~m
  { g with live := live, exitCode := code, dying := live == 0, accept := g.accept && live != 0 }

/-- EXIT (R234). -/
def execExit (o : VOps) (s : State) : Host.Outcome State Fault Refusal :=
  issueWord (.exit o) (fun c s =>
    let a := c.uni s o.a
    .done (a.2.modGrp c.gi (fun g => g.exitLanes c.act (a.1.setWidth 32)))) s

/-- TRAP (R236). -/
def execTrap (o : IOps) (s : State) : Host.Outcome State Fault Refusal :=
  issueWord (.trap o) (fun c s => .trap s .trap o.imm.toNat c.cl.wordAddr) s

/-- Whether an operation is an access to memory that has not completed (R240): a load, a store, an atomic, ATOMP, a kick or a prefetch. Which
operations R240's accesses are it does not say; OBLOAD, BULK, MDRAIN, COMMIT, ABORT and name requests are not taken for such (log entry 53). -/
def Op.isAccess (o : Op) : Bool :=
  match o.kind with
  | .load .. | .store | .storePrivate | .storeRel .. | .atomic .. | .atomp .. | .kick .. | .prefetch .. => true
  | _ => false

/-- The lowest live lane whose frame holds a PC that TRET refuses (R240). -/
def badFrame (live : BitVec 64) (f : List (W64 × W64)) : Option W64 :=
  ((lanesOf live).map (fun i => (f.getD i (0, 0)).1)).find? (fun pc => bitsN pc 63 57 != 0 || bitsN pc 2 0 != 0)

/-- TRET (R240): a fault of the frames, or of a PC in them, is a double trap, since TS is still set. -/
def execTret (o : VOps) (s : State) : Host.Outcome State Fault Refusal :=
  issueWord (.tret o) (fun c s =>
    let g := s.grp c.gi
    let a := g.privAddr 0 g.frameOff
    if !g.ts then c.trap s .illegal
    else if g.ops.any Op.isAccess then .hold s
    else if g.privLen < g.frameOff + 32 then .at_ s .space g.frameOff
    else match s.pageMap c.gi accRead (pagesOf a 2048) [] with
      | (.ok _, m, s1) =>
        if (pagesOf a 2048).any (fun p => (List.range 32).any (fun k => s1.poisoned .glob (placeIn m p + 128 * k) &&
            decide (a < p + 128 * k + 128 ∧ p + 128 * k < a + 2048))) then .trap (s1.integRecord c.gi 1 a) .integrity 0 c.cl.hdr
        else
          let f := s1.getFrames c.gi m
          match badFrame g.live f with
          | some pc => .trap s1 .misalign 0 pc
          | none => .done (s1.modGrp c.gi (fun g => g.trapReturn f))
      | (.hold, _, s1) => .wait s1
      | (.space, _, s1) => .at_ s1 .space a
      | (_, _, s1) => .page s1 a accRead) s

/-- A group suspended on a condition (R36). -/
def Ctx.sleep (c : Ctx) (s : State) (cond : Cond) : Res :=
  .done (s.modGrp c.gi (fun g => { g with st := .suspended, cond := cond, waiting := false }))

/-- SUSPEND on an event counter (R242, R243): a condition already met is an acquire. -/
def execSuspendCounter (o : VOps) (s : State) : Host.Outcome State Fault Refusal :=
  issueWord (.suspendCounter o) (fun c s =>
    let a := c.uni s o.a
    let k := bitsN o.mod 5 2
    if a.1.toNat ≤ ((a.2.grp c.gi).ctr.getD k 0).toNat then .done (a.2.acquire c.gi 4)
    else c.sleep a.2 (.counter k a.1)) s

/-- SUSPEND on a till (R242, R337): its word lies in the own slice, in an allotment of a team of the world (R87). -/
def execSuspendTill (o : VOps) (s : State) : Host.Outcome State Fault Refusal :=
  issueWord (.suspendTill o) (fun c s =>
    let a := c.uni s o.a
    let b := c.uni a.2 o.b
    let addr := b.1.toNat % 2 ^ 32
    let pkg := (b.2.grp c.gi).pkg
    match tilePlace pkg addr with
    | none => .at_ b.2 .space addr
    | some (owner, off) =>
      if owner ≠ pkg ∨ Config.engineRegion ≤ off ∨ b.2.allotted (b.2.grp c.gi).func pkg off = false then .at_ b.2 .space addr
      else if addr % 8 ≠ 0 then .at_ b.2 .misalign addr
      else if b.2.tillMet (tileAbs pkg off) a.1 then .done b.2
      else c.sleep b.2 (.till (tileAbs pkg off) a.1)) s

/-- SUSPEND on a monitor (R242, R37): with no entry free, or on a fenced line (R435), its condition counts as met. -/
def execSuspendMonitor (o : VOps) (s : State) : Host.Outcome State Fault Refusal :=
  issueWord (.suspendMonitor o) (fun c s =>
    let a := c.uni s o.a
    let b := c.uni a.2 o.b
    let va := b.1.toNat
    let pkg := (b.2.grp c.gi).pkg
    if 2 ^ 57 ≤ va then .at_ b.2 .space va
    else if va % 8 ≠ 0 then .at_ b.2 .misalign va
    else match b.2.translate c.gi va accRead with
      | (.ok pa, s1) =>
        if !s1.destOk (s1.grp c.gi).func (some pkg) pa then .at_ s1 .space va
        else if s1.fenced pa then .done (s1.servedPage pa accRead)
        else if Config.monitorMax ≤ s1.monitors pkg || s1.seenWord (s1.grp c.gi).func pa != a.1 then .done s1
        else c.sleep s1 (.monitor va pa a.1)
      | (.hold, s1) => .wait s1
      | (.space, s1) => .at_ s1 .space va
      | (_, s1) => .page s1 va accRead) s

/-- YIELD.saved (R244): once its slots are clear the group goes on at the next header, saved. -/
def execYield (o : VOps) (s : State) : Host.Outcome State Fault Refusal :=
  issueWord (.yield o) (fun c s =>
    let g := s.grp c.gi
    let back := fun (t : State) => t.modGrp c.gi (fun x => { x with pc := g.pc, rpos := g.rpos, clauses := g.clauses })
    if g.ops.any (fun o => o.slot != 0) then .hold s
    else match (s.modGrp c.gi (fun g => { g.endClause c.cl with clauses := [] })).saveGroup c.gi false false with
      | .done s1 => .done s1
      | .noRoom s1 => .wait (back s1)
      | .wait s1 => .wait (back s1)) s

/-- GROW (R43, R245). -/
def execGrow (o : IOps) (s : State) : Host.Outcome State Fault Refusal :=
  issueWord (.grow o) (fun c s =>
    let g := s.grp c.gi
    let n := o.imm.toNat
    if 12 < g.blk + n then c.trap s .growLimit
    else if n ≤ s.freeBlocks g.pkg g.qtr then .done (s.modGrp c.gi (fun g => g.grown n))
    else .done (s.modGrp c.gi (fun g => { g with st := .pending, cond := .pool n, waiting := false }))) s

/-- SHRINK (R44, R245). It waits for the outstanding operations that target a released register, not for the whole count of their slots (log entry
53). -/
def execShrink (o : IOps) (s : State) : Host.Outcome State Fault Refusal :=
  issueWord (.shrink o) (fun c s =>
    let g := s.grp c.gi
    let n := o.imm.toNat
    let keep := 16 * (g.blk - n)
    let gone := fun (r : RegCode) => isV r && decide (keep ≤ r.toNat)
    if g.blk < n + 1 then c.trap s .illegal
    else if g.mm && decide (keep < g.wbase + 64) then c.trap s .alias_
    else if g.pendw.any (fun w => gone w.reg && decide (c.t < w.ready)) || g.draining ||
        g.ops.any (fun o => isV o.dest && decide (keep < o.dest.toNat + o.span)) then .hold s
    else .done ((s.modGrp c.gi (fun g => { g with blk := g.blk - n, v := g.v.take keep, blkLost := false })).poolReturn g.pkg g.qtr)) s

/-- The arrival of a group at a barrier (R246): once its earlier commit steps are complete (R48). -/
def Ctx.arrives (c : Ctx) (s : State) (cond : Cond) : Res :=
  if (s.grp c.gi).ops.any (fun o => o.commitStep.isSome) then .hold s
  else
    let r := s.arrive c.gi cond
    if r.1 then .done r.2 else .done (r.2.modGrp c.gi (fun g => { g with st := .suspended, waiting := false }))

/-- BART (R246). -/
def execBart (o : IOps) (s : State) : Host.Outcome State Fault Refusal :=
  issueWord (.bart o) (fun c s => c.arrives s (.teamBarrier o.imm.toNat)) s

/-- BARC (R246): ILLEGAL in a launch of 1 × 1 clusters (R47). -/
def execBarc (o : IOps) (s : State) : Host.Outcome State Fault Refusal :=
  issueWord (.barc o) (fun c s =>
    let g := s.grp c.gi
    if bitsN g.clus 11 8 * bitsN g.clus 7 4 = 1 then c.trap s .illegal
    else c.arrives s (.clusterBarrier o.imm.toNat)) s

/-- BARG (R246): ILLEGAL for an id of NBARG or more (R47). -/
def execBarg (o : IOps) (s : State) : Host.Outcome State Fault Refusal :=
  issueWord (.barg o) (fun c s =>
    if (s.grp c.gi).nbarg ≤ o.imm.toNat then c.trap s .illegal
    else c.arrives s (.gridBarrier o.imm.toNat)) s

/-- EVRD (R251). -/
def execEvrd (o : VOps) (s : State) : Host.Outcome State Fault Refusal :=
  issueWord (.evrd o) (fun c s =>
    let g := s.grp c.gi
    let k := bitsN o.mod 3 0
    .done (c.putS s o.d (if bitAt o.mod 4 then g.box.getD k 0 else g.ctr.getD k 0))) s

/-- EVADD (R251): applied at issue. -/
def execEvadd (o : VOps) (s : State) : Host.Outcome State Fault Refusal :=
  issueWord (.evadd o) (fun c s =>
    let a := c.uni s o.a
    .done (a.2.addCounter c.gi (bitsN o.mod 3 0) a.1)) s

end Sys2Proof.Machine
end

