-- ==== Sys2Proof/Machine/Convert.lean ====
section
/-! DEFINITION. The conversion instructions and RAND (file 11 R281 to R286, R289; file 06 R165, R174, R175, R184, R185). -/

namespace Sys2Proof.Machine

/-- The format of bits [7:4] of MOD (R156). -/
def fmtOf (mod : BitVec 8) : Fmt := (Fmt.ofCode (bitsN mod 7 4)).getD .fp32

/-- CVT (R283). -/
def execCvt (o : VOps) (s : State) : Host.Outcome State Fault Refusal :=
  issueWord (.cvt o) (fun c s => c.lane1 s o.d o.a (fun a => cvt (fmtOf o.mod) (rmOf o.mod) (satOf o.mod) a)) s

/-- CVTSR (R284): CVT under SR, with the random value of B. -/
def execCvtsr (o : VOps) (s : State) : Host.Outcome State Fault Refusal :=
  issueWord (.cvtsr o) (fun c s => c.lane2 s o.d o.a o.b (fun a b => cvt (fmtOf o.mod) (.sr (bitsN b 23 0)) (satOf o.mod) a)) s

/-- n consecutive source registers, or one scalar or special source n times: their lanes and the lanewise tag of them all. -/
def Ctx.vecs (c : Ctx) (s : State) (r : RegCode) : Nat → List (List W32) × Tag × State
  | 0 => ([], .u, s)
  | n + 1 =>
    let x := c.vec s r
    let rest := c.vecs x.2.2 (if isV r then r + 1 else r) n
    (x.1 :: rest.1, lanewise [x.2.1, rest.2.1], rest.2.2)

/-- The elements of a block of QBLK: register and lane, block m of 16 lanes in each of n registers (R285). -/
def blockPlaces (n m : Nat) : List (Nat × Nat) := (List.range n).flatMap (fun j => (List.range 16).map (fun t => (j, 16 * m + t)))

/-- Blocks of lanes quantised (R285): for each register, lane values with their flags. `act` are the lanes that count, `wr` those written. -/
def quantise (f : Fmt) (sr : Bool) (code : Nat) (a b : List (List W32)) (act wr : BitVec 64) : List (List W32) × Flags :=
  let n := a.length
  let at_ := fun (l : List (List W32)) (p : Nat × Nat) => (l.getD p.1 []).getD p.2 0
  let scale := (List.range 4).map (fun m =>
    blockScale f ((blockPlaces n m).filter (fun p => act.getLsbD p.2) |>.map (fun p => f32 (at_ a p))))
  let one := fun (p : Nat × Nat) =>
    let e := scale.getD (p.2 / 16) 127
    let r := blockElem f e (Rm.ofCode code (if sr then at_ b p else 0)) (at_ a p)
    (BitVec.ofNat 32 (e * 2 ^ 24 + r.1), if wr.getLsbD p.2 then r.2 ||| (if e = 255 then fNV else 0) else 0)
  let rs := (List.range n).map (fun j => (List.range 64).map (fun i => one (j, i)))
  (rs.map (fun l => l.map Prod.fst), rs.foldl (fun x l => l.foldl (fun x r => x ||| r.2) x) 0)

/-- QBLK (R285). -/
def execQblk (o : VOps) (s : State) : Host.Outcome State Fault Refusal :=
  issueWord (.qblk o) (fun c s =>
    let n := qblkSpan o.mod
    let code := bitsN o.mod 2 0
    let sr := code == 4
    let a := c.vecs s o.a n
    let b := if sr then c.vecs a.2.2 o.b n else ([], .u, a.2.2)
    let wr := if c.full then BitVec.allOnes 64 else c.act
    let q := quantise (fmtOf o.mod) sr code a.1 b.1 c.act wr
    let tag := lanewise [a.2.1, b.2.1]
    let s1 := (List.range n).foldl (fun s j => c.putV s (o.d + BitVec.ofNat 8 j) (q.1.getD j []) tag) b.2.2
    .done (c.flags s1 q.2)) s

/-- DQBLK (R286). -/
def execDqblk (o : VOps) (s : State) : Host.Outcome State Fault Refusal :=
  issueWord (.dqblk o) (fun c s => c.lane2 s o.d o.a o.b (fun a b => dqblk (fmtOf o.mod) a b)) s

/-- One lane of RAND (R184, R185): its four words. -/
def randLane (key : W64) (b : List (List W32)) (i : Nat) : W32 × W32 × W32 × W32 :=
  let w := fun (k : Nat) => (b.getD k []).getD i 0
  philox (w 0, w 1, w 2, BitVec.ofNat 32 (bitsN (w 3) 25 0 * 64 + i)) (key.setWidth 32) (key.extractLsb' 32 32) 10

/-- RAND (R289): every source is read before any destination is written. -/
def execRand (o : VOps) (s : State) : Host.Outcome State Fault Refusal :=
  issueWord (.rand o) (fun c s =>
    let k := c.uni s o.a
    let b := c.vecs k.2 o.b 4
    let rs := (List.range 64).map (fun i => randLane k.1 b.1 i)
    let s1 := c.putV b.2.2 o.d (rs.map (fun r => r.1)) .g
    let s2 := c.putV s1 (o.d + 1) (rs.map (fun r => r.2.1)) .g
    let s3 := c.putV s2 (o.d + 2) (rs.map (fun r => r.2.2.1)) .g
    .done (c.putV s3 (o.d + 3) (rs.map (fun r => r.2.2.2)) .g)) s

end Sys2Proof.Machine
end

