-- ==== Sys2Proof/Machine/CrossLane.lean ====
section
/-! DEFINITION. The cross-lane instructions, votes, reductions, scans and TAGOF (file 10 R269 to R273). -/

namespace Sys2Proof.Machine

/-- The shift in rule (R258): U where the source and the fill are U with equal values. -/
def fillTag (p q : Tag) (x y : W32) : Tag := if p == .u && q == .u && x == y then .u else .g

/-- The lanes that take part in a tree; the others are ABSENT (R272). -/
def Ctx.present (c : Ctx) (x : List W32) : List (Option W32) :=
  (List.range 64).map (fun i => if c.act.getLsbD i then some (x.getD i 0) else none)

/-- The votes of R270. -/
def vote (kind : Nat) (l : List (Nat × W32)) : W64 :=
  match kind with
  | 0 => maskOf ((l.filter (fun p => p.2 != 0)).map Prod.fst)
  | 1 => if l.any (fun p => p.2 != 0) then 1 else 0
  | 2 => if l.all (fun p => p.2 != 0) then 1 else 0
  | _ => if l.all (fun p => p.2 == (l.headD p).2) then 1 else 0

/-- V2S (R269): a lane of A, zero-extended. -/
def execV2s (o : VOps) (s : State) : Host.Outcome State Fault Refusal :=
  issueWord (.v2s o) (fun c s => 
    let x := c.vec s o.a
    let n := c.uni x.2.2 o.b
    .done (c.putS n.2 o.d ((x.1.getD (n.1.toNat % 64) 0).setWidth 64))) s

/-- SHFL (R269). -/
def execShfl (o : VOps) (s : State) : Host.Outcome State Fault Refusal :=
  issueWord (.shfl o) (fun c s => 
    let x := c.vec s o.a
    let y := c.vec x.2.2 o.b
    .done (c.putV y.2.2 o.d ((List.range 64).map (fun i => x.1.getD ((y.1.getD i 0).toNat % 64) 0)) (if x.2.1 = .u then .u else .g))) s

/-- SHUP (R269). -/
def execShup (o : VOps) (s : State) : Host.Outcome State Fault Refusal :=
  issueWord (.shup o) (fun c s => 
    let x := c.vec s o.a
    let n := c.uni x.2.2 o.b
    let z := c.vec n.2 o.c
    let k := n.1.toNat
    let vals := (List.range 64).map (fun i => if k < 64 ∧ k ≤ i then x.1.getD (i - k) 0 else z.1.getD i 0)
    .done (c.putV z.2.2 o.d vals (fillTag x.2.1 z.2.1 (x.1.getD 0 0) (z.1.getD 0 0)))) s

/-- SHDN (R269). -/
def execShdn (o : VOps) (s : State) : Host.Outcome State Fault Refusal :=
  issueWord (.shdn o) (fun c s => 
    let x := c.vec s o.a
    let n := c.uni x.2.2 o.b
    let z := c.vec n.2 o.c
    let k := n.1.toNat
    let vals := (List.range 64).map (fun i => if k < 64 ∧ i + k ≤ 63 then x.1.getD (i + k) 0 else z.1.getD i 0)
    .done (c.putV z.2.2 o.d vals (fillTag x.2.1 z.2.1 (x.1.getD 0 0) (z.1.getD 0 0)))) s

/-- SHXOR (R269). -/
def execShxor (o : VOps) (s : State) : Host.Outcome State Fault Refusal :=
  issueWord (.shxor o) (fun c s => 
    let x := c.vec s o.a
    let n := c.uni x.2.2 o.b
    .done (c.putV n.2 o.d ((List.range 64).map (fun i => x.1.getD (i ^^^ (n.1.toNat % 64)) 0)) (if x.2.1 = .u then .u else .g))) s

/-- VOTE (R270), over the lanes that act. -/
def execVote (o : VOps) (s : State) : Host.Outcome State Fault Refusal :=
  issueWord (.vote o) (fun c s => 
    let x := c.vec s o.a
    .done (c.putS x.2.2 o.d (vote (bitsN o.mod 1 0) ((lanesOf c.act).map (fun i => (i, x.1.getD i 0)))))) s

/-- REDUCE (R272). -/
def execReduce (o : VOps) (s : State) : Host.Outcome State Fault Refusal :=
  issueWord (.reduce o) (fun c s => 
    let x := c.vec s o.a
    let code := bitsN o.mod 3 0
    let rs := levels (reduceLevel (treeOp code (Rm.ofCode (bitsN o.mod 6 4) 0))) (c.present x.1)
    let v := (rs.1.getD 0 none).getD (treeIdentity code)
    .done (c.flags (c.putV x.2.2 o.d (List.replicate 64 v) .u) rs.2)) s

/-- SCAN (R272): inclusive, or exclusive with the identity where nothing comes before. An exited lane receives of a full exclusive SCAN what R179's
exclusive form has at its index, the value before it (log entry 30). -/
def execScan (o : VOps) (s : State) : Host.Outcome State Fault Refusal :=
  issueWord (.scan o) (fun c s => 
    let x := c.vec s o.a
    let code := bitsN o.mod 3 0
    let rs := levels (scanLevel (treeOp code (Rm.ofCode (bitsN o.mod 6 4) 0))) (c.present x.1)
    let vals := (List.range 64).map (fun i =>
      (if bitAt o.mod 7 then (if i = 0 then none else rs.1.getD (i - 1) none) else rs.1.getD i none).getD (treeIdentity code))
    .done (c.flags (c.putV x.2.2 o.d vals .g) rs.2)) s

/-- The register that TAGOF reads, as a whole (R273): a scalar is U with its low 32 bits, as one write or the other left them. -/
def Ctx.whole (c : Ctx) (s : State) (r : RegCode) : VReg × State :=
  if isV r then s.readWhole c.gi r c.t
  else if isS r then
    let x := c.uni s r
    (⟨.u, List.replicate 64 (x.1.setWidth 32)⟩, x.2)
  else
    let x := c.vec s r
    (⟨x.2.1, x.1⟩, x.2.2)

/-- TAGOF (R273). -/
def execTagof (o : VOps) (s : State) : Host.Outcome State Fault Refusal :=
  issueWord (.tagof o) (fun c s =>
    let r := c.whole s o.a
    let v := match r.1.tag with
      | .u => r.1.lane 0
      | .a => strideOf r.1.lanes
      | .g => 0
    .done (c.putS r.2 o.d (v ++ BitVec.ofNat 32 r.1.tag.code))) s

end Sys2Proof.Machine
end

