-- ==== Sys2Proof/Machine/EnginesMatrix.lean ====
section
/-! DEFINITION. The engine and matrix instructions (file 12 R309 to R311, R317 to R324, file 05): BULK, OBRES, OBREL, OBLOAD, MODE, MZERO,
MOP, MSYNC, MDRAIN. -/

namespace Sys2Proof.Machine

/-- A status that is known at issue: the slot clears at once. -/
def Ctx.statusNow (c : Ctx) (s : State) (d : RegCode) (kind : OpKind) (st : Nat) : Res :=
  let (id, s1) := c.issueOp s d 1 kind
  .done (s1.endStatus c.gi id (BitVec.ofNat 64 st))

/-- BULK (R309 to R311). -/
def execBulk (o : VOps) (s : State) : Host.Outcome State Fault Refusal :=
  issueWord (.bulk o) (fun c s =>
    if c.accHeld s then .hold s
    else
      let a := c.uni s o.a
      let b := c.uni a.2 o.b
      let e := c.uni b.2 o.c
      let s1 := e.2
      let g := s1.grp c.gi
      let ss := spaceOf (bitAt o.mod 0)
      let ds := spaceOf (bitAt o.mod 1)
      let len := bitsN e.1 63 32
      match s1.copyPlan g.func g.pkg ss ds a.1.toNat b.1.toNat len (bitsN e.1 31 0) with
      | .error (cause, addr) => Res.at_ s1 cause addr
      | .ok p =>
        if !s1.copyEngine g.func (g.pkg / 64) then c.statusNow s1 o.d (.bulk none) stNoengine
        else match c.leave s1 with
          | some r => r
          | none =>
            if s1.listing c.gi then .hold s1
            else
              let rel := bitAt o.mod 4
              let (id, s2) := c.issueOp s1 o.d 1 (.bulk (if rel then some 3 else none))
              let s3 := if rel then s2.sealEscrow c.gi 3 id else s2
              let entry := Entry.fresh_ id (.linear ss ds p.src p.dst len) (.bulk c.gi id) g.func g.name g.rclass g.pkg p.till
              .done (s3.placeCopy (bitsN o.mod 3 2) { entry with rel := if rel then id else 0 } ds p.dst len)) s

/-! The operand buffer -/

/-- The record that MOD names (R317). -/
def obNum (mod : BitVec 8) : Nat := bitsN mod 2 0

/-- Whether a record is the current window's A or B record (R135). -/
def Group.inUse (g : Group) (n : Nat) : Bool := g.mm && (n == g.arec || n == g.brec)

/-- A record as reserved: V and BASE filled in (R133). -/
def obFilled (x : W64) (base : Nat) : W64 := setBits (setBits x 63 63 1) 62 51 base

/-- OBRES (R318, R133 to R135): the old range is released first; FULL leaves the record invalid. -/
def execObres (o : VOps) (s : State) : Host.Outcome State Fault Refusal :=
  issueWord (.obres o) (fun c s =>
    if c.slotFull s then .hold s
    else
      let a := c.uni s o.a
      let x := a.1
      let s1 := a.2
      let g := s1.grp c.gi
      let n := obNum o.mod
      if 10 ≤ obFmt x then c.trap s1 .illegal
      else if g.inUse n || !obDescOk x then c.trap s1 .obrange
      else if g.loading n then .hold s1
      else
        let s2 := s1.modGrp c.gi (fun g => { g with obrec := setNth g.obrec n 0 })
        match firstRun (s2.usedLines g.pkg g.qtr) (obLen x) with
        | some base =>
          let s3 := (s2.clearBuf (obPlace g.pkg g.qtr base) (64 * obLen x)).tagBuf (obPlace g.pkg g.qtr base) (obLen x) g.func
          let s4 := s3.modGrp c.gi (fun g => { g with obrec := setNth g.obrec n (obFilled x base) })
          .done (c.issueOp s4 o.d 1 (.obres n stOk (obLen x))).2
        | none => .done (c.issueOp s2 o.d 1 (.obres n stFull 0)).2) s

/-- OBREL (R318, R135). -/
def execObrel (o : VOps) (s : State) : Host.Outcome State Fault Refusal :=
  issueWord (.obrel o) (fun c s =>
    let g := s.grp c.gi
    let n := obNum o.mod
    if g.inUse n then c.trap s .obrange
    else if c.slotFull s || g.loading n then .hold s
    else
      let s1 := s.modGrp c.gi (fun g => { g with obrec := setNth g.obrec n 0 })
      .done (c.issueOp s1 o.d 1 (.obres n stOk 0)).2) s

/-- OBLOAD (R318, R136). A MISALIGN names the operand that fails, the source before the destination's offset, and the source where the
length alone does (R448, log entry 32). The group's own stores to the source count as they stand at issue (R118). -/
def execObload (o : VOps) (s : State) : Host.Outcome State Fault Refusal :=
  issueWord (.obload o) (fun c s =>
    if c.accHeld s then .hold s
    else
      let a := c.uni s o.a
      let b := c.uni a.2 o.b
      let e := c.uni b.2 o.c
      let s1 := e.2
      let g := s1.grp c.gi
      let n := obNum o.mod
      let off := a.1.toNat
      let src := bitsN b.1 31 0
      let len := e.1.toNat
      let r := g.obrec.getD n 0
      match s1.tileRange g.func g.pkg src len with
      | none => Res.at_ s1 .space src
      | some p =>
        if p / Config.sliceBytes ≠ g.pkg then Res.at_ s1 .space src
        else if src % 64 ≠ 0 then Res.at_ s1 .misalign src
        else if off % 64 ≠ 0 then Res.at_ s1 .misalign off
        else if len % 64 ≠ 0 then Res.at_ s1 .misalign src
        else if !obValid r || decide (64 * obLen r < off + len) then c.trap s1 .obrange
        else
          let own := s1.ownSeen c.gi 1 .tile ((List.range len).map (fun k => p + k))
          let (id, s2) := c.issueOp s1 0xFF 1 (.obload n off p len own)
          .done (if len = 0 then s2.endOp c.gi id else s2)) s

/-! Matrix mode -/

/-- Whether a register span meets the window at w. -/
def meetsWindow (w : Nat) (r : RegCode) (span : Nat) : Bool := isV r && decide (r.toNat < w + 64 ∧ w < r.toNat + span)

/-- The window's accumulators set to zero (R138, R146). -/
def Group.zeroWindow (g : Group) : Group :=
  { g with
    acc := .zeroed
    v := (List.range g.v.length).map (fun n => if g.wbase ≤ n ∧ n < g.wbase + 64 then ⟨.g, List.replicate 64 0⟩ else g.vreg n) }

/-- MODE.m (R319, R320, R137, R138). It waits for the operations that target a register of the window, not for others that share their slots (log
entry 53). -/
def execModeM (o : VOps) (s : State) : Host.Outcome State Fault Refusal :=
  issueWord (.modeM o) (fun c s =>
    let g := s.grp c.gi
    let w := o.d.toNat
    let ra := g.obrec.getD (bitsN o.mod 4 2) 0
    let rb := g.obrec.getD (bitsN o.mod 7 5) 0
    if !obValid ra || !obValid rb || !pairOk (obFmt ra) (obFmt rb) then c.trap s .obrange
    else if g.pendw.any (fun p => meetsWindow w p.reg 1 && decide (c.t < p.ready)) || g.ops.any (fun p => meetsWindow w p.dest p.span) then
      .hold s
    else .done (s.modGrp c.gi (fun g =>
      let g1 : Group := { g with
        mm := true, wbase := w, arec := bitsN o.mod 4 2, brec := bitsN o.mod 7 5, acc := .kept
        wtags := (List.range 64).map (fun j => (g.vreg (w + j)).tag) }
      if bitAt o.mod 1 then g1.zeroWindow else g1))) s

/-- Whether a MOP, or the window read of an MDRAIN, of the group is still to come (R145 to R147). -/
def Group.arrayBusy (g : Group) : Bool := g.multiplying || g.draining

/-- Whether, besides, a multiply-class result is still to be written at clock t (R131, R145, R147). -/
def Group.arrayWork (g : Group) (t : Nat) : Bool := g.arrayBusy || g.pendw.any (fun w => w.array && decide (t < w.ready))

/-- The window's registers back in vector mode, with the tags of R145. -/
def Group.leaveWindow (g : Group) : Group :=
  { g with
    mm := false
    v := (List.range g.v.length).map (fun n =>
      if g.wbase ≤ n ∧ n < g.wbase + 64 then
        (match g.acc with
          | .zeroed => VReg.zero
          | .kept => ⟨g.wtags.getD (n - g.wbase) .g, (g.vreg n).lanes⟩
          | .other => ⟨.g, (g.vreg n).lanes⟩)
      else g.vreg n) }

/-- MODE.v (R320, R145). -/
def execModeV (o : VOps) (s : State) : Host.Outcome State Fault Refusal :=
  issueWord (.modeV o) (fun c s => if (s.grp c.gi).arrayWork c.t then .hold s else .done (s.modGrp c.gi Group.leaveWindow)) s

/-- MZERO (R321, R146). -/
def execMzero (o : VOps) (s : State) : Host.Outcome State Fault Refusal :=
  issueWord (.mzero o) (fun c s => if (s.grp c.gi).arrayBusy then .hold s else .done (s.modGrp c.gi Group.zeroWindow)) s

/-- MOP (R321, R131, R136, R140): it enters the quarter's array queue. -/
def execMop (o : IOps) (s : State) : Host.Outcome State Fault Refusal :=
  issueWord (.mop o) (fun c s =>
    let g := s.grp c.gi
    let b := o.imm.toNat
    if obK (g.obrec.getD g.arec 0) / 48 ≤ b ∨ obK (g.obrec.getD g.brec 0) / 48 ≤ b then c.trap s .obrange
    else if c.slotFull s || g.loading g.arec || g.loading g.brec || g.draining ||
        decide (Config.arrayMax ≤ (s.quarter g.pkg g.qtr).arrayQ.length) then .hold s
    else
      let (id, s1) := c.issueOp s 0xFF 1 (.mop b)
      .done (s1.modQuarter g.pkg g.qtr (fun x => { x with arrayQ := x.arrayQ ++ [(c.gi, id)] }))) s

/-- MSYNC (R321, R147), in either mode. -/
def execMsync (o : VOps) (s : State) : Host.Outcome State Fault Refusal :=
  issueWord (.msync o) (fun c s => if (s.grp c.gi).arrayWork c.t then .hold s else .done s) s

/-- Target code of an INT32 drain (R156). -/
def fmtInt32 : Nat := 8

/-- MDRAIN (R322, R323, R149 to R152): its entry takes its queue place, and starts once the window is read. -/
def execMdrain (o : VOps) (s : State) : Host.Outcome State Fault Refusal :=
  issueWord (.mdrain o) (fun c s =>
    let g0 := s.grp c.gi
    let target := bitsN o.mod 7 4
    let isInt := obFmt (g0.obrec.getD g0.arec 0) == 7
    if target = fmtInt32 ∧ isInt = false then c.trap s .illegal
    else if c.accHeld s then .hold s
    else
      let a := c.uni s o.a
      let b := c.uni a.2 o.b
      let e := c.uni b.2 o.c
      let s1 := e.2
      let g := s1.grp c.gi
      let till := bitsN e.1 31 0
      let t := ownPlace g.pkg till
      if bitsN a.1 63 57 ≠ 0 then Res.at_ s1 .space a.1.toNat
      else if a.1.toNat % 64 ≠ 0 then Res.at_ s1 .misalign a.1.toNat
      else if till ≠ 0 ∧ t = none then Res.at_ s1 .space till
      else if till % 8 ≠ 0 then Res.at_ s1 .misalign till
      else if !s1.copyEngine g.func (g.pkg / 64) then c.statusNow s1 o.d (.mdrain stNoengine) stNoengine
      else match c.leave s1 with
        | some r => r
        | none =>
          if s1.listing c.gi then .hold s1
          else
            let (id, s2) := c.issueOp s1 o.d 1 (.mdrain stOk)
            let entry := Entry.fresh_ id (.drain [] isInt target (bitAt o.mod 3) (bitAt o.mod 2) (bitsN o.mod 1 0) (sextI (bitsN b.1 31 0) 32)
              (sextI (bitsN b.1 63 32) 32) a.1.toNat) .drain g.func g.name g.rclass g.pkg (if till = 0 then 0 else t.getD 0 + 1)
            .done (s2.pushEntry (bitsN e.1 33 32) { entry with rel := id })) s

end Sys2Proof.Machine
end

