-- ==== Sys2Proof/Machine/Fabric.lean ====
section
/-! DEFINITION. The Phieth fabric (file 24): requests of peers, dead planes, silent peers, windows, reductions, the egress escrow. An event
that is not enabled leaves the state as it is. -/

namespace Sys2Proof.Machine

/-- Kinds of answers to the fabric. -/
abbrev ansFabric : Nat := 4
abbrev ansFenced : Nat := 5
abbrev ansHeartbeat : Nat := 3

/-- MAP of a logical plane (R433), and the physical plane of an address's line (R432). -/
def State.mapOf (s : State) (l : Nat) : Nat := s.regN offPlremap (3 * l + 2) (3 * l)
def State.planeOf (s : State) (pa : Nat) : Nat := s.mapOf (logicalPlane pa)

/-! Requests of peers (R434) -/

/-- Bytes of a fabric request, and what kind of access it is (R411). -/
def fabricBytes : FabricOp → Nat
  | .load bytes => bytes
  | .store data => data.length
  | .atomic _ width _ _ => 2 ^ width
def fabricAccess : FabricOp → Nat
  | .load _ => accRead
  | .store _ => accWrite
  | .atomic .. => accAtomic

/-- A peer's atomic at system scope: its value before, and the state after it (R106, R298). -/
def State.peerAtomic (s : State) (pa op width : Nat) (b x : W64) : W64 × State :=
  let n := 2 ^ width
  let m := ofBytesLE (s.devRead .glob pa n)
  match atomVal op (8 * n) m (b.toNat % 2 ^ (8 * n)) (x.toNat % 2 ^ (8 * n)) with
  | some v => (BitVec.ofNat 64 m, s.devWriteBytes .glob pa (bytesLE n v) none true)
  | none => (BitVec.ofNat 64 m, s)

/-- FABRIC_REQUEST (R434): served in the exported window in its world, else answered FENCED; a frame that the world does not own has a
PAGE record as well. A write of no length is checked as its first byte is (R116). -/
def execFabricRequest (ep off : Nat) (op : FabricOp) (s : State) : Host.Outcome State Fault Refusal :=
  let n := fabricBytes op
  let f := s.regN offExpwin 62 57
  if !s.hasEndpoint ep then .next s
  else match s.exported off (max 1 n) with
    | none => .next (s.say (.word ansFenced 0))
    | some pa =>
      if !(List.range (max 1 n)).all (fun k => s.frameOk f (pa + k)) then
        .next ((s.raiseLog f evPage (xfaultPayload pa (fabricAccess op) 0) 0 none).say (.word ansFenced 0))
      else match op with
        | .load bytes =>
          if (List.range bytes).any (fun k => s.poisoned .glob (pa + k)) then .next (s.say (.word ansPoison 0))
          else .next (s.say (.bytes ansFabric (s.devRead .glob pa bytes)))
        | .store data => .next ((s.hostWrite pa data).say (.word ansFabric 0))
        | .atomic op width b x =>
          if (List.range n).any (fun k => s.poisoned .glob (pa + k)) then .next (s.say (.word ansPoison 0))
          else
            let r := s.peerAtomic pa op width b x
            .next (r.2.say (.word ansFabric r.1))

/-! Fencing what is outstanding (R435, R436, R438) -/

/-- The lanes of an operation that are outstanding to an address of p end without their effect; the group owes PAGE once the operation's slot has
cleared (R435). Of a lane whose bytes are still to come a free bit tells whether its packet has been sent: one that has not is sent later (R436). -/
def State.fenceLanes (s : State) (gi id : Nat) (p : Nat → Bool) : State :=
  match (s.grp gi).op id with
  | none => s
  | some o =>
    if (s.grp gi).behindAcquire id then s
    else
      let d := s.drawN 64
      let cut := o.accs.filter (fun a => a.place.any p && d.1 a.lane)
      let kept := fun (accs : List Acc) => accs.filter (fun a => !cut.any (fun x => x.lane == a.lane))
      let set := fun (k : OpKind) (kind access : Nat) => d.2.modGrp gi (fun g =>
        cut.foldl (fun g a => g.owePage id (g.accVa kind a ((a.place.find? p).getD 0)) access) (g.setOp id (fun o => { o with kind := k })))
      match o.kind with
      | .load kind mod .glob scope width acq accs own got =>
        set (.load kind mod .glob scope width acq (kept accs) own (got.filter (fun x => !cut.any (fun a => a.lane == x.1)))) kind accRead
      | .atomic .glob op scope width acq false accs b x got => set (.atomic .glob op scope width acq false (kept accs) b x got) 2 accAtomic
      | .atomp slot width acq false accs b x got => set (.atomp slot width acq false (kept accs) b x got) 2 accAtomic
      | _ => s

/-- Whether a commit step's turn has come (R98, R119, R120): its sectors may be on their way. -/
def Group.sending (g : Group) (o : Op) : Bool :=
  !g.commitsBefore o.id && !g.behindAcquire o.id && !g.indebted &&
  (match o.kind with
    | .commit .. => true
    | .abort _ => false
    | _ => !g.ops.any (fun x => decide (x.id < o.id) && x.awaited))

/-- Whether an entry of escrow may be on its way to its destination: it is covered by a commit step at device or system scope whose turn has come, or
by the exit commit (R54). -/
def State.onItsWay (s : State) (e : Esc) : Bool :=
  let g := s.grp e.owner
  e.space == .glob && e.level != .priv &&
  (match g.op (g.sealOp e.sealId) with
    | some o => decide (3 ≤ o.commitStep.getD 0) && g.sending o
    | none => g.dying && g.ops.isEmpty && g.debt.isEmpty)

/-- The groups that wait on monitors of lines of p woken (R37, R435). -/
def State.wakeWhere (s : State) (p : Nat → Bool) : State :=
  (s.grpsWhere (fun g => g.st == .suspended && (match g.cond with
    | .monitor _ pa _ => p pa
    | _ => false))).foldl (fun s g => s.wake g false) s

/-- The sectors of the egress escrow that satisfy p and have been sent, answered FENCED, the oldest first. Of each a free bit tells whether it has
been sent; a sector is sent behind the older ones of its place (log entry 26). -/
def State.fenceEgress (s : State) (p : Egress → Bool) : State :=
  let d := s.drawN s.egress.length
  let all := s.egress.zip (List.range s.egress.length)
  let sent := fun (x : Egress × Nat) => p x.1 && all.all (fun y => y.1.sector != x.1.sector || decide (x.2 < y.2) || d.1 y.2)
  (all.filter sent).foldl (fun s x =>
    if s.egress.contains x.1 then ({ s with egress := s.egress.erase x.1 } : State).egressFenced x.1 else s) d.2

/-- Every access outstanding to addresses of p, and in the egress escrow those of `pe`, answered FENCED: loads and atomics, sectors that a commit
is moving, sectors in the egress escrow, monitors. Of each sector a free bit tells whether it has been sent (log entry 26). -/
def State.fenceOut (s : State) (p : Nat → Bool) (pe : Egress → Bool) : State :=
  let ops := (s.grpsWhere (fun g => g.alive)).flatMap (fun g => (s.grp g).ops.map (fun o => (g, o.id)))
  let s1 := ops.foldl (fun s o => s.fenceLanes o.1 o.2 p) s
  let s2 := (s1.escrow.filter (fun e => s1.onItsWay e && p e.sector)).foldl (fun s e =>
    let d := s.draw
    if d.1 then d.2.discardEsc e else d.2) s1
  (s2.fenceEgress pe).wakeWhere p

/-! Planes (R432, R436) -/

/-- Planes that are live once p is dead, in the order in which a logical plane of p takes them. -/
def State.livePlanes (s : State) (p : Nat) : List Nat :=
  ((List.range 7).map (fun k => (p + 1 + k) % 8)).filter (fun k => bitAt (s.reg offReady) (5 + k) && !bitAt (s.reg offPlremap) (24 + k))

/-- The sprayed packets that stand on plane p put on the next live plane (R436). -/
def State.resendSprayed (s : State) (p : Nat) : State :=
  { s with egress := s.egress.map (fun e => if e.plane = some p then { e with plane := (s.livePlanes p).head? } else e) }

/-- The steps of R436 once plane p is dead: its bits, its outstanding accesses answered FENCED and its sprayed packets resent on a live plane, and
each logical plane that maps to it given the next live one. Packets held meanwhile lose nothing. -/
def State.declareDead (s : State) (p : Nat) : State :=
  let s1 := (s.setRegN offPlremap (24 + p) (24 + p) 1).setRegN offReady (5 + p) (5 + p) 0
  let mine := fun (pa : Nat) => regionOf pa == 3 && s1.planeOf pa == p
  let s2 := (s1.fenceOut mine (fun e => e.plane.isNone && mine e.sector)).resendSprayed p
  match (s2.livePlanes p).head? with
  | none => s2
  | some q => (List.range 8).foldl (fun (s : State) l => if s.mapOf l = p then s.setRegN offPlremap (3 * l + 2) (3 * l) q else s) s2

/-- PLANE_DEAD (R436): link 0 or 1 of a plane fails or drops out of service; the plane is dead once both have, and one that is left carries it. -/
def execPlaneDead (l : FabricLink) (s : State) : Host.Outcome State Fault Refusal :=
  let p := l.plane
  let link := l.which
  if 7 < p ∨ 1 < link ∨ s.fabric.deadLinks.contains (2 * p + link) = true then .next s
  else
    let s1 : State := { s with fabric := { s.fabric with deadLinks := s.fabric.deadLinks ++ [2 * p + link] } }
    .next (if s.fabric.deadLinks.contains (2 * p + (1 - link)) then s1.declareDead p else s1)

/-! Heartbeats, fencing and takeover (R437 to R439) -/

/-- Window fields. -/
def State.winState (s : State) (n : Nat) : Nat := s.regN (offWin n) 1 0
def State.winEp (s : State) (n : Nat) : Nat := s.regN (offWin n) 47 32
def State.winTkov (s : State) (n : Nat) : Bool := bitAt (s.reg (offWin n)) 2

/-- Endpoints that are watched. -/
def State.watched (s : State) : List Nat := dedupN (((List.range 64).filter (fun n => s.winState n == 1)).map (fun n => s.winEp n))

/-- Live links: those in service of each plane that is ready and not dead (R436). -/
def State.liveLinks (s : State) : List Nat :=
  (List.range 16).filter (fun k => bitAt (s.reg offReady) (5 + k / 2) && !bitAt (s.reg offPlremap) (24 + k / 2) && !s.fabric.deadLinks.contains k)

/-- HEARTBEAT_SEND (R437): once every PERIOD hub clocks, on every live link; a period of the watcher's clock ends for every watched endpoint. The
period in which a heartbeat came does not count. -/
def execHeartbeatSend (s : State) : Host.Outcome State Fault Refusal :=
  let period := s.regN offHbcfg 31 0
  if period = 0 ∨ s.hubClk < s.fabric.sent + period then .next s
  else
    let missed := (s.watched.filter (fun ep => !s.fabric.heard.contains ep)).foldl (fun l ep => setKey l ep (lookupD l ep 0 + 1)) s.fabric.missed
    let s1 : State := { s with fabric := { s.fabric with sent := s.hubClk, missed := missed, heard := [] } }
    .next (s1.liveLinks.foldl (fun s k => s.say (.word ansHeartbeat (BitVec.ofNat 64 (65536 * k + s.regN offOwnep 15 0)))) s1)

/-- HEARTBEAT_ARRIVAL (R437): the count of periods without one starts again with the period after this one. -/
def execHeartbeatArrival (ep : Nat) (s : State) : Host.Outcome State Fault Refusal :=
  .next { s with fabric := { s.fabric with missed := dropKey s.fabric.missed ep, heard := s.fabric.heard.filter (fun e => e ≠ ep) ++ [ep] } }

/-- PEER_SILENT (R437, R438): after 8 whole periods without a heartbeat the entry is FENCED, what is outstanding to its endpoint is answered
so, a takeover partner claims the endpoint, and PLDM monitoring reports the silence (R430). -/
def execPeerSilent (n : Nat) (s : State) : Host.Outcome State Fault Refusal :=
  let ep := s.winEp n
  if 63 < n ∨ s.winState n ≠ 1 ∨ s.regN offHbcfg 31 0 = 0 ∨ lookupD s.fabric.missed ep 0 < 8 then .next s
  else
    let mine := fun (pa : Nat) => regionOf pa == 3 && fabricEp pa == ep
    let s1 := (s.setRegN (offWin n) 1 0 2).fenceOut mine (fun e => mine e.sector)
    let claims := if s.winTkov n && !s1.fabric.claims.any (fun c => c.1 == ep) then s1.fabric.claims ++ [(ep, [])] else s1.fabric.claims
    .next { s1 with fabric := { s1.fabric with claims := claims, silent := s1.fabric.silent.filter (fun x => x ≠ ep) ++ [ep] } }

/-- ENDPOINT_CLAIM_ACK (R438): from a live plane's acknowledgement on, that plane delivers the endpoint's requests here. -/
def execEndpointClaimAck (ep plane : Nat) (s : State) : Host.Outcome State Fault Refusal :=
  if plane ≤ 7 ∧ bitAt (s.reg offReady) (5 + plane) = true then
    .next { s with fabric := { s.fabric with claims := s.fabric.claims.map (fun c =>
      if c.1 = ep ∧ c.2.contains plane = false then (c.1, c.2 ++ [plane]) else c) } }
  else .next s

/-- The claim of an endpoint whose entry the driver reopens: the fleet manager may have given it back in the switches, which a free bit tells; requests
for it then go to the device that holds it now (R439, log entry 58). -/
def State.giveBack (s : State) (ep : Nat) : State :=
  if s.fabric.claims.any (fun c => c.1 == ep) then
    let d := s.draw
    if d.1 then { d.2 with fabric := { d.2.fabric with claims := d.2.fabric.claims.filter (fun c => c.1 ≠ ep) } } else d.2
  else s

/-- WINDOW_ENTRY_WRITE (R433, R435, R439): a write of STATE 3 is ignored; an entry that opens is watched anew, and its peer is reported silent
no more; a monitor on a line that the write fences wakes its group. -/
def execWindowEntryWrite (n : Nat) (value : W64) (s : State) : Host.Outcome State Fault Refusal :=
  if 63 < n ∨ bitsN value 1 0 = 3 then .next s
  else
    let s1 := s.setReg (offWin n) (value &&& 0x0000FFFF00000007)
    if bitsN value 1 0 = 1 then
      let ep := s1.winEp n
      .next (({ s1 with fabric := { s1.fabric with
        missed := dropKey s1.fabric.missed ep, heard := s1.fabric.heard ++ [ep], silent := s1.fabric.silent.filter (fun x => x ≠ ep) } } : State).giveBack ep)
    else .next (s1.wakeWhere (fun pa => s1.fenced pa && !s.fenced pa))

/-! Reductions (R181, R445) -/

def colCount (w : List W64) : Nat := bitsN (w.getD 2 0) 63 32
def colL (w : List W64) : Int := sextI (bitsN (w.getD 2 0) 24 16) 9
/-- The format of contributions and result, with its width in bytes. -/
def colFmt (w : List W64) : Option (Fmt × Nat) :=
  match bitsN (w.getD 2 0) 7 4 with
  | 0 => some (.fp32, 4)
  | 1 => some (.fp16, 2)
  | 2 => some (.bf16, 2)
  | 8 => some (.int32, 4)
  | _ => none

/-- Whether a record's fields are good ones. -/
def colOk (w : List W64) : Bool :=
  (colFmt w).isSome && colCount w != 0 && bitsN (w.getD 2 0) 31 25 == 0 && bitsN (w.getD 2 0) 15 8 == 0 && bitsN (w.getD 2 0) 3 0 == 0 &&
  bitsN (w.getD 3 0) 63 16 == 0 && w.getD 6 0 == 0 && w.getD 7 0 == 0 && decide (-160 ≤ colL w ∧ colL w ≤ 127)

/-- A reduction added to those under way. -/
def State.keepColl (s : State) (c : Coll) : State := { s with fabric := { s.fabric with colls := s.fabric.colls ++ [c] } }

/-- A reduction's end: STATUS, then counter 0 of CNAME (R445); while STATUS waits for its translation the reduction stands ended. -/
def State.endColl (s : State) (c : Coll) (status : Nat) : State :=
  let signal := fun (t : State) => if c.words.getD 5 0 = 0 then t else t.deviceSignal c.func (c.words.getD 5 0) (.signal 0 1)
  match s.hubPut c.func (c.addr + 32) (bytesLE 8 status) true with
  | .hold s1 => s1.keepColl { c with status := some status }
  | .done s1 => signal s1
  | .fail s1 => signal s1

/-- A record read and checked: it is under way, refused, or still to be read. -/
def State.takeColl (s : State) (c : Coll) : State :=
  match s.readRecord c.func c.addr with
  | .hold s1 => s1.keepColl c
  | .bad => s
  | .words w s1 =>
    let d := { c with words := w }
    if !colOk w then s1.endColl d stDenied
    else if s1.regN (offPart (s1.partOf c.func) 5) 27 20 = 0 then s1.endColl d stNoengine
    else s1.keepColl d

/-- COLLECTIVE_SUBMIT (R445): COLLDB written. -/
def execCollectiveSubmit (value : W64) (s : State) : Host.Outcome State Fault Refusal :=
  let (id, s1) := (s.setReg offColldb (value &&& 0x01FFFFFFFFFFFFFF)).fresh
  .next (s1.takeColl ⟨id, 64 * bitsN value 56 6, bitsN value 5 0, [], none⟩)

/-- A sum on its way to the root: N, and the bits O, N, P, M (R181). -/
structure CollSum where
  n : Int
  o : Bool
  nan : Bool
  p : Bool
  m : Bool
  deriving DecidableEq, Repr

/-- A value clamped to ±(2^127 − 1), with O where it was. -/
def clampN (x : Int) : Int × Bool :=
  let b : Int := 2 ^ 127 - 1
  if b < x then (b, true) else if x < -b then (-b, true) else (x, false)

/-- Step 1 of R181: a contribution. -/
def contribution (l : Int) (x : Val) : CollSum :=
  match x with
  | .nan => ⟨0, false, true, false, false⟩
  | .inf neg => ⟨0, false, false, !neg, neg⟩
  | .fin neg m e =>
    let r : Int := ((roundUnits neg m e l .rne).1 : Int)
    let c := clampN (if neg then -r else r)
    ⟨c.1, c.2, false, false, false⟩

/-- Step 2: what a switch makes of two; that the order changes nothing is the manual's. -/
def CollSum.add (a b : CollSum) : CollSum :=
  let c := clampN (a.n + b.n)
  ⟨c.1, a.o || b.o || c.2, a.nan || b.nan, a.p || b.p, a.m || b.m⟩

/-- Step 3: the root's result in a format; an integer format holds no infinity or NaN (R168). Where O is set the sum's sign gives the
infinity's; a sum that comes out at 0 has none, and the model takes +∞ (log entry 53). -/
def CollSum.root (c : CollSum) (f : Fmt) (l : Int) : Nat :=
  let neg := decide (c.n < 0)
  let give := fun (x : Val) => (round x .rne f false).1
  if c.nan || (c.p && c.m) then give .nan
  else if c.p || c.m then give (.inf c.m)
  else if c.o then give (.inf neg)
  else if f = .int32 then (w32 (min (2 ^ 31 - 1) (max (-(2 ^ 31)) c.n))).toNat
  else give (.fin neg c.n.natAbs l)

/-- n bytes of a world's global memory read one by one: the bytes, or the state that waits for a translation, or a failure (none). -/
def State.collBytes (s : State) (f a : Nat) : Nat → List Byte → Except (Option State) (List Byte × State)
  | 0, acc => .ok (acc, s)
  | n + 1, acc => match s.hubGet f a 1 with
    | .ok (b, s1) => s1.collBytes f (a + 1) n (acc ++ b)
    | .error .hold => .error (some (s.hubTr 0 f a accRead).2)
    | .error _ => .error none

/-- The state that waits for a translation of one of n bytes to be written; none where no translation is under way. -/
def State.collHeld (s : State) (f a : Nat) : Nat → Option State
  | 0 => none
  | n + 1 => match s.hubTr 0 f a accWrite with
    | (.hold, s1) => some s1
    | (_, s1) => s1.collHeld f (a + 1) n

/-- Bytes written one by one at system scope: how far it came. -/
def State.collPut (s : State) (f a : Nat) : List Byte → Put
  | [] => .done s
  | b :: bs => match s.hubPut f a [b] true with
    | .done s1 => s1.collPut f (a + 1) bs
    | r => r

/-- The result of a reduction: this device's contributions with those of its peers, free values (log entry 13). -/
def collResult (c : Nat) (w : List W64) (f : Fmt) (z : Nat) (own : List Byte) : List Byte :=
  (List.range (colCount w)).flatMap (fun k =>
    let mine := contribution (colL w) (decodeVal f (ofBytesLE ((own.drop (z * k)).take z)))
    let all := (Config.peerContribution c k).foldl (fun a x => a.add (contribution (colL w) (decodeVal f (x.toNat % 2 ^ (8 * z))))) mine
    bytesLE z (all.root f (colL w)))

/-- A state without its c-th reduction. -/
def State.dropColl (s : State) (c : Nat) : State := { s with fabric := { s.fabric with colls := dropNth c s.fabric.colls } }

/-- The result written at system scope, then the reduction's end (R445). -/
def State.putColl (s : State) (x : Coll) (fmt : Fmt) (z : Nat) (own : List Byte) : State :=
  match s.collPut x.func (x.words.getD 1 0).toNat (collResult x.id x.words fmt z own) with
  | .done s1 => s1.endColl x stOk
  | .hold s1 => s1.keepColl x
  | .fail s1 => s1.endColl x stXlate

/-- COLLECTIVE_COMPLETE (R181, R445): the result in DST at system scope, then STATUS, then the step of CNAME's counter. Members that do not
agree, or lack an engine, give the status alone. A record still to be read is read; what waits for a translation stays under way, and nothing of
the result is written while a part of DST does. -/
def execCollectiveComplete (c : Nat) (s : State) : Host.Outcome State Fault Refusal :=
  match s.fabric.colls[c]? with
  | none => .next s
  | some x =>
    let s0 := s.dropColl c
    let dst := (x.words.getD 1 0).toNat
    match x.status, colFmt x.words with
    | some st, _ => .next (s0.endColl x st)
    | none, none => .next (s0.takeColl x)
    | none, some (fmt, z) =>
      if x.words.isEmpty then .next (s0.takeColl x)
      else if !Config.peersAgree x.id then .next (s0.endColl x (if Config.peersDenied x.id then stDenied else stNoengine))
      else match s0.collBytes x.func (x.words.getD 0 0).toNat (z * colCount x.words) [] with
        | .error (some s1) => .next (s1.keepColl x)
        | .error none => .next (s0.endColl x stXlate)
        | .ok (own, s1) => match s1.collHeld x.func dst (z * colCount x.words) with
          | some s2 => .next (s2.keepColl x)
          | none => .next (s1.putColl x fmt z own)

/-! The rest -/

/-- DRAM_REFRESH (R443): it pauses a vault's grants, which the model does not time: nothing changes. -/
def execDramRefresh (vault : Nat) (s : State) : Host.Outcome State Fault Refusal :=
  let _ := vault
  .next s

/-- EGRESS_ESCROW_DRAIN (R97, R128, R435): a sector of the hub's egress escrow reaches its destination, after earlier ones of the same sector
and of the same engine copy; to a fenced endpoint it is discarded. -/
def execEgressEscrowDrain (k : Nat) (s : State) : Host.Outcome State Fault Refusal :=
  match s.egress[k]? with
  | none => .next s
  | some e =>
    if (s.egress.take k).any (fun x => x.sector == e.sector || (e.copy != 0 && x.copy == e.copy)) then .next s
    else .next ((({ s with egress := dropNth k s.egress } : State).servedPage e.sector accWrite).sendEgress e)

end Sys2Proof.Machine
end

