-- ==== Sys2Proof/Machine/Float.lean ====
section
/-! DEFINITION. The floating-point instructions (file 10 R274 to R280). -/

namespace Sys2Proof.Machine

/-- The format family of R279. -/
def pkFmt (mod : BitVec 8) : Fmt := (Fmt.ofCode (bitsN mod 7 4)).getD .fp32

/-- FADD (R275). -/
def execFadd (o : VOps) (s : State) : Host.Outcome State Fault Refusal :=
  issueWord (.fadd o) (fun c s => c.lane2 s o.d o.a o.b (fun a b => fAdd (rmOf o.mod) (satOf o.mod) a b)) s

/-- FSUB (R275). -/
def execFsub (o : VOps) (s : State) : Host.Outcome State Fault Refusal :=
  issueWord (.fsub o) (fun c s => c.lane2 s o.d o.a o.b (fun a b => fSub (rmOf o.mod) (satOf o.mod) a b)) s

/-- FMUL (R275), of the multiply class. -/
def execFmul (o : VOps) (s : State) : Host.Outcome State Fault Refusal :=
  issueWord (.fmul o) (fun c s => c.array s (c.lane2 s o.d o.a o.b (fun a b => fMul (rmOf o.mod) (satOf o.mod) a b))) s

/-- FFMA (R275), of the multiply class. -/
def execFfma (o : VOps) (s : State) : Host.Outcome State Fault Refusal :=
  issueWord (.ffma o) (fun c s => c.array s (c.lane3 s o.d o.a o.b o.c (fun a b e => fFma (rmOf o.mod) (satOf o.mod) a b e))) s

/-- FMIN (R277). -/
def execFmin (o : VOps) (s : State) : Host.Outcome State Fault Refusal :=
  issueWord (.fmin o) (fun c s => c.lane2 s o.d o.a o.b (fun a b => (fMin a b, 0))) s

/-- FMAX (R277). -/
def execFmax (o : VOps) (s : State) : Host.Outcome State Fault Refusal :=
  issueWord (.fmax o) (fun c s => c.lane2 s o.d o.a o.b (fun a b => (fMax a b, 0))) s

/-- FADDMIN (R275). -/
def execFaddmin (o : VOps) (s : State) : Host.Outcome State Fault Refusal :=
  issueWord (.faddmin o) (fun c s => c.lane3 s o.d o.a o.b o.c (fun a b e => fAddMin (rmOf o.mod) (satOf o.mod) a b e)) s

/-- FCMP (R276). -/
def execFcmp (o : VOps) (s : State) : Host.Outcome State Fault Refusal :=
  issueWord (.fcmp o) (fun c s => c.lane2 s o.d o.a o.b (fun a b => (if fCmp (bitsN o.mod 4 2) a b then 1 else 0, 0))) s

/-- FCLASS (R278). -/
def execFclass (o : VOps) (s : State) : Host.Outcome State Fault Refusal :=
  issueWord (.fclass o) (fun c s => c.lane1 s o.d o.a (fun a => (fClass a, 0))) s

/-- FRND (R275). -/
def execFrnd (o : VOps) (s : State) : Host.Outcome State Fault Refusal :=
  issueWord (.frnd o) (fun c s => c.lane1 s o.d o.a (fun a => fRnd (rmOf o.mod) a)) s

/-- FSCALE (R275). -/
def execFscale (o : VOps) (s : State) : Host.Outcome State Fault Refusal :=
  issueWord (.fscale o) (fun c s => c.lane2 s o.d o.a o.b (fun a b => fScale (rmOf o.mod) (satOf o.mod) a b)) s

/-- PKADD (R280). -/
def execPkadd (o : VOps) (s : State) : Host.Outcome State Fault Refusal :=
  issueWord (.pkadd o) (fun c s => c.lane2 s o.d o.a o.b (fun a b => pkAdd (pkFmt o.mod) (rmOf o.mod) (satOf o.mod) a b)) s

/-- PKMUL (R280). -/
def execPkmul (o : VOps) (s : State) : Host.Outcome State Fault Refusal :=
  issueWord (.pkmul o) (fun c s => c.lane2 s o.d o.a o.b (fun a b => pkMul (pkFmt o.mod) (rmOf o.mod) (satOf o.mod) a b)) s

/-- PKFMA (R280), of the multiply class. -/
def execPkfma (o : VOps) (s : State) : Host.Outcome State Fault Refusal :=
  issueWord (.pkfma o) (fun c s => c.array s (c.lane3 s o.d o.a o.b o.c (fun a b e => pkFma (pkFmt o.mod) (rmOf o.mod) (satOf o.mod) a b e))) s

/-- FDOT2 (R280), of the multiply class. -/
def execFdot2 (o : VOps) (s : State) : Host.Outcome State Fault Refusal :=
  issueWord (.fdot2 o) (fun c s => c.array s (c.lane3 s o.d o.a o.b o.c (fun a b e => fDot (pkFmt o.mod) 16 2 (rmOf o.mod) (satOf o.mod) a b e))) s

/-- FDOT4 (R280), of the multiply class. -/
def execFdot4 (o : VOps) (s : State) : Host.Outcome State Fault Refusal :=
  issueWord (.fdot4 o) (fun c s => c.array s (c.lane3 s o.d o.a o.b o.c (fun a b e => fDot (pkFmt o.mod) 8 4 (rmOf o.mod) (satOf o.mod) a b e))) s

/-- FDOT8 (R280), of the multiply class. -/
def execFdot8 (o : VOps) (s : State) : Host.Outcome State Fault Refusal :=
  issueWord (.fdot8 o) (fun c s => c.array s (c.lane3 s o.d o.a o.b o.c (fun a b e => fDot (pkFmt o.mod) 4 8 (rmOf o.mod) (satOf o.mod) a b e))) s

end Sys2Proof.Machine
end

