-- ==== Sys2Proof/Machine/MemoryInstr.lean ====
section
/-! DEFINITION. The memory instructions, atomics, COMMIT, ABORT and PFG (file 11 R290 to R304, file 08 R218 to R221, file 03): their
addresses, the tests of R291 in order, and what they leave outstanding. -/

namespace Sys2Proof.Machine

/-! Addresses (R218) and the tests of R291 -/

/-- How the tests of R291 end: the accesses of the lanes that act, or the word's end. -/
inductive Found4 where
  | ok (accs : List Acc) (s : State)
  | stop (r : Res)
  deriving DecidableEq, Repr

/-- Bytes of an access. -/
def mBytes (mod : BitVec 8) : Nat := 2 ^ mWidth mod

/-- The 32-bit addresses of the lanes: tile-store and private. -/
def Ctx.eas32 (c : Ctx) (s : State) (a : RegCode) (off : Int) : (Nat → Nat) × State :=
  let x := c.vec s a
  (fun i => (x.1.getD i 0 + BitVec.ofInt 32 off).toNat, x.2.2)

/-- The 64-bit addresses of the lanes. -/
def Ctx.eas64 (c : Ctx) (s : State) (a : RegCode) (off : Int) : (Nat → Nat) × State :=
  let x := s.readPair c.gi a c.t
  (fun i => (x.1.getD i 0 + BitVec.ofInt 64 off).toNat, x.2)

/-- The first lane that acts and satisfies a test. -/
def Ctx.first (c : Ctx) (p : Nat → Bool) : Option Nat := (lanesOf c.act).find? p

/-- Tests 1 and 2 of a tile-store access of n bytes; `extra` is a further test of its place (R106). -/
def Ctx.tileAccs (c : Ctx) (s : State) (ea : Nat → Nat) (n : Nat) (extra : Nat → Bool) : Found4 :=
  let g := s.grp c.gi
  let place := fun (i : Nat) => s.tileRange g.func g.pkg (ea i) n
  match c.first (fun i => match place i with
      | some p => !extra p
      | none => true) with
  | some i => .stop (Res.at_ s .space (ea i))
  | none => match c.first (fun i => ea i % n != 0) with
    | some i => .stop (Res.at_ s .misalign (ea i))
    | none => .ok ((lanesOf c.act).map (fun i => ⟨i, ea i, (List.range n).map (fun k => (place i).getD 0 + k)⟩)) s

/-- Translations for a list of reported address and page, until one is not found: pairs of page and frame, or what was found and where. -/
def State.mapAddrs (s : State) (gi access : Nat) : List (Nat × Nat) → List (Nat × Nat) → Option (Tr × Nat) × List (Nat × Nat) × State
  | [], m => (none, m, s)
  | p :: ps, m =>
    if m.any (fun x => x.1 == p.2) then s.mapAddrs gi access ps m
    else match s.translate gi p.1 access with
      | (.ok pa, s1) => s1.mapAddrs gi access ps (m ++ [(p.2, alignDown pa 4096)])
      | (t, s1) => (some (t, p.1), m, s1)

/-- Tests 3 and 4 for the addresses of bytes of each lane: translation, then the destination. `wanted` is a further test of it. The address reported
is that of the lane's first byte that fails, for LDP and STP the mapped global one (R84), as R291 and R448 say only 'the address': the model's choice,
log entry 67. -/
def Ctx.mapLanes (c : Ctx) (s : State) (addr : Nat → Nat) (vas : Nat → List Nat) (access : Nat) (wanted : Nat → Bool) : Found4 :=
  let lanes := lanesOf c.act
  let asks := lanes.flatMap (fun i => (vas i).map (fun va => (va, alignDown va 4096)))
  match s.mapAddrs c.gi access asks [] with
  | (some (.page, va), _, s1) => .stop (Res.page s1 va access)
  | (some _, _, s1) => .stop (.wait s1)
  | (none, m, s1) =>
    let g := s1.grp c.gi
    let bad := fun (va : Nat) => !s1.destOk g.func (some g.pkg) (placeIn m va) || !wanted (placeIn m va)
    match c.first (fun i => (vas i).any bad) with
    | some i => .stop (Res.at_ s1 .space (((vas i).find? bad).getD 0))
    | none => .ok (lanes.map (fun i => ⟨i, addr i, (vas i).map (placeIn m)⟩)) s1

/-- The tests of a global access of n bytes. -/
def Ctx.globAccs (c : Ctx) (s : State) (ea : Nat → Nat) (n access : Nat) (wanted : Nat → Bool) : Found4 :=
  match c.first (fun i => decide (2 ^ 57 ≤ ea i)) with
  | some i => .stop (Res.at_ s .space (ea i))
  | none => match c.first (fun i => ea i % n != 0) with
    | some i => .stop (Res.at_ s .misalign (ea i))
    | none => c.mapLanes s ea (fun i => (List.range n).map (fun k => ea i + k)) access wanted

/-- The tests of a private access of n bytes (R84): its addresses are the private offsets, which tests 1 and 2 report (log entry 67); its places are
those of the mapped bytes. -/
def Ctx.privAccs (c : Ctx) (s : State) (ea : Nat → Nat) (n access : Nat) : Found4 :=
  let g := s.grp c.gi
  match c.first (fun i => decide (g.privLen < ea i + n)) with
  | some i => .stop (Res.at_ s .space (ea i))
  | none => match c.first (fun i => ea i % n != 0) with
    | some i => .stop (Res.at_ s .misalign (ea i))
    | none => c.mapLanes s ea (fun i => (List.range n).map (fun k => g.privAddr i (ea i + k))) access (fun _ => true)

/-! Loads -/

/-- A load left outstanding, with the group's own bytes as they stand at issue (R118, R294). -/
def Ctx.load (c : Ctx) (s : State) (o : VOps) (kind : Nat) (space : Space) (accs : List Acc) : Res :=
  let own := s.ownSeen c.gi kind space (accs.flatMap Acc.place)
  .done (c.issueOp s o.d (dataSpan o.mod)
    (.load kind o.mod space (mScope o.mod) (mWidth o.mod) (mOrder o.mod == 1) accs own [])).2

/-- The offset of field C (R218). -/
def memOff (o : VOps) : Int := o.c.toInt * (mBytes o.mod : Int)

/-- LDP (R84, R294, R295). -/
def execLdp (o : VOps) (s : State) : Host.Outcome State Fault Refusal :=
  issueWord (.ldp o) (fun c s =>
    if c.accHeld s then .hold s
    else
      let e := c.eas32 s o.a (memOff o)
      match c.privAccs e.2 e.1 (mBytes o.mod) accRead with
      | .stop r => r
      | .ok accs s1 => c.load s1 o 0 .glob accs) s

/-- LDT (R86, R294). -/
def execLdt (o : VOps) (s : State) : Host.Outcome State Fault Refusal :=
  issueWord (.ldt o) (fun c s =>
    if c.accHeld s then .hold s
    else
      let e := c.eas32 s o.a (memOff o)
      match c.tileAccs e.2 e.1 (mBytes o.mod) (fun _ => true) with
      | .stop r => r
      | .ok accs s1 => c.load s1 o 1 .tile accs) s

/-- LDG (R91, R92, R294). -/
def execLdg (o : VOps) (s : State) : Host.Outcome State Fault Refusal :=
  issueWord (.ldg o) (fun c s =>
    if c.accHeld s then .hold s
    else
      let e := c.eas64 s o.a (memOff o)
      match c.globAccs e.2 e.1 (mBytes o.mod) accRead (fun _ => true) with
      | .stop r => r
      | .ok accs s1 => c.load s1 o 2 .glob accs) s

/-- A sector entering the watch set: one it holds is not entered twice, a 65th sets the overflow mark (R103, R297). -/
def Group.watchSector (g : Group) (space : Space) (scope sector : Nat) : Group :=
  if g.watch.any (fun w => w.space == space && w.sector == sector) then g
  else if Config.watchMax ≤ g.watch.length then { g with wovf := true }
  else { g with watch := g.watch ++ [⟨space, sector, scope, false⟩] }

/-- LDW (R103, R221, R297): the sectors are watched before the read is performed. -/
def execLdw (o : VOps) (s : State) : Host.Outcome State Fault Refusal :=
  issueWord (.ldw o) (fun c s =>
    if c.accHeld s then .hold s
    else
      let glob := o.b == 1
      let e := if glob then c.eas64 s o.a (memOff o) else c.eas32 s o.a (memOff o)
      let r := if glob then c.globAccs e.2 e.1 (mBytes o.mod) accRead (fun _ => true)
        else c.tileAccs e.2 e.1 (mBytes o.mod) (fun _ => true)
      match r with
      | .stop r => r
      | .ok accs s1 =>
        let space : Space := if glob then .glob else .tile
        let s2 := s1.modGrp c.gi (fun g => accs.foldl (fun g a => g.watchSector space (mScope o.mod) (sectorOf (a.place.headD 0))) g)
        c.load s2 o (if glob then 4 else 3) space accs) s

/-! Stores -/

/-- The data of lanes entered in escrow, or as private stores, lanes ascending: of several that write one byte the highest lane's value
stays (R93, R118). `va` gives the virtual address of byte k of a lane's access. -/
def State.enter (s : State) (gi : Nat) (level : Level) (space : Space) (sealId : Nat) (accs : List Acc) (data : List (List Byte))
    (va : Acc → Nat → Nat) : State :=
  let g := s.grp gi
  let one := fun (a : Acc) (r : Nat × List Esc) (x : Nat × Byte) =>
    (r.1 + 1, escPut r.2 gi level space x.1 (va a r.1) x.2 sealId (g.pins space a.lane x.1) (decide (0 < s.poolRoom gi r.2)))
  { s with escrow := accs.foldl (fun es a => ((a.place.zip (data.getD a.lane [])).foldl (one a) (0, es)).2) s.escrow }

/-- Test 5 of R291: the first lane that needs an entry, where the entries that a store needs find no room (R94). -/
def State.escFull (s : State) (gi : Nat) (space : Space) (accs : List Acc) : Option Acc :=
  let need := s.newEntries gi space (accs.flatMap Acc.place)
  if need ≤ s.escRoom gi then none
  else accs.find? (fun a => decide (0 < s.newEntries gi space a.place))

/-- A store to escrow (R296): plain, or with a release, whose own entries are sealed apart from those before it (R120). -/
def Ctx.store (c : Ctx) (s : State) (o : VOps) (space : Space) (accs : List Acc) : Res :=
  match s.escFull c.gi space accs with
  | some a => Res.at_ s .escrow a.addr
  | none =>
    let d := s.readData c.gi o.b c.t (mBytes o.mod)
    let va := fun (a : Acc) (k : Nat) => match space with
      | .tile => a.place.getD k 0
      | .glob => a.addr + k
    if mOrder o.mod = 2 then
      match c.leave s with
      | some r => r
      | none =>
        let (own, s1) := d.2.fresh
        let (id, s2) := c.issueOp s1 0xFF 1 (.storeRel (mScope o.mod) own)
        .done ((s2.sealEscrow c.gi (mScope o.mod) id).enter c.gi .group space own accs d.1 va)
    else .done ((c.issueOp d.2 0xFF 1 .store).2.enter c.gi .group space 0 accs d.1 va)

/-- STP (R85, R295). -/
def execStp (o : VOps) (s : State) : Host.Outcome State Fault Refusal :=
  issueWord (.stp o) (fun c s =>
    if c.accHeld s then .hold s
    else
      let e := c.eas32 s o.a (memOff o)
      match c.privAccs e.2 e.1 (mBytes o.mod) accWrite with
      | .stop r => r
      | .ok accs s1 =>
        let g := s1.grp c.gi
        let d := s1.readData c.gi o.b c.t (mBytes o.mod)
        let s2 := (c.issueOp d.2 0xFF 1 .storePrivate).2
        .done (s2.enter c.gi .priv .glob 0 accs d.1 (fun a k => g.privAddr a.lane (a.addr + k)))) s

/-- Whether a tile-store address names the kick address of a core (R87, R296). -/
def isKick (pkg ea : Nat) : Bool := tilePlace pkg ea == some (pkg, Config.kickOffset)

/-- The kick store (R112, R296): a wait for integrity debt, a commit to device scope, and the addresses handed over in lane order. -/
def Ctx.kick (c : Ctx) (s : State) (o : VOps) : Res :=
  match c.leave s with
  | some r => r
  | none =>
    let d := s.readData c.gi o.b c.t 8
    let lists := (lanesOf c.act).map (fun i => ofBytesLE ((d.1.getD i []).take 4))
    let (id, s1) := c.issueOp d.2 0xFF 1 (.kick lists true)
    .done (s1.sealEscrow c.gi 3 id)

/-- STT (R86, R87, R296): to escrow, or the kick store where every lane of a 64-bit store names the kick address. -/
def execStt (o : VOps) (s : State) : Host.Outcome State Fault Refusal :=
  issueWord (.stt o) (fun c s =>
    if c.accHeld s then .hold s
    else
      let e := c.eas32 s o.a (memOff o)
      let pkg := (s.grp c.gi).pkg
      let kicks := (lanesOf c.act).filter (fun i => isKick pkg (e.1 i))
      if mWidth o.mod = 3 ∧ kicks ≠ [] then
        match c.first (fun i => !isKick pkg (e.1 i)) with
        | some i => Res.at_ e.2 .space (e.1 i)
        | none => c.kick e.2 o
      else match c.tileAccs e.2 e.1 (mBytes o.mod) (fun _ => true) with
        | .stop r => r
        | .ok accs s1 => c.store s1 o .tile accs) s

/-- STG (R91, R296). -/
def execStg (o : VOps) (s : State) : Host.Outcome State Fault Refusal :=
  issueWord (.stg o) (fun c s =>
    if c.accHeld s then .hold s
    else
      let e := c.eas64 s o.a (memOff o)
      match c.globAccs e.2 e.1 (mBytes o.mod) accWrite (fun _ => true) with
      | .stop r => r
      | .ok accs s1 => c.store s1 o .glob accs) s

/-! Atomics -/

/-- The lanes of an atomic's operand: 32 bits zero-extended, or 64 (R292). -/
def Ctx.atomData (c : Ctx) (s : State) (r : RegCode) (width : Nat) : List W64 × State :=
  if width = 3 then s.readPair c.gi r c.t
  else
    let x := c.vec s r
    (x.1.map (fun v => v.setWidth 64), x.2.2)

/-- The release of an atomic at its issue: the entries it covers are those stored before it (R98, R107). -/
def Ctx.atomSeal (c : Ctx) (s : State) (mod : BitVec 8) (id : Nat) : State :=
  if 2 ≤ mOrder mod then s.sealEscrow c.gi (mScope mod) id else s

/-- ATOMT or ATOMG left outstanding (R298): held by integrity debt; a compare-and-swap reads D on entry. -/
def Ctx.atomic (c : Ctx) (s : State) (o : VOps) (space : Space) (accs : List Acc) : Res :=
  match c.leave s with
  | some r => r
  | none =>
    let w := mWidth o.mod
    let b := c.atomData s o.b w
    let x := if o.c = 9 then c.atomData b.2 o.d w else ([], b.2)
    let ord := mOrder o.mod
    let (id, s1) := c.issueOp x.2 o.d (dataSpan o.mod)
      (.atomic space o.c.toNat (mScope o.mod) w (ord == 1 || ord == 3) (decide (2 ≤ ord)) accs b.1 x.1 [])
    .done (c.atomSeal s1 o.mod id)

/-- ATOMT (R106, R298): at team scope its words lie in the own slice. -/
def execAtomt (o : VOps) (s : State) : Host.Outcome State Fault Refusal :=
  issueWord (.atomt o) (fun c s =>
    if c.accHeld s then .hold s
    else
      let e := c.eas32 s o.a 0
      let pkg := (s.grp c.gi).pkg
      match c.tileAccs e.2 e.1 (mBytes o.mod) (fun p => mScope o.mod != 1 || p / Config.sliceBytes == pkg) with
      | .stop r => r
      | .ok accs s1 => c.atomic s1 o .tile accs) s

/-- ATOMG (R106, R298). -/
def execAtomg (o : VOps) (s : State) : Host.Outcome State Fault Refusal :=
  issueWord (.atomg o) (fun c s =>
    if c.accHeld s then .hold s
    else
      let e := c.eas64 s o.a 0
      match c.globAccs e.2 e.1 (mBytes o.mod) accAtomic (fun _ => true) with
      | .stop r => r
      | .ok accs s1 => c.atomic s1 o .glob accs) s

/-- ATOMP (R109, R299): an unregistered slot is illegal; lines other than device DRAM trap SPACE (R106). -/
def execAtomp (o : VOps) (s : State) : Host.Outcome State Fault Refusal :=
  issueWord (.atomp o) (fun c s =>
    if (s.routineOf (s.grp c.gi).func o.c.toNat).isNone then c.trap s .illegal
    else if c.accHeld s then .hold s
    else
      let e := c.eas64 s o.a 0
      match c.globAccs e.2 e.1 (mBytes o.mod) accAtomic (fun pa => regionOf pa == 0) with
      | .stop r => r
      | .ok accs s1 =>
        match c.leave s1 with
        | some r => r
        | none =>
          let w := mWidth o.mod
          let b := c.atomData s1 o.b w
          let x := if o.d = 0xFF then ([], b.2) else c.atomData b.2 o.d w
          let ord := mOrder o.mod
          let (id, s2) := c.issueOp x.2 o.d (dataSpan o.mod)
            (.atomp o.c.toNat w (ord == 1 || ord == 3) (decide (2 ≤ ord)) accs b.1 x.1 [])
          .done (c.atomSeal s2 o.mod id)) s

/-! Commits and prefetches -/

/-- COMMIT (R301): it covers the stores issued before it (R98) and waits for integrity debt. -/
def execCommit (o : VOps) (s : State) : Host.Outcome State Fault Refusal :=
  issueWord (.commit o) (fun c s =>
    if c.slotFull s then .hold s
    else match c.leave s with
      | some r => r
      | none =>
        let (id, s1) := c.issueOp s o.d 1 (.commit (mScope o.mod) false)
        .done (s1.sealEscrow c.gi (mScope o.mod) id)) s

/-- ABORT (R101, R302). -/
def execAbort (o : VOps) (s : State) : Host.Outcome State Fault Refusal :=
  issueWord (.abort o) (fun c s =>
    if c.slotFull s then .hold s
    else
      let (id, s1) := c.issueOp s o.d 1 (.abort (mScope o.mod))
      .done (s1.sealAbort c.gi (mScope o.mod) id)) s

/-- PFG (R303): its lanes' addresses are tried at completion, and no fault is taken. -/
def execPfg (o : VOps) (s : State) : Host.Outcome State Fault Refusal :=
  issueWord (.pfg o) (fun c s =>
    if c.accHeld s then .hold s
    else
      let e := c.eas64 s o.a (memOff o)
      .done (c.issueOp e.2 0xFF 1 (.prefetch (mScope o.mod) ((lanesOf c.act).map (fun i => ⟨i, e.1 i, []⟩)))).2) s

end Sys2Proof.Machine
end

