-- ==== Sys2Proof/Machine/Scalar.lean ====
section
/-! DEFINITION. The scalar integer instructions (file 09 R252 to R255): one value for the group, readable after two clocks. -/

namespace Sys2Proof.Machine

/-- SADD (R254). -/
def execSadd (o : VOps) (s : State) : Host.Outcome State Fault Refusal :=
  issueWord (.sadd o) (fun c s => c.scal2 s o.d o.a o.b (fun a b => sAdd (bitAt o.mod 0) a b)) s

/-- SSUB (R254). -/
def execSsub (o : VOps) (s : State) : Host.Outcome State Fault Refusal :=
  issueWord (.ssub o) (fun c s => c.scal2 s o.d o.a o.b (fun a b => sSub (bitAt o.mod 0) a b)) s

/-- SMUL (R254). -/
def execSmul (o : VOps) (s : State) : Host.Outcome State Fault Refusal :=
  issueWord (.smul o) (fun c s => c.scal2 s o.d o.a o.b (fun a b => sMul (bitAt o.mod 0) a b)) s

/-- SMULH (R254). -/
def execSmulh (o : VOps) (s : State) : Host.Outcome State Fault Refusal :=
  issueWord (.smulh o) (fun c s => c.scal2 s o.d o.a o.b (fun a b => (sMulh (bitAt o.mod 1) a b, 0))) s

/-- SDIV (R254). -/
def execSdiv (o : VOps) (s : State) : Host.Outcome State Fault Refusal :=
  issueWord (.sdiv o) (fun c s => c.scal2 s o.d o.a o.b (fun a b => sDiv (bitAt o.mod 1) a b)) s

/-- SREM (R254). -/
def execSrem (o : VOps) (s : State) : Host.Outcome State Fault Refusal :=
  issueWord (.srem o) (fun c s => c.scal2 s o.d o.a o.b (fun a b => sRem (bitAt o.mod 1) a b)) s

/-- SAND (R254). -/
def execSand (o : VOps) (s : State) : Host.Outcome State Fault Refusal :=
  issueWord (.sand o) (fun c s => c.scal2 s o.d o.a o.b (fun a b => (a &&& b, 0))) s

/-- SOR (R254). -/
def execSor (o : VOps) (s : State) : Host.Outcome State Fault Refusal :=
  issueWord (.sor o) (fun c s => c.scal2 s o.d o.a o.b (fun a b => (a ||| b, 0))) s

/-- SXOR (R254). -/
def execSxor (o : VOps) (s : State) : Host.Outcome State Fault Refusal :=
  issueWord (.sxor o) (fun c s => c.scal2 s o.d o.a o.b (fun a b => (a ^^^ b, 0))) s

/-- SSHL (R254). -/
def execSshl (o : VOps) (s : State) : Host.Outcome State Fault Refusal :=
  issueWord (.sshl o) (fun c s => c.scal2 s o.d o.a o.b (fun a b => (sShl a b, 0))) s

/-- SSHR (R254). -/
def execSshr (o : VOps) (s : State) : Host.Outcome State Fault Refusal :=
  issueWord (.sshr o) (fun c s => c.scal2 s o.d o.a o.b (fun a b => (sShr a b, 0))) s

/-- SSAR (R254). -/
def execSsar (o : VOps) (s : State) : Host.Outcome State Fault Refusal :=
  issueWord (.ssar o) (fun c s => c.scal2 s o.d o.a o.b (fun a b => (sSar a b, 0))) s

/-- SMIN (R254). -/
def execSmin (o : VOps) (s : State) : Host.Outcome State Fault Refusal :=
  issueWord (.smin o) (fun c s => c.scal2 s o.d o.a o.b (fun a b => (sMin (bitAt o.mod 1) a b, 0))) s

/-- SMAX (R254). -/
def execSmax (o : VOps) (s : State) : Host.Outcome State Fault Refusal :=
  issueWord (.smax o) (fun c s => c.scal2 s o.d o.a o.b (fun a b => (sMax (bitAt o.mod 1) a b, 0))) s

/-- SCMP (R254). -/
def execScmp (o : VOps) (s : State) : Host.Outcome State Fault Refusal :=
  issueWord (.scmp o) (fun c s => c.scal2 s o.d o.a o.b (fun a b => (if condI (bitsN o.mod 4 2) (x64 (bitAt o.mod 1) a) (x64 (bitAt o.mod 1) b) then 1 else 0, 0))) s

/-- SSEL: the third operand selects. -/
def execSsel (o : VOps) (s : State) : Host.Outcome State Fault Refusal :=
  issueWord (.ssel o) (fun c s => c.scal3 s o.d o.a o.b o.c (fun a b e => (if e != 0 then a else b, 0))) s

/-- SMOV (R254). -/
def execSmov (o : VOps) (s : State) : Host.Outcome State Fault Refusal :=
  issueWord (.smov o) (fun c s => c.scal1 s o.d o.a (fun a => (a, 0))) s

/-- SADDI (R254). -/
def execSaddi (o : IOps) (s : State) : Host.Outcome State Fault Refusal :=
  issueWord (.saddi o) (fun c s => c.scal1 s o.d o.a (fun a => sAdd (bitAt o.mod 0) a (o.imm.signExtend 64))) s

/-- SMOVI (R254). -/
def execSmovi (o : WOps) (s : State) : Host.Outcome State Fault Refusal :=
  issueWord (.smovi o) (fun c s => .done (c.putS s o.d (o.imm.signExtend 64))) s

/-- SMOVH: it reads its destination. -/
def execSmovh (o : WOps) (s : State) : Host.Outcome State Fault Refusal :=
  issueWord (.smovh o) (fun c s => c.scal1 s o.d o.d (fun d => (o.imm ++ d.setWidth 32, 0))) s

/-- SPOPC (R254). -/
def execSpopc (o : VOps) (s : State) : Host.Outcome State Fault Refusal :=
  issueWord (.spopc o) (fun c s => c.scal1 s o.d o.a (fun a => (BitVec.ofNat 64 (popCount a), 0))) s

/-- SCLZ (R254). -/
def execSclz (o : VOps) (s : State) : Host.Outcome State Fault Refusal :=
  issueWord (.sclz o) (fun c s => c.scal1 s o.d o.a (fun a => (BitVec.ofNat 64 (leadZeros a), 0))) s

/-- SBFE (R255). -/
def execSbfe (o : IOps) (s : State) : Host.Outcome State Fault Refusal :=
  issueWord (.sbfe o) (fun c s => c.scal1 s o.d o.a (fun a => (fieldGet (!bitAt o.mod 1) a (bitsN o.imm 5 0) (bitsN o.imm 11 6 + 1), 0))) s

/-- SBFI (R255): it reads its destination. -/
def execSbfi (o : IOps) (s : State) : Host.Outcome State Fault Refusal :=
  issueWord (.sbfi o) (fun c s => c.scal2 s o.d o.d o.a (fun d a => (fieldPut d a (bitsN o.imm 5 0) (bitsN o.imm 11 6 + 1), 0))) s

end Sys2Proof.Machine
end

