-- ==== Sys2Proof/Machine/Sfu.lean ====
section
/-! DEFINITION. The special functions (file 06 R182, R183; file 11 R287, R288). The manual bounds each result and does not fix it within
the bound: which of the values within it is given is free (log entry 2), the same for one operand at every time (R182). Each function is
enclosed between two numbers much closer than a unit in the last place. -/

namespace Sys2Proof.Machine

/-- A positive real number from lo · 2^e to below hi · 2^e; lo = hi where it is known exactly. -/
structure Encl where
  lo : Nat
  hi : Nat
  e  : Int
  deriving DecidableEq, Repr

/-- A magnitude m · 2^e as a numerator over 2^e0. -/
def overPow (m : Nat) (e e0 : Int) : Nat := m <<< (e - e0).toNat

/-- The magnitude of an FP32 code below the sign: ∞ stands at 2^128, the first number past the finite ones. -/
def magOf (code : Nat) : Nat × Int :=
  if 0x7F800000 ≤ code then (1, 128)
  else match decodeVal .fp32 code with
    | .fin _ m e => (m, e)
    | _ => (1, 128)

/-- The FP32 magnitudes within k units in the last place of an enclosed number (R183); ∞ alone where every finite one is further away. Where the two
ends differ the number lies between them, so that a magnitude k units from an end is further from the number. -/
def sfuCands (k : Nat) (y : Encl) : List Nat :=
  let u : Int := max (log2Of (if y.lo < y.hi then y.hi - 1 else y.hi) y.e - 23) (-149)
  let e0 := min (min y.e u) (-149)
  let unit := overPow k u e0
  let lo := overPow y.lo y.e e0
  let hi := overPow y.hi y.e e0
  let n := lo / overPow 1 u e0
  let base := min ((u + 149).toNat * 2 ^ 23 + n) 0x7F800000
  let within := fun (c : Nat) =>
    let v := magOf c
    let x := overPow v.1 v.2 e0
    if y.lo < y.hi then decide (x < hi + unit ∧ lo < x + unit) else decide (x ≤ hi + unit ∧ lo ≤ x + unit)
  let near := ((List.range 13).map (fun j => base + j - 6)).filter (fun c => decide (c ≤ 0x7F800000) && within c)
  if near.isEmpty then [0x7F800000] else dedupN near

/-- A result within the bound, with its flags: NX where it differs from the exact value, with OF where it is ∞ and UF where it is tiny. -/
def sfuPickRes (op : Nat) (x : W32) (k : Nat) (neg : Bool) (y : Encl) : W32 × Flags :=
  let cs := sfuCands k y
  let code := cs.getD (Config.sfuPick op x % cs.length) 0
  let v := magOf code
  let e0 := min y.e (-149)
  let exact := decide (code < 0x7F800000) && y.lo == y.hi && overPow v.1 v.2 e0 == overPow y.lo y.e e0
  let f : Flags := if exact then 0 else fNX ||| (if code = 0x7F800000 then fOF else 0) ||| (if code < 0x00800000 then fUF else 0)
  (BitVec.ofNat 32 (code + (if neg then 2 ^ 31 else 0)), f)

def inf32 (neg : Bool) : W32 := if neg then 0xFF800000 else 0x7F800000
def zero32 (neg : Bool) : W32 := if neg then 0x80000000 else 0
def one32 (neg : Bool) : W32 := if neg then 0xBF800000 else 0x3F800000

/-! Enclosures -/

/-- Whether a number is a power of two. -/
def isPow2 (m : Nat) : Bool := m == 2 ^ m.log2

/-- 1 / (m · 2^e). -/
def enclRcp (m : Nat) (e : Int) : Encl :=
  if isPow2 m then ⟨1, 1, -(e + (m.log2 : Int))⟩ else ⟨2 ^ 80 / m, 2 ^ 80 / m + 1, -80 - e⟩

/-- The square root of n · 2^(2h), n a number with room for its precision. -/
def enclRoot (n : Nat) (h : Int) : Encl :=
  let r := n.sqrt
  ⟨r, if r * r = n then r else r + 1, h⟩

/-- m · 2^e with an even exponent. -/
def evenExp (m : Nat) (e : Int) : Nat × Int := if e % 2 = 0 then (m, e) else (2 * m, e - 1)

/-- The square root of m · 2^e. -/
def enclSqrt (m : Nat) (e : Int) : Encl :=
  let x := evenExp m e
  enclRoot (x.1 <<< 80) (x.2 / 2 - 40)

/-- 1 over the square root of m · 2^e. -/
def enclRsq (m : Nat) (e : Int) : Encl :=
  let x := evenExp m e
  let n := 2 ^ 200 / x.1
  let r := n.sqrt
  ⟨r, if r * r * x.1 = 2 ^ 200 then r else r + 1, -(x.2 / 2) - 100⟩

/-- The product over the bits of f, from bit 63 down, of the successive square roots of 2: lower and upper bounds over 2^100. -/
def expBits (f : Nat) : Nat → Nat → Nat → Nat → Nat → Nat × Nat
  | 0, _, _, plo, phi => (plo, phi)
  | n + 1, rlo, rhi, plo, phi =>
    let slo := (rlo <<< 100).sqrt
    let shi := (rhi <<< 100).sqrt + 1
    let on := Nat.testBit f n
    expBits f n slo shi (if on then (plo * slo) >>> 100 else plo) (if on then ((phi * shi) >>> 100) + 1 else phi)

/-- 2^x for x = N / 2^149, not an integer; far below the subnormals only that bound is kept. -/
def enclExp2 (x : Int) : Encl :=
  let n := x / 2 ^ 149
  let f := (x % 2 ^ 149).toNat
  if n < -200 then ⟨0, 1, -200⟩
  else
    let p := expBits (f >>> 85) 64 (2 <<< 100) (2 <<< 100) (1 <<< 100) (1 <<< 100)
    ⟨max p.1 (2 ^ 100), min (p.2 + (p.2 >>> 63) + 1) (2 ^ 101), n - 100⟩

/-- Bits of log2 t for t in [1, 2) over 2^256, by repeated squaring, rounding down, or up. -/
def logBits (up : Bool) : Nat → Nat → Nat → Nat
  | 0, _, acc => acc
  | n + 1, t, acc =>
    let s := ((t * t) >>> 256) + (if up then 1 else 0)
    if 2 ^ 257 ≤ s then logBits up n ((s >>> 1) + (if up then 1 else 0)) (2 * acc + 1) else logBits up n s (2 * acc)

/-- log2 of m · 2^e, not a power of two: its sign and magnitude. -/
def enclLog2 (m : Nat) (e : Int) : Bool × Encl :=
  let w := (m.log2 : Int) + e
  let t := m <<< (256 - m.log2)
  let lo := w * 2 ^ 100 + (logBits false 100 t 0 : Int)
  let hi := w * 2 ^ 100 + (logBits true 100 t 0 : Int) + 1
  if hi ≤ 0 then (true, ⟨hi.natAbs, lo.natAbs, -100⟩) else (false, ⟨lo.natAbs, hi.natAbs, -100⟩)

/-- floor(π · 2^160). -/
def piLo : Nat := 0x3243f6a8885a308d313198a2e03707344a4093822

/-- The nested series of sin(y) / y in z = y²: 1 − z/(2·3) (1 − z/(4·5) (1 − …)), bounds over 2^160; `k` counts the levels above. -/
def sinSeries (zlo zhi : Nat) : Nat → Nat → Nat × Nat
  | 0, _ => (0, 2 ^ 160)
  | n + 1, k =>
    let r := sinSeries zlo zhi n (k + 1)
    let d := (2 * k) * (2 * k + 1) * 2 ^ 160
    (2 ^ 160 - (zhi * r.2 / d + 1), 2 ^ 160 - zlo * r.1 / d)

/-- sin(π r) for r = m · 2^e in (0, 1/2], e ≤ 0. -/
def enclSinPi (m : Nat) (e : Int) : Encl :=
  if m = 2 ^ (-1 - e).toNat then ⟨1, 1, 0⟩
  else
    let sh := (-2 * e).toNat
    let r2 := (m * m * 2 ^ 160) / 2 ^ sh
    let zlo := (piLo * piLo * r2) >>> 320
    let zhi := (((piLo + 1) * (piLo + 1) * (r2 + 1)) >>> 320) + 1
    let s := sinSeries zlo zhi 40 1
    ⟨m * ((piLo * s.1) >>> 160), min (m * ((((piLo + 1) * s.2) >>> 160) + 1)) (2 ^ (160 - e).toNat), e - 160⟩

/-- The continued fraction of x / tanh(x), 1 + x²/(3 + x²/(5 + …)), cut after n levels: numerator and denominator; x² is n2 / d2. -/
def tanhFrac (n2 d2 : Nat) : Nat → Nat → Nat × Nat
  | 0, k => (2 * k + 1, 1)
  | n + 1, k =>
    let r := tanhFrac n2 d2 n (k + 1)
    ((2 * k + 1) * d2 * r.1 + n2 * r.2, d2 * r.1)

/-- tanh of m · 2^e. -/
def enclTanh (m : Nat) (e : Int) : Encl :=
  if 4 ≤ log2Of m e then ⟨2 ^ 40 - 1, 2 ^ 40, -40⟩
  else
    let n := if log2Of m e < -12 then 4 else 64
    let n2 := m * m * 2 ^ (2 * e).toNat
    let d2 := 2 ^ (-2 * e).toNat
    let a := tanhFrac n2 d2 n 0
    let b := tanhFrac n2 d2 (n + 1) 0
    let x := 2 ^ 100 * a.2 / a.1
    let y := 2 ^ 100 * b.2 / b.1
    ⟨m * min x y, m * (max x y + 1), e - 100⟩

/-! The functions -/

/-- A magnitude m · 2^e, e at least −149, as a numerator over 2^149. -/
def over149 (m : Nat) (e : Int) : Nat := m <<< (e + 149).toNat

def sfuRcp (x : W32) : W32 × Flags :=
  match f32 x with
  | .nan => (nan32, 0)
  | .inf neg => (zero32 neg, 0)
  | .fin neg m e => if m = 0 then (inf32 neg, fDZ) else sfuPickRes 0 x (if isPow2 m then 0 else 1) neg (enclRcp m e)

def sfuRsq (x : W32) : W32 × Flags :=
  match f32 x with
  | .nan => (nan32, 0)
  | .inf neg => if neg then (nan32, fNV) else (0, 0)
  | .fin neg m e => if m = 0 then (inf32 neg, fDZ) else if neg then (nan32, fNV) else sfuPickRes 1 x 2 false (enclRsq m e)

def sfuSqrt (x : W32) : W32 × Flags :=
  match f32 x with
  | .nan => (nan32, 0)
  | .inf neg => if neg then (nan32, fNV) else (inf32 false, 0)
  | .fin neg m e => if m = 0 then (x, 0) else if neg then (nan32, fNV) else sfuPickRes 2 x 1 false (enclSqrt m e)

def sfuExp2 (x : W32) : W32 × Flags :=
  match f32 x with
  | .nan => (nan32, 0)
  | .inf neg => (if neg then 0 else inf32 false, 0)
  | .fin neg m e =>
    if !neg && decide (7 ≤ log2Of m e) && m != 0 then (inf32 false, fOF ||| fNX)
    else if neg && decide (9 ≤ log2Of m e) && m != 0 then sfuPickRes 3 x 2 false ⟨0, 1, -200⟩
    else
      let n : Int := if neg then -(over149 m e : Int) else (over149 m e : Int)
      if n % 2 ^ 149 = 0 then sfuPickRes 3 x (if -149 ≤ n / 2 ^ 149 then 0 else 2) false ⟨1, 1, n / 2 ^ 149⟩
      else sfuPickRes 3 x 2 false (enclExp2 n)

def sfuLog2 (x : W32) : W32 × Flags :=
  match f32 x with
  | .nan => (nan32, 0)
  | .inf neg => if neg then (nan32, fNV) else (inf32 false, 0)
  | .fin neg m e =>
    if m = 0 then (inf32 true, fDZ) else if neg then (nan32, fNV)
    else if isPow2 m then
      let w := (m.log2 : Int) + e
      roundF32 (.fin (decide (w < 0)) w.natAbs 0) .rne false
    else
      let r := enclLog2 m e
      sfuPickRes 4 x 2 r.1 r.2

def sfuSinpi (x : W32) : W32 × Flags :=
  match f32 x with
  | .nan => (nan32, 0)
  | .inf _ => (nan32, fNV)
  | .fin neg m e =>
    let n := over149 m e
    let odd := (n / 2 ^ 149) % 2 == 1
    let r := n % 2 ^ 149
    let q := if 2 ^ 148 < r then 2 ^ 149 - r else r
    if r = 0 then (zero32 neg, 0)
    else if 2 ^ 171 ≤ n then (one32 (neg != odd), 0)
    else sfuPickRes 5 x 2 (neg != odd) (enclSinPi q (-149))

def sfuCospi (x : W32) : W32 × Flags :=
  match f32 x with
  | .nan => (nan32, 0)
  | .inf _ => (nan32, fNV)
  | .fin _ m e =>
    let n := over149 m e
    let odd := (n / 2 ^ 149) % 2 == 1
    let r := n % 2 ^ 149
    if r = 2 ^ 148 then (0, 0)
    else if 2 ^ 171 ≤ n then (one32 odd, 0)
    else if r < 2 ^ 148 then sfuPickRes 6 x 2 odd (enclSinPi (2 ^ 148 - r) (-149))
    else sfuPickRes 6 x 2 (!odd) (enclSinPi (r - 2 ^ 148) (-149))

def sfuTanh (x : W32) : W32 × Flags :=
  match f32 x with
  | .nan => (nan32, 0)
  | .inf neg => (one32 neg, 0)
  | .fin neg m e => if m = 0 then (x, 0) else sfuPickRes 7 x 2 neg (enclTanh m e)

/-- The clocks for which a run occupies its quarter's SFU, which accepts 16 lanes a clock (R288). -/
def sfuClocks (run : BitVec 64) : Nat := max 1 (((lanesOf run).length + 15) / 16)

/-- The words that wait for a quarter's SFU, first come first served: those whose clause still stands at them (R288). -/
def State.sfuLine (s : State) (pkg q : Nat) : List (Nat × Nat × Nat) :=
  (s.quarter pkg q).sfuQ.filter (fun x =>
    let g := s.grp x.1
    g.resident && g.pkg == pkg && g.qtr == q && g.clauses.any (fun k => k.beside == x.2.1 && k.pos == x.2.2))

/-- A word's own place in that line. -/
def Ctx.sfuMe (c : Ctx) : Nat × Nat × Nat := (c.gi, c.cl.beside, c.cl.pos)

/-- Whether the SFU is a word's at its clock: it is free, and no other word has waited for it before (R288). -/
def Ctx.sfuTurn (c : Ctx) (s : State) : Bool :=
  let g := s.grp c.gi
  decide ((s.quarter g.pkg g.qtr).sfuFree ≤ c.t) && (s.sfuLine g.pkg g.qtr).head?.all (fun x => x == c.sfuMe)

/-- A word's place in the line taken, where it has none yet. -/
def Ctx.sfuWait (c : Ctx) (s : State) : State :=
  let g := s.grp c.gi
  let line := s.sfuLine g.pkg g.qtr
  s.modQuarter g.pkg g.qtr (fun q => { q with sfuQ := if line.contains c.sfuMe then line else line ++ [c.sfuMe] })

/-- The issue of an SFU instruction (R287, R288): held until the quarter's SFU is free and its turn has come, then the result of each lane that acts,
its tag, and its flags, as an outstanding operation. A full write takes the lanewise tag over all 64 lanes (R257, R258). -/
def Ctx.sfu (c : Ctx) (s : State) (d a : RegCode) (f : W32 → W32 × Flags) : Res :=
  let g := s.grp c.gi
  if c.slotFull s then .hold s
  else if !c.sfuTurn s then .hold (c.sfuWait s)
  else
    let x := c.vec s a
    let rs := (List.range 64).map (fun i => f (x.1.getD i 0))
    let vals := rs.map Prod.fst
    let tag := if c.full then tagIf (lanewise [x.2.1]) vals else .g
    let lanes := if c.full then BitVec.allOnes 64 else c.act
    let s1 := x.2.2.modQuarter g.pkg g.qtr (fun q =>
      { q with sfuFree := c.t + sfuClocks c.cl.lanes, sfuQ := (s.sfuLine g.pkg g.qtr).filter (fun y => y != c.sfuMe) })
    .done (c.issueOpTo s1 d 1 lanes (.sfu ⟨tag, vals⟩ lanes (c.laneFlags rs))).2

/-- RCP (R183, R287). -/
def execRcp (o : VOps) (s : State) : Host.Outcome State Fault Refusal :=
  issueWord (.rcp o) (fun c s => c.sfu s o.d o.a sfuRcp) s

/-- RSQ (R183, R287). -/
def execRsq (o : VOps) (s : State) : Host.Outcome State Fault Refusal :=
  issueWord (.rsq o) (fun c s => c.sfu s o.d o.a sfuRsq) s

/-- SQRT (R183, R287). -/
def execSqrt (o : VOps) (s : State) : Host.Outcome State Fault Refusal :=
  issueWord (.sqrt o) (fun c s => c.sfu s o.d o.a sfuSqrt) s

/-- EXP2 (R183, R287). -/
def execExp2 (o : VOps) (s : State) : Host.Outcome State Fault Refusal :=
  issueWord (.exp2 o) (fun c s => c.sfu s o.d o.a sfuExp2) s

/-- LOG2 (R183, R287). -/
def execLog2 (o : VOps) (s : State) : Host.Outcome State Fault Refusal :=
  issueWord (.log2 o) (fun c s => c.sfu s o.d o.a sfuLog2) s

/-- SINPI (R183, R287). -/
def execSinpi (o : VOps) (s : State) : Host.Outcome State Fault Refusal :=
  issueWord (.sinpi o) (fun c s => c.sfu s o.d o.a sfuSinpi) s

/-- COSPI (R183, R287). -/
def execCospi (o : VOps) (s : State) : Host.Outcome State Fault Refusal :=
  issueWord (.cospi o) (fun c s => c.sfu s o.d o.a sfuCospi) s

/-- TANH (R183, R287). -/
def execTanh (o : VOps) (s : State) : Host.Outcome State Fault Refusal :=
  issueWord (.tanh o) (fun c s => c.sfu s o.d o.a sfuTanh) s

end Sys2Proof.Machine
end

