-- ==== Sys2Proof/Machine/VectorInt.lean ====
section
/-! DEFINITION. The integer, logic, shift, selection and move instructions (file 10 R256 to R268). -/

namespace Sys2Proof.Machine

/-- The affine sum rule (R258), for the wrapping forms; the saturating forms follow the lanewise rule. -/
def sumTag (sat : Bool) (x y : Tag) (vals : List W32) : Tag :=
  if sat then lanewise [x, y] else if x != .g && y != .g then affine vals else .g

/-- Whether the affine scale rule applies: one source U, the other U or A. -/
def scales (x y : Tag) : Bool := (x == .u && y != .g) || (y == .u && x != .g)

/-- The affine scale rule. -/
def scaleTag (sat : Bool) (x y : Tag) (vals : List W32) : Tag :=
  if sat then lanewise [x, y] else if scales x y then affine vals else .g

/-- The affine fused rule: scale for the product, then sum. -/
def fusedTag (sat : Bool) (x y z : Tag) (vals : List W32) : Tag :=
  if sat then lanewise [x, y, z] else if scales x y && z != .g then affine vals else .g

/-- The affine shift rule, for a uniform count n. -/
def shiftTag (x y : Tag) (n : W32) (vals : List W32) : Tag :=
  if y != .u then .g else if 32 ≤ n.toNat then .u else if x != .g then affine vals else .g

/-- IADD (R263). -/
def execIadd (o : VOps) (s : State) : Host.Outcome State Fault Refusal :=
  issueWord (.iadd o) (fun c s => c.lane2T s o.d o.a o.b (sumTag (bitAt o.mod 0)) (fun a b => fit32 (bitAt o.mod 0) false (a.toInt + b.toInt))) s

/-- ISUB (R263). -/
def execIsub (o : VOps) (s : State) : Host.Outcome State Fault Refusal :=
  issueWord (.isub o) (fun c s => c.lane2T s o.d o.a o.b (sumTag (bitAt o.mod 0)) (fun a b => fit32 (bitAt o.mod 0) false (a.toInt - b.toInt))) s

/-- IMUL (R263). -/
def execImul (o : VOps) (s : State) : Host.Outcome State Fault Refusal :=
  issueWord (.imul o) (fun c s => c.lane2T s o.d o.a o.b (scaleTag (bitAt o.mod 0)) (fun a b => fit32 (bitAt o.mod 0) false (a.toInt * b.toInt))) s

/-- IMULH (R263). -/
def execImulh (o : VOps) (s : State) : Host.Outcome State Fault Refusal :=
  issueWord (.imulh o) (fun c s => c.lane2 s o.d o.a o.b (fun a b => (iMulh (bitAt o.mod 1) a b, 0))) s

/-- IMAD (R263, R264). -/
def execImad (o : VOps) (s : State) : Host.Outcome State Fault Refusal :=
  issueWord (.imad o) (fun c s => c.lane3T s o.d o.a o.b o.c (fusedTag (bitAt o.mod 0)) (fun a b e =>
    fit32 (bitAt o.mod 0) (bitAt o.mod 1) (x32 (bitAt o.mod 1) a * x32 (bitAt o.mod 1) b + x32 (bitAt o.mod 1) e))) s

/-- IADDMIN (R263, R264): the minimum is taken on the exact sum. -/
def execIaddmin (o : VOps) (s : State) : Host.Outcome State Fault Refusal :=
  issueWord (.iaddmin o) (fun c s => c.lane3 s o.d o.a o.b o.c (fun a b e => 
    fit32 (bitAt o.mod 0) (bitAt o.mod 1) (min (x32 (bitAt o.mod 1) a + x32 (bitAt o.mod 1) b) (x32 (bitAt o.mod 1) e)))) s

/-- IABS (R263). -/
def execIabs (o : VOps) (s : State) : Host.Outcome State Fault Refusal :=
  issueWord (.iabs o) (fun c s => c.lane1 s o.d o.a (fun a => fit32 (bitAt o.mod 0) false (a.toInt.natAbs : Int))) s

/-- IADDI (R263). -/
def execIaddi (o : IOps) (s : State) : Host.Outcome State Fault Refusal :=
  issueWord (.iaddi o) (fun c s => c.lane1T s o.d o.a (fun t vs => sumTag (bitAt o.mod 0) t .u vs) (fun a => fit32 (bitAt o.mod 0) false (a.toInt + o.imm.toInt))) s

/-- IDOT4 (R263). -/
def execIdot4 (o : VOps) (s : State) : Host.Outcome State Fault Refusal :=
  issueWord (.idot4 o) (fun c s => c.lane3 s o.d o.a o.b o.c (fun a b e => fit32 (bitAt o.mod 0) (bitAt o.mod 1) (iDot4 (bitAt o.mod 1) a b e))) s

/-- IAND (R266). -/
def execIand (o : VOps) (s : State) : Host.Outcome State Fault Refusal :=
  issueWord (.iand o) (fun c s => c.lane2 s o.d o.a o.b (fun a b => (a &&& b, 0))) s

/-- IOR (R266). -/
def execIor (o : VOps) (s : State) : Host.Outcome State Fault Refusal :=
  issueWord (.ior o) (fun c s => c.lane2 s o.d o.a o.b (fun a b => (a ||| b, 0))) s

/-- IXOR (R266). -/
def execIxor (o : VOps) (s : State) : Host.Outcome State Fault Refusal :=
  issueWord (.ixor o) (fun c s => c.lane2 s o.d o.a o.b (fun a b => (a ^^^ b, 0))) s

/-- ISHL (R266): its tag follows the affine shift rule. -/
def execIshl (o : VOps) (s : State) : Host.Outcome State Fault Refusal :=
  issueWord (.ishl o) (fun c s => 
    let x := c.vec s o.a
    let y := c.vec x.2.2 o.b
    let vals := (List.range 64).map (fun i => iShl (x.1.getD i 0) (y.1.getD i 0))
    .done (c.putV y.2.2 o.d vals (shiftTag x.2.1 y.2.1 (y.1.getD 0 0) vals))) s

/-- ISHR (R266). -/
def execIshr (o : VOps) (s : State) : Host.Outcome State Fault Refusal :=
  issueWord (.ishr o) (fun c s => c.lane2 s o.d o.a o.b (fun a b => (iShr a b, 0))) s

/-- ISAR (R266). -/
def execIsar (o : VOps) (s : State) : Host.Outcome State Fault Refusal :=
  issueWord (.isar o) (fun c s => c.lane2 s o.d o.a o.b (fun a b => (iSar a b, 0))) s

/-- IMIN (R266). -/
def execImin (o : VOps) (s : State) : Host.Outcome State Fault Refusal :=
  issueWord (.imin o) (fun c s => c.lane2 s o.d o.a o.b (fun a b => (iMin (bitAt o.mod 1) a b, 0))) s

/-- IMAX (R266). -/
def execImax (o : VOps) (s : State) : Host.Outcome State Fault Refusal :=
  issueWord (.imax o) (fun c s => c.lane2 s o.d o.a o.b (fun a b => (iMax (bitAt o.mod 1) a b, 0))) s

/-- ICMP (R266). -/
def execIcmp (o : VOps) (s : State) : Host.Outcome State Fault Refusal :=
  issueWord (.icmp o) (fun c s => c.lane2 s o.d o.a o.b (fun a b => (if condI (bitsN o.mod 4 2) (x32 (bitAt o.mod 1) a) (x32 (bitAt o.mod 1) b) then 1 else 0, 0))) s

/-- ISEL (R266): with a uniform selector the tag is that of the source chosen. -/
def execIsel (o : VOps) (s : State) : Host.Outcome State Fault Refusal :=
  issueWord (.isel o) (fun c s => 
    let x := c.vec s o.a
    let y := c.vec x.2.2 o.b
    let z := c.vec y.2.2 o.c
    let vals := (List.range 64).map (fun i => if z.1.getD i 0 != 0 then x.1.getD i 0 else y.1.getD i 0)
    let tag := if z.2.1 = .u then (if z.1.getD 0 0 != 0 then x.2.1 else y.2.1) else lanewise [x.2.1, y.2.1, z.2.1]
    .done (c.putV z.2.2 o.d vals tag)) s

/-- IPOPC (R266). -/
def execIpopc (o : VOps) (s : State) : Host.Outcome State Fault Refusal :=
  issueWord (.ipopc o) (fun c s => c.lane1 s o.d o.a (fun a => (BitVec.ofNat 32 (popCount a), 0))) s

/-- ICLZ (R266). -/
def execIclz (o : VOps) (s : State) : Host.Outcome State Fault Refusal :=
  issueWord (.iclz o) (fun c s => c.lane1 s o.d o.a (fun a => (BitVec.ofNat 32 (leadZeros a), 0))) s

/-- IBFE (R266, R267). -/
def execIbfe (o : IOps) (s : State) : Host.Outcome State Fault Refusal :=
  issueWord (.ibfe o) (fun c s => c.lane1 s o.d o.a (fun a => (fieldGet (!(bitAt o.mod 1)) a (bitsN o.imm 4 0) (bitsN o.imm 9 5 + 1), 0))) s

/-- IBFI (R266, R267): it reads its destination. -/
def execIbfi (o : IOps) (s : State) : Host.Outcome State Fault Refusal :=
  issueWord (.ibfi o) (fun c s => c.lane2 s o.d o.d o.a (fun d a => (fieldPut d a (bitsN o.imm 4 0) (bitsN o.imm 9 5 + 1), 0))) s

/-- MOV (R268). -/
def execMov (o : VOps) (s : State) : Host.Outcome State Fault Refusal :=
  issueWord (.mov o) (fun c s => c.lane1T s o.d o.a (fun t _ => t) (fun a => (a, 0))) s

/-- MOVI (R268). -/
def execMovi (o : WOps) (s : State) : Host.Outcome State Fault Refusal :=
  issueWord (.movi o) (fun c s => .done (c.putV s o.d (List.replicate 64 o.imm) .u)) s

/-- S2V (R268). -/
def execS2v (o : VOps) (s : State) : Host.Outcome State Fault Refusal :=
  issueWord (.s2v o) (fun c s => 
    let a := c.uni s o.a
    let s1 := c.putV a.2 o.d (List.replicate 64 (a.1.setWidth 32)) .u
    .done (c.putV s1 (o.d + 1) (List.replicate 64 (a.1.extractLsb' 32 32)) .u)) s

end Sys2Proof.Machine
end

