-- ==== Sys2Proof/Machine/Dispatch.lean ====
section
/-! DEFINITION. The step of each instruction word and of each event of the device: one arm per constructor. -/

namespace Sys2Proof.Machine

def exec (i : Instr) (s : State) : Host.Outcome State Fault Refusal :=
  match i with
  | .nop o => Sys2Proof.Machine.execNop o s
  | .bra o => Sys2Proof.Machine.execBra o s
  | .jmpi o => Sys2Proof.Machine.execJmpi o s
  | .call o => Sys2Proof.Machine.execCall o s
  | .ret o => Sys2Proof.Machine.execRet o s
  | .exit o => Sys2Proof.Machine.execExit o s
  | .trap o => Sys2Proof.Machine.execTrap o s
  | .tret o => Sys2Proof.Machine.execTret o s
  | .suspendCounter o => Sys2Proof.Machine.execSuspendCounter o s
  | .suspendTill o => Sys2Proof.Machine.execSuspendTill o s
  | .suspendMonitor o => Sys2Proof.Machine.execSuspendMonitor o s
  | .yield o => Sys2Proof.Machine.execYield o s
  | .grow o => Sys2Proof.Machine.execGrow o s
  | .shrink o => Sys2Proof.Machine.execShrink o s
  | .bart o => Sys2Proof.Machine.execBart o s
  | .barc o => Sys2Proof.Machine.execBarc o s
  | .barg o => Sys2Proof.Machine.execBarg o s
  | .spawn o => Sys2Proof.Machine.execSpawn o s
  | .signal o => Sys2Proof.Machine.execSignal o s
  | .wake o => Sys2Proof.Machine.execWake o s
  | .deposit o => Sys2Proof.Machine.execDeposit o s
  | .join o => Sys2Proof.Machine.execJoin o s
  | .evrd o => Sys2Proof.Machine.execEvrd o s
  | .evadd o => Sys2Proof.Machine.execEvadd o s
  | .sadd o => Sys2Proof.Machine.execSadd o s
  | .ssub o => Sys2Proof.Machine.execSsub o s
  | .smul o => Sys2Proof.Machine.execSmul o s
  | .smulh o => Sys2Proof.Machine.execSmulh o s
  | .sdiv o => Sys2Proof.Machine.execSdiv o s
  | .srem o => Sys2Proof.Machine.execSrem o s
  | .sand o => Sys2Proof.Machine.execSand o s
  | .sor o => Sys2Proof.Machine.execSor o s
  | .sxor o => Sys2Proof.Machine.execSxor o s
  | .sshl o => Sys2Proof.Machine.execSshl o s
  | .sshr o => Sys2Proof.Machine.execSshr o s
  | .ssar o => Sys2Proof.Machine.execSsar o s
  | .smin o => Sys2Proof.Machine.execSmin o s
  | .smax o => Sys2Proof.Machine.execSmax o s
  | .scmp o => Sys2Proof.Machine.execScmp o s
  | .ssel o => Sys2Proof.Machine.execSsel o s
  | .smov o => Sys2Proof.Machine.execSmov o s
  | .saddi o => Sys2Proof.Machine.execSaddi o s
  | .smovi o => Sys2Proof.Machine.execSmovi o s
  | .smovh o => Sys2Proof.Machine.execSmovh o s
  | .spopc o => Sys2Proof.Machine.execSpopc o s
  | .sclz o => Sys2Proof.Machine.execSclz o s
  | .sbfe o => Sys2Proof.Machine.execSbfe o s
  | .sbfi o => Sys2Proof.Machine.execSbfi o s
  | .iadd o => Sys2Proof.Machine.execIadd o s
  | .isub o => Sys2Proof.Machine.execIsub o s
  | .imul o => Sys2Proof.Machine.execImul o s
  | .imulh o => Sys2Proof.Machine.execImulh o s
  | .imad o => Sys2Proof.Machine.execImad o s
  | .iaddmin o => Sys2Proof.Machine.execIaddmin o s
  | .iabs o => Sys2Proof.Machine.execIabs o s
  | .iaddi o => Sys2Proof.Machine.execIaddi o s
  | .idot4 o => Sys2Proof.Machine.execIdot4 o s
  | .iand o => Sys2Proof.Machine.execIand o s
  | .ior o => Sys2Proof.Machine.execIor o s
  | .ixor o => Sys2Proof.Machine.execIxor o s
  | .ishl o => Sys2Proof.Machine.execIshl o s
  | .ishr o => Sys2Proof.Machine.execIshr o s
  | .isar o => Sys2Proof.Machine.execIsar o s
  | .imin o => Sys2Proof.Machine.execImin o s
  | .imax o => Sys2Proof.Machine.execImax o s
  | .icmp o => Sys2Proof.Machine.execIcmp o s
  | .isel o => Sys2Proof.Machine.execIsel o s
  | .ipopc o => Sys2Proof.Machine.execIpopc o s
  | .iclz o => Sys2Proof.Machine.execIclz o s
  | .ibfe o => Sys2Proof.Machine.execIbfe o s
  | .ibfi o => Sys2Proof.Machine.execIbfi o s
  | .mov o => Sys2Proof.Machine.execMov o s
  | .movi o => Sys2Proof.Machine.execMovi o s
  | .s2v o => Sys2Proof.Machine.execS2v o s
  | .v2s o => Sys2Proof.Machine.execV2s o s
  | .shfl o => Sys2Proof.Machine.execShfl o s
  | .shup o => Sys2Proof.Machine.execShup o s
  | .shdn o => Sys2Proof.Machine.execShdn o s
  | .shxor o => Sys2Proof.Machine.execShxor o s
  | .vote o => Sys2Proof.Machine.execVote o s
  | .reduce o => Sys2Proof.Machine.execReduce o s
  | .scan o => Sys2Proof.Machine.execScan o s
  | .tagof o => Sys2Proof.Machine.execTagof o s
  | .fadd o => Sys2Proof.Machine.execFadd o s
  | .fsub o => Sys2Proof.Machine.execFsub o s
  | .fmul o => Sys2Proof.Machine.execFmul o s
  | .ffma o => Sys2Proof.Machine.execFfma o s
  | .fmin o => Sys2Proof.Machine.execFmin o s
  | .fmax o => Sys2Proof.Machine.execFmax o s
  | .faddmin o => Sys2Proof.Machine.execFaddmin o s
  | .fcmp o => Sys2Proof.Machine.execFcmp o s
  | .fclass o => Sys2Proof.Machine.execFclass o s
  | .frnd o => Sys2Proof.Machine.execFrnd o s
  | .fscale o => Sys2Proof.Machine.execFscale o s
  | .pkadd o => Sys2Proof.Machine.execPkadd o s
  | .pkmul o => Sys2Proof.Machine.execPkmul o s
  | .pkfma o => Sys2Proof.Machine.execPkfma o s
  | .fdot2 o => Sys2Proof.Machine.execFdot2 o s
  | .fdot4 o => Sys2Proof.Machine.execFdot4 o s
  | .fdot8 o => Sys2Proof.Machine.execFdot8 o s
  | .cvt o => Sys2Proof.Machine.execCvt o s
  | .cvtsr o => Sys2Proof.Machine.execCvtsr o s
  | .qblk o => Sys2Proof.Machine.execQblk o s
  | .dqblk o => Sys2Proof.Machine.execDqblk o s
  | .rcp o => Sys2Proof.Machine.execRcp o s
  | .rsq o => Sys2Proof.Machine.execRsq o s
  | .sqrt o => Sys2Proof.Machine.execSqrt o s
  | .exp2 o => Sys2Proof.Machine.execExp2 o s
  | .log2 o => Sys2Proof.Machine.execLog2 o s
  | .sinpi o => Sys2Proof.Machine.execSinpi o s
  | .cospi o => Sys2Proof.Machine.execCospi o s
  | .tanh o => Sys2Proof.Machine.execTanh o s
  | .rand o => Sys2Proof.Machine.execRand o s
  | .ldp o => Sys2Proof.Machine.execLdp o s
  | .stp o => Sys2Proof.Machine.execStp o s
  | .ldt o => Sys2Proof.Machine.execLdt o s
  | .stt o => Sys2Proof.Machine.execStt o s
  | .ldg o => Sys2Proof.Machine.execLdg o s
  | .stg o => Sys2Proof.Machine.execStg o s
  | .ldw o => Sys2Proof.Machine.execLdw o s
  | .atomt o => Sys2Proof.Machine.execAtomt o s
  | .atomg o => Sys2Proof.Machine.execAtomg o s
  | .atomp o => Sys2Proof.Machine.execAtomp o s
  | .commit o => Sys2Proof.Machine.execCommit o s
  | .abort o => Sys2Proof.Machine.execAbort o s
  | .pfg o => Sys2Proof.Machine.execPfg o s
  | .bulk o => Sys2Proof.Machine.execBulk o s
  | .obres o => Sys2Proof.Machine.execObres o s
  | .obrel o => Sys2Proof.Machine.execObrel o s
  | .obload o => Sys2Proof.Machine.execObload o s
  | .modeM o => Sys2Proof.Machine.execModeM o s
  | .modeV o => Sys2Proof.Machine.execModeV o s
  | .mzero o => Sys2Proof.Machine.execMzero o s
  | .mop o => Sys2Proof.Machine.execMop o s
  | .msync o => Sys2Proof.Machine.execMsync o s
  | .mdrain o => Sys2Proof.Machine.execMdrain o s
  | .rdsr o => Sys2Proof.Machine.execRdsr o s
  | .wrsr o => Sys2Proof.Machine.execWrsr o s
  | .brk o => Sys2Proof.Machine.execBrk o s
  | .reservedOpcode w => Sys2Proof.Machine.execReservedOpcode w s
  | .issueSlotGrant core qtr => Sys2Proof.Machine.execIssueSlotGrant core qtr s
  | .clauseStart g => Sys2Proof.Machine.execClauseStart g s
  | .headerFetchFaultServiced g => Sys2Proof.Machine.execHeaderFetchFaultServiced g s
  | .admission core qtr => Sys2Proof.Machine.execAdmission core qtr s
  | .waitDemotion g => Sys2Proof.Machine.execWaitDemotion g s
  | .asyncTrapTaken g => Sys2Proof.Machine.execAsyncTrapTaken g s
  | .groupDeath x => Sys2Proof.Machine.execGroupDeath x s
  | .launchPlacement l => Sys2Proof.Machine.execLaunchPlacement l s
  | .eviction core qtr => Sys2Proof.Machine.execEviction core qtr s
  | .gridBarrierMessage m => Sys2Proof.Machine.execGridBarrierMessage m s
  | .gridBarrierReleaseMsg m => Sys2Proof.Machine.execGridBarrierReleaseMsg m s
  | .nameRequestDelivery r => Sys2Proof.Machine.execNameRequestDelivery r s
  | .nameResendTimer r => Sys2Proof.Machine.execNameResendTimer r s
  | .nameRequestAnswered r => Sys2Proof.Machine.execNameRequestAnswered r s
  | .savedDelivery r => Sys2Proof.Machine.execSavedDelivery r s
  | .joinAtHome r => Sys2Proof.Machine.execJoinAtHome r s
  | .restore g slot => Sys2Proof.Machine.execRestore g slot s
  | .moveInstallation g => Sys2Proof.Machine.execMoveInstallation g s
  | .forcedHalt g => Sys2Proof.Machine.execForcedHalt g s
  | .loadComplete g op mask near => Sys2Proof.Machine.execLoadComplete g op mask near s
  | .commitComplete g op sel => Sys2Proof.Machine.execCommitComplete g op sel s
  | .releasePerform g op sel => Sys2Proof.Machine.execReleasePerform g op sel s
  | .atomicPerformed g op order => Sys2Proof.Machine.execAtomicPerformed g op order s
  | .vaultRoutineRun g op lane => Sys2Proof.Machine.execVaultRoutineRun g op lane s
  | .sfuComplete g op => Sys2Proof.Machine.execSfuComplete g op s
  | .mopComplete core qtr => Sys2Proof.Machine.execMopComplete core qtr s
  | .multiplyArrayIssue g => Sys2Proof.Machine.execMultiplyArrayIssue g s
  | .obresComplete g op => Sys2Proof.Machine.execObresComplete g op s
  | .obloadComplete g op => Sys2Proof.Machine.execObloadComplete g op s
  | .mdrainReadComplete g op => Sys2Proof.Machine.execMdrainReadComplete g op s
  | .integrityCheckFail g k => Sys2Proof.Machine.execIntegrityCheckFail g k s
  | .requestListTaken core => Sys2Proof.Machine.execRequestListTaken core s
  | .presenceClearAck core queue => Sys2Proof.Machine.execPresenceClearAck core queue s
  | .engineEntryStart core queue => Sys2Proof.Machine.execEngineEntryStart core queue s
  | .engineLineArrival core queue => Sys2Proof.Machine.execEngineLineArrival core queue s
  | .engineEntryComplete core queue => Sys2Proof.Machine.execEngineEntryComplete core queue s
  | .fenceComplete core queue => Sys2Proof.Machine.execFenceComplete core queue s
  | .pageWalkComplete w => Sys2Proof.Machine.execPageWalkComplete w s
  | .priResponse r success => Sys2Proof.Machine.execPriResponse r success s
  | .atsInvalidate func va pages => Sys2Proof.Machine.execAtsInvalidate func va pages s
  | .submit func page off data posted => Sys2Proof.Machine.execSubmit func page off data posted s
  | .launch q => Sys2Proof.Machine.execLaunch q s
  | .tellerSignal q => Sys2Proof.Machine.execTellerSignal q s
  | .tellerDeposit q => Sys2Proof.Machine.execTellerDeposit q s
  | .copy q => Sys2Proof.Machine.execCopy q s
  | .move q => Sys2Proof.Machine.execMove q s
  | .kill q => Sys2Proof.Machine.execKill q s
  | .queueTableWrite q word value => Sys2Proof.Machine.execQueueTableWrite q word value s
  | .configure => Sys2Proof.Machine.execConfigure s
  | .retire => Sys2Proof.Machine.execRetire s
  | .admitWorld => Sys2Proof.Machine.execAdmitWorld s
  | .depart => Sys2Proof.Machine.execDepart s
  | .departComplete func => Sys2Proof.Machine.execDepartComplete func s
  | .invtlb => Sys2Proof.Machine.execInvtlb s
  | .invname => Sys2Proof.Machine.execInvname s
  | .assign => Sys2Proof.Machine.execAssign s
  | .release => Sys2Proof.Machine.execRelease s
  | .relnames => Sys2Proof.Machine.execRelnames s
  | .routine => Sys2Proof.Machine.execRoutine s
  | .partitionTableWrite p word value => Sys2Proof.Machine.execPartitionTableWrite p word value s
  | .registerWrite off value => Sys2Proof.Machine.execRegisterWrite off value s
  | .tenantSliceEnd p => Sys2Proof.Machine.execTenantSliceEnd p s
  | .graceExpiry g => Sys2Proof.Machine.execGraceExpiry g s
  | .clerkGraceExpiry e => Sys2Proof.Machine.execClerkGraceExpiry e s
  | .responseTaken func => Sys2Proof.Machine.execResponseTaken func s
  | .packetTagFailure p kind => Sys2Proof.Machine.execPacketTagFailure p kind s
  | .softError t => Sys2Proof.Machine.execSoftError t s
  | .treeNodeError node port base frames => Sys2Proof.Machine.execTreeNodeError node port base frames s
  | .hostWriteArrival pa data release => Sys2Proof.Machine.execHostWriteArrival pa data release s
  | .hostCxlMemAccess pa write bytes => Sys2Proof.Machine.execHostCxlMemAccess pa write bytes s
  | .tdiError func => Sys2Proof.Machine.execTdiError func s
  | .getTdispVersion func => Sys2Proof.Machine.execGetTdispVersion func s
  | .getTdispCapabilities func => Sys2Proof.Machine.execGetTdispCapabilities func s
  | .lockInterfaceRequest func => Sys2Proof.Machine.execLockInterfaceRequest func s
  | .getDeviceInterfaceReport func => Sys2Proof.Machine.execGetDeviceInterfaceReport func s
  | .getDeviceInterfaceState func => Sys2Proof.Machine.execGetDeviceInterfaceState func s
  | .startInterfaceRequest func => Sys2Proof.Machine.execStartInterfaceRequest func s
  | .stopInterfaceRequest func => Sys2Proof.Machine.execStopInterfaceRequest func s
  | .powerOnBoot => Sys2Proof.Machine.execPowerOnBoot s
  | .mrExtend n digest => Sys2Proof.Machine.execMrExtend n digest s
  | .fminRaise svn => Sys2Proof.Machine.execFminRaise svn s
  | .readyBitSet b => Sys2Proof.Machine.execReadyBitSet b s
  | .functionOutOfService b => Sys2Proof.Machine.execFunctionOutOfService b s
  | .configRequest func => Sys2Proof.Machine.execConfigRequest func s
  | .getVersion => Sys2Proof.Machine.execGetVersion s
  | .getCapabilities => Sys2Proof.Machine.execGetCapabilities s
  | .negotiateAlgorithms hash asym dhe sess => Sys2Proof.Machine.execNegotiateAlgorithms hash asym dhe sess s
  | .getDigests => Sys2Proof.Machine.execGetDigests s
  | .getCertificate off len => Sys2Proof.Machine.execGetCertificate off len s
  | .challenge nonce => Sys2Proof.Machine.execChallenge nonce s
  | .getMeasurements blocks nonce => Sys2Proof.Machine.execGetMeasurements blocks nonce s
  | .keyExchange dheKey => Sys2Proof.Machine.execKeyExchange dheKey s
  | .finish session mac => Sys2Proof.Machine.execFinish session mac s
  | .keyUpdate session => Sys2Proof.Machine.execKeyUpdate session s
  | .endSession session => Sys2Proof.Machine.execEndSession session s
  | .ideKm session stream key => Sys2Proof.Machine.execIdeKm session stream key s
  | .spdmUnsupportedRequest code => Sys2Proof.Machine.execSpdmUnsupportedRequest code s
  | .pldmDiscovery code => Sys2Proof.Machine.execPldmDiscovery code s
  | .pldmMonitoring sensor => Sys2Proof.Machine.execPldmMonitoring sensor s
  | .pldmFirmwareUpdate off data => Sys2Proof.Machine.execPldmFirmwareUpdate off data s
  | .activateFirmware => Sys2Proof.Machine.execActivateFirmware s
  | .fabricRequest ep off op => Sys2Proof.Machine.execFabricRequest ep off op s
  | .planeDead l => Sys2Proof.Machine.execPlaneDead l s
  | .heartbeatSend => Sys2Proof.Machine.execHeartbeatSend s
  | .peerSilent n => Sys2Proof.Machine.execPeerSilent n s
  | .endpointClaimAck ep plane => Sys2Proof.Machine.execEndpointClaimAck ep plane s
  | .windowEntryWrite n value => Sys2Proof.Machine.execWindowEntryWrite n value s
  | .collectiveSubmit value => Sys2Proof.Machine.execCollectiveSubmit value s
  | .collectiveComplete c => Sys2Proof.Machine.execCollectiveComplete c s
  | .dramRefresh vault => Sys2Proof.Machine.execDramRefresh vault s
  | .egressEscrowDrain k => Sys2Proof.Machine.execEgressEscrowDrain k s
  | .storeComplete g op => Sys2Proof.Machine.execStoreComplete g op s
  | .prefetchComplete g op => Sys2Proof.Machine.execPrefetchComplete g op s
  | .abortComplete g op => Sys2Proof.Machine.execAbortComplete g op s
  | .integrityCheckPass g k => Sys2Proof.Machine.execIntegrityCheckPass g k s
  | .heartbeatArrival ep => Sys2Proof.Machine.execHeartbeatArrival ep s
  | .atsTranslationCompletion r granted => Sys2Proof.Machine.execAtsTranslationCompletion r granted s
  | .clerkResponse e handled act => Sys2Proof.Machine.execClerkResponse e handled act s
  | .eventRingConsumed func cons => Sys2Proof.Machine.execEventRingConsumed func cons s

end Sys2Proof.Machine
end

