-- ==== Sys2Proof/Machine/Step.lean ====
section
/-! DEFINITION. One step of the device: the head of the agenda, or the next word of the clause that issues (log entry 1). -/

namespace Sys2Proof.Machine

/-- The next word of the clause that the cursor names: fetched, decoded, performed; but a clause that can start before it starts first (R338). -/
def State.nextWord (s : State) : Host.Outcome State Fault Refusal :=
  match s.cur with
  | none => .next s.idle
  | some (gi, k) =>
    match (s.grp gi).clauses[k]? with
    | none => .next { s with cur := none }
    | some c => match s.startDue (s.grp gi).pkg (s.issueClock gi c) with
      | some s1 => .next s1
      | none => match c.owes with
      | some x => .next (s.retryTrap gi k c x)
      | none => match s.fetch gi c.wordAddr.toNat with
        | .word w s1 => exec (decodeRaw w) s1
        | .hold s1 => .next (s1.fetchHeld gi k c)
        | .trap cause s1 => .next (s1.fetchTrap gi k c cause)

/-- One step without what the clocks that passed in it bring. -/
def State.oneStep (s : State) : Host.Outcome State Fault Refusal :=
  match s.agenda with
  | [] => s.nextWord
  | e :: rest =>
    let s1 := s.takeAgenda e rest
    match e.what with
    | none => s1.nextWord
    | some i => if isWord i then s1.nextWord else exec i s1

/-- One step: with it the counts of clocks that passed, the statuses that waited for an earlier write, and the answers to events whose records
are written now (R31, R342, R415). -/
def step (s : State) : Host.Outcome State Fault Refusal :=
  match s.oneStep with
  | .next s1 => .next (s.recount s1).landStatuses.actAnswers
  | .fault f => .fault f
  | .refused r => .refused r

/-- The state with an instruction stored where the next step fetches it. -/
def State.withFetchWord (s : State) (_nbits w : Nat) : State := s.placeWord (BitVec.ofNat 64 w)

end Sys2Proof.Machine
end

