-- ==== Sys2Proof/Safety.lean ====
section
/-! DEFINITION. Safe runs, the invariant of the memories, and the terms in which the claims speak: a word that is performed, operands that
are covered, and what a step leaves as it was. -/

namespace Sys2Proof

/-- The hub's registers in canonical form: offsets strictly rise from `lo`, and none is listed at its reset value. -/
def regsFrom : Nat → List (Nat × W64) → Bool
  | _, [] => true
  | lo, c :: cs => decide (lo ≤ c.1) && decide (c.2 ≠ Machine.regReset c.1) && regsFrom (c.1 + 1) cs

def regsOk (s : Machine.State) : Prop := regsFrom 0 s.hub.regs.cells = true

/-- The memories of a state, and the hub's registers, are in canonical form. -/
def memoriesOk (s : Machine.State) : Prop := s.mem.wf = true ∧ s.tile.wf = true ∧ s.opbuf.wf = true ∧ regsOk s

/-- n steps that only answer next states, each with canonical memories. -/
def SafeRun : Nat → Machine.State → Prop
  | 0, s => memoriesOk s
  | n + 1, s => memoriesOk s ∧ ∃ t, Machine.step s = .next t ∧ SafeRun n t

end Sys2Proof

namespace Sys2Proof.Machine

/-! A word that is performed -/

/-- The word i is performed in context c, with m the state at its issue: the cursor names the clause, which owes no trap; c is its context at
its issue clock; no test of R225 fails (`wordFate`, `issueFate`), with the status registers as a WRSR of the same clock found them (R325); and some
lane acts (R208). -/
structure Performs (i : Instr) (s : State) (c : Ctx) (m : State) : Prop where
  cursor : s.cur = some (c.gi, c.k)
  begun : ∃ c0, (s.grp c.gi).clauses[c.k]? = some c0 ∧ s.enterWord c.gi c.k c0 = (c.t, c.cl, m)
  owesNone : c.cl.owes = none
  row : view i = some c.view
  passes : wordFate i c.view ((m.grp c.gi).asAt c.t) c.cl = none
  timely : issueFate ((m.grp c.gi).asAt c.t) i c.view c.cl c.t = none
  context : c = wordCtx ((m.grp c.gi).asAt c.t) c.gi c.k c.cl c.t c.view
  acts : c.act ≠ 0

/-- No result into a register is outstanding when the word reads it (R340, R341). -/
def Ctx.covered (c : Ctx) (m : State) (r : RegCode) : Prop := (m.grp c.gi).pendTo r c.t = [] ∧ (m.grp c.gi).opsTo r = []

/-- No earlier fixed-latency result into a register becomes readable later than the word's own would (R342). -/
def Ctx.inTurn (c : Ctx) (m : State) (d : RegCode) : Prop :=
  ∀ w ∈ (m.grp c.gi).pendw, w.reg = d → w.ready ≤ c.t + latency c.view.op

/-- The value of a scalar or uniform source (R212): a scalar register, one lane of a vector register zero-extended, or 0. -/
def Group.scalarOf (g : Group) (lane : Nat) (r : RegCode) : W64 :=
  if isV r then ((g.vreg r.toNat).lane lane).setWidth 64 else if isS r then g.sreg r else 0

/-- The value of a vector source in a lane (R214): a vector register, the low half of a scalar register, the lane's number, its quad's, or 0. -/
def Group.laneOf (g : Group) (r : RegCode) (i : Nat) : W32 :=
  if isV r then (g.vreg r.toNat).lane i else if isS r then (g.sreg r).setWidth 32
  else if r = 0xF1 then BitVec.ofNat 32 i else if r = 0xF2 then BitVec.ofNat 32 (i / 4) else 0

/-- The tag of a vector source (R214, R258). -/
def Group.tagOf (g : Group) (r : RegCode) : Tag :=
  if isV r then (g.vreg r.toNat).tag else if r = 0xF1 then .a else if r = 0xF2 then .g else .u

/-- The flags raised by the lanes that act (R171), where lane i raises `fl i`. -/
def Ctx.raised (c : Ctx) (fl : Nat → Flags) : Flags := (lanesOf c.act).foldl (fun f i => f ||| fl i) 0

/-- The lanes that a write covers: all 64 where it is full, else those that act (R257). -/
def Ctx.written (c : Ctx) : BitVec 64 := if c.full then BitVec.allOnes 64 else c.act

/-- The j-th register of an operand of consecutive registers; a scalar or special code stands for itself. -/
def nthReg (r : RegCode) (j : Nat) : RegCode := if isV r then r + BitVec.ofNat 8 j else r

/-! What a step leaves as it was -/

/-- A state without its groups, cores, cursor and counters: the memories, escrow, poison and presence marks, requests, the hub, boot and
fabric state, the agenda and the answers. -/
def State.outside (s : State) : State := { s with groups := [], cores := [], cur := none, freeCount := 0, seq := 0 }

/-- A core without its clock and its quarters' issue slots: caches, engine queues and lists. -/
def Core.units (c : Core) : Core := { c with clk := 0, qtr := c.qtr.map (fun q => { q with free := 0, user := 0 }) }

/-- A group without its vector and scalar registers, flags, results not yet readable, and place in its program. -/
def Group.others (g : Group) : Group :=
  { g with v := [], s := [], flags := 0, pendw := [], pendf := [], clauses := [], pc := [], rpos := [], emark := 0 }

/-- Nothing outside group gi has changed but clocks. -/
def Elsewhere (gi : Nat) (s t : State) : Prop :=
  t.outside = s.outside ∧ (∀ j, j ≠ gi → t.grp j = s.grp j) ∧ ∀ p, (t.core p).units = (s.core p).units

/-! Results -/

/-- A word's one effect is a value in a scalar register, readable `lat` clocks after its issue, with flags raised then (R171, R339); where the
second run's clause beside it has a result in that register readable in the same clock, that result is kept and this value is not (R252).
Every other register, special register, group and byte of memory is as it was; flags alone may have been raised by words before it. -/
structure ScalarResult (c : Ctx) (lat : Nat) (s m t : State) (d : RegCode) (x : W64) (f : Flags) : Prop where
  value : (t.grp c.gi).s = if (m.grp c.gi).secondWrites d (c.t + lat) c.cl.beside then (s.grp c.gi).s
    else setNth (s.grp c.gi).s (sNum d) x
  readable : if (m.grp c.gi).secondWrites d (c.t + lat) c.cl.beside then (t.grp c.gi).pendw = (m.grp c.gi).pendw
    else ∃ w, (t.grp c.gi).pendw = (m.grp c.gi).pendw ++ [w] ∧ w.reg = d ∧ w.ready = c.t + lat
  raises : (t.grp c.gi).pendf = (m.grp c.gi).pendf ++ (if f = 0 then [] else [(c.t + lat, f)])
  flags : (t.grp c.gi).flags = (m.grp c.gi).flags
  vectors : (t.grp c.gi).v = (s.grp c.gi).v
  others : (t.grp c.gi).others = (s.grp c.gi).others
  elsewhere : Elsewhere c.gi s t

/-- A word's one effect is values in a vector register: in the lanes that act, or in all 64 where the write is full (R257), readable `lat`
clocks after its issue, with flags raised then; `val` gives the value of a lane and `tag` the tag of a full write where the values have
its form (R258). -/
structure VectorResult (c : Ctx) (lat : Nat) (s m t : State) (d : RegCode) (val : Nat → W32) (tag : Tag) (f : Flags) : Prop where
  value : ∃ r : VReg, (t.grp c.gi).v = setNth (s.grp c.gi).v d.toNat r ∧
    (∀ i < 64, r.lane i = if c.full = true ∨ c.act.getLsbD i = true then val i else ((s.grp c.gi).vreg d.toNat).lane i) ∧
    r.tag = if c.full then tagIf tag ((List.range 64).map val) else .g
  readable : ∃ w, (t.grp c.gi).pendw = (m.grp c.gi).pendw ++ [w] ∧ w.reg = d ∧ w.ready = c.t + lat
  raises : (t.grp c.gi).pendf = (m.grp c.gi).pendf ++ (if f = 0 then [] else [(c.t + lat, f)])
  flags : (t.grp c.gi).flags = (m.grp c.gi).flags
  scalars : (t.grp c.gi).s = (s.grp c.gi).s
  others : (t.grp c.gi).others = (s.grp c.gi).others
  elsewhere : Elsewhere c.gi s t

/-! Words that leave something outstanding, or change other parts of the machine -/

/-- A group's registers and flags, and what is to be readable later, are as the word found them. -/
structure RegsKept (gi : Nat) (m t : State) : Prop where
  v : (t.grp gi).v = (m.grp gi).v
  s : (t.grp gi).s = (m.grp gi).s
  flags : (t.grp gi).flags = (m.grp gi).flags
  pendw : (t.grp gi).pendw = (m.grp gi).pendw
  pendf : (t.grp gi).pendf = (m.grp gi).pendf

/-- All that changes is what `fg` does to the word's group and `fo` outside every group; registers, clocks and its place in the program
apart. -/
structure Changes (gi : Nat) (m t : State) (fg : Group → Group) (fo : State → State) : Prop where
  group : (t.grp gi).others = fg (m.grp gi).others
  outside : t.outside = fo m.outside
  groups : ∀ j, j ≠ gi → t.grp j = m.grp j
  cores : ∀ p, (t.core p).units = (m.core p).units

/-- The word i reaches its checks in context c, with m the state at its issue: as for a word that is performed, but for its checks and for
the lanes that act. -/
structure Reaches (i : Instr) (s : State) (c : Ctx) (m : State) : Prop where
  cursor : s.cur = some (c.gi, c.k)
  begun : ∃ c0, (s.grp c.gi).clauses[c.k]? = some c0 ∧ s.enterWord c.gi c.k c0 = (c.t, c.cl, m)
  owesNone : c.cl.owes = none
  row : view i = some c.view
  context : c = wordCtx ((m.grp c.gi).asAt c.t) c.gi c.k c.cl c.t c.view

/-- A word's place in its program is passed (R206, R338): the clause goes on to its next word, or ends with its last: lanes still live
that took the transfer are at its target, the others at the next header. The group's quarter has issued at c.t, and the cursor names the
word of the core that is due first (R32, R345). -/
structure Proceeds (c : Ctx) (m t : State) (taken : BitVec 64) (target : W64) : Prop where
  goesOn : c.cl.pos < c.cl.count →
    (t.grp c.gi).clauses = setNth (m.grp c.gi).clauses c.k
      { c.cl with mark := c.t + max 1 c.view.lay.anc.stall.toNat, pos := c.cl.pos + 1, sampled := true } ∧
    (t.grp c.gi).pc = (m.grp c.gi).pc ∧ (t.grp c.gi).rpos = (m.grp c.gi).rpos ∧ (t.grp c.gi).emark = (m.grp c.gi).emark
  ends : c.cl.count ≤ c.cl.pos →
    (t.grp c.gi).clauses = dropNth c.k (m.grp c.gi).clauses ∧
    (t.grp c.gi).emark = max (m.grp c.gi).emark (c.t + max 1 c.view.lay.anc.stall.toNat) ∧
    (∀ i < 64, (t.grp c.gi).pc.getD i 0 = if (t.grp c.gi).live.getLsbD i then
      (if c.cl.lanes.getLsbD i then (if taken.getLsbD i then target else c.cl.next) else (m.grp c.gi).pc.getD i 0) else 0) ∧
    (∀ i < 64, (t.grp c.gi).rpos.getD i 0 = if (t.grp c.gi).live.getLsbD i then
      (if c.cl.lanes.getLsbD i then 0 else (m.grp c.gi).rpos.getD i 0) else 0)
  slot : (t.core (m.grp c.gi).pkg).qtr = modifyNth (fun q => { q with free := max q.free (c.t + 1), user := c.gi }) (m.grp c.gi).qtr
    (m.core (m.grp c.gi).pkg).qtr
  cursor : t.cur = (soonest (t.due (m.grp c.gi).pkg)).map (fun x => (x.1, x.2.1))

/-- The word is held (R217): it is tried again from the next clock on, and nothing else has changed. -/
structure Waits (c : Ctx) (m t : State) : Prop where
  kept : RegsKept c.gi m t
  changes : Changes c.gi m t (fun g => g) (fun s => s)
  clauses : (t.grp c.gi).clauses = setNth (m.grp c.gi).clauses c.k { c.cl with mark := max c.cl.mark (c.t + 1) }
  place : (t.grp c.gi).pc = (m.grp c.gi).pc ∧ (t.grp c.gi).rpos = (m.grp c.gi).rpos ∧ (t.grp c.gi).emark = (m.grp c.gi).emark
  cursor : t.cur = (soonest (t.due (m.grp c.gi).pkg)).map (fun x => (x.1, x.2.1))

/-- A word done with no effect but that its place is passed, with what `fg` does to its group and `fo` outside every group. -/
def Does (c : Ctx) (m t : State) (fg : Group → Group) (fo : State → State) : Prop :=
  RegsKept c.gi m t ∧ Changes c.gi m t fg fo ∧ Proceeds c m t c.cl.taken c.cl.target

/-- An outstanding operation of the word, with the slot it sets (R217). -/
def Ctx.operation (c : Ctx) (id : Nat) (dest : RegCode) (span : Nat) (kind : OpKind) : Op :=
  ⟨id, c.view.lay.anc.sb.toNat, dest, span, c.act, c.cl.beside, kind⟩

/-- The word leaves one operation outstanding, and nothing else changes. -/
def Issues (c : Ctx) (m t : State) (dest : RegCode) (span : Nat) (kind : OpKind) : Prop :=
  RegsKept c.gi m t ∧ ∃ id, Changes c.gi m t (fun g => { g with ops := g.ops ++ [c.operation id dest span kind] }) (fun s => s)

/-- The value of a 64-bit operand in a lane (kinds ga and md): two vector registers, a scalar register, or 0 (R218). -/
def Group.pairOf (g : Group) (r : RegCode) (i : Nat) : W64 :=
  if isV r then (g.vreg (r + 1).toNat).lane i ++ (g.vreg r.toNat).lane i else if isS r then g.sreg r else 0

/-- A lane's address: 32 bits for the tile store and private space, 64 for global memory, with the offset of field C (R218). -/
def Group.address32 (g : Group) (o : VOps) (off : Int) (i : Nat) : Nat := (g.laneOf o.a i + BitVec.ofInt 32 off).toNat
def Group.address64 (g : Group) (o : VOps) (off : Int) (i : Nat) : Nat := (g.pairOf o.a i + BitVec.ofInt 64 off).toNat

/-- The bytes of memory data in a lane (R218): of consecutive vector registers, low register first, of a scalar register, or zeros. -/
def Group.dataOf (g : Group) (r : RegCode) (bytes i : Nat) : List Byte :=
  if isV r then ((List.range ((bytes + 3) / 4)).flatMap (fun j => bytesLE 4 ((g.vreg (r + BitVec.ofNat 8 j).toNat).lane i).toNat)).take bytes
  else if isS r then (bytesLE 8 (g.sreg r).toNat).take bytes else List.replicate bytes 0

/-- An atomic's operand in a lane: 64 bits, or 32 bits zero-extended (R292). -/
def Group.atomOf (g : Group) (r : RegCode) (width i : Nat) : W64 := if width = 3 then g.pairOf r i else (g.laneOf r i).setWidth 64

/-- The registers of an operand of n consecutive ones are covered. -/
def Ctx.coveredN (c : Ctx) (m : State) (r : RegCode) (n : Nat) : Prop := ∀ j < n, c.covered m (nthReg r j)

/-- The word leaves one operation outstanding, whose kind may depend on its number, and changes its group by `fg` and what is outside
the groups by `fo` besides. -/
def IssuesWith (c : Ctx) (m t : State) (dest : RegCode) (span : Nat) (kind : Nat → OpKind) (fg : Group → Group) (fo : Nat → State → State) :
    Prop :=
  RegsKept c.gi m t ∧ ∃ id, Changes c.gi m t (fun g => { fg g with ops := g.ops ++ [c.operation id dest span (kind id)] }) (fo id)

/-- A word whose status is known at issue: its slot clears at once, and the status is in its destination; while a fixed-latency write to that
register has still to land, the operation stays, ended, with its status (R342). -/
def EndsAtOnce (i : Instr) (s : State) (c : Ctx) (m : State) (d : RegCode) (st : W64) : Prop :=
  ((∀ w ∈ (m.grp c.gi).pendw, w.reg ≠ d) → ∃ t, exec i s = .next t ∧
    (t.grp c.gi).s = (if isS d then setNth (m.grp c.gi).s (sNum d) st else (m.grp c.gi).s) ∧ (t.grp c.gi).v = (m.grp c.gi).v ∧
    (t.grp c.gi).others = (m.grp c.gi).others ∧ t.outside = m.outside ∧ Proceeds c m t c.cl.taken c.cl.target ∧
    ∀ j, j ≠ c.gi → t.grp j = m.grp j) ∧
  (isS d = true → (∃ w ∈ (m.grp c.gi).pendw, w.reg = d) → ∃ t, exec i s = .next t ∧ Issues c m t d 1 (.ended st) ∧
    Proceeds c m t c.cl.taken c.cl.target)

/-- The numbers of a group's outstanding operations and results lie below n, the next number. -/
def Group.numbered (g : Group) (n : Nat) : Prop := (∀ p ∈ g.ops, p.id < n) ∧ ∀ w ∈ g.pendw, w.seq < n

/-- The word's slot is not at its limit (R217). -/
def Ctx.slotFree (c : Ctx) (m : State) : Prop :=
  c.view.lay.anc.sb = 0 ∨ (m.grp c.gi).slotCount c.view.lay.anc.sb.toNat < Config.slotMax

/-- No limit of its slot and no acquire before it holds back an access to memory (R119, R217). -/
def Ctx.accessFree (c : Ctx) (m : State) : Prop := c.slotFree m ∧ (m.grp c.gi).acquiring = false

/-- The trap of a word is taken at its clock: the clause already owes it, or none beside it owes a trap or has a word due in that clock. -/
def Ctx.trapsNow (c : Ctx) (m : State) : Prop :=
  c.cl.owes ≠ none ∨ ∀ x ∈ dropNth c.k (m.grp c.gi).clauses, x.owes = none ∧ c.t < x.mark

/-- Nothing holds back an effect that leaves the group: no line is unchecked and none has failed (R114, R115). -/
def Ctx.mayLeave (c : Ctx) (m : State) : Prop := (m.grp c.gi).owedInteg = false ∧ (m.grp c.gi).debt = []

/-- The request that a name instruction posts (R249, R67 to R69): its outstanding operation, and a request that carries the operation
to the entry found for the name in the sender's world: answered at once where nothing is to be delivered; else sent, after a release
of the stores before it at device scope, or at system scope for a host entry, where it releases. A denial is recorded (R333) where the
world has a ring. -/
structure Posts (c : Ctx) (m t : State) (d : RegCode) (name : W64) (op : NameOp) (rel : Bool) : Prop where
  kept : RegsKept c.gi m t
  place : Proceeds c m t c.cl.taken c.cl.target
  request : ∀ r, (m.lookName (m.grp c.gi).pkg (m.grp c.gi).func (m.classOf c.gi) name op false).1 = r →
    (r = .denied → m.ringVa (m.grp c.gi).func = 0) →
    ∃ id, let e := match r with
        | .go e => e
        | _ => ⟨0, 0, 0, 0, 0⟩
      let scope := match r with
        | .go e => if rel then some (if e.state = 4 then 4 else 3) else none
        | _ => none
      let stage := match r with
        | .answer x => ReqStage.answered x
        | .denied => .answered 2
        | .go e => if rel then .release (if e.state = 4 then 4 else 3) else .send
      (t.grp c.gi).others = { (m.grp c.gi).others with ops := (m.grp c.gi).ops ++ [c.operation id d 1 (.request scope)] } ∧
      t.reqs = m.reqs ++ [⟨id, .group c.gi id, some (m.grp c.gi).pkg, (m.grp c.gi).func, m.classOf c.gi, name, op, stage, e.w0, e.w1, 0⟩] ∧
      t.escrow = match scope with
        | some sc => (m.sealEscrow c.gi sc id).escrow
        | none => m.escrow

/-! What a word gives, for every state in which it is performed with covered sources and a result in turn -/

/-- A scalar result that is a function of nothing but the word. -/
def ScalarGives0 (i : Instr) (lat : Nat) (d : RegCode) (x : W64) : Prop :=
  ∀ s c m, Performs i s c m → c.inTurn m d → ∃ t, exec i s = .next t ∧ ScalarResult c lat s m t d x 0

/-- A scalar result, with flags, of one, two or three scalar or uniform sources. -/
def ScalarGives1 (i : Instr) (lat : Nat) (d a : RegCode) (f : W64 → W64 × Flags) : Prop :=
  ∀ s c m, Performs i s c m → c.covered m a → c.inTurn m d →
    ∃ t, exec i s = .next t ∧
      let r := f ((m.grp c.gi).scalarOf c.lane a)
      ScalarResult c lat s m t d r.1 r.2

def ScalarGives2 (i : Instr) (lat : Nat) (d a b : RegCode) (f : W64 → W64 → W64 × Flags) : Prop :=
  ∀ s c m, Performs i s c m → c.covered m a → c.covered m b → c.inTurn m d →
    ∃ t, exec i s = .next t ∧
      let r := f ((m.grp c.gi).scalarOf c.lane a) ((m.grp c.gi).scalarOf c.lane b)
      ScalarResult c lat s m t d r.1 r.2

def ScalarGives3 (i : Instr) (lat : Nat) (d a b e : RegCode) (f : W64 → W64 → W64 → W64 × Flags) : Prop :=
  ∀ s c m, Performs i s c m → c.covered m a → c.covered m b → c.covered m e → c.inTurn m d →
    ∃ t, exec i s = .next t ∧
      let r := f ((m.grp c.gi).scalarOf c.lane a) ((m.grp c.gi).scalarOf c.lane b) ((m.grp c.gi).scalarOf c.lane e)
      ScalarResult c lat s m t d r.1 r.2

/-- A vector result, lane by lane, with flags, of one, two or three vector sources; `tag` gives the tag of a full write from the sources'
tags and the 64 values. -/
def VectorGives1 (i : Instr) (lat : Nat) (d a : RegCode) (tag : Tag → List W32 → Tag) (f : W32 → W32 × Flags) : Prop :=
  ∀ s c m, Performs i s c m → c.covered m a → c.inTurn m d →
    ∃ t, exec i s = .next t ∧
      let r := fun j => f ((m.grp c.gi).laneOf a j)
      let vals := (List.range 64).map (fun j => (r j).1)
      VectorResult c lat s m t d (fun j => (r j).1) (tag ((m.grp c.gi).tagOf a) vals) (c.raised (fun j => (r j).2))

def VectorGives2 (i : Instr) (lat : Nat) (d a b : RegCode) (tag : Tag → Tag → List W32 → Tag) (f : W32 → W32 → W32 × Flags) : Prop :=
  ∀ s c m, Performs i s c m → c.covered m a → c.covered m b → c.inTurn m d →
    ∃ t, exec i s = .next t ∧
      let r := fun j => f ((m.grp c.gi).laneOf a j) ((m.grp c.gi).laneOf b j)
      let vals := (List.range 64).map (fun j => (r j).1)
      VectorResult c lat s m t d (fun j => (r j).1) (tag ((m.grp c.gi).tagOf a) ((m.grp c.gi).tagOf b) vals)
        (c.raised (fun j => (r j).2))

def VectorGives3 (i : Instr) (lat : Nat) (d a b e : RegCode) (tag : Tag → Tag → Tag → List W32 → Tag)
    (f : W32 → W32 → W32 → W32 × Flags) : Prop :=
  ∀ s c m, Performs i s c m → c.covered m a → c.covered m b → c.covered m e → c.inTurn m d →
    ∃ t, exec i s = .next t ∧
      let r := fun j => f ((m.grp c.gi).laneOf a j) ((m.grp c.gi).laneOf b j) ((m.grp c.gi).laneOf e j)
      let vals := (List.range 64).map (fun j => (r j).1)
      VectorResult c lat s m t d (fun j => (r j).1)
        (tag ((m.grp c.gi).tagOf a) ((m.grp c.gi).tagOf b) ((m.grp c.gi).tagOf e) vals) (c.raised (fun j => (r j).2))

/-- The same for a word of the multiply class, which waits for an empty array queue (R131, R260). -/
def Ctx.arrayIdle (c : Ctx) (m : State) : Prop := (m.quarter (m.grp c.gi).pkg (m.grp c.gi).qtr).arrayQ = []

def ArrayGives2 (i : Instr) (lat : Nat) (d a b : RegCode) (tag : Tag → Tag → List W32 → Tag) (f : W32 → W32 → W32 × Flags) : Prop :=
  ∀ s c m, Performs i s c m → c.arrayIdle m → c.covered m a → c.covered m b → c.inTurn m d →
    ∃ t, exec i s = .next t ∧
      let r := fun j => f ((m.grp c.gi).laneOf a j) ((m.grp c.gi).laneOf b j)
      let vals := (List.range 64).map (fun j => (r j).1)
      VectorResult c lat s m t d (fun j => (r j).1) (tag ((m.grp c.gi).tagOf a) ((m.grp c.gi).tagOf b) vals)
        (c.raised (fun j => (r j).2))

def ArrayGives3 (i : Instr) (lat : Nat) (d a b e : RegCode) (tag : Tag → Tag → Tag → List W32 → Tag)
    (f : W32 → W32 → W32 → W32 × Flags) : Prop :=
  ∀ s c m, Performs i s c m → c.arrayIdle m → c.covered m a → c.covered m b → c.covered m e → c.inTurn m d →
    ∃ t, exec i s = .next t ∧
      let r := fun j => f ((m.grp c.gi).laneOf a j) ((m.grp c.gi).laneOf b j) ((m.grp c.gi).laneOf e j)
      let vals := (List.range 64).map (fun j => (r j).1)
      VectorResult c lat s m t d (fun j => (r j).1)
        (tag ((m.grp c.gi).tagOf a) ((m.grp c.gi).tagOf b) ((m.grp c.gi).tagOf e) vals) (c.raised (fun j => (r j).2))

/-- Results in n consecutive vector registers, each with its own tag (S2V, QBLK, RAND). -/
structure VectorResults (c : Ctx) (lat : Nat) (s m t : State) (d : RegCode) (n : Nat) (val : Nat → Nat → W32) (tag : Nat → Tag) (f : Flags) :
    Prop where
  value : ∃ r : Nat → VReg,
    (t.grp c.gi).v = (List.range n).foldl (fun v j => setNth v (d + BitVec.ofNat 8 j).toNat (r j)) (s.grp c.gi).v ∧
    ∀ j < n, (∀ i < 64, (r j).lane i = if c.full = true ∨ c.act.getLsbD i = true then val j i
        else ((s.grp c.gi).vreg (d + BitVec.ofNat 8 j).toNat).lane i) ∧
      (r j).tag = if c.full then tagIf (tag j) ((List.range 64).map (val j)) else .g
  readable : ∃ ws, (t.grp c.gi).pendw = (m.grp c.gi).pendw ++ ws ∧
    ws.map (fun w => (w.reg, w.ready)) = (List.range n).map (fun j => (d + BitVec.ofNat 8 j, c.t + lat))
  raises : (t.grp c.gi).pendf = (m.grp c.gi).pendf ++ (if f = 0 then [] else [(c.t + lat, f)])
  flags : (t.grp c.gi).flags = (m.grp c.gi).flags
  scalars : (t.grp c.gi).s = (s.grp c.gi).s
  others : (t.grp c.gi).others = (s.grp c.gi).others
  elsewhere : Elsewhere c.gi s t

/-! Completions -/

/-- No byte of memory has changed. -/
def MemoryKept (s t : State) : Prop := t.mem = s.mem ∧ t.tile = s.tile ∧ t.opbuf = s.opbuf

/-- A resident group has one outstanding operation, and no result is still to become readable. -/
structure Alone (s : State) (gi : Nat) (o : Op) : Prop where
  index : gi < s.groups.length
  resident : (s.grp gi).resident = true
  one : (s.grp gi).ops = [o]
  settled : (s.grp gi).pendw = []

/-- A status in the destination of an operation that has ended: a scalar register, or none. -/
def Ended (s t : State) (gi : Nat) (d : RegCode) (status : W64) : Prop :=
  (t.grp gi).ops = [] ∧ (t.grp gi).s = (if isS d then setNth (s.grp gi).s (sNum d) status else (s.grp gi).s) ∧ (t.grp gi).v = (s.grp gi).v

/-- The registers that an operation of a width writes: one, or two for 64 bits (R218). -/
def regsOf (width : Nat) : Nat := if width = 3 then 2 else 1

/-- The destination of an operation of a width lies among the group's vector registers, or there is none. -/
def destIn (g : Group) (d : RegCode) (width : Nat) : Prop := d = 0xFF ∨ d.toNat + regsOf width ≤ min 192 g.v.length

/-- Lane i alone of the registers of a destination holds a value of 32 or 64 bits, low word first, and they are G; every other register is as it
was. Without a destination no register is written. -/
def LaneLands (s t : State) (gi : Nat) (d : RegCode) (width i : Nat) (x : W64) : Prop :=
  (t.grp gi).s = (s.grp gi).s ∧ (d = 0xFF → (t.grp gi).v = (s.grp gi).v) ∧
  (d ≠ 0xFF → (∀ r < regsOf width, ((t.grp gi).vreg (d.toNat + r)).tag = .g ∧ ∀ j < 64, ((t.grp gi).vreg (d.toNat + r)).lane j =
      if j = i then x.extractLsb' (32 * r) 32 else ((s.grp gi).vreg (d.toNat + r)).lane j) ∧
    ∀ n, (n < d.toNat ∨ d.toNat + regsOf width ≤ n) → (t.grp gi).vreg n = (s.grp gi).vreg n)

/-- A load's bytes land in its registers: in each lane of `vals` the next four for each register, every other lane and register as it was; they are G. -/
def LoadLands (s t : State) (gi : Nat) (d : RegCode) (span : Nat) (vals : List (Nat × List Byte)) : Prop :=
  (t.grp gi).ops = [] ∧ MemoryKept s t ∧ (t.grp gi).s = (s.grp gi).s ∧ (t.grp gi).flags = (s.grp gi).flags ∧
  (∀ r < span, ∀ i < 64, ((t.grp gi).vreg (d.toNat + r)).lane i = match vals.find? (fun x => x.1 == i) with
    | some x => BitVec.ofNat 32 (ofBytesLE ((x.2.drop (4 * r)).take 4))
    | none => ((s.grp gi).vreg (d.toNat + r)).lane i) ∧
  (∀ r < span, ((t.grp gi).vreg (d.toNat + r)).tag = .g) ∧
  ∀ n, (n < d.toNat ∨ d.toNat + span ≤ n) → (t.grp gi).vreg n = (s.grp gi).vreg n

/-- The byte of a place once an entry's data has landed. -/
def Esc.over (e : Esc) (a : Nat) (b : Byte) : Byte := if e.sector ≤ a then (e.data.getD (a - e.sector) none).getD b else b

/-- A group-level entry of a group under a seal, that its commit may move: not to be translated again, and behind no operation. -/
structure Held (s : State) (gi sealId : Nat) (e : Esc) : Prop where
  owner : e.owner = gi
  level : e.level = .group
  sealed : e.sealId = sealId
  unmarked : e.marked = false
  after : e.after = []
  whole : e.sector % 32 = 0 ∧ e.data.length = 32
  present : e.space = .glob ∨ alignDown e.sector 64 ∉ s.absent

/-- Such an entry whose sector is one of device DRAM that takes its write. -/
structure Lands (s : State) (gi sealId : Nat) (e : Esc) : Prop extends Held s gi sealId e where
  space : e.space = .glob
  region : regionOf e.sector = 0
  clean : s.poisoned .glob e.sector = false
  taken : s.turnsAway (s.grp gi).func e.sector = false

/-- The partition command w is being performed, and its word 0 is one that every command needs (R378, R379). -/
structure Commanded (s : State) (op : Nat) (w : List W64) : Prop where
  words : s.hub.pcmd = w
  three : w.length = 3
  named : pcOp w = op
  formed : pcmdOk w = true

/-- The partition command has completed with a status: PSTAT reads it, BUSY clear, and SEQ one higher (R378). -/
def Completed (s t : State) (status : Nat) : Prop :=
  t.hub.pcmd = [] ∧ t.reg offPstat = BitVec.ofNat 64 ((s.regN offPstat 47 32 + 1) % 2 ^ 16 * 2 ^ 32 + status)

/-- Nothing is under way that an answer FENCED could end: no operation, no entry in escrow or the egress escrow, no suspended group. -/
def Quiet (s : State) : Prop :=
  (∀ g ∈ s.groups, g.ops = [] ∧ g.st ≠ .suspended) ∧ s.escrow = [] ∧ s.egress = []

/-! Tags of full writes (R258) -/

/-- The lanewise rule on one, two or three sources. -/
def lanewise1 (x : Tag) (_ : List W32) : Tag := if x = .u then .u else .g
def lanewise2 (x y : Tag) (_ : List W32) : Tag := if x = .u ∧ y = .u then .u else .g
def lanewise3 (x y z : Tag) (_ : List W32) : Tag := if x = .u ∧ y = .u ∧ z = .u then .u else .g

/-- The affine rules: the tag of a computed A, whose stride may be 0, where the sources allow it. -/
def affineIf (p : Bool) (vals : List W32) : Tag := if p then (if vals.getD 1 0 = vals.getD 0 0 then .u else .a) else .g

/-! Trees over lanes (R178, R179) -/

/-- The tree over the 2^k lanes from lo on: its value, and the flags of its combinations. -/
def treeOf (op : W32 → W32 → W32 × Flags) (x : Nat → Option W32) : Nat → Nat → Option W32 × Flags
  | lo, 0 => (x lo, 0)
  | lo, k + 1 =>
    let l := treeOf op x lo k
    let h := treeOf op x (lo + 2 ^ k) k
    let r := combine op l.1 h.1
    (r.1, l.2 ||| h.2 ||| r.2)

/-- The scan after k levels, at lane i, and the flags of its first k levels. -/
def scanOf (op : W32 → W32 → W32 × Flags) (x : Nat → Option W32) : Nat → Nat → Option W32
  | 0, i => x i
  | k + 1, i => if 2 ^ k ≤ i then (combine op (scanOf op x k (i - 2 ^ k)) (scanOf op x k i)).1 else scanOf op x k i

def scanFlags (op : W32 → W32 → W32 × Flags) (x : Nat → Option W32) : Flags :=
  (List.range 6).foldl (fun f k => (List.range 64).foldl (fun f i =>
    f ||| (if 2 ^ k ≤ i then (combine op (scanOf op x k (i - 2 ^ k)) (scanOf op x k i)).2 else 0)) f) 0

/-- A number limited to [lo, hi], as w bits, with SAT where the limit changes it (R254, R263). -/
def limited (w : Nat) (lo hi x : Int) : BitVec w × Flags :=
  (BitVec.ofInt w (max lo (min hi x)), if lo ≤ x ∧ x ≤ hi then 0 else fSAT)

/-- A word read as signed or unsigned, and a byte of it. -/
def numberOf {w : Nat} (uns : Bool) (x : BitVec w) : Int := if uns then (x.toNat : Int) else x.toInt
def byteOf (uns : Bool) (x : W32) (n : Nat) : Int := numberOf uns (x.extractLsb' (8 * n) 8)

/-- fitX of R263: a number wrapped to 32 bits, or limited to the range of its signedness. -/
def fitted (sat uns : Bool) (x : Int) : W32 × Flags :=
  if sat then (if uns then limited 32 0 (2 ^ 32 - 1) x else limited 32 (-(2 ^ 31)) (2 ^ 31 - 1) x) else (BitVec.ofInt 32 x, 0)

/-- A condition of SCMP and ICMP by its code (R253, R265), on signed or unsigned words. -/
def holds {w : Nat} (cond : Nat) (uns : Bool) (a b : BitVec w) : Bool :=
  let lt := if uns then a.ult b else a.slt b
  let gt := if uns then b.ult a else b.slt a
  if cond = 0 then a == b else if cond = 1 then a != b else if cond = 2 then lt else if cond = 3 then !gt else if cond = 4 then gt else !lt

/-- The lesser and the greater of two signed or unsigned words. -/
def lesser {w : Nat} (uns : Bool) (a b : BitVec w) : BitVec w := if (if uns then b.ult a else b.slt a) then b else a
def greater {w : Nat} (uns : Bool) (a b : BitVec w) : BitVec w := if (if uns then a.ult b else a.slt b) then b else a

/-- The len bits of a word at pos, extended by their sign or by zeros. -/
def fieldOf {w : Nat} (uns : Bool) (a : BitVec w) (pos len : Nat) : BitVec w :=
  if uns then (a.extractLsb' pos len).setWidth w else (a.extractLsb' pos len).signExtend w

/-- A word with its len bits at pos replaced by the low ones of another. -/
def withField {w : Nat} (d a : BitVec w) (pos len : Nat) : BitVec w :=
  let ones := BitVec.ofNat w (2 ^ len - 1)
  (d &&& ~~~(ones <<< pos)) ||| ((a &&& ones) <<< pos)

/-- The high w bits of the product of two words of w bits. -/
def highProduct {w : Nat} (uns : Bool) (a b : BitVec w) : BitVec w :=
  if uns then (a.setWidth (w + w) * b.setWidth (w + w)).extractLsb' w w else (a.signExtend (w + w) * b.signExtend (w + w)).extractLsb' w w

end Sys2Proof.Machine
end

