-- ==== Sys2Proof/Certificates/Slice0/Obligations.lean ====
section
/-! DEFINITION. The statements for the provers. -/

open Sys2Proof Sys2Proof.Machine

/-! Scalar instructions (file 09) -/

/-- R254, arithmetic, logic, shifts, minima, conditions and selection of scalars: the value in D, SAT and DZ as they are raised, and nothing
else changed. -/
def Obligations.ScalarArithmetic : Prop :=
  (∀ o : VOps, let sat := o.mod.getLsbD 0; let uns := o.mod.getLsbD 1
    ScalarGives2 (.sadd o) 2 o.d o.a o.b (fun a b => if sat then limited 64 (-(2 ^ 63)) (2 ^ 63 - 1) (a.toInt + b.toInt) else (a + b, 0)) ∧
    ScalarGives2 (.ssub o) 2 o.d o.a o.b (fun a b => if sat then limited 64 (-(2 ^ 63)) (2 ^ 63 - 1) (a.toInt - b.toInt) else (a - b, 0)) ∧
    ScalarGives2 (.smul o) 2 o.d o.a o.b (fun a b => if sat then limited 64 (-(2 ^ 63)) (2 ^ 63 - 1) (a.toInt * b.toInt) else (a * b, 0)) ∧
    ScalarGives2 (.smulh o) 2 o.d o.a o.b (fun a b => (highProduct uns a b, 0)) ∧
    ScalarGives2 (.sdiv o) 2 o.d o.a o.b (fun a b =>
      if b = 0 then (BitVec.allOnes 64, fDZ) else (if uns then a.udiv b else a.sdiv b, 0)) ∧
    ScalarGives2 (.srem o) 2 o.d o.a o.b (fun a b =>
      if b = 0 then (a, fDZ) else (if uns then a.umod b else a.srem b, 0))) ∧
  (∀ o : VOps, let uns := o.mod.getLsbD 1
    ScalarGives2 (.sand o) 2 o.d o.a o.b (fun a b => (a &&& b, 0)) ∧
    ScalarGives2 (.sor o) 2 o.d o.a o.b (fun a b => (a ||| b, 0)) ∧
    ScalarGives2 (.sxor o) 2 o.d o.a o.b (fun a b => (a ^^^ b, 0)) ∧
    ScalarGives2 (.sshl o) 2 o.d o.a o.b (fun a b => (a <<< b, 0)) ∧
    ScalarGives2 (.sshr o) 2 o.d o.a o.b (fun a b => (a >>> b, 0)) ∧
    ScalarGives2 (.ssar o) 2 o.d o.a o.b (fun a b => (a.sshiftRight' b, 0)) ∧
    ScalarGives2 (.smin o) 2 o.d o.a o.b (fun a b => (lesser uns a b, 0)) ∧
    ScalarGives2 (.smax o) 2 o.d o.a o.b (fun a b => (greater uns a b, 0)) ∧
    ScalarGives2 (.scmp o) 2 o.d o.a o.b (fun a b => (if holds (bitsN o.mod 4 2) uns a b then 1 else 0, 0)) ∧
    ScalarGives3 (.ssel o) 2 o.d o.a o.b o.c (fun a b e => (if e ≠ 0 then a else b, 0)))

/-- R254 and R255, moves, immediates, counts and bit fields of scalars. SMOVH and SBFI read their destination. -/
def Obligations.ScalarMoves : Prop :=
  (∀ o : VOps,
    ScalarGives1 (.smov o) 2 o.d o.a (fun a => (a, 0)) ∧
    ScalarGives1 (.spopc o) 2 o.d o.a (fun a => (BitVec.ofNat 64 ((List.range 64).countP (fun j => a.getLsbD j)), 0)) ∧
    ScalarGives1 (.sclz o) 2 o.d o.a (fun a => (BitVec.ofNat 64 ((List.range 64).findIdx (fun j => a.getMsbD j)), 0))) ∧
  (∀ o : IOps, let pos := bitsN o.imm 5 0; let len := bitsN o.imm 11 6 + 1
    ScalarGives1 (.saddi o) 2 o.d o.a (fun a =>
      if o.mod.getLsbD 0 then limited 64 (-(2 ^ 63)) (2 ^ 63 - 1) (a.toInt + o.imm.toInt) else (a + o.imm.signExtend 64, 0)) ∧
    ScalarGives1 (.sbfe o) 2 o.d o.a (fun a => (fieldOf (o.mod.getLsbD 1) a pos len, 0)) ∧
    ScalarGives2 (.sbfi o) 2 o.d o.d o.a (fun d a => (withField d a pos len, 0))) ∧
  (∀ o : WOps,
    ScalarGives0 (.smovi o) 2 o.d (o.imm.signExtend 64) ∧
    ScalarGives1 (.smovh o) 2 o.d o.d (fun d => (o.imm ++ d.setWidth 32, 0)))

/-! Vector instructions (file 10) -/

/-- R263 and R258, the integer arithmetic of lanes: values, SAT, and the tags of the affine rules. -/
def Obligations.LaneArithmetic : Prop :=
  (∀ o : VOps, let sat := o.mod.getLsbD 0; let uns := o.mod.getLsbD 1
    VectorGives2 (.iadd o) 4 o.d o.a o.b (fun x y l => if sat then lanewise2 x y l else affineIf (x != .g && y != .g) l)
      (fun a b => fitted sat false (a.toInt + b.toInt)) ∧
    VectorGives2 (.isub o) 4 o.d o.a o.b (fun x y l => if sat then lanewise2 x y l else affineIf (x != .g && y != .g) l)
      (fun a b => fitted sat false (a.toInt - b.toInt)) ∧
    VectorGives2 (.imul o) 4 o.d o.a o.b
      (fun x y l => if sat then lanewise2 x y l else affineIf ((x == .u && y != .g) || (y == .u && x != .g)) l)
      (fun a b => fitted sat false (a.toInt * b.toInt)) ∧
    VectorGives2 (.imulh o) 4 o.d o.a o.b lanewise2 (fun a b => (highProduct uns a b, 0)) ∧
    VectorGives3 (.imad o) 4 o.d o.a o.b o.c
      (fun x y z l => if sat then lanewise3 x y z l else affineIf (((x == .u && y != .g) || (y == .u && x != .g)) && z != .g) l)
      (fun a b e => fitted sat uns (numberOf uns a * numberOf uns b + numberOf uns e)) ∧
    VectorGives3 (.iaddmin o) 4 o.d o.a o.b o.c lanewise3
      (fun a b e => fitted sat uns (min (numberOf uns a + numberOf uns b) (numberOf uns e))) ∧
    VectorGives1 (.iabs o) 4 o.d o.a lanewise1 (fun a => fitted sat false |a.toInt|) ∧
    VectorGives3 (.idot4 o) 4 o.d o.a o.b o.c lanewise3 (fun a b e => fitted sat uns (numberOf uns e + byteOf uns a 0 * byteOf uns b 0 +
      byteOf uns a 1 * byteOf uns b 1 + byteOf uns a 2 * byteOf uns b 2 + byteOf uns a 3 * byteOf uns b 3))) ∧
  ∀ o : IOps, let sat := o.mod.getLsbD 0
    VectorGives1 (.iaddi o) 4 o.d o.a (fun x l => if sat then lanewise1 x l else affineIf (x != .g) l)
      (fun a => fitted sat false (a.toInt + o.imm.toInt))

/-- R266 and R258, logic, shifts, minima, conditions, selection, counts and bit fields of lanes; ISHL by a uniform count keeps an affine
register affine, and gives U from 32 on. -/
def Obligations.LaneLogic : Prop :=
  (∀ o : VOps, let uns := o.mod.getLsbD 1
    VectorGives2 (.iand o) 4 o.d o.a o.b lanewise2 (fun a b => (a &&& b, 0)) ∧
    VectorGives2 (.ior o) 4 o.d o.a o.b lanewise2 (fun a b => (a ||| b, 0)) ∧
    VectorGives2 (.ixor o) 4 o.d o.a o.b lanewise2 (fun a b => (a ^^^ b, 0)) ∧
    VectorGives2 (.ishr o) 4 o.d o.a o.b lanewise2 (fun a b => (a >>> b, 0)) ∧
    VectorGives2 (.isar o) 4 o.d o.a o.b lanewise2 (fun a b => (a.sshiftRight' b, 0)) ∧
    VectorGives2 (.imin o) 4 o.d o.a o.b lanewise2 (fun a b => (lesser uns a b, 0)) ∧
    VectorGives2 (.imax o) 4 o.d o.a o.b lanewise2 (fun a b => (greater uns a b, 0)) ∧
    VectorGives2 (.icmp o) 4 o.d o.a o.b lanewise2 (fun a b => (if holds (bitsN o.mod 4 2) uns a b then 1 else 0, 0)) ∧
    VectorGives1 (.ipopc o) 4 o.d o.a lanewise1 (fun a => (BitVec.ofNat 32 ((List.range 32).countP (fun j => a.getLsbD j)), 0)) ∧
    VectorGives1 (.iclz o) 4 o.d o.a lanewise1 (fun a => (BitVec.ofNat 32 ((List.range 32).findIdx (fun j => a.getMsbD j)), 0)) ∧
    (∀ s c m, Performs (.ishl o) s c m → c.covered m o.a → c.covered m o.b → c.inTurn m o.d →
      ∃ t, exec (.ishl o) s = .next t ∧
        let g := m.grp c.gi
        let val := fun j => g.laneOf o.a j <<< g.laneOf o.b j
        VectorResult c 4 s m t o.d val
          (if g.tagOf o.b ≠ .u then .g else if 32 ≤ (g.laneOf o.b 0).toNat then .u
            else affineIf (g.tagOf o.a != .g) ((List.range 64).map val)) 0) ∧
    (∀ s c m, Performs (.isel o) s c m → c.covered m o.a → c.covered m o.b → c.covered m o.c → c.inTurn m o.d →
      ∃ t, exec (.isel o) s = .next t ∧
        let g := m.grp c.gi
        VectorResult c 4 s m t o.d (fun j => if g.laneOf o.c j ≠ 0 then g.laneOf o.a j else g.laneOf o.b j)
          (if g.tagOf o.c = .u then (if g.laneOf o.c 0 ≠ 0 then g.tagOf o.a else g.tagOf o.b)
            else lanewise3 (g.tagOf o.a) (g.tagOf o.b) (g.tagOf o.c) []) 0)) ∧
  ∀ o : IOps, let pos := bitsN o.imm 4 0; let len := bitsN o.imm 9 5 + 1
    VectorGives1 (.ibfe o) 4 o.d o.a lanewise1 (fun a => (fieldOf (o.mod.getLsbD 1) a pos len, 0)) ∧
    VectorGives2 (.ibfi o) 4 o.d o.d o.a lanewise2 (fun d a => (withField d a pos len, 0))

/-- R268, R269 and R258, moves: MOV copies the tag, MOVI and S2V give U; values moved between lanes; V2S gives one lane of A in a scalar
register, zero-extended. -/
def Obligations.LaneMoves : Prop :=
  ((∀ o : VOps, VectorGives1 (.mov o) 2 o.d o.a (fun x _ => x) (fun a => (a, 0))) ∧
  (∀ (o : WOps) s c m, Performs (.movi o) s c m → c.inTurn m o.d →
    ∃ t, exec (.movi o) s = .next t ∧ VectorResult c 2 s m t o.d (fun _ => o.imm) .u 0) ∧
  (∀ (o : VOps) s c m, Performs (.s2v o) s c m → c.covered m o.a → c.inTurn m o.d → c.inTurn m (o.d + 1) →
    ∃ t, exec (.s2v o) s = .next t ∧
      let x := (m.grp c.gi).scalarOf c.lane o.a
      VectorResults c 2 s m t o.d 2 (fun j _ => if j = 0 then x.setWidth 32 else x.extractLsb' 32 32) (fun _ => .u) 0)) ∧
  (∀ (o : VOps) (s : State) (c : Ctx) (m : State), let g := m.grp c.gi; let n := (g.scalarOf c.lane o.b).toNat
    (Performs (.v2s o) s c m → c.covered m o.a → c.covered m o.b → c.inTurn m o.d →
      ∃ t, exec (.v2s o) s = .next t ∧ ScalarResult c 8 s m t o.d ((g.laneOf o.a (n % 64)).setWidth 64) 0) ∧
    (Performs (.shfl o) s c m → c.covered m o.a → c.covered m o.b → c.inTurn m o.d →
      ∃ t, exec (.shfl o) s = .next t ∧ VectorResult c 8 s m t o.d (fun j => g.laneOf o.a ((g.laneOf o.b j).toNat % 64))
        (if g.tagOf o.a = .u then .u else .g) 0) ∧
    (Performs (.shup o) s c m → c.covered m o.a → c.covered m o.b → c.covered m o.c → c.inTurn m o.d →
      ∃ t, exec (.shup o) s = .next t ∧
        VectorResult c 8 s m t o.d (fun j => if n < 64 ∧ n ≤ j then g.laneOf o.a (j - n) else g.laneOf o.c j)
          (if g.tagOf o.a = .u ∧ g.tagOf o.c = .u ∧ g.laneOf o.a 0 = g.laneOf o.c 0 then .u else .g) 0) ∧
    (Performs (.shdn o) s c m → c.covered m o.a → c.covered m o.b → c.covered m o.c → c.inTurn m o.d →
      ∃ t, exec (.shdn o) s = .next t ∧
        VectorResult c 8 s m t o.d (fun j => if n < 64 ∧ j + n ≤ 63 then g.laneOf o.a (j + n) else g.laneOf o.c j)
          (if g.tagOf o.a = .u ∧ g.tagOf o.c = .u ∧ g.laneOf o.a 0 = g.laneOf o.c 0 then .u else .g) 0) ∧
    (Performs (.shxor o) s c m → c.covered m o.a → c.covered m o.b → c.inTurn m o.d →
      ∃ t, exec (.shxor o) s = .next t ∧ VectorResult c 8 s m t o.d (fun j => g.laneOf o.a (j ^^^ (n % 64)))
        (if g.tagOf o.a = .u then .u else .g) 0))

/-- R270 to R273 with the trees of R178 and R179: votes, reductions and scans over the lanes that act, and the tag of a register. A scan at an
exited lane, where a full write reaches it, gives the value of the tree at its place, or the identity where that is ABSENT: the model's choice,
which R272 leaves open (log entry 30). -/
def Obligations.CrossLaneTrees : Prop :=
  ∀ (o : VOps) (s : State) (c : Ctx) (m : State), c.covered m o.a → c.inTurn m o.d →
    let g := m.grp c.gi; let code := bitsN o.mod 3 0; let op := treeOp code (Rm.ofCode (bitsN o.mod 6 4) 0)
    let x := fun j => if c.act.getLsbD j then some (g.laneOf o.a j) else none
    (Performs (.vote o) s c m →
      ∃ t, exec (.vote o) s = .next t ∧
        let p := lanesOf c.act
        ScalarResult c 8 s m t o.d (match bitsN o.mod 1 0 with
          | 0 => laneMask (fun j => c.act.getLsbD j && g.laneOf o.a j != 0)
          | 1 => if ∃ j ∈ p, g.laneOf o.a j ≠ 0 then 1 else 0
          | 2 => if ∀ j ∈ p, g.laneOf o.a j ≠ 0 then 1 else 0
          | _ => if ∀ j ∈ p, ∀ k ∈ p, g.laneOf o.a j = g.laneOf o.a k then 1 else 0) 0) ∧
    (Performs (.reduce o) s c m →
      ∃ t, exec (.reduce o) s = .next t ∧
        VectorResult c 8 s m t o.d (fun _ => (treeOf op x 0 6).1.getD (treeIdentity code)) .u (treeOf op x 0 6).2) ∧
    (Performs (.scan o) s c m →
      ∃ t, exec (.scan o) s = .next t ∧
        VectorResult c 8 s m t o.d (fun j => (if o.mod.getLsbD 7 then (if j = 0 then none else scanOf op x 6 (j - 1)) else scanOf op x 6 j).getD
          (treeIdentity code)) .g (scanFlags op x)) ∧
    (Performs (.tagof o) s c m →
      ∃ t, exec (.tagof o) s = .next t ∧
        ScalarResult c 2 s m t o.d (match g.tagOf o.a with
          | .u => (g.laneOf o.a 0).setWidth 64 <<< 32
          | .a => (g.laneOf o.a 1 - g.laneOf o.a 0).setWidth 64 <<< 32 ||| 1
          | .g => 2) 0)

/-- R275, R279 and R280, FP32 arithmetic: the exact value rounded once, the flags of the rounding; packed halves rounded each on its own; dot
products whose products and addend are summed exactly and rounded once. A word of the multiply class issues while its quarter's array queue is
empty (R131, R260). -/
def Obligations.FloatLanes : Prop :=
  (∀ o : VOps, let rm := Rm.ofCode (bitsN o.mod 2 0) 0; let sat := o.mod.getLsbD 3
    VectorGives2 (.fadd o) 6 o.d o.a o.b lanewise2 (fun a b => fRound (addVal (f32 a) (f32 b) (rm = .rdn)) rm sat) ∧
    VectorGives2 (.fsub o) 6 o.d o.a o.b lanewise2 (fun a b => fRound (addVal (f32 a) (negVal (f32 b)) (rm = .rdn)) rm sat) ∧
    ArrayGives2 (.fmul o) 6 o.d o.a o.b lanewise2 (fun a b => fRound (mulVal (f32 a) (f32 b)) rm sat) ∧
    ArrayGives3 (.ffma o) 6 o.d o.a o.b o.c lanewise3 (fun a b e => fRound (fmaVal (f32 a) (f32 b) (f32 e) (rm = .rdn)) rm sat) ∧
    VectorGives3 (.faddmin o) 6 o.d o.a o.b o.c lanewise3 (fun a b e => fAddMin rm sat a b e) ∧
    VectorGives2 (.fscale o) 6 o.d o.a o.b lanewise2 (fun a b => fScale rm sat a b) ∧
    VectorGives1 (.frnd o) 6 o.d o.a lanewise1 (fun a => fRnd rm a)) ∧
  (∀ o : VOps, let rm := Rm.ofCode (bitsN o.mod 2 0) 0; let sat := o.mod.getLsbD 3; let f := (Fmt.ofCode (bitsN o.mod 7 4)).getD .fp32
    VectorGives2 (.pkadd o) 6 o.d o.a o.b lanewise2 (fun a b => pkAdd f rm sat a b) ∧
    VectorGives2 (.pkmul o) 6 o.d o.a o.b lanewise2 (fun a b => pkMul f rm sat a b) ∧
    ArrayGives3 (.pkfma o) 6 o.d o.a o.b o.c lanewise3 (fun a b e => pkFma f rm sat a b e) ∧
    ArrayGives3 (.fdot2 o) 6 o.d o.a o.b o.c lanewise3 (fun a b e => fDot f 16 2 rm sat a b e) ∧
    ArrayGives3 (.fdot4 o) 6 o.d o.a o.b o.c lanewise3 (fun a b e => fDot f 8 4 rm sat a b e) ∧
    ArrayGives3 (.fdot8 o) 6 o.d o.a o.b o.c lanewise3 (fun a b e => fDot f 4 8 rm sat a b e))

/-- R276, R277 and R278, FCMP, FMIN, FMAX and FCLASS by bit pattern: ordered conditions are false and .ne true with a NaN, .un true exactly
then, −0 and +0 compare equal; the lesser and the greater with −0 below +0, the other operand where one is NaN, the canonical NaN where both
are; a one-hot class. None raises a flag. -/
def Obligations.FloatOrder : Prop :=
  ∀ o : VOps,
    let nan := fun (a : W32) => a.extractLsb' 23 8 == 0xFF && a.extractLsb' 0 23 != 0
    let mag := fun (a : W32) => ((a.extractLsb' 0 31).toNat : Int)
    let value := fun (a : W32) => if a.msb then -mag a else mag a
    let rank := fun (a : W32) => if a.msb then -mag a - 1 else mag a
    VectorGives2 (.fmin o) 6 o.d o.a o.b lanewise2 (fun a b =>
      (if nan a && nan b then 0x7FC00000 else if nan a then b else if nan b then a else if rank b < rank a then b else a, 0)) ∧
    VectorGives2 (.fmax o) 6 o.d o.a o.b lanewise2 (fun a b =>
      (if nan a && nan b then 0x7FC00000 else if nan a then b else if nan b then a else if rank a < rank b then b else a, 0)) ∧
    VectorGives2 (.fcmp o) 6 o.d o.a o.b lanewise2 (fun a b =>
      let un := nan a || nan b
      let holds := match bitsN o.mod 4 2 with
        | 0 => !un && decide (value a = value b)
        | 1 => un || decide (value a ≠ value b)
        | 2 => !un && decide (value a < value b)
        | 3 => !un && decide (value a ≤ value b)
        | 4 => !un && decide (value b < value a)
        | 5 => !un && decide (value b ≤ value a)
        | _ => un
      (if holds then 1 else 0, 0)) ∧
    VectorGives1 (.fclass o) 6 o.d o.a lanewise1 (fun a =>
      let e := a.extractLsb' 23 8; let f := a.extractLsb' 0 23
      (if e = 0xFF then (if f = 0 then (if a.msb then 1 else 0x80) else if f.getLsbD 22 then 0x200 else 0x100)
        else if e = 0 then (if f = 0 then (if a.msb then 8 else 0x10) else if a.msb then 4 else 0x20)
        else if a.msb then 2 else 0x40, 0))

/-! Conversions, special functions, random numbers (file 11) -/

/-- R283 to R286, conversions of lanes: from FP32, or from INT32 where the target is FP32; under SR with the random value of B; a scaled element
widened. Blocks of lanes quantised: the scale byte of a block is that of its lanes that act, over the one register or the three; every
lane written gets it above its element. Two points are the model's choices: that an inexact value below the least normal one raises UF beside NX,
where the example of R285 names NX alone (log entry 46); and that a full write of U sources gives G where a block has exited whole, since that
block's scale differs, where R258 says U (log entry 53). -/
def Obligations.Conversions : Prop :=
  (∀ o : VOps, let f := (Fmt.ofCode (bitsN o.mod 7 4)).getD .fp32; let sat := o.mod.getLsbD 3
    VectorGives1 (.cvt o) 6 o.d o.a lanewise1 (fun a =>
      let r := round (if f = .fp32 then Val.ofInt a.toInt else f32 a) (Rm.ofCode (bitsN o.mod 2 0) 0) f sat
      (BitVec.ofNat 32 r.1, r.2)) ∧
    VectorGives2 (.cvtsr o) 6 o.d o.a o.b lanewise2 (fun a b =>
      let r := round (if f = .fp32 then Val.ofInt a.toInt else f32 a) (.sr (bitsN b 23 0)) f sat
      (BitVec.ofNat 32 r.1, r.2)) ∧
    VectorGives2 (.dqblk o) 6 o.d o.a o.b lanewise2 (fun a b =>
      if bitsN b 7 0 = 255 then (0x7FC00000, fNV)
      else roundF32 (scaleVal (decodeVal f (a.toNat % 2 ^ f.width)) ((bitsN b 7 0 : Int) - 127)) .rne false)) ∧
  (∀ (o : VOps) (s : State) (c : Ctx) (m : State),
    let g := m.grp c.gi; let n := if o.mod.getLsbD 3 then 3 else 1; let sr := bitsN o.mod 2 0 = 4
    let f := (Fmt.ofCode (bitsN o.mod 7 4)).getD .fp32
    Performs (.qblk o) s c m → (∀ j < n, c.covered m (nthReg o.a j)) → (sr → ∀ j < n, c.covered m (nthReg o.b j)) →
    (∀ j < n, c.inTurn m (o.d + BitVec.ofNat 8 j)) →
    ∃ t, exec (.qblk o) s = .next t ∧
      let scale := fun b => blockScale f (((List.range n).flatMap (fun j => (List.range 16).map (fun u => (j, 16 * b + u)))).filter
        (fun p => c.act.getLsbD p.2) |>.map (fun p => f32 (g.laneOf (nthReg o.a p.1) p.2)))
      let elem := fun j i => blockElem f (scale (i / 16)) (Rm.ofCode (bitsN o.mod 2 0) (if sr then (g.laneOf (nthReg o.b j) i).toNat else 0))
        (g.laneOf (nthReg o.a j) i)
      let flags := fun j i => (elem j i).2 ||| (if scale (i / 16) = 255 then fNV else 0)
      VectorResults c 8 s m t o.d n (fun j i => BitVec.ofNat 32 (scale (i / 16) * 2 ^ 24 + (elem j i).1))
        (fun _ => if (∀ j < n, g.tagOf (nthReg o.a j) = .u) ∧ (sr → ∀ j < n, g.tagOf (nthReg o.b j) = .u) then .u else .g)
        ((List.range n).foldl (fun x j => (lanesOf c.written).foldl (fun x i => x ||| flags j i) x) 0))

/-- R289, R184 and R185, random numbers: four registers of Philox4x32-10 words under the key, the lane's number in the counter. -/
def Obligations.RandomNumbers : Prop :=
  ∀ (o : VOps) (s : State) (c : Ctx) (m : State), let g := m.grp c.gi; let key := g.scalarOf c.lane o.a
    Performs (.rand o) s c m → c.covered m o.a → (∀ j < 4, c.covered m (nthReg o.b j)) → (∀ j < 4, c.inTurn m (o.d + BitVec.ofNat 8 j)) →
    ∃ t, exec (.rand o) s = .next t ∧
      let b := fun j i => g.laneOf (nthReg o.b j) i
      let r := fun i => philox (b 0 i, b 1 i, b 2 i, (b 3 i <<< 6) ||| BitVec.ofNat 32 i) (key.setWidth 32) (key.extractLsb' 32 32) 10
      VectorResults c 8 s m t o.d 4 (fun j i => if j = 0 then (r i).1 else if j = 1 then (r i).2.1 else if j = 2 then (r i).2.2.1 else (r i).2.2.2)
        (fun _ => .g) 0

/-- R287 and R288, the special functions: an outstanding operation that holds the values of the lanes, their tag and their flags, which it
gives when its slot clears. The values are those of the operand alone (R182, log entry 2); the register is not yet written. The quarter's
SFU, which takes 16 lanes a clock, is occupied from the word's clock on; while it is, or while another word has waited for it longer, the word
is held in its place of the line. R288 gives the order of issue and a bound; that there is such a line, in which a word keeps its place from its
first wait on and none behind it issues before it, is the model's reading (DEDUCED, log entry 10). -/
def Obligations.SpecialFunctions : Prop :=
  ∀ (o : VOps), ∀ p ∈ [(Instr.rcp o, sfuRcp), (.rsq o, sfuRsq), (.sqrt o, sfuSqrt), (.exp2 o, sfuExp2), (.log2 o, sfuLog2),
      (.sinpi o, sfuSinpi), (.cospi o, sfuCospi), (.tanh o, sfuTanh)],
    ∀ (s : State) (c : Ctx) (m : State), Performs p.1 s c m → let g := m.grp c.gi; let unit := m.quarter g.pkg g.qtr
      let line := m.sfuLine g.pkg g.qtr; let me := (c.gi, c.cl.beside, c.cl.pos); let turn := unit.sfuFree ≤ c.t ∧ ∀ x ∈ line.head?, x = me
      (c.slotFree m → ¬turn → ∃ t, exec p.1 s = .next t ∧
        Waits c (m.modQuarter g.pkg g.qtr (fun q => { q with sfuQ := if me ∈ line then line else line ++ [me] })) t) ∧
      (turn → c.slotFree m → c.covered m o.a →
        let vals := (List.range 64).map (fun i => (p.2 (g.laneOf o.a i)).1)
        let op := fun id => { c.operation id o.d 1 (.sfu ⟨if c.full then tagIf (lanewise1 (g.tagOf o.a) vals) vals else .g, vals⟩ c.written
          (c.raised (fun i => (p.2 (g.laneOf o.a i)).2))) with lanes := c.written }
        let busy := m.modQuarter g.pkg g.qtr (fun q => { q with
          sfuFree := c.t + max 1 (((lanesOf c.cl.lanes).length + 15) / 16), sfuQ := line.filter (fun x => x ≠ me) })
        ∃ t id, exec p.1 s = .next t ∧ RegsKept c.gi busy t ∧ Proceeds c busy t c.cl.taken c.cl.target ∧
          Changes c.gi busy t (fun g => { g with ops := g.ops ++ [op id] }) (fun s => s))

/-! Encoding and the step (files 08 and 09) -/

/-- R209 to R213, R223 and R224: words written out from the spec's own examples decode to the instructions they stand for, and what is no
instruction is refused by name: fewer than eight bytes, an unassigned opcode, reserved bits, an operand that its kind does not admit. -/
def Obligations.WordsDecode : Prop :=
  (decode (wordBytes 0xFFFFFFFFFFFFFFFF) = .error (.illegal 1) ∧
  decode (wordBytes 0x24B18000008AC040) = .ok (.smovi ⟨0xC6, 555, ⟨0, 0, 2, 0⟩⟩, []) ∧
  decode (wordBytes 0x4601CFE000000040) = .ok (.movi ⟨7, 0x3F800000, ⟨0, 0, 2, 0⟩⟩, []) ∧
  decode (wordBytes 0x414302B082C00080) = .ok (.iaddmin ⟨12, 10, 0xC2, 11, 0, ⟨0, 0, 4, 0⟩⟩, []) ∧
  decode (wordBytes 0x4805017FFFC20100) = .ok (.reduce ⟨20, 5, 0xFF, 0xFF, 8, ⟨0, 0, 8, 0⟩⟩, []) ∧
  decode (wordBytes 0x634140C1018800C0) = .ok (.pkfma ⟨5, 3, 4, 6, 0x20, ⟨0, 0, 6, 0⟩⟩, []) ∧
  decode (wordBytes 0x808140FC3FD40100) = .ok (.qblk ⟨5, 3, 0xF0, 0xFF, 0x50, ⟨0, 0, 8, 0⟩⟩, []) ∧
  decode (wordBytes 0x043270B13FC00200) = .ok (.signal ⟨0xC9, 0xC2, 0xC4, 0xFF, 0, ⟨0, 1, 0, 0⟩⟩, []) ∧
  decode (wordBytes 0x04F270BFFFC00200) = .ok (.join ⟨0xC9, 0xC2, 0xFF, 0xFF, 0, ⟨0, 1, 0, 0⟩⟩, []) ∧
  decode (wordBytes 0x023FF1BFFFC00000) = .ok (.suspendCounter ⟨0xFF, 0xC6, 0xFF, 0xFF, 0, ⟨0, 0, 0, 0⟩⟩, []) ∧
  decode (wordBytes 0xA102317FC4230400) = .ok (.ldg ⟨8, 0xC5, 0xFF, 0x10, 0x8C, ⟨0, 2, 0, 0⟩⟩, [])) ∧
  ((∀ bs : List Byte, bs.length < 8 → decode bs = .error .tooShort) ∧
  (∀ w : W64, view (decodeRaw w) = none → decode (wordBytes w) = .error (.illegal 1)) ∧
  (∀ (w : W64) (v : View), view (decodeRaw w) = some v → v.res0Ok = false → decode (wordBytes w) = .error (.illegal 4)) ∧
  (∀ (w : W64) (v : View), view (decodeRaw w) = some v → v.res0Ok = true → v.regsOk = false → decode (wordBytes w) = .error (.illegal 5)))

/-- Decoding an encoded well-formed instruction gives it back, whatever bytes follow, with every operand at every value the encoding
admits (R209 to R213, R225); and no bit of a word is lost in decoding: every word is the encoding of what it is read as (R209, R210). -/
def Obligations.EncodingsAgree : Prop :=
  (∀ i : Instr, i.wellFormed = true → ∃ w, encode i = some w ∧ ∀ rest : List Byte, decode (wordBytes w ++ rest) = .ok (i, rest)) ∧
  (∀ w : W64, encode (decodeRaw w) = some w)

/-- R204: where the eight bytes at the next word of the clause that issues are reached and decode to an instruction, the step is exec of
it, at the state after the fetch; a clause that owes a trap takes it instead of its next word; a clause that can start on the core before that word
issues starts instead (R338). Each comes with what the clocks that
passed bring: the counts of R31, statuses that waited for an earlier write to land (R342), and answers to events whose records are written now
(R415). So does exec of an event that heads the agenda. The agenda itself, that a head of it which names no event, or a word, only lets its clocks
pass, and the order of these within one step are the model's choice (log entry 1); so is that an event which is not enabled answers a next state
(log entry 43). -/
def Obligations.StepRunsDecoded : Prop :=
  ∀ (s : State),
    let around := fun (r : Host.Outcome State Fault Refusal) => match r with
      | .next t => Host.Outcome.next (s.recount t).landStatuses.actAnswers
      | .fault f => .fault f
      | .refused r => .refused r
    let s0 := match s.agenda with
      | [] => s
      | e :: rest => s.takeAgenda e rest
    ((∀ e ∈ s.agenda.head?, ∀ j ∈ e.what, isWord j = true) → ∀ (gi k : Nat) (c : Clause), s0.cur = some (gi, k) →
      (s0.grp gi).clauses[k]? = some c →
      (∀ s1, s0.startDue (s0.grp gi).pkg (s0.issueClock gi c) = some s1 → step s = around (.next s1)) ∧
      (s0.startDue (s0.grp gi).pkg (s0.issueClock gi c) = none →
      (∀ (s1 : State) (pa : Nat) (i : Instr), let g := s1.grp gi
        c.owes = none → c.wordAddr.toNat < 2 ^ 57 → s0.translate gi c.wordAddr.toNat accFetch = (.ok pa, s1) →
        s1.destOk g.func (some g.pkg) pa = true → s1.fenced pa = false → s1.poisoned .glob pa = false →
        (∀ o ∈ s1.wlog, o.addr = pa → o.seq < g.acqSeq) →
        decode (s1.seenRead g.func .glob pa 8) = .ok (i, []) → step s = around (exec i s1)) ∧
      (∀ x, c.owes = some x → step s = around (.next (s0.retryTrap gi k c x))))) ∧
    (∀ (e : Sched) (rest : List Sched) (i : Instr), s.agenda = e :: rest → e.what = some i → isWord i = false →
      step s = around (exec i (s.takeAgenda e rest)))

/-- No state stops the machine: every step answers a next state. That is the model's own design: every word that the spec defines issues, waits or
traps (R204, R225), but that an event which is not enabled leaves the state as it is and answers a next state is log entry 43, and that with nothing
due a clock passes is log entry 1 (both DESIGN CHOICE); the spec says neither. -/
def Obligations.EveryStepGoesOn : Prop := ∀ s : State, ∃ t, step s = .next t

/-! Words as such (files 08, 09 and 18) -/

/-- R24, R206, R338, R340, R345 and R171: the issue of a word comes at the latest of the core's clock, the clause's mark and the clock at
which the quarter's issue slot is free, which two clauses of one group issued beside each other share. Results and flags readable by then
are written, the guards of a clause whose first word has not issued are sampled, the core's clock has moved on, and nothing else has
changed. -/
def Obligations.IssueOfWord : Prop :=
  ∀ (i : Instr) (s : State) (c : Ctx) (m : State), Reaches i s c m →
    let g := s.grp c.gi; let x := m.grp c.gi
    Elsewhere c.gi s m ∧ x.others = g.others ∧ x.v = g.v ∧ x.s = g.s ∧ x.pc = g.pc ∧ x.rpos = g.rpos ∧ x.emark = g.emark ∧
    x.pendw = g.pendw.filter (fun w => decide (c.t < w.ready)) ∧ x.pendf = g.pendf.filter (fun p => decide (c.t < p.1)) ∧
    (∀ j, x.flags.getLsbD j = (g.flags.getLsbD j || g.pendf.any (fun p => decide (p.1 ≤ c.t) && (p.2.setWidth 64).getLsbD j))) ∧
    m.clk g.pkg = max (s.clk g.pkg) c.t ∧
    ∃ c0, g.clauses[c.k]? = some c0 ∧ x.clauses = setNth g.clauses c.k c.cl ∧
      c.t = max (max (s.clk g.pkg) c0.mark) (if (s.quarter g.pkg g.qtr).user = c.gi then (s.quarter g.pkg g.qtr).free - 1
        else (s.quarter g.pkg g.qtr).free) ∧
      c.cl = { c0 with g0 := c.cl.g0, g1 := c.cl.g1, short0 := c.cl.short0, short1 := c.cl.short1 } ∧ (c0.sampled = true → c.cl = c0)

/-- R208, R217, R119, R131, R114 and R115: a word that passes its checks and in which no lane acts is done, and changes nothing but its place
in the program. One whose slot is at its limit is held until the count falls; a word of the multiply class until the array queue is empty (R131, R260);
an access to memory while an acquire before it has not returned its value (R119), before its own addresses are tested, which is the model's choice
(log entry 10). An effect that leaves the group waits while lines are unchecked,
and traps INTEGRITY, naming the clause's header, once one has failed. -/
def Obligations.WordsWithoutEffect : Prop :=
  (∀ (i : Instr) (s : State) (c : Ctx) (m : State), Reaches i s c m → let g := (m.grp c.gi).asAt c.t
    wordFate i c.view g c.cl = none → issueFate g i c.view c.cl c.t = none → c.act = 0 →
    ∃ t, exec i s = .next t ∧ Does c m t (fun g => g) (fun s => s)) ∧
  (∀ (o : VOps), ∀ i ∈ [Instr.signal o, .wake o, .deposit o, .join o, .spawn o, .rcp o, .rsq o, .sqrt o, .exp2 o, .log2 o, .sinpi o,
      .cospi o, .tanh o, .ldp o, .stp o, .ldt o, .stt o, .ldg o, .stg o, .ldw o, .atomt o, .atomg o, .commit o, .abort o, .pfg o,
      .bulk o, .obres o, .obload o],
    ∀ (s : State) (c : Ctx) (m : State), Performs i s c m → ¬c.slotFree m → ∃ t, exec i s = .next t ∧ Waits c m t) ∧
  (∀ (o : VOps), ∀ i ∈ [Instr.fmul o, .ffma o, .pkfma o, .fdot2 o, .fdot4 o, .fdot8 o], ∀ (s : State) (c : Ctx) (m : State),
    Performs i s c m → ¬c.arrayIdle m → ∃ t, exec i s = .next t ∧ Waits c m t) ∧
  (∀ (o : VOps), ∀ i ∈ [Instr.ldp o, .stp o, .ldt o, .stt o, .ldg o, .stg o, .ldw o, .atomt o, .atomg o, .pfg o, .bulk o, .obload o],
    ∀ (s : State) (c : Ctx) (m : State), Performs i s c m → (m.grp c.gi).acquiring = true → ∃ t, exec i s = .next t ∧ Waits c m t) ∧
  (∀ (o : VOps), ∀ i ∈ [Instr.signal o, .wake o, .deposit o, .join o, .commit o], ∀ (s : State) (c : Ctx) (m : State),
    Performs i s c m → c.slotFree m →
    ((m.grp c.gi).owedInteg = true → exec i s = .next (m.trapWord c .integrity 0 c.cl.hdr)) ∧
    ((m.grp c.gi).owedInteg = false → (m.grp c.gi).debt ≠ [] → ∃ t, exec i s = .next t ∧ Waits c m t))

/-- R225: a word that fails one of tests 1 to 11 takes the trap of the first one it fails, at the word itself (R448). So does one that fails
test 12 or 13, which are made at the clock at which it issues (R340, R341): at once where nothing can hold it, as no word with a fixed
latency but those of the multiply class is held. A clause that owes a trap, held by a translation, takes that. -/
def Obligations.FailedCheckTraps : Prop :=
  (∀ (i : Instr) (s : State) (c : Ctx) (m : State) (cause : Cause), Reaches i s c m → let g := (m.grp c.gi).asAt c.t
    (wordFate i c.view g c.cl = some cause → exec i s = .next (m.trapWord c cause 0 c.cl.wordAddr)) ∧
    (wordFate i c.view g c.cl = none → issueFate g i c.view c.cl c.t = some cause →
      (c.act = 0 ∨ (latency c.view.op ≠ 0 ∧ (isArrayOp c.view.op = false ∨ c.arrayIdle m))) →
      exec i s = .next (m.trapWord c cause 0 c.cl.wordAddr))) ∧
  (∀ (i : Instr) (s : State) (gi k code met : Nat) (c0 : Clause) (cause : Cause) (faddr : W64), isWord i = true → s.cur = some (gi, k) →
    (s.grp gi).clauses[k]? = some c0 →
    let r := s.enterWord gi k c0
    r.2.1.owes = some (cause, code, faddr, met) → exec i s = .next (r.2.2.trapWord (Ctx.bare gi k r.2.1 r.1) cause code faddr))

/-- R224: a word whose opcode lies in a reserved range is no instruction, whatever its other fields hold, and traps ILLEGAL in a clause of
every class, at the word itself. -/
def Obligations.ReservedOpcodes : Prop :=
  ∀ (w : W64), let op := (w.extractLsb' 54 10).toNat
    (∃ p ∈ [(0x016, 0x07F), (0x098, 0x0FF), (0x123, 0x17F), (0x191, 0x1FF), (0x204, 0x207), (0x211, 0x27F), (0x28D, 0x2FF), (0x309, 0x37F),
      (0x383, 0x3FF)], p.1 ≤ op ∧ op ≤ p.2) →
    decodeRaw w = .reservedOpcode w ∧ decode (wordBytes w) = .error (.illegal 1) ∧
    ∀ (s : State) (gi k : Nat) (c0 : Clause), s.cur = some (gi, k) → (s.grp gi).clauses[k]? = some c0 →
      let r := s.enterWord gi k c0
      r.2.1.owes = none →
      exec (.reservedOpcode w) s = .next (r.2.2.trapWord (Ctx.bare gi k r.2.1 r.1) .illegal 0 r.2.1.wordAddr)

/-- R225, its thirteen checks in their order: tests 1 to 9 give ILLEGAL, and GROW_LIMIT for GROW's count; test 10 ILLEGAL for a register beyond
the group's blocks; test 11 MODE, then ALIAS for a register of the matrix window; test 12 STALL_SHORT where CHK is set; test 13 SHAPE. That the
tests 10 to 12 of a selected guard's register are made even where no lane acts, which R207 and R208 leave open, is the model's reading (DEDUCED, log
entry 36); the tag that test 13 reads while a write is under way, and that test 8 bars a slot of SHRINK, are its choices (log entry 68). -/
def Obligations.ChecksInOrder : Prop :=
  ∀ (i : Instr) (v : View) (g : Group) (cl : Clause) (t : Nat), view i = some v →
    let guards := cl.selected v.lay.anc.gsel
    let acts := cl.active v.lay.anc.gsel ≠ 0
    let classOk := v.cls.code = bitsN cl.word 63 60 ∨ (cl.pos = cl.count ∧ v.cls = .ctrl)
    let formOk := classOk ∧ (v.transfer = true → cl.pos = cl.count) ∧ (v.gather = true → bitAt cl.word 48 = true) ∧
      ∀ f ∈ guards, bitAt f.1 15 = true
    let regs := (guards.map (fun f => guardReg f.1) |>.filter isV).map BitVec.toNat ++ (if acts then v.regs else [])
    let short := (∃ f ∈ guards, f.2 = true) ∨ (acts ∧
      ((∃ r ∈ v.readCodes (readsD i), g.short r.1 t cl.beside (if r.2 then some cl.lanes else none) = true) ∨
        ∃ r ∈ v.writeCodes, g.writeShort r (if latency v.op = 0 then none else some (t + latency v.op)) cl.beside = true))
    let notUniform := acts ∧ ∃ p ∈ [(v.ka, v.lay.a), (v.kb, v.lay.b'), (v.kc, v.lay.c)],
      p.1 = .us ∧ isV p.2 = true ∧ (g.vreg p.2.toNat).tag ≠ .u
    ((staticTest i ≠ none → wordFate i v g cl = some .illegal) ∧
    (¬formOk → wordFate i v g cl = some .illegal) ∧
    (staticTest i = none → formOk → immFate i = .growLimit → wordFate i v g cl = some .growLimit) ∧
    (i.wellFormed = true → formOk → immFate i = .ok →
      ((∃ n ∈ regs, 16 * g.blk ≤ n) → wordFate i v g cl = some .illegal) ∧
      ((∀ n ∈ regs, n < 16 * g.blk) →
        (acts → modeBad i g.mm = true → wordFate i v g cl = some .mode) ∧
        (¬(acts ∧ modeBad i g.mm = true) →
          (v.cls ≠ .mat → (∃ n ∈ regs, g.inWindow n = true) → wordFate i v g cl = some .alias_) ∧
          ((v.cls = .mat ∨ ∀ n ∈ regs, g.inWindow n = false) → wordFate i v g cl = none))))) ∧
    ((g.chk = true → short → issueFate g i v cl t = some .stallShort) ∧
    (¬(g.chk = true ∧ short) → notUniform → issueFate g i v cl t = some .shape) ∧
    (¬(g.chk = true ∧ short) → ¬notUniform → issueFate g i v cl t = none))

/-! Control flow (file 09) -/

/-- R231, R232 and R234: NOP does nothing; the lanes that take a transfer go to its target, the others to the next header; CALL's link
register receives the next header. A target beyond 2^57 traps SPACE, one from a register that is no multiple of 8 MISALIGN, at the
target. EXIT: the lanes that act leave the group for good, with the exit code; with none left the group accepts nothing more and its death
begins. -/
def Obligations.Transfers : Prop :=
  ((∀ (o : VOps) s c m, Performs (.nop o) s c m → ∃ t, exec (.nop o) s = .next t ∧ Does c m t (fun g => g) (fun s => s)) ∧
  (∀ (o : BOps) s c m, let target := c.cl.hdr + o.off.signExtend 64 * 8
    (Performs (.bra o) s c m → target.toNat < 2 ^ 57 → ∃ t, exec (.bra o) s = .next t ∧
      RegsKept c.gi m t ∧ Changes c.gi m t (fun g => g) (fun s => s) ∧ Proceeds c m t c.act target) ∧
    (Performs (.bra o) s c m → 2 ^ 57 ≤ target.toNat → exec (.bra o) s = .next (m.trapWord c .space 0 target)) ∧
    (Performs (.call o) s c m → target.toNat < 2 ^ 57 → c.inTurn m (0xC0 + o.mod) → ∃ t, exec (.call o) s = .next t ∧
      ScalarResult c 2 s m t (0xC0 + o.mod) c.cl.next 0 ∧ Proceeds c m t c.act target) ∧
    (Performs (.call o) s c m → 2 ^ 57 ≤ target.toNat → exec (.call o) s = .next (m.trapWord c .space 0 target))) ∧
  (∀ (o : VOps), ∀ i ∈ [Instr.jmpi o, .ret o], ∀ s c m, Performs i s c m → c.covered m o.a →
    let target := (m.grp c.gi).scalarOf c.lane o.a
    (target.toNat < 2 ^ 57 → target.toNat % 8 = 0 → ∃ t, exec i s = .next t ∧
      RegsKept c.gi m t ∧ Changes c.gi m t (fun g => g) (fun s => s) ∧ Proceeds c m t c.act target) ∧
    (2 ^ 57 ≤ target.toNat → exec i s = .next (m.trapWord c .space 0 target)) ∧
    (target.toNat < 2 ^ 57 → target.toNat % 8 ≠ 0 → exec i s = .next (m.trapWord c .misalign 0 target)))) ∧
  (∀ (o : VOps) (s : State) (c : Ctx) (m : State), Performs (.exit o) s c m → c.covered m o.a →
    ∃ t, exec (.exit o) s = .next t ∧ RegsKept c.gi m t ∧ Proceeds c m t c.cl.taken c.cl.target ∧
      Changes c.gi m t (fun g =>
        let live := g.live &&& ~~~c.act
        { g with live := live, exitCode := ((m.grp c.gi).scalarOf c.lane o.a).setWidth 32, dying := decide (live = 0),
                 accept := g.accept && decide (live ≠ 0) }) (fun s => s))

/-- R236, R328, R239, R411 and R417: TRAP takes its trap with its code, to resume at the next header; so does BRK where no one owns BREAK
events, and where TS is set. Where the routing table gives BREAK events an owner, BRK leaves the group pending and held until the owner's
response, its lanes to resume at the next header, and its registers as they were. -/
def Obligations.TrapWords : Prop :=
  (∀ (o : IOps) (s : State) (c : Ctx) (m : State),
    (Performs (.trap o) s c m → exec (.trap o) s = .next (m.trapWord c .trap o.imm.toNat c.cl.wordAddr)) ∧
    (Performs (.brk o) s c m →
      ((m.grp c.gi).ts = true ∨ (m.evHost (m.grp c.gi).func evBreak = false ∧ m.evClerk (m.grp c.gi).func evBreak = false)) →
      exec (.brk o) s = .next (m.trapWord c .break_ o.imm.toNat c.cl.wordAddr))) ∧
  (∀ (o : IOps) (s : State) (c : Ctx) (m : State), Performs (.brk o) s c m → let g := m.grp c.gi
    g.ts = false → (m.evHost g.func evBreak = true ∨ m.evClerk g.func evBreak = true) → m.ringVa g.func ≠ 0 →
    ∃ t, exec (.brk o) s = .next t ∧ RegsKept c.gi m t ∧ (t.grp c.gi).st = .pending ∧ (t.grp c.gi).heldBrk = true ∧
      (t.grp c.gi).clauses = [] ∧ ∀ i < 64, c.cl.lanes.getLsbD i = true →
        (t.grp c.gi).pc.getD i 0 = c.cl.next ∧ (t.grp c.gi).rpos.getD i 0 = 0)

/-- R239, R237, R358 and R409, taking a trap: TS is set, TCAUSE holds the code, the position and the cause, every live lane is at TBASE, and each
live lane's frame in private space holds its resume point, the fault address, TCAUSE and its place; no register has changed, and no
byte of memory. INTEGRITY discards the group's own escrow and its watch set (R115). A trap with TS set, with TBASE 0, or without room for
its frames ends the group: here of one with nothing outstanding and in a world without an event ring. TBASE is the one that governs at the
word's clock (R325). Of two clauses beside each other, of which the other has a word due in the same clock, that word is performed first,
and the trap is owed (R226); the STALL of a TRAP or BRK counts all the same (R338). -/
def Obligations.TrapEntry : Prop :=
  (∀ (m m1 : State) (c : Ctx) (cause : Cause) (code : Nat) (faddr : W64) (pa : Nat),
    let g := m.grp c.gi; let a := g.privAddr 0 g.frameOff; let tbase := (g.asAt c.t).tbase
    c.gi < m.groups.length → c.trapsNow m → (cause = .page → m.ringVa g.func = 0) → g.ts = false → tbase ≠ 0 → g.frameOff + 32 ≤ g.privLen →
    (m.modGrp c.gi (fun x => { x with tbase := tbase })).translate c.gi a accWrite = (.ok pa, m1) →
    m1.destOk g.func (some g.pkg) pa = true → pa % 4096 = 0 →
    (∀ e ∈ m.escrow, e.owner = c.gi → e.level = .priv → e.sealId = 0) →
    let t := m.trapWord c cause code faddr; let x := t.grp c.gi
    let after := cause = .trap ∨ cause = .break_
    let tcause : W64 := BitVec.ofNat 64 (65536 * (code % 65536) + 256 * c.cl.pos + cause.code)
    let pcOf := fun i => if c.cl.lanes.getLsbD i then (if after then c.cl.next else c.cl.hdr)
      else ((g.clauses.find? (fun y => y.lanes.getLsbD i)).map (fun y => y.hdr)).getD (g.pc.getD i 0)
    let posOf := fun i => if c.cl.lanes.getLsbD i then (if after then 0 else c.cl.pos)
      else ((g.clauses.find? (fun y => y.lanes.getLsbD i)).map (fun y => y.pos)).getD (g.rpos.getD i 0)
    let word := fun i (j : Nat) => match j with
      | 0 => pcOf i
      | 1 => faddr
      | 2 => tcause
      | _ => BitVec.ofNat 64 ((if c.cl.lanes.getLsbD i then 256 else 0) + posOf i)
    x.ts = true ∧ x.tcause = tcause ∧ x.clauses = [] ∧ x.rpos = List.replicate 64 0 ∧
    (∀ i < 64, x.pc.getD i 0 = if g.live.getLsbD i then tbase else 0) ∧
    (∀ y ∈ g.clauses, y.mark ≤ x.emark) ∧ g.emark ≤ x.emark ∧ c.t + 1 ≤ x.emark ∧
    x.v = g.v ∧ x.s = g.s ∧ x.flags = g.flags ∧ x.live = g.live ∧ x.st = g.st ∧ x.ops = g.ops ∧ x.ctr = g.ctr ∧ x.box = g.box ∧
    x.obrec = g.obrec ∧ x.tbase = g.tbase ∧ x.tframe = g.tframe ∧ x.chk = g.chk ∧ x.mm = g.mm ∧ x.blk = g.blk ∧
    t.mem = m.mem ∧ t.tile = m.tile ∧ t.opbuf = m.opbuf ∧
    (∀ i < 64, g.live.getLsbD i = true → ∀ k < 32,
      t.privByte c.gi (pa + 256 * (k / 4) + 4 * i + k % 4) = some ((word i (k / 8)).extractLsb' (8 * (k % 8)) 8)) ∧
    (cause = .integrity → x.watch = [] ∧ x.whit = false ∧ x.owedInteg = false ∧ ∀ e ∈ t.escrow, e.owner = c.gi → e.level ≠ .group)) ∧
  (∀ (m : State) (c : Ctx) (cause : Cause) (code : Nat) (faddr : W64), let g := m.grp c.gi
    c.gi < m.groups.length → c.trapsNow m → (g.ts = true ∨ (g.asAt c.t).tbase = 0 ∨ g.privLen < g.frameOff + 32) → g.resident = true →
    g.ops = [] → m.ringVa g.func = 0 → ((m.trapWord c cause code faddr).grp c.gi).st = .dead) ∧
  (∀ (m : State) (c : Ctx) (cause : Cause) (code : Nat) (faddr : W64), let others := dropNth c.k (m.grp c.gi).clauses
    c.cl.owes = none → (∀ x ∈ others, x.owes = none) → (∃ x ∈ others, x.mark ≤ c.t) →
    m.trapWord c cause code faddr = { m.modGrp c.gi (fun g => { g with
      clauses := modifyNth (fun x => { x with owes := some (cause, code, faddr, c.t) }) c.k g.clauses
      emark := if cause = .trap ∨ cause = .break_ then max g.emark (c.t + max 1 c.view.lay.anc.stall.toNat) else g.emark })
      with cur := some (c.gi, 1 - c.k) })

/-- R240: TRET takes every live lane back to the resume point and the place of its frame, and clears TS; it is illegal with TS clear. It waits for
accesses still outstanding; that COMMIT, ABORT, BULK, OBLOAD, MDRAIN and name requests are not among these is the model's choice (DESIGN CHOICE, log
entry 53). Frames without room in the window, whose page is absent or not allowed, or that meet a poisoned line, and a PC in a live lane's frame
that is no multiple of 8 or lies beyond 2^57 (the lowest such lane's, log entry 36) trap with TS still set, a double trap: the group ends. -/
def Obligations.TrapReturn : Prop :=
  ∀ (o : VOps) (s : State) (c : Ctx) (m m1 : State) (pa : Nat), Performs (.tret o) s c m →
    let g := m.grp c.gi; let a := g.privAddr 0 g.frameOff
    let doubleTrap := fun (x : State) (cause : Cause) (code : Nat) (faddr : W64) =>
      exec (.tret o) s = .next (x.trapWord c cause code faddr) ∧
      (x.grp c.gi = g → c.gi < x.groups.length → c.trapsNow x → g.resident = true → g.ops = [] → x.ringVa g.func = 0 →
        ((x.trapWord c cause code faddr).grp c.gi).st = .dead)
    (g.ts = false → exec (.tret o) s = .next (m.trapWord c .illegal 0 c.cl.wordAddr)) ∧
    (g.ts = true → g.ops.any Op.isAccess = true → ∃ t, exec (.tret o) s = .next t ∧ Waits c m t) ∧
    (g.ts = true → g.ops.any Op.isAccess = false → g.privLen < g.frameOff + 32 →
      doubleTrap m .space 0 (BitVec.ofNat 64 g.frameOff)) ∧
    (g.ts = true → g.ops.any Op.isAccess = false → g.frameOff + 32 ≤ g.privLen →
      (m.translate c.gi a accRead = (.page, m1) → doubleTrap m1 .page accRead (BitVec.ofNat 64 a)) ∧
      (m.translate c.gi a accRead = (.ok pa, m1) → m1.destOk g.func (some g.pkg) pa = false → doubleTrap m1 .space 0 (BitVec.ofNat 64 a)) ∧
      (m.translate c.gi a accRead = (.ok pa, m1) → m1.destOk g.func (some g.pkg) pa = true → pa % 4096 = 0 →
        (∃ k < 16, m1.poisoned .glob (pa + 128 * k) = true) → doubleTrap (m1.integRecord c.gi 1 a) .integrity 0 c.cl.hdr)) ∧
    (g.ts = true → g.ops.any Op.isAccess = false → g.frameOff + 32 ≤ g.privLen →
      m.translate c.gi a accRead = (.ok pa, m1) → m1.destOk g.func (some g.pkg) pa = true → pa % 4096 = 0 →
      (∀ k < 16, m1.poisoned .glob (pa + 128 * k) = false) →
      let word := fun i n => BitVec.ofNat 64 (ofBytesLE ((List.range 8).map (fun k =>
        m1.privSeen c.gi (pa + 256 * ((n + k) / 4) + 4 * i + k % 4))))
      let good := fun i => (word i 0).toNat < 2 ^ 57 ∧ (word i 0).toNat % 8 = 0
      (∀ i < 64, g.live.getLsbD i = true → ¬good i → (∀ j < i, g.live.getLsbD j = true → good j) → doubleTrap m1 .misalign 0 (word i 0)) ∧
      ((∀ i < 64, g.live.getLsbD i = true → good i) →
      ∃ t, exec (.tret o) s = .next t ∧ RegsKept c.gi m1 t ∧
        Changes c.gi m1 t (fun g => { g with ts := false, sel := [] }) (fun s => s) ∧
        (∀ i < 64, g.live.getLsbD i = true → (t.grp c.gi).pc.getD i 0 = word i 0 ∧ (t.grp c.gi).rpos.getD i 0 = bitsN (word i 24) 4 0)))

/-! Waiting, growth, barriers, counters (file 09) -/

/-- R242, R243, R36 and R448, SUSPEND: where the condition is not met the group sleeps on it and goes on at the next header when woken; a
counter condition already met is an acquire, which lets the core's near cache of the world go, and after which no other core's serves the group
an older byte: at system scope, which covers the scope that was released, as R69 asks (the model's choice, log entry 42); a till or monitor already
met, a monitor without a free entry, or one on a fenced line (R435), does nothing. A till outside the own slice, or outside every allotment there
(R87), traps SPACE, one that is no multiple of 8 MISALIGN; so do a monitor beyond 2^57 and one that is no multiple of 8. -/
def Obligations.SuspendOnConditions : Prop :=
  (∀ (o : VOps) (s : State) (c : Ctx) (m m1 : State) (pa : Nat),
    let g := m.grp c.gi; let x := g.scalarOf c.lane o.a; let y := g.scalarOf c.lane o.b
    let sleeps := fun (m t : State) (cond : Cond) =>
      Does c m t (fun g => { g with st := .suspended, cond := cond, waiting := false }) (fun s => s)
    (Performs (.suspendCounter o) s c m → c.covered m o.a →
      let k := bitsN o.mod 5 2
      ((g.ctr.getD k 0).toNat < x.toNat → ∃ t, exec (.suspendCounter o) s = .next t ∧ sleeps m t (.counter k x)) ∧
      (x.toNat ≤ (g.ctr.getD k 0).toNat → ∃ t, exec (.suspendCounter o) s = .next t ∧ RegsKept c.gi m t ∧
        Proceeds c m t c.cl.taken c.cl.target ∧ (t.grp c.gi).others = { g.others with acqSeq := m.seq } ∧ t.outside = m.outside ∧
        (t.core g.pkg).near = (m.core g.pkg).near.filter (fun l => l.func ≠ g.func) ∧ (t.core g.pkg).queues = (m.core g.pkg).queues ∧
        ∀ p, p ≠ g.pkg → ∀ a b, (t.core p).nearByte c.gi g.func a = some b → b = m.seenByte g.func a)) ∧
    (Performs (.suspendTill o) s c m → c.covered m o.a → c.covered m o.b →
      ∀ off, tilePlace g.pkg y.toNat = some (g.pkg, off) → off < Config.engineRegion → m.allotted g.func g.pkg off = true → y.toNat % 8 = 0 →
        let till := tileAbs g.pkg off
        (m.tillMet till x = true → ∃ t, exec (.suspendTill o) s = .next t ∧ Does c m t (fun g => g) (fun s => s)) ∧
        (m.tillMet till x = false → ∃ t, exec (.suspendTill o) s = .next t ∧ sleeps m t (.till till x))) ∧
    (Performs (.suspendMonitor o) s c m → c.covered m o.a → c.covered m o.b → y.toNat < 2 ^ 57 → y.toNat % 8 = 0 →
      m.translate c.gi y.toNat accRead = (.ok pa, m1) → m1.destOk g.func (some g.pkg) pa = true →
        (m1.fenced pa = true → ∃ t, exec (.suspendMonitor o) s = .next t ∧ RegsKept c.gi m1 t ∧ (t.grp c.gi).others = (m1.grp c.gi).others ∧
          Proceeds c m1 t c.cl.taken c.cl.target) ∧
        (m1.fenced pa = false →
        (m1.monitors g.pkg < Config.monitorMax → m1.seenWord g.func pa = x →
          ∃ t, exec (.suspendMonitor o) s = .next t ∧ sleeps m1 t (.monitor y.toNat pa x)) ∧
        (m1.seenWord g.func pa ≠ x → ∃ t, exec (.suspendMonitor o) s = .next t ∧ Does c m1 t (fun g => g) (fun s => s)) ∧
        (Config.monitorMax ≤ m1.monitors g.pkg → ∃ t, exec (.suspendMonitor o) s = .next t ∧ Does c m1 t (fun g => g) (fun s => s))))) ∧
  (∀ (o : VOps) (s : State) (c : Ctx) (m : State), c.covered m o.a → c.covered m o.b →
    let g := m.grp c.gi; let y := (g.scalarOf c.lane o.b).toNat; let low := y % 2 ^ 32
    (Performs (.suspendTill o) s c m →
      ((∀ p, ownPlace g.pkg low = some p → m.allotted g.func g.pkg (p % Config.sliceBytes) = false) →
        exec (.suspendTill o) s = .next (m.trapWord c .space 0 (BitVec.ofNat 64 low))) ∧
      (∀ p, ownPlace g.pkg low = some p → m.allotted g.func g.pkg (p % Config.sliceBytes) = true → low % 8 ≠ 0 → exec (.suspendTill o) s = .next (m.trapWord c .misalign 0 (BitVec.ofNat 64 low)))) ∧
    (Performs (.suspendMonitor o) s c m →
      (2 ^ 57 ≤ y → exec (.suspendMonitor o) s = .next (m.trapWord c .space 0 (BitVec.ofNat 64 y))) ∧
      (y < 2 ^ 57 → y % 8 ≠ 0 → exec (.suspendMonitor o) s = .next (m.trapWord c .misalign 0 (BitVec.ofNat 64 y)))))

/-- R43 to R45, R244, R245, R399 and R402: GROW gives more blocks of zeros where the pool has them, else waits on the pool; beyond 12 blocks
GROW_LIMIT; SHRINK leaves fewer blocks, but never none, and none of the matrix window. YIELD.saved waits for its slots; then, where the
pool of images has room, the group is saved at the next header, its image at the place found, and its registers leave the core. -/
def Obligations.CapacityAndSaving : Prop :=
  (∀ (o : IOps) (s : State) (c : Ctx) (m : State), let g := m.grp c.gi; let n := o.imm.toNat
    (Performs (.grow o) s c m → g.blk + n ≤ 12 →
      (n ≤ m.freeBlocks g.pkg g.qtr → ∃ t, exec (.grow o) s = .next t ∧
        (t.grp c.gi).v = g.v ++ List.replicate (16 * n) VReg.zero ∧ (t.grp c.gi).s = g.s ∧ (t.grp c.gi).flags = g.flags ∧
        Changes c.gi m t (fun g => { g with blk := g.blk + n, blkLost := false }) (fun s => s) ∧ Proceeds c m t c.cl.taken c.cl.target) ∧
      (m.freeBlocks g.pkg g.qtr < n → ∃ t, exec (.grow o) s = .next t ∧
        Does c m t (fun g => { g with st := .pending, cond := .pool n, waiting := false }) (fun s => s))) ∧
    (Performs (.grow o) s c m → 12 < g.blk + n → exec (.grow o) s = .next (m.trapWord c .growLimit 0 c.cl.wordAddr)) ∧
    (Performs (.shrink o) s c m → g.blk < n + 1 → exec (.shrink o) s = .next (m.trapWord c .illegal 0 c.cl.wordAddr)) ∧
    (Performs (.shrink o) s c m → n < g.blk → g.mm = true → 16 * (g.blk - n) < g.wbase + 64 →
      exec (.shrink o) s = .next (m.trapWord c .alias_ 0 c.cl.wordAddr)) ∧
    (Performs (.shrink o) s c m → n < g.blk → (g.mm = true → g.wbase + 64 ≤ 16 * (g.blk - n)) → g.draining = false →
      (∀ w ∈ g.pendw, isV w.reg = true → w.reg.toNat < 16 * (g.blk - n) ∨ w.ready ≤ c.t) →
      (∀ p ∈ g.ops, isV p.dest = true → p.dest.toNat + p.span ≤ 16 * (g.blk - n)) → g.cond = .none →
      ∃ t, exec (.shrink o) s = .next t ∧ (t.grp c.gi).v = g.v.take (16 * (g.blk - n)) ∧ (t.grp c.gi).blk = g.blk - n ∧
        (t.grp c.gi).s = g.s ∧ (t.grp c.gi).flags = g.flags ∧ (t.grp c.gi).others = { g.others with blk := g.blk - n, blkLost := false } ∧
        t.outside = m.outside ∧ Proceeds c m t c.cl.taken c.cl.target)) ∧
  (∀ (o : VOps) (s : State) (c : Ctx) (m : State), Performs (.yield o) s c m →
    ((m.grp c.gi).ops.any (fun o => o.slot != 0) = true → ∃ t, exec (.yield o) s = .next t ∧ Waits c m t) ∧
    ((m.grp c.gi).ops = [] →
      let m1 := (m.modGrp c.gi (fun g => { g.endClause c.cl with clauses := [] })).modGrp c.gi
        (fun g => { g.landAll with debt := [] })
      let bytes := m1.imageBytes c.gi
      ∀ a, m1.imageRoom (m.grp c.gi).func (alignUp bytes.length 4096) = some a →
        ∃ t, exec (.yield o) s = .next t ∧ (t.grp c.gi).st = .saved ∧ (t.grp c.gi).image = a ∧ (t.grp c.gi).v = [] ∧
          (t.grp c.gi).name = (m.grp c.gi).name ∧ (t.grp c.gi).cgen = (m.grp c.gi).cgen ∧
          ((m.grp c.gi).func, a, alignUp bytes.length 4096) ∈ t.hub.images))

/-- R246 and R47 to R51, barriers: a group that is not the last to arrive sleeps on its barrier; the last one goes on, and every sleeper
at a team or cluster barrier is pending; a grid barrier sleeps until its release message, and a team whose groups have all arrived sends
its one message, and goes on only by its release, be it the last to arrive. Arrival waits for commit steps, which include SPAWN's release:
the two are the model's choices (log entry 53); BARC in a launch of one cluster and BARG at NBARG or above are illegal. -/
def Obligations.Barriers : Prop :=
  (∀ (o : IOps), ∀ p ∈ [(Instr.bart o, Cond.teamBarrier o.imm.toNat), (.barc o, .clusterBarrier o.imm.toNat)],
    ∀ (s : State) (c : Ctx) (m : State), Performs p.1 s c m → (m.grp c.gi).ops.any (fun o => o.commitStep.isSome) = false →
      (p.1 = .barc o → bitsN (m.grp c.gi).clus 11 8 * bitsN (m.grp c.gi).clus 7 4 ≠ 1) → (m.grp c.gi).st = .active →
      let g := m.grp c.gi; let ps := m.participants g p.2
      ((∃ j ∈ ps, j ≠ c.gi ∧ (m.grp j).cond ≠ p.2) → ∃ t, exec p.1 s = .next t ∧ RegsKept c.gi m t ∧
        (t.grp c.gi).st = .suspended ∧ (t.grp c.gi).cond = p.2 ∧ Proceeds c m t c.cl.taken c.cl.target ∧
        ∀ j ∈ ps, j ≠ c.gi → (m.grp j).cond = p.2 → (t.grp j).st = (m.grp j).st ∧ (t.grp j).cond = p.2) ∧
      ((∀ j ∈ ps, j ≠ c.gi → (m.grp j).cond = p.2 ∧ (m.grp j).st = .suspended) → ∃ t, exec p.1 s = .next t ∧ RegsKept c.gi m t ∧
        (t.grp c.gi).st = .active ∧ (t.grp c.gi).cond = .none ∧ Proceeds c m t c.cl.taken c.cl.target ∧
        ∀ j ∈ ps, j ≠ c.gi → (t.grp j).st = .pending ∧ (t.grp j).cond = .none)) ∧
  (∀ (o : IOps) (s : State) (c : Ctx) (m : State), let g := m.grp c.gi; let id := o.imm.toNat
    (Performs (.barg o) s c m → id < g.nbarg → g.ops.any (fun o => o.commitStep.isSome) = false → g.alive = true →
      ∃ t, exec (.barg o) s = .next t ∧ RegsKept c.gi m t ∧ (t.grp c.gi).st = .suspended ∧ (t.grp c.gi).cond = .gridBarrier id ∧
        Proceeds c m t c.cl.taken c.cl.target ∧
        let team := m.grpsWhere (fun x => x.alive && x.launch == g.launch && x.tidx == g.tidx)
        let message := (g.launch, id, g.tidx)
        let sent := message ∈ m.hub.barMsgs ∨ message ∈ m.hub.barPort ∨ message ∈ m.hub.barRel
        t.hub.barMsgs = if (∀ j ∈ team, j ≠ c.gi → (m.grp j).cond = .gridBarrier id) ∧ ¬sent then m.hub.barMsgs ++ [message]
          else m.hub.barMsgs) ∧
    (Performs (.barg o) s c m → g.nbarg ≤ id → exec (.barg o) s = .next (m.trapWord c .illegal 0 c.cl.wordAddr)) ∧
    (Performs (.barc o) s c m → bitsN g.clus 11 8 * bitsN g.clus 7 4 = 1 →
      exec (.barc o) s = .next (m.trapWord c .illegal 0 c.cl.wordAddr)) ∧
    (Performs (.bart o) s c m → g.ops.any (fun o => o.commitStep.isSome) = true → ∃ t, exec (.bart o) s = .next t ∧ Waits c m t))

/-- R251 and R325 to R327: EVRD reads an own counter or mailbox, EVADD adds to an own counter at once. RDSR gives the special registers by
index, 0 for a word that a soft error took (R420, log entry 21): GSTAT holds BLK (0 after such an error), WBASE, TS, CHK and MM, CYC the core's clock at issue, PRIO the effective and the base priority. WRSR writes CHK
of GSTAT, FLAGS, TBASE, and a base priority that is not raised; every other index, and a raise, is illegal. What WRSR writes governs from
the clock after its own, which the group remembers what stood before for (R325, R339). -/
def Obligations.OwnState : Prop :=
  (∀ (o : VOps) (s : State) (c : Ctx) (m : State), let g := m.grp c.gi; let k := bitsN o.mod 3 0
    (Performs (.evrd o) s c m → c.inTurn m o.d → ∃ t, exec (.evrd o) s = .next t ∧
      ScalarResult c 2 s m t o.d (if o.mod.getLsbD 4 then g.box.getD k 0 else g.ctr.getD k 0) 0) ∧
    (Performs (.evadd o) s c m → c.covered m o.a → g.st ≠ .suspended → ∃ t, exec (.evadd o) s = .next t ∧
      Does c m t (fun x => { x with ctr := modifyNth (fun y => y + g.scalarOf c.lane o.a) k x.ctr }) (fun s => s))) ∧
  (∀ (o : IOps) (s : State) (c : Ctx) (m : State), Performs (.rdsr o) s c m → c.inTurn m o.d →
    let g := (m.grp c.gi).asAt c.t
    ∃ t, exec (.rdsr o) s = .next t ∧ ScalarResult c 2 s m t o.d (if g.lost.contains o.imm.toNat then 0 else match o.imm.toNat with
      | 0x0 => BitVec.ofNat 64 ((if g.blkLost then 0 else g.blk) * 2 ^ 16 + g.wbase * 2 ^ 8 + (if g.ts then 4 else 0) + (if g.chk then 2 else 0) + (if g.mm then 1 else 0))
      | 0x1 => g.flags
      | 0x2 => g.tbase
      | 0x3 => g.tframe
      | 0x4 => g.tcause
      | 0x5 => g.name
      | 0x6 => BitVec.ofNat 64 c.t
      | 0x7 => BitVec.ofNat 64 (max g.prioBase g.prioInh * 2 ^ 8 + g.prioBase)
      | 0x8 => g.cgen.setWidth 64
      | 0x9 => g.team
      | 0xA => g.teams
      | 0xB => g.clus
      | 0xC => g.grid
      | 0xD => g.live
      | _ => g.pwin) 0) ∧
  (∀ (o : IOps) (s : State) (c : Ctx) (m : State), Performs (.wrsr o) s c m → c.covered m o.a →
    let g := m.grp c.gi; let x := g.scalarOf c.lane o.a; let idx := o.imm.toNat
    let illegal := exec (.wrsr o) s = .next (m.trapWord c .illegal 0 c.cl.wordAddr)
    let before := if g.was.any (fun w => w.clk == c.t) then g.was else some ⟨c.t, g.chk, g.flags, g.tbase, g.prioBase, g.prioInh⟩
    (idx = 0 → ∃ t, exec (.wrsr o) s = .next t ∧ Does c m t (fun g => { g with chk := x.getLsbD 1, was := before }) (fun s => s)) ∧
    (idx = 1 → ∃ t, exec (.wrsr o) s = .next t ∧ (t.grp c.gi).flags = x &&& 0x3F ∧ (t.grp c.gi).v = g.v ∧ (t.grp c.gi).s = g.s ∧
      Changes c.gi m t (fun g => { g with was := before }) (fun s => s)) ∧
    (idx = 2 → ∃ t, exec (.wrsr o) s = .next t ∧
      Does c m t (fun g => { g with tbase := x &&& 0x01FFFFFFFFFFFFF8, was := before }) (fun s => s)) ∧
    (idx = 7 → bitsN x 2 0 ≤ g.prioBase → ∃ t, exec (.wrsr o) s = .next t ∧ RegsKept c.gi m t ∧ (t.grp c.gi).prioBase = bitsN x 2 0 ∧
      (t.grp c.gi).was = before ∧ ∀ j, j ≠ c.gi → (t.grp j).prioBase = (m.grp j).prioBase) ∧
    (idx = 7 → g.prioBase < bitsN x 2 0 → illegal) ∧
    (idx ≠ 0 → idx ≠ 1 → idx ≠ 2 → idx ≠ 7 → illegal))

/-- R247 to R249: SIGNAL, WAKE, DEPOSIT and JOIN post a request for the name in A; JOIN never releases (R69). SPAWN leaves the reading of
its launch record outstanding, behind a release at device scope of the stores before it; its address beyond 2^57 traps SPACE, one that
is no multiple of 64 MISALIGN. -/
def Obligations.NameRequests : Prop :=
  (∀ (o : VOps) (s : State) (c : Ctx) (m : State), c.slotFree m → c.mayLeave m → c.covered m o.a →
    let g := m.grp c.gi; let name := g.scalarOf c.lane o.a; let rel := !o.mod.getLsbD 4
    (Performs (.signal o) s c m → c.covered m o.b → ∃ t, exec (.signal o) s = .next t ∧
      Posts c m t o.d name (.signal (bitsN o.mod 3 0) (g.scalarOf c.lane o.b)) rel) ∧
    (Performs (.wake o) s c m → ∃ t, exec (.wake o) s = .next t ∧ Posts c m t o.d name .wake rel) ∧
    (Performs (.deposit o) s c m → c.covered m o.b → ∃ t, exec (.deposit o) s = .next t ∧
      Posts c m t o.d name (.deposit (bitsN o.mod 2 0) (g.scalarOf c.lane o.b)) rel) ∧
    (Performs (.join o) s c m → ∃ t, exec (.join o) s = .next t ∧ Posts c m t o.d name (.join g.name) false)) ∧
  (∀ (o : VOps) (s : State) (c : Ctx) (m : State), Performs (.spawn o) s c m → c.slotFree m → c.covered m o.a →
    let a := (m.grp c.gi).scalarOf c.lane o.a
    (2 ^ 57 ≤ a.toNat → exec (.spawn o) s = .next (m.trapWord c .space 0 a)) ∧
    (a.toNat < 2 ^ 57 → a.toNat % 64 ≠ 0 → exec (.spawn o) s = .next (m.trapWord c .misalign 0 a)) ∧
    (a.toNat < 2 ^ 57 → a.toNat % 64 = 0 → c.mayLeave m → ∃ t, exec (.spawn o) s = .next t ∧ RegsKept c.gi m t ∧
      Proceeds c m t c.cl.taken c.cl.target ∧ ∃ id, Changes c.gi m t
        (fun g => { g with ops := g.ops ++ [c.operation id o.d 1 (.spawn a.toNat (m.grp c.gi).prioBase true)] })
        (fun s => s.sealEscrow c.gi 3 id)))

/-! Memory (file 11) -/

/-- R291 and R448, the tests of addresses. Passed: aligned addresses below 2^57 whose translations are held and whose destinations are allowed,
aligned tile-store addresses of one slice that are allotted, and aligned private offsets inside the window; each lane that acts has its
access, with the places of its bytes. Failed: SPACE before MISALIGN, each at the address of the lowest lane that fails it, for a private access at
its offset, which is the model's choice (log entry 67); the word then traps, or waits for a translation. -/
def Obligations.AddressTests : Prop :=
  (∀ (c : Ctx) (m : State) (ea : Nat → Nat) (n access : Nat) (extra : Nat → Bool) (frame : Nat → Nat), let g := m.grp c.gi
    let place := fun va => 4096 * frame (va / 4096) + va % 4096
    let found := fun va => m.translate c.gi va access = (.ok (place va), m) ∧ m.destOk g.func (some g.pkg) (place va) = true
    (∀ i ∈ lanesOf c.act, ea i % n = 0) →
    ((∀ i ∈ lanesOf c.act, ea i < 2 ^ 57 ∧ ∀ k < n, found (ea i + k) ∧ extra (place (ea i + k)) = true) →
      c.globAccs m ea n access extra =
        .ok ((lanesOf c.act).map (fun i => ⟨i, ea i, (List.range n).map (fun k => place (ea i + k))⟩)) m) ∧
    ((∀ i ∈ lanesOf c.act, ∃ p, m.tileRange g.func g.pkg (ea i) n = some p ∧ extra p = true) →
      c.tileAccs m ea n extra = .ok ((lanesOf c.act).map (fun i =>
        ⟨i, ea i, (List.range n).map (fun k => (m.tileRange g.func g.pkg (ea i) n).getD 0 + k)⟩)) m) ∧
    ((∀ i ∈ lanesOf c.act, ea i + n ≤ g.privLen ∧ ∀ k < n, found (g.privAddr i (ea i + k))) →
      c.privAccs m ea n access = .ok ((lanesOf c.act).map (fun i =>
        ⟨i, ea i, (List.range n).map (fun k => place (g.privAddr i (ea i + k)))⟩)) m)) ∧
  ((∀ (c : Ctx) (m : State) (ea : Nat → Nat) (n access i : Nat) (extra : Nat → Bool), let g := m.grp c.gi
    c.act.getLsbD i = true → i < 64 →
    ((∀ j < i, c.act.getLsbD j = true → ea j < 2 ^ 57) → 2 ^ 57 ≤ ea i →
      c.globAccs m ea n access extra = .stop (.trap m .space 0 (BitVec.ofNat 64 (ea i)))) ∧
    ((∀ j < 64, c.act.getLsbD j = true → ea j < 2 ^ 57) → (∀ j < i, c.act.getLsbD j = true → ea j % n = 0) → ea i % n ≠ 0 →
      c.globAccs m ea n access extra = .stop (.trap m .misalign 0 (BitVec.ofNat 64 (ea i)))) ∧
    ((∀ j < i, c.act.getLsbD j = true → ∃ p, m.tileRange g.func g.pkg (ea j) n = some p ∧ extra p = true) →
      m.tileRange g.func g.pkg (ea i) n = none →
      c.tileAccs m ea n extra = .stop (.trap m .space 0 (BitVec.ofNat 64 (ea i)))) ∧
    ((∀ j < 64, c.act.getLsbD j = true → ∃ p, m.tileRange g.func g.pkg (ea j) n = some p ∧ extra p = true) →
      (∀ j < i, c.act.getLsbD j = true → ea j % n = 0) → ea i % n ≠ 0 →
      c.tileAccs m ea n extra = .stop (.trap m .misalign 0 (BitVec.ofNat 64 (ea i)))) ∧
    ((∀ j < i, c.act.getLsbD j = true → ea j + n ≤ g.privLen) → g.privLen < ea i + n →
      c.privAccs m ea n access = .stop (.trap m .space 0 (BitVec.ofNat 64 (ea i)))) ∧
    ((∀ j < 64, c.act.getLsbD j = true → ea j + n ≤ g.privLen) → (∀ j < i, c.act.getLsbD j = true → ea j % n = 0) → ea i % n ≠ 0 →
      c.privAccs m ea n access = .stop (.trap m .misalign 0 (BitVec.ofNat 64 (ea i))))) ∧
  (∀ (o : VOps) (s : State) (c : Ctx) (m : State) (r : Res), c.accessFree m → c.covered m o.a →
    let g := m.grp c.gi; let n := mBytes o.mod
    (∀ i ∈ [Instr.ldp o, .stp o], Performs i s c m →
      c.privAccs m (g.address32 o (memOff o)) n (if i = .ldp o then accRead else accWrite) = .stop r → exec i s = .next (c.close r)) ∧
    (∀ i ∈ [Instr.ldg o, .stg o], Performs i s c m → c.coveredN m o.a 2 →
      c.globAccs m (g.address64 o (memOff o)) n (if i = .ldg o then accRead else accWrite) (fun _ => true) = .stop r →
      exec i s = .next (c.close r)) ∧
    (Performs (.ldt o) s c m → c.tileAccs m (g.address32 o (memOff o)) n (fun _ => true) = .stop r → exec (.ldt o) s = .next (c.close r))))

/-- R294 and R297, loads: one operation outstanding that holds what the lanes read and the group's own bytes as they stand at issue, which is
the model's reading of R118 (log entry 11), its private stores among them behind its own entries (the model's choice, log entry 67); LDW watches the
sectors besides (R103). -/
def Obligations.Loads : Prop :=
  ∀ (o : VOps) (s : State) (c : Ctx) (m m1 : State) (accs : List Acc), c.accessFree m → c.covered m o.a →
    let g := m.grp c.gi; let n := mBytes o.mod; let a32 := g.address32 o (memOff o); let a64 := g.address64 o (memOff o)
    let kind := fun (code : Nat) (space : Space) => OpKind.load code o.mod space (mScope o.mod) (mWidth o.mod) (mOrder o.mod == 1) accs
      (m1.ownSeen c.gi code space (accs.flatMap Acc.place)) []
    (Performs (.ldp o) s c m → c.privAccs m a32 n accRead = .ok accs m1 →
      ∃ t, exec (.ldp o) s = .next t ∧ Issues c m1 t o.d (dataSpan o.mod) (kind 0 .glob)) ∧
    (Performs (.ldt o) s c m → c.tileAccs m a32 n (fun _ => true) = .ok accs m1 →
      ∃ t, exec (.ldt o) s = .next t ∧ Issues c m1 t o.d (dataSpan o.mod) (kind 1 .tile)) ∧
    (Performs (.ldg o) s c m → c.coveredN m o.a 2 → c.globAccs m a64 n accRead (fun _ => true) = .ok accs m1 →
      ∃ t, exec (.ldg o) s = .next t ∧ Issues c m1 t o.d (dataSpan o.mod) (kind 2 .glob)) ∧
    (Performs (.ldw o) s c m →
      let watching := fun (space : Space) (g : Group) =>
        accs.foldl (fun g a => g.watchSector space (mScope o.mod) (sectorOf (a.place.headD 0))) g
      (o.b ≠ 1 → c.tileAccs m a32 n (fun _ => true) = .ok accs m1 → ∃ t, exec (.ldw o) s = .next t ∧
        IssuesWith c m1 t o.d (dataSpan o.mod) (fun _ => kind 3 .tile) (watching .tile) (fun _ s => s)) ∧
      (o.b = 1 → c.coveredN m o.a 2 → c.globAccs m a64 n accRead (fun _ => true) = .ok accs m1 → ∃ t, exec (.ldw o) s = .next t ∧
        IssuesWith c m1 t o.d (dataSpan o.mod) (fun _ => kind 4 .glob) (watching .glob) (fun _ s => s)))

/-- R296, R295 and R93, stores without a release: the lanes' data enters the group's escrow, or its private stores; no byte of memory
changes. Without room the word traps ESCROW, at the first lane that needs an entry (R94). -/
def Obligations.PlainStores : Prop :=
  ∀ (o : VOps) (s : State) (c : Ctx) (m m1 : State) (accs : List Acc), c.accessFree m → c.covered m o.a →
    let g := m.grp c.gi; let n := mBytes o.mod; let a32 := g.address32 o (memOff o); let a64 := g.address64 o (memOff o)
    c.coveredN m o.b ((n + 3) / 4) →
    let data := (List.range 64).map (g.dataOf o.b n)
    let kicks := mWidth o.mod = 3 ∧ ∃ i ∈ lanesOf c.act, isKick g.pkg (a32 i) = true
    (Performs (.stp o) s c m → c.privAccs m a32 n accWrite = .ok accs m1 → ∃ t, exec (.stp o) s = .next t ∧
      IssuesWith c m1 t 0xFF 1 (fun _ => .storePrivate) (fun g => g)
        (fun _ s => { s with escrow := (m1.enter c.gi .priv .glob 0 accs data (fun a k => g.privAddr a.lane (a.addr + k))).escrow })) ∧
    (Performs (.stt o) s c m → mOrder o.mod ≠ 2 → ¬kicks → c.tileAccs m a32 n (fun _ => true) = .ok accs m1 →
      (m1.escFull c.gi .tile accs = none → ∃ t, exec (.stt o) s = .next t ∧
        IssuesWith c m1 t 0xFF 1 (fun _ => .store) (fun g => g)
          (fun _ s => { s with escrow := (m1.enter c.gi .group .tile 0 accs data (fun a k => a.place.getD k 0)).escrow })) ∧
      (∀ a, m1.escFull c.gi .tile accs = some a → exec (.stt o) s = .next (m1.trapWord c .escrow 0 (BitVec.ofNat 64 a.addr)))) ∧
    (Performs (.stg o) s c m → mOrder o.mod ≠ 2 → c.coveredN m o.a 2 → c.globAccs m a64 n accWrite (fun _ => true) = .ok accs m1 →
      (m1.escFull c.gi .glob accs = none → ∃ t, exec (.stg o) s = .next t ∧
        IssuesWith c m1 t 0xFF 1 (fun _ => .store) (fun g => g)
          (fun _ s => { s with escrow := (m1.enter c.gi .group .glob 0 accs data (fun a k => a.addr + k)).escrow })) ∧
      (∀ a, m1.escFull c.gi .glob accs = some a → exec (.stg o) s = .next (m1.trapWord c .escrow 0 (BitVec.ofNat 64 a.addr))))

/-- R296, R120 and R112, stores with a release: the entries stored before are covered by its operation, its own entries apart from them
by a number of their own. The kick store hands the addresses over behind a commit to device scope; a store to the kick address and
elsewhere at once traps SPACE, at the lowest lane that is elsewhere: which lane fails is the model's choice (log entry 36). -/
def Obligations.ReleasingStores : Prop :=
  ∀ (o : VOps) (s : State) (c : Ctx) (m m1 : State) (accs : List Acc), c.accessFree m → c.covered m o.a →
    let g := m.grp c.gi; let n := mBytes o.mod; let a32 := g.address32 o (memOff o); let a64 := g.address64 o (memOff o)
    c.coveredN m o.b ((n + 3) / 4) →
    let data := (List.range 64).map (g.dataOf o.b n)
    let kick := fun i => isKick g.pkg (a32 i)
    (Performs (.stt o) s c m → mOrder o.mod = 2 → ¬(mWidth o.mod = 3 ∧ ∃ i ∈ lanesOf c.act, kick i = true) →
      c.tileAccs m a32 n (fun _ => true) = .ok accs m1 → m1.escFull c.gi .tile accs = none → c.mayLeave m1 →
      ∃ t own, exec (.stt o) s = .next t ∧ IssuesWith c m1 t 0xFF 1 (fun _ => .storeRel (mScope o.mod) own) (fun g => g)
        (fun id s => { s with escrow := ((m1.sealEscrow c.gi (mScope o.mod) id).enter c.gi .group .tile own accs data
          (fun a k => a.place.getD k 0)).escrow })) ∧
    (Performs (.stg o) s c m → mOrder o.mod = 2 → c.coveredN m o.a 2 → c.globAccs m a64 n accWrite (fun _ => true) = .ok accs m1 →
      m1.escFull c.gi .glob accs = none → c.mayLeave m1 →
      ∃ t own, exec (.stg o) s = .next t ∧ IssuesWith c m1 t 0xFF 1 (fun _ => .storeRel (mScope o.mod) own) (fun g => g)
        (fun id s => { s with escrow := ((m1.sealEscrow c.gi (mScope o.mod) id).enter c.gi .group .glob own accs data
          (fun a k => a.addr + k)).escrow })) ∧
    (Performs (.stt o) s c m → mWidth o.mod = 3 → (∀ i ∈ lanesOf c.act, kick i = true) → c.mayLeave m →
      ∃ t, exec (.stt o) s = .next t ∧ IssuesWith c m t 0xFF 1
        (fun _ => .kick ((lanesOf c.act).map (fun i => ofBytesLE ((g.dataOf o.b 8 i).take 4))) true) (fun g => g)
        (fun id s => s.sealEscrow c.gi 3 id)) ∧
    (∀ i ∈ lanesOf c.act, Performs (.stt o) s c m → mWidth o.mod = 3 → (∃ j ∈ lanesOf c.act, kick j = true) → kick i = false →
      (∀ j ∈ lanesOf c.act, j < i → kick j = true) → exec (.stt o) s = .next (m.trapWord c .space 0 (BitVec.ofNat 64 (a32 i))))

/-- R93, R95, R118 and R85: what a group's store has put into escrow or private space is what the group sees there, of several writes to
a byte the last one of the highest lane; every other byte is seen as before. Here no entry of the group is covered by a commit yet. -/
def Obligations.StoresAreSeen : Prop :=
  ∀ (m : State) (gi p : Nat) (space : Space) (accs : List Acc) (data : List (List Byte)) (va : Acc → Nat → Nat),
    (∀ e ∈ m.escrow, e.owner = gi → e.sealId = 0) →
    let writes := accs.flatMap (fun a => a.place.zip (data.getD a.lane []))
    let last := (writes.reverse.find? (fun w => w.1 == p)).map (fun w => w.2)
    let seen := fun (before : Option Byte) => match last with
      | some b => some b
      | none => before
    let t := m.enter gi .group space 0 accs data va
    let u := m.enter gi .priv .glob 0 accs data va
    t.ownByte gi space p = seen (m.ownByte gi space p) ∧ u.privByte gi p = seen (m.privByte gi p) ∧
    (∀ q, t.devByte space q = m.devByte space q ∧ u.devByte .glob q = m.devByte .glob q) ∧
    (∀ j, j ≠ gi → t.ownByte j space p = m.ownByte j space p ∧ u.privByte j p = m.privByte j p)

/-- R298, R299 and R98, atomics: one operation outstanding that holds each lane's operands; a release covers the entries stored before
it. ATOMP with a slot that no routine holds is illegal at issue (R109), before its addresses are tested, which is the model's choice (log entry
36). -/
def Obligations.Atomics : Prop :=
  ∀ (o : VOps) (s : State) (c : Ctx) (m m1 : State) (accs : List Acc), c.accessFree m → c.covered m o.a →
    let g := m.grp c.gi; let n := mBytes o.mod; let w := mWidth o.mod; let ord := mOrder o.mod
    let acq := ord == 1 || ord == 3; let rel := decide (2 ≤ ord)
    c.coveredN m o.b (dataSpan o.mod) → c.mayLeave m1 →
    let operand := fun (r : RegCode) (l : List W64) => ∀ i < 64, l.getD i 0 = g.atomOf r w i
    let seals := fun (id : Nat) (s : State) => if 2 ≤ ord then s.sealEscrow c.gi (mScope o.mod) id else s
    (Performs (.atomt o) s c m → (o.c = 9 → c.coveredN m o.d (dataSpan o.mod)) →
      c.tileAccs m (g.address32 o 0) n (fun p => mScope o.mod != 1 || p / Config.sliceBytes == g.pkg) = .ok accs m1 →
      ∃ t b x, exec (.atomt o) s = .next t ∧ operand o.b b ∧ (if o.c = 9 then operand o.d x else x = []) ∧
        IssuesWith c m1 t o.d (dataSpan o.mod) (fun _ => .atomic .tile o.c.toNat (mScope o.mod) w acq rel accs b x []) (fun g => g) seals) ∧
    (Performs (.atomg o) s c m → (o.c = 9 → c.coveredN m o.d (dataSpan o.mod)) → c.coveredN m o.a 2 →
      c.globAccs m (g.address64 o 0) n accAtomic (fun _ => true) = .ok accs m1 →
      ∃ t b x, exec (.atomg o) s = .next t ∧ operand o.b b ∧ (if o.c = 9 then operand o.d x else x = []) ∧
        IssuesWith c m1 t o.d (dataSpan o.mod) (fun _ => .atomic .glob o.c.toNat (mScope o.mod) w acq rel accs b x []) (fun g => g) seals) ∧
    (Performs (.atomp o) s c m → (m.routineOf g.func o.c.toNat).isSome = true → c.coveredN m o.a 2 →
      (o.d ≠ 0xFF → c.coveredN m o.d (dataSpan o.mod)) →
      c.globAccs m (g.address64 o 0) n accAtomic (fun pa => regionOf pa == 0) = .ok accs m1 →
      ∃ t b x, exec (.atomp o) s = .next t ∧ operand o.b b ∧ (if o.d = 0xFF then x = [] else operand o.d x) ∧
        IssuesWith c m1 t o.d (dataSpan o.mod) (fun _ => .atomp o.c.toNat w acq rel accs b x []) (fun g => g) seals) ∧
    (Performs (.atomp o) s c m → m.routineOf g.func o.c.toNat = none →
      exec (.atomp o) s = .next (m.trapWord c .illegal 0 c.cl.wordAddr))

/-- R301 to R303, COMMIT, ABORT and PFG: one operation outstanding; COMMIT and ABORT cover the group's entries below their
scope, ABORT none of its private stores. -/
def Obligations.CommitsAndPrefetches : Prop :=
  ∀ (o : VOps) (s : State) (c : Ctx) (m : State), c.slotFree m →
    (Performs (.commit o) s c m → c.mayLeave m → ∃ t, exec (.commit o) s = .next t ∧
      IssuesWith c m t o.d 1 (fun _ => .commit (mScope o.mod) false) (fun g => g) (fun id s => s.sealEscrow c.gi (mScope o.mod) id)) ∧
    (Performs (.abort o) s c m → ∃ t, exec (.abort o) s = .next t ∧
      IssuesWith c m t o.d 1 (fun _ => .abort (mScope o.mod)) (fun g => g) (fun id s => s.sealAbort c.gi (mScope o.mod) id)) ∧
    (Performs (.pfg o) s c m → (m.grp c.gi).acquiring = false → c.coveredN m o.a 2 → ∃ t, exec (.pfg o) s = .next t ∧
      Issues c m t 0xFF 1 (.prefetch (mScope o.mod) ((lanesOf c.act).map (fun i =>
        ⟨i, (m.grp c.gi).address64 o (memOff o) i, []⟩))))

/-! Engines, the operand buffer and matrix mode (file 12) -/

/-- R309 to R311 and R306, BULK: its entry is placed in the queue that MOD names, in the order of entry, behind a release of the stores
before it where MOD asks for one; its destination's lines in the own slice are absent at once where nothing holds it (R88). On a die
without a copy engine of the partition the status is NOENGINE at once, and a copy that fails a test of R310 traps. -/
def Obligations.BulkCopies : Prop :=
  ∀ (o : VOps) (s : State) (c : Ctx) (m : State), Performs (.bulk o) s c m → c.accessFree m → c.covered m o.a → c.covered m o.b →
    c.covered m o.c →
    let g := m.grp c.gi
    let src := g.scalarOf c.lane o.a; let dst := g.scalarOf c.lane o.b; let e := g.scalarOf c.lane o.c
    let ss := spaceOf (o.mod.getLsbD 0); let ds := spaceOf (o.mod.getLsbD 1); let rel := o.mod.getLsbD 4; let q := bitsN o.mod 3 2
    let len := bitsN e 63 32; let plan := m.copyPlan g.func g.pkg ss ds src.toNat dst.toNat len (bitsN e 31 0)
    (∀ cause addr, plan = .error (cause, addr) → exec (.bulk o) s = .next (m.trapWord c cause 0 (BitVec.ofNat 64 addr))) ∧
    (∀ p, plan = .ok p → m.copyEngine g.func (g.pkg / 64) = false → g.resident = true → g.numbered m.seq →
      EndsAtOnce (.bulk o) s c m o.d 0x10) ∧
    (∀ p, plan = .ok p → m.copyEngine g.func (g.pkg / 64) = true → c.mayLeave m → m.listing c.gi = false →
      ∃ t id, exec (.bulk o) s = .next t ∧ RegsKept c.gi m t ∧
        let op := c.operation id o.d 1 (.bulk (if rel then some 3 else none))
        let far := ds == .tile && (p.dst / Config.sliceBytes != g.pkg || (rel && id != 0))
        let entry : Entry :=
          { id := id, kind := .linear ss ds p.src p.dst len, report := .bulk c.gi id, func := g.func, name := g.name,
            rclass := g.rclass, core := g.pkg, till := p.till, awaitAck := far, rel := if rel then id else 0, started := false, todo := [], lineAcc := 0, status := 0, fail := 0,
            turn := 0, read := none, sent := none }
        (t.grp c.gi).others = { g.others with ops := g.ops ++ [op] } ∧ (∀ j, j ≠ c.gi → t.grp j = m.grp j) ∧
        (t.core g.pkg).queues = modifyNth (fun l => enterQueue (l ++ [entry])) q (m.core g.pkg).queues ∧
        t.outside = (let s := if rel then m.outside.sealEscrow c.gi 3 id else m.outside
          if ds = .tile ∧ far = false then s.clearPresence p.dst len else s))

/-- R318, R133 to R136, the operand buffer: OBRES gives its record the first free run of lines, cleared to zero, after its old range is
released, or leaves it invalid with FULL; OBREL releases; OBLOAD leaves its copy outstanding. A record of the window, a descriptor or
a range that does not fit traps OBRANGE, an address outside the own slice SPACE, one that is no multiple of 64 MISALIGN, at the source
before the destination's offset; where the length alone is none, the fault address is the source (log entry 32). -/
def Obligations.OperandBuffer : Prop :=
  ∀ (o : VOps) (s : State) (c : Ctx) (m : State), c.slotFree m → c.covered m o.a →
    let g := m.grp c.gi; let n := bitsN o.mod 2 0; let x := g.scalarOf c.lane o.a
    let free := m.modGrp c.gi (fun g => { g with obrec := setNth g.obrec n 0 })
    let run := firstRun (free.usedLines g.pkg g.qtr) (obLen x)
    (Performs (.obres o) s c m → 10 ≤ obFmt x → exec (.obres o) s = .next (m.trapWord c .illegal 0 c.cl.wordAddr)) ∧
    (Performs (.obres o) s c m → obFmt x < 10 → (g.inUse n = true ∨ obDescOk x = false) →
      exec (.obres o) s = .next (m.trapWord c .obrange 0 c.cl.wordAddr)) ∧
    (Performs (.obres o) s c m → g.inUse n = false → obDescOk x = true → g.loading n = false →
      (∀ base, run = some base → ∃ t, exec (.obres o) s = .next t ∧
        IssuesWith c m t o.d 1 (fun _ => .obres n 0 (obLen x)) (fun g => { g with obrec := setNth g.obrec n (obFilled x base) })
          (fun _ s => { s with opbuf := t.opbuf, opOwn := (s.tagBuf (obPlace g.pkg g.qtr base) (obLen x) g.func).opOwn }) ∧
        ∀ a, t.opbuf.get a = if obPlace g.pkg g.qtr base ≤ a ∧ a < obPlace g.pkg g.qtr base + 64 * obLen x then 0 else m.opbuf.get a) ∧
      (run = none → ∃ t, exec (.obres o) s = .next t ∧
        IssuesWith c m t o.d 1 (fun _ => .obres n 4 0) (fun g => { g with obrec := setNth g.obrec n 0 }) (fun _ s => s))) ∧
    (Performs (.obrel o) s c m → g.inUse n = true → exec (.obrel o) s = .next (m.trapWord c .obrange 0 c.cl.wordAddr)) ∧
    (Performs (.obrel o) s c m → g.inUse n = false → g.loading n = false → ∃ t, exec (.obrel o) s = .next t ∧
      IssuesWith c m t o.d 1 (fun _ => .obres n 0 0) (fun g => { g with obrec := setNth g.obrec n 0 }) (fun _ s => s)) ∧
    (Performs (.obload o) s c m → g.acquiring = false → c.covered m o.b → c.covered m o.c →
      let src := bitsN (g.scalarOf c.lane o.b) 31 0; let len := (g.scalarOf c.lane o.c).toNat; let off := x.toNat
      let rec_ := g.obrec.getD n 0
      (m.tileRange g.func g.pkg src len = none → exec (.obload o) s = .next (m.trapWord c .space 0 (BitVec.ofNat 64 src))) ∧
      (∀ p, m.tileRange g.func g.pkg src len = some p → p / Config.sliceBytes ≠ g.pkg →
        exec (.obload o) s = .next (m.trapWord c .space 0 (BitVec.ofNat 64 src))) ∧
      (∀ p, m.tileRange g.func g.pkg src len = some p → p / Config.sliceBytes = g.pkg →
        ((src % 64 ≠ 0 ∨ off % 64 ≠ 0 ∨ len % 64 ≠ 0) → exec (.obload o) s =
          .next (m.trapWord c .misalign 0 (BitVec.ofNat 64 (if src % 64 = 0 ∧ off % 64 ≠ 0 then off else src)))) ∧
        (src % 64 = 0 → off % 64 = 0 → len % 64 = 0 →
          ((obValid rec_ = false ∨ 64 * obLen rec_ < off + len) →
            exec (.obload o) s = .next (m.trapWord c .obrange 0 c.cl.wordAddr)) ∧
          (obValid rec_ = true → off ≤ 64 * obLen rec_ → len = 0 → ∃ t, exec (.obload o) s = .next t ∧ RegsKept c.gi m t ∧
            t.outside = m.outside) ∧
          (obValid rec_ = true → off + len ≤ 64 * obLen rec_ → len ≠ 0 → ∃ t, exec (.obload o) s = .next t ∧
            Issues c m t 0xFF 1 (.obload n off p len (m.ownSeen c.gi 1 .tile ((List.range len).map (fun k => p + k))))))))

/-- R319 to R321, R131, R137, R138 and R145 to R147, matrix mode: MODE.m opens the window on two valid records of a pair of formats, and
keeps or clears its 64 registers; MZERO clears them; MODE.v closes the window, where accumulators that were only kept have their old
tags, cleared ones are zero registers, and all others G. MOP takes a place in the quarter's array queue, where its block lies inside both
records; MSYNC waits for the group's array work and does nothing else. -/
def Obligations.MatrixMode : Prop :=
  (∀ (o : VOps) (s : State) (c : Ctx) (m : State),
    let g := m.grp c.gi; let w := o.d.toNat
    let ra := g.obrec.getD (bitsN o.mod 4 2) 0; let rb := g.obrec.getD (bitsN o.mod 7 5) 0
    let good := obValid ra = true ∧ obValid rb = true ∧ pairOk (obFmt ra) (obFmt rb) = true
    let zeros : VReg := ⟨.g, List.replicate 64 0⟩
    let window := fun (base : Nat) (f : Nat → VReg) (v : List VReg) =>
      (List.range v.length).map (fun n => if base ≤ n ∧ n < base + 64 then f n else v.getD n VReg.zero)
    (Performs (.modeM o) s c m → ¬good → exec (.modeM o) s = .next (m.trapWord c .obrange 0 c.cl.wordAddr)) ∧
    (Performs (.modeM o) s c m → good → (∀ p ∈ g.pendw, meetsWindow w p.reg 1 = true → p.ready ≤ c.t) →
      (∀ p ∈ g.ops, meetsWindow w p.dest p.span = false) →
      ∃ t, exec (.modeM o) s = .next t ∧ (t.grp c.gi).s = g.s ∧ (t.grp c.gi).flags = g.flags ∧
        (t.grp c.gi).v = (if o.mod.getLsbD 1 then window w (fun _ => zeros) g.v else g.v) ∧ Proceeds c m t c.cl.taken c.cl.target ∧
        Changes c.gi m t (fun x => { x with
          mm := true, wbase := w, arec := bitsN o.mod 4 2, brec := bitsN o.mod 7 5, acc := if o.mod.getLsbD 1 then .zeroed else .kept,
          wtags := (List.range 64).map (fun j => (g.vreg (w + j)).tag) }) (fun s => s)) ∧
    (Performs (.mzero o) s c m → g.arrayBusy = false → ∃ t, exec (.mzero o) s = .next t ∧ (t.grp c.gi).s = g.s ∧
      (t.grp c.gi).flags = g.flags ∧ (t.grp c.gi).v = window g.wbase (fun _ => zeros) g.v ∧ Proceeds c m t c.cl.taken c.cl.target ∧
      Changes c.gi m t (fun x => { x with acc := .zeroed }) (fun s => s)) ∧
    (Performs (.modeV o) s c m → g.arrayWork c.t = false → ∃ t, exec (.modeV o) s = .next t ∧ (t.grp c.gi).s = g.s ∧
      (t.grp c.gi).flags = g.flags ∧ Proceeds c m t c.cl.taken c.cl.target ∧
      (t.grp c.gi).v = window g.wbase (fun n => match g.acc with
        | .zeroed => ⟨.u, List.replicate 64 0⟩
        | .kept => ⟨g.wtags.getD (n - g.wbase) .g, (g.vreg n).lanes⟩
        | .other => ⟨.g, (g.vreg n).lanes⟩) g.v ∧
      Changes c.gi m t (fun x => { x with mm := false }) (fun s => s)) ∧
    (Performs (.mzero o) s c m → g.arrayBusy = true → ∃ t, exec (.mzero o) s = .next t ∧ Waits c m t) ∧
    (Performs (.modeV o) s c m → g.arrayWork c.t = true → ∃ t, exec (.modeV o) s = .next t ∧ Waits c m t)) ∧
  ((∀ (o : IOps) (s : State) (c : Ctx) (m : State), Performs (.mop o) s c m →
    let g := m.grp c.gi; let b := o.imm.toNat
    let inside := b < obK (g.obrec.getD g.arec 0) / 48 ∧ b < obK (g.obrec.getD g.brec 0) / 48
    (¬inside → exec (.mop o) s = .next (m.trapWord c .obrange 0 c.cl.wordAddr)) ∧
    (inside → c.slotFree m → g.loading g.arec = false → g.loading g.brec = false → g.draining = false →
      (m.quarter g.pkg g.qtr).arrayQ.length < Config.arrayMax →
      ∃ t id, exec (.mop o) s = .next t ∧ RegsKept c.gi m t ∧
        (t.grp c.gi).others = { g.others with ops := g.ops ++ [c.operation id 0xFF 1 (.mop b)] } ∧ t.outside = m.outside ∧
        (∀ j, j ≠ c.gi → t.grp j = m.grp j) ∧
        ((t.core g.pkg).qtr.map (fun x => x.arrayQ)) = modifyNth (fun l => l ++ [(c.gi, id)]) g.qtr
          ((m.core g.pkg).qtr.map (fun x => x.arrayQ)))) ∧
  (∀ (o : VOps) (s : State) (c : Ctx) (m : State), Performs (.msync o) s c m →
    ((m.grp c.gi).arrayWork c.t = false → ∃ t, exec (.msync o) s = .next t ∧ Does c m t (fun g => g) (fun s => s)) ∧
    ((m.grp c.gi).arrayWork c.t = true → ∃ t, exec (.msync o) s = .next t ∧ Waits c m t)))

/-- R322 and R323, MDRAIN: its entry takes its place in a queue and waits for the window's read; the same tests of addresses, and
NOENGINE, as R310 gives a copy; a till outside the own slice or in the engine region traps SPACE, one that is no multiple of 8 MISALIGN. An INT32
drain of a window that is not INT8 is illegal. -/
def Obligations.MatrixDrain : Prop :=
  ∀ (o : VOps) (s : State) (c : Ctx) (m : State), Performs (.mdrain o) s c m → c.covered m o.a → c.covered m o.b → c.covered m o.c →
    let g := m.grp c.gi; let target := bitsN o.mod 7 4; let isInt := obFmt (g.obrec.getD g.arec 0) == 7
    let a := g.scalarOf c.lane o.a; let b := g.scalarOf c.lane o.b; let e := g.scalarOf c.lane o.c; let till := bitsN e 31 0
    let good := target = 8 → isInt = true
    let here := a.toNat < 2 ^ 57 ∧ a.toNat % 64 = 0 ∧ (till = 0 ∨ ownPlace g.pkg till ≠ none) ∧ till % 8 = 0
    (¬good → exec (.mdrain o) s = .next (m.trapWord c .illegal 0 c.cl.wordAddr)) ∧
    (good → c.accessFree m → 2 ^ 57 ≤ a.toNat → exec (.mdrain o) s = .next (m.trapWord c .space 0 a)) ∧
    (good → c.accessFree m → a.toNat < 2 ^ 57 → a.toNat % 64 ≠ 0 → exec (.mdrain o) s = .next (m.trapWord c .misalign 0 a)) ∧
    (good → c.accessFree m → a.toNat < 2 ^ 57 → a.toNat % 64 = 0 → till ≠ 0 →
      (ownPlace g.pkg till = none → exec (.mdrain o) s = .next (m.trapWord c .space 0 (BitVec.ofNat 64 till))) ∧
      (ownPlace g.pkg till ≠ none → till % 8 ≠ 0 → exec (.mdrain o) s = .next (m.trapWord c .misalign 0 (BitVec.ofNat 64 till)))) ∧
    (good → c.accessFree m → here → m.copyEngine g.func (g.pkg / 64) = false → g.resident = true → g.numbered m.seq →
      EndsAtOnce (.mdrain o) s c m o.d 0x10) ∧
    (good → c.accessFree m → here → m.copyEngine g.func (g.pkg / 64) = true → c.mayLeave m → m.listing c.gi = false →
      ∃ t id, exec (.mdrain o) s = .next t ∧ RegsKept c.gi m t ∧
        let entry : Entry :=
          { id := id, kind := .drain [] isInt target (o.mod.getLsbD 3) (o.mod.getLsbD 2) (bitsN o.mod 1 0) (b.setWidth 32).toInt
              (b.extractLsb' 32 32).toInt a.toNat,
            report := .drain, func := g.func, name := g.name, rclass := g.rclass, core := g.pkg, till := if till = 0 then 0 else (ownPlace g.pkg till).getD 0 + 1,
            awaitAck := false, rel := id, started := false, todo := [], lineAcc := 0, status := 0, fail := 0,
            turn := 0, read := none, sent := none }
        (t.grp c.gi).others = { g.others with ops := g.ops ++ [c.operation id o.d 1 (.mdrain 0)] } ∧ t.outside = m.outside ∧
        (∀ j, j ≠ c.gi → t.grp j = m.grp j) ∧
        (t.core g.pkg).queues = modifyNth (fun l => enterQueue (l ++ [entry])) (bitsN e 33 32) (m.core g.pkg).queues)

/-! Completions (files 03, 05 and 11) -/

/-- R92, R95, R88, R89, R292 to R295, R303, R113 and R115, completions of a group's one operation. A load, of whatever lanes, gives each of its
bytes the group's own byte as it stood at issue (the model's reading of R118, log entry 11), else that of its team, else of its cluster, else the
device-visible one, as its world sees it; LDP, which sees private stores alone, the device-visible one at once; its lines from elsewhere enter integrity debt. A
plain LDG that the near cache serves gives that line's bytes, or fills the line. An absent line holds a load back; a poisoned one is an INTEGRITY
owed, with nothing written. A store ends; a prefetch leaves its line in the near cache at cluster scope or below; a line of debt is checked, or
fails and is owed as INTEGRITY. -/
def Obligations.LoadsAndStoresComplete : Prop :=
  ∀ (s : State) (gi id : Nat), let g := s.grp gi
    let seen := fun (own : List (Nat × Byte)) (under : Nat → Byte) (p : Nat) => match own.find? (fun x => x.1 == p) with
      | some x => x.2
      | none => under p
    let below := fun (kind : Nat) (space : Space) (p : Nat) => match space with
      | .tile => (s.midByte g .tile p).getD (s.tile.get p)
      | .glob => if kind = 0 then s.seenByte g.func p else (s.midByte g .glob p).getD (s.seenByte g.func p)
    (∀ (slot span beside scope width kind : Nat) (space : Space) (d : RegCode) (lanes mask : BitVec 64) (mod : BitVec 8) (near acq : Bool)
        (accs : List Acc) (own : List (Nat × Byte)),
      Alone s gi ⟨id, slot, d, span, lanes, beside, .load kind mod space scope width acq accs own []⟩ → d.toNat + span ≤ min 192 g.v.length →
      (kind, space) ∈ [(0, Space.glob), (1, .tile), (2, .glob), (3, .tile), (4, .glob)] → (kind = 2 → near = true → 2 < scope) →
      (accs.map Acc.lane).Nodup →
      (∀ a ∈ accs, a.lane < 64 ∧ a.place ≠ [] ∧ (mask = BitVec.allOnes 64 ∨ (mask.getLsbD a.lane = true ∧ a.place.length ≤ 8))) →
      let places := accs.flatMap Acc.place
      let mine := fun (p : Nat) => own.any (fun x => x.1 == p)
      (∀ p ∈ places, s.poisoned space p = false) →
      (space = .tile → (∀ p ∈ places, mine p = true) ∨ ∀ p ∈ places, alignDown p 64 ∉ s.absent) →
      (space = .glob → ∀ p ∈ places, mine p = false → s.turnsAway g.func p = false ∧ s.otherPriv gi p = none) →
      ∃ t, exec (.loadComplete gi id mask near) s = .next t ∧
        LoadLands s t gi d span (accs.map (fun a => (a.lane, a.place.map (seen own (below kind space))))) ∧ (∀ x ∈ g.debt, x ∈ (t.grp gi).debt) ∧
        ∀ p ∈ places, mine p = false → remoteLine g.pkg space p = true → ⟨space, lineOf space p⟩ ∈ (t.grp gi).debt) ∧
    (∀ (slot span beside scope width line : Nat) (d : RegCode) (lanes : BitVec 64) (mod : BitVec 8) (a : Acc) (own : List (Nat × Byte)),
      Alone s gi ⟨id, slot, d, span, lanes, beside, .load 2 mod .glob scope width false [a] own []⟩ → d.toNat + span ≤ min 192 g.v.length →
      scope ≤ 2 → a.lane < 64 → a.place ≠ [] → a.place.length ≤ 8 →
      (∀ p ∈ a.place, alignDown p 128 = line ∧ regionOf p ≠ 3 ∧ s.poisoned .glob p = false ∧ s.otherPriv gi p = none) →
      let gives := fun (t : State) (under : Nat → Byte) => exec (.loadComplete gi id (BitVec.allOnes 64) true) s = .next t ∧
        LoadLands s t gi d span [(a.lane, a.place.map (seen own (fun p => (s.midByte g .glob p).getD (under p))))]
      (∀ l, (s.core g.pkg).nearLine g.func line = some l → (∀ p ∈ a.place, (gi, p) ∉ l.old) →
        ∃ t, gives t (fun p => l.data.getD (p - line) 0)) ∧
      ((s.core g.pkg).nearLine g.func line = none → (∀ p ∈ a.place, own.any (fun x => x.1 == p) = false ∧ s.turnsAway g.func p = false) →
        ∃ t, gives t (s.seenByte g.func) ∧
          (t.core g.pkg).nearLine g.func line = some ⟨g.func, line, s.seenRead g.func .glob line 128, []⟩)) ∧
    (∀ (slot span beside scope width kind : Nat) (space : Space) (d : RegCode) (lanes : BitVec 64) (mod : BitVec 8) (near acq : Bool)
        (a : Acc) (own : List (Nat × Byte)),
      Alone s gi ⟨id, slot, d, span, lanes, beside, .load kind mod space scope width acq [a] own []⟩ → a.lane < 64 → a.place ≠ [] →
      let hidden := space = .tile ∧ (∃ p ∈ a.place, own.any (fun x => x.1 == p) = false) ∧ ∃ p ∈ a.place, alignDown p 64 ∈ s.absent
      (hidden → exec (.loadComplete gi id (BitVec.allOnes 64) near) s = .next s) ∧
      (¬hidden → (∃ p ∈ a.place, s.poisoned space p = true) → s.ringVa g.func = 0 →
        ∃ t, exec (.loadComplete gi id (BitVec.allOnes 64) near) s = .next t ∧ MemoryKept s t ∧ (t.grp gi).owedInteg = true ∧
          (t.grp gi).v = g.v ∧ (t.grp gi).s = g.s ∧ (t.grp gi).ops.map Op.slot = [slot])) ∧
    (∀ (slot : Nat) (d : RegCode) (lanes : BitVec 64) (beside : Nat), ∀ kind ∈ [OpKind.store, .storePrivate],
      Alone s gi ⟨id, slot, d, 1, lanes, beside, kind⟩ → ∃ t, exec (.storeComplete gi id) s = .next t ∧ (t.grp gi).ops = [] ∧
        t.outside = s.outside ∧ (t.grp gi).v = g.v ∧ (t.grp gi).s = g.s) ∧
    (∀ (slot beside scope pa : Nat) (d : RegCode) (lanes : BitVec 64) (a : Acc),
      Alone s gi ⟨id, slot, d, 1, lanes, beside, .prefetch scope [a]⟩ → s.prefetchPa g a.addr = some pa → scope ≤ 2 →
      regionOf pa ≠ 3 → s.poisoned .glob pa = false → ∃ t, exec (.prefetchComplete gi id) s = .next t ∧ (t.grp gi).ops = [] ∧ t.outside = s.outside ∧
        (t.core g.pkg).nearLine g.func pa = some ⟨g.func, alignDown pa 128, s.seenRead g.func .glob (alignDown pa 128) 128, []⟩) ∧
    (∀ k, gi < s.groups.length → k < g.debt.length →
      (∃ t, exec (.integrityCheckPass gi k) s = .next t ∧ (t.grp gi).debt = dropNth k g.debt ∧ t.outside = s.outside ∧
        (t.grp gi).v = g.v ∧ (t.grp gi).s = g.s) ∧
      (∃ t, exec (.integrityCheckFail gi k) s = .next t ∧ (t.grp gi).owedInteg = true ∧ (t.grp gi).debt = dropNth k g.debt ∧
        (t.grp gi).v = g.v ∧ (t.grp gi).s = g.s))

/-- R97 to R102, R105, R106, R120, R112, R298 to R302: a commit to device scope writes its entry to the tile store, to device DRAM, or to the hub's
egress escrow; one to system scope to its destination, with what stands in the egress escrow; one to team or cluster scope shows it to the team or
the cluster, and clears the watch set; one whose watch set was hit, or has overflowed, discards it with its status, and an ABORT discards it. A
releasing store moves the entries before it and then its own, a kick store hands its lists over behind them, a request whose release is made is sent;
an entry that cannot move holds its release back. An atomic writes its new value, where it has one, and
returns the old one to its destination, if it has one, whatever private stores of other groups are still to be committed (the model's choice, log
entry 67); a vault routine's bytes are written and its result is returned. While a line is unchecked
or has failed its check, a commit waits (R114). That commits of one cluster are examined one after the other is log entry 61. -/
def Obligations.CommitsComplete : Prop :=
  ∀ (s : State) (gi id slot beside : Nat) (d : RegCode) (lanes : BitVec 64), let g := s.grp gi
    let alone := fun (span : Nat) (kind : OpKind) => Alone s gi ⟨id, slot, d, span, lanes, beside, kind⟩
    let commit := fun (scope : Nat) => alone 1 (.commit scope false)
    let ended := fun (t : State) (status : W64) => exec (.commitComplete gi id []) s = .next t ∧ Ended s t gi d status ∧ t.tile = s.tile
    let performed := fun (t : State) => exec (.releasePerform gi id []) s = .next t ∧ (t.grp gi).v = g.v ∧ (t.grp gi).s = g.s ∧ t.tile = s.tile
    (∀ scope, commit scope → (g.debt ≠ [] ∨ g.owedInteg = true) → exec (.commitComplete gi id []) s = .next s) ∧
    (g.debt = [] → g.owedInteg = false →
    (∀ (e : Esc), s.escrow = [e] → Held s gi id e →
      let unhit := g.wovf = false ∧ g.whit = false ∧ ∀ w ∈ g.watch, w.hit = false
      let others := ∀ j, j ≠ gi → ∀ o ∈ (s.grp j).ops, o.kind ≠ .commit 2 true
      (∀ p ∈ [(1, Level.team), (2, .cluster)], commit p.1 → unhit → others → ∃ t, ended t 0 ∧ MemoryKept s t ∧
        t.escrow = [{ e with level := p.2, sealId := 0 }] ∧ (t.grp gi).watch = []) ∧
      (∀ scope ∈ [1, 2], commit scope → ¬unhit → others → ∃ t, ended t (if g.wovf then 9 else 8) ∧ MemoryKept s t ∧ t.escrow = [] ∧
        (t.grp gi).watch = []) ∧
      (alone 1 (.abort 3) → ∃ t, exec (.abortComplete gi id) s = .next t ∧ Ended s t gi d 0 ∧ MemoryKept s t ∧ t.escrow = [] ∧
        (t.grp gi).watch = []) ∧
      (s.poisoned e.space e.sector = false → s.egress = [] → ∀ scope ∈ [3, 4], commit scope →
        (e.space = .tile → s.tile.wf = true → ∃ t, exec (.commitComplete gi id []) s = .next t ∧ Ended s t gi d 0 ∧ t.escrow = [] ∧
          t.mem = s.mem ∧ ∀ a, t.tile.get a = e.over a (s.tile.get a)) ∧
        (e.space = .glob → s.mem.wf = true → s.turnsAway g.func e.sector = false →
          (regionOf e.sector = 0 ∨ (regionOf e.sector = 2 ∧ scope = 4) → ∃ t, ended t 0 ∧ t.escrow = [] ∧ t.egress = [] ∧
            ∀ a, t.mem.get a = e.over a (s.mem.get a)) ∧
          (regionOf e.sector = 2 → scope = 3 → (∃ k < 32, (e.data.getD k none).isSome = true) → ∃ t x, ended t 0 ∧ t.escrow = [] ∧ t.mem = s.mem ∧ t.egress = [x] ∧ x.sector = e.sector ∧
            x.data = e.data)))) ∧
    (∀ x, s.escrow = [] → s.egress = [x] → commit 4 → regionOf x.sector = 2 → s.stopped x = false → s.mem.wf = true →
      ∃ t, ended t 0 ∧ t.egress = [] ∧ ∀ a, t.mem.get a = if x.sector ≤ a then (x.data.getD (a - x.sector) none).getD (s.mem.get a) else s.mem.get a) ∧
    (∀ (own : Nat) (e x : Esc), s.escrow = [e, x] → own ≠ id →
      (Held s gi id e → Held s gi own x → ∀ p ∈ [(1, Level.team), (2, .cluster)], alone 1 (.storeRel p.1 own) →
        ∃ t, performed t ∧ (t.grp gi).ops = [] ∧ MemoryKept s t ∧ t.escrow = [{ e with level := p.2, sealId := 0 }, { x with level := p.2, sealId := 0 }]) ∧
      (Lands s gi id e → Lands s gi own x → s.mem.wf = true → alone 1 (.storeRel 3 own) →
        ∃ t, performed t ∧ (t.grp gi).ops = [] ∧ t.escrow = [] ∧ ∀ a, t.mem.get a = x.over a (e.over a (s.mem.get a))) ∧
      (∀ scope, 1 ≤ scope → scope ≤ 3 → alone 1 (.storeRel scope own) → e.owner = gi → e.level = .group → e.sealId = id → e.marked = false →
        x.sealId = own → e.space = .tile → alignDown e.sector 64 ∈ s.absent → exec (.releasePerform gi id []) s = .next s)) ∧
    (∀ (e : Esc) (lists : List Nat), s.escrow = [e] → Lands s gi id e → s.mem.wf = true → alone 1 (.kick lists true) →
      (s.core g.pkg).lists.length + lists.length ≤ Config.listMax → ∃ t, performed t ∧ (t.grp gi).ops = [] ∧ t.escrow = [] ∧
        (∀ a, t.mem.get a = e.over a (s.mem.get a)) ∧
        (t.core g.pkg).lists = (s.core g.pkg).lists ++ lists.map (fun a => ⟨a, id, 0, gi, g.func, g.name, []⟩)) ∧
    (alone 1 (.request (some 3)) → (∀ e ∈ s.escrow, e.owner ≠ gi) →
      ∃ t, performed t ∧ (t.grp gi).ops = [⟨id, slot, d, 1, lanes, beside, .request none⟩] ∧
        MemoryKept s t ∧ t.reqs = s.reqs.map (fun r => match r.stage with
          | .release _ => if r.sender = .group gi id then { r with stage := .send } else r
          | _ => r)) ∧
    (∀ (a : Acc) (width span : Nat) (acq rel : Bool) (b x : List W64), destIn g d width → a.lane < 64 → 2 ≤ width → width ≤ 3 →
      s.egress = [] → (rel = true → ∀ e ∈ s.escrow, e.owner ≠ gi) →
      let p := a.place.headD 0; let n := 2 ^ width; let byte := fun (v k : Nat) => (BitVec.ofNat 8 (v / 256 ^ k) : Byte)
      let arg := fun (l : List W64) => (l.getD a.lane 0).toNat % 2 ^ (8 * n)
      p % n = 0 →
      (∀ (op scope : Nat), alone span (.atomic .tile op scope width acq rel [a] b x []) → alignDown p 64 ∉ s.absent →
        s.poisoned .tile p = false → s.tile.wf = true → let m := ofBytesLE (s.tile.read p n)
        ∃ t, exec (.atomicPerformed gi id []) s = .next t ∧ (t.grp gi).ops = [] ∧ LaneLands s t gi d width a.lane (BitVec.ofNat 64 m) ∧
          t.mem = s.mem ∧ ∀ q, t.tile.get q = if p ≤ q ∧ q < p + n then (match atomVal op (8 * n) m (arg b) (arg x) with
            | some v => byte v (q - p)
            | none => s.tile.get q) else s.tile.get q) ∧
      ((∀ e ∈ s.escrow, e.owner = gi → e.level ≠ .priv) → regionOf p = 0 → s.turnsAway g.func p = false → s.poisoned .glob p = false → s.mem.wf = true →
      (∀ (op scope : Nat), alone span (.atomic .glob op scope width acq rel [a] b x []) → let m := ofBytesLE (s.mem.read p n)
        ∃ t, exec (.atomicPerformed gi id []) s = .next t ∧ (t.grp gi).ops = [] ∧ LaneLands s t gi d width a.lane (BitVec.ofNat 64 m) ∧
          t.tile = s.tile ∧ ∀ q, t.mem.get q = if p ≤ q ∧ q < p + n then (match atomVal op (8 * n) m (arg b) (arg x) with
            | some v => byte v (q - p)
            | none => s.mem.get q) else s.mem.get q) ∧
      (∀ rt, alone span (.atomp rt width acq rel [a] b x []) → let line := alignDown p 128
        let r := runRoutine ((s.routineOf g.func rt).getD []) (s.mem.read line 128) [BitVec.ofNat 32 (p - line), (b.getD a.lane 0).setWidth 32,
          (b.getD a.lane 0).extractLsb' 32 32, (x.getD a.lane 0).setWidth 32, (x.getD a.lane 0).extractLsb' 32 32]
        ∃ t, exec (.vaultRoutineRun gi id a.lane) s = .next t ∧ (t.grp gi).ops = [] ∧ LaneLands s t gi d width a.lane (r.2.2 ++ r.2.1) ∧
          t.tile = s.tile ∧ ∀ q, t.mem.get q = if line ≤ q ∧ q < line + 128 then (r.1.getD (q - line) none).getD (s.mem.get q)
            else s.mem.get q))))

/-- R287, R135, R136, R138, R140, R142, R150 and R260: an SFU result lands with its flags; the MOP at the head of the array queue
accumulates its block; a held multiply-class word has the issue slot once the queue is empty; OBRES and OBREL end with their status; an
OBLOAD fills its range; the window's read, which waits for integrity debt (R114, R323), lets a drain's entry enter its queue. -/
def Obligations.ComputeCompletes : Prop :=
  ∀ (s : State) (gi id slot beside : Nat) (d : RegCode) (lanes : BitVec 64), let g := s.grp gi
    (∀ (res : VReg) (mask : BitVec 64) (fl : Flags), Alone s gi ⟨id, slot, d, 1, lanes, beside, .sfu res mask fl⟩ → d.toNat < g.v.length →
      s.sfuFirst g.pkg g.qtr = some id → ∃ t, exec (.sfuComplete gi id) s = .next t ∧ (t.grp gi).ops = [] ∧ MemoryKept s t ∧
        (t.grp gi).flags = g.flags ||| fl.setWidth 64 ∧ ((t.grp gi).vreg d.toNat).tag = res.tag ∧
        ∀ i < 64, ((t.grp gi).vreg d.toNat).lane i = if mask.getLsbD i then res.lane i else (g.vreg d.toNat).lane i) ∧
    (∀ (pkg q b : Nat) (rest : List (Nat × Nat)), Alone s gi ⟨id, slot, d, 1, lanes, beside, .mop b⟩ →
      (s.quarter pkg q).arrayQ = (gi, id) :: rest → q < (s.core pkg).qtr.length → g.wbase + 64 ≤ g.v.length →
      ∃ t, exec (.mopComplete pkg q) s = .next t ∧ (t.grp gi).ops = [] ∧ MemoryKept s t ∧ (t.quarter pkg q).arrayQ = rest ∧
        ∀ i < 64, ∀ j < 64, ((t.grp gi).vreg (g.wbase + j)).lane i =
          (s.mopCell (g.obRange g.arec) (g.obRange g.brec) (g.obrec.getD g.arec 0) (g.obrec.getD g.brec 0) b i j
            ((g.vreg (g.wbase + j)).lane i)).1) ∧
    (∀ (k : Nat) (c : Clause) (w : W64) (s1 : State), s.nextClause gi = some k → s.dueFirst gi = true → g.clauses[k]? = some c → g.resident = true →
      g.killing = none → (s.quarter g.pkg g.qtr).arrayQ = [] → s.fetch gi c.wordAddr.toNat = .word w s1 → isArrayOp (opOf w) = true →
      exec (.multiplyArrayIssue gi) s = .next { s1 with cur := some (gi, k) }) ∧
    (∀ (n st lines : Nat), Alone s gi ⟨id, slot, d, 1, lanes, beside, .obres n st lines⟩ →
      ∃ t, exec (.obresComplete gi id) s = .next t ∧ Ended s t gi d (BitVec.ofNat 64 st) ∧ t.outside = s.outside) ∧
    (∀ (n off src len : Nat), Alone s gi ⟨id, slot, d, 1, lanes, beside, .obload n off src len []⟩ → len % 64 = 0 → s.escrow = [] →
      s.opbuf.wf = true → (∀ k < len / 64, src + 64 * k ∉ s.absent ∧ src + 64 * k ∉ s.poison) →
      ∃ t, exec (.obloadComplete gi id) s = .next t ∧ (t.grp gi).ops = [] ∧ t.mem = s.mem ∧ t.tile = s.tile ∧
        (∀ k < len, t.opbuf.get (g.obRange n + off + k) = s.tile.get (src + k)) ∧
        ∀ a, (a < g.obRange n + off ∨ g.obRange n + off + len ≤ a) → t.opbuf.get a = s.opbuf.get a) ∧
    (Alone s gi ⟨id, slot, d, 1, lanes, beside, .mdrain 0⟩ → g.debt = [] → g.owedInteg = false → ∃ t, exec (.mdrainReadComplete gi id) s = .next t ∧ Ended s t gi d 0 ∧
      let acc := (List.range 64).map (fun j => g.vreg (g.wbase + j))
      (t.core g.pkg).queues = (s.core g.pkg).queues.map (fun q => enterQueue (q.map (fun e => if e.rel = id then
        (match e.kind with
          | .drain _ i k a x m r c sh => { e with rel := 0, kind := .drain acc i k a x m r c sh }
          | _ => e) else e))))

/-! Scheduling (files 01, 18, 19 and 22) -/

/-- R21, R24, R31 to R33, R206 and R345: of the groups inside a clause whose next word may issue, the one of highest priority has the issue
slot; a clause starts at its first word, or where its run resumes, its header fetched, checked and its slots clear; a header that has
arrived lets its group choose its run; a ready group takes a free place of the active set, or that of a group of lower priority at its
issue boundary; 64 clocks of WAIT give the place up. -/
def Obligations.ClauseScheduling : Prop :=
  ∀ (s : State) (gi pkg q : Nat), let g := s.grp gi
    (gi ∈ s.inQuarter pkg q → s.mayIssue gi = true →
      (∀ j ∈ s.inQuarter pkg q, j ≠ gi → s.mayIssue j = true → (s.grp j).prio < g.prio) →
      exec (.issueSlotGrant pkg q) s = .next { s with cur := (s.nextClause gi).map (fun k => (gi, k)) }) ∧
    (∀ (r : Run) (w : W64), gi < s.groups.length → s.starter g.pkg g.qtr = some gi → g.sel = [r] → s.fetch gi r.addr.toNat = .word w s →
      headerBad w = false → r.pos ≤ bitsN w 59 56 + 1 → (bitAt w 48 = true → r.lanes = g.live) → g.waitMet w = true →
      ∃ t, exec (.clauseStart gi) s = .next t ∧ t.cur = some (gi, 0) ∧ (t.grp gi).sel = [] ∧ (t.grp gi).waiting = false ∧
        (t.grp gi).clauses = [⟨r.addr, w, r.lanes, if r.pos = 0 then 1 else r.pos, false, 0, 0, false, false, g.emark, 2 * (g.selNo + 1),
          0, 0, none⟩] ∧ MemoryKept s t ∧ (t.grp gi).v = g.v ∧ (t.grp gi).s = g.s) ∧
    (∀ (r : Run) (p : Peek) (second : Option Run) (n : Nat) (s1 : State), gi < s.groups.length → s.maySelect gi = true → g.sel = [] →
      s.choose gi = (.runs r p second n, s1) → s1.groups = s.groups →
      ∃ t, exec (.headerFetchFaultServiced gi) s = .next t ∧ (t.grp gi).sel = r :: second.toList ∧ (t.grp gi).progress = n ∧
        (t.grp gi).v = g.v ∧ (t.grp gi).s = g.s) ∧
    (s.readyIn pkg q = [gi] → g.pkg = pkg → g.qtr = q →
      ((s.activeIn pkg q).length < Config.activeMax → ∃ t, exec (.admission pkg q) s = .next t ∧ (t.grp gi).st = .active ∧
        (t.grp gi).others = { g.others with st := .active } ∧ t.outside = s.outside ∧ ∀ j, j ≠ gi → t.grp j = s.grp j) ∧
      (∀ v, Config.activeMax ≤ (s.activeIn pkg q).length → s.lowest (s.activeIn pkg q) = some v → v < s.groups.length →
        (s.grp v).prio < g.prio → (s.grp v).clauses = [] → ∃ t, exec (.admission pkg q) s = .next t ∧ (t.grp gi).st = .active ∧
          (t.grp v).st = .pending ∧ (t.grp v).sel = [] ∧ t.outside = s.outside)) ∧
    (gi < s.groups.length → g.st = .active → g.waiting = true → g.clauses = [] → g.waitClk + 64 ≤ s.clk g.pkg →
      s.readyIn g.pkg g.qtr ≠ [] → s.waitHeld gi = true →
      ∃ t, exec (.waitDemotion gi) s = .next t ∧ (t.grp gi).st = .pending ∧ (t.grp gi).sel = [] ∧ (t.grp gi).waiting = false ∧
        (t.grp gi).v = g.v ∧ (t.grp gi).s = g.s ∧ t.outside = s.outside)

/-- R239, R353, R400 and R420: of the traps that a group owes at its issue boundary, INTEGRITY is taken first, then PAGE, of the
findings whose slots have cleared the one of lowest address (R392, R435), as SPACE where its window entry has gone (R431; log entry 62), each at the
header of the run about to issue; and, with TS clear, SOFT and PREEMPT, at the head run. R54: a dying group with nothing left is dead. R46, R399 to R402: the
victim of an eviction, and a group whose world's slice is over, here with nothing outstanding, are saved, with CGEN one higher. -/
def Obligations.OwedTrapsAndHalts : Prop :=
  ∀ (s : State) (gi : Nat), let g := s.grp gi
    (∀ (r head : Run) (t : State), s.atBoundary gi = true → s.aboutTo gi = some r → g.runs.head? = some head →
      let takes := fun (r : Run) (cause : Cause) (code : Nat) (faddr : W64) (paid : Group → Group) =>
        (s.modGrp gi paid).takeTrap gi cause code faddr ⟨r.lanes, 0, r.addr, r.pos⟩ = .done t →
          exec (.asyncTrapTaken gi) s = .next t
      (g.owedInteg = true → takes r .integrity 0 r.addr (fun g => { g with owedInteg := false })) ∧
      (∀ p, g.owedInteg = false → g.duePage = some p →
        (p.2.2 ≠ 4 → takes r .page p.2.2 (BitVec.ofNat 64 p.2.1) Group.clearPages) ∧
        (p.2.2 = 4 → takes r .space 0 (BitVec.ofNat 64 p.2.1) Group.clearPages)) ∧
      (g.owedInteg = false → g.duePage = none → g.ts = false → g.owedSoft = true →
        takes head .soft 0 g.sfaddr (fun g => { g with owedSoft := false, sfaddr := 0 })) ∧
      (g.owedInteg = false → g.duePage = none → g.ts = false → g.owedSoft = false → g.preempt = true →
        takes head .preempt 0 0 (fun g => { g with preempt := false }))) ∧
    (∀ sel, gi < s.groups.length → g.dying = true → g.killing = none → g.debt = [] → g.ops = [] → g.owedInteg = false →
      (∀ e ∈ s.escrow, e.owner ≠ gi) → ∃ t, exec (.groupDeath ⟨gi, sel⟩) s = .next t ∧ (t.grp gi).st = .dead ∧ (t.grp gi).accept = false) ∧
    (∀ n s1, gi < s.groups.length → s.inQuarter g.pkg g.qtr = [gi] → g.st = .pending → g.cond = .pool n → g.ops = [] →
      s.saveGroup gi true false = .done s1 →
      exec (.eviction g.pkg g.qtr) s = .next s1 ∧ (s1.grp gi).st = .saved ∧ (s1.grp gi).cgen = g.cgen + 1) ∧
    (∀ s1, gi < s.groups.length → g.between = true → g.halting = false → g.image ≠ 1 → (∀ m ∈ s.hub.moves, gi ∉ m.groups) →
      s.sliceCurrent g.func = false → g.graceAt = none → g.ops = [] →
      s.saveGroup gi true false = .done s1 →
      exec (.forcedHalt gi) s = .next s1 ∧ (s1.grp gi).st = .saved ∧ (s1.grp gi).cgen = g.cgen + 1)

/-- R40 to R42, R29, R371, R49, R53, R73 and R405: a launch that fits is placed whole: as many groups as its record asks for are there, pending
at its entry with every lane live, zero registers but for its argument in s0, and its launch number; a team's arrival at a grid barrier is
counted, and the last one releases it; a release makes a team's waiters pending; a saved group, or one that moves, is installed in a slot, with
its PLACE one higher, and as installed it is in the answered state. -/
def Obligations.PlacementAndRestore : Prop :=
  (∀ (s s1 : State) (l : Nat) (x : Launch), s.launches[l]? = some x → x.done = false → x.placed = false → x.words.length = 8 →
    s.placeLaunch l = some s1 →
    ∃ t, exec (.launchPlacement l) s = .next t ∧
      (∃ y, t.launches[l]? = some y ∧ y.placed = true ∧ y.lnum = lookupD s.hub.placedN x.func 0 % 2 ^ 16) ∧
      (lrGrid x.words % (lrCw x.words * lrCh x.words) = 0 → t.groups.length = s.groups.length + lrGrid x.words * lrGroups x.words) ∧
      ∀ gi, s.groups.length ≤ gi → gi < t.groups.length → let g := t.grp gi
        g.st = .pending ∧ g.func = x.func ∧ g.live = BitVec.allOnes 64 ∧ g.blk = bitsN (x.words.getD 2 0) 7 4 ∧
        g.v = List.replicate (16 * g.blk) VReg.zero ∧ g.s = setNth (List.replicate 48 0) 0 (x.words.getD 1 0) ∧
        g.pc = List.replicate 64 (BitVec.ofNat 64 (bitsN (x.words.getD 0 0) 56 0)) ∧ g.ts = false ∧ g.mm = false ∧ g.accept = true ∧
        g.lnum = lookupD s.hub.placedN x.func 0 % 2 ^ 16) ∧
  (∀ (s : State) (k launch id tidx : Nat), s.hub.barMsgs[k]? = some (launch, id, tidx) →
    let ts := s.liveTeams launch; let port := s.hub.barPort ++ [(launch, id, tidx)]
    ∃ t, exec (.gridBarrierMessage k) s = .next t ∧ t.hub.barMsgs = dropNth k s.hub.barMsgs ∧
      (∀ j, ({ t.grp j with prioInh := 0 } : Group) = { s.grp j with prioInh := 0 }) ∧
      (if ts ≠ [] ∧ ∀ x ∈ ts, (launch, id, x) ∈ port then
        t.hub.barRel = s.hub.barRel ++ ts.map (fun x => (launch, id, x)) ∧
        t.hub.barPort = port.filter (fun m => !(m.1 == launch && m.2.1 == id))
      else t.hub.barRel = s.hub.barRel ∧ t.hub.barPort = port)) ∧
  (∀ (s : State) (k launch id tidx : Nat), s.hub.barRel[k]? = some (launch, id, tidx) →
    ∃ t, exec (.gridBarrierReleaseMsg k) s = .next t ∧ t.hub.barRel = dropNth k s.hub.barRel ∧
      ∀ j, (s.grp j).st = .suspended → (s.grp j).launch = launch → (s.grp j).tidx = tidx → (s.grp j).cond = .gridBarrier id →
        (t.grp j).st = .pending ∧ (t.grp j).cond = .none) ∧
  (∀ (s s1 : State) (gi slot : Nat), let g := s.grp gi
    gi < s.groups.length → s.restorable gi = true → slot ∈ s.freeSlots g.pkg g.qtr →
    (∀ j ∈ s.grpsWhere (fun y => y.st == .saved && decide (g.prio < y.prio)), s.restorable j = false) →
    s.install gi g.pkg g.qtr slot = .done s1 →
    exec (.restore gi slot) s = .next s1 ∧ (s1.grp gi).resident = true ∧ (s1.grp gi).slot = slot ∧ (s1.grp gi).image = 0 ∧
      (s1.grp gi).place = g.place + 1 ∧ (s1.grp gi).accept = true) ∧
  (∀ (s s1 : State) (gi slot : Nat) (m : MoveReq) (rest : List MoveReq), let g := s.grp gi
    gi < s.groups.length → s.hub.moves = m :: rest → gi ∈ m.groups → (∀ x ∈ rest, x ≠ m) →
    let less := { m with groups := m.groups.filter (fun j => j ≠ gi) }
    let s0 : State := { s with hub := { s.hub with moves := less :: rest } }
    g.st = .moving → (s0.openSlots m.pkg g.qtr).head? = some slot → s0.install gi m.pkg g.qtr slot = .done s1 →
    exec (.moveInstallation gi) s = .next s1.finishMoves ∧ (s1.grp gi).resident = true ∧ (s1.grp gi).slot = slot ∧ (s1.grp gi).pkg = m.pkg ∧
      (s1.grp gi).image = 0 ∧ (s1.grp gi).place = g.place + 1 ∧ (s1.grp gi).accept = true ∧
      ((∀ y ∈ s1.hub.moves, y.groups ≠ []) → s1.finishMoves.groups = s1.groups))

/-! Names and engines (files 02, 12 and 14) -/

/-- R63, R64, R68, R70 to R72 and R75: a request that is sent reaches its target's slot: a counter rises, or a mailbox is written and its
counter rises by one; a stale location refuses it, and it walks the table again, at once; so does a moving target, and it does so 256 clocks
later. At a saved target its image's counter rises; a JOIN enters the first free place of the joiner block; that both do so in a poisoned line too is
the model's choice (log entry 66). The result reaches the sender's destination. -/
def Obligations.RequestEvents : Prop :=
  ∀ (s : State) (r : Nat) (x : Req), let staged := fun (stage : ReqStage) => s.reqs.map (fun y => if y.id = r then { y with stage := stage } else y)
    let refused := fun (again : Nat) => s.reqs.map (fun y => if y.id = r then { y with stage := .refused, resendAt := again } else y)
    (s.sent r = some x → nState x.word0 = 1 →
      (∀ gi k v, gi < s.groups.length → x.op = .signal k v → s.slotHolder x.func x.name x.word0 x.word1 = some gi →
        ∃ t, exec (.nameRequestDelivery r) s = .next t ∧ t.reqs = staged (.answered 0) ∧
          (t.grp gi).ctr = modifyNth (fun y => y + v) k (s.grp gi).ctr ∧ (t.grp gi).v = (s.grp gi).v ∧ (t.grp gi).s = (s.grp gi).s) ∧
      (∀ gi b v, gi < s.groups.length → x.op = .deposit b v → s.slotHolder x.func x.name x.word0 x.word1 = some gi →
        ∃ t, exec (.nameRequestDelivery r) s = .next t ∧ t.reqs = staged (.answered 0) ∧ (t.grp gi).box = setNth (s.grp gi).box b v ∧
          (t.grp gi).ctr = modifyNth (fun y => y + 1) (8 + b) (s.grp gi).ctr) ∧
      (∀ k v, x.op = .signal k v → s.slotHolder x.func x.name x.word0 x.word1 = none →
        exec (.nameRequestDelivery r) s = .next { s with reqs := refused 0 })) ∧
    (∀ k v, s.sent r = some x → nState x.word0 = 3 → x.op = .signal k v →
      exec (.nameRequestDelivery r) s = .next { s with reqs := refused (s.clk (x.core.getD 260) + 256) }) ∧
    (∀ (e : NameEnt) (k : Nat) (v : W64), s.sent r = some x → nState x.word0 = 2 → x.op = .signal k v → k < 16 →
      (s.reqs.filter Req.home).length ≤ 16 →
      s.walkName x.func (nameIndex x.name) = .ok e → e.state = 2 → e.gen = nameGen x.name → s.mem.wf = true → s.egress = [] →
      e.addr % 64 = 0 → e.addr + 0x200 ≤ 2 ^ 55 → e.pa % 32 = 0 → (e.pa + 32 ≤ e.addr ∨ e.addr + 0x200 ≤ e.pa) →
      ∃ t, exec (.savedDelivery r) s = .next t ∧ t.reqs = staged (.answered 0) ∧
        t.devWord .glob (e.addr + 0x100 + 8 * k) = s.devWord .glob (e.addr + 0x100 + 8 * k) + v) ∧
    (∀ (e : NameEnt) (caller : W64) (j : Nat), s.sent r = some x → nState x.word0 = 1 → x.op = .join caller →
      (s.reqs.filter Req.home).length ≤ 16 →
      s.walkName x.func (nameIndex x.name) = .ok e → e.state = 1 → e.gen = nameGen x.name → s.mem.wf = true → s.egress = [] →
      e.joinp ≠ 0 → e.joinp + 32 ≤ 2 ^ 55 →
      let names := fun (k : Nat) => s.devWord .glob (e.joinp + 8 * k)
      j < 4 → names j = 0 → (∀ k < j, names k ≠ 0) → (∀ k < 4, names k ≠ caller) →
      ∃ t, exec (.joinAtHome r) s = .next t ∧ t.reqs = staged (.answered 0) ∧ t.devWord .glob (e.joinp + 8 * j) = caller) ∧
    (s.req r = some x → x.stage = .refused → x.sender ≠ .joiner → ∀ pkg, x.core = some pkg →
      (s.clk pkg < x.resendAt → exec (.nameResendTimer r) s = .next s) ∧
      (x.resendAt ≤ s.clk pkg →
      (∀ res, (s.lookName pkg x.func x.sclass x.name x.op true).1 = .answer res →
        ∃ t, exec (.nameResendTimer r) s = .next t ∧ t.reqs = staged (.answered res) ∧ t.groups = s.groups ∧ MemoryKept s t) ∧
      (∀ e, (s.lookName pkg x.func x.sclass x.name x.op true).1 = .go e →
        ∃ t, exec (.nameResendTimer r) s = .next t ∧ t.groups = s.groups ∧ MemoryKept s t ∧
          t.reqs = s.reqs.map (fun y => if y.id = r then { y with stage := .send, word0 := e.w0, word1 := e.w1 } else y)))) ∧
    (∀ (gi slot beside : Nat) (d : RegCode) (lanes : BitVec 64) (res : W64), s.req r = some x → x.stage = .answered res →
      x.sender = .group gi r → s.unlogged r = false → Alone s gi ⟨r, slot, d, 1, lanes, beside, .request none⟩ →
      ∃ t, exec (.nameRequestAnswered r) s = .next t ∧ Ended s t gi d res ∧ t.reqs = s.reqs.filter (fun y => decide (y.id ≠ r)))

/-- R88 to R90, R110, R127, R306 to R316: the head entry of a queue, of those whose worlds are not paused (R406), starts with its sectors; a sector of a tile-store copy whose source has
not changed arrives, and its line is present with the last of them; a finished BULK leaves its queue with OK; a fence at the head of
every queue it names leaves them all; an acknowledged entry's lines are absent and it may start; of the first list of a core that no earlier record and no slice holds back, a record is
placed, and the records after it up to the next copy are read before (R316), which is how the model sees to it that a completion word says that
they have been (log entry 32). -/
def Obligations.EngineEvents : Prop :=
  ∀ (s : State) (core q : Nat) (e : Entry), let queues := fun (s : State) => (s.core core).queues
    let headIs := fun (e1 : Entry) => modifyNth (fun l => l.map (fun y => if y.id = e.id then e1 else y)) q (queues s)
    (∀ (src dst len : Nat), s.engineHead core q = some e → e.started = false → e.status = 0 → s.engineRuns core q e = true →
      e.kind = .linear .tile .tile src dst len → len ≠ 0 → s.tillBad e = false → src % 32 = 0 →
      ∃ t, exec (.engineEntryStart core q) s = .next t ∧ MemoryKept s t ∧ t.groups = s.groups ∧
        queues t = headIs { e with
          started := true
          todo := (List.range (len / 32)).map (fun k => ⟨.tile, dst + 32 * k, (List.range 32).map (fun b =>
            some ⟨.tile, src + 32 * k + b, some (s.tile.get (src + 32 * k + b))⟩)⟩) }) ∧
    (∀ (ksrc kdst len src : Nat) (x : Todo) (rest : List Todo), s.engineHead core q = some e → e.started = true → e.status = 0 →
      s.engineRuns core q e = true → e.kind = .linear .tile .tile ksrc kdst len → e.todo = x :: rest → e.till = 0 → x.space = .tile →
      (∀ y ∈ rest, x.sameLine y = false ∧ y.sameLine x = false) → src % 32 = 0 → x.sector % 32 = 0 →
      x.srcs = (List.range 32).map (fun b => some ⟨.tile, src + b, some (s.tile.get (src + b))⟩) →
      (∀ a ∈ [src, x.sector], a < 2 ^ 55 ∧ s.inWindow e.func e.core (a / Config.sliceBytes) = true ∧ a % Config.sliceBytes < Config.engineRegion ∧
        s.allotted e.func (a / Config.sliceBytes) (a % Config.sliceBytes) = true ∧ s.poisoned .tile a = false) → s.tile.wf = true →
      ∃ t, exec (.engineLineArrival core q) s = .next t ∧ (∀ b < 32, t.tile.get (x.sector + b) = s.tile.get (src + b)) ∧
        (∀ a, (a < x.sector ∨ x.sector + 32 ≤ a) → t.tile.get a = s.tile.get a) ∧ alignDown x.sector 64 ∉ t.absent ∧
        queues t = headIs { e with todo := rest, lineAcc := 0 }) ∧
    (∀ (gi id slot beside : Nat) (d : RegCode) (lanes : BitVec 64), s.engineHead core q = some e → e.started = true →
      e.status = 0 → e.todo = [] → s.engineRuns core q e = true → e.report = .bulk gi id →
      Alone s gi ⟨id, slot, d, 1, lanes, beside, .bulk none⟩ → ∃ t, exec (.engineEntryComplete core q) s = .next t ∧ Ended s t gi d 0 ∧
        MemoryKept s t ∧ queues t = modifyNth (fun l => enterQueue (l.filter (fun y => decide (y.id ≠ e.id)))) q (queues s)) ∧
    (∀ (mask tag : Nat), s.engineHead core q = some e → e.kind = .fence mask → e.report = .list tag 0 → s.engineRuns core q e = true →
      (queues s).length = 4 → (∀ k < 4, Nat.testBit mask k = true → ∃ y, s.engineHead core k = some y ∧ y.id = e.id) →
      ∃ t, exec (.fenceComplete core q) s = .next t ∧ MemoryKept s t ∧ ∀ k < 4, (queues t).getD k [] =
        if Nat.testBit mask k then enterQueue (((queues s).getD k []).filter (fun y => decide (y.id ≠ e.id))) else (queues s).getD k []) ∧
    (∀ (ss : Space) (src dst len : Nat), ((queues s).getD q []).find? (fun y => y.awaitAck && y.rel == 0 && s.sliceCurrent y.func) = some e →
      e.kind = .linear ss .tile src dst len → ∃ t, exec (.presenceClearAck core q) s = .next t ∧
        (∀ a, dst ≤ a → a < dst + len → alignDown a 64 ∈ t.absent) ∧ (∀ a ∈ s.absent, a ∈ t.absent) ∧
        queues t = modifyNth (fun l => enterQueue (l.map (fun y => if y.id = e.id then { y with awaitAck := false } else y))) q (queues s)) ∧
    (∀ (l : ListReq) (held lists : List ListReq) (w : List W64) (more : List ListRec) (p n src dst len till : Nat) (ss : Space),
      s.kicks core = [] → (s.core core).lists = held ++ l :: lists → s.sliceCurrent l.func = true →
      s.listBefore l.g l.op l.func l.name = false → ownPlace core l.addr = some p →
      (∀ y ∈ held, s.sliceCurrent y.func = false ∨ s.listBefore y.g y.op y.func y.name = true) →
      let off := p % Config.sliceBytes + 64 * l.pos
      (l.ahead = .words w :: more ∨ (l.ahead = [] ∧ more = [] ∧ l.addr % 64 = 0 ∧ s.allotted l.func core off = true ∧
        s.poisoned .tile (tileAbs core off) = false ∧ w = (List.range 8).map (fun k => s.devWord .tile (tileAbs core off + 8 * k)))) →
      s.recordFate l.func core (2 ^ 31 + off) (ownPlace core) w = .copy n (.linear ss .glob src dst len) till →
      ∃ t, exec (.requestListTaken core) s = .next t ∧ MemoryKept s t ∧ t.groups = s.groups ∧
        (t.core core).lists = held ++ (if Config.listRecords ≤ l.pos + 1 ∨ Config.engineRegion ≤ off + 64 then lists
          else { l with pos := l.pos + 1, ahead := if more = [] then s.readAhead core l p Config.listRecords (l.pos + 1) else more } :: lists) ∧
        (queues t) = modifyNth (fun y => enterQueue (y ++ [Entry.fresh_ s.seq (.linear ss .glob src dst len)
          (.list (bitsN (w.getD 4 0) 63 32) ((s.recCpl l.func (ownPlace core) w).getD 0)) l.func l.name (s.grp l.g).rclass core till])) n
          (queues s))

/-! Translation, the teller and the partitions (files 20 and 21) -/

/-- R388 to R390 and R393, translation: a walk of five levels through tables in frames of the world gives the leaf's frame and rights, and
sets A in each entry, D in a writable leaf that is written; a clear V is an absent page. A walk that has one of its die's 128 walkers ends for
all who asked for its page on the die: it fills both TLBs, or leaves its finding with the group. An ATS answer with access fills the L2 TLB of the die, one without sends a page request; a refused page request
leaves a denial, where it is within the function's allocation; an invalidation lets the pages it names go, and the requests for them in flight. Of
R388's 'set by the walker at the first write' it is the model's reading that D is set in the leaf alone, not in the entries above it; so is that a
page whose fault has failed stays a finding of the group (DEDUCED, log entry 29). -/
def Obligations.Translation : Prop :=
  (∀ (s : State) (func va : Nat) (write : Bool) (tab : Nat → Nat),
    let slot := fun n => tab n + 8 * ((va >>> (12 + 9 * (n - 1))) % 512)
    let e := fun n => s.devWord .glob (slot n)
    tab 5 = 4096 * s.regN (offWorld func 1) 56 12 → regionOf (tab 5) = 0 → s.frameOk func (tab 5) = true →
    (bitAt (e 5) 0 = false → s.walkTable func va write = .absent) ∧
    ((∀ n, 1 ≤ n → n ≤ 5 → regionOf (tab n) = 0 ∧ s.frameOk func (tab n) = true ∧ bitAt (e n) 0 = true ∧ bitsN (e n) 63 57 = 0 ∧
        bitsN (e n) 11 7 = 0 ∧ bitsN (e n) 4 3 = 0) →
      (∀ n, 2 ≤ n → n ≤ 5 → tab (n - 1) = 4096 * bitsN (e n) 56 12) →
      ∃ upd, s.walkTable func va write = .ok ⟨func, alignDown va 4096, 4096, 4096 * bitsN (e 1) 56 12, bitAt (e 1) 1, bitAt (e 1) 2,
          bitAt (e 1) 6 || (write && bitAt (e 1) 1)⟩ upd ∧
        ∀ p ∈ upd, ∃ n, 1 ≤ n ∧ n ≤ 5 ∧ p = (slot n, e n ||| 0x20 ||| (if n = 1 ∧ write = true ∧ bitAt (e 1) 1 = true then 0x40 else 0)))) ∧
  (∀ (s : State) (w : Nat) (x : Walk), s.walks[w]? = some x → let left := s.walks.filter (fun y => !y.same x)
    let found := ({ s with walks := left } : State).walkTable x.func x.va ((s.walks.filter (fun y => y.same x)).any (fun y => needsW y.access))
    (s.walking x = false → exec (.pageWalkComplete w) s = .next s) ∧
    (s.walking x = true →
    (∀ t upd, found = .ok t upd → ∃ u, exec (.pageWalkComplete w) s = .next u ∧ u.walks = left ∧
      t ∈ (u.core x.core).tlb ∧ (x.core / 64, t) ∈ u.hub.l2tlb ∧ (upd = [] → MemoryKept s u ∧ u.groups = s.groups) ∧
      ∀ a v, upd = [(a, v)] → a % 8 = 0 → regionOf a = 0 → s.mem.wf = true → s.egress = [] → u.devWord .glob a = v) ∧
    (∀ gi, found = .bad → x.group = some gi → gi < s.groups.length → ∃ u, exec (.pageWalkComplete w) s = .next u ∧ MemoryKept s u ∧
      u.grp gi = { s.grp gi with xfFail := some (alignDown x.va 4096) }) ∧
    (∀ gi, found = .absent → x.group = some gi → gi < s.groups.length → (s.grp gi).resident = true → (s.grp gi).heldXf = false →
      s.ringVa x.func = 0 → x.va < 2 ^ 57 → ∃ u, exec (.pageWalkComplete w) s = .next u ∧ MemoryKept s u ∧
        (u.grp gi).xfFail = some (alignDown x.va 4096) ∧ (u.grp gi).heldXf = false ∧ (u.grp gi).v = (s.grp gi).v ∧ (u.grp gi).s = (s.grp gi).s))) ∧
  (∀ (s : State) (r : Nat), s.hub.events = [] → s.hub.notes = [] → (∀ y ∈ s.reqs, ∀ st v rec_, y.stage ≠ .completing st v rec_) →
    (∀ x, s.hub.ats[r]? = some x →
      let without : Hub := { s.hub with ats := dropNth r s.hub.ats }
      exec (.atsTranslationCompletion r none) s =
        .next { s with hub := { without with pri := s.hub.pri ++ [⟨x.func, x.hpa, x.group⟩] } } ∧
      ∀ pa w, (needsW x.access = true → w = true) → ∃ u, exec (.atsTranslationCompletion r (some (pa, w))) s = .next u ∧
        u.hub.ats = dropNth r s.hub.ats ∧ MemoryKept s u ∧ u.groups = s.groups ∧
        (x.die, ⟨x.func, atsKey (natBits x.hpa 54 0), 4096, alignDown pa 4096, w, true, true⟩) ∈ u.hub.l2tlb ∧
        (x.func, atsKey (natBits x.hpa 54 0), alignDown pa 4096) ∈ u.hub.atsMap) ∧
    (∀ x, s.hub.pri[r]? = some x → s.priSent r x.func = false → exec (.priResponse r true) s = .next s) ∧
    (∀ x, s.hub.pri[r]? = some x → s.priSent r x.func = true → let without : Hub := { s.hub with pri := dropNth r s.hub.pri }
      exec (.priResponse r true) s = .next { s with hub := without } ∧
      exec (.priResponse r false) s = .next { s with hub := { without with denied := s.hub.denied ++ [(x.func, alignDown x.va 4096)] } })) ∧
  (∀ (s : State) (func va pages : Nat), s.hub.events = [] → s.hub.notes = [] → (∀ y ∈ s.reqs, ∀ st v rec_, y.stage ≠ .completing st v rec_) →
    (∀ g ∈ s.groups, g.ops = []) → (∀ e ∈ s.escrow, e.level ≠ .priv) → s.egress = [] → ∃ u, exec (.atsInvalidate func va pages) s = .next u ∧
    MemoryKept s u ∧ u.groups = s.groups ∧ (∀ e ∈ s.hub.l2tlb, e.2.func ≠ func → e ∈ u.hub.l2tlb) ∧
    (∀ x ∈ u.hub.ats, x.func = func → inPages va pages (natBits x.hpa 54 0) = false) ∧
    ∀ e ∈ u.hub.l2tlb, e.2.func = func → 2 ^ 60 ≤ e.2.va → pages ≠ 0 ∧ (e.2.va < 2 ^ 60 + va ∨ 2 ^ 60 + va + 4096 * pages ≤ e.2.va))

/-- R363 to R373 and R332, the teller: a write of 128 good bytes to SUBMIT of a bound page is accepted while the ring has room, and stands at
its end; a full ring asks for a retry, a malformed write is refused and counted, a posted one is discarded and counted. A read of a page gives
QSTAT at 0x080, its fields zero while the page is unbound, and zero elsewhere. The head of a ring
whose turn it is begins: a LAUNCH is read and placed, or waits in its ring; a SIGNAL or DEPOSIT becomes a request of the page's class; a COPY
is under way; a KILL stops its target; a MOVE closes and halts a team of one group and holds its room. -/
def Obligations.TellerCommands : Prop :=
  (∀ (s : State) (func page q : Nat) (data : List Byte), s.queueOf func page = some q → s.pagesAnswer func = true →
    let w := wordsOf data
    let counted : Hub := { s.hub with bad := setKey s.hub.bad q (lookupD s.hub.bad q 0 + 1) }
    (data.length = 128 → headerOk w = true → (s.qRing q).length < s.qDepth q →
      ∃ t, exec (.submit func page 0 data false) s = .next t ∧ t.out = s.out ++ [.dmwr 0] ∧ t.qRing q = s.qRing q ++ [⟨func, w⟩] ∧
        lookupD t.hub.acc q 0 = lookupD s.hub.acc q 0 + 1) ∧
    (data.length = 128 → headerOk w = true → s.qDepth q ≤ (s.qRing q).length →
      exec (.submit func page 0 data false) s = .next { s with out := s.out ++ [.dmwr 1] }) ∧
    (∀ off, (off ≠ 0 ∨ data.length ≠ 128 ∨ headerOk w = false) →
      exec (.submit func page off data false) s = .next { s with hub := counted, out := s.out ++ [.dmwr 2] }) ∧
    (∀ off, off < 128 → exec (.submit func page off data true) s = .next { s with hub := counted })) ∧
  (∀ (s : State) (func page : Nat), (∀ off, off ≠ 0x80 → s.pageWord func page off = 0) ∧ let x := s.pageWord func page 0x80
    (s.queueOf func page = none → x = 0) ∧
    ∀ q, s.queueOf func page = some q → bitsN x 63 48 = (lookupD s.hub.bad q 0).toNat ∧ bitsN x 47 32 = (lookupD s.hub.acc q 0).toNat ∧
      bitsN x 31 16 = s.qDepth q ∧ bitsN x 15 0 = s.qDepth q - (s.qRing q).length) ∧
  (∀ (s : State) (q : Nat) (c : Command), let w := c.words; let s1 := s.beginPop q; let name := w.getD 4 0
    (s.headOf q 1 = some c → payloadOk w = true → bitsN name 5 0 = 0 → bitsN name 63 57 = 0 →
      ∀ r sr, s.readRecord c.func name.toNat = .words r sr → recordBad r = false →
      let x : Launch := ⟨r, c.func, .teller q (cmdTag w) (cmdNote w) (w.getD 1 0) (w.getD 2 0), lrPrio r, false, false, false, 0, [], []⟩
      let s2 := ({ sr with launches := sr.launches ++ [x] } : State).grantTo q
      s2.everFits c.func r = true →
      (∀ s3, s2.placeLaunch sr.launches.length = some s3 → exec (.launch q) s = .next (s3.popRing q)) ∧
      (s2.placeLaunch sr.launches.length = none → exec (.launch q) s = .next s2)) ∧
    (∀ cls e op, payloadOk w = true → s1.pageClass q c.func = some cls → let s2 : State := { s1 with seq := s.seq + 1 }
      s2.nameTest c.func cls name op = .go e →
      let posted : State := { s2 with reqs := s.reqs ++ [⟨s.seq, .teller q (cmdTag w) (cmdNote w) (w.getD 1 0) (w.getD 2 0), none, c.func, cls,
        name, op, .send, e.w0, e.w1, 0⟩] }
      (s.headOf q 2 = some c → cmdByte w 40 ≤ 15 → op = .signal (cmdByte w 40) (w.getD 6 0) → exec (.tellerSignal q) s = .next posted) ∧
      (s.headOf q 3 = some c → cmdByte w 40 ≤ 7 → op = .deposit (cmdByte w 40) (w.getD 6 0) →
        exec (.tellerDeposit q) s = .next posted)) ∧
    (s.headOf q 4 = some c → (∀ y ∈ s.hub.copies, y.q ≠ q) → payloadOk w = true → cmdByte w 40 ≤ 3 → bitsN name 5 0 = 0 →
      s.copyEngine c.func (cmdByte w 40) = true → exec (.copy q) s = .next { s1 with
        hub := { s1.hub with copies := s.hub.copies ++ [⟨s.seq, c.func, q, w, 0, false⟩] }
        seq := s.seq + 1 }) ∧
    (s.headOf q 6 = some c → s.hub.taken = [] → payloadOk w = true →
      ∀ gi, (s.takeCommand q c).aim q c.func name false = .group gi → (s.grp gi).killing = none → (s.grp gi).resident = true →
      (s.grp gi).clauses ≠ [] → ∃ t, exec (.kill q) s = .next t ∧ t.hub.taken = [⟨q, c.func, w, true, false, false, false⟩] ∧ t.qRing q = (s.qRing q).drop 1 ∧
        t.grp gi = { s.grp gi with killing := some 0xFFFFFFFF, accept := false } ∧ ∀ j, j ≠ gi → t.grp j = s.grp j) ∧
    (s.headOf q 5 = some c → s.hub.taken = [] → payloadOk w = true → cmdByte w 40 ≤ 3 → cmdByte w 41 ≤ 63 →
      let pkg := 64 * cmdByte w 40 + cmdByte w 41; let m := s.takeCommand q c
      ∀ gi lines s3, m.aim q c.func name false = .group gi → (s.grp gi).killing = none → (s.grp gi).between = true →
        (s.grpsWhere (fun y => y.alive && sameTeam y (s.grp gi))) = [gi] → (∀ y ∈ s.hub.moves, gi ∉ y.groups ∧ (y.q ≠ q ∨ y.cmd ≠ w)) →
        let rec_ := m.launchWords (s.grp gi)
        s.partCore (s.partOf c.func) pkg = true → lrCw rec_ * lrCh rec_ = 1 → tileUnits rec_ = 0 → m.moveRoom [gi] pkg = some lines →
        s.coreReady pkg = true →
        let u : Taken := ⟨q, c.func, w, true, false, false, false⟩
        let held : Hub := { s1.hub with moves := s.hub.moves ++ [⟨[gi], lines, gi, pkg, q, w⟩], taken := [u] }
        let closed := ({ s1 with hub := held } : State).modGrp gi (fun x => { x with halting := true, accept := false })
        closed.saveGroup gi true true = .done s3 → exec (.move q) s = .next (s3.dropTaken u) ∧ (s3.grp gi).st = .moving))

/-- R378 to R381, R383, R386, R391, R395 and R398, the partition commands, each completing with OK and SEQ one higher: CONFIGURE and RETIRE
make a partition READY and EMPTY; ADMIT makes a world RUNNING, or ADMITTED where it is confidential; a world with nothing running departs
at once, and is ABSENT, its frames free, once the departure completes; INVTLB, INVNAME, RELNAMES and ROUTINE remove translations and cached
names, release a completed launch's names, set a routine; ASSIGN gives frames of zeros to a world, RELEASE takes them back. A command that
fails its tests completes with DENIED and does nothing; that a DEPART of an ABSENT world does so is the model's reading (log entry 18). -/
def Obligations.PartitionCommands : Prop :=
  (∀ (s : State) (w : List W64), regsOk s → let f := pcFunc w; let p := pcPart w
    (Commanded s 1 w → s.configOk p = true → ∃ t, exec .configure s = .next t ∧ t.partState p = 1 ∧ Completed s t 0 ∧
      MemoryKept s t ∧ t.groups = s.groups) ∧
    (Commanded s 1 w → s.configOk p = false → ∃ t, exec .configure s = .next t ∧ t.partState p = s.partState p ∧ Completed s t 2 ∧
      MemoryKept s t ∧ t.groups = s.groups) ∧
    (Commanded s 2 w → s.partState p = 1 → s.worldsIn p = 0 → s.frozenPart p = false → ∃ t, exec .retire s = .next t ∧
      t.partState p = 0 ∧ Completed s t 0 ∧ MemoryKept s t ∧ t.groups = s.groups) ∧
    (Commanded s 3 w → s.admitOk f p = true → ∃ t, exec .admitWorld s = .next t ∧ t.partOf f = p ∧ f ∈ t.hub.netKeys ∧
      t.worldState f = (if s.worldConf f then 1 else 2) ∧ Completed s t 0 ∧ MemoryKept s t ∧ t.groups = s.groups) ∧
    (Commanded s 4 w → s.worldState f = 0 → ∃ t, exec .depart s = .next t ∧ Completed s t 2 ∧ MemoryKept s t ∧ t.groups = s.groups) ∧
    (Commanded s 4 w → s.worldState f = 1 ∨ s.worldState f = 2 → s.allEnded f = true → (∀ l ∈ s.launches, l.func ≠ f) →
      ∃ t, exec .depart s = .next t ∧ t.worldState f = 3 ∧ t.partState (s.partOf f) = 2 ∧ f ∈ t.hub.departing ∧ t.hub.pcmd = w ∧
        t.mem = s.mem ∧ t.groups = s.groups ∧ ∀ q < 4096, t.qValid q = true → t.qFunc q ≠ f) ∧
    (∀ g < 64, g ∈ s.hub.departing → s.allEnded g = true → ∃ t, exec (.departComplete g) s = .next t ∧ t.worldState g = 0 ∧
      g ∉ t.hub.departing ∧ (∀ x ∈ t.hub.frames, bitAt x.2 7 = true → bitsN x.2 5 0 ≠ g) ∧ (∀ k ∈ t.hub.netKeys, k ≠ g) ∧ t.mem = s.mem ∧
      ((∀ y ∈ s.hub.departing, y ≠ g → s.partOf y ≠ s.partOf g) → t.partState (s.partOf g) = 1) ∧
      (Commanded s 4 w → f = g → Completed s t 0))) ∧
  (∀ (s : State) (w : List W64), regsOk s → let f := pcFunc w; let va := (pcArg0 w).toNat; let n := (pcArg1 w).toNat
    (Commanded s 5 w → va % 4096 = 0 → s.pagesBusy f va n = false → (∀ e ∈ s.escrow, e.level ≠ .priv) → ∃ t, exec .invtlb s = .next t ∧ Completed s t 0 ∧
      MemoryKept s t ∧ t.groups = s.groups ∧ (∀ pkg, ∀ x ∈ (t.core pkg).tlb, x.meets f va n = false) ∧
      ∀ pkg, ∀ x ∈ (s.core pkg).tlb, x.meets f va n = false → x ∈ (t.core pkg).tlb) ∧
    (Commanded s 6 w → ∃ t, exec .invname s = .next t ∧ Completed s t 0 ∧ MemoryKept s t ∧ t.groups = s.groups ∧
      (∀ pkg, ∀ x ∈ (t.core pkg).ncache, x.func ≠ f) ∧ ∀ pkg, ∀ x ∈ (s.core pkg).ncache, x.func ≠ f → x ∈ (t.core pkg).ncache) ∧
    (∀ fs, Commanded s 7 w → frameList w = some fs → (∀ x ∈ fs, s.assignable f x = true) → ∃ t, exec .assign s = .next t ∧
      Completed s t 0 ∧ (∀ x ∈ fs, t.frame (4096 * x) = BitVec.ofNat 8 (0x80 + (if s.worldConf f then 0x40 else 0) + f)) ∧
      (∀ x, x ∉ fs → t.frame (4096 * x) = s.frame (4096 * x)) ∧
      ∀ a, t.mem.get a = if a / 4096 ∈ fs then 0 else s.mem.get a) ∧
    (∀ fs, Commanded s 7 w → frameList w = some fs → (∃ x ∈ fs, s.assignable f x = false) → ∃ t, exec .assign s = .next t ∧
      Completed s t 2 ∧ t.hub.frames = s.hub.frames ∧ MemoryKept s t) ∧
    (∀ fs, Commanded s 8 w → frameList w = some fs → (∀ x ∈ fs, bitAt (s.frame (4096 * x)) 7 = true → bitsN (s.frame (4096 * x)) 5 0 = f) →
      ∃ t, exec .release s = .next t ∧ Completed s t 0 ∧ MemoryKept s t ∧ (∀ x ∈ fs, bitAt (t.frame (4096 * x)) 7 = false) ∧
        ∀ x, x ∉ fs → t.frame (4096 * x) = s.frame (4096 * x)) ∧
    (∀ l x, Commanded s 9 w → bitsN (pcArg0 w) 63 16 = 0 → pcArg1 w = 0 → s.oldLaunch f (bitsN (pcArg0 w) 15 0) = some l →
      s.launches[l]? = some x → ∃ t, exec .relnames s = .next t ∧ Completed s t 0 ∧ (∃ y, t.launches[l]? = some y ∧ y.released = true) ∧
        ∀ g ∈ x.groups, (t.grp g).st = .invalid) ∧
    (∀ ws, Commanded s 10 w → bitsN (pcArg0 w) 63 11 = 0 → let count := bitsN (pcArg0 w) 10 6; let slot := bitsN (pcArg0 w) 5 0
      1 ≤ count → count ≤ 16 → s.routineWords n count = some ws → ∃ t, exec .routine s = .next t ∧ Completed s t 0 ∧ MemoryKept s t ∧
        t.groups = s.groups ∧ t.routineOf f slot = some ws ∧
        ∀ g k, (g ≠ f ∨ k ≠ slot) → t.routineOf g k = s.routineOf g k))

/-- R363, R378, R382, R385, R399, R433 and R446, writes of management registers: a queue table entry with V clear takes every word, one with
V set only a write that clears V, and a page bound elsewhere leaves V clear; words 1 to 6 of an EMPTY partition that no lock freezes (the freeze is R386's, that it covers words 1 to 6 the model's reading, log entry 18); an
ABSENT world's root and pool; PCMD's word 0 starts a command with words 1 and 2, or completes with DENIED where it names none (R379); PWRCAP is held in its range; a
window entry takes no write of STATE 3. -/
def Obligations.ManagementWrites : Prop :=
  (∀ (s : State) (q word : Nat) (value : W64), q < 4096 → word < 3 →
    (s.qValid q = false → (word ≠ 0 ∨ bitAt value 0 = false ∨ s.pageTaken q (bitsN value 15 10) (bitsN value 31 16) = false) →
      exec (.queueTableWrite q word value) s = .next (s.setReg (offQueue q word) (value &&& queueMask word))) ∧
    (s.qValid q = false → word = 0 → bitAt value 0 = true → s.pageTaken q (bitsN value 15 10) (bitsN value 31 16) = true → regsOk s →
      ∃ t, exec (.queueTableWrite q word value) s = .next t ∧ t.qValid q = false) ∧
    (s.qValid q = true → ¬(word = 0 ∧ bitAt value 0 = false) → exec (.queueTableWrite q word value) s = .next s) ∧
    (s.qValid q = true → word = 0 → bitAt value 0 = false → regsOk s →
      ∃ t, exec (.queueTableWrite q word value) s = .next t ∧ t.qValid q = false)) ∧
  (∀ (s : State) (p word : Nat) (value : W64), p < 24 → 1 ≤ word → word ≤ 6 →
    exec (.partitionTableWrite p word value) s =
      .next (if s.partState p = 0 ∧ s.frozenPart p = false then s.setReg (offPart p word) value else s)) ∧
  (∀ (s : State) (f : Nat) (value : W64), f < 64 → s.frozen f = false →
    (s.worldState f = 0 → exec (.registerWrite (offWorld f 1) value) s = .next (s.setReg (offWorld f 1) value)) ∧
    (s.worldState f ≠ 0 → exec (.registerWrite (offWorld f 1) value) s = .next s) ∧
    (s.worldState f = 0 → exec (.registerWrite (offSave f 0) value) s = .next (s.setReg (offSave f 0) (value &&& 0x01FFFFFFFFFF0000)))) ∧
  (∀ (s : State) (value : W64), regsOk s →
    (s.hub.pcmd = [] → 1 ≤ bitsN value 7 0 → bitsN value 7 0 ≤ 10 → ∃ t, exec (.registerWrite (offPcmd 0) value) s = .next t ∧
      t.hub.pcmd = [value, s.reg (offPcmd 1), s.reg (offPcmd 2)] ∧ bitAt (t.reg offPstat) 63 = true) ∧
    (s.hub.pcmd = [] → bitsN value 7 0 = 0 ∨ 10 < bitsN value 7 0 → ∃ t, exec (.registerWrite (offPcmd 0) value) s = .next t ∧
      Completed s t 2) ∧
    (s.hub.pcmd ≠ [] → exec (.registerWrite (offPcmd 0) value) s = .next s) ∧
    (∃ t, exec (.registerWrite offPwrcap value) s = .next t ∧ (t.reg offPwrcap).toNat = min 3200 (max 1600 (bitsN value 15 0))) ∧
    (∀ n < 64, (bitsN value 1 0 = 3 → exec (.windowEntryWrite n value) s = .next s) ∧
      (bitsN value 1 0 ≠ 3 → ∃ t, exec (.windowEntryWrite n value) s = .next t ∧ t.winState n = bitsN value 1 0 ∧
        t.winTkov n = bitAt value 2 ∧ t.winEp n = bitsN value 47 32)))

/-! Slices, events and errors (files 21 and 22) -/

/-- R384, R387, R400, R401 and R412 to R417: at the end of a slice the next running world has it, for the length that SLICE then gives, and
the active groups of the other that have a
handler are owed PREEMPT, with a count of GRACE clocks; a group whose count has run out is halted by force. An event that the clerks do not
answer in time takes its default action where the host does not own it; their answer, or the owner's in RESP, releases the group that waits,
or fails its access, once the event's record is written (R415). CONS written lets a held record be written. Both RESP and CONS are those of the
ring that the event was claimed for, whatever RING says now (R410; that CONS goes to the ring of the oldest record held is log entry 59). -/
def Obligations.SlicesAndAnswers : Prop :=
  (∀ (s : State) (p f : Nat), let out := s.sliceOf p
    2 ≤ (s.running p).length → (∀ g ∈ s.groups, g.resident = true → s.partOf g.func = p → g.func = out) →
    (∀ w, s.enginesWait w = false) → (s.ringVa out = 0 ∨ s.engineWork out = false) →
    lookupD s.hub.sliceAt p 0 + lookupD s.hub.sliceLen p 1024 ≤ s.hubClk → s.nextSlice p = some f →
    ∃ t, exec (.tenantSliceEnd p) s = .next t ∧ t.sliceOf p = f ∧ lookupD t.hub.sliceAt p 0 = s.hubClk ∧
      lookupD t.hub.sliceLen p 1024 = s.sliceClocks p ∧ MemoryKept s t ∧
      (∀ gi, gi < s.groups.length → let g := s.grp gi
        g.st = .active → g.func = out → g.tbase ≠ 0 → s.grace (s.partOf out) ≠ 0 →
        t.grp gi = { g with preempt := true, graceAt := some (s.clk g.pkg + s.grace (s.partOf out)) }) ∧
      ∀ gi, ((s.grp gi).resident = false ∨ (s.grp gi).func ≠ out) → t.grp gi = s.grp gi) ∧
  (∀ (s s1 : State) (gi n : Nat), let g := s.grp gi
    gi < s.groups.length → g.graceAt = some n → g.between = true → s.sliceCurrent g.func = false → n ≤ s.clk g.pkg →
    s.saveGroup gi true false = .done s1 → exec (.graceExpiry gi) s = .next s1 ∧ (s1.grp gi).st = .saved ∧ (s1.grp gi).cgen = g.cgen + 1) ∧
  (∀ (s : State) (gi : Nat) (e : Event), s.hub.events = [e] → e.clerk = true → e.written = false → gi < s.groups.length →
    e.owner = some gi → e.waits = none →
    let page := alignDown (e.payload.getD 0 0).toNat 4096
    let record := fun (disp act : Nat) =>
      ({ s with hub := { s.hub with events := [] } } : State).writeRecord { e with clerk := false, disp := disp, act := act }
    (e.cls = evXfault → e.host = false → e.at_ + e.grace ≤ s.hubClk →
      (∀ e1 s1, record 4 2 = (some e1, s1) → ∃ t, exec (.clerkGraceExpiry 0) s = .next t ∧ (t.grp gi).heldXf = false ∧
        (t.grp gi).xfFail = some page) ∧
      ((record 4 2).1 = none → ∃ t, exec (.clerkGraceExpiry 0) s = .next t ∧ t.groups = s.groups)) ∧
    (e.cls = evXfault →
      (∀ e1 s1, record 2 1 = (some e1, s1) → ∃ t, exec (.clerkResponse 0 true 1) s = .next t ∧ (t.grp gi).heldXf = false ∧
        (t.grp gi).xfFail = (s1.grp gi).xfFail) ∧
      ∀ e1 s1, record 2 2 = (some e1, s1) → ∃ t, exec (.clerkResponse 0 true 2) s = .next t ∧ (t.grp gi).heldXf = false ∧
        (t.grp gi).xfFail = some page) ∧
    (e.cls = evBreak → ∀ e1 s1, record 2 1 = (some e1, s1) → ∃ t, exec (.clerkResponse 0 true 1) s = .next t ∧
      (t.grp gi).heldBrk = false)) ∧
  (∀ (s s1 : State) (func gi : Nat) (b : List Byte) (e : Event), e ∈ s.hub.events →
    (∀ x ∈ s.hub.events, x.func = func → x.written = true → x.awaits = true → x.ring = e.ring) →
    s.hubGet func (e.ring + 0x88) 8 = .ok (b, s1) → natBits (ofBytesLE b) 31 8 = 0 → gi < s.groups.length →
    s1.hub.events.find? (fun x => x.func == func && x.written && x.awaits && x.ring == e.ring && x.seq % 2 ^ 32 == natBits (ofBytesLE b) 63 32) = some e →
    e.owner = some gi → e.waits = none →
    (e.cls = evXfault → natBits (ofBytesLE b) 7 0 = 1 ∨ natBits (ofBytesLE b) 7 0 = 2 →
      ∃ t, exec (.responseTaken func) s = .next t ∧ (t.grp gi).heldXf = false ∧ t.hub.events = s1.hub.events.erase e ∧
        (natBits (ofBytesLE b) 7 0 = 2 → (t.grp gi).xfFail = some (alignDown (e.payload.getD 0 0).toNat 4096))) ∧
    (e.cls = evBreak → natBits (ofBytesLE b) 7 0 = 1 →
      ∃ t, exec (.responseTaken func) s = .next t ∧ (t.grp gi).heldBrk = false ∧ t.hub.events = s1.hub.events.erase e)) ∧
  (∀ (s s1 : State) (func : Nat) (cons : W64),
    let ring := ((s.hub.events.find? (fun e => e.func == func && !e.written && e.ring != 0)).map Event.ring).getD (s.ringVa func)
    ring ≠ 0 → s.hubPut func (ring + 0x80) (bytesLE 8 cons.toNat) true = .done s1 →
    (s1.hub.events = [] → exec (.eventRingConsumed func cons) s = .next s1) ∧
    ∀ e e1 s2, s1.hub.events = [e] → e.written = false → e.clerk = false → e.act = 0 → s2.hub.events = [] →
      ({ s1 with hub := { s1.hub with events := [] } } : State).writeRecord e = (some e1, s2) → e1.awaits = false →
      exec (.eventRingConsumed func cons) s = .next s2)

/-- R394, R395, R418 to R421, R329 and R331, errors and the host's accesses, of worlds without an event ring: a load reply that fails its
tag is an integrity failure; another packet is resent until its own fifth. An uncorrectable error in a register lane gives 0 in a G register and
a SOFT trap owed; one in a line poisons it; one in a cached translation removes it. A lost tree node poisons, of the lines
beneath it, those in frames of confidential worlds: the model's reading of R421 (log entry 22); a path that does not verify poisons its line. The
host's write, as it arrives or as a CXL.mem write, lands whole, unless it meets a confidential frame, a reserved range (R376), memory that the form
lacks (R4, R5), or poisoned lines that it does not cover; what it writes of CXL-attached memory stands under no world's key (log entry 56); its read
gives the bytes at their destination, or poison. -/
def Obligations.ErrorsAndHostAccess : Prop :=
  ∀ s : State, (∀ f, s.ringVa f = 0) →
  (∀ (flow pkt gi k : Nat), flowFunc flow = 0 ∨ s.hub.netKeys.contains (flowFunc flow) = true →
    (gi < s.groups.length → k < (s.grp gi).debt.length → ∃ t, exec (.packetTagFailure ⟨flow, pkt⟩ (.loadReply gi k)) s = .next t ∧
      (t.grp gi).owedInteg = true ∧ (t.grp gi).debt = dropNth k (s.grp gi).debt ∧ (t.grp gi).v = (s.grp gi).v ∧ MemoryKept s t ∧
      lookupD t.fabric.tagFails flow 0 = lookupD s.fabric.tagFails flow 0 + 1) ∧
    (s.failures flow pkt < 4 → ∃ t, exec (.packetTagFailure ⟨flow, pkt⟩ .retried) s = .next t ∧
      t.failures flow pkt = s.failures flow pkt + 1 ∧ (∀ p, p ≠ pkt → t.failures flow p = s.failures flow p) ∧
      lookupD t.fabric.tagFails flow 0 = lookupD s.fabric.tagFails flow 0 + 1 ∧ t.groups = s.groups ∧ MemoryKept s t)) ∧
  (∀ (gi lane : Nat) (code : RegCode), gi < s.groups.length → (s.grp gi).resident = true → (s.grp gi).owedSoft = false → lane < 64 →
    code.toNat < (s.grp gi).v.length → ∃ t, exec (.softError (.register gi code lane)) s = .next t ∧ (t.grp gi).owedSoft = true ∧
      (t.grp gi).sfaddr = BitVec.ofNat 64 (code.toNat + 256 * lane) ∧ ((t.grp gi).vreg code.toNat).tag = .g ∧
      (∀ i < 64, ((t.grp gi).vreg code.toNat).lane i = if i = lane then 0 else ((s.grp gi).vreg code.toNat).lane i) ∧
      ∀ n, n ≠ code.toNat → (t.grp gi).vreg n = (s.grp gi).vreg n) ∧
  (∀ addr, ∃ t, exec (.softError (.vaultLine addr)) s = .next t ∧ t.poisoned .glob addr = true ∧ MemoryKept s t ∧ t.groups = s.groups) ∧
  (∀ core k x, core < 256 → (s.core core).tlb[k]? = some x → ∃ t, exec (.softError (.tlbEntry core k)) s = .next t ∧
    (t.core core).tlb = dropNth k (s.core core).tlb ∧ MemoryKept s t ∧ t.groups = s.groups) ∧
  (∀ die k i, s.l2Entry die k = some i → ∃ t, exec (.softError (.tlbEntry (256 + die) k)) s = .next t ∧
    t.hub.l2tlb = dropNth i s.hub.l2tlb ∧ MemoryKept s t ∧ t.groups = s.groups) ∧
  (∀ (node port base frames : Nat), (∃ p < 24, s.partState p ≠ 0 ∧ bitAt (s.reg (offPart p 3)) port = true) →
    (∀ f, natBits base 54 32 = port → s.confAt base = some f → ∃ t, exec (.treeNodeError node port base 0) s = .next t ∧ MemoryKept s t ∧
      t.groups = s.groups ∧ ∀ l, l % 128 = 0 → (l ∈ t.gpoison ↔ l ∈ s.gpoison ∨ l = alignDown base 128)) ∧
    (frames ≠ 0 → ∃ t, exec (.treeNodeError node port base frames) s = .next t ∧ MemoryKept s t ∧ t.groups = s.groups ∧
      ∀ l, l % 128 = 0 → (l ∈ t.gpoison ↔ l ∈ s.gpoison ∨ (base / 4096 ≤ l / 4096 ∧ l / 4096 < base / 4096 + frames ∧ natBits l 54 32 = port ∧
        bitsN (s.frame l) 7 6 = 3)))) ∧
  (∀ (pa : Nat) (data : List (Option Byte)) (release : Bool),
    (∀ f, s.confOwner pa data.length = some f → exec (.hostWriteArrival pa data release) s = .next s) ∧
    (s.confOwner pa data.length = none → s.hostSees pa = false → exec (.hostWriteArrival pa data release) s = .next s) ∧
    (s.confOwner pa data.length = none → s.hostSees pa = true → (∀ k < data.length, s.servedAt (pa + k) = none) → s.gpoison = [] →
      s.egress = [] → s.mem.wf = true →
      ∃ t, exec (.hostWriteArrival pa data release) s = .next t ∧
        ∀ a, t.mem.get a = if pa ≤ a then (data.getD (a - pa) none).getD (s.mem.get a) else s.mem.get a)) ∧
  (∀ (pa n : Nat) (bs : List Byte), let write := Instr.hostCxlMemAccess pa (some bs) n
    (∀ f, s.confOwner pa bs.length = some f → exec write s = .next s) ∧
    (s.confOwner pa bs.length = none → s.hostSees pa = false → exec write s = .next s) ∧
    ((∀ k < bs.length, s.poisoned .glob (pa + k) = true) → bs.length < 128 → exec write s = .next s) ∧
    (s.confOwner pa bs.length = none → s.hostSees pa = true → (∀ k < bs.length, s.servedAt (pa + k) = none) → s.gpoison = [] →
      s.egress = [] → s.mem.wf = true → ∃ t, exec write s = .next t ∧ (∀ k < bs.length, t.keyOf (pa + k) = none) ∧
        ∀ a, t.mem.get a = if pa ≤ a ∧ a < pa + bs.length then bs.getD (a - pa) 0 else s.mem.get a)) ∧
  (∀ (pa n : Nat),
    (∀ f, s.confOwner pa n = some f → exec (.hostCxlMemAccess pa none n) s = .next { s with out := s.out ++ [.word 6 0] }) ∧
    (s.confOwner pa n = none → (∃ k < n, s.poisoned .glob (pa + k) = true ∨ s.hostSees (pa + k) = false) →
      exec (.hostCxlMemAccess pa none n) s = .next { s with out := s.out ++ [.word 6 0] }) ∧
    (s.confOwner pa n = none → (∀ k < n, s.poisoned .glob (pa + k) = false ∧ s.hostSees (pa + k) = true) →
      ¬(regionOf pa = 0 ∧ s.frameOwner pa = none) →
      exec (.hostCxlMemAccess pa none n) s = .next { s with out := s.out ++ [.bytes 0 (s.mem.read pa n)] }))

/-! Management (files 21 and 23) -/

/-- R386, R423 to R425, R428 to R430: the TDISP requests of a virtual function, each with its answer, LOCK, START and STOP with their
states; power-on tries the slot that is the boot choice, and runs it where it is accepted, measured into MR0, else the other, else
recovery: that the boot choice of R430 comes before slot A, where R423 says slot A and then slot B, is the model's reading of the two; that every
byte of device DRAM reads 0 after it is the model's choice (DESIGN CHOICE, log entry 4, with log entry 24), which the spec does not give; firmware extends the other measurement registers and raises the minimum SVN; ready bits are set and cleared. An error for a request
out of its state, and STOP from any state, are the TDISP standard's (PRESUMED, log entry 23), the hash is FIPS 202's SHA3-512 (PRESUMED, log
entry 57), the signature of an accepted slot is Falcon-1024's (PRESUMED, log entry 64), MR2 takes the fused configuration whatever digest the
event carries by the model's reading (log entry 24), and the contents of answers that the spec does not give are free (log entry 5). -/
def Obligations.TdispAndBoot : Prop :=
  (∀ (s : State) (f : Nat), 1 ≤ f → f ≤ 63 →
    let reply := fun (i : Instr) (a : Answer) => ∃ t, exec i s = .next t ∧ t.out = s.out ++ [a] ∧ t.groups = s.groups ∧ MemoryKept s t
    reply (.getTdispVersion f) (.bytes 1 (Config.freeAnswer 0x81 s.seq)) ∧ reply (.getTdispCapabilities f) (.bytes 1 (Config.freeAnswer 0x82 s.seq)) ∧
    reply (.getDeviceInterfaceReport f) (.bytes 1 (s.reportBytes f)) ∧
    reply (.getDeviceInterfaceState f) (.word 1 (BitVec.ofNat 64 (s.tdi f))) ∧
    (regsOk s →
      (s.tdi f = 0 → ∃ t, exec (.lockInterfaceRequest f) s = .next t ∧ t.tdi f = 1 ∧ t.out = s.out ++ [.word 1 0] ∧
        t.worldState f = s.worldState f) ∧
      (s.tdi f ≠ 0 → exec (.lockInterfaceRequest f) s = .next s.tdispError) ∧
      (s.tdi f = 1 → ∃ t, exec (.startInterfaceRequest f) s = .next t ∧ t.tdi f = 2 ∧ t.out = s.out ++ [.word 1 0] ∧
        t.worldState f = if s.worldState f = 1 then 2 else s.worldState f) ∧
      (s.allEnded f = true → (∀ l ∈ s.launches, l.func ≠ f) →
        (∃ t, exec (.stopInterfaceRequest f) s = .next t ∧ t.tdi f = 0 ∧ t.out = s.out ++ [.word 1 0] ∧
          t.worldState f = if s.worldState f = 0 then 0 else 3) ∧
        ∃ t, exec (.tdiError f) s = .next t ∧ t.tdi f = 3 ∧ t.worldState f = if s.worldState f = 0 then 0 else 3))) ∧
  (∀ (s : State), let off := { State.reset with boot := { Boot.reset with flash := s.boot.flash, raised := s.boot.raised, chosen := s.boot.chosen } }
    (∀ k, k < 2 → off.slotOk k = true → (s.boot.chosen = k ∨ (s.boot.chosen = 1 - k ∧ off.slotOk (1 - k) = false)) →
      ∃ t, exec .powerOnBoot s = .next t ∧ t.groups = [] ∧ t.regN offBootstat 3 0 = 1 ∧ t.regN offBootstat 7 4 = k ∧
        t.regN offBootstat 31 16 = off.slotSvn k ∧ t.boot.clerkMem = off.slotBytes k 0x1000 (off.slotLen k) ∧
        t.boot.clerkPc = off.slotNat k 12 4 ∧ t.mr 0 = sha3_512 (bytesLE 64 0 ++ bytesLE 64 (off.slotDigest k).toNat) ∧ (∀ n, 1 ≤ n → n < 16 → t.mr n = 0) ∧
        ∀ a, regionOf a = 0 → t.mem.get a = 0) ∧
    (s.boot.chosen < 2 → off.slotOk 0 = false → off.slotOk 1 = false → ∃ t, exec .powerOnBoot s = .next t ∧ t.groups = [] ∧
      t.regN offBootstat 3 0 = 15 ∧ t.regN offBootstat 7 4 = 15)) ∧
  (∀ (s : State), regsOk s → s.firmware = true →
    (∀ n d, 1 ≤ n → n ≤ 15 → ∃ t, exec (.mrExtend n d) s = .next t ∧
      t.mr n = sha3_512 (bytesLE 64 (s.mr n).toNat ++
        bytesLE 64 (if n = 2 then Config.fusedConfigDigest (s.regN offBootstat 15 8) else d).toNat) ∧
      ∀ k < 16, k ≠ n → t.mr k = s.mr k) ∧
    (∀ d, exec (.mrExtend 0 d) s = .next s) ∧
    (∀ svn, svn ≤ s.regN offBootstat 31 16 → s.minSvn < svn → ∃ t, exec (.fminRaise svn) s = .next t ∧ t.minSvn = svn ∧
      t.regN offBootstat 15 8 = svn % 256)) ∧
  (∀ (s : State) (b : ReadyBit), regsOk s →
    (s.mayBeReady b = true → ∃ t, exec (.readyBitSet b) s = .next t ∧ bitAt (t.reg (readyPlace b).1) (readyPlace b).2 = true ∧
      t.groups = s.groups ∧ MemoryKept s t) ∧
    ∃ t, exec (.functionOutOfService b) s = .next t ∧ bitAt (t.reg (readyPlace b).1) (readyPlace b).2 = false ∧ t.groups = s.groups ∧
      MemoryKept s t) ∧
  (∀ (s : State) (f : Nat), exec (.configRequest f) s =
    .next { s with out := s.out ++ [.word 0 (if bitAt (s.reg offReady) 0 then 0 else 1)] })

/-- R397, R426, R427 and R430, the responder and the terminus, once firmware runs: the five algorithms negotiated one by one, and the requests
that rest on one refused without it; at most four sessions, keys
and streams in a session whose handshake is complete, measurements signed in one snapshot, UnsupportedRequest for the rest; an image
written to the slot that does not run is the boot choice once it is activated, if it is accepted; if not, the slot that runs is. The sensors
of R430 answer, each under its number, and one names the silent peers (R438). The contents of answers that the spec
does not give are free (log entry 5), the error codes PRESUMED (log entry 25). -/
def Obligations.Attestation : Prop :=
  (∀ (s : State), s.firmware = true → let reply := fun (t : State) (a : Answer) => ({ t with out := t.out ++ [a] } : State)
    let free := fun (t : State) (kind request : Nat) => reply { t with seq := t.seq + 1 } (.bytes kind (Config.freeAnswer request t.seq))
    let withBoot := fun (b : Boot) => ({ s with boot := b } : State)
    exec .getVersion s = .next (reply (withBoot { s.boot with algs := ⟨false, false, false, false, false⟩ }) (.bytes 2 [0x13])) ∧
    exec .getCapabilities s = .next (reply { s with seq := s.seq + 1 } (.bytes 2 ([0x61, 0, 0] ++ Config.freeAnswer 0xE1 s.seq))) ∧
    (∀ h a d e k, (h || a || d || e || k) = true → exec (.negotiateAlgorithms h a d ⟨e, k⟩) s =
      .next (reply (withBoot { s.boot with algs := ⟨h, a, d, e, k⟩ }) (.bytes 2 ([0x63, if h then 1 else 0] ++
        (if a then 4 :: bytesLE 4 Config.vendorNumber.toNat ++ [1, 0] else List.replicate 7 0) ++
        [if d then 1 else 0, if e then 1 else 0, if k then 1 else 0])))) ∧
    exec (.negotiateAlgorithms false false false ⟨false, false⟩) s = .next (reply s (.word 7 1)) ∧
    (∀ code, exec (.spdmUnsupportedRequest code) s = .next (reply s (.word 7 7))) ∧
    let can := s.boot.algs; let signs := can.hash = true ∧ can.asym = true
    let secures := signs ∧ can.dhe = true ∧ can.aead = true ∧ can.sched = true; let early := .next (reply s (.word 7 4))
    (can.hash = false → exec .getDigests s = early) ∧
    (¬signs → ∀ off len blocks nonce, exec (.getCertificate off len) s = early ∧ exec (.challenge nonce) s = early ∧
      exec (.getMeasurements blocks nonce) s = early) ∧
    (¬secures → ∀ key id mac, exec (.keyExchange key) s = early ∧ exec (.finish id mac) s = early) ∧
    (can.hash = true → exec .getDigests s = .next (free s 2 0x81)) ∧
    (signs →
      (∀ off len, exec (.getCertificate off len) s = .next (reply s (.bytes 2 (((Config.freeAnswer 0x82 0).drop off).take len)))) ∧
      (∀ nonce, let body := Config.freeAnswer 0x83 s.seq
        exec (.challenge nonce) s = .next (reply { s with seq := s.seq + 1 } (.bytes 2 (body ++ Config.falconSign (nonce ++ body))))) ∧
      (∀ blocks nonce, (∀ b ∈ blocks, 1 ≤ b ∧ b ≤ 16) → let body := blocks.flatMap (fun b => bytesLE 64 (s.mr (b - 1)).toNat)
        exec (.getMeasurements blocks nonce) s = .next (reply s (.bytes 2 (body ++ Config.falconSign (nonce ++ body)))))) ∧
    (secures →
      (∀ key, (s.boot.sessions.length < 4 → exec (.keyExchange key) s = .next (free (withBoot { s.boot with
          sessions := s.boot.sessions ++ [⟨s.boot.nextSess, false, 0⟩]
          nextSess := s.boot.nextSess + 1 }) 2 0xE4)) ∧
        (4 ≤ s.boot.sessions.length → exec (.keyExchange key) s = .next (reply s (.word 7 0x0A)))) ∧
      (∀ x mac, s.session x.id = some x → x.finished = false →
        (Config.finishOk x.id mac = true → ∃ t, exec (.finish x.id mac) s = .next t ∧ t.session x.id = some { x with finished := true }) ∧
        (Config.finishOk x.id mac = false → ∃ t, exec (.finish x.id mac) s = .next t ∧ t.session x.id = none))) ∧
    (∀ x, s.session x.id = some x → x.finished = true →
      (∃ t, exec (.keyUpdate x.id) s = .next t ∧ t.session x.id = some { x with epoch := x.epoch + 1 }) ∧
      (∃ t, exec (.endSession x.id) s = .next t ∧ t.session x.id = none) ∧
      ∀ stream key, (stream = 64 ∨ (stream < 64 ∧ s.worldConf stream = true ∧ s.worldState stream = 2)) → ∃ t, exec (.ideKm x.id stream key) s = .next t ∧ (stream, x.id, key) ∈ t.hub.ide ∧
        ∀ e ∈ t.hub.ide, e.1 = stream → e = (stream, x.id, key))) ∧
  (∀ (s : State), s.stage ≠ 0 →
    (∀ code, exec (.pldmDiscovery code) s =
      .next { s with seq := s.seq + 1, out := s.out ++ [.bytes 3 (Config.freeAnswer code s.seq)] }) ∧
    (∀ n < 10, exec (.pldmMonitoring n) s =
      .next { s with seq := s.seq + 1, out := s.out ++ [.bytes 3 (Config.freeAnswer (256 + n) s.seq)] }) ∧
    exec (.pldmMonitoring 10) s = .next { s with out := s.out ++ [.bytes 3 (0 :: bytesLE 8 s.boot.corrected)] } ∧
    exec (.pldmMonitoring 11) s = .next { s with out := s.out ++ [.bytes 3 (0 :: s.fabric.silent.flatMap (fun ep => bytesLE 2 ep))] } ∧
    (∀ n, 11 < n → exec (.pldmMonitoring n) s = .next { s with out := s.out ++ [.word 3 0x80] }) ∧
    (∀ off data, off / 0x1000000 ≤ 1 → off / 0x1000000 ≠ s.boot.running → off % 0x1000000 + data.length ≤ 0x1000000 →
      ∃ t, exec (.pldmFirmwareUpdate off data) s = .next t ∧ t.boot.staged = some (off / 0x1000000) ∧
        ∀ a, t.flash a = if off ≤ a ∧ a < off + data.length then data.getD (a - off) 0 else s.flash a) ∧
    (∀ slot, s.boot.staged = some slot →
      (s.slotOk slot = true → ∃ t, exec .activateFirmware s = .next t ∧ t.boot.chosen = slot ∧ t.boot.staged = none) ∧
      (s.slotOk slot = false → s.boot.running < 2 → ∃ t, exec .activateFirmware s = .next t ∧
        t.boot.chosen = s.boot.running ∧ t.boot.staged = none)))

/-! The fabric (file 24) -/

/-- R97, R181 and R432 to R445: a peer's request in the exported window is served, one outside it fenced; a plane whose two links have failed is
dead: its bits are set and its logical planes go to the next live one (R436); heartbeats are sent each period on every live link, and the whole periods without one are counted; a window silent for eight is FENCED, and its endpoint
claimed by a takeover partner, plane by plane (R438); a reduction's record is taken, and its end written; a sector of the egress escrow reaches its
destination, in the device's own window where it holds the endpoint (R434, R439); one that is turned away makes its group owe PAGE under its
commit's operation, or SPACE where no window entry is left, and ends its engine entry: the model's reading (log entries 26 and 62); one to the host
whose world's TDI is in ERROR goes nowhere (R386); refresh changes nothing. -/
def Obligations.FabricEvents : Prop :=
  (∀ (s : State) (ep off pa n : Nat), s.hasEndpoint ep = true → let f := s.regN offExpwin 62 57
    (s.exported off (max 1 n) = none → exec (.fabricRequest ep off (.load n)) s = .next { s with out := s.out ++ [.word 5 0] }) ∧
    (s.exported off (max 1 n) = some pa → (∀ k < max 1 n, s.frameOk f (pa + k) = true ∧ s.poisoned .glob (pa + k) = false) →
      exec (.fabricRequest ep off (.load n)) s = .next { s with out := s.out ++ [.bytes 4 (s.devRead .glob pa n)] }) ∧
    (∀ aop width b x, width ≤ 3 → let z := 2 ^ width
      s.exported off z = some pa → pa % z = 0 → (∀ k < z, s.frameOk f (pa + k) = true ∧ s.poisoned .glob (pa + k) = false) →
      s.egress = [] → s.mem.wf = true → let old := ofBytesLE (s.mem.read pa z)
      ∃ t, exec (.fabricRequest ep off (.atomic aop width b x)) s = .next t ∧ t.out = s.out ++ [.word 4 (BitVec.ofNat 64 old)] ∧
        ∀ k < z, t.mem.get (pa + k) = match atomVal aop (8 * z) old (b.toNat % 2 ^ (8 * z)) (x.toNat % 2 ^ (8 * z)) with
          | some v => BitVec.ofNat 8 (v / 256 ^ k)
          | none => s.mem.get (pa + k)) ∧
    (∀ data, s.exported off (max 1 data.length) = some pa → (∀ k < max 1 data.length, s.frameOk f (pa + k) = true) → s.gpoison = [] →
      s.mem.wf = true → s.egress = [] → ∃ t, exec (.fabricRequest ep off (.store data)) s = .next t ∧ t.out = s.out ++ [.word 4 0] ∧
        ∀ a, t.mem.get a = if pa ≤ a then (data.getD (a - pa) none).getD (s.mem.get a) else s.mem.get a)) ∧
  (∀ (s : State) (p q link : Nat), p ≤ 7 → q ≤ 7 → link ≤ 1 → regsOk s → Quiet s → let dead := s.fabric.deadLinks
    let lost : State := { s with fabric := { s.fabric with deadLinks := dead ++ [2 * p + link] } }
    2 * p + link ∉ dead → (2 * p + (1 - link) ∉ dead → exec (.planeDead ⟨p, link⟩) s = .next lost) ∧
    (2 * p + (1 - link) ∈ dead → (((List.range 7).map (fun k => (p + 1 + k) % 8)).filter (fun k => bitAt (s.reg offReady) (5 + k) && !bitAt (s.reg offPlremap) (24 + k))).head? =
      some q → ∃ t, exec (.planeDead ⟨p, link⟩) s = .next t ∧ bitAt (t.reg offPlremap) (24 + p) = true ∧ bitAt (t.reg offReady) (5 + p) = false ∧
        (∀ l < 8, t.mapOf l = if s.mapOf l = p then q else s.mapOf l) ∧ t.fabric = lost.fabric ∧ t.groups = s.groups ∧ MemoryKept s t)) ∧
  (∀ (s : State), let period := s.regN offHbcfg 31 0
    period ≠ 0 → s.fabric.sent + period ≤ s.hubClk → ∃ t, exec .heartbeatSend s = .next t ∧ t.fabric.sent = s.hubClk ∧
      t.out = s.out ++ s.liveLinks.map (fun k => Answer.word 3 (BitVec.ofNat 64 (65536 * k + s.regN offOwnep 15 0))) ∧ t.fabric.heard = [] ∧
      ∀ ep, lookupD t.fabric.missed ep 0 = lookupD s.fabric.missed ep 0 +
        (if (List.range 64).any (fun n => s.winState n == 1 && s.winEp n == ep) && !s.fabric.heard.contains ep then 1 else 0)) ∧
  (∀ (s : State) (ep plane : Nat), (∃ t, exec (.heartbeatArrival ep) s = .next t ∧ lookupD t.fabric.missed ep 0 = 0 ∧
      ep ∈ t.fabric.heard ∧ ∀ e, e ≠ ep → lookupD t.fabric.missed e 0 = lookupD s.fabric.missed e 0) ∧
    (plane ≤ 7 → bitAt (s.reg offReady) (5 + plane) = true → ∃ t, exec (.endpointClaimAck ep plane) s = .next t ∧
      ∀ c ∈ t.fabric.claims, c.1 = ep → plane ∈ c.2)) ∧
  (∀ (s : State) (n : Nat), n < 64 → regsOk s → Quiet s → s.winState n = 1 → s.regN offHbcfg 31 0 ≠ 0 → 8 ≤ lookupD s.fabric.missed (s.winEp n) 0 →
    ∃ t, exec (.peerSilent n) s = .next t ∧ t.winState n = 2 ∧ t.winEp n = s.winEp n ∧ t.groups = s.groups ∧ MemoryKept s t ∧
      s.winEp n ∈ t.fabric.silent ∧ (s.winTkov n = true → ∃ c ∈ t.fabric.claims, c.1 = s.winEp n)) ∧
  (∀ (s sr : State) (value : W64) (w : List W64), let f := bitsN value 5 0; let addr := 64 * bitsN value 56 6
    let s0 : State := { s.setReg offColldb (value &&& 0x01FFFFFFFFFFFFFF) with seq := s.seq + 1 }
    s0.readRecord f addr = .words w sr → colOk w = true → sr.regN (offPart (sr.partOf f) 5) 27 20 ≠ 0 →
    exec (.collectiveSubmit value) s = .next { sr with fabric := { sr.fabric with colls := sr.fabric.colls ++ [⟨s.seq, addr, f, w, none⟩] } }) ∧
  (∀ (s s1 s2 : State) (c id addr f z : Nat) (w : List W64) (fmt : Fmt) (own : List Byte),
    s.fabric.colls[c]? = some ⟨id, addr, f, w, none⟩ → w ≠ [] →
    let s0 : State := { s with fabric := { s.fabric with colls := dropNth c s.fabric.colls } }
    Config.peersAgree id = true → colFmt w = some (fmt, z) → s0.collBytes f (w.getD 0 0).toNat (z * colCount w) [] = .ok (own, s1) →
    s1.collHeld f (w.getD 1 0).toNat (z * colCount w) = none →
    s1.collPut f (w.getD 1 0).toNat (collResult id w fmt z own) = .done s2 →
    exec (.collectiveComplete c) s = .next (s2.endColl ⟨id, addr, f, w, none⟩ 0)) ∧
  (∀ (s : State) (k : Nat) (e : Egress), s.egress[k]? = some e →
    (∀ x ∈ s.egress.take k, x.sector ≠ e.sector ∧ (e.copy = 0 ∨ x.copy ≠ e.copy)) → s.mem.wf = true →
    let gone := s.unwindowed e.sector
    ((s.fenced e.sector = true ∨ gone = true) → s.servedAt e.sector = none → ∃ t, exec (.egressEscrowDrain k) s = .next t ∧ t.mem = s.mem ∧
      t.egress = (dropNth k s.egress).filter (fun x => e.copy = 0 ∨ x.copy ≠ e.copy) ∧
      (∀ gi op, e.owner = some (gi, op) → gi < s.groups.length → (t.grp gi).pages = (s.grp gi).pages ++ [(op, e.va, if gone then 4 else 1)]) ∧
      (e.copy ≠ 0 → ∀ p, (t.core p).queues = (s.core p).queues.map (fun q => q.map (fun x =>
        if x.id = e.copy ∧ x.status = 0 then { x with status := if gone then 2 else 0x11, fail := e.va } else x)))) ∧
    (s.stopped e = true → ∃ t, exec (.egressEscrowDrain k) s = .next t ∧ MemoryKept s t ∧ t.groups = s.groups ∧ t.egress = dropNth k s.egress) ∧
    (s.fenced e.sector = false → gone = false → s.stopped e = false →
      let landed := fun (t : State) (p : Nat) => t.egress = dropNth k s.egress ∧
        ∀ a, t.mem.get a = if p ≤ a then (e.data.getD (a - p) none).getD (s.mem.get a) else s.mem.get a
      (s.servedAt e.sector = none → ∃ t, exec (.egressEscrowDrain k) s = .next t ∧ landed t e.sector ∧ t.groups = s.groups) ∧
      (∀ h, s.servedAt e.sector = some h → s.poisoned .glob h = false → ∃ t, exec (.egressEscrowDrain k) s = .next t ∧ landed t h))) ∧
  (∀ (s : State) (vault : Nat), exec (.dramRefresh vault) s = .next s)

/-! Reset and the invariant -/

/-- R385, R424, R428, R429, R433, R382, R378 and R326, what reset leaves: no group, world 0 admitted (RUNNING, in partition 0: log entry 6)
and every other world ABSENT; partitions EMPTY, no command performed, no function ready, planes mapped one to one, the limits of power and
temperature, BOOTSTAT's SLOT 15; clocks at 0. Every byte of memory reads 0, which is the model's choice (DESIGN CHOICE, log entry 4: the spec gives
no power-on contents); none is listed, and the invariant of the memories holds. -/
def Obligations.ResetState : Prop :=
  let s := State.reset
  s.groups = [] ∧ s.worldState 0 = 2 ∧ s.partOf 0 = 0 ∧ (∀ f < 64, f ≠ 0 → s.worldState f = 0) ∧ (∀ p < 24, s.partState p = 0) ∧
  s.reg offPstat = 0 ∧ s.reg offReady = 0 ∧ (∀ d < 4, s.reg (offCready d) = 0) ∧ (∀ l < 8, s.mapOf l = l) ∧ s.regN offPwrcap 15 0 = 3200 ∧
  s.regN offTherm 7 0 = 95 ∧ s.regN offBootstat 7 4 = 15 ∧ (∀ n < 64, s.winState n = 0) ∧ (∀ q < 4096, s.qValid q = false) ∧
  (∀ p, s.clk p = 0) ∧ (∀ a, s.mem.get a = 0) ∧ memoriesOk s

/-- Memories and registers in canonical form: a byte, a run of bytes or a sector written reads back, every other address reads as before,
and the form is kept; a register of the hub written reads back, and every other reads as before. -/
def Obligations.MemoryLaws : Prop :=
  (∀ (m : Memory), m.wf = true →
    (∀ a b, (m.put a b).wf = true ∧ (m.put a b).get a = b ∧ ∀ x, x ≠ a → (m.put a b).get x = m.get x) ∧
    (∀ a bs, (m.write a bs).wf = true ∧ ∀ x, (m.write a bs).get x = if a ≤ x ∧ x < a + bs.length then bs.getD (x - a) 0 else m.get x) ∧
    (∀ a d, (m.putSector a d).wf = true ∧ ∀ x, (m.putSector a d).get x = if a ≤ x then (d.getD (x - a) none).getD (m.get x) else m.get x) ∧
    (∀ a w, (m.putWord a w).word a = w)) ∧
  (∀ (m n : Memory), m.wf = true → n.wf = true → (∀ a, m.get a = n.get a) → m = n) ∧
  (∀ (s : State) (off : Nat) (v : W64), regsOk s → regsOk (s.setReg off v) ∧ (s.setReg off v).reg off = v ∧
    ∀ o, o ≠ off → (s.setReg off v).reg o = s.reg o)

/-- Every step keeps the memories and the hub's registers in canonical form. -/
def Obligations.MemoriesKept : Prop := ∀ s t : State, memoriesOk s → step s = .next t → memoriesOk t
end

