-- ==== Sys2Proof/Laws/State.lean ====
section
/-! SUPPORT. One lemma per field of State and update: what each update leaves as it was. -/

namespace Sys2Proof.Machine

variable (s : State)

@[simp] theorem State.setGrp_cores (g : Nat) (x : Group) : (s.setGrp g x).cores = s.cores := rfl
@[simp] theorem State.setGrp_launches (g : Nat) (x : Group) : (s.setGrp g x).launches = s.launches := rfl
@[simp] theorem State.setGrp_mem (g : Nat) (x : Group) : (s.setGrp g x).mem = s.mem := rfl
@[simp] theorem State.setGrp_tile (g : Nat) (x : Group) : (s.setGrp g x).tile = s.tile := rfl
@[simp] theorem State.setGrp_opbuf (g : Nat) (x : Group) : (s.setGrp g x).opbuf = s.opbuf := rfl
@[simp] theorem State.setGrp_tileOwn (g : Nat) (x : Group) : (s.setGrp g x).tileOwn = s.tileOwn := rfl
@[simp] theorem State.setGrp_opOwn (g : Nat) (x : Group) : (s.setGrp g x).opOwn = s.opOwn := rfl
@[simp] theorem State.setGrp_cxlKeys (g : Nat) (x : Group) : (s.setGrp g x).cxlKeys = s.cxlKeys := rfl
@[simp] theorem State.setGrp_absent (g : Nat) (x : Group) : (s.setGrp g x).absent = s.absent := rfl
@[simp] theorem State.setGrp_poison (g : Nat) (x : Group) : (s.setGrp g x).poison = s.poison := rfl
@[simp] theorem State.setGrp_gpoison (g : Nat) (x : Group) : (s.setGrp g x).gpoison = s.gpoison := rfl
@[simp] theorem State.setGrp_escrow (g : Nat) (x : Group) : (s.setGrp g x).escrow = s.escrow := rfl
@[simp] theorem State.setGrp_egress (g : Nat) (x : Group) : (s.setGrp g x).egress = s.egress := rfl
@[simp] theorem State.setGrp_wlog (g : Nat) (x : Group) : (s.setGrp g x).wlog = s.wlog := rfl
@[simp] theorem State.setGrp_walks (g : Nat) (x : Group) : (s.setGrp g x).walks = s.walks := rfl
@[simp] theorem State.setGrp_reqs (g : Nat) (x : Group) : (s.setGrp g x).reqs = s.reqs := rfl
@[simp] theorem State.setGrp_hub (g : Nat) (x : Group) : (s.setGrp g x).hub = s.hub := rfl
@[simp] theorem State.setGrp_boot (g : Nat) (x : Group) : (s.setGrp g x).boot = s.boot := rfl
@[simp] theorem State.setGrp_fabric (g : Nat) (x : Group) : (s.setGrp g x).fabric = s.fabric := rfl
@[simp] theorem State.setGrp_agenda (g : Nat) (x : Group) : (s.setGrp g x).agenda = s.agenda := rfl
@[simp] theorem State.setGrp_cur (g : Nat) (x : Group) : (s.setGrp g x).cur = s.cur := rfl
@[simp] theorem State.setGrp_freeCount (g : Nat) (x : Group) : (s.setGrp g x).freeCount = s.freeCount := rfl
@[simp] theorem State.setGrp_seq (g : Nat) (x : Group) : (s.setGrp g x).seq = s.seq := rfl
@[simp] theorem State.setGrp_out (g : Nat) (x : Group) : (s.setGrp g x).out = s.out := rfl

@[simp] theorem State.modGrp_cores (g : Nat) (f : Group → Group) : (s.modGrp g f).cores = s.cores := rfl
@[simp] theorem State.modGrp_launches (g : Nat) (f : Group → Group) : (s.modGrp g f).launches = s.launches := rfl
@[simp] theorem State.modGrp_mem (g : Nat) (f : Group → Group) : (s.modGrp g f).mem = s.mem := rfl
@[simp] theorem State.modGrp_tile (g : Nat) (f : Group → Group) : (s.modGrp g f).tile = s.tile := rfl
@[simp] theorem State.modGrp_opbuf (g : Nat) (f : Group → Group) : (s.modGrp g f).opbuf = s.opbuf := rfl
@[simp] theorem State.modGrp_tileOwn (g : Nat) (f : Group → Group) : (s.modGrp g f).tileOwn = s.tileOwn := rfl
@[simp] theorem State.modGrp_opOwn (g : Nat) (f : Group → Group) : (s.modGrp g f).opOwn = s.opOwn := rfl
@[simp] theorem State.modGrp_cxlKeys (g : Nat) (f : Group → Group) : (s.modGrp g f).cxlKeys = s.cxlKeys := rfl
@[simp] theorem State.modGrp_absent (g : Nat) (f : Group → Group) : (s.modGrp g f).absent = s.absent := rfl
@[simp] theorem State.modGrp_poison (g : Nat) (f : Group → Group) : (s.modGrp g f).poison = s.poison := rfl
@[simp] theorem State.modGrp_gpoison (g : Nat) (f : Group → Group) : (s.modGrp g f).gpoison = s.gpoison := rfl
@[simp] theorem State.modGrp_escrow (g : Nat) (f : Group → Group) : (s.modGrp g f).escrow = s.escrow := rfl
@[simp] theorem State.modGrp_egress (g : Nat) (f : Group → Group) : (s.modGrp g f).egress = s.egress := rfl
@[simp] theorem State.modGrp_wlog (g : Nat) (f : Group → Group) : (s.modGrp g f).wlog = s.wlog := rfl
@[simp] theorem State.modGrp_walks (g : Nat) (f : Group → Group) : (s.modGrp g f).walks = s.walks := rfl
@[simp] theorem State.modGrp_reqs (g : Nat) (f : Group → Group) : (s.modGrp g f).reqs = s.reqs := rfl
@[simp] theorem State.modGrp_hub (g : Nat) (f : Group → Group) : (s.modGrp g f).hub = s.hub := rfl
@[simp] theorem State.modGrp_boot (g : Nat) (f : Group → Group) : (s.modGrp g f).boot = s.boot := rfl
@[simp] theorem State.modGrp_fabric (g : Nat) (f : Group → Group) : (s.modGrp g f).fabric = s.fabric := rfl
@[simp] theorem State.modGrp_agenda (g : Nat) (f : Group → Group) : (s.modGrp g f).agenda = s.agenda := rfl
@[simp] theorem State.modGrp_cur (g : Nat) (f : Group → Group) : (s.modGrp g f).cur = s.cur := rfl
@[simp] theorem State.modGrp_freeCount (g : Nat) (f : Group → Group) : (s.modGrp g f).freeCount = s.freeCount := rfl
@[simp] theorem State.modGrp_seq (g : Nat) (f : Group → Group) : (s.modGrp g f).seq = s.seq := rfl
@[simp] theorem State.modGrp_out (g : Nat) (f : Group → Group) : (s.modGrp g f).out = s.out := rfl

@[simp] theorem State.setCore_groups (p : Nat) (c : Core) : (s.setCore p c).groups = s.groups := rfl
@[simp] theorem State.setCore_launches (p : Nat) (c : Core) : (s.setCore p c).launches = s.launches := rfl
@[simp] theorem State.setCore_mem (p : Nat) (c : Core) : (s.setCore p c).mem = s.mem := rfl
@[simp] theorem State.setCore_tile (p : Nat) (c : Core) : (s.setCore p c).tile = s.tile := rfl
@[simp] theorem State.setCore_opbuf (p : Nat) (c : Core) : (s.setCore p c).opbuf = s.opbuf := rfl
@[simp] theorem State.setCore_tileOwn (p : Nat) (c : Core) : (s.setCore p c).tileOwn = s.tileOwn := rfl
@[simp] theorem State.setCore_opOwn (p : Nat) (c : Core) : (s.setCore p c).opOwn = s.opOwn := rfl
@[simp] theorem State.setCore_cxlKeys (p : Nat) (c : Core) : (s.setCore p c).cxlKeys = s.cxlKeys := rfl
@[simp] theorem State.setCore_absent (p : Nat) (c : Core) : (s.setCore p c).absent = s.absent := rfl
@[simp] theorem State.setCore_poison (p : Nat) (c : Core) : (s.setCore p c).poison = s.poison := rfl
@[simp] theorem State.setCore_gpoison (p : Nat) (c : Core) : (s.setCore p c).gpoison = s.gpoison := rfl
@[simp] theorem State.setCore_escrow (p : Nat) (c : Core) : (s.setCore p c).escrow = s.escrow := rfl
@[simp] theorem State.setCore_egress (p : Nat) (c : Core) : (s.setCore p c).egress = s.egress := rfl
@[simp] theorem State.setCore_wlog (p : Nat) (c : Core) : (s.setCore p c).wlog = s.wlog := rfl
@[simp] theorem State.setCore_walks (p : Nat) (c : Core) : (s.setCore p c).walks = s.walks := rfl
@[simp] theorem State.setCore_reqs (p : Nat) (c : Core) : (s.setCore p c).reqs = s.reqs := rfl
@[simp] theorem State.setCore_hub (p : Nat) (c : Core) : (s.setCore p c).hub = s.hub := rfl
@[simp] theorem State.setCore_boot (p : Nat) (c : Core) : (s.setCore p c).boot = s.boot := rfl
@[simp] theorem State.setCore_fabric (p : Nat) (c : Core) : (s.setCore p c).fabric = s.fabric := rfl
@[simp] theorem State.setCore_agenda (p : Nat) (c : Core) : (s.setCore p c).agenda = s.agenda := rfl
@[simp] theorem State.setCore_cur (p : Nat) (c : Core) : (s.setCore p c).cur = s.cur := rfl
@[simp] theorem State.setCore_freeCount (p : Nat) (c : Core) : (s.setCore p c).freeCount = s.freeCount := rfl
@[simp] theorem State.setCore_seq (p : Nat) (c : Core) : (s.setCore p c).seq = s.seq := rfl
@[simp] theorem State.setCore_out (p : Nat) (c : Core) : (s.setCore p c).out = s.out := rfl

@[simp] theorem State.modCore_groups (p : Nat) (f : Core → Core) : (s.modCore p f).groups = s.groups := rfl
@[simp] theorem State.modCore_launches (p : Nat) (f : Core → Core) : (s.modCore p f).launches = s.launches := rfl
@[simp] theorem State.modCore_mem (p : Nat) (f : Core → Core) : (s.modCore p f).mem = s.mem := rfl
@[simp] theorem State.modCore_tile (p : Nat) (f : Core → Core) : (s.modCore p f).tile = s.tile := rfl
@[simp] theorem State.modCore_opbuf (p : Nat) (f : Core → Core) : (s.modCore p f).opbuf = s.opbuf := rfl
@[simp] theorem State.modCore_tileOwn (p : Nat) (f : Core → Core) : (s.modCore p f).tileOwn = s.tileOwn := rfl
@[simp] theorem State.modCore_opOwn (p : Nat) (f : Core → Core) : (s.modCore p f).opOwn = s.opOwn := rfl
@[simp] theorem State.modCore_cxlKeys (p : Nat) (f : Core → Core) : (s.modCore p f).cxlKeys = s.cxlKeys := rfl
@[simp] theorem State.modCore_absent (p : Nat) (f : Core → Core) : (s.modCore p f).absent = s.absent := rfl
@[simp] theorem State.modCore_poison (p : Nat) (f : Core → Core) : (s.modCore p f).poison = s.poison := rfl
@[simp] theorem State.modCore_gpoison (p : Nat) (f : Core → Core) : (s.modCore p f).gpoison = s.gpoison := rfl
@[simp] theorem State.modCore_escrow (p : Nat) (f : Core → Core) : (s.modCore p f).escrow = s.escrow := rfl
@[simp] theorem State.modCore_egress (p : Nat) (f : Core → Core) : (s.modCore p f).egress = s.egress := rfl
@[simp] theorem State.modCore_wlog (p : Nat) (f : Core → Core) : (s.modCore p f).wlog = s.wlog := rfl
@[simp] theorem State.modCore_walks (p : Nat) (f : Core → Core) : (s.modCore p f).walks = s.walks := rfl
@[simp] theorem State.modCore_reqs (p : Nat) (f : Core → Core) : (s.modCore p f).reqs = s.reqs := rfl
@[simp] theorem State.modCore_hub (p : Nat) (f : Core → Core) : (s.modCore p f).hub = s.hub := rfl
@[simp] theorem State.modCore_boot (p : Nat) (f : Core → Core) : (s.modCore p f).boot = s.boot := rfl
@[simp] theorem State.modCore_fabric (p : Nat) (f : Core → Core) : (s.modCore p f).fabric = s.fabric := rfl
@[simp] theorem State.modCore_agenda (p : Nat) (f : Core → Core) : (s.modCore p f).agenda = s.agenda := rfl
@[simp] theorem State.modCore_cur (p : Nat) (f : Core → Core) : (s.modCore p f).cur = s.cur := rfl
@[simp] theorem State.modCore_freeCount (p : Nat) (f : Core → Core) : (s.modCore p f).freeCount = s.freeCount := rfl
@[simp] theorem State.modCore_seq (p : Nat) (f : Core → Core) : (s.modCore p f).seq = s.seq := rfl
@[simp] theorem State.modCore_out (p : Nat) (f : Core → Core) : (s.modCore p f).out = s.out := rfl

@[simp] theorem State.advance_groups (p t : Nat) : (s.advance p t).groups = s.groups := rfl
@[simp] theorem State.advance_launches (p t : Nat) : (s.advance p t).launches = s.launches := rfl
@[simp] theorem State.advance_mem (p t : Nat) : (s.advance p t).mem = s.mem := rfl
@[simp] theorem State.advance_tile (p t : Nat) : (s.advance p t).tile = s.tile := rfl
@[simp] theorem State.advance_opbuf (p t : Nat) : (s.advance p t).opbuf = s.opbuf := rfl
@[simp] theorem State.advance_tileOwn (p t : Nat) : (s.advance p t).tileOwn = s.tileOwn := rfl
@[simp] theorem State.advance_opOwn (p t : Nat) : (s.advance p t).opOwn = s.opOwn := rfl
@[simp] theorem State.advance_cxlKeys (p t : Nat) : (s.advance p t).cxlKeys = s.cxlKeys := rfl
@[simp] theorem State.advance_absent (p t : Nat) : (s.advance p t).absent = s.absent := rfl
@[simp] theorem State.advance_poison (p t : Nat) : (s.advance p t).poison = s.poison := rfl
@[simp] theorem State.advance_gpoison (p t : Nat) : (s.advance p t).gpoison = s.gpoison := rfl
@[simp] theorem State.advance_escrow (p t : Nat) : (s.advance p t).escrow = s.escrow := rfl
@[simp] theorem State.advance_egress (p t : Nat) : (s.advance p t).egress = s.egress := rfl
@[simp] theorem State.advance_wlog (p t : Nat) : (s.advance p t).wlog = s.wlog := rfl
@[simp] theorem State.advance_walks (p t : Nat) : (s.advance p t).walks = s.walks := rfl
@[simp] theorem State.advance_reqs (p t : Nat) : (s.advance p t).reqs = s.reqs := rfl
@[simp] theorem State.advance_hub (p t : Nat) : (s.advance p t).hub = s.hub := rfl
@[simp] theorem State.advance_boot (p t : Nat) : (s.advance p t).boot = s.boot := rfl
@[simp] theorem State.advance_fabric (p t : Nat) : (s.advance p t).fabric = s.fabric := rfl
@[simp] theorem State.advance_agenda (p t : Nat) : (s.advance p t).agenda = s.agenda := rfl
@[simp] theorem State.advance_cur (p t : Nat) : (s.advance p t).cur = s.cur := rfl
@[simp] theorem State.advance_freeCount (p t : Nat) : (s.advance p t).freeCount = s.freeCount := rfl
@[simp] theorem State.advance_seq (p t : Nat) : (s.advance p t).seq = s.seq := rfl
@[simp] theorem State.advance_out (p t : Nat) : (s.advance p t).out = s.out := rfl

@[simp] theorem State.modQuarter_groups (p q : Nat) (f : Quarter → Quarter) : (s.modQuarter p q f).groups = s.groups := rfl
@[simp] theorem State.modQuarter_launches (p q : Nat) (f : Quarter → Quarter) : (s.modQuarter p q f).launches = s.launches := rfl
@[simp] theorem State.modQuarter_mem (p q : Nat) (f : Quarter → Quarter) : (s.modQuarter p q f).mem = s.mem := rfl
@[simp] theorem State.modQuarter_tile (p q : Nat) (f : Quarter → Quarter) : (s.modQuarter p q f).tile = s.tile := rfl
@[simp] theorem State.modQuarter_opbuf (p q : Nat) (f : Quarter → Quarter) : (s.modQuarter p q f).opbuf = s.opbuf := rfl
@[simp] theorem State.modQuarter_tileOwn (p q : Nat) (f : Quarter → Quarter) : (s.modQuarter p q f).tileOwn = s.tileOwn := rfl
@[simp] theorem State.modQuarter_opOwn (p q : Nat) (f : Quarter → Quarter) : (s.modQuarter p q f).opOwn = s.opOwn := rfl
@[simp] theorem State.modQuarter_cxlKeys (p q : Nat) (f : Quarter → Quarter) : (s.modQuarter p q f).cxlKeys = s.cxlKeys := rfl
@[simp] theorem State.modQuarter_absent (p q : Nat) (f : Quarter → Quarter) : (s.modQuarter p q f).absent = s.absent := rfl
@[simp] theorem State.modQuarter_poison (p q : Nat) (f : Quarter → Quarter) : (s.modQuarter p q f).poison = s.poison := rfl
@[simp] theorem State.modQuarter_gpoison (p q : Nat) (f : Quarter → Quarter) : (s.modQuarter p q f).gpoison = s.gpoison := rfl
@[simp] theorem State.modQuarter_escrow (p q : Nat) (f : Quarter → Quarter) : (s.modQuarter p q f).escrow = s.escrow := rfl
@[simp] theorem State.modQuarter_egress (p q : Nat) (f : Quarter → Quarter) : (s.modQuarter p q f).egress = s.egress := rfl
@[simp] theorem State.modQuarter_wlog (p q : Nat) (f : Quarter → Quarter) : (s.modQuarter p q f).wlog = s.wlog := rfl
@[simp] theorem State.modQuarter_walks (p q : Nat) (f : Quarter → Quarter) : (s.modQuarter p q f).walks = s.walks := rfl
@[simp] theorem State.modQuarter_reqs (p q : Nat) (f : Quarter → Quarter) : (s.modQuarter p q f).reqs = s.reqs := rfl
@[simp] theorem State.modQuarter_hub (p q : Nat) (f : Quarter → Quarter) : (s.modQuarter p q f).hub = s.hub := rfl
@[simp] theorem State.modQuarter_boot (p q : Nat) (f : Quarter → Quarter) : (s.modQuarter p q f).boot = s.boot := rfl
@[simp] theorem State.modQuarter_fabric (p q : Nat) (f : Quarter → Quarter) : (s.modQuarter p q f).fabric = s.fabric := rfl
@[simp] theorem State.modQuarter_agenda (p q : Nat) (f : Quarter → Quarter) : (s.modQuarter p q f).agenda = s.agenda := rfl
@[simp] theorem State.modQuarter_cur (p q : Nat) (f : Quarter → Quarter) : (s.modQuarter p q f).cur = s.cur := rfl
@[simp] theorem State.modQuarter_freeCount (p q : Nat) (f : Quarter → Quarter) : (s.modQuarter p q f).freeCount = s.freeCount := rfl
@[simp] theorem State.modQuarter_seq (p q : Nat) (f : Quarter → Quarter) : (s.modQuarter p q f).seq = s.seq := rfl
@[simp] theorem State.modQuarter_out (p q : Nat) (f : Quarter → Quarter) : (s.modQuarter p q f).out = s.out := rfl

@[simp] theorem State.setReg_groups (off : Nat) (v : W64) : (s.setReg off v).groups = s.groups := rfl
@[simp] theorem State.setReg_cores (off : Nat) (v : W64) : (s.setReg off v).cores = s.cores := rfl
@[simp] theorem State.setReg_launches (off : Nat) (v : W64) : (s.setReg off v).launches = s.launches := rfl
@[simp] theorem State.setReg_mem (off : Nat) (v : W64) : (s.setReg off v).mem = s.mem := rfl
@[simp] theorem State.setReg_tile (off : Nat) (v : W64) : (s.setReg off v).tile = s.tile := rfl
@[simp] theorem State.setReg_opbuf (off : Nat) (v : W64) : (s.setReg off v).opbuf = s.opbuf := rfl
@[simp] theorem State.setReg_tileOwn (off : Nat) (v : W64) : (s.setReg off v).tileOwn = s.tileOwn := rfl
@[simp] theorem State.setReg_opOwn (off : Nat) (v : W64) : (s.setReg off v).opOwn = s.opOwn := rfl
@[simp] theorem State.setReg_cxlKeys (off : Nat) (v : W64) : (s.setReg off v).cxlKeys = s.cxlKeys := rfl
@[simp] theorem State.setReg_absent (off : Nat) (v : W64) : (s.setReg off v).absent = s.absent := rfl
@[simp] theorem State.setReg_poison (off : Nat) (v : W64) : (s.setReg off v).poison = s.poison := rfl
@[simp] theorem State.setReg_gpoison (off : Nat) (v : W64) : (s.setReg off v).gpoison = s.gpoison := rfl
@[simp] theorem State.setReg_escrow (off : Nat) (v : W64) : (s.setReg off v).escrow = s.escrow := rfl
@[simp] theorem State.setReg_egress (off : Nat) (v : W64) : (s.setReg off v).egress = s.egress := rfl
@[simp] theorem State.setReg_wlog (off : Nat) (v : W64) : (s.setReg off v).wlog = s.wlog := rfl
@[simp] theorem State.setReg_walks (off : Nat) (v : W64) : (s.setReg off v).walks = s.walks := rfl
@[simp] theorem State.setReg_reqs (off : Nat) (v : W64) : (s.setReg off v).reqs = s.reqs := rfl
@[simp] theorem State.setReg_boot (off : Nat) (v : W64) : (s.setReg off v).boot = s.boot := rfl
@[simp] theorem State.setReg_fabric (off : Nat) (v : W64) : (s.setReg off v).fabric = s.fabric := rfl
@[simp] theorem State.setReg_agenda (off : Nat) (v : W64) : (s.setReg off v).agenda = s.agenda := rfl
@[simp] theorem State.setReg_cur (off : Nat) (v : W64) : (s.setReg off v).cur = s.cur := rfl
@[simp] theorem State.setReg_freeCount (off : Nat) (v : W64) : (s.setReg off v).freeCount = s.freeCount := rfl
@[simp] theorem State.setReg_seq (off : Nat) (v : W64) : (s.setReg off v).seq = s.seq := rfl
@[simp] theorem State.setReg_out (off : Nat) (v : W64) : (s.setReg off v).out = s.out := rfl

@[simp] theorem State.takeSlot_groups (p q gi t : Nat) : (s.takeSlot p q gi t).groups = s.groups := rfl
@[simp] theorem State.takeSlot_launches (p q gi t : Nat) : (s.takeSlot p q gi t).launches = s.launches := rfl
@[simp] theorem State.takeSlot_mem (p q gi t : Nat) : (s.takeSlot p q gi t).mem = s.mem := rfl
@[simp] theorem State.takeSlot_tile (p q gi t : Nat) : (s.takeSlot p q gi t).tile = s.tile := rfl
@[simp] theorem State.takeSlot_opbuf (p q gi t : Nat) : (s.takeSlot p q gi t).opbuf = s.opbuf := rfl
@[simp] theorem State.takeSlot_tileOwn (p q gi t : Nat) : (s.takeSlot p q gi t).tileOwn = s.tileOwn := rfl
@[simp] theorem State.takeSlot_opOwn (p q gi t : Nat) : (s.takeSlot p q gi t).opOwn = s.opOwn := rfl
@[simp] theorem State.takeSlot_cxlKeys (p q gi t : Nat) : (s.takeSlot p q gi t).cxlKeys = s.cxlKeys := rfl
@[simp] theorem State.takeSlot_absent (p q gi t : Nat) : (s.takeSlot p q gi t).absent = s.absent := rfl
@[simp] theorem State.takeSlot_poison (p q gi t : Nat) : (s.takeSlot p q gi t).poison = s.poison := rfl
@[simp] theorem State.takeSlot_gpoison (p q gi t : Nat) : (s.takeSlot p q gi t).gpoison = s.gpoison := rfl
@[simp] theorem State.takeSlot_escrow (p q gi t : Nat) : (s.takeSlot p q gi t).escrow = s.escrow := rfl
@[simp] theorem State.takeSlot_egress (p q gi t : Nat) : (s.takeSlot p q gi t).egress = s.egress := rfl
@[simp] theorem State.takeSlot_wlog (p q gi t : Nat) : (s.takeSlot p q gi t).wlog = s.wlog := rfl
@[simp] theorem State.takeSlot_walks (p q gi t : Nat) : (s.takeSlot p q gi t).walks = s.walks := rfl
@[simp] theorem State.takeSlot_reqs (p q gi t : Nat) : (s.takeSlot p q gi t).reqs = s.reqs := rfl
@[simp] theorem State.takeSlot_hub (p q gi t : Nat) : (s.takeSlot p q gi t).hub = s.hub := rfl
@[simp] theorem State.takeSlot_boot (p q gi t : Nat) : (s.takeSlot p q gi t).boot = s.boot := rfl
@[simp] theorem State.takeSlot_fabric (p q gi t : Nat) : (s.takeSlot p q gi t).fabric = s.fabric := rfl
@[simp] theorem State.takeSlot_agenda (p q gi t : Nat) : (s.takeSlot p q gi t).agenda = s.agenda := rfl
@[simp] theorem State.takeSlot_cur (p q gi t : Nat) : (s.takeSlot p q gi t).cur = s.cur := rfl
@[simp] theorem State.takeSlot_freeCount (p q gi t : Nat) : (s.takeSlot p q gi t).freeCount = s.freeCount := rfl
@[simp] theorem State.takeSlot_seq (p q gi t : Nat) : (s.takeSlot p q gi t).seq = s.seq := rfl
@[simp] theorem State.takeSlot_out (p q gi t : Nat) : (s.takeSlot p q gi t).out = s.out := rfl

@[simp] theorem State.moveCur_groups (g : Nat) : (s.moveCur g).groups = s.groups := rfl
@[simp] theorem State.moveCur_cores (g : Nat) : (s.moveCur g).cores = s.cores := rfl
@[simp] theorem State.moveCur_launches (g : Nat) : (s.moveCur g).launches = s.launches := rfl
@[simp] theorem State.moveCur_mem (g : Nat) : (s.moveCur g).mem = s.mem := rfl
@[simp] theorem State.moveCur_tile (g : Nat) : (s.moveCur g).tile = s.tile := rfl
@[simp] theorem State.moveCur_opbuf (g : Nat) : (s.moveCur g).opbuf = s.opbuf := rfl
@[simp] theorem State.moveCur_tileOwn (g : Nat) : (s.moveCur g).tileOwn = s.tileOwn := rfl
@[simp] theorem State.moveCur_opOwn (g : Nat) : (s.moveCur g).opOwn = s.opOwn := rfl
@[simp] theorem State.moveCur_cxlKeys (g : Nat) : (s.moveCur g).cxlKeys = s.cxlKeys := rfl
@[simp] theorem State.moveCur_absent (g : Nat) : (s.moveCur g).absent = s.absent := rfl
@[simp] theorem State.moveCur_poison (g : Nat) : (s.moveCur g).poison = s.poison := rfl
@[simp] theorem State.moveCur_gpoison (g : Nat) : (s.moveCur g).gpoison = s.gpoison := rfl
@[simp] theorem State.moveCur_escrow (g : Nat) : (s.moveCur g).escrow = s.escrow := rfl
@[simp] theorem State.moveCur_egress (g : Nat) : (s.moveCur g).egress = s.egress := rfl
@[simp] theorem State.moveCur_wlog (g : Nat) : (s.moveCur g).wlog = s.wlog := rfl
@[simp] theorem State.moveCur_walks (g : Nat) : (s.moveCur g).walks = s.walks := rfl
@[simp] theorem State.moveCur_reqs (g : Nat) : (s.moveCur g).reqs = s.reqs := rfl
@[simp] theorem State.moveCur_hub (g : Nat) : (s.moveCur g).hub = s.hub := rfl
@[simp] theorem State.moveCur_boot (g : Nat) : (s.moveCur g).boot = s.boot := rfl
@[simp] theorem State.moveCur_fabric (g : Nat) : (s.moveCur g).fabric = s.fabric := rfl
@[simp] theorem State.moveCur_agenda (g : Nat) : (s.moveCur g).agenda = s.agenda := rfl
@[simp] theorem State.moveCur_freeCount (g : Nat) : (s.moveCur g).freeCount = s.freeCount := rfl
@[simp] theorem State.moveCur_seq (g : Nat) : (s.moveCur g).seq = s.seq := rfl
@[simp] theorem State.moveCur_out (g : Nat) : (s.moveCur g).out = s.out := rfl

@[simp] theorem State.fresh_groups : s.fresh.2.groups = s.groups := rfl
@[simp] theorem State.fresh_cores : s.fresh.2.cores = s.cores := rfl
@[simp] theorem State.fresh_launches : s.fresh.2.launches = s.launches := rfl
@[simp] theorem State.fresh_mem : s.fresh.2.mem = s.mem := rfl
@[simp] theorem State.fresh_tile : s.fresh.2.tile = s.tile := rfl
@[simp] theorem State.fresh_opbuf : s.fresh.2.opbuf = s.opbuf := rfl
@[simp] theorem State.fresh_tileOwn : s.fresh.2.tileOwn = s.tileOwn := rfl
@[simp] theorem State.fresh_opOwn : s.fresh.2.opOwn = s.opOwn := rfl
@[simp] theorem State.fresh_cxlKeys : s.fresh.2.cxlKeys = s.cxlKeys := rfl
@[simp] theorem State.fresh_absent : s.fresh.2.absent = s.absent := rfl
@[simp] theorem State.fresh_poison : s.fresh.2.poison = s.poison := rfl
@[simp] theorem State.fresh_gpoison : s.fresh.2.gpoison = s.gpoison := rfl
@[simp] theorem State.fresh_escrow : s.fresh.2.escrow = s.escrow := rfl
@[simp] theorem State.fresh_egress : s.fresh.2.egress = s.egress := rfl
@[simp] theorem State.fresh_wlog : s.fresh.2.wlog = s.wlog := rfl
@[simp] theorem State.fresh_walks : s.fresh.2.walks = s.walks := rfl
@[simp] theorem State.fresh_reqs : s.fresh.2.reqs = s.reqs := rfl
@[simp] theorem State.fresh_hub : s.fresh.2.hub = s.hub := rfl
@[simp] theorem State.fresh_boot : s.fresh.2.boot = s.boot := rfl
@[simp] theorem State.fresh_fabric : s.fresh.2.fabric = s.fabric := rfl
@[simp] theorem State.fresh_agenda : s.fresh.2.agenda = s.agenda := rfl
@[simp] theorem State.fresh_cur : s.fresh.2.cur = s.cur := rfl
@[simp] theorem State.fresh_freeCount : s.fresh.2.freeCount = s.freeCount := rfl
@[simp] theorem State.fresh_out : s.fresh.2.out = s.out := rfl

@[simp] theorem State.draw_groups : s.draw.2.groups = s.groups := rfl
@[simp] theorem State.draw_cores : s.draw.2.cores = s.cores := rfl
@[simp] theorem State.draw_launches : s.draw.2.launches = s.launches := rfl
@[simp] theorem State.draw_mem : s.draw.2.mem = s.mem := rfl
@[simp] theorem State.draw_tile : s.draw.2.tile = s.tile := rfl
@[simp] theorem State.draw_opbuf : s.draw.2.opbuf = s.opbuf := rfl
@[simp] theorem State.draw_tileOwn : s.draw.2.tileOwn = s.tileOwn := rfl
@[simp] theorem State.draw_opOwn : s.draw.2.opOwn = s.opOwn := rfl
@[simp] theorem State.draw_cxlKeys : s.draw.2.cxlKeys = s.cxlKeys := rfl
@[simp] theorem State.draw_absent : s.draw.2.absent = s.absent := rfl
@[simp] theorem State.draw_poison : s.draw.2.poison = s.poison := rfl
@[simp] theorem State.draw_gpoison : s.draw.2.gpoison = s.gpoison := rfl
@[simp] theorem State.draw_escrow : s.draw.2.escrow = s.escrow := rfl
@[simp] theorem State.draw_egress : s.draw.2.egress = s.egress := rfl
@[simp] theorem State.draw_wlog : s.draw.2.wlog = s.wlog := rfl
@[simp] theorem State.draw_walks : s.draw.2.walks = s.walks := rfl
@[simp] theorem State.draw_reqs : s.draw.2.reqs = s.reqs := rfl
@[simp] theorem State.draw_hub : s.draw.2.hub = s.hub := rfl
@[simp] theorem State.draw_boot : s.draw.2.boot = s.boot := rfl
@[simp] theorem State.draw_fabric : s.draw.2.fabric = s.fabric := rfl
@[simp] theorem State.draw_agenda : s.draw.2.agenda = s.agenda := rfl
@[simp] theorem State.draw_cur : s.draw.2.cur = s.cur := rfl
@[simp] theorem State.draw_seq : s.draw.2.seq = s.seq := rfl
@[simp] theorem State.draw_out : s.draw.2.out = s.out := rfl

@[simp] theorem State.drawN_groups (n : Nat) : (s.drawN n).2.groups = s.groups := rfl
@[simp] theorem State.drawN_cores (n : Nat) : (s.drawN n).2.cores = s.cores := rfl
@[simp] theorem State.drawN_launches (n : Nat) : (s.drawN n).2.launches = s.launches := rfl
@[simp] theorem State.drawN_mem (n : Nat) : (s.drawN n).2.mem = s.mem := rfl
@[simp] theorem State.drawN_tile (n : Nat) : (s.drawN n).2.tile = s.tile := rfl
@[simp] theorem State.drawN_opbuf (n : Nat) : (s.drawN n).2.opbuf = s.opbuf := rfl
@[simp] theorem State.drawN_tileOwn (n : Nat) : (s.drawN n).2.tileOwn = s.tileOwn := rfl
@[simp] theorem State.drawN_opOwn (n : Nat) : (s.drawN n).2.opOwn = s.opOwn := rfl
@[simp] theorem State.drawN_cxlKeys (n : Nat) : (s.drawN n).2.cxlKeys = s.cxlKeys := rfl
@[simp] theorem State.drawN_absent (n : Nat) : (s.drawN n).2.absent = s.absent := rfl
@[simp] theorem State.drawN_poison (n : Nat) : (s.drawN n).2.poison = s.poison := rfl
@[simp] theorem State.drawN_gpoison (n : Nat) : (s.drawN n).2.gpoison = s.gpoison := rfl
@[simp] theorem State.drawN_escrow (n : Nat) : (s.drawN n).2.escrow = s.escrow := rfl
@[simp] theorem State.drawN_egress (n : Nat) : (s.drawN n).2.egress = s.egress := rfl
@[simp] theorem State.drawN_wlog (n : Nat) : (s.drawN n).2.wlog = s.wlog := rfl
@[simp] theorem State.drawN_walks (n : Nat) : (s.drawN n).2.walks = s.walks := rfl
@[simp] theorem State.drawN_reqs (n : Nat) : (s.drawN n).2.reqs = s.reqs := rfl
@[simp] theorem State.drawN_hub (n : Nat) : (s.drawN n).2.hub = s.hub := rfl
@[simp] theorem State.drawN_boot (n : Nat) : (s.drawN n).2.boot = s.boot := rfl
@[simp] theorem State.drawN_fabric (n : Nat) : (s.drawN n).2.fabric = s.fabric := rfl
@[simp] theorem State.drawN_agenda (n : Nat) : (s.drawN n).2.agenda = s.agenda := rfl
@[simp] theorem State.drawN_cur (n : Nat) : (s.drawN n).2.cur = s.cur := rfl
@[simp] theorem State.drawN_seq (n : Nat) : (s.drawN n).2.seq = s.seq := rfl
@[simp] theorem State.drawN_out (n : Nat) : (s.drawN n).2.out = s.out := rfl

@[simp] theorem State.drawWords_groups (n : Nat) : (s.drawWords n).2.groups = s.groups := rfl
@[simp] theorem State.drawWords_cores (n : Nat) : (s.drawWords n).2.cores = s.cores := rfl
@[simp] theorem State.drawWords_launches (n : Nat) : (s.drawWords n).2.launches = s.launches := rfl
@[simp] theorem State.drawWords_mem (n : Nat) : (s.drawWords n).2.mem = s.mem := rfl
@[simp] theorem State.drawWords_tile (n : Nat) : (s.drawWords n).2.tile = s.tile := rfl
@[simp] theorem State.drawWords_opbuf (n : Nat) : (s.drawWords n).2.opbuf = s.opbuf := rfl
@[simp] theorem State.drawWords_tileOwn (n : Nat) : (s.drawWords n).2.tileOwn = s.tileOwn := rfl
@[simp] theorem State.drawWords_opOwn (n : Nat) : (s.drawWords n).2.opOwn = s.opOwn := rfl
@[simp] theorem State.drawWords_cxlKeys (n : Nat) : (s.drawWords n).2.cxlKeys = s.cxlKeys := rfl
@[simp] theorem State.drawWords_absent (n : Nat) : (s.drawWords n).2.absent = s.absent := rfl
@[simp] theorem State.drawWords_poison (n : Nat) : (s.drawWords n).2.poison = s.poison := rfl
@[simp] theorem State.drawWords_gpoison (n : Nat) : (s.drawWords n).2.gpoison = s.gpoison := rfl
@[simp] theorem State.drawWords_escrow (n : Nat) : (s.drawWords n).2.escrow = s.escrow := rfl
@[simp] theorem State.drawWords_egress (n : Nat) : (s.drawWords n).2.egress = s.egress := rfl
@[simp] theorem State.drawWords_wlog (n : Nat) : (s.drawWords n).2.wlog = s.wlog := rfl
@[simp] theorem State.drawWords_walks (n : Nat) : (s.drawWords n).2.walks = s.walks := rfl
@[simp] theorem State.drawWords_reqs (n : Nat) : (s.drawWords n).2.reqs = s.reqs := rfl
@[simp] theorem State.drawWords_hub (n : Nat) : (s.drawWords n).2.hub = s.hub := rfl
@[simp] theorem State.drawWords_boot (n : Nat) : (s.drawWords n).2.boot = s.boot := rfl
@[simp] theorem State.drawWords_fabric (n : Nat) : (s.drawWords n).2.fabric = s.fabric := rfl
@[simp] theorem State.drawWords_agenda (n : Nat) : (s.drawWords n).2.agenda = s.agenda := rfl
@[simp] theorem State.drawWords_cur (n : Nat) : (s.drawWords n).2.cur = s.cur := rfl
@[simp] theorem State.drawWords_seq (n : Nat) : (s.drawWords n).2.seq = s.seq := rfl
@[simp] theorem State.drawWords_out (n : Nat) : (s.drawWords n).2.out = s.out := rfl

end Sys2Proof.Machine
end

