-- ==== Sys2Proof/Laws/Words.lean ====
section
/-! SUPPORT. The issue of a word: what `issueWord` answers where the word is performed, what its close leaves as it was, and reads of covered
operands. -/

namespace Sys2Proof.Machine

/-! Lists -/

theorem modifyNth_length {α : Type} (f : α → α) : ∀ (n : Nat) (l : List α), (modifyNth f n l).length = l.length
  | _, [] => by simp [modifyNth]
  | 0, x :: xs => by simp [modifyNth]
  | n + 1, x :: xs => by simp [modifyNth, modifyNth_length f n xs]

theorem getD_modifyNth {α : Type} (f : α → α) (d : α) : ∀ (n j : Nat) (l : List α),
    (modifyNth f n l).getD j d = if j = n ∧ n < l.length then f (l.getD j d) else l.getD j d
  | _, _, [] => by simp [modifyNth]
  | 0, 0, x :: xs => by simp [modifyNth]
  | 0, j + 1, x :: xs => by simp [modifyNth]
  | n + 1, 0, x :: xs => by simp [modifyNth]
  | n + 1, j + 1, x :: xs => by simpa [modifyNth] using getD_modifyNth f d n j xs

theorem lookupD_setKey {β : Type} (k j : Nat) (v d : β) : ∀ l : List (Nat × β),
    lookupD (setKey l k v) j d = if j = k then v else lookupD l j d
  | [] => by simp [setKey, lookupD, eq_comm]
  | p :: ps => by
    by_cases h : p.1 = k
    · by_cases hj : j = k
      · simp [setKey, lookupD, h, hj]
      · simp [setKey, lookupD, h, hj, Ne.symm hj]
    · by_cases hj : p.1 = j
      · have : ¬ j = k := fun e => h (hj.trans e)
        simp [setKey, lookupD, hj, this]
      · simp [setKey, lookupD, h, hj, lookupD_setKey k j v d ps]

/-! Groups and cores under the updates -/

theorem State.grp_modGrp (s : State) (g j : Nat) (f : Group → Group) :
    (s.modGrp g f).grp j = if j = g ∧ g < s.groups.length then f (s.grp j) else s.grp j := by
  simp only [State.grp, State.modGrp]
  exact getD_modifyNth f Group.blank g j s.groups

theorem State.grp_modGrp_ne (s : State) {g j : Nat} (f : Group → Group) (h : j ≠ g) : (s.modGrp g f).grp j = s.grp j := by
  simp [State.grp_modGrp, h]

theorem State.grp_modGrp_self (s : State) {g : Nat} (f : Group → Group) (h : g < s.groups.length) : (s.modGrp g f).grp g = f (s.grp g) := by
  simp [State.grp_modGrp, h]

@[simp] theorem State.modGrp_length (s : State) (g : Nat) (f : Group → Group) : (s.modGrp g f).groups.length = s.groups.length := by
  simp [State.modGrp, modifyNth_length]

/-- A group with a clause is in the list. -/
theorem State.lt_of_clause {s : State} {g k : Nat} {c : Clause} (h : (s.grp g).clauses[k]? = some c) : g < s.groups.length := by
  by_contra hn
  have : s.grp g = Group.blank := by
    simp only [State.grp]
    rw [List.getD_eq_getElem?_getD, List.getElem?_eq_none (by omega)]
    rfl
  rw [this] at h
  simp [Group.blank] at h

theorem State.core_modCore (s : State) (p j : Nat) (f : Core → Core) :
    (s.modCore p f).core j = if j = p then f (s.core p) else s.core j := by
  simp only [State.core, State.modCore, State.setCore]
  exact lookupD_setKey p j _ _ _

@[simp] theorem State.grp_modCore (s : State) (p j : Nat) (f : Core → Core) : (s.modCore p f).grp j = s.grp j := rfl
@[simp] theorem State.grp_advance (s : State) (p t j : Nat) : (s.advance p t).grp j = s.grp j := rfl
@[simp] theorem State.grp_takeSlot (s : State) (p q g t j : Nat) : (s.takeSlot p q g t).grp j = s.grp j := rfl
@[simp] theorem State.grp_moveCur (s : State) (g j : Nat) : (s.moveCur g).grp j = s.grp j := rfl
@[simp] theorem State.core_modGrp (s : State) (g p : Nat) (f : Group → Group) : (s.modGrp g f).core p = s.core p := rfl
@[simp] theorem State.core_moveCur (s : State) (g p : Nat) : (s.moveCur g).core p = s.core p := rfl

theorem State.units_advance (s : State) (p t j : Nat) : ((s.advance p t).core j).units = (s.core j).units := by
  rw [State.advance, State.core_modCore]
  split
  · subst j; rfl
  · rfl

theorem map_free_modifyNth (t g : Nat) : ∀ (q : Nat) (l : List Quarter),
    (modifyNth (fun x : Quarter => { x with free := max x.free t, user := g }) q l).map (fun x : Quarter => { x with free := 0, user := 0 }) =
      l.map (fun x : Quarter => { x with free := 0, user := 0 })
  | _, [] => by simp [modifyNth]
  | 0, x :: xs => by simp [modifyNth]
  | n + 1, x :: xs => by simp [modifyNth, map_free_modifyNth t g n xs]

theorem State.units_takeSlot (s : State) (p q g t j : Nat) : ((s.takeSlot p q g t).core j).units = (s.core j).units := by
  rw [State.takeSlot, State.modQuarter, State.core_modCore]
  split
  · subst j
    simp [Core.units, map_free_modifyNth (t + 1) g q]
  · rfl

/-! Elsewhere -/

theorem Elsewhere.refl (gi : Nat) (s : State) : Elsewhere gi s s := ⟨rfl, fun _ _ => rfl, fun _ => rfl⟩

theorem Elsewhere.trans {gi : Nat} {s t u : State} (h : Elsewhere gi s t) (h' : Elsewhere gi t u) : Elsewhere gi s u :=
  ⟨h'.1.trans h.1, fun j hj => (h'.2.1 j hj).trans (h.2.1 j hj), fun p => (h'.2.2 p).trans (h.2.2 p)⟩

theorem Elsewhere.modGrp (s : State) (gi : Nat) (f : Group → Group) : Elsewhere gi s (s.modGrp gi f) :=
  ⟨rfl, fun _ hj => s.grp_modGrp_ne f hj, fun _ => rfl⟩

/-! Guards and the beginning of a word -/

/-- What reading registers leaves: everything but the free values' counter. -/
structure SameButDraws (s t : State) : Prop where
  outside : t.outside = s.outside
  groups : t.groups = s.groups
  cores : t.cores = s.cores
  cur : t.cur = s.cur
  seq : t.seq = s.seq

theorem SameButDraws.refl (s : State) : SameButDraws s s := ⟨rfl, rfl, rfl, rfl, rfl⟩
theorem SameButDraws.trans {s t u : State} (h : SameButDraws s t) (h' : SameButDraws t u) : SameButDraws s u :=
  ⟨h'.1.trans h.1, h'.2.trans h.2, h'.3.trans h.3, h'.4.trans h.4, h'.5.trans h.5⟩
theorem SameButDraws.elsewhere {s t : State} (h : SameButDraws s t) (gi : Nat) : Elsewhere gi s t :=
  ⟨h.outside, fun _ _ => by simp [State.grp, h.groups], fun _ => by simp [State.core, h.cores]⟩
theorem SameButDraws.grp {s t : State} (h : SameButDraws s t) (j : Nat) : t.grp j = s.grp j := by simp [State.grp, h.groups]

theorem State.drawN_same (s : State) (n : Nat) : SameButDraws s (s.drawN n).2 := ⟨rfl, rfl, rfl, rfl, rfl⟩
theorem State.drawWords_same (s : State) (n : Nat) : SameButDraws s (s.drawWords n).2 := ⟨rfl, rfl, rfl, rfl, rfl⟩

theorem State.readVec_same (s : State) (gi : Nat) (c : RegCode) (u : Nat) : SameButDraws s (s.readVec gi c u).2.2 := by
  unfold State.readVec
  dsimp only
  split
  · exact .refl s
  · exact s.drawN_same _

theorem State.readScalars_same (s : State) (gi : Nat) (c : RegCode) (u : Nat) : SameButDraws s (s.readScalars gi c u).2 := by
  unfold State.readScalars
  dsimp only
  split
  · exact .refl s
  · exact s.drawN_same _

theorem State.sampleGuard_same (s : State) (gi : Nat) (f : BitVec 16) (u b : Nat) : SameButDraws s (s.sampleGuard gi f u b).2.2 := by
  unfold State.sampleGuard
  dsimp only
  split
  · exact .refl s
  · split
    · exact s.readVec_same ..
    · split
      · exact s.readScalars_same ..
      · split
        · exact .refl s
        · split <;> exact .refl s

theorem State.sample_same (s : State) (gi : Nat) (c : Clause) (u : Nat) : SameButDraws s (s.sample gi c u).2 := by
  unfold State.sample
  dsimp only
  split
  · exact .refl s
  · exact (s.sampleGuard_same ..).trans (State.sampleGuard_same ..)

/-- Sampling changes what a clause knows of its guards, and nothing else of it. -/
theorem State.sample_clause (s : State) (gi : Nat) (c : Clause) (u : Nat) :
    ∃ b0 b1 h0 h1, (s.sample gi c u).1 = { c with g0 := b0, g1 := b1, short0 := h0, short1 := h1 } := by
  unfold State.sample
  dsimp only
  split
  · rename_i h
    exact ⟨c.g0, c.g1, c.short0, c.short1, by cases c; simp_all⟩
  · exact ⟨_, _, _, _, rfl⟩

/-- The beginning of a word leaves everything outside its group as it was, but clocks. -/
theorem State.enterWord_elsewhere (s : State) (gi k : Nat) (c0 : Clause) : Elsewhere gi s (s.enterWord gi k c0).2.2 := by
  unfold State.enterWord
  dsimp only
  refine (Elsewhere.trans ?_ ((State.sample_same ..).elsewhere gi)).trans (Elsewhere.modGrp ..)
  have h : Elsewhere gi s (s.advance (s.grp gi).pkg (s.issueClock gi c0)) :=
    ⟨rfl, fun _ _ => rfl, fun p => s.units_advance _ _ p⟩
  exact h.trans (Elsewhere.modGrp ..)

/-- The group of a word that has begun: what is readable has landed, and the clause has its guards. -/
theorem State.enterWord_grp {s : State} {gi k : Nat} {c0 : Clause} (h : gi < s.groups.length) :
    (s.enterWord gi k c0).2.2.grp gi =
      { (s.grp gi).landed (s.enterWord gi k c0).1 with clauses := setNth (s.grp gi).clauses k (s.enterWord gi k c0).2.1 } := by
  unfold State.enterWord
  dsimp only
  have hs := State.sample_same ((s.advance (s.grp gi).pkg (s.issueClock gi c0)).modGrp gi
    (fun g => g.landed (s.issueClock gi c0))) gi c0 (s.issueClock gi c0)
  have hl : gi < ((s.advance (s.grp gi).pkg (s.issueClock gi c0)).groups).length := h
  rw [State.grp_modGrp_self _ _ (by rw [hs.groups]; simpa using h), hs.grp, State.grp_modGrp_self _ _ hl]
  rfl

theorem State.enterWord_length (s : State) (gi k : Nat) (c0 : Clause) : (s.enterWord gi k c0).2.2.groups.length = s.groups.length := by
  unfold State.enterWord
  dsimp only
  rw [State.modGrp_length, (State.sample_same ..).groups, State.modGrp_length]
  rfl

theorem State.enterWord_cur (s : State) (gi k : Nat) (c0 : Clause) : (s.enterWord gi k c0).2.2.cur = s.cur := by
  unfold State.enterWord
  dsimp only
  exact (State.sample_same ..).cur

/-! What a performed word answers -/

/-- A word that is performed answers what its own description gives, closed. -/
theorem issueWord_performs {i : Instr} {s : State} {c : Ctx} {m : State} (h : Performs i s c m) (body : Ctx → State → Res) :
    issueWord i body s = .next (c.close (body c m)) := by
  obtain ⟨c0, hc0, he⟩ := h.begun
  have hx : wordRes i body c.gi c.k (c.t, c.cl, m) = (c, body c m) := by
    have hctx := h.context
    simp only [wordRes, h.owesNone, h.row]
    rw [← hctx, h.passes, if_neg h.acts, h.timely]
    cases body c m <;> rfl
  simp [issueWord, h.cursor, hc0, he, hx]

theorem Performs.lt {i : Instr} {s : State} {c : Ctx} {m : State} (h : Performs i s c m) : c.gi < s.groups.length := by
  obtain ⟨c0, hc0, -⟩ := h.begun
  exact State.lt_of_clause hc0

theorem Performs.lt' {i : Instr} {s : State} {c : Ctx} {m : State} (h : Performs i s c m) : c.gi < m.groups.length := by
  obtain ⟨c0, hc0, he⟩ := h.begun
  have := s.enterWord_length c.gi c.k c0
  rw [he] at this
  rw [this]
  exact h.lt

theorem Performs.elsewhere {i : Instr} {s : State} {c : Ctx} {m : State} (h : Performs i s c m) : Elsewhere c.gi s m := by
  obtain ⟨c0, -, he⟩ := h.begun
  have := s.enterWord_elsewhere c.gi c.k c0
  rwa [he] at this

/-- The group at the issue: only clauses, and what has landed, differ. -/
theorem Performs.grp {i : Instr} {s : State} {c : Ctx} {m : State} (h : Performs i s c m) :
    m.grp c.gi = { (s.grp c.gi).landed c.t with clauses := setNth (s.grp c.gi).clauses c.k c.cl } := by
  obtain ⟨c0, -, he⟩ := h.begun
  have := State.enterWord_grp (s := s) (k := c.k) (c0 := c0) h.lt
  rw [he] at this
  exact this

theorem Performs.others {i : Instr} {s : State} {c : Ctx} {m : State} (h : Performs i s c m) :
    (m.grp c.gi).others = (s.grp c.gi).others := by
  rw [h.grp]; rfl

theorem Performs.v {i : Instr} {s : State} {c : Ctx} {m : State} (h : Performs i s c m) : (m.grp c.gi).v = (s.grp c.gi).v := by
  rw [h.grp]; rfl

theorem Performs.sregs {i : Instr} {s : State} {c : Ctx} {m : State} (h : Performs i s c m) : (m.grp c.gi).s = (s.grp c.gi).s := by
  rw [h.grp]; rfl

/-! The close of a performed word -/

theorem Group.wordDone_others (g : Group) (k t st : Nat) : (g.wordDone k t st).others = g.others := by
  unfold Group.wordDone
  dsimp only
  split
  · rfl
  · split <;> rfl

theorem Group.wordDone_regs (g : Group) (k t st : Nat) :
    (g.wordDone k t st).v = g.v ∧ (g.wordDone k t st).s = g.s ∧ (g.wordDone k t st).flags = g.flags ∧
      (g.wordDone k t st).pendw = g.pendw ∧ (g.wordDone k t st).pendf = g.pendf := by
  unfold Group.wordDone
  dsimp only
  split
  · exact ⟨rfl, rfl, rfl, rfl, rfl⟩
  · split <;> exact ⟨rfl, rfl, rfl, rfl, rfl⟩

theorem Ctx.close_done_grp (c : Ctx) (m : State) (j : Nat) : (c.close (.done m)).grp j =
    if j = c.gi ∧ c.gi < m.groups.length then (m.grp c.gi).wordDone c.k c.t c.view.lay.anc.stall.toNat else m.grp j := by
  simp only [Ctx.close, State.grp_moveCur, State.grp_takeSlot, State.grp_modGrp]
  split
  · rename_i h; rw [h.1]
  · rfl

theorem Ctx.close_done_elsewhere (c : Ctx) (m : State) : Elsewhere c.gi m (c.close (.done m)) := by
  refine ⟨rfl, fun j hj => ?_, fun p => ?_⟩
  · simp [Ctx.close_done_grp, hj]
  · simp only [Ctx.close, State.core_moveCur]
    rw [State.units_takeSlot]
    rfl

/-! Covered reads -/

theorem State.readVec_covered {s : State} {gi : Nat} {r : RegCode} {u : Nat} (hp : (s.grp gi).pendTo r u = []) (ho : (s.grp gi).opsTo r = []) :
    s.readVec gi r u = (((s.grp gi).vreg r.toNat).lanes, ((s.grp gi).vreg r.toNat).tag, s) := by
  simp [State.readVec, hp, ho]

theorem State.readScalars_covered {s : State} {gi : Nat} {r : RegCode} {u : Nat} (hp : (s.grp gi).pendTo r u = []) (ho : (s.grp gi).opsTo r = []) :
    s.readScalars gi r u = (fun _ => (s.grp gi).sreg r, s) := by
  simp [State.readScalars, hp, ho]

/-- A covered scalar or uniform source. -/
theorem Ctx.uni_covered {c : Ctx} {m : State} {r : RegCode} (h : c.covered m r) : c.uni m r = ((m.grp c.gi).scalarOf c.lane r, m) := by
  unfold Ctx.uni State.readU Group.scalarOf
  split
  · rw [State.readVec_covered h.1 h.2]; rfl
  · split
    · rw [State.readScalars_covered h.1 h.2]
    · rfl

theorem getD_range_map {α : Type} (f : Nat → α) (n i : Nat) (d : α) : ((List.range n).map f).getD i d = if i < n then f i else d := by
  rw [List.getD_eq_getElem?_getD, List.getElem?_map]
  split
  · rename_i h; simp [h]
  · rename_i h; simp [h]

theorem getD_replicate {α : Type} (n i : Nat) (x d : α) : (List.replicate n x).getD i d = if i < n then x else d := by
  rw [List.getD_eq_getElem?_getD, List.getElem?_replicate]
  split <;> rfl

theorem conforms_const (f : Nat → W32) (h : ∀ i < 64, f i = f 0) : conforms .u ((List.range 64).map f) = true := by
  simp only [conforms, List.all_eq_true, List.mem_range, getD_range_map]
  intro i hi
  simp only [hi, if_true, show (0 : Nat) < 64 by decide, h i hi, beq_self_eq_true]

theorem tagIf_const (x : W32) : tagIf .u ((List.range 64).map (fun _ => x)) = .u := by
  rw [tagIf, conforms_const (fun _ => x) (fun _ _ => rfl)]
  rfl

/-- A covered vector source: its lanes, its tag, and no change. -/
theorem Ctx.vec_covered {c : Ctx} {m : State} {r : RegCode} (h : c.covered m r) :
    (∀ i < 64, (c.vec m r).1.getD i 0 = (m.grp c.gi).laneOf r i) ∧ (c.vec m r).2.1 = (m.grp c.gi).tagOf r ∧ (c.vec m r).2.2 = m := by
  unfold Ctx.vec State.readLanes Group.laneOf Group.tagOf
  by_cases hv : isV r = true
  · simp only [hv, if_true]
    rw [State.readVec_covered h.1 h.2]
    exact ⟨fun i _ => rfl, rfl, rfl⟩
  · by_cases hs : isS r = true
    · simp only [hv, hs, if_true, Bool.false_eq_true, if_false]
      rw [State.readScalars_covered h.1 h.2]
      dsimp only
      have h1 : ¬ r = 0xF1 := by rintro rfl; simp [isS] at hs
      have h2 : ¬ r = 0xF2 := by rintro rfl; simp [isS] at hs
      refine ⟨fun i hi => ?_, ?_, rfl⟩
      · rw [getD_range_map, if_pos hi]
      · rw [tagIf_const, if_neg h1, if_neg h2]
    · by_cases h1 : r = 0xF1
      · subst h1
        exact ⟨fun i hi => by rw [if_neg hv, if_neg hs, if_neg hv, if_neg hs, if_pos rfl, if_pos rfl, getD_range_map, if_pos hi],
          by rw [if_neg hv, if_neg hs, if_neg hv, if_pos rfl, if_pos rfl], by rw [if_neg hv, if_neg hs, if_pos rfl]⟩
      · by_cases h2 : r = 0xF2
        · subst h2
          exact ⟨fun i hi => by
            rw [if_neg hv, if_neg hs, if_neg hv, if_neg hs, if_neg h1, if_pos rfl, if_neg h1, if_pos rfl, getD_range_map, if_pos hi],
            by rw [if_neg hv, if_neg hs, if_neg hv, if_neg h1, if_pos rfl, if_neg h1, if_pos rfl],
            by rw [if_neg hv, if_neg hs, if_neg h1, if_pos rfl]⟩
        · exact ⟨fun i hi => by
            rw [if_neg hv, if_neg hs, if_neg hv, if_neg hs, if_neg h1, if_neg h2, if_neg h1, if_neg h2, getD_replicate, if_pos hi],
            by rw [if_neg hv, if_neg hs, if_neg hv, if_neg h1, if_neg h2, if_neg h1, if_neg h2],
            by rw [if_neg hv, if_neg hs, if_neg h1, if_neg h2]⟩

end Sys2Proof.Machine
end

