-- ==== Sys2Proof/Laws/Results.lean ====
section
/-! SUPPORT. Fixed-latency results: what writing one does, and how a word whose one effect it is ends. -/

namespace Sys2Proof.Machine

/-- A scalar result in turn: dropped where the second of two clauses beside each other has one readable in its clock. -/
theorem Ctx.putS_inTurn {c : Ctx} {m : State} {d : RegCode} (x : W64) (h : c.inTurn m d) (hl : c.gi < m.groups.length) :
    Elsewhere c.gi m (c.putS m d x) ∧ (c.putS m d x).groups.length = m.groups.length ∧
      (c.putS m d x).grp c.gi = if (m.grp c.gi).secondWrites d (c.t + latency c.view.op) c.cl.beside then m.grp c.gi
        else { (m.grp c.gi).setS d x with pendw := (m.grp c.gi).pendw ++
          [⟨d, c.t + latency c.view.op, [], .g, (m.grp c.gi).sreg d, BitVec.allOnes 64, c.cl.beside, m.seq, false⟩] } := by
  have hlate : (m.grp c.gi).pendw.filter (fun w => w.reg == d && decide (c.t + latency c.view.op < w.ready)) = [] := by
    rw [List.filter_eq_nil_iff]
    intro w hw
    have := h w hw
    simp only [Bool.and_eq_true, beq_iff_eq, decide_eq_true_eq, not_and, not_lt]
    exact this
  unfold Ctx.putS State.fixedS
  dsimp only
  split
  · exact ⟨.refl _ _, rfl, rfl⟩
  simp only [hlate, List.isEmpty_nil, if_true, List.foldl_nil]
  refine ⟨⟨rfl, fun j hj => ?_, fun _ => rfl⟩, ?_, ?_⟩
  · exact State.grp_modGrp_ne _ _ hj
  · exact State.modGrp_length ..
  · exact State.grp_modGrp_self _ _ hl

theorem laneMask_getLsbD (p : Nat → Bool) (i : Nat) (h : i < 64) : (laneMask p).getLsbD i = p i := by
  have key : ∀ n ≤ 64, ∀ j, ((List.range n).foldl (fun acc i => if p i then acc + 2 ^ i else acc) 0).testBit j = (decide (j < n) && p j) ∧
      (List.range n).foldl (fun acc i => if p i then acc + 2 ^ i else acc) 0 < 2 ^ n := by
    intro n
    induction n with
    | zero => intro _ j; simp
    | succ n ih =>
      intro hn j
      have ihj := ih (by omega) j
      rw [List.range_succ, List.foldl_append]
      set x := (List.range n).foldl (fun acc i => if p i then acc + 2 ^ i else acc) 0
      simp only [List.foldl_cons, List.foldl_nil]
      by_cases hp : p n = true
      · simp only [hp, if_true]
        refine ⟨?_, by have := ihj.2; rw [Nat.pow_succ]; omega⟩
        rw [Nat.add_comm]
        by_cases hj : j = n
        · subst hj
          rw [Nat.testBit_two_pow_add_eq]
          rw [Nat.testBit_lt_two_pow ihj.2]
          simp [hp]
        · rcases Nat.lt_or_gt_of_ne hj with hlt | hgt
          · rw [Nat.testBit_two_pow_add_gt hlt, ihj.1]
            simp [hlt, Nat.lt_succ_of_lt hlt]
          · rw [Nat.testBit_lt_two_pow]
            · simp only [Bool.false_eq, Bool.and_eq_false_iff, decide_eq_false_iff_not]; left; omega
            · calc 2 ^ n + x < 2 ^ n + 2 ^ n := by have := ihj.2; omega
                _ = 2 ^ (n + 1) := by rw [Nat.pow_succ]; omega
                _ ≤ 2 ^ j := Nat.pow_le_pow_right (by decide) hgt
      · simp only [hp]
        refine ⟨?_, by have := ihj.2; rw [Nat.pow_succ]; simp; omega⟩
        simp only [Bool.false_eq_true, if_false]
        rw [ihj.1]
        by_cases hj : j = n
        · subst hj; simp [hp]
        · congr 1
          simp only [decide_eq_decide]
          omega
  unfold laneMask
  rw [BitVec.getLsbD_ofNat, (key 64 (le_refl _) i).1]
  simp [h]

theorem laneMask_self (m : BitVec 64) : laneMask (fun i => m.getLsbD i) = m := by
  apply BitVec.eq_of_getLsbD_eq
  intro i hi
  exact laneMask_getLsbD _ i hi

/-- A vector result in turn. -/
theorem State.fixedV_inTurn {m : State} {gi : Nat} {d : RegCode} {ready : Nat} (mask : BitVec 64) (vals : List W32) (tag : Tag) (b : Nat) (ar : Bool)
    (h : ∀ w ∈ (m.grp gi).pendw, w.reg = d → w.ready ≤ ready) (hl : gi < m.groups.length) :
    Elsewhere gi m (m.fixedV gi d mask vals tag ready b ar) ∧ (m.fixedV gi d mask vals tag ready b ar).groups.length = m.groups.length ∧
      (m.fixedV gi d mask vals tag ready b ar).grp gi =
        { (m.grp gi).setV d.toNat ⟨tag, putLanes ((m.grp gi).vreg d.toNat).lanes mask vals⟩ with
          pendw := (m.grp gi).pendw ++ [⟨d, ready, ((m.grp gi).vreg d.toNat).lanes, ((m.grp gi).vreg d.toNat).tag, 0, mask, b, m.seq, ar⟩] } := by
  have hlate : (m.grp gi).pendw.filter (fun w => w.reg == d && decide (ready < w.ready)) = [] := by
    rw [List.filter_eq_nil_iff]
    intro w hw
    have := h w hw
    simp only [Bool.and_eq_true, beq_iff_eq, decide_eq_true_eq, not_and, not_lt]
    exact this
  unfold State.fixedV
  simp only [hlate, List.isEmpty_nil, if_true, Bool.false_and, Bool.not_false, Bool.and_true, List.foldl_nil, laneMask_self]
  refine ⟨⟨rfl, fun j hj => ?_, fun _ => rfl⟩, ?_, ?_⟩
  · exact State.grp_modGrp_ne _ _ hj
  · exact State.modGrp_length ..
  · exact State.grp_modGrp_self _ _ hl

/-- Flags to be raised with a result. -/
theorem Ctx.flags_spec (c : Ctx) (m : State) (f : Flags) (hl : c.gi < m.groups.length) :
    Elsewhere c.gi m (c.flags m f) ∧ (c.flags m f).groups.length = m.groups.length ∧
      (c.flags m f).grp c.gi = { m.grp c.gi with pendf := (m.grp c.gi).pendf ++ (if f = 0 then [] else [(c.t + latency c.view.op, f)]) } := by
  unfold Ctx.flags
  split
  · rename_i h
    exact ⟨.refl _ _, rfl, by simp⟩
  · rename_i h
    refine ⟨Elsewhere.modGrp .., State.modGrp_length .., ?_⟩
    rw [State.grp_modGrp_self _ _ hl]

/-- A performed word whose one effect is a scalar result in turn. -/
theorem Performs.scalar {i : Instr} {s : State} {c : Ctx} {m : State} (h : Performs i s c m) {d : RegCode} (x : W64) (f : Flags)
    (ht : c.inTurn m d) : ScalarResult c (latency c.view.op) s m (c.close (.done (c.flags (c.putS m d x) f))) d x f := by
  obtain ⟨e1, l1, g1⟩ := c.putS_inTurn x ht h.lt'
  obtain ⟨e2, l2, g2⟩ := c.flags_spec (c.putS m d x) f (by rw [l1]; exact h.lt')
  have hg := c.close_done_grp (c.flags (c.putS m d x) f) c.gi
  rw [if_pos ⟨rfl, by rw [l2, l1]; exact h.lt'⟩] at hg
  have hr := ((c.flags (c.putS m d x) f).grp c.gi).wordDone_regs c.k c.t c.view.lay.anc.stall.toNat
  rw [← hg] at hr
  refine ⟨?_, ?_, ?_, ?_, ?_, ?_, (h.elsewhere.trans (e1.trans e2)).trans (c.close_done_elsewhere _)⟩
  · rw [hr.2.1, g2, g1, ← h.sregs]; split <;> rfl
  · rw [hr.2.2.2.1, g2, g1]
    split
    · rfl
    · exact ⟨_, rfl, rfl, rfl⟩
  · rw [hr.2.2.2.2, g2, g1]; split <;> rfl
  · rw [hr.2.2.1, g2, g1]; split <;> rfl
  · rw [hr.1, g2, g1, ← h.v]; split <;> rfl
  · rw [hg, Group.wordDone_others, g2, g1, ← h.others]; split <;> rfl

theorem putLanes_getD (old : List W32) (mask : BitVec 64) (vals : List W32) (i : Nat) (h : i < 64) :
    (putLanes old mask vals).getD i 0 = if mask.getLsbD i then vals.getD i 0 else old.getD i 0 := by
  rw [putLanes, getD_range_map, if_pos h]

theorem range_map_congr {α : Type} {f g : Nat → α} {n : Nat} (h : ∀ i < n, f i = g i) : (List.range n).map f = (List.range n).map g := by
  apply List.map_congr_left
  intro i hi
  exact h i (List.mem_range.mp hi)

theorem conforms_congr (t : Tag) (l l' : List W32) (h : ∀ i < 64, l.getD i 0 = l'.getD i 0) : conforms t l = conforms t l' := by
  cases t
  · simp only [conforms]
    rw [Bool.eq_iff_iff, List.all_eq_true, List.all_eq_true]
    constructor <;> intro hh i hi <;> have := hh i hi <;> have hi' := List.mem_range.mp hi <;>
      simp only [h i hi', h 0 (by decide)] at * <;> exact this
  · simp only [conforms, strideOf]
    rw [Bool.eq_iff_iff, List.all_eq_true, List.all_eq_true]
    constructor <;> intro hh i hi <;> have := hh i hi <;> have hi' := List.mem_range.mp hi <;>
      simp only [h i hi', h 0 (by decide), h 1 (by decide)] at * <;> exact this
  · rfl

/-- A performed word whose one effect is a vector result in turn; the values are given for each lane. -/
theorem Performs.vector {i : Instr} {s : State} {c : Ctx} {m : State} (h : Performs i s c m) {d : RegCode} (vals : List W32) (tag : Tag)
    (f : Flags) (val : Nat → W32) (hv : ∀ i < 64, vals.getD i 0 = val i) (ht : c.inTurn m d) :
    VectorResult c (latency c.view.op) s m (c.close (.done (c.flags (c.putV m d vals tag) f))) d val tag f := by
  obtain ⟨e1, l1, g1⟩ := State.fixedV_inTurn (m := m) (gi := c.gi) (d := d) (ready := c.t + latency c.view.op)
    (if c.full then BitVec.allOnes 64 else c.act) vals (if c.full then tagIf tag vals else .g) c.cl.beside (isArrayOp c.view.op) ht h.lt'
  change Elsewhere c.gi m (c.putV m d vals tag) at e1
  change (c.putV m d vals tag).groups.length = _ at l1
  change (c.putV m d vals tag).grp c.gi = _ at g1
  obtain ⟨e2, l2, g2⟩ := c.flags_spec (c.putV m d vals tag) f (by rw [l1]; exact h.lt')
  have hg := c.close_done_grp (c.flags (c.putV m d vals tag) f) c.gi
  rw [if_pos ⟨rfl, by rw [l2, l1]; exact h.lt'⟩] at hg
  have hr := ((c.flags (c.putV m d vals tag) f).grp c.gi).wordDone_regs c.k c.t c.view.lay.anc.stall.toNat
  rw [← hg] at hr
  have hreg : (m.grp c.gi).vreg d.toNat = (s.grp c.gi).vreg d.toNat := by simp only [Group.vreg, h.v]
  refine ⟨⟨⟨if c.full then tagIf tag vals else .g, putLanes ((m.grp c.gi).vreg d.toNat).lanes
    (if c.full then BitVec.allOnes 64 else c.act) vals⟩, ?_, fun i hi => ?_, ?_⟩, ⟨⟨d, c.t + latency c.view.op, ((m.grp c.gi).vreg d.toNat).lanes,
    ((m.grp c.gi).vreg d.toNat).tag, 0, if c.full then BitVec.allOnes 64 else c.act, c.cl.beside, m.seq, isArrayOp c.view.op⟩, ?_, rfl, rfl⟩,
    ?_, ?_, ?_, ?_, ?_⟩
  · rw [hr.1, g2, g1, ← h.v]; rfl
  · show (putLanes _ _ _).getD i 0 = _
    rw [putLanes_getD _ _ _ _ hi, hv i hi, hreg]
    by_cases hf : c.full = true
    · rw [if_pos hf, if_pos (Or.inl hf), if_pos (show (BitVec.allOnes 64).getLsbD i = true by rw [BitVec.getLsbD_allOnes]; exact decide_eq_true hi)]
    · rw [if_neg hf]
      by_cases ha : c.act.getLsbD i = true
      · rw [if_pos ha, if_pos (Or.inr ha)]
      · rw [if_neg ha, if_neg (by simp [hf, ha])]; rfl
  · dsimp only
    split
    · simp only [tagIf]
      rw [conforms_congr tag vals ((List.range 64).map val) (fun i hi => by rw [hv i hi, getD_range_map, if_pos hi])]
    · rfl
  · rw [hr.2.2.2.1, g2, g1]
  · rw [hr.2.2.2.2, g2, g1]; rfl
  · rw [hr.2.2.1, g2, g1]; rfl
  · rw [hr.2.1, g2, g1, ← h.sregs]; rfl
  · rw [hg, Group.wordDone_others, g2, g1, ← h.others]; rfl
  · exact (h.elsewhere.trans (e1.trans e2)).trans (c.close_done_elsewhere _)

/-! Words of scalar sources: one lemma per shared operation -/

theorem Ctx.scal1_covered {c : Ctx} {m : State} {d a : RegCode} {f : W64 → W64 × Flags} (ha : c.covered m a) :
    c.scal1 m d a f = .done (c.flags (c.putS m d (f ((m.grp c.gi).scalarOf c.lane a)).1) (f ((m.grp c.gi).scalarOf c.lane a)).2) := by
  simp only [Ctx.scal1, Ctx.uni_covered ha]

theorem Ctx.scal2_covered {c : Ctx} {m : State} {d a b : RegCode} {f : W64 → W64 → W64 × Flags} (ha : c.covered m a) (hb : c.covered m b) :
    c.scal2 m d a b f = .done (c.flags (c.putS m d (f ((m.grp c.gi).scalarOf c.lane a) ((m.grp c.gi).scalarOf c.lane b)).1)
      (f ((m.grp c.gi).scalarOf c.lane a) ((m.grp c.gi).scalarOf c.lane b)).2) := by
  simp only [Ctx.scal2, Ctx.uni_covered ha, Ctx.uni_covered hb]

theorem Ctx.scal3_covered {c : Ctx} {m : State} {d a b e : RegCode} {f : W64 → W64 → W64 → W64 × Flags} (ha : c.covered m a)
    (hb : c.covered m b) (he : c.covered m e) :
    c.scal3 m d a b e f = .done (c.flags
      (c.putS m d (f ((m.grp c.gi).scalarOf c.lane a) ((m.grp c.gi).scalarOf c.lane b) ((m.grp c.gi).scalarOf c.lane e)).1)
      (f ((m.grp c.gi).scalarOf c.lane a) ((m.grp c.gi).scalarOf c.lane b) ((m.grp c.gi).scalarOf c.lane e)).2) := by
  simp only [Ctx.scal3, Ctx.uni_covered ha, Ctx.uni_covered hb, Ctx.uni_covered he]

/-- The latency of an instruction's row. -/
theorem Performs.latency {i : Instr} {s : State} {c : Ctx} {m : State} {n : Nat} (h : Performs i s c m)
    (hl : (view i).map (fun v => Machine.latency v.op) = some n) : Machine.latency c.view.op = n := by
  rw [h.row] at hl
  exact Option.some.inj hl

/-- What a performed word answers, where its description is a scalar result in turn. -/
theorem Performs.scalar_next {i : Instr} {s : State} {c : Ctx} {m : State} {n : Nat} (h : Performs i s c m)
    (hl : (view i).map (fun v => Machine.latency v.op) = some n)
    {body : Ctx → State → Res} {d : RegCode} {x : W64} {f : Flags} (hb : body c m = .done (c.flags (c.putS m d x) f)) (ht : c.inTurn m d) :
    ∃ t, issueWord i body s = .next t ∧ ScalarResult c n s m t d x f :=
  ⟨_, issueWord_performs h body, by rw [hb, ← h.latency hl]; exact h.scalar x f ht⟩

/-! Words of vector sources -/

theorem zip_range_filter {α : Type} (p : Nat → Bool) (n : Nat) (f : Nat → α) :
    (((List.range n).map f).zip (List.range n)).filter (fun x => p x.2) = ((List.range n).filter p).map (fun i => (f i, i)) := by
  have : ((List.range n).map f).zip (List.range n) = (List.range n).map (fun i => (f i, i)) := by
    rw [List.zip_eq_zipWith]
    rw [List.zipWith_map_left]
    simp [List.zipWith_self]
  rw [this, List.filter_map]
  rfl

theorem Ctx.laneFlags_raised (c : Ctx) (f : Nat → W32 × Flags) : c.laneFlags ((List.range 64).map f) = c.raised (fun i => (f i).2) := by
  unfold Ctx.laneFlags Ctx.raised lanesOf
  rw [zip_range_filter (fun i => c.act.getLsbD i) 64 f]
  rw [List.foldl_map]

theorem Ctx.lane1T_covered {c : Ctx} {m : State} {d a : RegCode} {tag : Tag → List W32 → Tag} {f : W32 → W32 × Flags} (ha : c.covered m a) :
    c.lane1T m d a tag f =
      .done (c.flags (c.putV m d ((List.range 64).map (fun i => (f ((m.grp c.gi).laneOf a i)).1))
        (tag ((m.grp c.gi).tagOf a) ((List.range 64).map (fun i => (f ((m.grp c.gi).laneOf a i)).1))))
        (c.raised (fun i => (f ((m.grp c.gi).laneOf a i)).2))) := by
  obtain ⟨la, ta, ma⟩ := Ctx.vec_covered ha
  have hr : (List.range 64).map (fun i => f ((c.vec m a).1.getD i 0)) =
      (List.range 64).map (fun i => f ((m.grp c.gi).laneOf a i)) := range_map_congr (fun i hi => by rw [la i hi])
  simp only [Ctx.lane1T, Ctx.putLanes, ma, ta, hr, Ctx.laneFlags_raised, List.map_map]
  rfl

theorem Ctx.lane2T_covered {c : Ctx} {m : State} {d a b : RegCode} {tag : Tag → Tag → List W32 → Tag} {f : W32 → W32 → W32 × Flags} (ha : c.covered m a) (hb : c.covered m b) :
    c.lane2T m d a b tag f =
      .done (c.flags (c.putV m d ((List.range 64).map (fun i => (f ((m.grp c.gi).laneOf a i) ((m.grp c.gi).laneOf b i)).1))
        (tag ((m.grp c.gi).tagOf a) ((m.grp c.gi).tagOf b) ((List.range 64).map (fun i => (f ((m.grp c.gi).laneOf a i) ((m.grp c.gi).laneOf b i)).1))))
        (c.raised (fun i => (f ((m.grp c.gi).laneOf a i) ((m.grp c.gi).laneOf b i)).2))) := by
  obtain ⟨la, ta, ma⟩ := Ctx.vec_covered ha
  obtain ⟨lb, tb, mb⟩ := Ctx.vec_covered hb
  have hr : (List.range 64).map (fun i => f ((c.vec m a).1.getD i 0) ((c.vec m b).1.getD i 0)) =
      (List.range 64).map (fun i => f ((m.grp c.gi).laneOf a i) ((m.grp c.gi).laneOf b i)) := range_map_congr (fun i hi => by rw [la i hi, lb i hi])
  simp only [Ctx.lane2T, Ctx.putLanes, ma, mb, ta, tb, hr, Ctx.laneFlags_raised, List.map_map]
  rfl

theorem Ctx.lane3T_covered {c : Ctx} {m : State} {d a b e : RegCode} {tag : Tag → Tag → Tag → List W32 → Tag} {f : W32 → W32 → W32 → W32 × Flags} (ha : c.covered m a) (hb : c.covered m b) (he : c.covered m e) :
    c.lane3T m d a b e tag f =
      .done (c.flags (c.putV m d ((List.range 64).map (fun i => (f ((m.grp c.gi).laneOf a i) ((m.grp c.gi).laneOf b i) ((m.grp c.gi).laneOf e i)).1))
        (tag ((m.grp c.gi).tagOf a) ((m.grp c.gi).tagOf b) ((m.grp c.gi).tagOf e) ((List.range 64).map (fun i => (f ((m.grp c.gi).laneOf a i) ((m.grp c.gi).laneOf b i) ((m.grp c.gi).laneOf e i)).1))))
        (c.raised (fun i => (f ((m.grp c.gi).laneOf a i) ((m.grp c.gi).laneOf b i) ((m.grp c.gi).laneOf e i)).2))) := by
  obtain ⟨la, ta, ma⟩ := Ctx.vec_covered ha
  obtain ⟨lb, tb, mb⟩ := Ctx.vec_covered hb
  obtain ⟨le, te, me⟩ := Ctx.vec_covered he
  have hr : (List.range 64).map (fun i => f ((c.vec m a).1.getD i 0) ((c.vec m b).1.getD i 0) ((c.vec m e).1.getD i 0)) =
      (List.range 64).map (fun i => f ((m.grp c.gi).laneOf a i) ((m.grp c.gi).laneOf b i) ((m.grp c.gi).laneOf e i)) := range_map_congr (fun i hi => by rw [la i hi, lb i hi, le i hi])
  simp only [Ctx.lane3T, Ctx.putLanes, ma, mb, me, ta, tb, te, hr, Ctx.laneFlags_raised, List.map_map]
  rfl

theorem getD_map_range (f : Nat → W32) : ∀ i < 64, ((List.range 64).map f).getD i 0 = f i := by
  intro i hi
  rw [getD_range_map, if_pos hi]

/-- What a performed word answers, where its description is a vector result in turn. -/
theorem Performs.vector_next {i : Instr} {s : State} {c : Ctx} {m : State} {n : Nat} (h : Performs i s c m)
    (hl : (view i).map (fun v => Machine.latency v.op) = some n)
    {body : Ctx → State → Res} {d : RegCode} {val : Nat → W32} {tag : Tag} {f : Flags}
    (hb : body c m = .done (c.flags (c.putV m d ((List.range 64).map val) tag) f)) (ht : c.inTurn m d) :
    ∃ t, issueWord i body s = .next t ∧ VectorResult c n s m t d val tag f :=
  ⟨_, issueWord_performs h body, by
    rw [hb, ← h.latency hl]; exact h.vector _ tag f val (getD_map_range val) ht⟩

/-! What a word gives, from its description: one lemma per shared operation -/

theorem scalarGives0 {i : Instr} {n : Nat} {d : RegCode} {x : W64} {body : Ctx → State → Res}
    (hl : (view i).map (fun v => Machine.latency v.op) = some n) (hx : ∀ s, exec i s = issueWord i body s)
    (hb : ∀ c m, body c m = .done (c.putS m d x)) : ScalarGives0 i n d x := by
  intro s c m h ht
  rw [hx]
  exact h.scalar_next hl (f := 0) (by rw [hb]; rfl) ht

theorem scalarGives1 {i : Instr} {n : Nat} {d a : RegCode} {f g : W64 → W64 × Flags}
    (hl : (view i).map (fun v => Machine.latency v.op) = some n)
    (hx : ∀ s, exec i s = issueWord i (fun c s => c.scal1 s d a f) s) (hfg : ∀ x, f x = g x) :
    ScalarGives1 i n d a g := by
  obtain rfl : f = g := funext fun x => hfg x
  intro s c m h ha ht
  rw [hx]
  exact h.scalar_next hl (Ctx.scal1_covered ha) ht

theorem scalarGives2 {i : Instr} {n : Nat} {d a b : RegCode} {f g : W64 → W64 → W64 × Flags}
    (hl : (view i).map (fun v => Machine.latency v.op) = some n)
    (hx : ∀ s, exec i s = issueWord i (fun c s => c.scal2 s d a b f) s) (hfg : ∀ x y, f x y = g x y) :
    ScalarGives2 i n d a b g := by
  obtain rfl : f = g := funext fun x => funext fun y => hfg x y
  intro s c m h ha hb ht
  rw [hx]
  exact h.scalar_next hl (Ctx.scal2_covered ha hb) ht

theorem scalarGives3 {i : Instr} {n : Nat} {d a b e : RegCode} {f g : W64 → W64 → W64 → W64 × Flags}
    (hl : (view i).map (fun v => Machine.latency v.op) = some n)
    (hx : ∀ s, exec i s = issueWord i (fun c s => c.scal3 s d a b e f) s) (hfg : ∀ x y z, f x y z = g x y z) :
    ScalarGives3 i n d a b e g := by
  obtain rfl : f = g := funext fun x => funext fun y => funext fun z => hfg x y z
  intro s c m h ha hb he ht
  rw [hx]
  exact h.scalar_next hl (Ctx.scal3_covered ha hb he) ht

theorem vectorGives1 {i : Instr} {n : Nat} {d a : RegCode} {tag tag' : Tag → List W32 → Tag} {f g : W32 → W32 × Flags}
    (hl : (view i).map (fun v => Machine.latency v.op) = some n)
    (hx : ∀ s, exec i s = issueWord i (fun c s => c.lane1T s d a tag f) s) (hfg : ∀ x, f x = g x)
    (htag : ∀ p l, tag p l = tag' p l) : VectorGives1 i n d a tag' g := by
  obtain rfl : tag = tag' := funext fun p => funext (htag p)
  obtain rfl : f = g := funext fun x => hfg x
  intro s c m h ha ht
  rw [hx]
  exact h.vector_next hl (Ctx.lane1T_covered ha) ht

theorem vectorGives2 {i : Instr} {n : Nat} {d a b : RegCode} {tag tag' : Tag → Tag → List W32 → Tag} {f g : W32 → W32 → W32 × Flags}
    (hl : (view i).map (fun v => Machine.latency v.op) = some n)
    (hx : ∀ s, exec i s = issueWord i (fun c s => c.lane2T s d a b tag f) s) (hfg : ∀ x y, f x y = g x y)
    (htag : ∀ p q l, tag p q l = tag' p q l) : VectorGives2 i n d a b tag' g := by
  obtain rfl : tag = tag' := funext fun p => funext fun q => funext (htag p q)
  obtain rfl : f = g := funext fun x => funext fun y => hfg x y
  intro s c m h ha hb ht
  rw [hx]
  exact h.vector_next hl (Ctx.lane2T_covered ha hb) ht

theorem vectorGives3 {i : Instr} {n : Nat} {d a b e : RegCode} {tag tag' : Tag → Tag → Tag → List W32 → Tag} {f g : W32 → W32 → W32 → W32 × Flags}
    (hl : (view i).map (fun v => Machine.latency v.op) = some n)
    (hx : ∀ s, exec i s = issueWord i (fun c s => c.lane3T s d a b e tag f) s) (hfg : ∀ x y z, f x y z = g x y z)
    (htag : ∀ p q r l, tag p q r l = tag' p q r l) : VectorGives3 i n d a b e tag' g := by
  obtain rfl : tag = tag' := funext fun p => funext fun q => funext fun r => funext (htag p q r)
  obtain rfl : f = g := funext fun x => funext fun y => funext fun z => hfg x y z
  intro s c m h ha hb he ht
  rw [hx]
  exact h.vector_next hl (Ctx.lane3T_covered ha hb he) ht

theorem arrayGives2 {i : Instr} {n : Nat} {d a b : RegCode} {tag tag' : Tag → Tag → List W32 → Tag} {f : W32 → W32 → W32 × Flags}
    (hl : (view i).map (fun v => Machine.latency v.op) = some n)
    (hx : ∀ s, exec i s = issueWord i (fun c s => c.array s (c.lane2T s d a b tag f)) s)
    (htag : ∀ p q l, tag p q l = tag' p q l) : ArrayGives2 i n d a b tag' f := by
  obtain rfl : tag = tag' := funext fun p => funext fun q => funext (htag p q)
  intro s c m h hq ha hb ht
  rw [hx]
  have hq' : c.array m (c.lane2T m d a b tag f) = c.lane2T m d a b tag f := by
    simp only [Ctx.array, show (m.quarter (m.grp c.gi).pkg (m.grp c.gi).qtr).arrayQ = [] from hq, List.isEmpty_nil, if_true]
  exact h.vector_next hl (hq'.trans (Ctx.lane2T_covered ha hb)) ht

theorem arrayGives3 {i : Instr} {n : Nat} {d a b e : RegCode} {tag tag' : Tag → Tag → Tag → List W32 → Tag} {f : W32 → W32 → W32 → W32 × Flags}
    (hl : (view i).map (fun v => Machine.latency v.op) = some n)
    (hx : ∀ s, exec i s = issueWord i (fun c s => c.array s (c.lane3T s d a b e tag f)) s)
    (htag : ∀ p q r l, tag p q r l = tag' p q r l) : ArrayGives3 i n d a b e tag' f := by
  obtain rfl : tag = tag' := funext fun p => funext fun q => funext fun r => funext (htag p q r)
  intro s c m h hq ha hb he ht
  rw [hx]
  have hq' : c.array m (c.lane3T m d a b e tag f) = c.lane3T m d a b e tag f := by
    simp only [Ctx.array, show (m.quarter (m.grp c.gi).pkg (m.grp c.gi).qtr).arrayQ = [] from hq, List.isEmpty_nil, if_true]
  exact h.vector_next hl (hq'.trans (Ctx.lane3T_covered ha hb he)) ht

/-! Tags -/

theorem lanewise_one (p : Tag) (l : List W32) : lanewise [p] = lanewise1 p l := by cases p <;> rfl
theorem lanewise_two (p q : Tag) (l : List W32) : lanewise [p, q] = lanewise2 p q l := by cases p <;> cases q <;> rfl
theorem lanewise_three (p q r : Tag) (l : List W32) : lanewise [p, q, r] = lanewise3 p q r l := by cases p <;> cases q <;> cases r <;> rfl

theorem affine_affineIf (l : List W32) : affine l = affineIf true l := by
  simp [affine, affineIf, strideOf, BitVec.sub_eq_iff_eq_add]

end Sys2Proof.Machine
end

