-- ==== Sys2Proof/Laws/Close.lean ====
section
/-! SUPPORT. How a word ends: done, held, or with one operation outstanding. One lemma for each way, which says all it leaves. -/

namespace Sys2Proof.Machine

theorem getElem?_setNth_self {α : Type} (x : α) : ∀ (n : Nat) (l : List α), n < l.length → (setNth l n x)[n]? = some x
  | _, [], h => by simp at h
  | 0, _ :: _, _ => rfl
  | n + 1, _ :: l, h => getElem?_setNth_self x n l (by simpa using h)

theorem setNth_setNth {α : Type} (x y : α) : ∀ (n : Nat) (l : List α), setNth (setNth l n x) n y = setNth l n y
  | 0, [] => rfl
  | _ + 1, [] => rfl
  | 0, _ :: _ => rfl
  | n + 1, a :: l => congrArg (a :: ·) (setNth_setNth x y n l)

theorem dropNth_setNth {α : Type} (x : α) : ∀ (n : Nat) (l : List α), dropNth n (setNth l n x) = dropNth n l
  | 0, [] => rfl
  | _ + 1, [] => rfl
  | 0, _ :: _ => rfl
  | n + 1, a :: l => congrArg (a :: ·) (dropNth_setNth x n l)

theorem modifyNth_of_getElem? {α : Type} (f : α → α) (x : α) : ∀ (n : Nat) (l : List α), l[n]? = some x → modifyNth f n l = setNth l n (f x)
  | _, [], h => by simp at h
  | 0, _ :: _, h => by simp at h; simp [modifyNth, setNth, h]
  | n + 1, a :: l, h => congrArg (a :: ·) (modifyNth_of_getElem? f x n l (by simpa using h))

/-! The clause of a word that has begun -/

theorem Performs.clause {i : Instr} {s : State} {c : Ctx} {m : State} (h : Performs i s c m) : (m.grp c.gi).clauses[c.k]? = some c.cl := by
  obtain ⟨c0, hc0, -⟩ := h.begun
  rw [h.grp]
  exact getElem?_setNth_self _ _ _ (by
    by_contra hn
    rw [List.getElem?_eq_none (by omega)] at hc0
    cases hc0)

/-! Done -/

/-- What a description may change of its group without touching the clause that issues: its clauses are as the issue left them, but for
the transfer that it takes. -/
structure Leaves (c : Ctx) (m x : State) (taken : BitVec 64) (target : W64) : Prop where
  index : c.gi < x.groups.length
  clauses : (x.grp c.gi).clauses = setNth (m.grp c.gi).clauses c.k { c.cl with taken := taken, target := target }
  place : (x.grp c.gi).pc = (m.grp c.gi).pc ∧ (x.grp c.gi).rpos = (m.grp c.gi).rpos ∧ (x.grp c.gi).emark = (m.grp c.gi).emark
  home : (x.grp c.gi).pkg = (m.grp c.gi).pkg ∧ (x.grp c.gi).qtr = (m.grp c.gi).qtr
  quarters : (x.core (m.grp c.gi).pkg).qtr = (m.core (m.grp c.gi).pkg).qtr

theorem State.core_takeSlot (s : State) (p q g t : Nat) : (s.takeSlot p q g t).core p =
    { s.core p with qtr := modifyNth (fun x => { x with free := max x.free (t + 1), user := g }) q (s.core p).qtr } := by
  rw [State.takeSlot, State.modQuarter, State.core_modCore, if_pos rfl]

/-- Where the cursor stands after it has moved: at the word of the core that is due first. -/
theorem State.moveCur_cur (s : State) (p : Nat) : (s.moveCur p).cur = (soonest ((s.moveCur p).due p)).map (fun x => (x.1, x.2.1)) := rfl

/-- A word that is done goes on in its program: to its clause's next word, or past its end. -/
theorem Ctx.close_done_proceeds {c : Ctx} {m x : State} {taken : BitVec 64} {target : W64} (hc : (m.grp c.gi).clauses[c.k]? = some c.cl)
    (h : Leaves c m x taken target) (ht : c.cl.pos < c.cl.count → taken = c.cl.taken ∧ target = c.cl.target) :
    Proceeds c m (c.close (.done x)) taken target := by
  have hk : c.k < (m.grp c.gi).clauses.length := by
    by_contra hn
    rw [List.getElem?_eq_none (by omega)] at hc
    cases hc
  have hx : (x.grp c.gi).clauses[c.k]? = some { c.cl with taken := taken, target := target } := by
    rw [h.clauses]; exact getElem?_setNth_self _ _ _ hk
  have hg := c.close_done_grp x c.gi
  rw [if_pos ⟨rfl, h.index⟩] at hg
  obtain ⟨h1, h2, h3⟩ := h.place
  have hcount : Clause.count { c.cl with taken := taken, target := target } = c.cl.count := rfl
  refine ⟨fun hp => ?_, fun hp => ?_, ?_, by rw [← h.home.1]; exact State.moveCur_cur _ _⟩
  · obtain ⟨rfl, rfl⟩ := ht hp
    rw [hg]
    simp only [Group.wordDone, hx, hcount, if_pos hp]
    rw [h.clauses, setNth_setNth]
    exact ⟨rfl, h1, h2, h3⟩
  · rw [hg]
    have hn : ¬ c.cl.pos < c.cl.count := by omega
    simp only [Group.wordDone, hx, hcount, if_neg hn, Group.endClause]
    rw [h.clauses, dropNth_setNth, h3, h1, h2]
    refine ⟨rfl, rfl, fun i hi => ?_, fun i hi => ?_⟩
    · rw [getD_range_map, if_pos hi]
      by_cases hl : (x.grp c.gi).live.getLsbD i = true <;> by_cases hm : c.cl.lanes.getLsbD i = true <;> simp [hl, hm]
      rfl
    · rw [getD_range_map, if_pos hi]
      by_cases hl : (x.grp c.gi).live.getLsbD i = true <;> by_cases hm : c.cl.lanes.getLsbD i = true <;> simp [hl, hm]
  · show (((x.modGrp c.gi _).takeSlot _ _ _ _).core _).qtr = _
    rw [h.home.1, h.home.2, State.core_takeSlot]
    show modifyNth _ _ (x.core _).qtr = _
    rw [h.quarters]

/-- Registers and flags after a word that is done are as its description left them; so is everything else but its place. -/
theorem Ctx.close_done_kept {c : Ctx} {m x : State} (hi : c.gi < x.groups.length) (h : RegsKept c.gi m x) :
    RegsKept c.gi m (c.close (.done x)) := by
  have hg := c.close_done_grp x c.gi
  rw [if_pos ⟨rfl, hi⟩] at hg
  obtain ⟨h1, h2, h3, h4, h5⟩ := (x.grp c.gi).wordDone_regs c.k c.t c.view.lay.anc.stall.toNat
  exact ⟨by rw [hg, h1, h.v], by rw [hg, h2, h.s], by rw [hg, h3, h.flags], by rw [hg, h4, h.pendw], by rw [hg, h5, h.pendf]⟩

theorem Ctx.close_done_changes {c : Ctx} {m x : State} {fg : Group → Group} {fo : State → State} (hi : c.gi < x.groups.length)
    (h : Changes c.gi m x fg fo) : Changes c.gi m (c.close (.done x)) fg fo := by
  have hg := c.close_done_grp x c.gi
  rw [if_pos ⟨rfl, hi⟩] at hg
  have e := c.close_done_elsewhere x
  exact ⟨by rw [hg, Group.wordDone_others, h.group], by rw [e.1, h.outside], fun j hj => by rw [e.2.1 j hj, h.groups j hj],
    fun p => by rw [e.2.2 p, h.cores p]⟩

theorem RegsKept.refl (gi : Nat) (m : State) : RegsKept gi m m := ⟨rfl, rfl, rfl, rfl, rfl⟩
theorem Changes.refl (gi : Nat) (m : State) : Changes gi m m (fun g => g) (fun s => s) := ⟨rfl, rfl, fun _ _ => rfl, fun _ => rfl⟩

/-- A description that changes its group by `f` alone, where `f` touches no register, no clause and no place. -/
theorem RegsKept.modGrp {gi : Nat} {m : State} (hi : gi < m.groups.length) (f : Group → Group)
    (h : (f (m.grp gi)).v = (m.grp gi).v ∧ (f (m.grp gi)).s = (m.grp gi).s ∧ (f (m.grp gi)).flags = (m.grp gi).flags ∧
      (f (m.grp gi)).pendw = (m.grp gi).pendw ∧ (f (m.grp gi)).pendf = (m.grp gi).pendf) : RegsKept gi m (m.modGrp gi f) := by
  obtain ⟨a, b, d, e, g⟩ := h
  have hg := m.grp_modGrp_self f hi
  exact ⟨by rw [hg, a], by rw [hg, b], by rw [hg, d], by rw [hg, e], by rw [hg, g]⟩

theorem Changes.modGrp {gi : Nat} {m : State} (hi : gi < m.groups.length) (f fg : Group → Group)
    (h : (f (m.grp gi)).others = fg (m.grp gi).others) : Changes gi m (m.modGrp gi f) fg (fun s => s) :=
  ⟨by rw [m.grp_modGrp_self f hi, h], rfl, fun _ hj => m.grp_modGrp_ne f hj, fun _ => rfl⟩

theorem Leaves.modGrp {c : Ctx} {m : State} (hi : c.gi < m.groups.length) (f : Group → Group) (taken : BitVec 64) (target : W64)
    (h : (f (m.grp c.gi)).clauses = setNth (m.grp c.gi).clauses c.k { c.cl with taken := taken, target := target } ∧
      (f (m.grp c.gi)).pc = (m.grp c.gi).pc ∧ (f (m.grp c.gi)).rpos = (m.grp c.gi).rpos ∧ (f (m.grp c.gi)).emark = (m.grp c.gi).emark ∧
      (f (m.grp c.gi)).pkg = (m.grp c.gi).pkg ∧ (f (m.grp c.gi)).qtr = (m.grp c.gi).qtr) : Leaves c m (m.modGrp c.gi f) taken target := by
  obtain ⟨h1, h2, h3, h4, h5, h6⟩ := h
  have hg := m.grp_modGrp_self f hi
  exact ⟨by rw [State.modGrp_length]; exact hi, by rw [hg, h1], ⟨by rw [hg, h2], by rw [hg, h3], by rw [hg, h4]⟩,
    ⟨by rw [hg, h5], by rw [hg, h6]⟩, rfl⟩

theorem setNth_getElem? {α : Type} (x : α) : ∀ (n : Nat) (l : List α), l[n]? = some x → setNth l n x = l
  | _, [], h => by simp at h
  | 0, _ :: _, h => by simp at h; simp [modifyNth, setNth, h]
  | n + 1, a :: l, h => congrArg (a :: ·) (setNth_getElem? x n l (by simpa using h))

/-- A word whose description changes its group by `f` alone, and neither a register, the clause nor its place. -/
theorem Performs.does {i : Instr} {s : State} {c : Ctx} {m : State} (h : Performs i s c m) {body : Ctx → State → Res} {f fg : Group → Group}
    (hb : body c m = .done (m.modGrp c.gi f)) (ho : (f (m.grp c.gi)).others = fg (m.grp c.gi).others)
    (hr : ∀ g, (f g).v = g.v ∧ (f g).s = g.s ∧ (f g).flags = g.flags ∧ (f g).pendw = g.pendw ∧ (f g).pendf = g.pendf ∧ (f g).clauses = g.clauses ∧
      (f g).pc = g.pc ∧ (f g).rpos = g.rpos ∧ (f g).emark = g.emark ∧ (f g).pkg = g.pkg ∧ (f g).qtr = g.qtr) :
    ∃ t, issueWord i body s = .next t ∧ Does c m t fg (fun s => s) := by
  obtain ⟨a1, a2, a3, a4, a5, a6, a7, a8, a9, a10, a11⟩ := hr (m.grp c.gi)
  have hi := h.lt'
  have hl : c.gi < (m.modGrp c.gi f).groups.length := by rw [State.modGrp_length]; exact hi
  refine ⟨_, issueWord_performs h body, ?_, ?_, ?_⟩
  · rw [hb]; exact Ctx.close_done_kept hl (.modGrp hi f ⟨a1, a2, a3, a4, a5⟩)
  · rw [hb]; exact Ctx.close_done_changes hl (.modGrp hi f fg ho)
  · rw [hb]
    refine Ctx.close_done_proceeds h.clause (.modGrp hi f _ _ ⟨?_, a7, a8, a9, a10, a11⟩) (fun _ => ⟨rfl, rfl⟩)
    rw [a6]
    exact (setNth_getElem? _ _ _ h.clause).symm

/-- A word whose description changes nothing. -/
theorem Performs.doesNothing {i : Instr} {s : State} {c : Ctx} {m : State} (h : Performs i s c m) {body : Ctx → State → Res}
    (hb : body c m = .done m) : ∃ t, issueWord i body s = .next t ∧ Does c m t (fun g => g) (fun s => s) :=
  ⟨_, issueWord_performs h body, by
    rw [hb]
    exact ⟨Ctx.close_done_kept h.lt' (.refl _ _), Ctx.close_done_changes h.lt' (.refl _ _),
      Ctx.close_done_proceeds h.clause ⟨h.lt', (setNth_getElem? _ _ _ h.clause).symm, ⟨rfl, rfl, rfl⟩, ⟨rfl, rfl⟩, rfl⟩ (fun _ => ⟨rfl, rfl⟩)⟩⟩

/-! Held -/

/-- A word that is held is tried again, and has done nothing. -/
theorem Ctx.close_hold {c : Ctx} {m : State} (hi : c.gi < m.groups.length) (hc : (m.grp c.gi).clauses[c.k]? = some c.cl) :
    Waits c m (c.close (.hold m)) := by
  have hg : (c.close (.hold m)).grp c.gi =
      { m.grp c.gi with clauses := setNth (m.grp c.gi).clauses c.k { c.cl with mark := max c.cl.mark (c.t + 1) } } := by
    show (m.modGrp c.gi _).grp c.gi = _
    rw [m.grp_modGrp_self _ hi, modifyNth_of_getElem? _ _ _ _ hc]
  refine ⟨⟨?_, ?_, ?_, ?_, ?_⟩, ⟨?_, rfl, fun j hj => ?_, fun _ => rfl⟩, ?_, ⟨?_, ?_, ?_⟩, State.moveCur_cur _ _⟩
  all_goals first | (rw [hg]; done) | (rw [hg]; rfl) | exact m.grp_modGrp_ne _ hj

theorem Performs.holds {i : Instr} {s : State} {c : Ctx} {m : State} (h : Performs i s c m) {body : Ctx → State → Res}
    (hb : body c m = .hold m) : ∃ t, issueWord i body s = .next t ∧ Waits c m t :=
  ⟨_, issueWord_performs h body, by rw [hb]; exact Ctx.close_hold h.lt' h.clause⟩

/-! One operation outstanding -/

theorem Ctx.issueOp_eq (c : Ctx) (m : State) (d : RegCode) (n : Nat) (kind : OpKind) : c.issueOp m d n kind =
    (m.seq, ({ m with seq := m.seq + 1 } : State).modGrp c.gi (fun g => { g with ops := g.ops ++ [c.operation m.seq d n kind] })) := rfl

/-- A word whose description leaves one operation outstanding. -/
theorem Performs.issues {i : Instr} {s : State} {c : Ctx} {m : State} (h : Performs i s c m) {body : Ctx → State → Res} {d : RegCode} {n : Nat}
    {kind : OpKind} (hb : body c m = .done (c.issueOp m d n kind).2) :
    ∃ t, issueWord i body s = .next t ∧ Issues c m t d n kind ∧ Proceeds c m t c.cl.taken c.cl.target := by
  have hi := h.lt'
  have hl : c.gi < (c.issueOp m d n kind).2.groups.length := by
    rw [Ctx.issueOp_eq]; rw [State.modGrp_length]; exact hi
  have hg : (c.issueOp m d n kind).2.grp c.gi = { m.grp c.gi with ops := (m.grp c.gi).ops ++ [c.operation m.seq d n kind] } := by
    rw [Ctx.issueOp_eq]
    exact State.grp_modGrp_self _ _ hi
  have hk : RegsKept c.gi m (c.issueOp m d n kind).2 := by constructor <;> rw [hg]
  have hch : Changes c.gi m (c.issueOp m d n kind).2 (fun g => { g with ops := g.ops ++ [c.operation m.seq d n kind] }) (fun s => s) := by
    refine ⟨by rw [hg]; rfl, rfl, fun j hj => ?_, fun _ => rfl⟩
    rw [Ctx.issueOp_eq]
    exact State.grp_modGrp_ne _ _ hj
  refine ⟨_, issueWord_performs h body, ?_, ?_⟩
  · rw [hb]; exact ⟨Ctx.close_done_kept hl hk, m.seq, Ctx.close_done_changes hl hch⟩
  · rw [hb]
    refine Ctx.close_done_proceeds h.clause ⟨hl, ?_, ?_, ?_, rfl⟩ (fun _ => ⟨rfl, rfl⟩)
    · rw [hg]; exact (setNth_getElem? _ _ _ h.clause).symm
    · rw [hg]; exact ⟨rfl, rfl, rfl⟩
    · rw [hg]; exact ⟨rfl, rfl⟩

/-- A word whose description traps. -/
theorem Performs.traps {i : Instr} {s : State} {c : Ctx} {m x : State} (h : Performs i s c m) {body : Ctx → State → Res} {cause : Cause}
    {code : Nat} {addr : W64} (hb : body c m = .trap x cause code addr) : issueWord i body s = .next (x.trapWord c cause code addr) := by
  rw [issueWord_performs h body, hb]; rfl

end Sys2Proof.Machine
end

