-- ==== Sys2Proof/Laws/Encoding.lean ====
section
/-! SUPPORT. The fields of a packed word, and the word of a word's fields: what the encoder and the decoder share. -/

namespace Sys2Proof

open Machine

/-! Parts of a word put side by side -/

/-- The last part. -/
theorem extract_append_low {a b : Nat} (x : BitVec a) (y : BitVec b) : (x ++ y).extractLsb' 0 b = y := by
  apply BitVec.eq_of_getLsbD_eq
  intro i hi
  simp [BitVec.getLsbD_append, hi]

/-- The fields above the last part. -/
theorem extract_append_high {a b : Nat} (x : BitVec a) (y : BitVec b) (s w : Nat) (h : b ≤ s) :
    (x ++ y).extractLsb' s w = x.extractLsb' (s - b) w := by
  apply BitVec.eq_of_getLsbD_eq
  intro i hi
  have : ¬ (s + i < b) := by omega
  simp [BitVec.getLsbD_append, this, show s + i - b = s - b + i by omega]

/-- The fields inside the last part. -/
theorem extract_append_in {a b : Nat} (x : BitVec a) (y : BitVec b) (s w : Nat) (h : s + w ≤ b) :
    (x ++ y).extractLsb' s w = y.extractLsb' s w := by
  apply BitVec.eq_of_getLsbD_eq
  intro i hi
  have : (s + i < b) := by omega
  simp [BitVec.getLsbD_append, this]

theorem extract_self {a : Nat} (x : BitVec a) : x.extractLsb' 0 a = x := by
  apply BitVec.eq_of_getLsbD_eq
  intro i hi
  simp

/-! The fields of a packed word (R209, R210) -/

theorem opOf_packWord (op : BitVec 10) (l : Layout) : opOf (packWord op l) = op := by
  cases l <;> (unfold opOf packWord; repeat (first
    | exact extract_self _
    | refine (extract_append_high _ _ _ _ (by decide)).trans ?_))

theorem ancOf_packWord (op : BitVec 10) (l : Layout) : ancOf (packWord op l) = l.anc := by
  have h : ∀ (x : BitVec 50) (a : Anc), ancOf (x ++ a.pack) = a := by
    intro x a
    obtain ⟨g, s, t, r⟩ := a
    unfold ancOf Anc.pack
    congr 1 <;> (repeat (first
      | exact extract_self _
      | refine (extract_append_in _ _ _ _ (by decide)).trans ?_
      | refine (extract_append_high _ _ _ _ (by decide)).trans ?_))
  cases l <;> exact h _ _

theorem vOps_packWord (op : BitVec 10) (o : VOps) : vOps (packWord op (.v o)) = o := by
  have h := ancOf_packWord op (.v o)
  unfold vOps
  rw [h]
  obtain ⟨d, a, b, c, m, n⟩ := o
  unfold packWord
  congr 1 <;> (repeat (first
    | exact extract_self _
    | refine (extract_append_in _ _ _ _ (by decide)).trans ?_
    | refine (extract_append_high _ _ _ _ (by decide)).trans ?_))

theorem iOps_packWord (op : BitVec 10) (o : IOps) : iOps (packWord op (.i o)) = o := by
  have h := ancOf_packWord op (.i o)
  unfold iOps
  rw [h]
  obtain ⟨d, a, m, x, n⟩ := o
  unfold packWord
  congr 1 <;> (repeat (first
    | exact extract_self _
    | refine (extract_append_in _ _ _ _ (by decide)).trans ?_
    | refine (extract_append_high _ _ _ _ (by decide)).trans ?_))

theorem wOps_packWord (op : BitVec 10) (o : WOps) : wOps (packWord op (.w o)) = o := by
  have h := ancOf_packWord op (.w o)
  unfold wOps
  rw [h]
  obtain ⟨d, m, n⟩ := o
  unfold packWord
  congr 1 <;> (repeat (first
    | exact extract_self _
    | refine (extract_append_in _ _ _ _ (by decide)).trans ?_
    | refine (extract_append_high _ _ _ _ (by decide)).trans ?_))

theorem bOps_packWord (op : BitVec 10) (o : BOps) : bOps (packWord op (.b o)) = o := by
  have h := ancOf_packWord op (.b o)
  unfold bOps
  rw [h]
  obtain ⟨f, m, n⟩ := o
  unfold packWord
  congr 1 <;> (repeat (first
    | exact extract_self _
    | refine (extract_append_in _ _ _ _ (by decide)).trans ?_
    | refine (extract_append_high _ _ _ _ (by decide)).trans ?_))

end Sys2Proof
end

