-- ==== Sys2Proof/Laws/Frames.lean ====
section
/-! SUPPORT. What the shared operations over near caches, keys, claims and the start of clauses can do: one lemma each, and what they leave. -/

namespace Sys2Proof.Machine

variable (s : State)

/-- Two states that hold the same bytes everywhere: memory, tile store, operand buffer, and both escrows. -/
structure SameBytes (s t : State) : Prop where
  mem    : t.mem = s.mem
  tile   : t.tile = s.tile
  opbuf  : t.opbuf = s.opbuf
  escrow : t.escrow = s.escrow
  egress : t.egress = s.egress

theorem SameBytes.refl : SameBytes s s := ⟨rfl, rfl, rfl, rfl, rfl⟩

theorem SameBytes.trans {s t u : State} (h : SameBytes s t) (k : SameBytes t u) : SameBytes s u :=
  ⟨k.mem.trans h.mem, k.tile.trans h.tile, k.opbuf.trans h.opbuf, k.escrow.trans h.escrow, k.egress.trans h.egress⟩

theorem State.modGrp_bytes (gi : Nat) (f : Group → Group) : SameBytes s (s.modGrp gi f) := ⟨rfl, rfl, rfl, rfl, rfl⟩

@[simp] theorem State.mapNear_groups (f : Nat → List NearLine → List NearLine) : (s.mapNear f).groups = s.groups := rfl
theorem State.mapNear_bytes (f : Nat → List NearLine → List NearLine) : SameBytes s (s.mapNear f) := ⟨rfl, rfl, rfl, rfl, rfl⟩

@[simp] theorem State.outdate_groups (who : List Nat) (bs : List (Nat × Byte)) : (s.outdate who bs).groups = s.groups := rfl
theorem State.outdate_bytes (who : List Nat) (bs : List (Nat × Byte)) : SameBytes s (s.outdate who bs) := s.mapNear_bytes _

/-- An acquire brings a group nothing but what it may no longer read from a near cache: no byte moves (R109, R118). -/
theorem State.acquire_bytes (gi scope : Nat) : SameBytes s (s.acquire gi scope) := by
  unfold State.acquire
  dsimp only
  split_ifs <;>
    first | exact .refl _ | exact s.mapNear_bytes _ | exact (s.mapNear_bytes _).trans (State.modGrp_bytes _ _ _) | exact s.modGrp_bytes _ _

@[simp] theorem State.unkey_groups (ps : List Nat) : (s.unkey ps).groups = s.groups := rfl
theorem State.unkey_bytes (ps : List Nat) : SameBytes s (s.unkey ps) := ⟨rfl, rfl, rfl, rfl, rfl⟩

/-- A block of CXL that has just been written under no world's key is read as it stands (R121, R329). -/
theorem State.unkey_spec {ps : List Nat} {p : Nat} (hp : p ∈ ps) (h : regionOf p = 1) (f : Nat) : (p / 16, f) ∉ (s.unkey ps).cxlKeys := by
  intro hm
  have := (List.mem_filter.mp hm).2
  simp only [Bool.not_eq_true', List.any_eq_false] at this
  exact this p hp (by simp [h])

/-- An endpoint given back is held no more where the free bit says so, and nothing but the claims and the bit's place changes (R439). -/
theorem State.giveBack_spec (ep : Nat) :
    s.giveBack ep = s ∨ (s.giveBack ep = s.draw.2 ∧ s.draw.1 = false) ∨
      s.giveBack ep = { s.draw.2 with fabric := { s.fabric with claims := s.fabric.claims.filter (fun c => c.1 ≠ ep) } } := by
  unfold State.giveBack
  dsimp only
  split_ifs with h k
  · exact .inr (.inr rfl)
  · exact .inr (.inl ⟨rfl, by simpa using k⟩)
  · exact .inl rfl

theorem State.giveBack_bytes (ep : Nat) : SameBytes s (s.giveBack ep) := by
  obtain h | ⟨h, -⟩ | h := s.giveBack_spec ep <;> rw [h] <;> exact ⟨rfl, rfl, rfl, rfl, rfl⟩

/-- A clause starts of itself on a core only as the first that can, before the clock named and before any word due there (R338, R345). -/
theorem State.startDue_spec {pkg before : Nat} {t : State} (h : s.startDue pkg before = some t) :
    ∃ gi q clk, s.firstStart pkg = some (gi, q, clk) ∧ clk < before ∧ (∀ d, s.dueClock pkg = some d → clk < d) ∧
      t = (s.advance pkg clk).beginClause gi := by
  unfold State.startDue at h
  split at h
  next gi q clk hf =>
    split at h
    next hc =>
      dsimp only at h
      split at h
      · exact absurd h (by simp)
      · refine ⟨gi, q, clk, hf, hc.1, fun d hd => ?_, (Option.some.inj h).symm⟩
        simpa [hd] using hc.2
    · exact absurd h (by simp)
  · exact absurd h (by simp)

end Sys2Proof.Machine
end

