-- ==== Sys2Proof/Laws/Memory.lean ====
section
/-! SUPPORT. Every operation on a memory keeps its canonical form, and what a byte reads as after one; the same of the hub's registers. -/

namespace Sys2Proof.Machine

/-! Lists of cells -/

theorem wfFrom_mono {lo hi : Nat} {cs : List Host.Cell} (h : Memory.wfFrom hi cs = true) (l : lo ≤ hi) : Memory.wfFrom lo cs = true := by
  cases cs with
  | nil => rfl
  | cons c cs =>
    simp only [Memory.wfFrom, Bool.and_eq_true, decide_eq_true_eq] at h ⊢
    exact ⟨⟨Nat.le_trans l h.1.1, h.1.2⟩, h.2⟩

theorem getCell_below {lo a : Nat} {cs : List Host.Cell} (h : Memory.wfFrom lo cs = true) (l : a < lo) : getCell cs a = 0 := by
  induction cs generalizing lo with
  | nil => rfl
  | cons c cs ih =>
    simp only [Memory.wfFrom, Bool.and_eq_true, decide_eq_true_eq] at h
    rw [getCell, if_neg (by omega)]
    exact ih h.2 (by omega)

theorem putCell_wfFrom {lo a : Nat} {b : Byte} {cs : List Host.Cell} (h : Memory.wfFrom lo cs = true) (l : lo ≤ a) :
    Memory.wfFrom lo (putCell cs a b) = true := by
  induction cs generalizing lo with
  | nil =>
    unfold putCell
    split
    · rfl
    · simp only [Memory.wfFrom, Bool.and_eq_true, decide_eq_true_eq]
      exact ⟨⟨l, ‹_›⟩, trivial⟩
  | cons c cs ih =>
    simp only [Memory.wfFrom, Bool.and_eq_true, decide_eq_true_eq] at h
    obtain ⟨⟨h1, h2⟩, h3⟩ := h
    unfold putCell
    split
    · split
      · simp only [Memory.wfFrom, Bool.and_eq_true, decide_eq_true_eq]
        exact ⟨⟨h1, h2⟩, h3⟩
      · simp only [Memory.wfFrom, Bool.and_eq_true, decide_eq_true_eq]
        exact ⟨⟨l, ‹_›⟩, ⟨by omega, h2⟩, h3⟩
    · split
      · subst a
        split
        · exact wfFrom_mono h3 (by omega)
        · simp only [Memory.wfFrom, Bool.and_eq_true, decide_eq_true_eq]
          exact ⟨⟨l, ‹_›⟩, h3⟩
      · simp only [Memory.wfFrom, Bool.and_eq_true, decide_eq_true_eq]
        exact ⟨⟨h1, h2⟩, ih h3 (by omega)⟩

theorem getCell_putCell {lo a x : Nat} {b : Byte} {cs : List Host.Cell} (h : Memory.wfFrom lo cs = true) :
    getCell (putCell cs a b) x = if x = a then b else getCell cs x := by
  induction cs generalizing lo with
  | nil =>
    unfold putCell
    by_cases hb : b = 0
    · rw [if_pos hb]
      by_cases hx : x = a
      · rw [if_pos hx, getCell, hb]
      · rw [if_neg hx]
    · rw [if_neg hb]
      by_cases hx : x = a
      · simp only [getCell, if_pos hx, if_pos hx.symm]
      · simp only [getCell, if_neg hx, if_neg (Ne.symm hx)]
  | cons c cs ih =>
    simp only [Memory.wfFrom, Bool.and_eq_true, decide_eq_true_eq] at h
    obtain ⟨⟨h1, h2⟩, h3⟩ := h
    unfold putCell
    split
    · rename_i lt
      by_cases hb : b = 0
      · rw [if_pos hb]
        by_cases hx : x = a
        · subst x
          rw [if_pos rfl, getCell, if_neg (by omega), hb]
          exact getCell_below h3 (by omega)
        · rw [if_neg hx]
      · rw [if_neg hb, getCell]
        by_cases hx : x = a
        · rw [if_pos hx, if_pos hx.symm]
        · rw [if_neg hx, if_neg (Ne.symm hx)]
    · split
      · subst a
        by_cases hb : b = 0
        · rw [if_pos hb]
          by_cases hx : x = c.1
          · subst x
            rw [if_pos rfl, hb]
            exact getCell_below h3 (by omega)
          · rw [if_neg hx, getCell, if_neg (by omega)]
        · rw [if_neg hb, getCell, getCell]
          by_cases hx : x = c.1
          · rw [if_pos hx, if_pos hx.symm]
          · rw [if_neg hx, if_neg (Ne.symm hx), if_neg (Ne.symm hx)]
      · rename_i ne
        rw [getCell, getCell, ih h3]
        by_cases hx : c.1 = x
        · rw [if_pos hx, if_pos hx, if_neg (by omega)]
        · rw [if_neg hx, if_neg hx]

theorem filter_wfFrom {lo : Nat} {cs : List Host.Cell} (p : Host.Cell → Bool) (h : Memory.wfFrom lo cs = true) :
    Memory.wfFrom lo (cs.filter p) = true := by
  induction cs generalizing lo with
  | nil => rfl
  | cons c cs ih =>
    simp only [Memory.wfFrom, Bool.and_eq_true, decide_eq_true_eq] at h
    rw [List.filter_cons]
    split
    · simp only [Memory.wfFrom, Bool.and_eq_true, decide_eq_true_eq]
      exact ⟨h.1, ih h.2⟩
    · exact wfFrom_mono (ih h.2) (by omega)

/-! Memories -/

theorem Memory.put_wf {m : Memory} (h : m.wf = true) (a : Nat) (b : Byte) : (m.put a b).wf = true := putCell_wfFrom h (Nat.zero_le a)

theorem Memory.get_put {m : Memory} (h : m.wf = true) (a x : Nat) (b : Byte) : (m.put a b).get x = if x = a then b else m.get x :=
  getCell_putCell h

theorem Memory.write_wf {m : Memory} (h : m.wf = true) (a : Nat) (bs : List Byte) : (m.write a bs).wf = true := by
  induction bs generalizing m a with
  | nil => exact h
  | cons b bs ih => exact ih (Memory.put_wf h a b) (a + 1)

theorem Memory.putWord_wf {m : Memory} (h : m.wf = true) (a : Nat) (w : W64) : (m.putWord a w).wf = true := Memory.write_wf h a _

theorem Memory.putSector_wf {m : Memory} (h : m.wf = true) (a : Nat) (d : List (Option Byte)) : (m.putSector a d).wf = true := by
  induction d generalizing m a with
  | nil => exact h
  | cons b bs ih =>
    cases b with
    | none => exact ih h (a + 1)
    | some b => exact ih (Memory.put_wf h a b) (a + 1)

theorem Memory.filter_wf {m : Memory} (h : m.wf = true) (p : Host.Cell → Bool) : (Memory.mk (m.cells.filter p)).wf = true :=
  filter_wfFrom p h

theorem State.reset_memories : State.reset.mem.wf = true ∧ State.reset.tile.wf = true ∧ State.reset.opbuf.wf = true := ⟨rfl, rfl, rfl⟩

/-! The hub's registers -/

theorem regsFrom_mono {lo hi : Nat} {cs : List (Nat × W64)} (h : regsFrom hi cs = true) (l : lo ≤ hi) : regsFrom lo cs = true := by
  cases cs with
  | nil => rfl
  | cons c cs =>
    simp only [regsFrom, Bool.and_eq_true, decide_eq_true_eq] at h ⊢
    exact ⟨⟨Nat.le_trans l h.1.1, h.1.2⟩, h.2⟩

theorem getReg_below {lo a : Nat} {cs : List (Nat × W64)} (h : regsFrom lo cs = true) (l : a < lo) : getReg cs a = regReset a := by
  induction cs generalizing lo with
  | nil => rfl
  | cons c cs ih =>
    simp only [regsFrom, Bool.and_eq_true, decide_eq_true_eq] at h
    rw [getReg, if_neg (by omega)]
    exact ih h.2 (by omega)

theorem putReg_regsFrom {lo a : Nat} {v : W64} {cs : List (Nat × W64)} (h : regsFrom lo cs = true) (l : lo ≤ a) :
    regsFrom lo (putReg cs a v) = true := by
  induction cs generalizing lo with
  | nil =>
    unfold putReg
    split
    · rfl
    · simp only [regsFrom, Bool.and_eq_true, decide_eq_true_eq]
      exact ⟨⟨l, ‹_›⟩, trivial⟩
  | cons c cs ih =>
    simp only [regsFrom, Bool.and_eq_true, decide_eq_true_eq] at h
    obtain ⟨⟨h1, h2⟩, h3⟩ := h
    unfold putReg
    split
    · split
      · simp only [regsFrom, Bool.and_eq_true, decide_eq_true_eq]
        exact ⟨⟨h1, h2⟩, h3⟩
      · simp only [regsFrom, Bool.and_eq_true, decide_eq_true_eq]
        exact ⟨⟨l, ‹_›⟩, ⟨by omega, h2⟩, h3⟩
    · split
      · subst a
        split
        · exact regsFrom_mono h3 (by omega)
        · simp only [regsFrom, Bool.and_eq_true, decide_eq_true_eq]
          exact ⟨⟨l, ‹_›⟩, h3⟩
      · simp only [regsFrom, Bool.and_eq_true, decide_eq_true_eq]
        exact ⟨⟨h1, h2⟩, ih h3 (by omega)⟩

theorem getReg_putReg {lo a x : Nat} {v : W64} {cs : List (Nat × W64)} (h : regsFrom lo cs = true) :
    getReg (putReg cs a v) x = if x = a then v else getReg cs x := by
  induction cs generalizing lo with
  | nil =>
    unfold putReg
    by_cases hv : v = regReset a
    · rw [if_pos hv]
      by_cases hx : x = a
      · rw [if_pos hx, getReg, hv, hx]
      · rw [if_neg hx]
    · rw [if_neg hv]
      by_cases hx : x = a
      · simp only [getReg, if_pos hx, if_pos hx.symm]
      · simp only [getReg, if_neg hx, if_neg (Ne.symm hx)]
  | cons c cs ih =>
    simp only [regsFrom, Bool.and_eq_true, decide_eq_true_eq] at h
    obtain ⟨⟨h1, h2⟩, h3⟩ := h
    unfold putReg
    split
    · by_cases hv : v = regReset a
      · rw [if_pos hv]
        by_cases hx : x = a
        · subst x
          rw [if_pos rfl, getReg, if_neg (by omega), hv]
          exact getReg_below h3 (by omega)
        · rw [if_neg hx]
      · rw [if_neg hv, getReg]
        by_cases hx : x = a
        · rw [if_pos hx, if_pos hx.symm]
        · rw [if_neg hx, if_neg (Ne.symm hx)]
    · split
      · subst a
        by_cases hv : v = regReset c.1
        · rw [if_pos hv]
          by_cases hx : x = c.1
          · subst x
            rw [if_pos rfl, hv]
            exact getReg_below h3 (by omega)
          · rw [if_neg hx, getReg, if_neg (by omega)]
        · rw [if_neg hv, getReg, getReg]
          by_cases hx : x = c.1
          · rw [if_pos hx, if_pos hx.symm]
          · rw [if_neg hx, if_neg (Ne.symm hx), if_neg (Ne.symm hx)]
      · rw [getReg, getReg, ih h3]
        by_cases hx : c.1 = x
        · rw [if_pos hx, if_pos hx, if_neg (by omega)]
        · rw [if_neg hx, if_neg hx]

end Sys2Proof.Machine
end

