-- ==== Sys2Proof/Laws/PerInstr.lean ====
section
/-! SUPPORT. The family Encode: a well-formed instruction has a word, and its word decodes to it. One lemma per constructor. -/

namespace Sys2Proof.Laws.Encode

open Sys2Proof.Machine

/-- A well-formed instruction has a word, which decodes to it with every field as it stands (R209, R210). -/
def Statement (i : Instr) : Prop := i.wellFormed = true → ∃ w, encode i = some w ∧ decodeRaw w = i

/-- A well-formed instruction's other fields are good ones (test 6 of R225). -/
theorem codesOk_of_wellFormed {i : Instr} (h : i.wellFormed = true) : codesOk i = true := by
  unfold Instr.wellFormed staticTest at h
  cases hv : view i with
  | none => simp [hv] at h
  | some v =>
    cases hc : codesOk i with
    | true => rfl
    | false =>
      simp only [hv, hc] at h
      revert h
      cases v.res0Ok <;> cases v.regsOk <;> simp

theorem nop (o : VOps) : Statement (.nop o) := fun _ => ⟨packWord 0x000 (.v o), rfl, by
  unfold decodeRaw; rw [opOf_packWord, vOps_packWord]; rfl⟩
theorem bra (o : BOps) : Statement (.bra o) := fun _ => ⟨packWord 0x001 (.b o), rfl, by
  unfold decodeRaw; rw [opOf_packWord, bOps_packWord]; rfl⟩
theorem jmpi (o : VOps) : Statement (.jmpi o) := fun _ => ⟨packWord 0x002 (.v o), rfl, by
  unfold decodeRaw; rw [opOf_packWord, vOps_packWord]; rfl⟩
theorem call (o : BOps) : Statement (.call o) := fun _ => ⟨packWord 0x003 (.b o), rfl, by
  unfold decodeRaw; rw [opOf_packWord, bOps_packWord]; rfl⟩
theorem ret (o : VOps) : Statement (.ret o) := fun _ => ⟨packWord 0x004 (.v o), rfl, by
  unfold decodeRaw; rw [opOf_packWord, vOps_packWord]; rfl⟩
theorem exit (o : VOps) : Statement (.exit o) := fun _ => ⟨packWord 0x005 (.v o), rfl, by
  unfold decodeRaw; rw [opOf_packWord, vOps_packWord]; rfl⟩
theorem trap (o : IOps) : Statement (.trap o) := fun _ => ⟨packWord 0x006 (.i o), rfl, by
  unfold decodeRaw; rw [opOf_packWord, iOps_packWord]; rfl⟩
theorem tret (o : VOps) : Statement (.tret o) := fun _ => ⟨packWord 0x007 (.v o), rfl, by
  unfold decodeRaw; rw [opOf_packWord, vOps_packWord]; rfl⟩
theorem suspendCounter (o : VOps) : Statement (.suspendCounter o) := fun h => ⟨packWord 0x008 (.v o), rfl, by
  have hk : o.mod.extractLsb' 0 2 = 0 := by
    have := codesOk_of_wellFormed h
    simp only [codesOk, bitsN, beq_iff_eq] at this
    exact BitVec.eq_of_toNat_eq this
  unfold decodeRaw; rw [opOf_packWord, vOps_packWord]
  show decodeSuspend o = _
  simp [decodeSuspend, hk]⟩
theorem suspendTill (o : VOps) : Statement (.suspendTill o) := fun h => ⟨packWord 0x008 (.v o), rfl, by
  have hk : o.mod.extractLsb' 0 2 = 1 := by
    have := codesOk_of_wellFormed h
    simp only [codesOk, bitsN, beq_iff_eq] at this
    exact BitVec.eq_of_toNat_eq this
  unfold decodeRaw; rw [opOf_packWord, vOps_packWord]
  show decodeSuspend o = _
  simp [decodeSuspend, hk]⟩
theorem suspendMonitor (o : VOps) : Statement (.suspendMonitor o) := fun h => ⟨packWord 0x008 (.v o), rfl, by
  have hk : o.mod.extractLsb' 0 2 = 2 := by
    have := codesOk_of_wellFormed h
    simp only [codesOk, bitsN, beq_iff_eq] at this
    exact BitVec.eq_of_toNat_eq this
  unfold decodeRaw; rw [opOf_packWord, vOps_packWord]
  show decodeSuspend o = _
  simp [decodeSuspend, hk]⟩
theorem yield (o : VOps) : Statement (.yield o) := fun _ => ⟨packWord 0x009 (.v o), rfl, by
  unfold decodeRaw; rw [opOf_packWord, vOps_packWord]; rfl⟩
theorem grow (o : IOps) : Statement (.grow o) := fun _ => ⟨packWord 0x00A (.i o), rfl, by
  unfold decodeRaw; rw [opOf_packWord, iOps_packWord]; rfl⟩
theorem shrink (o : IOps) : Statement (.shrink o) := fun _ => ⟨packWord 0x00B (.i o), rfl, by
  unfold decodeRaw; rw [opOf_packWord, iOps_packWord]; rfl⟩
theorem bart (o : IOps) : Statement (.bart o) := fun _ => ⟨packWord 0x00C (.i o), rfl, by
  unfold decodeRaw; rw [opOf_packWord, iOps_packWord]; rfl⟩
theorem barc (o : IOps) : Statement (.barc o) := fun _ => ⟨packWord 0x00D (.i o), rfl, by
  unfold decodeRaw; rw [opOf_packWord, iOps_packWord]; rfl⟩
theorem barg (o : IOps) : Statement (.barg o) := fun _ => ⟨packWord 0x00E (.i o), rfl, by
  unfold decodeRaw; rw [opOf_packWord, iOps_packWord]; rfl⟩
theorem spawn (o : VOps) : Statement (.spawn o) := fun _ => ⟨packWord 0x00F (.v o), rfl, by
  unfold decodeRaw; rw [opOf_packWord, vOps_packWord]; rfl⟩
theorem signal (o : VOps) : Statement (.signal o) := fun _ => ⟨packWord 0x010 (.v o), rfl, by
  unfold decodeRaw; rw [opOf_packWord, vOps_packWord]; rfl⟩
theorem wake (o : VOps) : Statement (.wake o) := fun _ => ⟨packWord 0x011 (.v o), rfl, by
  unfold decodeRaw; rw [opOf_packWord, vOps_packWord]; rfl⟩
theorem deposit (o : VOps) : Statement (.deposit o) := fun _ => ⟨packWord 0x012 (.v o), rfl, by
  unfold decodeRaw; rw [opOf_packWord, vOps_packWord]; rfl⟩
theorem join (o : VOps) : Statement (.join o) := fun _ => ⟨packWord 0x013 (.v o), rfl, by
  unfold decodeRaw; rw [opOf_packWord, vOps_packWord]; rfl⟩
theorem evrd (o : VOps) : Statement (.evrd o) := fun _ => ⟨packWord 0x014 (.v o), rfl, by
  unfold decodeRaw; rw [opOf_packWord, vOps_packWord]; rfl⟩
theorem evadd (o : VOps) : Statement (.evadd o) := fun _ => ⟨packWord 0x015 (.v o), rfl, by
  unfold decodeRaw; rw [opOf_packWord, vOps_packWord]; rfl⟩
theorem sadd (o : VOps) : Statement (.sadd o) := fun _ => ⟨packWord 0x080 (.v o), rfl, by
  unfold decodeRaw; rw [opOf_packWord, vOps_packWord]; rfl⟩
theorem ssub (o : VOps) : Statement (.ssub o) := fun _ => ⟨packWord 0x081 (.v o), rfl, by
  unfold decodeRaw; rw [opOf_packWord, vOps_packWord]; rfl⟩
theorem smul (o : VOps) : Statement (.smul o) := fun _ => ⟨packWord 0x082 (.v o), rfl, by
  unfold decodeRaw; rw [opOf_packWord, vOps_packWord]; rfl⟩
theorem smulh (o : VOps) : Statement (.smulh o) := fun _ => ⟨packWord 0x083 (.v o), rfl, by
  unfold decodeRaw; rw [opOf_packWord, vOps_packWord]; rfl⟩
theorem sdiv (o : VOps) : Statement (.sdiv o) := fun _ => ⟨packWord 0x084 (.v o), rfl, by
  unfold decodeRaw; rw [opOf_packWord, vOps_packWord]; rfl⟩
theorem srem (o : VOps) : Statement (.srem o) := fun _ => ⟨packWord 0x085 (.v o), rfl, by
  unfold decodeRaw; rw [opOf_packWord, vOps_packWord]; rfl⟩
theorem sand (o : VOps) : Statement (.sand o) := fun _ => ⟨packWord 0x086 (.v o), rfl, by
  unfold decodeRaw; rw [opOf_packWord, vOps_packWord]; rfl⟩
theorem sor (o : VOps) : Statement (.sor o) := fun _ => ⟨packWord 0x087 (.v o), rfl, by
  unfold decodeRaw; rw [opOf_packWord, vOps_packWord]; rfl⟩
theorem sxor (o : VOps) : Statement (.sxor o) := fun _ => ⟨packWord 0x088 (.v o), rfl, by
  unfold decodeRaw; rw [opOf_packWord, vOps_packWord]; rfl⟩
theorem sshl (o : VOps) : Statement (.sshl o) := fun _ => ⟨packWord 0x089 (.v o), rfl, by
  unfold decodeRaw; rw [opOf_packWord, vOps_packWord]; rfl⟩
theorem sshr (o : VOps) : Statement (.sshr o) := fun _ => ⟨packWord 0x08A (.v o), rfl, by
  unfold decodeRaw; rw [opOf_packWord, vOps_packWord]; rfl⟩
theorem ssar (o : VOps) : Statement (.ssar o) := fun _ => ⟨packWord 0x08B (.v o), rfl, by
  unfold decodeRaw; rw [opOf_packWord, vOps_packWord]; rfl⟩
theorem smin (o : VOps) : Statement (.smin o) := fun _ => ⟨packWord 0x08C (.v o), rfl, by
  unfold decodeRaw; rw [opOf_packWord, vOps_packWord]; rfl⟩
theorem smax (o : VOps) : Statement (.smax o) := fun _ => ⟨packWord 0x08D (.v o), rfl, by
  unfold decodeRaw; rw [opOf_packWord, vOps_packWord]; rfl⟩
theorem scmp (o : VOps) : Statement (.scmp o) := fun _ => ⟨packWord 0x08E (.v o), rfl, by
  unfold decodeRaw; rw [opOf_packWord, vOps_packWord]; rfl⟩
theorem ssel (o : VOps) : Statement (.ssel o) := fun _ => ⟨packWord 0x08F (.v o), rfl, by
  unfold decodeRaw; rw [opOf_packWord, vOps_packWord]; rfl⟩
theorem smov (o : VOps) : Statement (.smov o) := fun _ => ⟨packWord 0x090 (.v o), rfl, by
  unfold decodeRaw; rw [opOf_packWord, vOps_packWord]; rfl⟩
theorem saddi (o : IOps) : Statement (.saddi o) := fun _ => ⟨packWord 0x091 (.i o), rfl, by
  unfold decodeRaw; rw [opOf_packWord, iOps_packWord]; rfl⟩
theorem smovi (o : WOps) : Statement (.smovi o) := fun _ => ⟨packWord 0x092 (.w o), rfl, by
  unfold decodeRaw; rw [opOf_packWord, wOps_packWord]; rfl⟩
theorem smovh (o : WOps) : Statement (.smovh o) := fun _ => ⟨packWord 0x093 (.w o), rfl, by
  unfold decodeRaw; rw [opOf_packWord, wOps_packWord]; rfl⟩
theorem spopc (o : VOps) : Statement (.spopc o) := fun _ => ⟨packWord 0x094 (.v o), rfl, by
  unfold decodeRaw; rw [opOf_packWord, vOps_packWord]; rfl⟩
theorem sclz (o : VOps) : Statement (.sclz o) := fun _ => ⟨packWord 0x095 (.v o), rfl, by
  unfold decodeRaw; rw [opOf_packWord, vOps_packWord]; rfl⟩
theorem sbfe (o : IOps) : Statement (.sbfe o) := fun _ => ⟨packWord 0x096 (.i o), rfl, by
  unfold decodeRaw; rw [opOf_packWord, iOps_packWord]; rfl⟩
theorem sbfi (o : IOps) : Statement (.sbfi o) := fun _ => ⟨packWord 0x097 (.i o), rfl, by
  unfold decodeRaw; rw [opOf_packWord, iOps_packWord]; rfl⟩
theorem iadd (o : VOps) : Statement (.iadd o) := fun _ => ⟨packWord 0x100 (.v o), rfl, by
  unfold decodeRaw; rw [opOf_packWord, vOps_packWord]; rfl⟩
theorem isub (o : VOps) : Statement (.isub o) := fun _ => ⟨packWord 0x101 (.v o), rfl, by
  unfold decodeRaw; rw [opOf_packWord, vOps_packWord]; rfl⟩
theorem imul (o : VOps) : Statement (.imul o) := fun _ => ⟨packWord 0x102 (.v o), rfl, by
  unfold decodeRaw; rw [opOf_packWord, vOps_packWord]; rfl⟩
theorem imulh (o : VOps) : Statement (.imulh o) := fun _ => ⟨packWord 0x103 (.v o), rfl, by
  unfold decodeRaw; rw [opOf_packWord, vOps_packWord]; rfl⟩
theorem imad (o : VOps) : Statement (.imad o) := fun _ => ⟨packWord 0x104 (.v o), rfl, by
  unfold decodeRaw; rw [opOf_packWord, vOps_packWord]; rfl⟩
theorem iaddmin (o : VOps) : Statement (.iaddmin o) := fun _ => ⟨packWord 0x105 (.v o), rfl, by
  unfold decodeRaw; rw [opOf_packWord, vOps_packWord]; rfl⟩
theorem iabs (o : VOps) : Statement (.iabs o) := fun _ => ⟨packWord 0x10E (.v o), rfl, by
  unfold decodeRaw; rw [opOf_packWord, vOps_packWord]; rfl⟩
theorem iaddi (o : IOps) : Statement (.iaddi o) := fun _ => ⟨packWord 0x115 (.i o), rfl, by
  unfold decodeRaw; rw [opOf_packWord, iOps_packWord]; rfl⟩
theorem idot4 (o : VOps) : Statement (.idot4 o) := fun _ => ⟨packWord 0x116 (.v o), rfl, by
  unfold decodeRaw; rw [opOf_packWord, vOps_packWord]; rfl⟩
theorem iand (o : VOps) : Statement (.iand o) := fun _ => ⟨packWord 0x106 (.v o), rfl, by
  unfold decodeRaw; rw [opOf_packWord, vOps_packWord]; rfl⟩
theorem ior (o : VOps) : Statement (.ior o) := fun _ => ⟨packWord 0x107 (.v o), rfl, by
  unfold decodeRaw; rw [opOf_packWord, vOps_packWord]; rfl⟩
theorem ixor (o : VOps) : Statement (.ixor o) := fun _ => ⟨packWord 0x108 (.v o), rfl, by
  unfold decodeRaw; rw [opOf_packWord, vOps_packWord]; rfl⟩
theorem ishl (o : VOps) : Statement (.ishl o) := fun _ => ⟨packWord 0x109 (.v o), rfl, by
  unfold decodeRaw; rw [opOf_packWord, vOps_packWord]; rfl⟩
theorem ishr (o : VOps) : Statement (.ishr o) := fun _ => ⟨packWord 0x10A (.v o), rfl, by
  unfold decodeRaw; rw [opOf_packWord, vOps_packWord]; rfl⟩
theorem isar (o : VOps) : Statement (.isar o) := fun _ => ⟨packWord 0x10B (.v o), rfl, by
  unfold decodeRaw; rw [opOf_packWord, vOps_packWord]; rfl⟩
theorem imin (o : VOps) : Statement (.imin o) := fun _ => ⟨packWord 0x10C (.v o), rfl, by
  unfold decodeRaw; rw [opOf_packWord, vOps_packWord]; rfl⟩
theorem imax (o : VOps) : Statement (.imax o) := fun _ => ⟨packWord 0x10D (.v o), rfl, by
  unfold decodeRaw; rw [opOf_packWord, vOps_packWord]; rfl⟩
theorem icmp (o : VOps) : Statement (.icmp o) := fun _ => ⟨packWord 0x10F (.v o), rfl, by
  unfold decodeRaw; rw [opOf_packWord, vOps_packWord]; rfl⟩
theorem isel (o : VOps) : Statement (.isel o) := fun _ => ⟨packWord 0x110 (.v o), rfl, by
  unfold decodeRaw; rw [opOf_packWord, vOps_packWord]; rfl⟩
theorem ipopc (o : VOps) : Statement (.ipopc o) := fun _ => ⟨packWord 0x111 (.v o), rfl, by
  unfold decodeRaw; rw [opOf_packWord, vOps_packWord]; rfl⟩
theorem iclz (o : VOps) : Statement (.iclz o) := fun _ => ⟨packWord 0x112 (.v o), rfl, by
  unfold decodeRaw; rw [opOf_packWord, vOps_packWord]; rfl⟩
theorem ibfe (o : IOps) : Statement (.ibfe o) := fun _ => ⟨packWord 0x113 (.i o), rfl, by
  unfold decodeRaw; rw [opOf_packWord, iOps_packWord]; rfl⟩
theorem ibfi (o : IOps) : Statement (.ibfi o) := fun _ => ⟨packWord 0x114 (.i o), rfl, by
  unfold decodeRaw; rw [opOf_packWord, iOps_packWord]; rfl⟩
theorem mov (o : VOps) : Statement (.mov o) := fun _ => ⟨packWord 0x117 (.v o), rfl, by
  unfold decodeRaw; rw [opOf_packWord, vOps_packWord]; rfl⟩
theorem movi (o : WOps) : Statement (.movi o) := fun _ => ⟨packWord 0x118 (.w o), rfl, by
  unfold decodeRaw; rw [opOf_packWord, wOps_packWord]; rfl⟩
theorem s2v (o : VOps) : Statement (.s2v o) := fun _ => ⟨packWord 0x119 (.v o), rfl, by
  unfold decodeRaw; rw [opOf_packWord, vOps_packWord]; rfl⟩
theorem v2s (o : VOps) : Statement (.v2s o) := fun _ => ⟨packWord 0x11A (.v o), rfl, by
  unfold decodeRaw; rw [opOf_packWord, vOps_packWord]; rfl⟩
theorem shfl (o : VOps) : Statement (.shfl o) := fun _ => ⟨packWord 0x11B (.v o), rfl, by
  unfold decodeRaw; rw [opOf_packWord, vOps_packWord]; rfl⟩
theorem shup (o : VOps) : Statement (.shup o) := fun _ => ⟨packWord 0x11C (.v o), rfl, by
  unfold decodeRaw; rw [opOf_packWord, vOps_packWord]; rfl⟩
theorem shdn (o : VOps) : Statement (.shdn o) := fun _ => ⟨packWord 0x11D (.v o), rfl, by
  unfold decodeRaw; rw [opOf_packWord, vOps_packWord]; rfl⟩
theorem shxor (o : VOps) : Statement (.shxor o) := fun _ => ⟨packWord 0x11E (.v o), rfl, by
  unfold decodeRaw; rw [opOf_packWord, vOps_packWord]; rfl⟩
theorem vote (o : VOps) : Statement (.vote o) := fun _ => ⟨packWord 0x11F (.v o), rfl, by
  unfold decodeRaw; rw [opOf_packWord, vOps_packWord]; rfl⟩
theorem reduce (o : VOps) : Statement (.reduce o) := fun _ => ⟨packWord 0x120 (.v o), rfl, by
  unfold decodeRaw; rw [opOf_packWord, vOps_packWord]; rfl⟩
theorem scan (o : VOps) : Statement (.scan o) := fun _ => ⟨packWord 0x121 (.v o), rfl, by
  unfold decodeRaw; rw [opOf_packWord, vOps_packWord]; rfl⟩
theorem tagof (o : VOps) : Statement (.tagof o) := fun _ => ⟨packWord 0x122 (.v o), rfl, by
  unfold decodeRaw; rw [opOf_packWord, vOps_packWord]; rfl⟩
theorem fadd (o : VOps) : Statement (.fadd o) := fun _ => ⟨packWord 0x180 (.v o), rfl, by
  unfold decodeRaw; rw [opOf_packWord, vOps_packWord]; rfl⟩
theorem fsub (o : VOps) : Statement (.fsub o) := fun _ => ⟨packWord 0x181 (.v o), rfl, by
  unfold decodeRaw; rw [opOf_packWord, vOps_packWord]; rfl⟩
theorem fmul (o : VOps) : Statement (.fmul o) := fun _ => ⟨packWord 0x182 (.v o), rfl, by
  unfold decodeRaw; rw [opOf_packWord, vOps_packWord]; rfl⟩
theorem ffma (o : VOps) : Statement (.ffma o) := fun _ => ⟨packWord 0x183 (.v o), rfl, by
  unfold decodeRaw; rw [opOf_packWord, vOps_packWord]; rfl⟩
theorem fmin (o : VOps) : Statement (.fmin o) := fun _ => ⟨packWord 0x184 (.v o), rfl, by
  unfold decodeRaw; rw [opOf_packWord, vOps_packWord]; rfl⟩
theorem fmax (o : VOps) : Statement (.fmax o) := fun _ => ⟨packWord 0x185 (.v o), rfl, by
  unfold decodeRaw; rw [opOf_packWord, vOps_packWord]; rfl⟩
theorem faddmin (o : VOps) : Statement (.faddmin o) := fun _ => ⟨packWord 0x186 (.v o), rfl, by
  unfold decodeRaw; rw [opOf_packWord, vOps_packWord]; rfl⟩
theorem fcmp (o : VOps) : Statement (.fcmp o) := fun _ => ⟨packWord 0x187 (.v o), rfl, by
  unfold decodeRaw; rw [opOf_packWord, vOps_packWord]; rfl⟩
theorem fclass (o : VOps) : Statement (.fclass o) := fun _ => ⟨packWord 0x188 (.v o), rfl, by
  unfold decodeRaw; rw [opOf_packWord, vOps_packWord]; rfl⟩
theorem frnd (o : VOps) : Statement (.frnd o) := fun _ => ⟨packWord 0x189 (.v o), rfl, by
  unfold decodeRaw; rw [opOf_packWord, vOps_packWord]; rfl⟩
theorem fscale (o : VOps) : Statement (.fscale o) := fun _ => ⟨packWord 0x18A (.v o), rfl, by
  unfold decodeRaw; rw [opOf_packWord, vOps_packWord]; rfl⟩
theorem pkadd (o : VOps) : Statement (.pkadd o) := fun _ => ⟨packWord 0x18B (.v o), rfl, by
  unfold decodeRaw; rw [opOf_packWord, vOps_packWord]; rfl⟩
theorem pkmul (o : VOps) : Statement (.pkmul o) := fun _ => ⟨packWord 0x18C (.v o), rfl, by
  unfold decodeRaw; rw [opOf_packWord, vOps_packWord]; rfl⟩
theorem pkfma (o : VOps) : Statement (.pkfma o) := fun _ => ⟨packWord 0x18D (.v o), rfl, by
  unfold decodeRaw; rw [opOf_packWord, vOps_packWord]; rfl⟩
theorem fdot2 (o : VOps) : Statement (.fdot2 o) := fun _ => ⟨packWord 0x18E (.v o), rfl, by
  unfold decodeRaw; rw [opOf_packWord, vOps_packWord]; rfl⟩
theorem fdot4 (o : VOps) : Statement (.fdot4 o) := fun _ => ⟨packWord 0x18F (.v o), rfl, by
  unfold decodeRaw; rw [opOf_packWord, vOps_packWord]; rfl⟩
theorem fdot8 (o : VOps) : Statement (.fdot8 o) := fun _ => ⟨packWord 0x190 (.v o), rfl, by
  unfold decodeRaw; rw [opOf_packWord, vOps_packWord]; rfl⟩
theorem cvt (o : VOps) : Statement (.cvt o) := fun _ => ⟨packWord 0x200 (.v o), rfl, by
  unfold decodeRaw; rw [opOf_packWord, vOps_packWord]; rfl⟩
theorem cvtsr (o : VOps) : Statement (.cvtsr o) := fun _ => ⟨packWord 0x201 (.v o), rfl, by
  unfold decodeRaw; rw [opOf_packWord, vOps_packWord]; rfl⟩
theorem qblk (o : VOps) : Statement (.qblk o) := fun _ => ⟨packWord 0x202 (.v o), rfl, by
  unfold decodeRaw; rw [opOf_packWord, vOps_packWord]; rfl⟩
theorem dqblk (o : VOps) : Statement (.dqblk o) := fun _ => ⟨packWord 0x203 (.v o), rfl, by
  unfold decodeRaw; rw [opOf_packWord, vOps_packWord]; rfl⟩
theorem rcp (o : VOps) : Statement (.rcp o) := fun _ => ⟨packWord 0x208 (.v o), rfl, by
  unfold decodeRaw; rw [opOf_packWord, vOps_packWord]; rfl⟩
theorem rsq (o : VOps) : Statement (.rsq o) := fun _ => ⟨packWord 0x209 (.v o), rfl, by
  unfold decodeRaw; rw [opOf_packWord, vOps_packWord]; rfl⟩
theorem sqrt (o : VOps) : Statement (.sqrt o) := fun _ => ⟨packWord 0x20A (.v o), rfl, by
  unfold decodeRaw; rw [opOf_packWord, vOps_packWord]; rfl⟩
theorem exp2 (o : VOps) : Statement (.exp2 o) := fun _ => ⟨packWord 0x20B (.v o), rfl, by
  unfold decodeRaw; rw [opOf_packWord, vOps_packWord]; rfl⟩
theorem log2 (o : VOps) : Statement (.log2 o) := fun _ => ⟨packWord 0x20C (.v o), rfl, by
  unfold decodeRaw; rw [opOf_packWord, vOps_packWord]; rfl⟩
theorem sinpi (o : VOps) : Statement (.sinpi o) := fun _ => ⟨packWord 0x20D (.v o), rfl, by
  unfold decodeRaw; rw [opOf_packWord, vOps_packWord]; rfl⟩
theorem cospi (o : VOps) : Statement (.cospi o) := fun _ => ⟨packWord 0x20E (.v o), rfl, by
  unfold decodeRaw; rw [opOf_packWord, vOps_packWord]; rfl⟩
theorem tanh (o : VOps) : Statement (.tanh o) := fun _ => ⟨packWord 0x20F (.v o), rfl, by
  unfold decodeRaw; rw [opOf_packWord, vOps_packWord]; rfl⟩
theorem rand (o : VOps) : Statement (.rand o) := fun _ => ⟨packWord 0x210 (.v o), rfl, by
  unfold decodeRaw; rw [opOf_packWord, vOps_packWord]; rfl⟩
theorem ldp (o : VOps) : Statement (.ldp o) := fun _ => ⟨packWord 0x280 (.v o), rfl, by
  unfold decodeRaw; rw [opOf_packWord, vOps_packWord]; rfl⟩
theorem stp (o : VOps) : Statement (.stp o) := fun _ => ⟨packWord 0x281 (.v o), rfl, by
  unfold decodeRaw; rw [opOf_packWord, vOps_packWord]; rfl⟩
theorem ldt (o : VOps) : Statement (.ldt o) := fun _ => ⟨packWord 0x282 (.v o), rfl, by
  unfold decodeRaw; rw [opOf_packWord, vOps_packWord]; rfl⟩
theorem stt (o : VOps) : Statement (.stt o) := fun _ => ⟨packWord 0x283 (.v o), rfl, by
  unfold decodeRaw; rw [opOf_packWord, vOps_packWord]; rfl⟩
theorem ldg (o : VOps) : Statement (.ldg o) := fun _ => ⟨packWord 0x284 (.v o), rfl, by
  unfold decodeRaw; rw [opOf_packWord, vOps_packWord]; rfl⟩
theorem stg (o : VOps) : Statement (.stg o) := fun _ => ⟨packWord 0x285 (.v o), rfl, by
  unfold decodeRaw; rw [opOf_packWord, vOps_packWord]; rfl⟩
theorem ldw (o : VOps) : Statement (.ldw o) := fun _ => ⟨packWord 0x286 (.v o), rfl, by
  unfold decodeRaw; rw [opOf_packWord, vOps_packWord]; rfl⟩
theorem atomt (o : VOps) : Statement (.atomt o) := fun _ => ⟨packWord 0x287 (.v o), rfl, by
  unfold decodeRaw; rw [opOf_packWord, vOps_packWord]; rfl⟩
theorem atomg (o : VOps) : Statement (.atomg o) := fun _ => ⟨packWord 0x288 (.v o), rfl, by
  unfold decodeRaw; rw [opOf_packWord, vOps_packWord]; rfl⟩
theorem atomp (o : VOps) : Statement (.atomp o) := fun _ => ⟨packWord 0x289 (.v o), rfl, by
  unfold decodeRaw; rw [opOf_packWord, vOps_packWord]; rfl⟩
theorem commit (o : VOps) : Statement (.commit o) := fun _ => ⟨packWord 0x28A (.v o), rfl, by
  unfold decodeRaw; rw [opOf_packWord, vOps_packWord]; rfl⟩
theorem abort (o : VOps) : Statement (.abort o) := fun _ => ⟨packWord 0x28B (.v o), rfl, by
  unfold decodeRaw; rw [opOf_packWord, vOps_packWord]; rfl⟩
theorem pfg (o : VOps) : Statement (.pfg o) := fun _ => ⟨packWord 0x28C (.v o), rfl, by
  unfold decodeRaw; rw [opOf_packWord, vOps_packWord]; rfl⟩
theorem bulk (o : VOps) : Statement (.bulk o) := fun _ => ⟨packWord 0x300 (.v o), rfl, by
  unfold decodeRaw; rw [opOf_packWord, vOps_packWord]; rfl⟩
theorem obres (o : VOps) : Statement (.obres o) := fun _ => ⟨packWord 0x301 (.v o), rfl, by
  unfold decodeRaw; rw [opOf_packWord, vOps_packWord]; rfl⟩
theorem obrel (o : VOps) : Statement (.obrel o) := fun _ => ⟨packWord 0x302 (.v o), rfl, by
  unfold decodeRaw; rw [opOf_packWord, vOps_packWord]; rfl⟩
theorem obload (o : VOps) : Statement (.obload o) := fun _ => ⟨packWord 0x303 (.v o), rfl, by
  unfold decodeRaw; rw [opOf_packWord, vOps_packWord]; rfl⟩
theorem modeM (o : VOps) : Statement (.modeM o) := fun h => ⟨packWord 0x304 (.v o), rfl, by
  unfold decodeRaw; rw [opOf_packWord, vOps_packWord]
  show decodeMode o = _
  rw [decodeMode, if_pos (show o.mod.getLsbD 0 = true from codesOk_of_wellFormed h)]⟩
theorem modeV (o : VOps) : Statement (.modeV o) := fun h => ⟨packWord 0x304 (.v o), rfl, by
  have hk : o.mod.getLsbD 0 = false := by simpa [codesOk] using codesOk_of_wellFormed h
  unfold decodeRaw; rw [opOf_packWord, vOps_packWord]
  show decodeMode o = _
  rw [decodeMode, if_neg (by rw [hk]; exact Bool.false_ne_true)]⟩
theorem mzero (o : VOps) : Statement (.mzero o) := fun _ => ⟨packWord 0x305 (.v o), rfl, by
  unfold decodeRaw; rw [opOf_packWord, vOps_packWord]; rfl⟩
theorem mop (o : IOps) : Statement (.mop o) := fun _ => ⟨packWord 0x306 (.i o), rfl, by
  unfold decodeRaw; rw [opOf_packWord, iOps_packWord]; rfl⟩
theorem msync (o : VOps) : Statement (.msync o) := fun _ => ⟨packWord 0x308 (.v o), rfl, by
  unfold decodeRaw; rw [opOf_packWord, vOps_packWord]; rfl⟩
theorem mdrain (o : VOps) : Statement (.mdrain o) := fun _ => ⟨packWord 0x307 (.v o), rfl, by
  unfold decodeRaw; rw [opOf_packWord, vOps_packWord]; rfl⟩
theorem rdsr (o : IOps) : Statement (.rdsr o) := fun _ => ⟨packWord 0x380 (.i o), rfl, by
  unfold decodeRaw; rw [opOf_packWord, iOps_packWord]; rfl⟩
theorem wrsr (o : IOps) : Statement (.wrsr o) := fun _ => ⟨packWord 0x381 (.i o), rfl, by
  unfold decodeRaw; rw [opOf_packWord, iOps_packWord]; rfl⟩
theorem brk (o : IOps) : Statement (.brk o) := fun _ => ⟨packWord 0x382 (.i o), rfl, by
  unfold decodeRaw; rw [opOf_packWord, iOps_packWord]; rfl⟩
theorem reservedOpcode (w : W64) : Statement (.reservedOpcode w) := fun h => nomatch h
theorem issueSlotGrant (core qtr : Nat) : Statement (.issueSlotGrant core qtr) := fun h => nomatch h
theorem clauseStart (g : Nat) : Statement (.clauseStart g) := fun h => nomatch h
theorem headerFetchFaultServiced (g : Nat) : Statement (.headerFetchFaultServiced g) := fun h => nomatch h
theorem admission (core qtr : Nat) : Statement (.admission core qtr) := fun h => nomatch h
theorem waitDemotion (g : Nat) : Statement (.waitDemotion g) := fun h => nomatch h
theorem asyncTrapTaken (g : Nat) : Statement (.asyncTrapTaken g) := fun h => nomatch h
theorem groupDeath (x : ExitStep) : Statement (.groupDeath x) := fun h => nomatch h
theorem launchPlacement (l : Nat) : Statement (.launchPlacement l) := fun h => nomatch h
theorem eviction (core qtr : Nat) : Statement (.eviction core qtr) := fun h => nomatch h
theorem gridBarrierMessage (m : Nat) : Statement (.gridBarrierMessage m) := fun h => nomatch h
theorem gridBarrierReleaseMsg (m : Nat) : Statement (.gridBarrierReleaseMsg m) := fun h => nomatch h
theorem nameRequestDelivery (r : Nat) : Statement (.nameRequestDelivery r) := fun h => nomatch h
theorem nameResendTimer (r : Nat) : Statement (.nameResendTimer r) := fun h => nomatch h
theorem nameRequestAnswered (r : Nat) : Statement (.nameRequestAnswered r) := fun h => nomatch h
theorem savedDelivery (r : Nat) : Statement (.savedDelivery r) := fun h => nomatch h
theorem joinAtHome (r : Nat) : Statement (.joinAtHome r) := fun h => nomatch h
theorem restore (g slot : Nat) : Statement (.restore g slot) := fun h => nomatch h
theorem moveInstallation (g : Nat) : Statement (.moveInstallation g) := fun h => nomatch h
theorem forcedHalt (g : Nat) : Statement (.forcedHalt g) := fun h => nomatch h
theorem loadComplete (g op : Nat) (mask : BitVec 64) (near : Bool) : Statement (.loadComplete g op mask near) := fun h => nomatch h
theorem commitComplete (g op : Nat) (sel : List Nat) : Statement (.commitComplete g op sel) := fun h => nomatch h
theorem releasePerform (g op : Nat) (sel : List Nat) : Statement (.releasePerform g op sel) := fun h => nomatch h
theorem atomicPerformed (g op : Nat) (order : List Nat) : Statement (.atomicPerformed g op order) := fun h => nomatch h
theorem vaultRoutineRun (g op lane : Nat) : Statement (.vaultRoutineRun g op lane) := fun h => nomatch h
theorem sfuComplete (g op : Nat) : Statement (.sfuComplete g op) := fun h => nomatch h
theorem mopComplete (core qtr : Nat) : Statement (.mopComplete core qtr) := fun h => nomatch h
theorem multiplyArrayIssue (g : Nat) : Statement (.multiplyArrayIssue g) := fun h => nomatch h
theorem obresComplete (g op : Nat) : Statement (.obresComplete g op) := fun h => nomatch h
theorem obloadComplete (g op : Nat) : Statement (.obloadComplete g op) := fun h => nomatch h
theorem mdrainReadComplete (g op : Nat) : Statement (.mdrainReadComplete g op) := fun h => nomatch h
theorem integrityCheckFail (g k : Nat) : Statement (.integrityCheckFail g k) := fun h => nomatch h
theorem requestListTaken (core : Nat) : Statement (.requestListTaken core) := fun h => nomatch h
theorem presenceClearAck (core queue : Nat) : Statement (.presenceClearAck core queue) := fun h => nomatch h
theorem engineEntryStart (core queue : Nat) : Statement (.engineEntryStart core queue) := fun h => nomatch h
theorem engineLineArrival (core queue : Nat) : Statement (.engineLineArrival core queue) := fun h => nomatch h
theorem engineEntryComplete (core queue : Nat) : Statement (.engineEntryComplete core queue) := fun h => nomatch h
theorem fenceComplete (core queue : Nat) : Statement (.fenceComplete core queue) := fun h => nomatch h
theorem pageWalkComplete (w : Nat) : Statement (.pageWalkComplete w) := fun h => nomatch h
theorem priResponse (r : Nat) (success : Bool) : Statement (.priResponse r success) := fun h => nomatch h
theorem atsInvalidate (func : Nat) (va pages : Nat) : Statement (.atsInvalidate func va pages) := fun h => nomatch h
theorem submit (func page off : Nat) (data : List Byte) (posted : Bool) : Statement (.submit func page off data posted) := fun h => nomatch h
theorem launch (q : Nat) : Statement (.launch q) := fun h => nomatch h
theorem tellerSignal (q : Nat) : Statement (.tellerSignal q) := fun h => nomatch h
theorem tellerDeposit (q : Nat) : Statement (.tellerDeposit q) := fun h => nomatch h
theorem copy (q : Nat) : Statement (.copy q) := fun h => nomatch h
theorem move (q : Nat) : Statement (.move q) := fun h => nomatch h
theorem kill (q : Nat) : Statement (.kill q) := fun h => nomatch h
theorem queueTableWrite (q word : Nat) (value : W64) : Statement (.queueTableWrite q word value) := fun h => nomatch h
theorem configure : Statement .configure := fun h => nomatch h
theorem retire : Statement .retire := fun h => nomatch h
theorem admitWorld : Statement .admitWorld := fun h => nomatch h
theorem depart : Statement .depart := fun h => nomatch h
theorem departComplete (func : Nat) : Statement (.departComplete func) := fun h => nomatch h
theorem invtlb : Statement .invtlb := fun h => nomatch h
theorem invname : Statement .invname := fun h => nomatch h
theorem assign : Statement .assign := fun h => nomatch h
theorem release : Statement .release := fun h => nomatch h
theorem relnames : Statement .relnames := fun h => nomatch h
theorem routine : Statement .routine := fun h => nomatch h
theorem partitionTableWrite (p word : Nat) (value : W64) : Statement (.partitionTableWrite p word value) := fun h => nomatch h
theorem registerWrite (off : Nat) (value : W64) : Statement (.registerWrite off value) := fun h => nomatch h
theorem tenantSliceEnd (p : Nat) : Statement (.tenantSliceEnd p) := fun h => nomatch h
theorem graceExpiry (g : Nat) : Statement (.graceExpiry g) := fun h => nomatch h
theorem clerkGraceExpiry (e : Nat) : Statement (.clerkGraceExpiry e) := fun h => nomatch h
theorem responseTaken (func : Nat) : Statement (.responseTaken func) := fun h => nomatch h
theorem packetTagFailure (p : FlowPacket) (kind : PacketKind) : Statement (.packetTagFailure p kind) := fun h => nomatch h
theorem softError (t : SoftTarget) : Statement (.softError t) := fun h => nomatch h
theorem treeNodeError (node port base frames : Nat) : Statement (.treeNodeError node port base frames) := fun h => nomatch h
theorem hostWriteArrival (pa : Nat) (data : List (Option Byte)) (release : Bool) : Statement (.hostWriteArrival pa data release) := fun h => nomatch h
theorem hostCxlMemAccess (pa : Nat) (write : Option (List Byte)) (bytes : Nat) : Statement (.hostCxlMemAccess pa write bytes) := fun h => nomatch h
theorem tdiError (func : Nat) : Statement (.tdiError func) := fun h => nomatch h
theorem getTdispVersion (func : Nat) : Statement (.getTdispVersion func) := fun h => nomatch h
theorem getTdispCapabilities (func : Nat) : Statement (.getTdispCapabilities func) := fun h => nomatch h
theorem lockInterfaceRequest (func : Nat) : Statement (.lockInterfaceRequest func) := fun h => nomatch h
theorem getDeviceInterfaceReport (func : Nat) : Statement (.getDeviceInterfaceReport func) := fun h => nomatch h
theorem getDeviceInterfaceState (func : Nat) : Statement (.getDeviceInterfaceState func) := fun h => nomatch h
theorem startInterfaceRequest (func : Nat) : Statement (.startInterfaceRequest func) := fun h => nomatch h
theorem stopInterfaceRequest (func : Nat) : Statement (.stopInterfaceRequest func) := fun h => nomatch h
theorem powerOnBoot : Statement .powerOnBoot := fun h => nomatch h
theorem mrExtend (n : Nat) (digest : BitVec 512) : Statement (.mrExtend n digest) := fun h => nomatch h
theorem fminRaise (svn : Nat) : Statement (.fminRaise svn) := fun h => nomatch h
theorem readyBitSet (b : ReadyBit) : Statement (.readyBitSet b) := fun h => nomatch h
theorem functionOutOfService (b : ReadyBit) : Statement (.functionOutOfService b) := fun h => nomatch h
theorem configRequest (func : Nat) : Statement (.configRequest func) := fun h => nomatch h
theorem getVersion : Statement .getVersion := fun h => nomatch h
theorem getCapabilities : Statement .getCapabilities := fun h => nomatch h
theorem negotiateAlgorithms (hash asym dhe : Bool) (sess : SessionAlgs) : Statement (.negotiateAlgorithms hash asym dhe sess) := fun h => nomatch h
theorem getDigests : Statement .getDigests := fun h => nomatch h
theorem getCertificate (off len : Nat) : Statement (.getCertificate off len) := fun h => nomatch h
theorem challenge (nonce : List Byte) : Statement (.challenge nonce) := fun h => nomatch h
theorem getMeasurements (blocks : List Nat) (nonce : List Byte) : Statement (.getMeasurements blocks nonce) := fun h => nomatch h
theorem keyExchange (dheKey : List Byte) : Statement (.keyExchange dheKey) := fun h => nomatch h
theorem finish (session : Nat) (mac : List Byte) : Statement (.finish session mac) := fun h => nomatch h
theorem keyUpdate (session : Nat) : Statement (.keyUpdate session) := fun h => nomatch h
theorem endSession (session : Nat) : Statement (.endSession session) := fun h => nomatch h
theorem ideKm (session stream : Nat) (key : List Byte) : Statement (.ideKm session stream key) := fun h => nomatch h
theorem spdmUnsupportedRequest (code : Nat) : Statement (.spdmUnsupportedRequest code) := fun h => nomatch h
theorem pldmDiscovery (code : Nat) : Statement (.pldmDiscovery code) := fun h => nomatch h
theorem pldmMonitoring (sensor : Nat) : Statement (.pldmMonitoring sensor) := fun h => nomatch h
theorem pldmFirmwareUpdate (off : Nat) (data : List Byte) : Statement (.pldmFirmwareUpdate off data) := fun h => nomatch h
theorem activateFirmware : Statement .activateFirmware := fun h => nomatch h
theorem fabricRequest (ep off : Nat) (op : FabricOp) : Statement (.fabricRequest ep off op) := fun h => nomatch h
theorem planeDead (l : FabricLink) : Statement (.planeDead l) := fun h => nomatch h
theorem heartbeatSend : Statement .heartbeatSend := fun h => nomatch h
theorem peerSilent (n : Nat) : Statement (.peerSilent n) := fun h => nomatch h
theorem endpointClaimAck (ep plane : Nat) : Statement (.endpointClaimAck ep plane) := fun h => nomatch h
theorem windowEntryWrite (n : Nat) (value : W64) : Statement (.windowEntryWrite n value) := fun h => nomatch h
theorem collectiveSubmit (value : W64) : Statement (.collectiveSubmit value) := fun h => nomatch h
theorem collectiveComplete (c : Nat) : Statement (.collectiveComplete c) := fun h => nomatch h
theorem dramRefresh (vault : Nat) : Statement (.dramRefresh vault) := fun h => nomatch h
theorem egressEscrowDrain (k : Nat) : Statement (.egressEscrowDrain k) := fun h => nomatch h
theorem storeComplete (g op : Nat) : Statement (.storeComplete g op) := fun h => nomatch h
theorem prefetchComplete (g op : Nat) : Statement (.prefetchComplete g op) := fun h => nomatch h
theorem abortComplete (g op : Nat) : Statement (.abortComplete g op) := fun h => nomatch h
theorem integrityCheckPass (g k : Nat) : Statement (.integrityCheckPass g k) := fun h => nomatch h
theorem heartbeatArrival (ep : Nat) : Statement (.heartbeatArrival ep) := fun h => nomatch h
theorem atsTranslationCompletion (r : Nat) (granted : Option (Nat × Bool)) : Statement (.atsTranslationCompletion r granted) := fun h => nomatch h
theorem clerkResponse (e : Nat) (handled : Bool) (act : Nat) : Statement (.clerkResponse e handled act) := fun h => nomatch h
theorem eventRingConsumed (func : Nat) (cons : W64) : Statement (.eventRingConsumed func cons) := fun h => nomatch h

end Sys2Proof.Laws.Encode
end

