-- ==== Sys2Proof/Laws/Registers.lean ====
section
/-! SUPPORT. Fields of words and registers of the hub: what a write of one leaves in every other. -/

namespace Sys2Proof.Machine

/-! Fields of a word -/

theorem getLsbD_setBits {n : Nat} (x : BitVec n) (hi lo v i : Nat) (h : hi < n) :
    (setBits x hi lo v).getLsbD i = if lo ≤ i ∧ i ≤ hi then v.testBit (i - lo) else x.getLsbD i := by
  have hm : ∀ j, (BitVec.ofNat n ((2 ^ (hi + 1 - lo) - 1) <<< lo)).getLsbD j = (decide (j < n) && (decide (lo ≤ j) && decide (j - lo < hi + 1 - lo))) := by
    intro j
    rw [BitVec.getLsbD_ofNat, Nat.testBit_shiftLeft, Nat.testBit_two_pow_sub_one]
  simp only [setBits, BitVec.getLsbD_or, BitVec.getLsbD_and, BitVec.getLsbD_not, hm, BitVec.getLsbD_ofNat, Nat.testBit_shiftLeft]
  by_cases hi' : i < n
  · by_cases h1 : lo ≤ i <;> by_cases h2 : i ≤ hi
    · have h3 : i - lo < hi + 1 - lo := by omega
      simp [hi', h1, h2, h3]
    · have h3 : ¬ i - lo < hi + 1 - lo := by omega
      simp [hi', h1, h2, h3]
    · simp [hi', h1]
    · simp [hi', h1]
  · have h2 : ¬ i ≤ hi := by omega
    simp [hi', h2, BitVec.getLsbD_of_ge x i (by omega)]

theorem testBit_bitsN {n : Nat} (x : BitVec n) (hi lo i : Nat) : (bitsN x hi lo).testBit i = (decide (i < hi + 1 - lo) && x.getLsbD (lo + i)) := by
  rw [bitsN, BitVec.testBit_toNat, BitVec.getLsbD_extractLsb']

/-- A field written reads back, cut to its width. -/
theorem bitsN_setBits {n : Nat} (x : BitVec n) (hi lo v : Nat) (h : hi < n) (l : lo ≤ hi) : bitsN (setBits x hi lo v) hi lo = v % 2 ^ (hi + 1 - lo) := by
  apply Nat.eq_of_testBit_eq
  intro i
  rw [testBit_bitsN, getLsbD_setBits x hi lo v _ h, Nat.testBit_mod_two_pow]
  by_cases hi' : i < hi + 1 - lo
  · rw [if_pos (by omega), Nat.add_sub_cancel_left]
  · simp [hi']

/-- A field written leaves every field beside it. -/
theorem bitsN_setBits_ne {n : Nat} (x : BitVec n) (hi lo v h2 l2 : Nat) (h : hi < n) (d : h2 < lo ∨ hi < l2) (l : l2 ≤ h2) :
    bitsN (setBits x hi lo v) h2 l2 = bitsN x h2 l2 := by
  apply Nat.eq_of_testBit_eq
  intro i
  rw [testBit_bitsN, testBit_bitsN, getLsbD_setBits x hi lo v _ h]
  by_cases hi' : i < h2 + 1 - l2
  · rw [if_neg (by omega)]
  · simp [hi']

theorem bitAt_setBits {n : Nat} (x : BitVec n) (hi lo v i : Nat) (h : hi < n) :
    bitAt (setBits x hi lo v) i = if lo ≤ i ∧ i ≤ hi then v.testBit (i - lo) else bitAt x i := getLsbD_setBits x hi lo v i h

/-! Registers of the hub -/

theorem regsOk_setReg {s : State} (h : regsOk s) (off : Nat) (v : W64) : regsOk (s.setReg off v) := putReg_regsFrom h (Nat.zero_le off)

theorem State.reg_setReg {s : State} (h : regsOk s) (off o : Nat) (v : W64) : (s.setReg off v).reg o = if o = off then v else s.reg o :=
  getReg_putReg h

theorem regsOk_setRegN {s : State} (h : regsOk s) (off hi lo v : Nat) : regsOk (s.setRegN off hi lo v) := regsOk_setReg h off _

/-- A field written reads back; the other fields of its register, and every other register, read as before. -/
theorem State.regN_setRegN {s : State} (h : regsOk s) (off hi lo v : Nat) (b : hi < 64) (l : lo ≤ hi) :
    (s.setRegN off hi lo v).regN off hi lo = v % 2 ^ (hi + 1 - lo) := by
  rw [State.regN, State.setRegN, State.reg_setReg h, if_pos rfl, bitsN_setBits _ _ _ _ b l]

theorem State.regN_setRegN_field {s : State} (h : regsOk s) (off hi lo v h2 l2 : Nat) (b : hi < 64) (d : h2 < lo ∨ hi < l2) (l : l2 ≤ h2) :
    (s.setRegN off hi lo v).regN off h2 l2 = s.regN off h2 l2 := by
  rw [State.regN, State.setRegN, State.reg_setReg h, if_pos rfl, bitsN_setBits_ne _ _ _ _ _ _ b d l, State.regN]

theorem State.reg_setRegN_ne {s : State} (h : regsOk s) {off o : Nat} (n : o ≠ off) (hi lo v : Nat) : (s.setRegN off hi lo v).reg o = s.reg o := by
  rw [State.setRegN, State.reg_setReg h, if_neg n]

theorem State.regN_setRegN_ne {s : State} (h : regsOk s) {off o : Nat} (n : o ≠ off) (hi lo v h2 l2 : Nat) :
    (s.setRegN off hi lo v).regN o h2 l2 = s.regN o h2 l2 := by
  rw [State.regN, State.reg_setRegN_ne h n, State.regN]

theorem State.regN_setReg_ne {s : State} (h : regsOk s) {off o : Nat} (n : o ≠ off) (v : W64) (h2 l2 : Nat) :
    (s.setReg off v).regN o h2 l2 = s.regN o h2 l2 := by
  rw [State.regN, State.reg_setReg h, if_neg n, State.regN]

end Sys2Proof.Machine
end

