-- ==== Sys2Proof/Laws/Values.lean ====
section
/-! SUPPORT. Values: the functions of Flags.lean in the terms of the bit-vector operations that the claims use. -/

namespace Sys2Proof.Machine

theorem bitAt_eq {n : Nat} (x : BitVec n) (k : Nat) : bitAt x k = x.getLsbD k := rfl

/-- X(x) of the rules at any width. -/
def signed {w : Nat} (uns : Bool) (x : BitVec w) : Int := if uns then (x.toNat : Int) else x.toInt

theorem clamp64_limited (x : Int) : clamp64 x = limited 64 (-(2 ^ 63)) (2 ^ 63 - 1) x := by
  unfold clamp64 limited
  split
  · rw [show max (-(2 ^ 63)) (min (2 ^ 63 - 1) x) = 2 ^ 63 - 1 by omega, if_neg (by omega)]; rfl
  · split
    · rw [show max (-(2 ^ 63)) (min (2 ^ 63 - 1) x) = -2 ^ 63 by omega, if_neg (by omega)]; rfl
    · rw [show max (-(2 ^ 63)) (min (2 ^ 63 - 1) x) = x by omega, if_pos (by omega)]; rfl

theorem fit64_eq (sat : Bool) {x : Int} {y : W64} (h : BitVec.ofInt 64 x = y) :
    fit64 sat x = if sat then limited 64 (-(2 ^ 63)) (2 ^ 63 - 1) x else (y, 0) := by
  unfold fit64; rw [clamp64_limited, ← h]; rfl

/-- fitX on 32 bits. -/
theorem fit32_eq (sat uns : Bool) {x : Int} {y : W32} (h : BitVec.ofInt 32 x = y) :
    fit32 sat uns x =
      if sat then (if uns then limited 32 0 (2 ^ 32 - 1) x else limited 32 (-(2 ^ 31)) (2 ^ 31 - 1) x) else (y, 0) := by
  subst h
  unfold fit32 limited
  cases sat <;> cases uns <;> simp only [Bool.not_true, Bool.not_false, if_true, Bool.false_eq_true, if_false]
  · rfl
  · rfl
  · split
    · rw [show max (-(2 ^ 31)) (min (2 ^ 31 - 1) x) = 2 ^ 31 - 1 by omega, if_neg (by omega)]; rfl
    · split
      · rw [show max (-(2 ^ 31)) (min (2 ^ 31 - 1) x) = -2 ^ 31 by omega, if_neg (by omega)]; rfl
      · rw [show max (-(2 ^ 31)) (min (2 ^ 31 - 1) x) = x by omega, if_pos (by omega)]; rfl
  · split
    · rw [show max 0 (min (2 ^ 32 - 1) x) = 2 ^ 32 - 1 by omega, if_neg (by omega)]; rfl
    · split
      · rw [show max 0 (min (2 ^ 32 - 1) x) = 0 by omega, if_neg (by omega)]; rfl
      · rw [show max 0 (min (2 ^ 32 - 1) x) = x by omega, if_pos (by omega)]; rfl

theorem signed_lt {w : Nat} (uns : Bool) (a b : BitVec w) : signed uns a < signed uns b ↔ (if uns then a.ult b else a.slt b) = true := by
  cases uns <;> simp [signed, BitVec.ult, BitVec.slt]

theorem signed_inj {w : Nat} (uns : Bool) (a b : BitVec w) : signed uns a = signed uns b ↔ a = b := by
  cases uns
  · simp [signed, BitVec.toInt_inj]
  · simp [signed, BitVec.toNat_inj]

theorem condI_holds {w : Nat} (k : Nat) (uns : Bool) (a b : BitVec w) : condI k (signed uns a) (signed uns b) = holds k uns a b := by
  have e := signed_inj uns a b
  have l := signed_lt uns a b
  have g := signed_lt uns b a
  unfold holds
  generalize (if uns then a.ult b else a.slt b) = p at *
  generalize (if uns then b.ult a else b.slt a) = q at *
  rcases k with _ | _ | _ | _ | _ | k
  · rw [if_pos rfl]; simp [condI, e]; rfl
  · rw [if_neg (by omega), if_pos rfl]; simp only [condI, ne_eq, e, decide_not]; rfl
  · simp [condI, l]
  · simp [condI, ← not_lt, g]
  · simp [condI, g]
  · simp [condI, ← not_lt, l]

theorem lesser_eq {w : Nat} (uns : Bool) (a b : BitVec w) : (if signed uns b < signed uns a then b else a) = lesser uns a b :=
  if_congr (signed_lt uns b a) rfl rfl

theorem greater_eq {w : Nat} (uns : Bool) (a b : BitVec w) : (if signed uns a < signed uns b then b else a) = greater uns a b :=
  if_congr (signed_lt uns a b) rfl rfl

/-- The high half of a product: of the exact one, or of the product of the extended words. -/
theorem highProduct_eq {w : Nat} (uns : Bool) (a b : BitVec w) :
    BitVec.ofInt w (signed uns a * signed uns b / 2 ^ w) = highProduct uns a b := by
  have key : ∀ x : Int, BitVec.ofInt w (x / 2 ^ w) = (BitVec.ofInt (w + w) x).extractLsb' w w := by
    intro x
    apply BitVec.eq_of_toNat_eq
    rw [BitVec.extractLsb'_toNat, Nat.shiftRight_eq_div_pow, BitVec.toNat_ofInt, BitVec.toNat_ofInt]
    have h0 : (0 : Int) < 2 ^ w := by positivity
    have h1 : x % 2 ^ (w + w) = x - 2 ^ w * 2 ^ w * (x / 2 ^ (w + w)) := by
      rw [Int.emod_def, pow_add]
    zify
    rw [Int.toNat_of_nonneg (Int.emod_nonneg _ (by positivity)), Int.toNat_of_nonneg (Int.emod_nonneg _ (by positivity))]
    rw [h1]
    rw [show x - 2 ^ w * 2 ^ w * (x / 2 ^ (w + w)) = x + 2 ^ w * (-(2 ^ w * (x / 2 ^ (w + w)))) by ring,
      Int.add_mul_ediv_left _ _ (ne_of_gt h0), ← mul_neg, Int.add_mul_emod_self_left]
  rw [key, BitVec.ofInt_mul]
  cases uns
  · rfl
  · simp only [highProduct, signed, if_true]
    congr 2 <;> (apply BitVec.eq_of_toNat_eq; simp)

/-- Unsigned quotients and remainders, by numbers. -/
theorem tdiv_unsigned {w : Nat} (a b : BitVec w) : BitVec.ofInt w ((a.toNat : Int).tdiv b.toNat) = a.udiv b := by
  rw [Int.tdiv_eq_ediv_of_nonneg (by omega), ← Int.natCast_ediv]
  apply BitVec.eq_of_toNat_eq
  rw [BitVec.ofInt_natCast, BitVec.toNat_ofNat, ← BitVec.toNat_udiv]
  exact Nat.mod_eq_of_lt (BitVec.isLt _)

theorem tmod_unsigned {w : Nat} (a b : BitVec w) : BitVec.ofInt w ((a.toNat : Int).tmod b.toNat) = a.umod b := by
  rw [Int.tmod_eq_emod_of_nonneg (by omega), ← Int.natCast_emod]
  apply BitVec.eq_of_toNat_eq
  rw [BitVec.ofInt_natCast, BitVec.toNat_ofNat, ← BitVec.toNat_umod]
  exact Nat.mod_eq_of_lt (BitVec.isLt _)

theorem tdiv_signed {w : Nat} (a b : BitVec w) : BitVec.ofInt w (a.toInt.tdiv b.toInt) = a.sdiv b := by
  apply BitVec.eq_of_toInt_eq
  rw [BitVec.toInt_ofInt, BitVec.toInt_sdiv]

theorem tmod_signed {w : Nat} (a b : BitVec w) : BitVec.ofInt w (a.toInt.tmod b.toInt) = a.srem b := by
  rw [← BitVec.toInt_srem, BitVec.ofInt_toInt]

/-- Leading zeros: the place of the first one bit from the top. -/
theorem leadZeros_eq {w : Nat} (a : BitVec w) : leadZeros a = (List.range w).findIdx (fun j => a.getMsbD j) := by
  unfold leadZeros
  by_cases h : a.toNat = 0
  · rw [if_pos h, Nat.sub_zero]
    symm
    have : a = 0#w := BitVec.eq_of_toNat_eq (by simpa using h)
    subst this
    have := List.findIdx_eq_length (p := fun j => (0#w).getMsbD j) (xs := List.range w)
    rw [List.length_range] at this
    exact this.mpr (fun x _ => by simp)
  · rw [if_neg h]
    have h1 := Nat.log2_lt h (k := w) |>.mpr a.isLt
    symm
    rw [List.findIdx_eq (by rw [List.length_range]; omega)]
    simp only [List.getElem_range]
    constructor
    · rw [BitVec.getMsbD_eq_getLsbD]
      simp only [Bool.and_eq_true, decide_eq_true_eq]
      refine ⟨by omega, ?_⟩
      rw [show w - 1 - (w - (a.toNat.log2 + 1)) = a.toNat.log2 by omega, BitVec.getLsbD]
      exact Nat.testBit_log2 h
    · intro j hj
      rw [BitVec.getMsbD_eq_getLsbD, BitVec.getLsbD, Nat.testBit_lt_two_pow, Bool.and_false]
      exact Nat.lt_of_lt_of_le (Nat.lt_log2_self) (Nat.pow_le_pow_right (by decide) (by omega))

/-- Bit fields read. -/
theorem fieldGet_eq {w : Nat} (uns : Bool) (a : BitVec w) (pos len : Nat) (h : 0 < len) : fieldGet (!uns) a pos len = fieldOf uns a pos len := by
  have hx : natBits a.toNat (pos + len - 1) pos = (a.extractLsb' pos len).toNat := by
    rw [natBits, show pos + len - 1 + 1 - pos = len by omega, BitVec.extractLsb'_toNat]
  cases uns
  · simp only [fieldGet, fieldOf, hx, Bool.not_false, if_true, Bool.false_eq_true, if_false, sextI, BitVec.ofNat_toNat, BitVec.setWidth_eq]
    rfl
  · simp only [fieldGet, fieldOf, hx, Bool.not_true, if_true, Bool.false_eq_true, if_false, BitVec.ofNat_toNat]

/-- Bit fields replaced. -/
theorem fieldPut_eq {w : Nat} (d a : BitVec w) (pos len : Nat) (h : 0 < len) : fieldPut d a pos len = withField d a pos len := by
  simp only [fieldPut, setBits, withField, show pos + len - 1 + 1 - pos = len by omega]
  apply BitVec.eq_of_getLsbD_eq
  intro i hi
  simp only [BitVec.getLsbD_or, BitVec.getLsbD_and, BitVec.getLsbD_not, BitVec.getLsbD_shiftLeft, BitVec.getLsbD_ofNat, hi, decide_true,
    Bool.true_and, Nat.testBit_shiftLeft, Nat.testBit_two_pow_sub_one, Nat.testBit_mod_two_pow]
  by_cases h1 : i < pos
  · simp [h1, Nat.not_le.mpr h1]
  · have : pos ≤ i := by omega
    simp only [h1, this, decide_true, decide_false, Bool.true_and, Bool.not_false, show i - pos < w by omega]
    cases decide (i - pos < len) <;> simp [BitVec.getLsbD]

end Sys2Proof.Machine
end

