-- ==== Sys2Proof/Tests/Slice0.lean ====
section
/-! SUPPORT. Tests: words written out from the spec's encodings, ill-formed words, concrete states that meet the hypotheses of the
statements, and single steps with results worked by hand. -/

open Sys2Proof Sys2Proof.Machine

namespace Sys2Proof.Machine.Tests

set_option maxRecDepth 100000
set_option Elab.async false

/-! Words and states -/

/-- A word by the fields of R209 and R210: opcode, D, A, B, C, MOD and SB; GSEL, STALL and the reserved field are 0. -/
def wd (op d a b c mod sb : Nat) : W64 :=
  BitVec.ofNat 64 (op * 2 ^ 54 + d * 2 ^ 46 + a * 2 ^ 38 + b * 2 ^ 30 + c * 2 ^ 22 + mod * 2 ^ 14 + sb * 2 ^ 9)

/-- A word placed in reset's state where the next step fetches it, the one group changed by f and the rest by h. -/
def at_ (w : W64) (f : Group → Group) (h : State → State) : State :=
  let s := State.reset.placeWord w
  h { s with groups := s.groups.map f }

/-- Scalar registers from s0 on. -/
def scalars (l : List W64) (g : Group) : Group := { g with s := l ++ List.replicate (48 - l.length) 0 }

/-- Matrix mode with its window at v64. -/
def inMatrix (g : Group) : Group := { g with mm := true, wbase := 64 }

/-- The context of the word that the cursor names, and the state at its issue. -/
def ctxAt (i : Instr) (s : State) : Option (Ctx × State) :=
  match s.cur with
  | none => none
  | some (gi, k) => match (s.grp gi).clauses[k]?, view i with
    | some c0, some v =>
      let r := s.enterWord gi k c0
      if r.2.1.owes.isNone then some (wordCtx ((r.2.2.grp gi).asAt r.1) gi k r.2.1 r.1 v, r.2.2) else none
    | _, _ => none

/-- The word is performed there, and p holds of its context and the state at its issue. -/
def runs (i : Instr) (s : State) (p : Ctx → State → Bool) : Bool :=
  match ctxAt i s with
  | some (c, m) => let g := (m.grp c.gi).asAt c.t
    (wordFate i c.view g c.cl).isNone && (issueFate g i c.view c.cl c.t).isNone && decide (c.act ≠ 0) && p c m
  | none => false

/-- Nothing of the group is outstanding or owed, no array operation of its quarter is queued, and its SFU is free with no word waiting for it. -/
def clean (c : Ctx) (m : State) : Bool :=
  let g := m.grp c.gi
  g.pendw.isEmpty && g.ops.isEmpty && !g.owedInteg && g.debt.isEmpty && (m.quarter g.pkg g.qtr).arrayQ.isEmpty &&
    decide ((m.quarter g.pkg g.qtr).sfuFree ≤ c.t) && (m.sfuLine g.pkg g.qtr).isEmpty

theorem reaches_of_ctx {i : Instr} {s m : State} {c : Ctx} (h : ctxAt i s = some (c, m)) : Reaches i s c m := by
  unfold ctxAt at h
  split at h
  · cases h
  · rename_i gi k hc
    split at h
    · rename_i c0 v h1 h2
      dsimp only at h
      split at h
      · rename_i ho
        cases h
        exact ⟨hc, ⟨c0, h1, rfl⟩, Option.isNone_iff_eq_none.1 ho, h2, rfl⟩
      · cases h
    · cases h

/-- What `runs` says is the hypothesis of the statements about words. -/
theorem performs_of_runs {i : Instr} {s : State} {p : Ctx → State → Bool} (h : runs i s p = true) :
    ∃ c m, Performs i s c m ∧ p c m = true := by
  unfold runs at h
  split at h
  · rename_i c m hc
    simp only [Bool.and_eq_true, Option.isNone_iff_eq_none, decide_eq_true_eq] at h
    obtain ⟨⟨⟨a, a'⟩, b⟩, e⟩ := h
    obtain ⟨h1, h2, h3, h4, h5⟩ := reaches_of_ctx hc
    exact ⟨c, m, ⟨h1, h2, h3, h4, a, a', h5, b⟩, e⟩
  · cases h

/-- With nothing outstanding every source is covered, every result is in turn, and nothing holds the word back. -/
theorem free_of_clean {c : Ctx} {m : State} (h : clean c m = true) :
    (∀ r, c.covered m r) ∧ (∀ r n, c.coveredN m r n) ∧ (∀ d, c.inTurn m d) ∧ c.accessFree m ∧ c.mayLeave m ∧ c.arrayIdle m := by
  simp only [clean, Bool.and_eq_true, List.isEmpty_iff, Bool.not_eq_true'] at h
  obtain ⟨⟨⟨⟨⟨⟨a4, a5⟩, a6⟩, a7⟩, a8⟩, -⟩, -⟩ := h
  have cov : ∀ r, c.covered m r := fun r => ⟨by simp [Group.pendTo, a4], by simp [Group.opsTo, a5]⟩
  refine ⟨cov, fun r n j _ => cov _, fun d w hw => ?_, ⟨.inr ?_, ?_⟩, ⟨a6, a7⟩, a8⟩
  · rw [a4] at hw; cases hw
  · simp [Group.slotCount, a5, Config.slotMax]
  · simp [Group.acquiring, a5]

/-- A row's word decodes to its instruction, which is well-formed, encodes back, and is performed with nothing outstanding. -/
def rowOk (f : Group → Group) (p : W64 × Instr) : Bool :=
  decide (decode (wordBytes p.1) = .ok (p.2, [])) && decide (encode p.2 = some p.1) && runs p.2 (at_ p.1 f id) clean

/-- The hypotheses of the statements about a family's words are met by each of them. -/
theorem met_of_rows {f : Group → Group} {l : List (W64 × Instr)} (h : l.all (rowOk f) = true) :
    ∀ p ∈ l, ∃ s c m, Performs p.2 s c m ∧ (∀ r, c.covered m r) ∧ (∀ r n, c.coveredN m r n) ∧ (∀ d, c.inTurn m d) ∧ c.accessFree m ∧
      c.mayLeave m ∧ c.arrayIdle m := by
  intro p hp
  have := List.all_eq_true.1 h p hp
  simp only [rowOk, Bool.and_eq_true] at this
  obtain ⟨c, m, h1, h2⟩ := performs_of_runs this.2
  exact ⟨_, c, m, h1, free_of_clean h2⟩

/-- Words of the opcodes of file 08, field by field, with the instructions they stand for: CTRL, file 09. -/
def controlWords : List (W64 × Instr) :=
  [ (wd 0x000 0xFF 0xFF 0xFF 0xFF 0 0, .nop ⟨0xFF, 0xFF, 0xFF, 0xFF, 0, ⟨0, 0, 0, 0⟩⟩),
    (wd 0x001 0 0 0 2 0 0, .bra ⟨2, 0, ⟨0, 0, 0, 0⟩⟩),
    (wd 0x002 0xFF 0xC1 0xFF 0xFF 0 0, .jmpi ⟨0xFF, 0xC1, 0xFF, 0xFF, 0, ⟨0, 0, 0, 0⟩⟩),
    (wd 0x003 0 0 0 2 9 0, .call ⟨2, 9, ⟨0, 0, 0, 0⟩⟩),
    (wd 0x004 0xFF 0xC1 0xFF 0xFF 0 0, .ret ⟨0xFF, 0xC1, 0xFF, 0xFF, 0, ⟨0, 0, 0, 0⟩⟩),
    (wd 0x005 0xFF 0xC1 0xFF 0xFF 0 0, .exit ⟨0xFF, 0xC1, 0xFF, 0xFF, 0, ⟨0, 0, 0, 0⟩⟩),
    (wd 0x006 0xFF 0xFF 0 0x1C 0 0, .trap ⟨0xFF, 0xFF, 0x1C, 0, ⟨0, 0, 0, 0⟩⟩),
    (wd 0x007 0xFF 0xFF 0xFF 0xFF 0 0, .tret ⟨0xFF, 0xFF, 0xFF, 0xFF, 0, ⟨0, 0, 0, 0⟩⟩),
    (wd 0x008 0xFF 0xC1 0xFF 0xFF 0 0, .suspendCounter ⟨0xFF, 0xC1, 0xFF, 0xFF, 0, ⟨0, 0, 0, 0⟩⟩),
    (wd 0x008 0xFF 0xC1 0xC2 0xFF 1 0, .suspendTill ⟨0xFF, 0xC1, 0xC2, 0xFF, 1, ⟨0, 0, 0, 0⟩⟩),
    (wd 0x008 0xFF 0xC1 0xC2 0xFF 2 0, .suspendMonitor ⟨0xFF, 0xC1, 0xC2, 0xFF, 2, ⟨0, 0, 0, 0⟩⟩),
    (wd 0x009 0xFF 0xFF 0xFF 0xFF 1 0, .yield ⟨0xFF, 0xFF, 0xFF, 0xFF, 1, ⟨0, 0, 0, 0⟩⟩),
    (wd 0x00A 0xFF 0xFF 0 4 0 0, .grow ⟨0xFF, 0xFF, 4, 0, ⟨0, 0, 0, 0⟩⟩),
    (wd 0x00B 0xFF 0xFF 0 4 0 0, .shrink ⟨0xFF, 0xFF, 4, 0, ⟨0, 0, 0, 0⟩⟩),
    (wd 0x00C 0xFF 0xFF 0 3 0 0, .bart ⟨0xFF, 0xFF, 3, 0, ⟨0, 0, 0, 0⟩⟩),
    (wd 0x00D 0xFF 0xFF 0 3 0 0, .barc ⟨0xFF, 0xFF, 3, 0, ⟨0, 0, 0, 0⟩⟩),
    (wd 0x00E 0xFF 0xFF 0 3 0 0, .barg ⟨0xFF, 0xFF, 3, 0, ⟨0, 0, 0, 0⟩⟩),
    (wd 0x00F 0xFF 0xC1 0xFF 0xFF 0 1, .spawn ⟨0xFF, 0xC1, 0xFF, 0xFF, 0, ⟨0, 1, 0, 0⟩⟩),
    (wd 0x010 0xFF 0xC1 0xC2 0xFF 0 1, .signal ⟨0xFF, 0xC1, 0xC2, 0xFF, 0, ⟨0, 1, 0, 0⟩⟩),
    (wd 0x011 0xFF 0xC1 0xFF 0xFF 0 1, .wake ⟨0xFF, 0xC1, 0xFF, 0xFF, 0, ⟨0, 1, 0, 0⟩⟩),
    (wd 0x012 0xFF 0xC1 0xC2 0xFF 0 1, .deposit ⟨0xFF, 0xC1, 0xC2, 0xFF, 0, ⟨0, 1, 0, 0⟩⟩),
    (wd 0x013 0xFF 0xC1 0xFF 0xFF 0 1, .join ⟨0xFF, 0xC1, 0xFF, 0xFF, 0, ⟨0, 1, 0, 0⟩⟩),
    (wd 0x014 0xC5 0xFF 0xFF 0xFF 0 0, .evrd ⟨0xC5, 0xFF, 0xFF, 0xFF, 0, ⟨0, 0, 0, 0⟩⟩),
    (wd 0x015 0xFF 0xC1 0xFF 0xFF 0 0, .evadd ⟨0xFF, 0xC1, 0xFF, 0xFF, 0, ⟨0, 0, 0, 0⟩⟩) ]

/-- Words of the opcodes of file 08, field by field, with the instructions they stand for: scalar, file 09. -/
def scalarWords : List (W64 × Instr) :=
  [ (wd 0x080 0xC5 0xC1 0xC2 0xFF 0 0, .sadd ⟨0xC5, 0xC1, 0xC2, 0xFF, 0, ⟨0, 0, 0, 0⟩⟩),
    (wd 0x081 0xC5 0xC1 0xC2 0xFF 0 0, .ssub ⟨0xC5, 0xC1, 0xC2, 0xFF, 0, ⟨0, 0, 0, 0⟩⟩),
    (wd 0x082 0xC5 0xC1 0xC2 0xFF 0 0, .smul ⟨0xC5, 0xC1, 0xC2, 0xFF, 0, ⟨0, 0, 0, 0⟩⟩),
    (wd 0x083 0xC5 0xC1 0xC2 0xFF 0 0, .smulh ⟨0xC5, 0xC1, 0xC2, 0xFF, 0, ⟨0, 0, 0, 0⟩⟩),
    (wd 0x084 0xC5 0xC1 0xC2 0xFF 0 0, .sdiv ⟨0xC5, 0xC1, 0xC2, 0xFF, 0, ⟨0, 0, 0, 0⟩⟩),
    (wd 0x085 0xC5 0xC1 0xC2 0xFF 0 0, .srem ⟨0xC5, 0xC1, 0xC2, 0xFF, 0, ⟨0, 0, 0, 0⟩⟩),
    (wd 0x086 0xC5 0xC1 0xC2 0xFF 0 0, .sand ⟨0xC5, 0xC1, 0xC2, 0xFF, 0, ⟨0, 0, 0, 0⟩⟩),
    (wd 0x087 0xC5 0xC1 0xC2 0xFF 0 0, .sor ⟨0xC5, 0xC1, 0xC2, 0xFF, 0, ⟨0, 0, 0, 0⟩⟩),
    (wd 0x088 0xC5 0xC1 0xC2 0xFF 0 0, .sxor ⟨0xC5, 0xC1, 0xC2, 0xFF, 0, ⟨0, 0, 0, 0⟩⟩),
    (wd 0x089 0xC5 0xC1 0xC2 0xFF 0 0, .sshl ⟨0xC5, 0xC1, 0xC2, 0xFF, 0, ⟨0, 0, 0, 0⟩⟩),
    (wd 0x08A 0xC5 0xC1 0xC2 0xFF 0 0, .sshr ⟨0xC5, 0xC1, 0xC2, 0xFF, 0, ⟨0, 0, 0, 0⟩⟩),
    (wd 0x08B 0xC5 0xC1 0xC2 0xFF 0 0, .ssar ⟨0xC5, 0xC1, 0xC2, 0xFF, 0, ⟨0, 0, 0, 0⟩⟩),
    (wd 0x08C 0xC5 0xC1 0xC2 0xFF 0 0, .smin ⟨0xC5, 0xC1, 0xC2, 0xFF, 0, ⟨0, 0, 0, 0⟩⟩),
    (wd 0x08D 0xC5 0xC1 0xC2 0xFF 0 0, .smax ⟨0xC5, 0xC1, 0xC2, 0xFF, 0, ⟨0, 0, 0, 0⟩⟩),
    (wd 0x08E 0xC5 0xC1 0xC2 0xFF 0 0, .scmp ⟨0xC5, 0xC1, 0xC2, 0xFF, 0, ⟨0, 0, 0, 0⟩⟩),
    (wd 0x08F 0xC5 0xC1 0xC2 0xC3 0 0, .ssel ⟨0xC5, 0xC1, 0xC2, 0xC3, 0, ⟨0, 0, 0, 0⟩⟩),
    (wd 0x090 0xC5 0xC1 0xFF 0xFF 0 0, .smov ⟨0xC5, 0xC1, 0xFF, 0xFF, 0, ⟨0, 0, 0, 0⟩⟩),
    (wd 0x091 0xC5 0xC1 0 4 0 0, .saddi ⟨0xC5, 0xC1, 4, 0, ⟨0, 0, 0, 0⟩⟩),
    (wd 0x092 0xC1 0 0 0x40 0 0, .smovi ⟨0xC1, 0x4000, ⟨0, 0, 0, 0⟩⟩),
    (wd 0x093 0xC1 0 0 0x40 0 0, .smovh ⟨0xC1, 0x4000, ⟨0, 0, 0, 0⟩⟩),
    (wd 0x094 0xC5 0xC1 0xFF 0xFF 0 0, .spopc ⟨0xC5, 0xC1, 0xFF, 0xFF, 0, ⟨0, 0, 0, 0⟩⟩),
    (wd 0x095 0xC5 0xC1 0xFF 0xFF 0 0, .sclz ⟨0xC5, 0xC1, 0xFF, 0xFF, 0, ⟨0, 0, 0, 0⟩⟩),
    (wd 0x096 0xC5 0xC1 0 4 0 0, .sbfe ⟨0xC5, 0xC1, 4, 0, ⟨0, 0, 0, 0⟩⟩),
    (wd 0x097 0xC5 0xC1 0 4 0 0, .sbfi ⟨0xC5, 0xC1, 4, 0, ⟨0, 0, 0, 0⟩⟩) ]

/-- Words of the opcodes of file 08, field by field, with the instructions they stand for: integers of lanes and lanes, file 10. -/
def laneWords : List (W64 × Instr) :=
  [ (wd 0x100 0x14 5 6 0xFF 0 0, .iadd ⟨0x14, 5, 6, 0xFF, 0, ⟨0, 0, 0, 0⟩⟩),
    (wd 0x101 0x14 5 6 0xFF 0 0, .isub ⟨0x14, 5, 6, 0xFF, 0, ⟨0, 0, 0, 0⟩⟩),
    (wd 0x102 0x14 5 6 0xFF 0 0, .imul ⟨0x14, 5, 6, 0xFF, 0, ⟨0, 0, 0, 0⟩⟩),
    (wd 0x103 0x14 5 6 0xFF 0 0, .imulh ⟨0x14, 5, 6, 0xFF, 0, ⟨0, 0, 0, 0⟩⟩),
    (wd 0x104 0x14 5 6 7 0 0, .imad ⟨0x14, 5, 6, 7, 0, ⟨0, 0, 0, 0⟩⟩),
    (wd 0x105 0x14 5 6 7 0 0, .iaddmin ⟨0x14, 5, 6, 7, 0, ⟨0, 0, 0, 0⟩⟩),
    (wd 0x106 0x14 5 6 0xFF 0 0, .iand ⟨0x14, 5, 6, 0xFF, 0, ⟨0, 0, 0, 0⟩⟩),
    (wd 0x107 0x14 5 6 0xFF 0 0, .ior ⟨0x14, 5, 6, 0xFF, 0, ⟨0, 0, 0, 0⟩⟩),
    (wd 0x108 0x14 5 6 0xFF 0 0, .ixor ⟨0x14, 5, 6, 0xFF, 0, ⟨0, 0, 0, 0⟩⟩),
    (wd 0x109 0x14 5 6 0xFF 0 0, .ishl ⟨0x14, 5, 6, 0xFF, 0, ⟨0, 0, 0, 0⟩⟩),
    (wd 0x10A 0x14 5 6 0xFF 0 0, .ishr ⟨0x14, 5, 6, 0xFF, 0, ⟨0, 0, 0, 0⟩⟩),
    (wd 0x10B 0x14 5 6 0xFF 0 0, .isar ⟨0x14, 5, 6, 0xFF, 0, ⟨0, 0, 0, 0⟩⟩),
    (wd 0x10C 0x14 5 6 0xFF 0 0, .imin ⟨0x14, 5, 6, 0xFF, 0, ⟨0, 0, 0, 0⟩⟩),
    (wd 0x10D 0x14 5 6 0xFF 0 0, .imax ⟨0x14, 5, 6, 0xFF, 0, ⟨0, 0, 0, 0⟩⟩),
    (wd 0x10E 0x14 5 0xFF 0xFF 0 0, .iabs ⟨0x14, 5, 0xFF, 0xFF, 0, ⟨0, 0, 0, 0⟩⟩),
    (wd 0x10F 0x14 5 6 0xFF 0 0, .icmp ⟨0x14, 5, 6, 0xFF, 0, ⟨0, 0, 0, 0⟩⟩),
    (wd 0x110 0x14 5 6 7 0 0, .isel ⟨0x14, 5, 6, 7, 0, ⟨0, 0, 0, 0⟩⟩),
    (wd 0x111 0x14 5 0xFF 0xFF 0 0, .ipopc ⟨0x14, 5, 0xFF, 0xFF, 0, ⟨0, 0, 0, 0⟩⟩),
    (wd 0x112 0x14 5 0xFF 0xFF 0 0, .iclz ⟨0x14, 5, 0xFF, 0xFF, 0, ⟨0, 0, 0, 0⟩⟩),
    (wd 0x113 0x14 5 0 4 0 0, .ibfe ⟨0x14, 5, 4, 0, ⟨0, 0, 0, 0⟩⟩),
    (wd 0x114 0x14 5 0 4 0 0, .ibfi ⟨0x14, 5, 4, 0, ⟨0, 0, 0, 0⟩⟩),
    (wd 0x115 0x14 5 0 4 0 0, .iaddi ⟨0x14, 5, 4, 0, ⟨0, 0, 0, 0⟩⟩),
    (wd 0x116 0x14 5 6 7 0 0, .idot4 ⟨0x14, 5, 6, 7, 0, ⟨0, 0, 0, 0⟩⟩),
    (wd 0x117 0x14 5 0xFF 0xFF 0 0, .mov ⟨0x14, 5, 0xFF, 0xFF, 0, ⟨0, 0, 0, 0⟩⟩),
    (wd 0x118 4 0 0 0x40 0 0, .movi ⟨4, 0x4000, ⟨0, 0, 0, 0⟩⟩),
    (wd 0x119 0x14 0xC1 0xFF 0xFF 0 0, .s2v ⟨0x14, 0xC1, 0xFF, 0xFF, 0, ⟨0, 0, 0, 0⟩⟩),
    (wd 0x11A 0xC5 5 6 0xFF 0 0, .v2s ⟨0xC5, 5, 6, 0xFF, 0, ⟨0, 0, 0, 0⟩⟩),
    (wd 0x11B 0x14 5 6 0xFF 0 0, .shfl ⟨0x14, 5, 6, 0xFF, 0, ⟨0, 0, 0, 0⟩⟩),
    (wd 0x11C 0x14 5 6 7 0 0, .shup ⟨0x14, 5, 6, 7, 0, ⟨0, 0, 0, 0⟩⟩),
    (wd 0x11D 0x14 5 6 7 0 0, .shdn ⟨0x14, 5, 6, 7, 0, ⟨0, 0, 0, 0⟩⟩),
    (wd 0x11E 0x14 5 6 0xFF 0 0, .shxor ⟨0x14, 5, 6, 0xFF, 0, ⟨0, 0, 0, 0⟩⟩),
    (wd 0x11F 0xC5 5 0xFF 0xFF 0 0, .vote ⟨0xC5, 5, 0xFF, 0xFF, 0, ⟨0, 0, 0, 0⟩⟩),
    (wd 0x120 0x14 5 0xFF 0xFF 0 0, .reduce ⟨0x14, 5, 0xFF, 0xFF, 0, ⟨0, 0, 0, 0⟩⟩),
    (wd 0x121 0x14 5 0xFF 0xFF 0 0, .scan ⟨0x14, 5, 0xFF, 0xFF, 0, ⟨0, 0, 0, 0⟩⟩),
    (wd 0x122 0xC5 5 0xFF 0xFF 0 0, .tagof ⟨0xC5, 5, 0xFF, 0xFF, 0, ⟨0, 0, 0, 0⟩⟩) ]

/-- Words of the opcodes of file 08, field by field, with the instructions they stand for: floating point, file 10. -/
def floatWords : List (W64 × Instr) :=
  [ (wd 0x180 0x14 5 6 0xFF 0 0, .fadd ⟨0x14, 5, 6, 0xFF, 0, ⟨0, 0, 0, 0⟩⟩),
    (wd 0x181 0x14 5 6 0xFF 0 0, .fsub ⟨0x14, 5, 6, 0xFF, 0, ⟨0, 0, 0, 0⟩⟩),
    (wd 0x182 0x14 5 6 0xFF 0 0, .fmul ⟨0x14, 5, 6, 0xFF, 0, ⟨0, 0, 0, 0⟩⟩),
    (wd 0x183 0x14 5 6 7 0 0, .ffma ⟨0x14, 5, 6, 7, 0, ⟨0, 0, 0, 0⟩⟩),
    (wd 0x184 0x14 5 6 0xFF 0 0, .fmin ⟨0x14, 5, 6, 0xFF, 0, ⟨0, 0, 0, 0⟩⟩),
    (wd 0x185 0x14 5 6 0xFF 0 0, .fmax ⟨0x14, 5, 6, 0xFF, 0, ⟨0, 0, 0, 0⟩⟩),
    (wd 0x186 0x14 5 6 7 0 0, .faddmin ⟨0x14, 5, 6, 7, 0, ⟨0, 0, 0, 0⟩⟩),
    (wd 0x187 0x14 5 6 0xFF 0 0, .fcmp ⟨0x14, 5, 6, 0xFF, 0, ⟨0, 0, 0, 0⟩⟩),
    (wd 0x188 0x14 5 0xFF 0xFF 0 0, .fclass ⟨0x14, 5, 0xFF, 0xFF, 0, ⟨0, 0, 0, 0⟩⟩),
    (wd 0x189 0x14 5 0xFF 0xFF 0 0, .frnd ⟨0x14, 5, 0xFF, 0xFF, 0, ⟨0, 0, 0, 0⟩⟩),
    (wd 0x18A 0x14 5 6 0xFF 0 0, .fscale ⟨0x14, 5, 6, 0xFF, 0, ⟨0, 0, 0, 0⟩⟩),
    (wd 0x18B 0x14 5 6 0xFF 0x10 0, .pkadd ⟨0x14, 5, 6, 0xFF, 0x10, ⟨0, 0, 0, 0⟩⟩),
    (wd 0x18C 0x14 5 6 0xFF 0x10 0, .pkmul ⟨0x14, 5, 6, 0xFF, 0x10, ⟨0, 0, 0, 0⟩⟩),
    (wd 0x18D 0x14 5 6 7 0x10 0, .pkfma ⟨0x14, 5, 6, 7, 0x10, ⟨0, 0, 0, 0⟩⟩),
    (wd 0x18E 0x14 5 6 7 0x10 0, .fdot2 ⟨0x14, 5, 6, 7, 0x10, ⟨0, 0, 0, 0⟩⟩),
    (wd 0x18F 0x14 5 6 7 0x40 0, .fdot4 ⟨0x14, 5, 6, 7, 0x40, ⟨0, 0, 0, 0⟩⟩),
    (wd 0x190 0x14 5 6 7 0x50 0, .fdot8 ⟨0x14, 5, 6, 7, 0x50, ⟨0, 0, 0, 0⟩⟩) ]

/-- Words of the opcodes of file 08, field by field, with the instructions they stand for: conversions and special functions, file 11. -/
def convertWords : List (W64 × Instr) :=
  [ (wd 0x200 0x14 5 0xFF 0xFF 0 0, .cvt ⟨0x14, 5, 0xFF, 0xFF, 0, ⟨0, 0, 0, 0⟩⟩),
    (wd 0x201 0x14 5 6 0xFF 0x10 0, .cvtsr ⟨0x14, 5, 6, 0xFF, 0x10, ⟨0, 0, 0, 0⟩⟩),
    (wd 0x202 0x14 5 6 0xFF 0x40 0, .qblk ⟨0x14, 5, 6, 0xFF, 0x40, ⟨0, 0, 0, 0⟩⟩),
    (wd 0x203 0x14 5 6 0xFF 0x10 0, .dqblk ⟨0x14, 5, 6, 0xFF, 0x10, ⟨0, 0, 0, 0⟩⟩),
    (wd 0x208 0x14 5 0xFF 0xFF 0 1, .rcp ⟨0x14, 5, 0xFF, 0xFF, 0, ⟨0, 1, 0, 0⟩⟩),
    (wd 0x209 0x14 5 0xFF 0xFF 0 1, .rsq ⟨0x14, 5, 0xFF, 0xFF, 0, ⟨0, 1, 0, 0⟩⟩),
    (wd 0x20A 0x14 5 0xFF 0xFF 0 1, .sqrt ⟨0x14, 5, 0xFF, 0xFF, 0, ⟨0, 1, 0, 0⟩⟩),
    (wd 0x20B 0x14 5 0xFF 0xFF 0 1, .exp2 ⟨0x14, 5, 0xFF, 0xFF, 0, ⟨0, 1, 0, 0⟩⟩),
    (wd 0x20C 0x14 5 0xFF 0xFF 0 1, .log2 ⟨0x14, 5, 0xFF, 0xFF, 0, ⟨0, 1, 0, 0⟩⟩),
    (wd 0x20D 0x14 5 0xFF 0xFF 0 1, .sinpi ⟨0x14, 5, 0xFF, 0xFF, 0, ⟨0, 1, 0, 0⟩⟩),
    (wd 0x20E 0x14 5 0xFF 0xFF 0 1, .cospi ⟨0x14, 5, 0xFF, 0xFF, 0, ⟨0, 1, 0, 0⟩⟩),
    (wd 0x20F 0x14 5 0xFF 0xFF 0 1, .tanh ⟨0x14, 5, 0xFF, 0xFF, 0, ⟨0, 1, 0, 0⟩⟩),
    (wd 0x210 0x14 0xC1 4 0xFF 0 0, .rand ⟨0x14, 0xC1, 4, 0xFF, 0, ⟨0, 0, 0, 0⟩⟩) ]

/-- Words of the opcodes of file 08, field by field, with the instructions they stand for: memory, file 11. -/
def memoryWords : List (W64 × Instr) :=
  [ (wd 0x280 0x14 5 0xFF 0 2 1, .ldp ⟨0x14, 5, 0xFF, 0, 2, ⟨0, 1, 0, 0⟩⟩),
    (wd 0x281 0xFF 5 6 0 2 1, .stp ⟨0xFF, 5, 6, 0, 2, ⟨0, 1, 0, 0⟩⟩),
    (wd 0x282 0x14 5 0xFF 0 2 1, .ldt ⟨0x14, 5, 0xFF, 0, 2, ⟨0, 1, 0, 0⟩⟩),
    (wd 0x283 0xFF 5 6 0 2 1, .stt ⟨0xFF, 5, 6, 0, 2, ⟨0, 1, 0, 0⟩⟩),
    (wd 0x284 0x14 5 0xFF 0 2 1, .ldg ⟨0x14, 5, 0xFF, 0, 2, ⟨0, 1, 0, 0⟩⟩),
    (wd 0x285 0xFF 5 6 0 2 1, .stg ⟨0xFF, 5, 6, 0, 2, ⟨0, 1, 0, 0⟩⟩),
    (wd 0x286 0x14 5 0 0 0x22 1, .ldw ⟨0x14, 5, 0, 0, 0x22, ⟨0, 1, 0, 0⟩⟩),
    (wd 0x287 0x14 5 6 0 0x22 1, .atomt ⟨0x14, 5, 6, 0, 0x22, ⟨0, 1, 0, 0⟩⟩),
    (wd 0x288 0x14 5 6 0 0x22 1, .atomg ⟨0x14, 5, 6, 0, 0x22, ⟨0, 1, 0, 0⟩⟩),
    (wd 0x289 0x14 5 6 0 0x62 1, .atomp ⟨0x14, 5, 6, 0, 0x62, ⟨0, 1, 0, 0⟩⟩),
    (wd 0x28A 0xFF 0xFF 0xFF 0xFF 0x20 1, .commit ⟨0xFF, 0xFF, 0xFF, 0xFF, 0x20, ⟨0, 1, 0, 0⟩⟩),
    (wd 0x28B 0xFF 0xFF 0xFF 0xFF 0x20 1, .abort ⟨0xFF, 0xFF, 0xFF, 0xFF, 0x20, ⟨0, 1, 0, 0⟩⟩),
    (wd 0x28C 0xFF 5 0xFF 7 0 1, .pfg ⟨0xFF, 5, 0xFF, 7, 0, ⟨0, 1, 0, 0⟩⟩) ]

/-- Words of the opcodes of file 08, field by field, with the instructions they stand for: engines and matrix, file 12. -/
def engineWords : List (W64 × Instr) :=
  [ (wd 0x300 0xFF 0xC1 0xC2 0xC3 0 1, .bulk ⟨0xFF, 0xC1, 0xC2, 0xC3, 0, ⟨0, 1, 0, 0⟩⟩),
    (wd 0x301 0xFF 0xC1 0xFF 0xFF 0 1, .obres ⟨0xFF, 0xC1, 0xFF, 0xFF, 0, ⟨0, 1, 0, 0⟩⟩),
    (wd 0x302 0xFF 0xFF 0xFF 0xFF 0 1, .obrel ⟨0xFF, 0xFF, 0xFF, 0xFF, 0, ⟨0, 1, 0, 0⟩⟩),
    (wd 0x303 0xFF 0xC1 0xC2 0xC3 0 1, .obload ⟨0xFF, 0xC1, 0xC2, 0xC3, 0, ⟨0, 1, 0, 0⟩⟩),
    (wd 0x304 0x40 0xFF 0xFF 0xFF 1 0, .modeM ⟨0x40, 0xFF, 0xFF, 0xFF, 1, ⟨0, 0, 0, 0⟩⟩),
    (wd 0x308 0xFF 0xFF 0xFF 0xFF 0 0, .msync ⟨0xFF, 0xFF, 0xFF, 0xFF, 0, ⟨0, 0, 0, 0⟩⟩) ]

/-- Words of the opcodes of file 08, field by field, with the instructions they stand for: system, file 12. -/
def systemWords : List (W64 × Instr) :=
  [ (wd 0x380 0xC5 0xFF 0 6 0 0, .rdsr ⟨0xC5, 0xFF, 6, 0, ⟨0, 0, 0, 0⟩⟩),
    (wd 0x381 0xFF 0xC1 0 2 0 0, .wrsr ⟨0xFF, 0xC1, 2, 0, ⟨0, 0, 0, 0⟩⟩),
    (wd 0x382 0xFF 0xFF 0 0x1C 0 0, .brk ⟨0xFF, 0xFF, 0x1C, 0, ⟨0, 0, 0, 0⟩⟩) ]

/-- Words of the opcodes of file 08, field by field, with the instructions they stand for: words of matrix mode, file 12. -/
def windowWords : List (W64 × Instr) :=
  [ (wd 0x304 0xFF 0xFF 0xFF 0xFF 0 0, .modeV ⟨0xFF, 0xFF, 0xFF, 0xFF, 0, ⟨0, 0, 0, 0⟩⟩),
    (wd 0x305 0xFF 0xFF 0xFF 0xFF 0 0, .mzero ⟨0xFF, 0xFF, 0xFF, 0xFF, 0, ⟨0, 0, 0, 0⟩⟩),
    (wd 0x306 0xFF 0xFF 0 0 0 0, .mop ⟨0xFF, 0xFF, 0, 0, ⟨0, 0, 0, 0⟩⟩),
    (wd 0x307 0xFF 0xC1 0xC2 0xC3 0 1, .mdrain ⟨0xFF, 0xC1, 0xC2, 0xC3, 0, ⟨0, 1, 0, 0⟩⟩) ]

theorem test_control_words : controlWords.all (rowOk id) = true := by decide +kernel
theorem test_scalar_words : scalarWords.all (rowOk id) = true := by decide +kernel
theorem test_lane_words : laneWords.all (rowOk id) = true := by decide +kernel
theorem test_float_words : floatWords.all (rowOk id) = true := by decide +kernel
theorem test_convert_words : convertWords.all (rowOk id) = true := by decide +kernel
theorem test_memory_words : memoryWords.all (rowOk id) = true := by decide +kernel
theorem test_engine_words : engineWords.all (rowOk id) = true := by decide +kernel
theorem test_system_words : systemWords.all (rowOk id) = true := by decide +kernel
theorem test_window_words : windowWords.all (rowOk inMatrix) = true := by decide +kernel

/-! States in which the further hypotheses of the statements about words hold -/

/-- The word w performed in a state with p of its context. -/
def met (w : W64) (f : Group → Group) (h : State → State) (p : Group → Ctx → State → Bool) : Bool :=
  runs (decodeRaw w) (at_ w f h) (fun c m => p (m.grp c.gi) c m)

/-- The word w reaching its checks in a state with p of its context. -/
def reached (w : W64) (f : Group → Group) (h : State → State) (p : View → Group → Ctx → State → Bool) : Bool :=
  match ctxAt (decodeRaw w) (at_ w f h) with
  | some (c, m) => p c.view ((m.grp c.gi).asAt c.t) c m
  | none => false

/-- A private window of 64 bytes a lane in the page at 0x1000. -/
def private64 (g : Group) : Group := { g with pwin := 0x1001 }

/-- A page of the group's world held in core 0's TLB, mapped to pa with every right. -/
def mapped (va pa : Nat) (s : State) : State := s.modCore 0 (fun c => { c with tlb := ⟨0, va, 4096, pa, true, true, true⟩ :: c.tlb })

/-- The page at 0x20000 held so, in its own frame. -/
def framed (s : State) : State :=
  let s1 := mapped 0x20000 0x20000 s
  { s1 with hub := { s1.hub with frames := setKey s1.hub.frames 0x20 0x80 } }

/-- The group's team has one unit of the tile store. -/
def oneUnit (s : State) : State := { s with launches := [⟨[0, 0, 0, 0, 1, 0, 0, 0], 0, .spawn 0 0, 0, true, false, false, 0, [0], []⟩] }

/-- n more groups in the quarter, changed by f. -/
def more (n : Nat) (f : Group → Group) (s : State) : State :=
  { s with groups := s.groups ++ List.replicate n (f { s.grp 0 with clauses := [], slot := 1 }) }

/-- An operation outstanding in slot k. -/
def op_ (id k : Nat) (kind : OpKind) : Op := ⟨id, k, 0xFF, 1, BitVec.allOnes 64, 0, kind⟩

/-- The first header's guard 0 false in every lane. -/
def unguarded (g : Group) : Group := { g with clauses := g.clauses.map (fun c => { c with word := c.word ^^^ (0x4000 <<< 32) }) }

/-- QBLK under SR, over three registers (R285). -/
theorem test_qblk_sr : met (wd 0x202 20 5 8 0xFF 0x3C 0) id id (fun _ c m => clean c m) = true := by decide +kernel

/-- Words without an effect: no lane acts; a slot at its limit; lines unchecked, and one that has failed. -/
theorem test_no_lane : reached (wd 0x000 0xFF 0xFF 0xFF 0xFF 0 8) unguarded id (fun v g c _ =>
    c.act == 0 && (wordFate (decodeRaw (wd 0x000 0xFF 0xFF 0xFF 0xFF 0 8)) v g c.cl).isNone &&
    (issueFate g (decodeRaw (wd 0x000 0xFF 0xFF 0xFF 0xFF 0 8)) v c.cl c.t).isNone) = true := by decide +kernel
theorem test_slot_full : met (wd 0x010 0xFF 0xC1 0xC2 0xFF 0 1) (fun g => { g with ops := List.replicate 63 (op_ 1 1 .store) }) id
    (fun g c _ => g.slotCount 1 == 63 && c.view.lay.anc.sb == 1) = true := by decide +kernel
theorem test_acquiring : met (wd 0x282 20 0xC1 0xFF 0 2 1) (fun g => { g with ops := [op_ 1 1 (.commit 3 false), op_ 2 1 (.failed true)] }) id
    (fun g _ _ => g.acquiring) = true := by decide +kernel
theorem test_sfu_busy : met (wd 0x208 20 5 0xFF 0xFF 0 1) id
    (fun s => s.modQuarter 0 0 (fun q => { q with sfuFree := 1000 })) (fun g c m => decide (c.t < (m.quarter g.pkg g.qtr).sfuFree)) = true := by
  decide +kernel
/-- The unit is free, and the word of another group has waited longer; then the word is itself the first of the line. -/
theorem test_sfu_line :
    let other := fun (s : State) => ({ s with groups := s.groups ++ s.groups.map (fun g => { g with slot := 1 }) } : State)
    let line := fun (l : List (Nat × Nat × Nat)) (s : State) => (other s).modQuarter 0 0 (fun q => { q with sfuQ := l })
    met (wd 0x208 20 5 0xFF 0xFF 0 1) id (line [(1, 0, 1)]) (fun g c m => !c.slotFull m && decide ((m.quarter g.pkg g.qtr).sfuFree ≤ c.t ∧
      (m.sfuLine g.pkg g.qtr).head? = some (1, 0, 1) ∧ (c.gi, c.cl.beside, c.cl.pos) = (0, 0, 1))) = true ∧
    met (wd 0x208 20 5 0xFF 0xFF 0 1) id (line [(0, 0, 1), (1, 0, 1)]) (fun g c m => !c.slotFull m && decide ((m.quarter g.pkg g.qtr).sfuFree ≤ c.t ∧
      (m.sfuLine g.pkg g.qtr).head? = some (c.gi, c.cl.beside, c.cl.pos))) = true := by decide +kernel
theorem test_debt : met (wd 0x010 0xFF 0xC1 0xC2 0xFF 0 1) (fun g => { g with debt := [⟨.glob, 0x1000⟩] }) id
    (fun g _ _ => !g.owedInteg && !g.debt.isEmpty && g.ops.isEmpty) = true := by decide +kernel
theorem test_debt_failed : met (wd 0x28A 0xFF 0xFF 0xFF 0xFF 0x60 1) (fun g => { g with owedInteg := true }) id
    (fun g _ _ => g.owedInteg && g.ops.isEmpty) = true := by decide +kernel

/-- A failed check, an owed trap, and a reserved opcode. -/
theorem test_check_fails : reached (wd 0x080 0xC5 0xC1 0xC2 0 0 0) id id (fun v g c _ =>
    wordFate (decodeRaw (wd 0x080 0xC5 0xC1 0xC2 0 0 0)) v g c.cl == some .illegal) = true := by decide +kernel
theorem test_check_fails_at_issue : reached (wd 0x080 0xC5 0xC1 0xC2 0xFF 0 0)
    (fun g => { g with chk := true, pendw := [⟨0xC1, 9, [], .g, 0, 0, 0, 0, false⟩] }) id (fun v g c _ =>
    let i := decodeRaw (wd 0x080 0xC5 0xC1 0xC2 0xFF 0 0)
    (wordFate i v g c.cl).isNone && issueFate g i v c.cl c.t == some .stallShort && latency v.op != 0) = true := by decide +kernel
theorem test_trap_owed :
    let w := wd 0x000 0xFF 0xFF 0xFF 0xFF 0 0
    let s := at_ w (fun g => { g with clauses := g.clauses.map (fun c => { c with owes := some (.trap, 7, 0x1008, 0) }) }) id
    isWord (decodeRaw w) = true ∧ s.cur = some (0, 0) ∧
      ((s.grp 0).clauses[0]?).map (fun c => (s.enterWord 0 0 c).2.1.owes) = some (some (.trap, 7, 0x1008, 0)) := by decide +kernel
theorem test_reserved :
    let s := at_ (wd 0x016 0xFF 0xFF 0xFF 0xFF 0 0) id id
    s.cur = some (0, 0) ∧ ((s.grp 0).clauses[0]?).map (fun c => (s.enterWord 0 0 c).2.1.owes) = some none := by decide +kernel

/-- What the checks say of a word, in the clause that holds it. -/
def fate (w : W64) (f : Group → Group) (x : Option Cause) : Bool :=
  reached w f id (fun v g c _ => ((wordFate (decodeRaw w) v g c.cl).or (issueFate g (decodeRaw w) v c.cl c.t)) == x)

/-- The checks in their order: a class other than the header's; GROW of 13; a register beyond the blocks; MODE, ALIAS, STALL_SHORT and SHAPE. -/
theorem test_checks :
    fate (wd 0x080 0xC5 0xC1 0xC2 0xFF 0 0) (fun g => { g with clauses := g.clauses.map (fun c => { c with word := 0x2001FC00FC000000 }) })
      (some .illegal) = true ∧
    fate (wd 0x00A 0xFF 0xFF 0 13 0 0) id (some .growLimit) = true ∧
    fate (wd 0x11E 20 16 0xC2 0xFF 0 0) (fun g => { g with blk := 1 }) (some .illegal) = true ∧
    fate (wd 0x100 15 14 13 0xFF 0 0) (fun g => { g with blk := 1 }) none = true ∧
    fate (wd 0x305 0xFF 0xFF 0xFF 0xFF 0 0) id (some .mode) = true ∧
    fate (wd 0x100 20 64 5 0xFF 0 0) inMatrix (some .alias_) = true ∧
    fate (wd 0x100 20 127 5 0xFF 0 0) inMatrix (some .alias_) = true ∧
    fate (wd 0x100 20 128 63 0xFF 0 0) inMatrix none = true ∧
    fate (wd 0x080 0xC5 0xC1 0xC2 0xFF 0 0) (fun g => { g with chk := true, pendw := [⟨0xC1, 9, [], .g, 0, 0, 0, 0, false⟩] })
      (some .stallShort) = true ∧
    fate (wd 0x11E 20 16 0xC2 0xFF 0 0) id none = true ∧
    fate (wd 0x11E 20 16 5 0xFF 0 0) (fun g => { g with v := setNth g.v 5 ⟨.g, List.replicate 64 0⟩ }) (some .shape) = true := by decide +kernel

/-! Control flow -/

theorem test_bra_far : met (wd 0x001 0x80 0 0 0 0 0) id id (fun _ c _ =>
    decide (2 ^ 57 ≤ (c.cl.hdr + (0x80000000#32).signExtend 64 * 8).toNat)) = true := by decide +kernel
theorem test_jmpi_far : met (wd 0x002 0xFF 0xC1 0xFF 0xFF 0 0) (scalars [0, 0x200000000000000]) id (fun g c m =>
    clean c m && g.scalarOf c.lane 0xC1 == 0x200000000000000) = true := by decide +kernel
theorem test_ret_misaligned : met (wd 0x004 0xFF 0xC1 0xFF 0xFF 0 0) (scalars [0, 0x1FFFFFFFFFFFFFC]) id (fun g c m =>
    clean c m && g.scalarOf c.lane 0xC1 == 0x1FFFFFFFFFFFFFC) = true := by decide +kernel

/-- BRK with no owner, with TS set, and with an owner. -/
theorem test_brk_unowned : met (wd 0x382 0xFF 0xFF 0 28 0 0) id id (fun g _ m =>
    !g.ts && !m.evHost g.func evBreak && !m.evClerk g.func evBreak) = true := by decide +kernel
theorem test_brk_ts : met (wd 0x382 0xFF 0xFF 0 28 0 0) (fun g => { g with ts := true }) id (fun g _ _ => g.ts) = true := by decide +kernel
theorem test_brk_owned : met (wd 0x382 0xFF 0xFF 0 28 0 0) id
    (fun s => (s.setReg (offFrt 0 0) (BitVec.ofNat 64 (2 ^ (2 * evBreak)))).setReg (offFrt 0 1) 0x1000)
    (fun g _ m => !g.ts && m.evHost g.func evBreak && decide (m.ringVa g.func ≠ 0)) = true := by decide +kernel

/-- A trap that can be taken: a handler, a frame in the private window, and its page held; and one that cannot. -/
theorem test_trap_entry : met (wd 0x006 0xFF 0xFF 0 28 0 0) (fun g => { private64 g with tbase := 0x1800, tframe := 0 }) id (fun g c m =>
    let a := g.privAddr 0 g.frameOff
    decide (c.gi < m.groups.length) && decide (m.ringVa g.func = 0) && !g.ts && decide (g.tbase ≠ 0) && decide (g.frameOff + 32 ≤ g.privLen) &&
    decide (m.translate c.gi a accWrite = (.ok 0x1000, m)) && m.destOk g.func (some g.pkg) 0x1000 && m.escrow.isEmpty) = true := by decide +kernel
/-- A trap owed while a clause beside it has a word due. -/
theorem test_trap_behind_beside : met (wd 0x006 0xFF 0xFF 0 28 0 0) (fun g => { g with
    clauses := g.clauses ++ g.clauses.map (fun x => { x with lanes := 0 }) }) id (fun g c _ =>
    c.cl.owes.isNone && (dropNth c.k g.clauses).all (fun x => x.owes.isNone) &&
    (dropNth c.k g.clauses).any (fun x => decide (x.mark ≤ c.t))) = true := by decide +kernel
theorem test_trap_ends_group : met (wd 0x006 0xFF 0xFF 0 28 0 0) id id (fun g c m =>
    decide (c.gi < m.groups.length) && decide (g.tbase = 0) && g.resident && g.ops.isEmpty && decide (m.ringVa g.func = 0)) = true := by decide +kernel

/-- TRET with TS clear, with an access outstanding, and with a frame that it can read. -/
theorem test_tret_clear : met (wd 0x007 0xFF 0xFF 0xFF 0xFF 0 0) id id (fun g _ _ => !g.ts) = true := by decide +kernel
theorem test_tret_waits : met (wd 0x007 0xFF 0xFF 0xFF 0xFF 0 0) (fun g => { g with ts := true, ops := [op_ 1 1 .store] }) id
    (fun g _ _ => g.ts && g.ops.any Op.isAccess) = true := by decide +kernel
theorem test_tret_returns : met (wd 0x007 0xFF 0xFF 0xFF 0xFF 0 0) (fun g => { private64 g with ts := true, pwin := 0x20001 }) framed (fun g c m =>
    g.ts && g.ops.isEmpty && decide (g.frameOff + 32 ≤ g.privLen) && (match m.translate c.gi (g.privAddr 0 g.frameOff) accRead with
      | (.ok pa, m1) => m1.destOk g.func (some g.pkg) pa && pa == 0x20000 && m1.gpoison.isEmpty &&
          (List.range 512).all (fun k => m1.privSeen c.gi (pa + k) == 0)
      | _ => false)) = true := by decide +kernel

/-- TRET that traps with TS set: no room for its frames, a page not held, an address that a table cannot give, a frame of no destination, a
poisoned line of a frame, and a PC that is no multiple of 8, in lane 63 alone. -/
theorem test_tret_double :
    let tret := wd 0x007 0xFF 0xFF 0xFF 0xFF 0 0
    let inTrap := fun (g : Group) => { private64 g with ts := true, tbase := 0x1800 }
    let may := fun (g : Group) (c : Ctx) (m : State) => g.ts && g.ops.isEmpty && g.resident && decide (m.ringVa g.func = 0 ∧ c.gi < m.groups.length)
    let walked := fun (g : Group) (c : Ctx) (m : State) => m.translate c.gi (g.privAddr 0 g.frameOff) accRead
    met tret (fun g => { g with ts := true, tbase := 0x1800 }) id (fun g c m => may g c m && decide (g.privLen < g.frameOff + 32)) = true ∧
    met tret (fun g => { inTrap g with pwin := 0x20001, xfFail := some 0x20000 }) id (fun g c m => may g c m &&
      decide (g.frameOff + 32 ≤ g.privLen) && (walked g c m).1 == .page) = true ∧
    met tret (fun g => { inTrap g with pwin := 0x20001 }) (mapped 0x20000 0x180030000000000) (fun g c m => may g c m && (match walked g c m with
      | (.ok pa, m1) => !m1.destOk g.func (some g.pkg) pa
      | _ => false)) = true ∧
    met tret inTrap (fun s => { s with gpoison := [0x1780] }) (fun g c m => may g c m && (match walked g c m with
      | (.ok pa, m1) => m1.destOk g.func (some g.pkg) pa && pa == 0x1000 && m1.poisoned .glob (pa + 128 * 15)
      | _ => false)) = true ∧
    met tret (fun g => { inTrap g with pwin := 0x20001 }) (fun s => { framed s with mem := s.mem.write 0x200FC [4] }) (fun g c m =>
      may g c m && (match walked g c m with
      | (.ok pa, m1) => m1.destOk g.func (some g.pkg) pa && pa == 0x20000 && m1.gpoison.isEmpty && g.live.getLsbD 63 &&
          (List.range 64).all (fun i => (List.range 8).all (fun k =>
            m1.privSeen c.gi (pa + 256 * (k / 4) + 4 * i + k % 4) == if i == 63 && k == 0 then 4 else 0))
      | _ => false)) = true := by decide +kernel

/-! Waiting, growth, barriers, own state -/

/-- The conditions of SUSPEND: a counter reached and not; a till reached and not; a monitor's word equal and not, and no entry free. -/
theorem test_suspend_counter :
    met (wd 0x008 0xFF 0xC1 0xFF 0xFF 0 0) (scalars [0, 1]) id (fun g c m => clean c m &&
      decide ((g.ctr.getD 0 0).toNat < (g.scalarOf c.lane 0xC1).toNat)) = true ∧
    met (wd 0x008 0xFF 0xC1 0xFF 0xFF 0x3C 0) (fun g => { scalars [0, 1] g with ctr := List.replicate 16 1 }) id (fun g c m => clean c m &&
      decide ((g.scalarOf c.lane 0xC1).toNat ≤ (g.ctr.getD 15 0).toNat)) = true := by decide +kernel
theorem test_suspend_till :
    met (wd 0x008 0xFF 0xC1 0xC2 0xFF 1 0) (scalars [0, 0, 0x80000FF8]) oneUnit (fun g c m => clean c m && m.allotted g.func g.pkg 0xFF8 &&
      tilePlace g.pkg (g.scalarOf c.lane 0xC2).toNat == some (0, 0xFF8) && m.tillMet 0xFF8 (g.scalarOf c.lane 0xC1)) = true ∧
    met (wd 0x008 0xFF 0xC1 0xC2 0xFF 1 0) (scalars [0, 1, 0x80000000]) oneUnit (fun g c m => clean c m && m.allotted g.func g.pkg 0 &&
      tilePlace g.pkg (g.scalarOf c.lane 0xC2).toNat == some (0, 0) && !m.tillMet 0 (g.scalarOf c.lane 0xC1)) = true := by decide +kernel
theorem test_suspend_monitor :
    met (wd 0x008 0xFF 0xC1 0xC2 0xFF 2 0) (scalars [0, 0, 0x1800]) id (fun g c m => clean c m && !m.fenced 0x1800 &&
      decide (m.translate c.gi 0x1800 accRead = (.ok 0x1800, m)) && m.destOk g.func (some g.pkg) 0x1800 &&
      decide (m.monitors g.pkg < 32) && m.seenWord g.func 0x1800 == g.scalarOf c.lane 0xC1) = true ∧
    met (wd 0x008 0xFF 0xC1 0xC2 0xFF 2 0) (scalars [0, 5, 0x1FF8]) id (fun g c m => clean c m &&
      decide (m.translate c.gi 0x1FF8 accRead = (.ok 0x1FF8, m)) && m.seenWord g.func 0x1FF8 != g.scalarOf c.lane 0xC1) = true ∧
    met (wd 0x008 0xFF 0xC1 0xC2 0xFF 2 0) (scalars [0, 0, 0x1800]) (more 32 (fun g => { g with st := .suspended, cond := .monitor 0 0 0 }))
      (fun g c m => clean c m && decide (32 ≤ m.monitors g.pkg)) = true ∧
    met (wd 0x008 0xFF 0xC1 0xC2 0xFF 2 0) (scalars [0, 0, 0x1800])
      (fun s => mapped 0x1000 0x180028000001000 (s.setReg (offWin 63) 0x0000000500000002 |>.setReg (offPart 0 6) 0xFFFFFFFF)) (fun g c m =>
      clean c m && (match m.translate c.gi 0x1800 accRead with
        | (.ok pa, m1) => m1.destOk g.func (some g.pkg) pa && m1.fenced pa
        | _ => false)) = true := by decide +kernel
theorem test_suspend_refused :
    met (wd 0x008 0xFF 0xC1 0xC2 0xFF 1 0) (scalars [0, 0, 0x20000000]) id (fun g c m => clean c m && ownPlace g.pkg 0x20000000 == none) = true ∧
    met (wd 0x008 0xFF 0xC1 0xC2 0xFF 1 0) (scalars [0, 0, 0x80001000]) oneUnit (fun g c m => clean c m && ownPlace g.pkg 0x80001000 == some 0x1000 &&
      !m.allotted g.func g.pkg 0x1000) = true ∧
    met (wd 0x008 0xFF 0xC1 0xC2 0xFF 1 0) (scalars [0, 0, 0x80000FFC]) oneUnit (fun g c m => clean c m && ownPlace g.pkg 0x80000FFC == some 0xFFC &&
      m.allotted g.func g.pkg 0xFFC) = true ∧
    met (wd 0x008 0xFF 0xC1 0xC2 0xFF 2 0) (scalars [0, 0, 0x200000000000000]) id (fun _ c m => clean c m) = true ∧
    met (wd 0x008 0xFF 0xC1 0xC2 0xFF 2 0) (scalars [0, 0, 4]) id (fun _ c m => clean c m) = true := by decide +kernel

/-- GROW with blocks free and not, and beyond 12; SHRINK to one block, to none, and of the window. -/
theorem test_grow :
    met (wd 0x00A 0xFF 0xFF 0 4 0 0) (fun g => { g with blk := 8, v := g.v.take 128 }) id (fun g _ m =>
      decide (g.blk + 4 ≤ 12 ∧ 4 ≤ m.freeBlocks g.pkg g.qtr)) = true ∧
    met (wd 0x00A 0xFF 0xFF 0 4 0 0) (fun g => { g with blk := 4 }) (more 5 (fun g => { g with blk := 12 })) (fun g _ m =>
      decide (g.blk + 4 ≤ 12 ∧ m.freeBlocks g.pkg g.qtr < 4)) = true ∧
    met (wd 0x00A 0xFF 0xFF 0 1 0 0) id id (fun g _ _ => decide (12 < g.blk + 1)) = true := by decide +kernel
theorem test_shrink :
    met (wd 0x00B 0xFF 0xFF 0 11 0 0) id id (fun g c m => clean c m && decide (11 < g.blk) && !g.mm && !g.draining && g.cond == .none) = true ∧
    met (wd 0x00B 0xFF 0xFF 0 11 0 0) (fun g => { g with blk := 11 }) id (fun g _ _ => decide (g.blk < 12)) = true ∧
    met (wd 0x00B 0xFF 0xFF 0 5 0 0) inMatrix id (fun g _ _ => g.mm && decide (16 * (g.blk - 5) < g.wbase + 64)) = true ∧
    met (wd 0x00B 0xFF 0xFF 0 4 0 0) inMatrix id (fun g _ _ => g.mm && decide (g.wbase + 64 ≤ 16 * (g.blk - 4))) = true := by decide +kernel

/-- YIELD with a slot still set, and with room for its image. -/
theorem test_yield :
    met (wd 0x009 0xFF 0xFF 0xFF 0xFF 1 0) (fun g => { g with ops := [op_ 1 7 .store] }) id (fun g _ _ => g.ops.any (fun o => o.slot != 0)) = true ∧
    met (wd 0x009 0xFF 0xFF 0xFF 0xFF 1 0) (fun g => { g with blk := 1, v := g.v.take 16 }) (fun s => s.setReg (offSave 0 1) 1) (fun g c m =>
      let m1 := (m.modGrp c.gi (fun g => { g.endClause c.cl with clauses := [] })).modGrp c.gi (fun g => { g.landAll with debt := [] })
      g.ops.isEmpty && m1.imageRoom g.func (alignUp (m1.imageBytes c.gi).length 4096) == some 0) = true := by decide +kernel

/-- Barriers with a waiter missing and with all there; a grid barrier; the illegal ones; a commit step outstanding. -/
theorem test_team_barrier :
    met (wd 0x00C 0xFF 0xFF 0 3 0 0) id (more 1 id) (fun g c m => g.ops.isEmpty && g.st == .active &&
      m.participants g (.teamBarrier 3) == [0, 1] && (m.grp 1).cond == .none && c.gi == 0) = true ∧
    met (wd 0x00C 0xFF 0xFF 0 3 0 0) id (more 1 (fun g => { g with st := .suspended, cond := .teamBarrier 3 })) (fun g c m =>
      g.ops.isEmpty && g.st == .active && m.participants g (.teamBarrier 3) == [0, 1] && (m.grp 1).cond == .teamBarrier 3 && c.gi == 0) = true ∧
    met (wd 0x00C 0xFF 0xFF 0 3 0 0) (fun g => { g with ops := [op_ 1 1 (.commit 3 false)] }) id
      (fun g _ _ => g.ops.any (fun o => o.commitStep.isSome)) = true := by decide +kernel
theorem test_cluster_barrier :
    met (wd 0x00D 0xFF 0xFF 0 3 0 0) (fun g => { g with clus := 0x210 }) id (fun g _ m => g.ops.isEmpty && g.st == .active &&
      decide (bitsN g.clus 11 8 * bitsN g.clus 7 4 ≠ 1) && m.participants g (.clusterBarrier 3) == [0]) = true ∧
    met (wd 0x00D 0xFF 0xFF 0 3 0 0) (fun g => { g with clus := 0x110 }) id (fun g _ _ =>
      decide (bitsN g.clus 11 8 * bitsN g.clus 7 4 = 1)) = true := by decide +kernel
theorem test_grid_barrier :
    met (wd 0x00E 0xFF 0xFF 0 3 0 0) (fun g => { g with grid := 0x40000 }) id (fun g _ _ => g.ops.isEmpty && g.alive && decide (3 < g.nbarg)) = true ∧
    met (wd 0x00E 0xFF 0xFF 0 3 0 0) (fun g => { g with grid := 0x30000 }) id (fun g _ _ => decide (g.nbarg ≤ 3)) = true := by decide +kernel

/-- WRSR of each index it writes, of a priority lowered, kept and raised, and of one it does not write; EVADD not suspended. -/
theorem test_wrsr :
    met (wd 0x381 0xFF 0xC1 0 0 0 0) id id (fun _ c m => clean c m) = true ∧ met (wd 0x381 0xFF 0xC1 0 1 0 0) id id (fun _ c m => clean c m) = true ∧
    met (wd 0x381 0xFF 0xC1 0 2 0 0) id id (fun _ c m => clean c m) = true ∧ met (wd 0x381 0xFF 0xC1 0 3 0 0) id id (fun _ c m => clean c m) = true ∧
    met (wd 0x381 0xFF 0xC1 0 7 0 0) (fun g => { scalars [0, 3] g with prioBase := 3 }) id (fun g c m => clean c m &&
      decide (bitsN (g.scalarOf c.lane 0xC1) 2 0 ≤ g.prioBase)) = true ∧
    met (wd 0x381 0xFF 0xC1 0 7 0 0) (fun g => { scalars [0, 4] g with prioBase := 3 }) id (fun g c m => clean c m &&
      decide (g.prioBase < bitsN (g.scalarOf c.lane 0xC1) 2 0)) = true := by decide +kernel
/-- RDSR of TEAM, which a soft error has taken, and of a word that none has. -/
theorem test_rdsr_lost : [9, 10].all (fun k => met (wd 0x380 0xC3 0xFF 0 k 0 0) (fun g => { g with lost := [9] }) id (fun g c m =>
    clean c m && g.lost.contains k == (k == 9))) = true := by decide +kernel
theorem test_evadd : met (wd 0x015 0xFF 0xC1 0xFF 0xFF 0 0) id id (fun g c m => clean c m && g.st != .suspended) = true := by decide +kernel

/-- SPAWN's addresses: the highest that is aligned, beyond 2^57, and no multiple of 64. -/
theorem test_spawn :
    met (wd 0x00F 0xFF 0xC1 0xFF 0xFF 0 1) (scalars [0, 0x1FFFFFFFFFFFFC0]) id (fun _ c m => clean c m) = true ∧
    met (wd 0x00F 0xFF 0xC1 0xFF 0xFF 0 1) (scalars [0, 0x200000000000000]) id (fun _ c m => clean c m) = true ∧
    met (wd 0x00F 0xFF 0xC1 0xFF 0xFF 0 1) (scalars [0, 0x1020]) id (fun _ c m => clean c m) = true := by decide +kernel

/-! Memory -/

/-- Whether the tests of a word's addresses pass. -/
def found (x : Found4) : Bool :=
  match x with
  | .ok .. => true
  | .stop _ => false

/-- Tests of addresses that pass at the ends of their ranges: the last word of the page, of the unit and of the private window. -/
theorem test_addresses_pass :
    met (wd 0x284 20 0xC1 0xFF 0 2 1) id id (fun g c m => (lanesOf c.act).length == 64 && (List.range 4).all (fun k =>
      decide (m.translate c.gi (0x1FFC + k) accRead = (.ok (0x1FFC + k), m)) && m.destOk g.func (some g.pkg) (0x1FFC + k))) = true ∧
    met (wd 0x282 20 0xC1 0xFF 0 2 1) id oneUnit (fun g _ m => m.tileRange g.func g.pkg 0x80000FFC 4 == some 0xFFC &&
      m.tileRange g.func g.pkg 0xFFC 4 == some 0xFFC && m.tileRange g.func g.pkg 0x80000FFD 4 == none) = true ∧
    met (wd 0x280 20 0xC1 0xFF 0 2 1) private64 id (fun g c m => decide (60 + 4 ≤ g.privLen) && (List.range 4).all (fun k =>
      decide (m.translate c.gi (g.privAddr 63 (60 + k)) accRead = (.ok (0x1FFC + k), m)) && m.destOk g.func (some g.pkg) (0x1FFC + k))) = true := by
  decide +kernel

/-- Words that the tests of their addresses stop: a page not held, no allotment, beyond the window, and beyond 2^57. -/
theorem test_addresses_stop :
    met (wd 0x284 20 0xC1 0xFF 0 2 1) (scalars [0, 0x2000]) id (fun g c m => clean c m &&
      !found (c.globAccs m (fun i => (g.laneOf 0xC1 i).toNat) 4 accRead (fun _ => true))) = true ∧
    met (wd 0x285 0xFF 0xC1 0xC2 0 2 1) (scalars [0, 0x200000000000000]) id (fun g c m => clean c m &&
      !found (c.globAccs m (fun _ => (g.scalarOf c.lane 0xC1).toNat) 4 accWrite (fun _ => true))) = true ∧
    met (wd 0x282 20 0xC1 0xFF 0 2 1) id id (fun _ c m => clean c m && !found (c.tileAccs m (fun _ => 0) 4 (fun _ => true))) = true ∧
    met (wd 0x280 20 0xC1 0xFF 0 2 1) id id (fun _ c m => clean c m && !found (c.privAccs m (fun _ => 0) 4 accRead)) = true ∧
    met (wd 0x281 0xFF 0xC1 0xC2 0 2 1) private64 id (fun _ c m => clean c m && !found (c.privAccs m (fun _ => 2) 4 accWrite)) = true := by
  decide +kernel




/-- Loads whose addresses pass: private, tile-store, global, and watching in either space. -/
theorem test_loads :
    met (wd 0x280 20 0xC1 0xFF 0 2 1) private64 id (fun g c m => clean c m &&
      found (c.privAccs m (g.address32 (vOps (wd 0x280 20 0xC1 0xFF 0 2 1)) 0) 4 accRead)) = true ∧
    met (wd 0x282 20 0xC1 0xFF 4 4 1) id oneUnit (fun g c m => clean c m &&
      found (c.tileAccs m (g.address32 (vOps (wd 0x282 20 0xC1 0xFF 4 4 1)) 64) 16 (fun _ => true))) = true ∧
    met (wd 0x284 20 0xC1 0xFF 0 2 1) (scalars [0, 0x1FFC]) id (fun g c m => clean c m &&
      found (c.globAccs m (g.address64 (vOps (wd 0x284 20 0xC1 0xFF 0 2 1)) 0) 4 accRead (fun _ => true))) = true ∧
    met (wd 0x286 20 0xC1 0 0 0x22 1) id oneUnit (fun g c m => clean c m &&
      found (c.tileAccs m (g.address32 (vOps (wd 0x286 20 0xC1 0 0 0x22 1)) 0) 4 (fun _ => true))) = true ∧
    met (wd 0x286 20 0xC1 1 0 0x22 1) (scalars [0, 0x1800]) id (fun g c m => clean c m &&
      found (c.globAccs m (g.address64 (vOps (wd 0x286 20 0xC1 1 0 0x22 1)) 0) 4 accRead (fun _ => true))) = true := by decide +kernel

/-- Stores whose addresses pass, with room in escrow: plain ones in each space, and releasing ones. -/
theorem test_stores :
    met (wd 0x281 0xFF 0xC1 0xC2 0 2 1) private64 id (fun g c m => clean c m &&
      found (c.privAccs m (g.address32 (vOps (wd 0x281 0xFF 0xC1 0xC2 0 2 1)) 0) 4 accWrite)) = true ∧
    [0x02, 0x32].all (fun k => met (wd 0x283 0xFF 0xC1 0xC2 0 k 1) id oneUnit (fun g c m => clean c m &&
      (match c.tileAccs m (g.address32 (vOps (wd 0x283 0xFF 0xC1 0xC2 0 k 1)) 0) 4 (fun _ => true) with
        | .ok accs m1 => (m1.escFull c.gi .tile accs).isNone && (m1.grp c.gi).debt.isEmpty && !(m1.grp c.gi).owedInteg
        | .stop _ => false))) = true ∧
    [0x02, 0x72].all (fun k => met (wd 0x285 0xFF 0xC1 0xC2 0 k 1) (scalars [0, 0x1800]) id (fun g c m => clean c m &&
      (match c.globAccs m (g.address64 (vOps (wd 0x285 0xFF 0xC1 0xC2 0 k 1)) 0) 4 accWrite (fun _ => true) with
        | .ok accs m1 => (m1.escFull c.gi .glob accs).isNone && (m1.grp c.gi).debt.isEmpty && !(m1.grp c.gi).owedInteg
        | .stop _ => false))) = true := by decide +kernel

/-- A store without room: the group holds its whole share of the pool already. -/
theorem test_store_full : met (wd 0x283 0xFF 0xC1 0xC2 0 0x02 1) id
    (fun s => { oneUnit s with escrow := List.replicate 2048 ⟨0, .group, .glob, 0, 0, [], 0, false, [], true⟩ }) (fun g c m => clean c m &&
      (match c.tileAccs m (g.address32 (vOps (wd 0x283 0xFF 0xC1 0xC2 0 0x02 1)) 0) 4 (fun _ => true) with
        | .ok accs m1 => (m1.escFull c.gi .tile accs).isSome
        | .stop _ => false)) = true := by decide +kernel

/-- The kick store in every lane, and in lane 0 alone. -/
theorem test_kick :
    met (wd 0x283 0xFF 0xC1 0xC2 0 3 1) (scalars [0, 0x801FFF00]) id (fun g c m => clean c m &&
      (lanesOf c.act).all (fun i => isKick g.pkg (g.address32 (vOps (wd 0x283 0xFF 0xC1 0xC2 0 3 1)) 0 i))) = true ∧
    met (wd 0x283 0xFF 5 0xC2 0 3 1)
      (fun g => { g with v := setNth g.v 5 ⟨.g, 0x801FFF00 :: List.replicate 63 0⟩ }) id (fun g c m => clean c m &&
      isKick g.pkg (g.address32 (vOps (wd 0x283 0xFF 5 0xC2 0 3 1)) 0 0) &&
      !isKick g.pkg (g.address32 (vOps (wd 0x283 0xFF 5 0xC2 0 3 1)) 0 1) && c.act == BitVec.allOnes 64) = true := by decide +kernel

/-- Atomics whose addresses pass: ATOMT of a compare and swap, ATOMG with a release, ATOMP with a routine, and without. -/
theorem test_atomics :
    met (wd 0x287 20 0xC1 0xC2 9 0x22 1) id oneUnit (fun g c m => clean c m &&
      found (c.tileAccs m (g.address32 (vOps (wd 0x287 20 0xC1 0xC2 9 0x22 1)) 0) 4 (fun p => p / Config.sliceBytes == g.pkg))) = true ∧
    met (wd 0x288 20 0xC1 0xC2 0 0x7A 1) (scalars [0, 0x1800]) id (fun g c m => clean c m &&
      found (c.globAccs m (g.address64 (vOps (wd 0x288 20 0xC1 0xC2 0 0x7A 1)) 0) 4 accAtomic (fun _ => true))) = true ∧
    met (wd 0x289 20 0xC1 0xC2 63 0x62 1) (scalars [0, 0x1800])
      (fun s => { s with hub := { s.hub with routines := [(0, 63, [0x00000013])] } }) (fun g c m => clean c m && (m.routineOf g.func 63).isSome &&
      found (c.globAccs m (g.address64 (vOps (wd 0x289 20 0xC1 0xC2 63 0x62 1)) 0) 4 accAtomic (fun pa => regionOf pa == 0))) = true ∧
    met (wd 0x289 20 0xC1 0xC2 63 0x62 1) id id (fun g _ m => (m.routineOf g.func 63).isNone) = true := by decide +kernel

/-- Stores enter a state in which no commit covers the group's entries. -/
theorem test_store_seen : ∀ e ∈ State.reset.escrow, e.owner = 0 → e.sealId = 0 := by decide +kernel

/-! Engines, the operand buffer and matrix mode -/

/-- A copy of 32 bytes inside the team's unit: on a die without a copy engine, and on one with it; and one that is misaligned. -/
def copyRegs (len : Nat) (g : Group) : Group := scalars [0, 0x80000000, 0x80000040, BitVec.ofNat 64 (len * 2 ^ 32)] g

def planOk (g : Group) (c : Ctx) (m : State) : Bool :=
  match m.copyPlan g.func g.pkg .tile .tile (g.scalarOf c.lane 0xC1).toNat (g.scalarOf c.lane 0xC2).toNat (bitsN (g.scalarOf c.lane 0xC3) 63 32) 0 with
  | .ok _ => true
  | .error _ => false

theorem test_bulk :
    met (wd 0x300 0xC5 0xC1 0xC2 0xC3 0x10 1) (copyRegs 32) oneUnit (fun g c m => clean c m && planOk g c m && g.resident &&
      !m.copyEngine g.func (g.pkg / 64) && decide (0 < m.seq)) = true ∧
    met (wd 0x300 0xC5 0xC1 0xC2 0xC3 0x10 1) (fun g => { copyRegs 32 g with pendw := [⟨0xC5, 9, [], .g, 0, 0, 0, 0, false⟩] }) oneUnit
      (fun g c m => planOk g c m && g.resident && !m.copyEngine g.func (g.pkg / 64) && decide (0 < m.seq) &&
        g.pendw.any (fun w => w.reg == 0xC5)) = true ∧
    met (wd 0x300 0xC5 0xC1 0xC2 0xC3 0x10 1) (copyRegs 32) (fun s => (oneUnit s).setReg (offPart 0 5) 1) (fun g c m => clean c m &&
      planOk g c m && m.copyEngine g.func (g.pkg / 64) && !m.listing c.gi) = true ∧
    met (wd 0x300 0xC5 0xC1 0xC2 0xC3 0x10 1) (copyRegs 16) oneUnit (fun g c m => clean c m && !planOk g c m) = true := by decide +kernel

/-- A descriptor of one line of values and one of scales of FP8 (R133), and the same with a format code of 10. -/
def desc (fmt len : Nat) : W64 := BitVec.ofNat 64 (len * 2 ^ 38 + fmt * 2 ^ 34 + 48 * 2 ^ 19 + 1 * 2 ^ 8)

theorem test_obres :
    met (wd 0x301 0xC5 0xC1 0xFF 0xFF 0 1) (scalars [0, desc 3 49]) id (fun g c m => clean c m && !g.inUse 0 && obDescOk (g.scalarOf c.lane 0xC1) &&
      !g.loading 0 && firstRun (m.usedLines g.pkg g.qtr) 49 == some 0) = true ∧
    met (wd 0x301 0xC5 0xC1 0xFF 0xFF 0 1) (fun g => { scalars [0, desc 3 49] g with obrec := setNth g.obrec 1 (obFilled (desc 3 4096) 0) }) id
      (fun g c m => clean c m && obDescOk (g.scalarOf c.lane 0xC1) && firstRun (m.usedLines g.pkg g.qtr) 49 == none) = true ∧
    met (wd 0x301 0xC5 0xC1 0xFF 0xFF 0 1) (scalars [0, desc 10 49]) id (fun g c m => clean c m && decide (10 ≤ obFmt (g.scalarOf c.lane 0xC1))) = true ∧
    met (wd 0x301 0xC5 0xC1 0xFF 0xFF 0 1) (scalars [0, desc 3 48]) id (fun g c m => clean c m && !obDescOk (g.scalarOf c.lane 0xC1) &&
      decide (obFmt (g.scalarOf c.lane 0xC1) < 10)) = true := by decide +kernel
theorem test_obrel :
    met (wd 0x302 0xFF 0xFF 0xFF 0xFF 0 1) id id (fun g _ _ => !g.inUse 0 && !g.loading 0 && g.ops.isEmpty) = true ∧
    met (wd 0x302 0xFF 0xFF 0xFF 0xFF 0 1) inMatrix id (fun g _ _ => g.inUse 0 && g.ops.isEmpty) = true := by decide +kernel

/-- OBLOAD of A = offset, B = source, C = length: its range filled, of no length, beyond the record, misaligned, and not allotted. -/
def loadRegs (off src len : W64) (g : Group) : Group := { scalars [0, off, src, len] g with obrec := setNth g.obrec 0 (obFilled (desc 3 49) 0) }

theorem test_obload :
    met (wd 0x303 0xFF 0xC1 0xC2 0xC3 0 1) (loadRegs 0xC00 0x80000000 64) oneUnit (fun g c m => clean c m &&
      m.tileRange g.func g.pkg 0x80000000 64 == some 0 && obValid (g.obrec.getD 0 0) && decide (0xC00 + 64 ≤ 64 * obLen (g.obrec.getD 0 0))) = true ∧
    met (wd 0x303 0xFF 0xC1 0xC2 0xC3 0 1) (loadRegs 0xC40 0x80000000 0) oneUnit (fun g c m => clean c m &&
      m.tileRange g.func g.pkg 0x80000000 0 == some 0 && decide (0xC40 ≤ 64 * obLen (g.obrec.getD 0 0))) = true ∧
    met (wd 0x303 0xFF 0xC1 0xC2 0xC3 0 1) (loadRegs 0xC40 0x80000000 64) oneUnit (fun g c m => clean c m &&
      decide (64 * obLen (g.obrec.getD 0 0) < 0xC40 + 64)) = true ∧
    met (wd 0x303 0xFF 0xC1 0xC2 0xC3 0 1) (loadRegs 0 0x80000020 64) oneUnit (fun g c m => clean c m &&
      m.tileRange g.func g.pkg 0x80000020 64 == some 0x20) = true ∧
    [(32, 64), (0, 32)].all (fun x => met (wd 0x303 0xFF 0xC1 0xC2 0xC3 0 1) (loadRegs x.1 0x80000000 x.2) oneUnit (fun g c m => clean c m &&
      m.tileRange g.func g.pkg 0x80000000 x.2.toNat == some 0)) = true ∧
    met (wd 0x303 0xFF 0xC1 0xC2 0xC3 0 1) (loadRegs 0 0x80000000 64) id (fun g c m => clean c m &&
      m.tileRange g.func g.pkg 0x80000000 64 == none) = true ∧
    met (wd 0x303 0xFF 0xC1 0xC2 0xC3 0 1) (loadRegs 0 0x200000 64)
      (fun s => { more 1 (fun g => { g with pkg := 1 }) (oneUnit s) with hub := ((oneUnit s).setReg (offPart 0 4) 0x100).hub })
      (fun g c m => clean c m && m.tileRange g.func g.pkg 0x200000 64 == some 0x200000) = true := by decide +kernel

/-- Both records of a group reserved for FP8 operands. -/
def operands (g : Group) : Group := { g with obrec := (obFilled (desc 3 49) 0) :: (obFilled (desc 3 49) 49) :: List.replicate 6 0, brec := 1 }

/-- An operation of the array outstanding in the group. -/
def multiplying (g : Group) : Group := { inMatrix g with ops := [op_ 1 0 (.mop 0)] }

theorem test_mode :
    met (wd 0x304 0x40 0xFF 0xFF 0xFF 0x23 0) operands id (fun g _ _ => obValid (g.obrec.getD 0 0) && obValid (g.obrec.getD 1 0) &&
      pairOk (obFmt (g.obrec.getD 0 0)) (obFmt (g.obrec.getD 1 0)) && g.pendw.isEmpty && g.ops.isEmpty) = true ∧
    met (wd 0x304 0x80 0xFF 0xFF 0xFF 0x21 0) id id (fun g _ _ => !obValid (g.obrec.getD 0 0)) = true ∧
    met (wd 0x304 0xFF 0xFF 0xFF 0xFF 0 0) inMatrix id (fun g c _ => !g.arrayWork c.t) = true ∧
    met (wd 0x304 0xFF 0xFF 0xFF 0xFF 0 0) multiplying id (fun g c _ => g.arrayWork c.t) = true := by decide +kernel
theorem test_mzero :
    met (wd 0x305 0xFF 0xFF 0xFF 0xFF 0 0) inMatrix id (fun g _ _ => !g.arrayBusy) = true ∧
    met (wd 0x305 0xFF 0xFF 0xFF 0xFF 0 0) multiplying id (fun g _ _ => g.arrayBusy) = true := by decide +kernel
theorem test_mop :
    met (wd 0x306 0xFF 0xFF 0 0 0 1) (fun g => inMatrix (operands g)) id (fun g c m => clean c m && decide (0 < obK (g.obrec.getD g.arec 0) / 48) &&
      decide (0 < obK (g.obrec.getD g.brec 0) / 48) && !g.loading g.arec && !g.loading g.brec && !g.draining) = true ∧
    met (wd 0x306 0xFF 0xFF 0 1 0 1) (fun g => inMatrix (operands g)) id (fun g _ _ => decide (¬ 1 < obK (g.obrec.getD g.arec 0) / 48)) = true := by
  decide +kernel
theorem test_msync :
    met (wd 0x308 0xFF 0xFF 0xFF 0xFF 0 0) id id (fun g c _ => !g.arrayWork c.t) = true ∧
    met (wd 0x308 0xFF 0xFF 0xFF 0xFF 0 0) multiplying id (fun g c _ => g.arrayWork c.t) = true := by decide +kernel

/-- MDRAIN on a die without an engine, and with one; an INT32 drain of a window that is not INT8; addresses refused; tills that are refused. -/
theorem test_mdrain :
    met (wd 0x307 0xC5 0xC1 0xC2 0xC3 0 1) (fun g => inMatrix (operands (scalars [0, 0x1FFFFFFFFFFFFC0] g))) id (fun g c m => clean c m &&
      g.resident && !m.copyEngine g.func (g.pkg / 64) && decide (0 < m.seq)) = true ∧
    met (wd 0x307 0xC5 0xC1 0xC2 0xC3 0 1) (fun g => inMatrix (operands (scalars [0, 0x1000] g))) (fun s => s.setReg (offPart 0 5) 1)
      (fun g c m => clean c m && m.copyEngine g.func (g.pkg / 64) && !m.listing c.gi) = true ∧
    met (wd 0x307 0xC5 0xC1 0xC2 0xC3 0x80 1) (fun g => inMatrix (operands g)) id (fun g c m => clean c m &&
      obFmt (g.obrec.getD g.arec 0) != 7) = true ∧
    met (wd 0x307 0xC5 0xC1 0xC2 0xC3 0 1) (fun g => inMatrix (operands (scalars [0, 0x200000000000000] g))) id (fun _ c m => clean c m) = true ∧
    met (wd 0x307 0xC5 0xC1 0xC2 0xC3 0 1) (fun g => inMatrix (operands (scalars [0, 0x1020] g))) id (fun _ c m => clean c m) = true ∧
    met (wd 0x307 0xC5 0xC1 0xC2 0xC3 0 1) (fun g => inMatrix (operands (scalars [0, 0x1000, 0, 0x801FF000] g))) id (fun g c m => clean c m &&
      ownPlace g.pkg 0x801FF000 == none) = true ∧
    met (wd 0x307 0xC5 0xC1 0xC2 0xC3 0 1) (fun g => inMatrix (operands (scalars [0, 0x1000, 0, 0x801FEFFC] g))) id (fun g c m => clean c m &&
      ownPlace g.pkg 0x801FEFFC != none) = true := by decide +kernel

/-! Steps of the device: states in which the hypotheses of their statements hold -/

/-- A group at an issue boundary, resident in quarter 0 of core 0 of world 0, changed by f, and the rest of the state by h. -/
def dev (f : Group → Group) (h : State → State) : State := at_ (wd 0x000 0xFF 0xFF 0xFF 0xFF 0 0) (fun g => f { g with clauses := [] }) h

/-- The same with one outstanding operation. -/
def devOp (d : RegCode) (kind : OpKind) (h : State → State) : State :=
  dev (fun g => { g with ops := [⟨7, 1, d, 1, BitVec.allOnes 64, 0, kind⟩] }) h

theorem alone_devOp (d : RegCode) (kind : OpKind) (h : State → State) (hg : (h (devOp d kind id)).groups = (devOp d kind id).groups)
    (he : devOp d kind h = h (devOp d kind id)) : Alone (devOp d kind h) 0 ⟨7, 1, d, 1, BitVec.allOnes 64, 0, kind⟩ := by
  have h0 : (devOp d kind h).grp 0 = (devOp d kind id).grp 0 := by rw [he]; simp only [State.grp, hg]
  exact ⟨by rw [he, hg]; exact Nat.one_pos, by rw [h0]; rfl, by rw [h0]; rfl, by rw [h0]; rfl⟩

/-- Five levels of tables of world 0, of which the last maps 0x1000 to the frame there with every right; entry n of them as e gives it. -/
def tables (leaf : W64) (s : State) : State :=
  let m := ((((s.mem.putWord 0x10000 0x11021).putWord 0x11000 0x12021).putWord 0x12000 0x13021).putWord 0x13000 0x14021).putWord 0x14008 leaf
  { s.setReg (offWorld 0 1) 0x10000 with
    mem := m
    hub := { (s.setReg (offWorld 0 1) 0x10000).hub with frames := [(1, 0x80), (16, 0x80), (17, 0x80), (18, 0x80), (19, 0x80), (20, 0x80)] } }

/-- The places of n bytes from p on. -/
def from_ (p n : Nat) : List Nat := (List.range n).map (fun k => p + k)

/-- Loads of each kind, of two lanes: LDP and LDG of device DRAM, LDW of either space and LDG of a fabric address, and LDT with its own bytes at one
place. None of their places is poisoned, absent, turned away or covered by another group's private store. -/
theorem test_load_complete :
    let win := fun (s : State) => s.setReg (offWin 63) 0x0000000500000001
    ∀ x ∈ [(0, Space.glob, 0x1800), (1, .tile, 0x10), (2, .glob, 0x1FC0), (2, .glob, 0x180028000001000), (3, .tile, 0x1FEFC0), (4, .glob, 0x1000)],
      let accs : List Acc := [⟨3, x.2.2, from_ x.2.2 4⟩, ⟨63, x.2.2 + 32, from_ (x.2.2 + 32) 4⟩]
      let k := OpKind.load x.1 2 x.2.1 0 2 false accs [(0x10, 9)] []
      Alone (devOp 20 k win) 0 ⟨7, 1, 20, 1, BitVec.allOnes 64, 0, k⟩ ∧
        (let s := devOp 20 k win
         20 + 1 ≤ min 192 (s.grp 0).v.length ∧ (accs.map Acc.lane).Nodup ∧ (∀ a ∈ accs, a.lane < 64 ∧ a.place ≠ []) ∧
           (accs.flatMap Acc.place).all (fun p => !s.poisoned x.2.1 p && !s.absent.contains (alignDown p 64) &&
             (x.2.1 == .tile || !s.turnsAway 0 p) && (s.otherPriv 0 p).isNone) = true) := by
  intro win x hx
  simp only [List.mem_cons, List.mem_nil_iff, or_false] at hx
  rcases hx with rfl | rfl | rfl | rfl | rfl | rfl <;> exact ⟨alone_devOp _ _ _ rfl rfl, by decide +kernel⟩

/-- A line absent, and every byte the group's own: the other way in which a tile load may end; and one that waits, of which a byte is not. -/
theorem test_load_own :
    let own : List (Nat × Byte) := [(0x10, 9), (0x11, 8), (0x12, 7), (0x13, 6)]
    let k := fun (n : Nat) => OpKind.load 1 2 .tile 0 2 false [⟨3, 0x10, from_ 0x10 4⟩] (own.take n) []
    let gone := fun (s : State) => ({ s with absent := [0] } : State)
    ∀ n ∈ [3, 4], Alone (devOp 20 (k n) gone) 0 ⟨7, 1, 20, 1, BitVec.allOnes 64, 0, k n⟩ ∧
      (0 ∈ (devOp 20 (k n) gone).absent ∧ ((from_ 0x10 4).all (fun p => (own.take n).any (fun x => x.1 == p)) = (n == 4))) := by
  intro own k gone n hn
  simp only [List.mem_cons, List.mem_nil_iff, or_false] at hn
  rcases hn with rfl | rfl <;> exact ⟨alone_devOp _ _ _ rfl rfl, by decide +kernel⟩

/-- An LDG that the near cache serves at the end of a line, and one of which it holds none; a line that is poisoned. -/
theorem test_load_near :
    let k := OpKind.load 2 2 .glob 0 2 false [⟨63, 0x187C, from_ 0x187C 4⟩] [] []
    let line : NearLine := ⟨0, 0x1800, List.replicate 128 5, [(0, 0x187B), (1, 0x187C)]⟩
    ∀ h ∈ [fun (s : State) => s.modCore 0 (fun c => { c with near := [line] }), fun s => s.modCore 0 (fun c => { c with near := [] }),
        fun s => { s with gpoison := [0x1800] }],
      Alone (devOp 191 k h) 0 ⟨7, 1, 191, 1, BitVec.allOnes 64, 0, k⟩ ∧
      (let s := devOp 191 k h
       let near := (s.core 0).nearLine 0 0x1800
       191 + 1 ≤ min 192 (s.grp 0).v.length ∧ s.ringVa 0 = 0 ∧ (near = some line ∨ near = none ∨ s.poisoned .glob 0x187F = true) ∧
         (from_ 0x187C 4).all (fun p => alignDown p 128 == 0x1800 && regionOf p != 3 && (s.otherPriv 0 p).isNone && !s.turnsAway 0 p &&
           !line.old.contains (0, p)) = true) := by
  intro k line h hh
  simp only [List.mem_cons, List.mem_nil_iff, or_false] at hh
  rcases hh with rfl | rfl | rfl <;> exact ⟨alone_devOp _ _ _ rfl rfl, by decide +kernel⟩

theorem test_store_complete : Alone (devOp 0xFF .store id) 0 ⟨7, 1, 0xFF, 1, BitVec.allOnes 64, 0, .store⟩ ∧
    Alone (devOp 0xFF .storePrivate id) 0 ⟨7, 1, 0xFF, 1, BitVec.allOnes 64, 0, .storePrivate⟩ :=
  ⟨alone_devOp _ _ _ rfl rfl, alone_devOp _ _ _ rfl rfl⟩

theorem test_prefetch_complete :
    let s := devOp 0xFF (.prefetch 2 [⟨0, 0x1FFF, []⟩]) (tables 0x1067)
    Alone s 0 ⟨7, 1, 0xFF, 1, BitVec.allOnes 64, 0, .prefetch 2 [⟨0, 0x1FFF, []⟩]⟩ ∧ s.prefetchPa (s.grp 0) 0x1FFF = some 0x1FFF ∧
      regionOf 0x1FFF ≠ 3 ∧ s.poisoned .glob 0x1FFF = false :=
  ⟨alone_devOp _ _ _ rfl rfl, by decide +kernel⟩

theorem test_debt_checked : 0 < (dev (fun g => { g with debt := [⟨.tile, 0⟩] }) id).groups.length ∧
    0 < ((dev (fun g => { g with debt := [⟨.tile, 0⟩] }) id).grp 0).debt.length := by decide +kernel

/-- One entry of global memory that a commit covers. -/
def entry7 : Esc := ⟨0, .group, .glob, 0x1800, 0x1800, oneByte 0 5, 7, false, [], true⟩

def oneEntry (s : State) : State := { s with escrow := [entry7] }

theorem held_of {s : State} {gi id : Nat} {e : Esc} (h : e.owner = gi ∧ e.level = .group ∧ e.sealId = id ∧ e.marked = false ∧ e.after = [] ∧
    (e.sector % 32 = 0 ∧ e.data.length = 32) ∧ (e.space = .glob ∨ alignDown e.sector 64 ∉ s.absent)) : Held s gi id e :=
  ⟨h.1, h.2.1, h.2.2.1, h.2.2.2.1, h.2.2.2.2.1, h.2.2.2.2.2.1, h.2.2.2.2.2.2⟩

/-- The same entry in the tile store, and in host memory, at the ends of both. -/
def entryTile : Esc := { entry7 with space := .tile, sector := 0x1FEFE0, va := 0x801FEFE0 }
def entryHost : Esc := { entry7 with sector := 0x17FFFFFFFFFFFE0 }

/-- Commits of each scope and an abort, of an entry that they may move. -/
theorem test_commit_complete : (∀ kind ∈ [OpKind.commit 1 false, .commit 2 false, .commit 3 false, .commit 4 false, .abort 3],
      ∀ e ∈ [entry7, entryTile, entryHost], Alone (devOp 0xC5 kind (fun s => { s with escrow := [e] })) 0 ⟨7, 1, 0xC5, 1, BitVec.allOnes 64, 0, kind⟩) ∧
    (∀ e ∈ [entry7, entryTile, entryHost], let s := devOp 0xC5 (.commit 3 false) (fun s => { s with escrow := [e] })
      Held s 0 7 e ∧ (s.poisoned e.space e.sector = false ∧ s.egress = [] ∧ s.mem.wf = true ∧ s.tile.wf = true ∧ (s.grp 0).wovf = false ∧
        (s.grp 0).whit = false ∧ (s.grp 0).watch = [] ∧ (s.grp 0).debt = [] ∧ (s.grp 0).owedInteg = false ∧ s.groups.length = 1 ∧
        (e.space = .glob → s.turnsAway (s.grp 0).func e.sector = false) ∧ e.data.getD 0 none = some 5)) ∧
    regionOf entry7.sector = 0 ∧ regionOf entryHost.sector = 2 := by
  refine ⟨fun _ _ _ _ => alone_devOp _ _ _ rfl rfl, ?_, by decide +kernel, by decide +kernel⟩
  intro e he
  simp only [List.mem_cons, List.mem_nil_iff, or_false] at he
  rcases he with rfl | rfl | rfl <;> exact ⟨held_of (by decide +kernel), by decide +kernel⟩

/-- A commit to system scope with a sector of host memory in the egress escrow, at the end of the region. -/
theorem test_commit_drains :
    let x : Egress := ⟨0x17FFFFFFFFFFFE0, oneByte 31 9, 0, none, 0, none, some 0⟩
    let h := fun (s : State) => ({ s with egress := [x] } : State)
    Alone (devOp 0xC5 (.commit 4 false) h) 0 ⟨7, 1, 0xC5, 1, BitVec.allOnes 64, 0, .commit 4 false⟩ ∧
      (let s := devOp 0xC5 (.commit 4 false) h
       s.escrow = [] ∧ s.egress = [x] ∧ regionOf x.sector = 2 ∧ s.stopped x = false ∧ s.mem.wf = true ∧ (s.grp 0).debt = [] ∧
         (s.grp 0).owedInteg = false) := ⟨alone_devOp _ _ _ rfl rfl, by decide +kernel⟩

/-- A releasing store behind an entry of its seal, at each scope; and one held back by an absent line. -/
theorem test_release_complete :
    let own : Esc := { entry7 with sector := 0x1FE0, sealId := 8 }
    (∀ k ∈ [1, 2, 3], ∀ e ∈ [entry7, entryTile], ∀ n ∈ [[], [alignDown entryTile.sector 64]],
      Alone (devOp 0xFF (.storeRel k 8) (fun s => { s with escrow := [e, own], absent := n })) 0 ⟨7, 1, 0xFF, 1, BitVec.allOnes 64, 0, .storeRel k 8⟩) ∧
    (let s := devOp 0xFF (.storeRel 3 8) (fun s => { s with escrow := [entry7, own] })
     Lands s 0 7 entry7 ∧ Lands s 0 8 own ∧ s.escrow = [entry7, own] ∧ s.mem.wf = true ∧ (s.grp 0).debt = [] ∧ (s.grp 0).owedInteg = false) := by
  refine ⟨fun _ _ _ _ _ _ => alone_devOp _ _ _ rfl rfl, ⟨held_of (by decide +kernel), by decide +kernel, by decide +kernel, by decide +kernel,
    by decide +kernel⟩, ⟨held_of (by decide +kernel), by decide +kernel, by decide +kernel, by decide +kernel, by decide +kernel⟩, by decide +kernel⟩

/-- A kick store behind an entry, with the last place of its core's lists free. -/
theorem test_kick_performed :
    let held := List.replicate (Config.listMax - 1) (⟨0x80000000, 3, 0, 0, 0, 0, []⟩ : ListReq)
    let h := fun (s : State) => ({ (s.modCore 0 (fun c => { c with lists := held })) with escrow := [entry7] } : State)
    let k := OpKind.kick [0x80000000] true
    Alone (devOp 0xFF k h) 0 ⟨7, 1, 0xFF, 1, BitVec.allOnes 64, 0, k⟩ ∧ Lands (devOp 0xFF k h) 0 7 entry7 ∧
      (((devOp 0xFF k h).core ((devOp 0xFF k h).grp 0).pkg).lists.length + 1 ≤ Config.listMax ∧ (devOp 0xFF k h).mem.wf = true) :=
  ⟨alone_devOp _ _ _ rfl rfl, ⟨held_of (by decide +kernel), by decide +kernel, by decide +kernel, by decide +kernel, by decide +kernel⟩,
    by decide +kernel⟩

/-- A commit behind a line that is still unchecked, and behind one that has failed its check. -/
theorem test_commit_indebted : (∀ f ∈ [fun (g : Group) => { g with debt := [⟨.glob, 0x1000⟩] }, fun g => { g with owedInteg := true }],
    let s := dev (fun g => f { g with ops := [⟨7, 1, 0xC5, 1, BitVec.allOnes 64, 0, .commit 3 false⟩] }) id
    Alone s 0 ⟨7, 1, 0xC5, 1, BitVec.allOnes 64, 0, .commit 3 false⟩ ∧ ((s.grp 0).debt ≠ [] ∨ (s.grp 0).owedInteg = true)) := by
  intro f hf
  simp only [List.mem_cons, List.mem_nil_iff, or_false] at hf
  rcases hf with rfl | rfl <;> exact ⟨⟨by decide +kernel, by decide +kernel, by decide +kernel, by decide +kernel⟩, by decide +kernel⟩

theorem test_conflict :
    let s := dev (fun g => { g with ops := [⟨7, 1, 0xC5, 1, BitVec.allOnes 64, 0, .commit 1 false⟩], watch := [⟨.glob, 0x1800, 1, true⟩] }) oneEntry
    Alone s 0 ⟨7, 1, 0xC5, 1, BitVec.allOnes 64, 0, .commit 1 false⟩ ∧ (s.grp 0).wovf = false ∧ ∃ w ∈ (s.grp 0).watch, w.hit = true :=
  ⟨⟨by decide +kernel, by decide +kernel, by decide +kernel, by decide +kernel⟩, by decide +kernel⟩

/-- A group installed with the hit that its image holds, and no place of its watch set taken. -/
theorem test_conflict_restored :
    let s := dev (fun g => { g with ops := [⟨7, 1, 0xC5, 1, BitVec.allOnes 64, 0, .commit 1 false⟩], whit := true }) oneEntry
    Alone s 0 ⟨7, 1, 0xC5, 1, BitVec.allOnes 64, 0, .commit 1 false⟩ ∧ (s.grp 0).wovf = false ∧ (s.grp 0).whit = true ∧ (s.grp 0).watch = [] :=
  ⟨⟨by decide +kernel, by decide +kernel, by decide +kernel, by decide +kernel⟩, by decide +kernel⟩

theorem test_release_performed : Alone (devOp 0xC5 (.request (some 3)) id) 0 ⟨7, 1, 0xC5, 1, BitVec.allOnes 64, 0, .request (some 3)⟩ ∧
    (devOp 0xC5 (.request (some 3)) id).escrow = [] := ⟨alone_devOp _ _ _ rfl rfl, by decide +kernel⟩

/-- Atomics of either width on the last bytes of either space, with a destination whose registers are the last, and without one. -/
theorem test_atomic_performed :
    ∀ x ∈ [(Space.tile, 0x1FEFF8), (.glob, 0x1FF8)], ∀ w ∈ [2, 3], ∀ d ∈ [(190 : RegCode), 0xFF],
      let k := OpKind.atomic x.1 0 1 w false true [⟨63, x.2, from_ x.2 (2 ^ w)⟩] [] [] []
      Alone (devOp d k id) 0 ⟨7, 1, d, 1, BitVec.allOnes 64, 0, k⟩ ∧
      (let s := devOp d k id
       (d = 0xFF ∨ d.toNat + 2 ≤ min 192 (s.grp 0).v.length) ∧ s.absent = [] ∧ s.poison = [] ∧ s.gpoison = [] ∧ s.tile.wf = true ∧ s.mem.wf = true ∧
         s.egress = [] ∧ s.escrow = [] ∧ x.2 % 2 ^ w = 0 ∧ regionOf x.2 = 0 ∧ s.poisoned x.1 x.2 = false ∧
         (x.1 = .glob → s.turnsAway (s.grp 0).func x.2 = false)) := by
  intro x hx w hw d hd
  simp only [List.mem_cons, List.mem_nil_iff, or_false] at hx hw hd
  rcases hx with rfl | rfl <;> rcases hw with rfl | rfl <;> rcases hd with rfl | rfl <;> exact ⟨alone_devOp _ _ _ rfl rfl, by decide +kernel⟩

theorem test_routine_run : ∀ w ∈ [2, 3], ∀ d ∈ [(190 : RegCode), 0xFF],
    let k := OpKind.atomp 63 w false false [⟨63, 0x1FF8, [0x1FF8]⟩] [] [] []
    Alone (devOp d k id) 0 ⟨7, 1, d, 1, BitVec.allOnes 64, 0, k⟩ ∧
    (let s := devOp d k id
     (d = 0xFF ∨ d.toNat + 2 ≤ min 192 (s.grp 0).v.length) ∧ s.turnsAway (s.grp 0).func 0x1FF8 = false ∧ regionOf 0x1FF8 = 0 ∧
       s.poisoned .glob 0x1FF8 = false ∧ s.egress = [] ∧ s.escrow = [] ∧ s.mem.wf = true) := by
  intro w hw d hd
  simp only [List.mem_cons, List.mem_nil_iff, or_false] at hw hd
  rcases hw with rfl | rfl <;> rcases hd with rfl | rfl <;> exact ⟨alone_devOp _ _ _ rfl rfl, by decide +kernel⟩

/-- An SFU result, a MOP at the head of the array queue, and the records and drains that end. -/
theorem test_sfu_complete : Alone (devOp 20 (.sfu VReg.zero 0 0) id) 0 ⟨7, 1, 20, 1, BitVec.allOnes 64, 0, .sfu VReg.zero 0 0⟩ ∧
    (devOp 20 (.sfu VReg.zero 0 0) id).sfuFirst 0 0 = some 7 := ⟨alone_devOp _ _ _ rfl rfl, by decide +kernel⟩

theorem test_mop_complete :
    let s := dev (fun g => { inMatrix (operands g) with ops := [⟨7, 1, 0xFF, 1, BitVec.allOnes 64, 0, .mop 0⟩] })
      (fun s => s.modQuarter 0 0 (fun q => { q with arrayQ := [(0, 7)] }))
    Alone s 0 ⟨7, 1, 0xFF, 1, BitVec.allOnes 64, 0, .mop 0⟩ ∧ (s.quarter 0 0).arrayQ = [(0, 7)] ∧ 0 < (s.core 0).qtr.length ∧
      (s.grp 0).wbase + 64 ≤ (s.grp 0).v.length :=
  ⟨⟨by decide +kernel, by decide +kernel, by decide +kernel, by decide +kernel⟩, by decide +kernel⟩

theorem test_array_issue :
    let s := at_ (wd 0x182 20 5 6 0xFF 0 0) id id
    s.nextClause 0 = some 0 ∧ s.dueFirst 0 = true ∧ (s.grp 0).resident = true ∧ (s.grp 0).killing = none ∧ (s.quarter 0 0).arrayQ = [] ∧
      (match s.fetch 0 0x1008 with
        | .word w _ => isArrayOp (opOf w)
        | _ => false) = true := by decide +kernel

theorem test_engine_ops_complete : (∀ kind ∈ [OpKind.obres 0 4 0, .obload 0 0xC00 0 64 [], .mdrain 0],
      Alone (devOp 0xC5 kind id) 0 ⟨7, 1, 0xC5, 1, BitVec.allOnes 64, 0, kind⟩) ∧
    (let s := devOp 0xC5 (.obload 0 0xC00 0 64 []) id
     s.escrow = [] ∧ s.opbuf.wf = true ∧ s.absent = [] ∧ s.poison = [] ∧ (s.grp 0).debt = [] ∧ (s.grp 0).owedInteg = false) :=
  ⟨fun _ _ => alone_devOp _ _ _ rfl rfl, by decide +kernel⟩

/-! Scheduling -/

/-- A header of one CTRL word with both guards true, in memory at 0x1000, and the group's lanes there. -/
def header (w : W64) (s : State) : State := { s with mem := s.mem.putWord 0x1000 w }

/-- The group as active at an issue boundary, its run chosen, and the header it names. -/
def chosen (g : Group) : Group := { g with sel := [⟨0x1000, 0, BitVec.allOnes 64⟩] }

theorem test_issue_slot : let s := at_ (wd 0x000 0xFF 0xFF 0xFF 0xFF 0 0) id id
    0 ∈ s.inQuarter 0 0 ∧ s.mayIssue 0 = true ∧ s.inQuarter 0 0 = [0] := by decide +kernel
theorem test_clause_start : let s := dev chosen (header 0x0001FC00FC000000)
    s.starter 0 0 = some 0 ∧ (s.grp 0).sel = [⟨0x1000, 0, BitVec.allOnes 64⟩] ∧ s.fetch 0 0x1000 = .word 0x0001FC00FC000000 s ∧
      headerBad 0x0001FC00FC000000 = false ∧ (s.grp 0).waitMet 0x0001FC00FC000000 = true ∧ (s.grp 0).live = BitVec.allOnes 64 := by decide +kernel
theorem test_run_chosen : let s := dev id (header 0x0001FC00FC000000)
    s.maySelect 0 = true ∧ (s.grp 0).sel = [] ∧ (match s.choose 0 with
      | (.runs .., s1) => decide (s1.groups = s.groups)
      | _ => false) = true := by decide +kernel
theorem test_admission : let s := dev (fun g => { g with st := .pending }) (header 0x0001FC00FC000000)
    s.readyIn 0 0 = [0] ∧ (s.activeIn 0 0).length < Config.activeMax := by decide +kernel
theorem test_admission_full :
    let s := dev (fun g => { g with st := .pending, prioBase := 7, slot := 15 }) (fun s => more 8 (fun g => { g with st := .active, prioBase := 6 })
      (header 0x0001FC00FC000000 s))
    s.readyIn 0 0 = [0] ∧ Config.activeMax ≤ (s.activeIn 0 0).length ∧ ∃ v ∈ s.lowest (s.activeIn 0 0), v < s.groups.length ∧
      (s.grp v).prio < (s.grp 0).prio ∧ (s.grp v).clauses = [] := by decide +kernel
theorem test_wait_demotion :
    let s := dev (fun g => { g with waiting := true, waitClk := 0, ops := [op_ 1 1 .store], sel := [⟨0x1000, 0, BitVec.allOnes 64⟩] })
      (fun s => more 1 (fun g => { g with st := .pending, ops := [], sel := [] }) ((header 0x0003FC00FC000000 s).advance 0 64))
    (s.grp 0).st = .active ∧ (s.grp 0).waiting = true ∧ (s.grp 0).clauses = [] ∧ (s.grp 0).waitClk + 64 ≤ s.clk 0 ∧
      s.readyIn 0 0 ≠ [] ∧ s.waitHeld 0 = true := by decide +kernel

/-- Whether a trap is taken, a save or an installation done. -/
def tried (x : Try) : Bool :=
  match x with
  | .done _ => true
  | .hold _ => false

def saved (x : SaveRes) : Bool :=
  match x with
  | .done _ => true
  | _ => false

theorem test_traps_owed :
    let g0 := fun (g : Group) => chosen { private64 g with tbase := 0x1800 }
    ∀ f ∈ [fun (g : Group) => { g0 g with owedInteg := true }, fun g => { g0 g with pages := [(0, 0x1000, accWrite)] }, fun g => { g0 g with owedSoft := true },
      fun g => { g0 g with preempt := true }],
      let s := dev f id
      s.atBoundary 0 = true ∧ s.aboutTo 0 = some ⟨0x1000, 0, BitVec.allOnes 64⟩ ∧ (s.grp 0).runs.head? = some ⟨0x1000, 0, BitVec.allOnes 64⟩ ∧ (s.grp 0).ts = false ∧
        tried (s.takeTrap 0 .integrity 0 0x1000 ⟨BitVec.allOnes 64, 0, 0x1000, 0⟩) = true := by decide +kernel
/-- Of two findings the one of lower address is due, and none while an operation that would not clear still names one. -/
theorem test_page_due :
    let g := (dev (fun g => { g with pages := [(0, 0x2000, accWrite), (0, 0x1000, accRead)] }) id).grp 0
    g.duePage = some (0, 0x1000, accRead) ∧ (Group.clearPages g).pages = [] ∧
      ((dev (fun g => { g with pages := [(0, 0x1000, 4)] }) id).grp 0).duePage = some (0, 0x1000, 4) := by decide +kernel

theorem test_group_death : let s := dev (fun g => { g with dying := true, live := 0 }) id
    (s.grp 0).dying = true ∧ (s.grp 0).killing = none ∧ (s.grp 0).debt = [] ∧ (s.grp 0).ops = [] ∧ (s.grp 0).owedInteg = false ∧
      s.escrow = [] := by decide +kernel

/-- A pool of images of 1 MiB for world 0. -/
def imagePool (s : State) : State := s.setReg (offSave 0 1) 16

theorem test_eviction : let s := dev (fun g => { g with st := .pending, cond := .pool 1, blk := 1, v := g.v.take 16 }) imagePool
    s.inQuarter 0 0 = [0] ∧ (s.grp 0).ops = [] ∧ saved (s.saveGroup 0 true false) = true := by decide +kernel
theorem test_forced_halt :
    let s := dev (fun g => { g with blk := 1, v := g.v.take 16 }) (fun s =>
      let s1 := (imagePool s).setReg (offWorld 1 0) 0x200
      { s1 with hub := { s1.hub with slice := [(0, 1)] } })
    (s.grp 0).between = true ∧ (s.grp 0).halting = false ∧ (s.grp 0).image ≠ 1 ∧ s.hub.moves = [] ∧ s.sliceCurrent 0 = false ∧ (s.grp 0).graceAt = none ∧ (s.grp 0).ops = [] ∧
      saved (s.saveGroup 0 true false) = true := by decide +kernel

/-! Placement and names -/

/-- A table of names of world 0 whose entry 0 holds the words given: its directories at 0x20000 and 0x21000, its leaf at 0x22000. -/
def named (w0 w1 w2 w3 : W64) (s : State) : State :=
  let m := ((s.mem.putWord 0x20000 0x21001).putWord 0x21000 0x22001)
  { s.setReg (offWorld 0 2) 0x20001 with
    mem := (((m.putWord 0x22000 w0).putWord 0x22008 w1).putWord 0x22010 w2).putWord 0x22018 w3 }

/-- A launch of one team of one group of one block (R370), in a world whose core 0 is ready. -/
def oneTeam : List W64 := [0x1000, 5, 0x1110, 0x000000FF00000001, 0, 0, 0, 0]

def launching (s : State) : State :=
  let s1 := (named 0 0 0 0 s).setReg offTherm 0 |>.setReg (offCready 0) 1
  { s1 with launches := [⟨oneTeam, 0, .spawn 0 7, 3, false, false, false, 0, [], []⟩] }

theorem test_launch_placement : let s := dev id launching
    (s.launches[0]?).map (fun x => (x.done, x.placed, x.words.length)) = some (false, false, 8) ∧ (s.placeLaunch 0).isSome = true ∧
      lrGrid oneTeam % (lrCw oneTeam * lrCh oneTeam) = 0 := by decide +kernel

theorem test_grid_messages :
    let s := dev id (fun s => { s with hub := { s.hub with barMsgs := [(0, 3, 0)] } })
    let u := dev (fun g => { g with st := .suspended, cond := .gridBarrier 3 }) (fun s => { s with hub := { s.hub with barRel := [(0, 3, 0)] } })
    s.liveTeams 0 = [0] ∧ (∀ x ∈ s.liveTeams 0, (0, 3, x) ∈ s.hub.barPort ++ [(0, 3, 0)]) ∧ s.hub.barMsgs[0]? = some (0, 3, 0) ∧
      u.hub.barRel[0]? = some (0, 3, 0) ∧ (u.grp 0).launch = 0 ∧ (u.grp 0).tidx = 0 := by decide +kernel

/-- The group saved in an image at 0x40000 that holds its header and zeros (R403), its name's entry SAVED with its wake pending. -/
def savedState : State :=
  dev (fun g => { g with st := .saved, image := 0x40000, blk := 0, v := [], live := 0 }) (fun s =>
    named 0x4000000A 0 0 0 { s with mem := s.mem.putWord 0x40000 0x100000640 })

def installs (x : Install) : Bool :=
  match x with
  | .done _ => true
  | _ => false

theorem test_restore : savedState.restorable 0 = true ∧ 0 ∈ savedState.freeSlots 0 0 ∧
    installs (savedState.install 0 0 0 0) = true := by decide +kernel
theorem test_move_installation :
    let m : MoveReq := ⟨[0], [], 0, 0, 0, []⟩
    let s := savedState.modGrp 0 (fun g => { g with st := .moving })
    let s0 := { s with hub := { s.hub with moves := [{ m with groups := m.groups.filter (fun j => j ≠ 0) }] } }
    0 < s.groups.length ∧ 0 ∈ m.groups ∧ (s.grp 0).st = .moving ∧ (s0.openSlots m.pkg 0).head? = some 0 ∧
      installs (s0.install 0 m.pkg 0 0) = true := by decide +kernel
/-- A MOVE that has another group still to install. -/
theorem test_move_goes_on :
    let m : MoveReq := ⟨[0, 1], [], 0, 0, 0, []⟩
    let s := savedState.modGrp 0 (fun g => { g with st := .moving })
    let s0 := { s with hub := { s.hub with moves := [{ m with groups := m.groups.filter (fun j => j ≠ 0) }] } }
    (match s0.install 0 m.pkg 0 0 with
      | .done s1 => s1.hub.moves.all (fun y => !y.groups.isEmpty) && !s1.hub.moves.isEmpty
      | _ => false) = true := by decide +kernel

/-- A request sent to the group at slot 0 of quarter 0 of core 0. -/
def asked (op : NameOp) (w0 w1 : W64) (stage : ReqStage) (s : State) : State :=
  { s with reqs := [⟨5, .group 0 7, some 0, 0, 0, 0x0100000000000000, op, stage, w0, w1, 0⟩] }

theorem test_delivery :
    let s := dev id (asked (.signal 15 1) 9 0 .send)
    let u := dev id (asked (.signal 15 1) 0x809 0 .send)
    (s.sent 5).map Req.word0 = some 9 ∧ nState 9 = 1 ∧ s.slotHolder 0 0x0100000000000000 9 0 = some 0 ∧
      (u.sent 5).map Req.word0 = some 0x809 ∧ u.slotHolder 0 0x0100000000000000 0x809 0 = none := by decide +kernel
theorem test_delivery_moving : let s := dev id (asked (.signal 15 1) 0xB 0 .send)
    (s.sent 5).map Req.word0 = some 0xB ∧ nState 0xB = 3 := by decide +kernel
theorem test_saved_delivery : let s := dev id (fun s => asked (.signal 15 1) 0x0A 0x30000 .send (named 0x0A 0x30000 0xFF 0 s))
    (s.sent 5).map Req.word0 = some 0x0A ∧ nState 0x0A = 2 ∧ (s.reqs.filter Req.home).length ≤ 16 ∧ (s.walkName 0 0) = .ok ⟨0x22000, 0x0A, 0x30000, 0xFF, 0⟩ ∧ s.mem.wf = true ∧
      s.egress = [] := by decide +kernel
theorem test_join_at_home :
    let s := dev id (fun s => let t := asked (.join 0x0200000000000007) 9 0 .send (named 9 0 0xFF 0x23000 s)
      { t with mem := t.mem.putWord 0x23000 0x0300000000000005 })
    (s.sent 5).map Req.word0 = some 9 ∧ (s.reqs.filter Req.home).length ≤ 16 ∧ (s.walkName 0 0) = .ok ⟨0x22000, 9, 0, 0xFF, 0x23000⟩ ∧ s.mem.wf = true ∧ s.egress = [] ∧
      s.devWord .glob 0x23008 = 0 ∧ s.devWord .glob 0x23000 ≠ 0 := by decide +kernel
theorem test_resend :
    let s := dev id (fun s => asked (.signal 1 1) 9 0 .refused (named 9 0 0xFF 0 s))
    let u := dev id (asked (.signal 1 1) 9 0 .refused)
    let w := { s with reqs := s.reqs.map (fun (x : Req) => { x with resendAt := 256 }) }
    ((s.req 5).map (fun x => (x.stage, x.core, decide (x.resendAt ≤ s.clk 0))) = some (.refused, some 0, true) ∧
      (w.req 5).map (fun x => (x.stage, x.core, decide (w.clk 0 < x.resendAt))) = some (.refused, some 0, true) ∧ (s.lookName 0 0 0 0x0100000000000000 (.signal 1 1) true).1 = .go ⟨0x22000, 9, 0, 0xFF, 0⟩) ∧
      (u.req 5).map Req.stage = some .refused ∧ (u.lookName 0 0 0 0x0100000000000000 (.signal 1 1) true).1 = .answer 3 := by decide +kernel
theorem test_answered : let s := devOp 0xC5 (.request none) (asked (.signal 1 1) 9 0 (.answered 0))
    (s.req 5).map Req.stage = some (.answered 0) ∧ s.unlogged 5 = false := by decide +kernel

/-! Engines -/

/-- An entry in queue 0 of core 0, of the group's BULK. -/
def queued (e : Entry) (s : State) : State := s.modCore 0 (fun c => { c with queues := [[e], [], [], []] })

/-- A copy of 64 bytes inside the slice, before and after its start. -/
def copy64 (started : Bool) (todo : List Todo) (await : Bool) : Entry :=
  { id := 9, kind := .linear .tile .tile 0 64 64, report := .bulk 0 7, func := 0, name := 0x0100000000000000, rclass := 0, core := 0, till := 0
    awaitAck := await, rel := 0, started := started, todo := todo, lineAcc := 0, turn := 0, read := none, sent := none
    status := 0, fail := 0 }

def sector64 (s : State) : Todo := ⟨.tile, 64, (List.range 32).map (fun b => some ⟨.tile, b, some (s.tile.get b)⟩)⟩

theorem test_engine_start : let s := dev id (fun s => queued (copy64 false [] false) (oneUnit s))
    s.engineHead 0 0 = some (copy64 false [] false) ∧ s.engineRuns 0 0 (copy64 false [] false) = true ∧ s.tillBad (copy64 false [] false) = false := by
  decide +kernel
theorem test_engine_line :
    let e := copy64 true [sector64 State.reset] false
    let s := dev id (fun s => queued e (oneUnit s))
    s.engineHead 0 0 = some e ∧ s.engineRuns 0 0 e = true ∧ s.tile.wf = true ∧ s.tile = State.reset.tile ∧
      ∀ a ∈ [0, 64], s.inWindow 0 0 (a / Config.sliceBytes) = true ∧ a % Config.sliceBytes < Config.engineRegion ∧
        s.allotted 0 (a / Config.sliceBytes) (a % Config.sliceBytes) = true ∧ s.poisoned .tile a = false := by decide +kernel
theorem test_engine_complete :
    let s := devOp 0xC5 (.bulk none) (queued (copy64 true [] false))
    s.engineHead 0 0 = some (copy64 true [] false) ∧ s.engineRuns 0 0 (copy64 true [] false) = true ∧
      (s.grp 0).ops = [⟨7, 1, 0xC5, 1, BitVec.allOnes 64, 0, .bulk none⟩] := by decide +kernel
theorem test_fence :
    let e := { copy64 false [] false with kind := .fence 0xF, report := .list 1 0 }
    let s := dev id (fun s => s.modCore 0 (fun c => { c with queues := List.replicate 4 [e] }))
    (s.engineHead 0 0 = some e ∧ s.engineRuns 0 0 e = true ∧ (s.core 0).queues.length = 4) ∧
      ∀ k < 4, Nat.testBit 0xF k = true ∧ (s.engineHead 0 k).map Entry.id = some e.id := by decide +kernel
theorem test_presence_ack : let s := dev id (queued (copy64 false [] true))
    ((s.core 0).queues.getD 0 []).find? (fun y => y.awaitAck && y.rel == 0 && s.sliceCurrent y.func) = some (copy64 false [] true) := by decide +kernel

/-- A record of a list at the slice's offset 0: a copy of 64 bytes to 0x1000 (R314). -/
theorem test_list_taken :
    let l : ListReq := ⟨0x80000000, 7, 0, 0, 0, 0x0100000000000000, []⟩
    let s := dev id (fun s => (oneUnit s).setReg (offPart 0 5) 1 |>.modCore 0 (fun c => { c with lists := [l] }))
    s.kicks 0 = [] ∧ (s.core 0).lists = [l] ∧ s.sliceCurrent 0 = true ∧ s.listBefore l.g l.op l.func l.name = false ∧ ownPlace 0 l.addr = some 0 ∧ s.allotted 0 0 0 = true ∧ s.poisoned .tile 0 = false ∧
      (match s.recordFate 0 0 (2 ^ 31) (ownPlace 0) [0x4000000801, 0x80000000, 0x1000, 0, 0, 0, 0, 0] with
        | .copy _ (.linear .tile .glob _ _ _) _ => true
        | _ => false) = true := by decide +kernel
/-- A list behind another whose world is paused, its next record read before. -/
theorem test_list_ahead :
    let w : List W64 := [0x4000000801, 0x80000000, 0x1000, 0, 0, 0, 0, 0]
    let l : ListReq := ⟨0x80000000, 9, 3, 0, 0, 0x0100000000000000, [.words w, .words [0, 0, 0, 0, 0, 0, 0, 0]]⟩
    let y : ListReq := ⟨0x80000400, 7, 0, 1, 1, 0x0100000000000001, []⟩
    let s := dev id (fun s => ((oneUnit s).setReg (offPart 0 5) 1).setReg (offWorld 1 0) 0x200 |>.modCore 0 (fun c => { c with lists := [y, l] }))
    s.kicks 0 = [] ∧ (s.core 0).lists = [y] ++ l :: [] ∧ s.sliceCurrent y.func = false ∧ s.sliceCurrent l.func = true ∧
      s.listBefore l.g l.op l.func l.name = false ∧ ownPlace 0 l.addr = some 0 ∧
      (match s.recordFate 0 0 (2 ^ 31 + 64 * 3) (ownPlace 0) w with
        | .copy _ (.linear .tile .glob _ _ _) _ => true
        | _ => false) = true := by decide +kernel
/-- The sixteenth record of a list (R316), each one before it in its queue. -/
theorem test_list_later :
    let l : ListReq := { (⟨0x80000000, 7, 0, 0, 0, 0x0100000000000000, []⟩ : ListReq) with pos := 15 }
    let s := dev id (fun s => (oneUnit s).setReg (offPart 0 5) 1 |>.modCore 0 (fun c => { c with lists := [l] }))
    s.kicks 0 = [] ∧ (s.core 0).lists = [l] ∧ s.listBefore l.g l.op l.func l.name = false ∧ s.allotted 0 0 (64 * 15) = true ∧
      (match s.recordFate 0 0 (2 ^ 31 + 64 * 15) (ownPlace 0) [0x4000000801, 0x80000000, 0x1000, 0, 0, 0, 0, 0] with
        | .copy _ (.linear .tile .glob _ _ _) _ => true
        | _ => false) = true := by decide +kernel

/-! Translation -/

/-- A walk of page 0x1000 under way on core 0 for the group. -/
def walking (s : State) : State := { s with walks := [⟨0, 0, 0x1000, 1, some 0⟩] }

theorem test_walk :
    let s := dev id (tables 0x1067)
    let tab := fun (n : Nat) => 0x10000 + 0x1000 * (5 - n)
    s.walkTable 0 0x1000 true = .ok ⟨0, 0x1000, 4096, 0x1000, true, true, true⟩ [] ∧
    (∀ n ∈ [1, 2, 3, 4, 5], regionOf (tab n) = 0 ∧ s.frameOk 0 (tab n) = true ∧
      bitAt (s.devWord .glob (tab n + 8 * ((0x1000 >>> (12 + 9 * (n - 1))) % 512))) 0 = true) ∧
    s.walkTable 0 (2 ^ 57 - 1) false = .absent ∧
    (dev id (tables 0x1007)).walkTable 0 0x1000 true = .ok ⟨0, 0x1000, 4096, 0x1000, true, true, true⟩ [(0x14008, 0x1067)] := by decide +kernel
theorem test_walk_ends :
    let s := dev id (fun s => walking (tables 0x1007 s))
    let u := dev id (fun s => walking (tables 0x1009 s))
    let z := dev id (fun s => walking (tables 0 s))
    (s.walks[0]? = some ⟨0, 0, 0x1000, 1, some 0⟩ ∧ s.walking ⟨0, 0, 0x1000, 1, some 0⟩ = true ∧ s.mem.wf = true ∧ s.egress = []) ∧
    ({ s with walks := [] } : State).walkTable 0 0x1000 true = .ok ⟨0, 0x1000, 4096, 0x1000, true, true, true⟩ [(0x14008, 0x1067)] ∧
    ({ u with walks := [] } : State).walkTable 0 0x1000 true = .bad ∧
    ({ z with walks := [] } : State).walkTable 0 0x1000 true = .absent ∧ (z.grp 0).resident = true ∧ (z.grp 0).heldXf = false ∧
      z.ringVa 0 = 0 := by decide +kernel
/-- The request for a 129th page of a die has no walker yet. -/
theorem test_walk_waits :
    let s := dev id (fun s => { s with walks := (List.range 129).map (fun k => ⟨0, 0, 0x1000 * k, 1, none⟩) })
    s.walks[128]? = some ⟨0, 0, 0x80000, 1, none⟩ ∧ s.walking ⟨0, 0, 0x80000, 1, none⟩ = false ∧ s.walking ⟨0, 0, 0x7F000, 1, none⟩ = true := by
  decide +kernel
theorem test_ats :
    let s := dev id (fun s => { s with hub := { s.hub with ats := [⟨3, 0, 0x100000000005000, 1, none⟩], pri := [⟨0, 0x5000, none⟩] } })
    s.hub.events = [] ∧ s.hub.notes = [] ∧ s.reqs = [] ∧ s.escrow = [] ∧ s.egress = [] ∧ s.hub.ats[0]? = some ⟨3, 0, 0x100000000005000, 1, none⟩ ∧ s.hub.pri[0]? = some ⟨0, 0x5000, none⟩ ∧
      needsW 1 = true ∧ ∀ g ∈ s.groups, g.ops = [] := by decide +kernel
theorem test_ats_answer : needsW 0 = false := by decide +kernel
/-- The function's oldest page request is outstanding; one beyond its allocation is not yet sent. -/
theorem test_pri_sent (s : State) (func : Nat) : s.priSent 0 func = true := by simp [State.priSent]
theorem test_pri_waits :
    let n := 1 + Config.priExtra 0
    let s := { State.reset with hub := { State.reset.hub with pri := List.replicate (n + 1) ⟨0, 0x5000, none⟩ } }
    s.hub.pri[n]? = some ⟨0, 0x5000, none⟩ ∧ s.priSent n 0 = false :=
  ⟨by simp, by simp [State.priSent]⟩

/-! The teller -/

/-- Queue 4095 bound to page 7 of world 0, privileged, of the depth given less one. -/
def queue7 (depth : Nat) (s : State) : State := s.setReg (offQueue 4095 0) (BitVec.ofNat 64 (depth * 2 ^ 32 + 7 * 2 ^ 16 + 3))

/-- A command of a kind with a name at byte 32 and bytes from 40 on. -/
def command (kind : Nat) (name arg : W64) : List W64 := [BitVec.ofNat 64 (0x500 + kind), 0, 0, 0, name, arg, 0, 0, 0, 0, 0, 0, 0, 0, 0, 0]

def ringed (w : List W64) (s : State) : State := { queue7 0 s with hub := { (queue7 0 s).hub with rings := [(4095, [⟨0, w⟩])] } }

theorem test_submit :
    let s := dev id (queue7 0)
    let u := dev id (ringed (command 1 0x1000 0))
    let data := (command 1 0x1000 0).flatMap (fun w => bytesLE 8 w.toNat)
    s.queueOf 0 7 = some 4095 ∧ s.pagesAnswer 0 = true ∧ data.length = 128 ∧ headerOk (wordsOf data) = true ∧
      (s.qRing 4095).length < s.qDepth 4095 ∧ u.queueOf 0 7 = some 4095 ∧ u.qDepth 4095 ≤ (u.qRing 4095).length ∧
      headerOk (wordsOf (List.replicate 128 0)) = false ∧ s.queueOf 0 8 = none ∧ u.pageWord 0 7 0x80 = 0x10000 := by decide +kernel

/-- The record of a launch of one team in the page at 0x1000, and the rest that a LAUNCH needs. -/
def recorded (s : State) : State :=
  let s1 := launching (tables 0x1067 s)
  { s1 with mem := (oneTeam.zipIdx).foldl (fun m p => m.putWord (0x1000 + 8 * p.2) p.1) s1.mem, launches := [] }

theorem test_launch :
    let w := command 1 0x1000 0
    let s := dev id (fun s => ringed w (recorded s))
    s.headOf 4095 1 = some ⟨0, w⟩ ∧ payloadOk w = true ∧ (match s.readRecord 0 0x1000 with
      | .words r sr =>
        let x : Launch := ⟨r, 0, .teller 4095 (cmdTag w) (cmdNote w) 0 0, lrPrio r, false, false, false, 0, [], []⟩
        let s2 := ({ sr with launches := [x] } : State).grantTo 4095
        !recordBad r && s2.everFits 0 r && (s2.placeLaunch 0).isSome
      | _ => false) = true := by decide +kernel
/-- A queue whose page's owner is a host entry of the table, and a SIGNAL, a DEPOSIT, a COPY, a KILL and a MOVE at its head. -/
theorem test_signal_deposit :
    let w := command 2 0x0100000000000000 15
    let s := dev id (fun s => (ringed w (named 0x0C 0x1800 0x100000000FF 0 s)).setReg (offQueue 4095 1) 0x0100000000000000)
    let x := command 3 0x0100000000000000 7
    let u := dev id (fun s => (ringed x (named 0x0C 0x1800 0x100000000FF 0 s)).setReg (offQueue 4095 1) 0x0100000000000000)
    s.headOf 4095 2 = some ⟨0, w⟩ ∧ payloadOk w = true ∧ (s.beginPop 4095).pageClass 4095 0 = some 0 ∧ cmdByte w 40 = 15 ∧
      (match (s.beginPop 4095).nameTest 0 0 0x0100000000000000 (.signal 15 0) with
        | .go _ => true
        | _ => false) = true ∧
    u.headOf 4095 3 = some ⟨0, x⟩ ∧ payloadOk x = true ∧ cmdByte x 40 = 7 ∧
      (match (u.beginPop 4095).nameTest 0 0 0x0100000000000000 (.deposit 7 0) with
        | .go _ => true
        | _ => false) = true := by decide +kernel
theorem test_copy_command :
    let w := command 4 0x1FC0 3
    let s := dev id (fun s => (ringed w s).setReg (offPart 0 5) 0xF000)
    s.headOf 4095 4 = some ⟨0, w⟩ ∧ s.hub.copies = [] ∧ payloadOk w = true ∧ cmdByte w 40 = 3 ∧ s.copyEngine 0 3 = true := by decide +kernel
theorem test_kill :
    let w := command 6 0x0100000000000000 0
    let s := at_ (wd 0x000 0xFF 0xFF 0xFF 0xFF 0 0) id (fun s => ringed w (named 9 0 0xFF 0 s))
    s.headOf 4095 6 = some ⟨0, w⟩ ∧ s.hub.taken = [] ∧ payloadOk w = true ∧ (s.takeCommand 4095 ⟨0, w⟩).aim 4095 0 0x0100000000000000 false = .group 0 ∧
      (s.grp 0).killing = none ∧ (s.grp 0).resident = true ∧ (s.grp 0).clauses ≠ [] := by decide +kernel
theorem test_move :
    let w := command 5 0x0100000000000000 0
    let s := dev (fun g => { g with blk := 1, v := g.v.take 16 }) (fun s =>
      { ringed w (imagePool (launching s)) with launches := [⟨oneTeam, 0, .spawn 0 7, 3, true, false, false, 0, [0], []⟩], mem := (named 9 0 0xFF 0 s).mem })
    let m := s.takeCommand 4095 ⟨0, w⟩
    s.headOf 4095 5 = some ⟨0, w⟩ ∧ s.hub.taken = [] ∧ payloadOk w = true ∧ m.aim 4095 0 0x0100000000000000 false = .group 0 ∧ (s.grp 0).killing = none ∧
      (s.grp 0).between = true ∧ (s.grpsWhere (fun y => y.alive && sameTeam y (s.grp 0))) = [0] ∧ s.hub.moves = [] ∧
      s.partCore 0 0 = true ∧ lrCw oneTeam * lrCh oneTeam = 1 ∧ m.launchWords (s.grp 0) = oneTeam ∧ tileUnits oneTeam = 0 ∧
      m.moveRoom [0] 0 = some [] ∧ s.coreReady 0 = true ∧
      (let s1 := s.beginPop 4095
       let held := { s1.hub with moves := [⟨[0], [], 0, 0, 4095, w⟩], taken := [⟨4095, 0, w, true, false, false, false⟩] }
       saved ((({ s1 with hub := held } : State).modGrp 0 (fun g => { g with halting := true, accept := false })).saveGroup 0 true true)) = true := by
  decide +kernel

/-! Partitions -/

/-- A partition command with its two arguments. -/
def pcmd (op part func : Nat) (a b : W64) (s : State) : State :=
  { s with hub := { s.hub with pcmd := [BitVec.ofNat 64 (func * 2 ^ 16 + part * 2 ^ 8 + op), a, b] } }

theorem commanded (s : State) (op part func : Nat) (a b : W64) (h1 : pcOp (pcmd op part func a b s).hub.pcmd = op)
    (h2 : pcmdOk (pcmd op part func a b s).hub.pcmd = true) :
    Commanded (pcmd op part func a b s) op [BitVec.ofNat 64 (func * 2 ^ 16 + part * 2 ^ 8 + op), a, b] := ⟨rfl, rfl, h1, h2⟩

/-- Partition 23 as its table may hold it before CONFIGURE, and after it. -/
def table23 (state : W64) : State :=
  ((((State.reset.setReg (offPart 23 0) state).setReg (offPart 23 1) (1 <<< 63)).setReg (offPart 23 2) 1).setReg (offPart 23 4) 0xFFFC).setReg offReady 2

theorem test_configure :
    Commanded (pcmd 1 23 0 0 0 (table23 0)) 1 [0x1701, 0, 0] ∧ (pcmd 1 23 0 0 0 (table23 0)).configOk 23 = true ∧
    Commanded (pcmd 1 0 0 0 0 State.reset) 1 [1, 0, 0] ∧ (pcmd 1 0 0 0 0 State.reset).configOk 0 = false ∧
    regsFrom 0 (table23 0).hub.regs.cells = true :=
  ⟨commanded _ 1 23 0 0 0 rfl rfl, by decide +kernel, commanded _ 1 0 0 0 0 rfl rfl, by decide +kernel⟩
theorem test_retire_admit :
    Commanded (pcmd 2 23 0 0 0 (table23 1)) 2 [0x1702, 0, 0] ∧ Commanded (pcmd 3 23 63 0 0 (table23 1)) 3 [0x3F1703, 0, 0] ∧
    ((table23 1).partState 23 = 1 ∧ (table23 1).worldsIn 23 = 0 ∧ (table23 1).frozenPart 23 = false ∧ (table23 1).admitOk 63 23 = true) :=
  ⟨commanded _ 2 23 0 0 0 rfl rfl, commanded _ 3 23 63 0 0 rfl rfl, by decide +kernel⟩
theorem test_depart :
    Commanded (pcmd 4 0 0 0 0 State.reset) 4 [4, 0, 0] ∧ Commanded (pcmd 4 0 1 0 0 State.reset) 4 [0x10004, 0, 0] ∧
    (State.reset.worldState 0 = 2 ∧ State.reset.worldState 1 = 0 ∧ State.reset.allEnded 0 = true ∧ State.reset.launches = [] ∧
      State.reset.pagesBusy 0 0 0 = false) ∧
    (let s := { State.reset with hub := { State.reset.hub with departing := [63] } }
     63 ∈ s.hub.departing ∧ s.allEnded 63 = true ∧ ∀ y ∈ s.hub.departing, y ≠ 63 → s.partOf y ≠ s.partOf 63) :=
  ⟨commanded _ 4 0 0 0 0 rfl rfl, commanded _ 4 0 1 0 0 rfl rfl, by decide +kernel⟩
theorem test_invalidations :
    Commanded (pcmd 5 0 0 0 0 State.reset) 5 [5, 0, 0] ∧ Commanded (pcmd 6 0 0 0 0 State.reset) 6 [6, 0, 0] :=
  ⟨commanded _ 5 0 0 0 0 rfl rfl, commanded _ 6 0 0 0 0 rfl rfl⟩
theorem test_assign :
    let s := State.reset.setReg (offPart 0 2) 1
    Commanded (pcmd 7 0 0 0x1000 1 s) 7 [7, 0x1000, 1] ∧ Commanded (pcmd 7 0 0 0xFFF00000 1 s) 7 [7, 0xFFF00000, 1] ∧
    Commanded (pcmd 8 0 0 0x1000 1 s) 8 [8, 0x1000, 1] ∧
    (frameList [7, 0x1000, 1] = some [1] ∧ s.assignable 0 1 = true ∧ frameList [7, 0xFFF00000, 1] = some [0xFFF00] ∧ s.assignable 0 0xFFF00 = false ∧
      bitAt (s.frame 0x1000) 7 = false) :=
  ⟨commanded _ 7 0 0 _ _ rfl rfl, commanded _ 7 0 0 _ _ rfl rfl, commanded _ 8 0 0 _ _ rfl rfl, by decide +kernel⟩
theorem test_relnames :
    let s := { State.reset with launches := [⟨oneTeam, 0, .spawn 0 7, 3, true, true, false, 0xFFFF, [], []⟩] }
    Commanded (pcmd 9 0 0 0xFFFF 0 s) 9 [9, 0xFFFF, 0] ∧ s.oldLaunch 0 0xFFFF = some 0 :=
  ⟨commanded _ 9 0 0 _ _ rfl rfl, by decide +kernel⟩
theorem test_routine :
    let s := { State.reset with mem := State.reset.mem.putWord 0x1000 0x13, hub := { State.reset.hub with frames := [(1, 0x80)] } }
    Commanded (pcmd 10 0 0 0x7F 0x1000 s) 10 [10, 0x7F, 0x1000] ∧ (s.routineWords 0x1000 1).isSome = true ∧ bitsN (0x7F#64) 10 6 = 1 ∧
      bitsN (0x7F#64) 5 0 = 63 :=
  ⟨commanded _ 10 0 0 _ _ rfl rfl, by decide +kernel⟩

/-! Registers, slices, events -/

theorem test_queue_table :
    let s := State.reset
    let u := dev id (queue7 0)
    s.qValid 4095 = false ∧ s.pageTaken 4095 0 7 = false ∧ u.qValid 4095 = true ∧ u.pageTaken 0 0 7 = true ∧ u.qValid 0 = false := by decide +kernel
theorem test_registers : State.reset.partState 23 = 0 ∧ State.reset.frozenPart 23 = false ∧ State.reset.worldState 63 = 0 ∧ State.reset.worldState 0 ≠ 0 ∧ State.reset.frozen 63 = false ∧
    State.reset.hub.pcmd = [] ∧ (pcmd 1 0 0 0 0 State.reset).hub.pcmd ≠ [] := by decide +kernel

/-- Two running worlds in partition 0, whose slice has been world 0's for its time. -/
def sliced (s : State) : State := ((s.setReg (offWorld 1 0) 0x200).setReg (offPart 0 7) 0x0000000100000005).advance 260 1024

theorem test_slice_end : let s := dev (fun g => { g with tbase := 0x1800 }) sliced
    2 ≤ (s.running 0).length ∧ s.sliceOf 0 = 0 ∧ (∀ g ∈ s.groups, g.resident = true → s.partOf g.func = 0 → g.func = 0) ∧
      (∀ w < 64, s.enginesWait w = false) ∧ s.hub.contexts = [] ∧ s.engineWork 0 = false ∧
      lookupD s.hub.sliceAt 0 0 + lookupD s.hub.sliceLen 0 1024 ≤ s.hubClk ∧ s.nextSlice 0 = some 1 ∧ s.grace 0 = 5 ∧ (s.grp 0).st = .active := by decide +kernel
theorem test_grace : let s := dev (fun g => { g with graceAt := some 0, blk := 1, v := g.v.take 16 }) (fun s =>
      let s1 := imagePool (sliced s)
      { s1 with hub := { s1.hub with slice := [(0, 1)] } })
    (s.grp 0).graceAt = some 0 ∧ (s.grp 0).between = true ∧ s.sliceCurrent 0 = false ∧ 0 ≤ s.clk 0 ∧ saved (s.saveGroup 0 true false) = true := by
  decide +kernel

/-- An event of a class that the group waits on, before the clerks, or written to the ring and awaited. -/
def waited (cls : Nat) (clerk : Bool) : Event := ⟨0, 0, cls, [0x1000, 0, 0, 0], 0x0100000000000000, if clerk then 0 else 1, some 0, none, none, !clerk, clerk, 0, false, 1, 0, 0x1000, 16, 0⟩

theorem test_clerks : ∀ cls ∈ [evXfault, evBreak],
    let s := dev (fun g => { g with heldXf := true, heldBrk := true }) (fun s => ({ s with hub := { s.hub with events := [waited cls true] } }).advance 260 9)
    s.hub.events[0]? = some (waited cls true) ∧ (waited cls true).clerk = true ∧ (waited cls true).host = false ∧
      (waited cls true).at_ + (waited cls true).grace ≤ s.hubClk ∧ (waited cls true).waits = none := by decide +kernel

/-- World 0's event ring in the page at 0x1000, with RESP at 0x1088. -/
def ring (resp : W64) (s : State) : State :=
  let s1 := (tables 0x1067 s).setReg (offFrt 0 1) 0x1000
  { s1 with mem := s1.mem.putWord 0x1088 resp }

/-- Whether RESP gives an answer code to the event that awaits one. -/
def answers (code : Nat) (cls : Nat) (s : State) : Bool :=
  match s.hubGet 0 ((waited cls false).ring + 0x88) 8 with
  | .ok (b, s1) =>
    let n := ofBytesLE b
    natBits n 31 8 == 0 && natBits n 7 0 == code && natBits n 63 32 == 0 && s1.hub.events == [waited cls false]
  | .error _ => false

def answering (resp : W64) (cls : Nat) : State :=
  dev (fun g => { g with heldXf := true, heldBrk := true }) (fun s =>
    { ring resp s with hub := { (ring resp s).hub with events := [waited cls false] } })

/-- The clerks' answer is recorded where the ring has room, and waits where it is full. -/
theorem test_answer_recorded :
    let held := fun (cls disp act : Nat) => { waited cls true with clerk := false, disp := disp, act := act }
    let s := dev id (ring 0)
    let u := { s with hub := { s.hub with eseq := [(0, 16)] } }
    (∀ d ∈ [(4, 2), (2, 1), (2, 2)], (s.writeRecord (held evXfault d.1 d.2)).1.isSome = true) ∧ (s.writeRecord (held evBreak 2 1)).1.isSome = true ∧
      (u.writeRecord (held evXfault 4 2)).1 = none := by decide +kernel

/-- RING as the events found it, and cleared since. -/
theorem test_responses : (∀ x ∈ [(1, evXfault), (2, evXfault), (1, evBreak)],
      let s := answering (BitVec.ofNat 64 x.1) x.2
      answers x.1 x.2 s = true ∧ answers x.1 x.2 (s.setReg (offFrt 0 1) 0) = true ∧ (s.setReg (offFrt 0 1) 0).ringVa 0 = 0 ∧
        waited x.2 false ∈ s.hub.events ∧ s.groups.length = 1) ∧
    (waited evBreak false).written = true ∧ (waited evBreak false).awaits = true := by decide +kernel

theorem test_cons_written :
    let held : Event := ⟨0, 0, evDenial, [0, 0, 0, 0], 0, 0, none, none, none, false, false, 0, false, 1, 0, 0x1000, 16, 0⟩
    let at' := fun (s : State) => ((s.hub.events.find? (fun e => e.func == 0 && !e.written && e.ring != 0)).map Event.ring).getD (s.ringVa 0)
    let s := dev id (ring 0)
    let u := ({ s with hub := { s.hub with events := [held] } } : State).setReg (offFrt 0 1) 0
    at' s = 0x1000 ∧ at' u = 0x1000 ∧ u.ringVa 0 = 0 ∧
    (match s.hubPut 0 0x1080 (bytesLE 8 0) true with
      | .done s1 => s1.hub.events.isEmpty
      | _ => false) = true ∧
    (match u.hubPut 0 0x1080 (bytesLE 8 0) true with
      | .done s1 => s1.hub.events == [held] && (match ({ s1 with hub := { s1.hub with events := [] } } : State).writeRecord held with
        | (some e1, s2) => !e1.awaits && s2.hub.events.isEmpty
        | (none, _) => false)
      | _ => false) = true := by decide +kernel

/-! Errors, the host, management -/

/-- No world of reset's state has an event ring, nor of one in which partition 0 alone has been set up. -/
theorem test_no_ring : ∀ f, (dev id id).ringVa f = 0 := by
  intro f
  have h1 : regReset (offFrt f 1) = 0 ∨ regReset (offFrt f 1) = 3200 ∨ regReset (offFrt f 1) = 95 := by
    unfold regReset offFrt
    repeat' split
    all_goals first | omega | simp
  have h2 : (dev id id).reg (offFrt f 1) = regReset (offFrt f 1) := by
    show getReg [(0x1000, 1), (0x1008, 1), (0x1010, 1)] (offFrt f 1) = _
    simp only [getReg]
    rw [if_neg (by unfold offFrt; omega), if_neg (by unfold offFrt; omega), if_neg (by unfold offFrt; omega)]
  unfold State.ringVa State.regN
  rw [h2]
  rcases h1 with h | h | h <;> rw [h] <;> decide

theorem test_packets : let s := dev (fun g => { g with debt := [⟨.glob, 0x1000⟩] }) id
    flowFunc 0x3F = 0 ∧ 0 < s.groups.length ∧ 0 < (s.grp 0).debt.length ∧ s.failures 0x3F 9 < 4 := by decide +kernel
theorem test_soft_errors :
    let s := dev id id
    let u := { s with hub := { s.hub with l2tlb := [(1, fetchTlb), (0, fetchTlb)], frames := [(1, 0xC5)] } }
    (s.grp 0).resident = true ∧ (s.grp 0).owedSoft = false ∧ (191#8).toNat < (s.grp 0).v.length ∧ (s.core 0).tlb[0]? = some fetchTlb ∧
      u.l2Entry 0 0 = some 1 ∧ u.confAt 0x1080 = some 5 ∧
      s.partState 0 ≠ 0 ∧ bitAt ((s.setReg (offPart 0 3) 1).reg (offPart 0 3)) 0 = true := by decide +kernel
/-- A frame of a confidential world, and memory that the host reaches. -/
theorem test_host_access :
    let s := { State.reset with hub := { State.reset.hub with frames := [(1, 0xC5)] } }
    s.confOwner 0x1FFF 1 = some 5 ∧ s.confOwner 0x100000000001000 4 = none ∧ regionOf 0x100000000001000 = 2 ∧ s.gpoison = [] ∧ s.egress = [] ∧
      s.hostSees 0x100000000001000 = true ∧ (∀ k < 8, s.servedAt (0x100000000001000 + k) = none) ∧ s.hostSees 0xFFF00000 = false ∧ s.poisoned .glob 0x100000000001000 = false ∧ s.mem.wf = true := by
  decide +kernel
/-- A write to a line of which every byte is poisoned, of fewer bytes than the line. -/
theorem test_host_poisoned : let s := { State.reset with gpoison := [0x1000] }
    ∀ k < 127, s.poisoned .glob (0x1001 + k) = true := by decide +kernel

theorem test_tdisp : State.reset.tdi 63 = 0 ∧ ((State.reset.setReg (offWorld 63 0) 0x10000).tdi 63 = 1 ∧ State.reset.allEnded 63 = true ∧
    State.reset.launches = []) := by decide +kernel
/-- Power-on: the chosen slot is accepted, or the other, or neither; which holds rests on free values (log entry 5). -/
theorem test_power_on : ∀ off : State, (∃ k, k < 2 ∧ off.slotOk k = true ∧ (0 = k ∨ (0 = 1 - k ∧ off.slotOk (1 - k) = false))) ∨
    (off.slotOk 0 = false ∧ off.slotOk 1 = false) := by
  intro off
  cases h0 : off.slotOk 0 with
  | true => exact .inl ⟨0, by omega, h0, .inl rfl⟩
  | false => cases h1 : off.slotOk 1 with
    | true => exact .inl ⟨1, by omega, h1, .inr ⟨rfl, h0⟩⟩
    | false => exact .inr ⟨rfl, rfl⟩

/-- Firmware runs, with the registers in canonical form: BOOTSTAT's STAGE written over its reset value. -/
def running1 : State := State.reset.setReg offBootstat 0xFF01

theorem test_firmware : regsOk running1 ∧ running1.firmware = true ∧ running1.stage ≠ 0 ∧ running1.mayBeReady (.plane 7) = true := by
  have h : regsOk running1 := putReg_regsFrom (lo := 0) rfl (Nat.zero_le _)
  have e : ∀ x, running1.reg x = if x = offBootstat then 0xFF01 else regReset x := fun x =>
    getReg_putReg (lo := 0) (cs := []) rfl
  have st : running1.stage = 1 := by unfold State.stage State.regN; rw [e]; rfl
  have fw : running1.firmware = true := by unfold State.firmware; rw [st]; rfl
  refine ⟨h, fw, by rw [st]; decide, ?_⟩
  show (running1.firmware && !bitAt (running1.reg offPlremap) (24 + 7 % 8)) = true
  rw [fw, e]; decide
/-- A minimum SVN below the one that runs: the registers' fields, where the free fused minimum leaves room for it. -/
theorem test_attestation :
    let x : Session := ⟨5, false, 0⟩
    let s := { running1 with boot := { Boot.reset with algs := ⟨true, true, true, true, true⟩, sessions := [x], staged := some 1 } }
    let u := { running1 with boot := { Boot.reset with sessions := [{ x with finished := true }], running := 0 } }
    s.boot.algs = ⟨true, true, true, true, true⟩ ∧ s.boot.sessions.length < 4 ∧ s.session 5 = some x ∧ u.boot.algs.hash = false ∧ u.session 5 = some { x with finished := true } ∧
      s.boot.staged = some 1 ∧ 0x1FFFFFE / 0x1000000 ≤ 1 ∧ 0x1FFFFFE / 0x1000000 ≠ u.boot.running ∧ 0x1FFFFFE % 0x1000000 + 2 ≤ 0x1000000 := by
  decide +kernel

/-- Each set of needs unmet (R426): no hash, no signature, and signatures without what a session needs. -/
theorem test_negotiated :
    let u := fun (a : Algs) => { running1 with boot := { Boot.reset with algs := a } }
    (u ⟨false, true, true, true, true⟩).boot.algs.hash = false ∧ ¬((u ⟨true, false, true, true, true⟩).boot.algs.hash = true ∧
      (u ⟨true, false, true, true, true⟩).boot.algs.asym = true) ∧ (u ⟨true, true, true, true, false⟩).boot.algs.sched = false ∧
    (true || false || false || false || false) = true := by decide +kernel

/-! The fabric -/

/-- The exported window of one unit at 0, of world 0, and the endpoint 5 that owns it. -/
def exporting (s : State) : State := (s.setReg offExpwin 0x8000000000000001).setReg offOwnep 5

theorem test_fabric_request : let s := dev id exporting
    s.hasEndpoint 5 = true ∧ 0x1FF8 % 8 = 0 ∧ s.exported 0x1FF8 8 = some 0x1FF8 ∧ s.exported 0xFFF9 8 = none ∧ s.regN offExpwin 62 57 = 0 ∧
      (∀ k < 8, s.frameOk 0 (0x1FF8 + k) = true ∧ s.poisoned .glob (0x1FF8 + k) = false) ∧ s.egress = [] ∧ s.gpoison = [] ∧ s.mem.wf = true := by
  decide +kernel
theorem test_plane_dead : let s := State.reset.setReg offReady 0x1FE0
    (((List.range 7).map (fun k => (7 + 1 + k) % 8)).filter (fun k => bitAt (s.reg offReady) (5 + k) && !bitAt (s.reg offPlremap) (24 + k))).head? =
      some 0 ∧ regsFrom 0 s.hub.regs.cells = true ∧ s.groups = [] ∧ s.escrow = [] ∧ s.egress = [] ∧
    2 * 7 + 1 ∉ s.fabric.deadLinks ∧ 2 * 7 + (1 - 1) ∉ s.fabric.deadLinks ∧
    (let u := { s with fabric := { s.fabric with deadLinks := [14] } }
     2 * 7 + 1 ∉ u.fabric.deadLinks ∧ 2 * 7 + (1 - 1) ∈ u.fabric.deadLinks) := by decide +kernel
theorem test_heartbeats :
    let s := ((State.reset.setReg offHbcfg 16).setReg (offWin 63) 0x0000000500000005).advance 260 16
    let u := { s with fabric := { s.fabric with missed := [(5, 8)] } }
    s.regN offHbcfg 31 0 ≠ 0 ∧ s.fabric.sent + s.regN offHbcfg 31 0 ≤ s.hubClk ∧ u.winState 63 = 1 ∧ u.winEp 63 = 5 ∧ u.winTkov 63 = true ∧
      8 ≤ lookupD u.fabric.missed 5 0 ∧ regsFrom 0 u.hub.regs.cells = true ∧ bitAt ((State.reset.setReg offReady 0x1000).reg offReady) (5 + 7) = true := by
  decide +kernel
/-- A reduction's record of one INT32 element in the page at 0x1000, its data there too. -/
def reduction : List W64 := [0x1800, 0x1900, 0x0000000100000080, 0, 0, 0, 0, 0]

def reducing (s : State) : State :=
  let s1 := (tables 0x1067 s).setReg (offPart 0 5) 0x100000
  { s1 with mem := (reduction.zipIdx).foldl (fun m p => m.putWord (0x1000 + 8 * p.2) p.1) s1.mem
            fabric := { s1.fabric with colls := [⟨7, 0x1000, 0, reduction, none⟩] } }

theorem test_collectives : let s := dev id reducing
    (match ({ s.setReg offColldb (0x1000 &&& 0x01FFFFFFFFFFFFFF) with seq := s.seq + 1 } : State).readRecord 0 0x1000 with
      | .words w sr => w == reduction && colOk w && decide (sr.regN (offPart (sr.partOf 0) 5) 27 20 ≠ 0)
      | _ => false) = true ∧
    s.fabric.colls[0]? = some ⟨7, 0x1000, 0, reduction, none⟩ ∧ colFmt reduction = some (.int32, 4) ∧
      (match s.collBytes 0 0x1800 4 [] with
        | .ok (own, s1) => own == [0, 0, 0, 0] && (s1.collHeld 0 0x1900 4).isNone && (match s1.collPut 0 0x1900 [1, 2, 3, 4] with
          | .done _ => true
          | _ => false)
        | .error _ => false) = true := by decide +kernel
theorem test_egress :
    let out : Egress := ⟨0x80000000000000, oneByte 3 7, 4, none, 0, none, none⟩
    let gone : Egress := ⟨0x17FFFFFFFFFFFE0, oneByte 31 7, 0, some (0, 7), 0x1000, none, some 63⟩
    let past : Egress := ⟨0x180028000000000, oneByte 3 7, 0, some (0, 7), 0x1000, none, some 0⟩
    let s := dev id (fun s => { (s.setReg (offWin 63) 0x0000000500000002) with egress := [past, out] })
    s.egress[1]? = some out ∧ s.fenced out.sector = false ∧ s.egress[0]? = some past ∧ s.fenced past.sector = true ∧ s.mem.wf = true ∧
      s.unwindowed out.sector = false ∧ s.servedAt out.sector = none ∧ s.servedAt past.sector = none ∧ s.unwindowed past.sector = false ∧
      (∀ x ∈ s.egress.take 1, x.sector ≠ out.sector ∧ (out.copy = 0 ∨ x.copy ≠ out.copy)) ∧ s.stopped out = false ∧ s.stopped past = false ∧
      (s.setReg (offWorld 63 0) 0x30000).stopped gone = true ∧ regionOf gone.sector = 2 := by decide +kernel
/-- A sector of a copy whose endpoint no window entry names, and one in the window that this device itself serves. -/
theorem test_egress_own :
    let gone : Egress := ⟨0x180030000000000, oneByte 3 7, 6, some (0, 9), 0x2000, none, some 0⟩
    let mine : Egress := ⟨0x180028000001000, oneByte 3 7, 0, some (0, 7), 0x1000, none, some 0⟩
    let s := dev id (fun s => { (exporting s).setReg (offWin 63) 0x0000000500000001 with egress := [gone, mine] })
    (s.unwindowed gone.sector = true ∧ s.servedAt gone.sector = none ∧ gone.copy ≠ 0) ∧
      s.fenced mine.sector = false ∧ s.unwindowed mine.sector = false ∧ s.servedAt mine.sector = some 0x1000 ∧
      s.poisoned .glob 0x1000 = false ∧ ∀ x ∈ s.egress.take 1, x.sector ≠ mine.sector ∧ mine.copy = 0 := by decide +kernel

/-! The step, reset and the invariant -/

/-- No clause can start before the word of the clause that the cursor names. -/
def undisturbed (s : State) : Bool := (s.startDue (s.grp 0).pkg (((s.grp 0).clauses[0]?).elim 0 (s.issueClock 0))).isNone

theorem test_step_decodes :
    let s := at_ (wd 0x080 0xC5 0xC1 0xC2 0xFF 0 0) id id
    (∀ e ∈ s.agenda.head?, e.what = none) ∧ (match s.agenda with
      | [] => false
      | e :: rest =>
        let s0 := s.takeAgenda e rest
        undisturbed s0 && decide (s0.cur = some (0, 0)) && decide (((s0.grp 0).clauses[0]?).map Clause.owes = some none) && decide (s0.translate 0 0x1008 accFetch = (.ok 0x1008, s0)) &&
        s0.destOk 0 (some 0) 0x1008 && !s0.fenced 0x1008 && !s0.poisoned .glob 0x1008 && s0.wlog.isEmpty &&
        decide (decode (s0.devRead .glob 0x1008 8) = .ok (.sadd ⟨0xC5, 0xC1, 0xC2, 0xFF, 0, ⟨0, 0, 0, 0⟩⟩, []))) = true := by decide +kernel
/-- A clause that owes a trap, and an event at the agenda's head. -/
theorem test_step_owes :
    let s := at_ (wd 0x080 0xC5 0xC1 0xC2 0xFF 0 0) (fun g => { g with clauses := g.clauses.map (fun c => { c with owes := some (.trap, 7, 0x1008, 0) }) }) id
    (∀ e ∈ s.agenda.head?, e.what = none) ∧ (match s.agenda with
      | [] => false
      | e :: rest => let s0 := s.takeAgenda e rest
        undisturbed s0 && decide (s0.cur = some (0, 0)) &&
          decide (((s0.grp 0).clauses[0]?).map Clause.owes = some (some (.trap, 7, 0x1008, 0)))) = true := by decide +kernel
/-- A word due at clock 50, and a group of another quarter that can start its clause now. -/
theorem test_step_starts :
    let s := at_ (wd 0x080 0xC5 0xC1 0xC2 0xFF 0 0) (fun g => { g with clauses := g.clauses.map (fun c => { c with mark := 50 }) })
      (fun s => header 0x0001FC00FC000000 { s with groups := s.groups ++ s.groups.map (fun g => chosen { g with clauses := [], qtr := 1 }) })
    (∀ e ∈ s.agenda.head?, e.what = none) ∧ (match s.agenda with
      | [] => false
      | e :: rest => let s0 := s.takeAgenda e rest
        decide (s0.cur = some (0, 0)) && !undisturbed s0 && (s0.startDue 0 50).isSome) = true := by decide +kernel
theorem test_step_event : let e : Sched := ⟨0, 0, some .heartbeatSend⟩
    ({ State.reset with agenda := [e] } : State).agenda = [e] ∧ e.what = some .heartbeatSend ∧ isWord .heartbeatSend = false := by decide +kernel
theorem test_reset_inv : memoriesOk State.reset := ⟨rfl, rfl, rfl, rfl⟩
theorem test_step_from_reset : step State.reset = .next (State.reset.recount State.reset.idle) := rfl
theorem test_reset_regs : regsOk State.reset ∧ (State.reset.mem.wf = true) := ⟨rfl, rfl⟩
/-- FLAGS of a group that acts, and a word that the checks refuse by each test that reads the word alone (R225). -/
theorem test_ill_formed :
    [staticTest (decodeRaw 0xFFFFFFFFFFFFFFFF), staticTest (decodeRaw (wd 0x080 0xC5 0xC1 0xC2 0xFF 0 0 ||| 1)),
     staticTest (decodeRaw (wd 0x080 5 0xC1 0xC2 0xFF 0 0)), staticTest (decodeRaw (wd 0x08E 0xC5 0xC1 0xC2 0xFF 0x18 0)),
     staticTest (decodeRaw (wd 0x308 0xFF 0xFF 0xFF 0xFF 0 8)), staticTest (decodeRaw (wd 0x280 20 0xC1 0xFF 0 2 0)),
     staticTest (decodeRaw (wd 0x00B 0xFF 0xFF 0 0 0 0)), staticTest (decodeRaw (wd 0x080 0xC5 0xC1 0xC2 0xFF 0 0))] =
    [some 1, some 4, some 5, some 6, some 7, some 8, some 9, none] := by decide +kernel
theorem test_refused_words :
    (decodeRaw 0xFFFFFFFFFFFFFFFF).wellFormed = false ∧ (decodeRaw (wd 0x00B 0xFF 0xFF 0 0 0 0)).wellFormed = false ∧
    (decodeRaw (wd 0x00A 0xFF 0xFF 0 13 0 0)).wellFormed = true ∧ decode (wordBytes (wd 0x280 20 0xC1 0xFF 0 2 0)) = .error (.illegal 8) := by
  decide +kernel

/-! Words and fates that the spec writes out (files 07 to 12) -/

theorem test_spec_words :
    [(0x0040000006000000, Instr.bra ⟨24, 0, ⟨0, 0, 0, 0⟩⟩), (0x043271317FC0C200, .signal ⟨0xC9, 0xC4, 0xC5, 0xFF, 3, ⟨0, 1, 0, 0⟩⟩),
     (0x800140FFFFCE00C0, .cvt ⟨5, 3, 0xFF, 0xFF, 0x38, ⟨0, 0, 6, 0⟩⟩), (0xA2013081801CC600, .atomg ⟨4, 0xC2, 6, 0, 0x73, ⟨0, 3, 0, 0⟩⟩),
     (0xA2B27FFFFFC80200, .commit ⟨0xC9, 0xFF, 0xFF, 0xFF, 0x20, ⟨0, 1, 0, 0⟩⟩), (0xC032713171800400, .bulk ⟨0xC9, 0xC4, 0xC5, 0xC6, 0, ⟨0, 2, 0, 0⟩⟩),
     (0xC1F2713171880600, .mdrain ⟨0xC9, 0xC4, 0xC5, 0xC6, 0x20, ⟨0, 3, 0, 0⟩⟩), (0xC1BFFFC000400000, .mop ⟨0xFF, 0xFF, 1, 0, ⟨0, 0, 0, 0⟩⟩),
     (0xE030FFC001800040, .rdsr ⟨0xC3, 0xFF, 6, 0, ⟨0, 0, 2, 0⟩⟩), (0xA0FFC50300409000, .stt ⟨0xFF, 20, 12, 1, 2, ⟨1, 0, 0, 0⟩⟩),
     (0xA10230BFC09AC400, .ldg ⟨8, 0xC2, 0xFF, 2, 0x6B, ⟨0, 2, 0, 0⟩⟩)].all
      (fun p => decide (decode (wordBytes p.1) = .ok (p.2, []))) = true := by decide +kernel
theorem test_spec_fates :
    [(0xA10230BFC09AC401, 4), (0xA1023080009AC400, 4), (0xA10230BFC0AAC400, 6), (0xA10230BFC09CC400, 6), (0xA10230BFC09AC000, 8),
     (0x800140FFFFCF00C0, 6), (0x808140FC3FD90100, 6), (0xA2B27FFFFFC80000, 8), (0xC032713171880400, 4), (0xC032713171800000, 8),
     (0xC1F2713171900600, 6), (0xC1F27131718E0600, 6), (0xC1BFFFC000401000, 7), (0xE030FFC003C00040, 9), (0x634140C1018C00C0, 6)].all
      (fun p => decide (decode (wordBytes p.1) = .error (.illegal p.2))) = true := by decide +kernel

/-! Results worked in the spec's text -/

/-- The group after the step that performs a word, and once every result may be read. -/
def after (w : W64) (f : Group → Group) : Group :=
  match step (at_ w f id) with
  | .next t => (t.grp 0).landAll
  | _ => Group.blank

/-- A vector register that holds a list, then zeros. -/
def vector (n : Nat) (l : List W32) (g : Group) : Group := { g with v := setNth g.v n ⟨.g, l ++ List.replicate (64 - l.length) 0⟩ }

/-- SMOVH keeps the low half; SBFE of bits [11:4] by either extension; SADD.sat within range and beyond it (file 09). -/
theorem test_smovh : (after (wd 0x093 0xC1 0 0 0 1 0) (scalars [0, 0xFFFFFFFFFFFFFFF0])).s.getD 1 0 = 0x1FFFFFFF0 := by decide +kernel
theorem test_sbfe : (after (wd 0x096 0xC2 0xC1 1 0xC4 0 0) (scalars [0, 0x1FFFFFFF0])).s.getD 2 0 = 0xFFFFFFFFFFFFFFFF := by decide +kernel
theorem test_sadd_sat : (after (wd 0x080 0xC4 0xC1 0xC1 0xFF 1 0) (scalars [0, 0x1FFFFFFF0])).s.getD 4 0 = 0x3FFFFFFE0 ∧
    (after (wd 0x080 0xC4 0xC1 0xC1 0xFF 1 0) (scalars [0, 0x7FFFFFFFFFFFFFFF])).s.getD 4 0 = 0x7FFFFFFFFFFFFFFF ∧
    (after (wd 0x080 0xC4 0xC1 0xC1 0xFF 1 0) (scalars [0, 0x7FFFFFFFFFFFFFFF])).flags = fSAT.setWidth 64 := by decide +kernel
theorem test_sdiv_zero : (after (wd 0x084 0xC4 0xC1 0xC2 0xFF 0 0) (scalars [0, 7, 0])).s.getD 4 0 = 0xFFFFFFFFFFFFFFFF ∧
    (after (wd 0x084 0xC4 0xC1 0xC2 0xFF 0 0) (scalars [0, 7, 0])).flags = fDZ.setWidth 64 := by decide +kernel

/-- IADD of the lane number gives an affine register; the same under a guard false in a lane is G (R258). -/
theorem test_iadd_affine : let r := (after (wd 0x100 2 0xF1 0xC1 0xFF 0 0) (scalars [0, 0x1000])).vreg 2
    r.tag = .a ∧ r.lane 63 = 0x103F := by decide +kernel
theorem test_ishl_affine : let r := (after (wd 0x109 3 2 0xC4 0xFF 0 0)
      (fun g => { scalars [0, 0, 0, 0, 2] g with v := setNth g.v 2 ⟨.a, (List.range 64).map (fun i => BitVec.ofNat 32 (0x1000 + i))⟩ })).vreg 3
    r.tag = .a ∧ r.lane 1 = 0x4004 := by decide +kernel
/-- IABS of the most negative number wraps, or is limited with SAT (R264). -/
theorem test_iabs : ((after (wd 0x10E 2 1 0xFF 0xFF 0 0) (vector 1 [0x80000000])).vreg 2).lane 0 = 0x80000000 := by decide +kernel
/-- IADDMIN takes its minimum on the exact sum (R264). -/
theorem test_iaddmin : ((after (wd 0x105 12 10 11 9 0 0) (fun g => vector 9 [5] (vector 11 [1] (vector 10 [0x7FFFFFFF] g)))).vreg 12).lane 0 = 5 := by
  decide +kernel
/-- REDUCE of 2^24, 1, 1, −2^24 in lanes 0 to 3 by FADD is 1.0, whatever other lanes that act hold +0 (R178). -/
theorem test_reduce : ((after (wd 0x120 20 5 0xFF 0xFF 8 0) (vector 5 [0x4B800000, 0x3F800000, 0x3F800000, 0xCB800000])).vreg 20).lane 63 =
    0x3F800000 := by decide +kernel
/-- FDOT4 of 1, 2, 4 and 8 with halves, and 1.0 added, is 8.5 (file 10). -/
theorem test_fdot4 : ((after (wd 0x18F 5 3 4 6 0x30 0) (fun g => vector 6 [0x3F800000] (vector 4 [0x30303030] (vector 3 [0x50484038] g)))).vreg 5).lane 0 =
    0x41080000 := by decide +kernel
/-- CVT.e4m3.sat of 464.0, 500.0 and the canonical NaN (file 11). -/
theorem test_cvt : let g := after (wd 0x200 5 3 0xFF 0xFF 0x38 0) (vector 3 [0x43E80000, 0x43FA0000, 0x7FC00000])
    ((g.vreg 5).lanes.take 3 = [0x7E, 0x7E, 0x7F]) ∧ g.flags = (fOF ||| fSAT ||| fNX).setWidth 64 := by decide +kernel
/-- QBLK.e2m1 of 20, 10, −3 and 1 (file 11); the element of 1 is tiny after rounding (R172, log entry 46). -/
theorem test_qblk : let g := after (wd 0x202 5 3 0xF0 0xFF 0x50 0) (vector 3 [0x41A00000, 0x41200000, 0xC0400000, 0x3F800000])
    (g.vreg 5).lanes.take 5 = [0x81000006, 0x81000004, 0x8100000A, 0x81000000, 0x81000000] ∧ (g.vreg 5).lane 16 = 0x7F000000 ∧
      g.flags = (fNX ||| fUF).setWidth 64 ∧ (g.vreg 5).tag = .g := by decide +kernel
/-- DQBLK widens FP16 1.0 under the scale 2^0 (file 11). -/
theorem test_dqblk : ((after (wd 0x203 5 3 4 0xFF 0x10 0) (fun g => vector 4 [0x7F] (vector 3 [0x3C00] g))).vreg 5).lane 0 = 0x3F800000 := by
  decide +kernel
/-- RAND on the all-zero counter under key 0, in lane 0 (file 06). -/
theorem test_rand : let g := after (wd 0x210 4 0xC1 8 0xFF 0 0) id
    (List.range 4).map (fun j => (g.vreg (4 + j)).lane 0) = [0x6627E8D5, 0xE169C58D, 0xBC57AC4C, 0x9B00DBD8] := by decide +kernel

end Sys2Proof.Machine.Tests
end

section
/-! SUPPORT. The invariant of O60 as a structure, what it says of each kind of result, and how it passes through folds and choices. -/

namespace Sys2Proof.Machine

set_option Elab.async false

/-- The invariant `memoriesOk`, with a name for each of its parts. -/
structure Canonical (s : State) : Prop where
  mem   : s.mem.wf = true
  tile  : s.tile.wf = true
  opbuf : s.opbuf.wf = true
  regs  : regsOk s

/-- The same on the fields themselves, which is what `grind` reads of a state written out. -/
theorem canonical_iff {s : State} : Canonical s ↔
    s.mem.wf = true ∧ s.tile.wf = true ∧ s.opbuf.wf = true ∧ regsFrom 0 s.hub.regs.cells = true :=
  ⟨fun ⟨a, b, c, d⟩ => ⟨a, b, c, d⟩, fun ⟨a, b, c, d⟩ => ⟨a, b, c, d⟩⟩

/-- A state that shares the memories and the registers of a canonical one; the four equations hold by unfolding where only other fields change. -/
theorem Canonical.frame {s t : State} (h : Canonical s) (hm : t.mem = s.mem := by with_reducible rfl)
    (ht : t.tile = s.tile := by with_reducible rfl) (ho : t.opbuf = s.opbuf := by with_reducible rfl)
    (hr : t.hub.regs = s.hub.regs := by with_reducible rfl) : Canonical t :=
  ⟨hm ▸ h.mem, ht ▸ h.tile, ho ▸ h.opbuf, by unfold regsOk; rw [hr]; exact h.regs⟩

theorem Canonical.withMem {s : State} (h : Canonical s) {m : Memory} (k : m.wf = true) : Canonical { s with mem := m } :=
  ⟨k, h.tile, h.opbuf, h.regs⟩

theorem Canonical.withTile {s : State} (h : Canonical s) {m : Memory} (k : m.wf = true) : Canonical { s with tile := m } :=
  ⟨h.mem, k, h.opbuf, h.regs⟩

theorem Canonical.withOpbuf {s : State} (h : Canonical s) {m : Memory} (k : m.wf = true) : Canonical { s with opbuf := m } :=
  ⟨h.mem, h.tile, k, h.regs⟩

/-! What it says of each kind of result: every state in it is canonical -/

def Try.Kept : Try → Prop
  | .done s => Canonical s
  | .hold s => Canonical s

def Fetch.Kept : Fetch → Prop
  | .word _ s => Canonical s
  | .hold s => Canonical s
  | .trap _ s => Canonical s

def RecordRead.Kept : RecordRead → Prop
  | .words _ s => Canonical s
  | .hold s => Canonical s
  | .bad => True

def Res.Kept : Res → Prop
  | .done s => Canonical s
  | .hold s => Canonical s
  | .wait s => Canonical s
  | .trap s _ _ _ => Canonical s

def Put.Kept : Put → Prop
  | .done s => Canonical s
  | .hold s => Canonical s
  | .fail s => Canonical s

def Reach.Kept : Reach → Prop
  | .at_ _ s => Canonical s
  | .wait s => Canonical s
  | .fail _ _ s => Canonical s

def SaveRes.Kept : SaveRes → Prop
  | .done s => Canonical s
  | .noRoom s => Canonical s
  | .wait s => Canonical s

def Install.Kept : Install → Prop
  | .done s => Canonical s
  | .hold s => Canonical s
  | .bad s => Canonical s

def Found4.Kept : Found4 → Prop
  | .ok _ s => Canonical s
  | .stop r => r.Kept

def Halted.Kept : Halted → Prop
  | .done s => Canonical s
  | .full _ => True
  | .wait => True

def NextKept : Host.Outcome State Fault Refusal → Prop
  | .next s => Canonical s
  | .fault _ => True
  | .refused _ => True

def OptionKept : Option State → Prop
  | some s => Canonical s
  | none => True

def OptionResKept : Option Res → Prop
  | some r => r.Kept
  | none => True

def PairKept {α : Type} : Option (α × State) → Prop
  | some x => Canonical x.2
  | none => True

def TrKept {α : Type} : Except Tr (α × State) → Prop
  | .ok x => Canonical x.2
  | .error _ => True

def ReachKept {α : Type} : Except Reach (α × State) → Prop
  | .ok x => Canonical x.2
  | .error r => r.Kept

def CollKept {α : Type} : Except (Option State) (α × State) → Prop
  | .ok x => Canonical x.2
  | .error r => OptionKept r

/-! A pair whose state is canonical -/

theorem Canonical.snd {α : Type} {x : α} {s : State} (h : Canonical s) : Canonical (x, s).2 := h
theorem Canonical.fst {α : Type} {x : α} {s : State} (h : Canonical s) : Canonical (s, x).1 := h
theorem Canonical.snd2 {α β : Type} {x : α} {y : β} {s : State} (h : Canonical s) : Canonical (x, y, s).2.2 := h

/-! Results made of a canonical state -/

theorem Try.Kept.done {s : State} (h : Canonical s) : (Try.done s).Kept := h
theorem Try.Kept.hold {s : State} (h : Canonical s) : (Try.hold s).Kept := h
theorem Fetch.Kept.word {w : W64} {s : State} (h : Canonical s) : (Fetch.word w s).Kept := h
theorem Fetch.Kept.hold {s : State} (h : Canonical s) : (Fetch.hold s).Kept := h
theorem Fetch.Kept.trap {x : Cause} {s : State} (h : Canonical s) : (Fetch.trap x s).Kept := h
theorem RecordRead.Kept.words {w : List W64} {s : State} (h : Canonical s) : (RecordRead.words w s).Kept := h
theorem RecordRead.Kept.hold {s : State} (h : Canonical s) : (RecordRead.hold s).Kept := h
theorem Res.Kept.done {s : State} (h : Canonical s) : (Res.done s).Kept := h
theorem Res.Kept.hold {s : State} (h : Canonical s) : (Res.hold s).Kept := h
theorem Res.Kept.wait {s : State} (h : Canonical s) : (Res.wait s).Kept := h
theorem Res.Kept.trap {s : State} {x : Cause} {code : Nat} {a : W64} (h : Canonical s) : (Res.trap s x code a).Kept := h
theorem Put.Kept.done {s : State} (h : Canonical s) : (Put.done s).Kept := h
theorem Put.Kept.hold {s : State} (h : Canonical s) : (Put.hold s).Kept := h
theorem Put.Kept.fail {s : State} (h : Canonical s) : (Put.fail s).Kept := h
theorem Reach.Kept.at_ {p : Nat} {s : State} (h : Canonical s) : (Reach.at_ p s).Kept := h
theorem Reach.Kept.wait {s : State} (h : Canonical s) : (Reach.wait s).Kept := h
theorem Reach.Kept.fail {x a : Nat} {s : State} (h : Canonical s) : (Reach.fail x a s).Kept := h
theorem SaveRes.Kept.done {s : State} (h : Canonical s) : (SaveRes.done s).Kept := h
theorem SaveRes.Kept.noRoom {s : State} (h : Canonical s) : (SaveRes.noRoom s).Kept := h
theorem SaveRes.Kept.wait {s : State} (h : Canonical s) : (SaveRes.wait s).Kept := h
theorem Install.Kept.done {s : State} (h : Canonical s) : (Install.done s).Kept := h
theorem Install.Kept.hold {s : State} (h : Canonical s) : (Install.hold s).Kept := h
theorem Install.Kept.bad {s : State} (h : Canonical s) : (Install.bad s).Kept := h
theorem Found4.Kept.ok {l : List Acc} {s : State} (h : Canonical s) : (Found4.ok l s).Kept := h
theorem Found4.Kept.stop {r : Res} (h : r.Kept) : (Found4.stop r).Kept := h
theorem Halted.Kept.done {s : State} (h : Canonical s) : (Halted.done s).Kept := h
theorem NextKept.next {s : State} (h : Canonical s) : NextKept (.next s) := h
theorem OptionKept.some {s : State} (h : Canonical s) : OptionKept (.some s) := h
theorem OptionResKept.some {r : Res} (h : r.Kept) : OptionResKept (.some r) := h
theorem PairKept.some {α : Type} {x : α} {s : State} (h : Canonical s) : PairKept (.some (x, s)) := h
theorem TrKept.ok {α : Type} {x : α} {s : State} (h : Canonical s) : TrKept (.ok (x, s)) := h
theorem ReachKept.ok {α : Type} {x : α} {s : State} (h : Canonical s) : ReachKept (.ok (x, s)) := h
theorem ReachKept.error {α : Type} {r : Reach} (h : r.Kept) : ReachKept (.error r : Except Reach (α × State)) := h

theorem Canonical.ofPair {α : Type} {r : α × State} {x : α} {s : State} (h : Canonical r.2) (e : r = (x, s)) : Canonical s := by
  rwa [e] at h

/-! Choices and folds -/

theorem ite_kept {p : Prop} [Decidable p] {s t : State} (h : Canonical s) (k : Canonical t) : Canonical (if p then s else t) := by
  split
  · exact h
  exact k

theorem ite_snd_kept {α : Type} {p : Prop} [Decidable p] {x y : α × State} (h : Canonical x.2) (k : Canonical y.2) :
    Canonical (if p then x else y).2 := by
  split
  · exact h
  exact k

theorem foldl_kept {α : Type} {f : State → α → State} {s : State} {l : List α} (h : Canonical s)
    (hf : ∀ s x, Canonical s → Canonical (f s x)) : Canonical (l.foldl f s) := by
  induction l generalizing s with
  | nil => exact h
  | cons x xs ih => exact ih (hf s x h)

theorem foldl_snd_kept {α β : Type} {f : β × State → α → β × State} {r : β × State} {l : List α} (h : Canonical r.2)
    (hf : ∀ r x, Canonical r.2 → Canonical (f r x).2) : Canonical (l.foldl f r).2 := by
  induction l generalizing r with
  | nil => exact h
  | cons x xs ih => exact ih (hf r x h)

theorem findSome?_kept {α : Type} {f : α → Option State} {l : List α} (hf : ∀ x, OptionKept (f x)) : OptionKept (l.findSome? f) := by
  induction l with
  | nil => trivial
  | cons x xs ih =>
    rw [List.findSome?_cons]
    have k := hf x
    split
    · rename_i e
      rwa [e] at k
    exact ih

theorem getD_kept {o : Option State} {s : State} (h : OptionKept o) (k : Canonical s) : Canonical (o.getD s) := by
  cases o with
  | none => exact k
  | some t => exact h

end Sys2Proof.Machine
end

section
/-! SUPPORT. The shared operations of the model keep the memories and the registers canonical: one lemma each, in the order of the model. A proof
follows the branches of its function; where a function passes its state through several results, `grind` chains the lemmas of its callees. -/

namespace Sys2Proof.Machine

set_option Elab.async false
variable {s : State} {c : Ctx}

/-! Reset -/

theorem State.reset_kept : Canonical State.reset := ⟨rfl, rfl, rfl, rfl⟩

/-! Parts of the state -/

theorem State.setReg_kept (h : Canonical s) {off v} : Canonical (s.setReg off v) :=
  ⟨h.mem, h.tile, h.opbuf, putReg_regsFrom h.regs (Nat.zero_le _)⟩

theorem State.setRegN_kept (h : Canonical s) {off hi lo v} : Canonical (s.setRegN off hi lo v) := State.setReg_kept h

theorem State.setGrp_kept (h : Canonical s) {g x} : Canonical (s.setGrp g x) := ⟨h.mem, h.tile, h.opbuf, h.regs⟩

theorem State.modGrp_kept (h : Canonical s) {g f} : Canonical (s.modGrp g f) := ⟨h.mem, h.tile, h.opbuf, h.regs⟩

theorem State.setCore_kept (h : Canonical s) {pkg c} : Canonical (s.setCore pkg c) := ⟨h.mem, h.tile, h.opbuf, h.regs⟩

theorem State.modCore_kept (h : Canonical s) {pkg f} : Canonical (s.modCore pkg f) := State.setCore_kept h

theorem State.advance_kept (h : Canonical s) {pkg t} : Canonical (s.advance pkg t) := State.modCore_kept h

theorem State.modQuarter_kept (h : Canonical s) {pkg q f} : Canonical (s.modQuarter pkg q f) := State.modCore_kept h

theorem State.fresh_kept (h : Canonical s) : Canonical s.fresh.2 := ⟨h.mem, h.tile, h.opbuf, h.regs⟩

theorem State.draw_kept (h : Canonical s) : Canonical s.draw.2 := ⟨h.mem, h.tile, h.opbuf, h.regs⟩

theorem State.drawN_kept (h : Canonical s) {n} : Canonical (s.drawN n).2 := ⟨h.mem, h.tile, h.opbuf, h.regs⟩

theorem State.drawWords_kept (h : Canonical s) {n} : Canonical (s.drawWords n).2 := ⟨h.mem, h.tile, h.opbuf, h.regs⟩

/-! Memory, escrow and the layers -/

theorem State.mapNear_kept (h : Canonical s) {f} : Canonical (s.mapNear f) := ⟨h.mem, h.tile, h.opbuf, h.regs⟩

theorem State.outdate_kept (h : Canonical s) {who bs} : Canonical (s.outdate who bs) := State.mapNear_kept h

theorem State.acquire_kept (h : Canonical s) {gi scope} : Canonical (s.acquire gi scope) := by
  unfold State.acquire
  dsimp only
  split
  · exact State.modGrp_kept (ite_kept (State.mapNear_kept h) (ite_kept (State.mapNear_kept h) h))
  split
  · exact State.mapNear_kept h
  split
  · exact State.mapNear_kept h
  exact h

theorem State.wake_kept (h : Canonical s) {gi acq} : Canonical (s.wake gi acq) := by
  unfold State.wake
  dsimp only
  split
  · exact State.acquire_kept (State.modGrp_kept h)
  exact State.modGrp_kept h

theorem State.addCounter_kept (h : Canonical s) {gi k v} : Canonical (s.addCounter gi k v) := by
  unfold State.addCounter
  dsimp only
  split
  · split
    · exact State.wake_kept (State.modGrp_kept h)
    exact State.modGrp_kept h
  exact State.modGrp_kept h

theorem State.evalTills_kept (h : Canonical s) {line} : Canonical (s.evalTills line) := by
  unfold State.evalTills
  refine foldl_kept h fun _ _ hs => ?_
  split
  · split
    · exact State.wake_kept hs
    exact hs
  exact hs

theorem State.wakeMonitors_kept (h : Canonical s) {pa} : Canonical (s.wakeMonitors pa) := foldl_kept h fun _ _ h1 => State.wake_kept h1

theorem State.hitWrite_kept (h : Canonical s) {layer by_ space sector d} : Canonical (s.hitWrite layer by_ space sector d) := by
  unfold State.hitWrite
  dsimp only
  refine foldl_kept h fun _ _ hs => ?_
  refine ite_kept ?_ ?_
  · exact State.modGrp_kept hs
  exact hs

theorem State.hitRetract_kept (h : Canonical s) {e} : Canonical (s.hitRetract e) := by
  unfold State.hitRetract
  dsimp only
  refine ite_kept ?_ ?_
  · exact h
  refine foldl_kept h fun _ _ hs => ?_
  refine ite_kept ?_ ?_
  · exact State.modGrp_kept hs
  exact hs

theorem State.logWords_kept (h : Canonical s) {sector d} : Canonical (s.logWords sector d) := ⟨h.mem, h.tile, h.opbuf, h.regs⟩

theorem State.rebuildTrees_kept (h : Canonical s) : Canonical s.rebuildTrees := ⟨h.mem, h.tile, h.opbuf, h.regs⟩

theorem State.unpoison_kept (h : Canonical s) {space p} : Canonical (s.unpoison space p) := by
  unfold State.unpoison
  split
  · exact h.frame
  exact State.rebuildTrees_kept h.frame

theorem State.egressFenced_kept (h : Canonical s) {e} : Canonical (s.egressFenced e) := by
  unfold State.egressFenced
  dsimp only
  split
  · split
    · exact State.modGrp_kept h
    exact h
  grind [!State.modGrp_kept, canonical_iff]

theorem State.landAt_kept (h : Canonical s) {sector d} : Canonical (s.landAt sector d) := by
  unfold State.landAt
  split
  · exact h.withMem (Memory.putSector_wf h.mem _ _)
  split
  · exact h
  rename_i p _ _
  have k : Canonical ((s.hitWrite 0 none .glob p d).logWords p d) := State.logWords_kept (State.hitWrite_kept h)
  exact State.wakeMonitors_kept (k.withMem (Memory.putSector_wf k.mem _ _))

theorem State.sendEgress_kept (h : Canonical s) {e} : Canonical (s.sendEgress e) := by
  unfold State.sendEgress
  split
  · exact h
  split
  · exact State.egressFenced_kept h
  exact State.landAt_kept h

theorem State.sendEach_kept (h : Canonical s) {es} : Canonical (s.sendEach es) := by
  unfold State.sendEach
  refine foldl_kept h fun _ _ hs => ?_
  split
  · exact State.sendEgress_kept hs.frame
  exact hs

theorem State.stampEgress_kept (h : Canonical s) {before f} : Canonical (s.stampEgress before f) := ⟨h.mem, h.tile, h.opbuf, h.regs⟩

theorem State.flushSector_kept (h : Canonical s) {sector} : Canonical (s.flushSector sector) := State.sendEach_kept h

theorem State.devWrite_kept (h : Canonical s) {space sector d by_ sys} : Canonical (s.devWrite space sector d by_ sys) := by
  unfold State.devWrite
  split
  · exact h
  have k : Canonical (s.hitWrite 0 by_ space sector d) := State.hitWrite_kept h
  cases space with
  | tile => exact State.evalTills_kept (k.withTile (Memory.putSector_wf k.tile _ _))
  | glob =>
    have k := State.logWords_kept k (sector := sector) (d := d)
    exact State.wakeMonitors_kept (ite_kept (k.withMem (Memory.putSector_wf k.mem _ _))
      (ite_kept (State.landAt_kept (State.flushSector_kept k)) k.frame))

theorem State.rekeyBlock_kept (h : Canonical s) {func b} : Canonical (s.rekeyBlock func b) := by
  unfold State.rekeyBlock
  split
  · exact h.frame
  split
  · exact h
  have k : Canonical (s.flushSector (sectorOf (16 * b))) := State.flushSector_kept h
  exact (k.withMem (Memory.write_wf k.mem _ _)).frame

theorem State.unkey_kept (h : Canonical s) {ps} : Canonical (s.unkey ps) := ⟨h.mem, h.tile, h.opbuf, h.regs⟩

theorem State.rekey_kept (h : Canonical s) {func space ps} : Canonical (s.rekey func space ps) := by
  unfold State.rekey
  split
  · exact h
  exact foldl_kept h fun _ _ h1 => State.rekeyBlock_kept h1

theorem State.devWriteBytes_kept (h : Canonical s) {space p bs by_ sys} : Canonical (s.devWriteBytes space p bs by_ sys) := by
  unfold State.devWriteBytes
  dsimp only
  refine foldl_kept h fun _ _ hs => ?_
  exact State.devWrite_kept hs

theorem State.sealEscrow_kept (h : Canonical s) {gi scope id} : Canonical (s.sealEscrow gi scope id) := ⟨h.mem, h.tile, h.opbuf, h.regs⟩

theorem State.sealAbort_kept (h : Canonical s) {gi scope id} : Canonical (s.sealAbort gi scope id) := ⟨h.mem, h.tile, h.opbuf, h.regs⟩

theorem State.raiseEsc_kept (h : Canonical s) {e level next} : Canonical (s.raiseEsc e level next) := by
  unfold State.raiseEsc
  dsimp only
  exact (State.hitWrite_kept h).frame

theorem State.dropEsc_kept (h : Canonical s) {e} : Canonical (s.dropEsc e) := by
  unfold State.dropEsc
  dsimp only
  exact (State.hitRetract_kept h).frame

theorem State.fillNear_kept (h : Canonical s) {pkg func pa} : Canonical (s.fillNear pkg func pa) := by
  unfold State.fillNear
  dsimp only
  exact State.modCore_kept h

theorem State.loadElem_kept (h : Canonical s) {gi space ps near} : Canonical (s.loadElem gi space ps near).2 := by
  unfold State.loadElem
  dsimp only
  grind [!State.draw_kept, !State.outdate_kept]

/-! Translation -/

theorem State.setAD_kept (h : Canonical s) {upd} : Canonical (s.setAD upd) := foldl_kept h fun _ _ h1 => State.devWriteBytes_kept h1

theorem State.askAts_kept (h : Canonical s) {die func pa access group} : Canonical (s.askAts die func pa access group) := by
  unfold State.askAts
  split
  · exact h
  exact h.frame

theorem State.finish_kept (h : Canonical s) {die func pa access w x group} : Canonical (s.finish die func pa access w x group).2 := by
  unfold State.finish
  dsimp only
  split
  · exact h
  split
  · exact h
  split
  · split <;> exact h
  · split <;> exact h
  · split
    · exact h
    split
    · exact h.frame
    exact (State.askAts_kept h).snd
  exact h

theorem State.installL2_kept (h : Canonical s) {die t} : Canonical (s.installL2 die t) := ⟨h.mem, h.tile, h.opbuf, h.regs⟩

theorem State.installTlb_kept (h : Canonical s) {pkg t} : Canonical (s.installTlb pkg t) := State.installL2_kept (State.modCore_kept h)

theorem State.startWalk_kept (h : Canonical s) {pkg func va access group} : Canonical (s.startWalk pkg func va access group) := by
  unfold State.startWalk
  dsimp only
  split
  · exact h
  exact h.frame

theorem State.translate_kept (h : Canonical s) {gi va access} : Canonical (s.translate gi va access).2 := by
  unfold State.translate
  dsimp only
  split
  · exact h
  split
  · exact State.finish_kept h
  split
  · exact State.finish_kept (State.installTlb_kept h)
  exact (State.startWalk_kept h).snd

theorem State.hubTr_kept (h : Canonical s) {die func va access} : Canonical (s.hubTr die func va access).2 := by
  unfold State.hubTr
  split
  · exact h
  split
  · exact h
  · exact h
  exact State.finish_kept (State.setAD_kept h)

/-! Fault events and their rings -/

theorem State.hubPut_kept (h : Canonical s) {func va bs sys} : (s.hubPut func va bs sys).Kept := by
  unfold State.hubPut
  grind [!State.hubTr_kept, !State.devWriteBytes_kept, !State.rekey_kept, Put.Kept]

theorem State.hubGet_kept (h : Canonical s) {func va n} : TrKept (s.hubGet func va n) := by
  unfold State.hubGet
  grind [!State.hubTr_kept, TrKept]

theorem State.asked_kept {t : State} (h : Canonical s) (k : Canonical t) : Canonical (s.asked t) :=
  ⟨h.mem, h.tile, h.opbuf, k.regs⟩

theorem State.hubPost_kept (h : Canonical s) {func va bs} : Canonical (s.hubPost func va bs) := by
  unfold State.hubPost
  grind [!State.hubPut_kept, Put.Kept, canonical_iff]

theorem State.flushPuts_kept (h : Canonical s) : Canonical s.flushPuts := foldl_kept h.frame fun _ _ h1 => State.hubPost_kept h1

theorem State.writeRecord_kept (h : Canonical s) {e} : Canonical (s.writeRecord e).2 := by
  unfold State.writeRecord
  dsimp only
  split
  · exact h
  grind [!State.hubGet_kept, !State.asked_kept, !State.hubTr_kept, !State.hubPut_kept, TrKept, Put.Kept, canonical_iff]

theorem State.flushList_kept (h : Canonical s) {es} : Canonical (s.flushList es) := by
  fun_induction State.flushList s es <;> grind [!State.writeRecord_kept, canonical_iff]

theorem State.flushEvents_kept (h : Canonical s) : Canonical s.flushEvents := by
  unfold State.flushEvents
  exact State.flushList_kept h.frame

theorem State.queueEvent_kept (h : Canonical s) {e} : Canonical (s.queueEvent e) := by
  unfold State.queueEvent
  dsimp only
  split
  · exact State.hubPost_kept h.frame
  exact State.flushEvents_kept h.frame

theorem State.raiseLog_kept (h : Canonical s) {func cls payload group waits} : Canonical (s.raiseLog func cls payload group waits) := by
  unfold State.raiseLog
  split
  · exact h
  exact State.queueEvent_kept h

theorem State.pageRecord_kept (h : Canonical s) {gi va access} : Canonical (s.pageRecord gi va access) := by
  unfold State.pageRecord
  dsimp only
  exact State.raiseLog_kept h

theorem State.integRecord_kept (h : Canonical s) {gi source addr} : Canonical (s.integRecord gi source addr) := by
  unfold State.integRecord
  dsimp only
  exact State.raiseLog_kept h

theorem State.servedPage_kept (h : Canonical s) {pa access} : Canonical (s.servedPage pa access) := by
  unfold State.servedPage
  dsimp only
  split
  · split
    · exact State.raiseLog_kept h
    exact h
  exact h

theorem State.discardEsc_kept (h : Canonical s) {e} : Canonical (s.discardEsc e) := State.servedPage_kept (State.modGrp_kept (State.dropEsc_kept h))

theorem State.xfaultFail_kept (h : Canonical s) {e} : Canonical (s.xfaultFail e) := by
  unfold State.xfaultFail
  dsimp only
  split
  · exact foldl_kept h fun _ _ h1 => State.discardEsc_kept h1
  · exact State.modGrp_kept h
  · exact State.modCore_kept h
  exact h

theorem State.xfaultRetry_kept (h : Canonical s) {e} : Canonical (s.xfaultRetry e) := by
  unfold State.xfaultRetry
  split
  · exact State.modGrp_kept h
  exact h

theorem State.raiseXfault_kept (h : Canonical s) {func va access source group entry waits name} :
    Canonical (s.raiseXfault func va access source group entry waits name) := by
  unfold State.raiseXfault
  dsimp only
  split
  · exact State.xfaultFail_kept h
  exact State.queueEvent_kept h

/-! Names -/

theorem State.putEntry_kept (h : Canonical s) {pa k w} : Canonical (s.putEntry pa k w) := State.devWriteBytes_kept h

theorem State.applySlot_kept (h : Canonical s) {gi op} : Canonical (s.applySlot gi op) := by
  unfold State.applySlot
  split
  · exact State.addCounter_kept h
  · exact State.addCounter_kept h
  · exact State.addCounter_kept (State.modGrp_kept h)
  exact h

theorem State.putPhys_kept (h : Canonical s) {pa w} : Canonical (s.putPhys pa w) := State.devWriteBytes_kept h

theorem State.imageAdd_kept (h : Canonical s) {img k v} : Canonical (s.imageAdd img k v) := State.putPhys_kept h

theorem State.applyImage_kept (h : Canonical s) {e op} : Canonical (s.applyImage e op) := by
  unfold State.applyImage
  extract_lets s1
  have k : Canonical s1 := by
    cases op with
    | signal => exact State.imageAdd_kept h
    | wake => exact State.imageAdd_kept h
    | deposit => exact State.imageAdd_kept (State.putPhys_kept h)
    | join => exact h
  exact ite_kept (State.putEntry_kept k) k

theorem State.postWord_kept (h : Canonical s) {func pa f} : Canonical (s.postWord func pa f) := by
  unfold State.postWord
  dsimp only
  exact State.devWriteBytes_kept (State.rekey_kept h)

theorem State.sendNote_kept (h : Canonical s) {func na nd} : Canonical (s.sendNote func na nd) := by
  unfold State.sendNote
  dsimp only
  split
  · exact State.raiseLog_kept h
  grind [!State.hubPut_kept, !State.raiseLog_kept, Put.Kept, canonical_iff]

theorem State.flushNotes_kept (h : Canonical s) : Canonical s.flushNotes := foldl_kept h.frame fun _ _ h1 => State.sendNote_kept h1

theorem State.notify_kept (h : Canonical s) {func pa} : Canonical (s.notify func pa) := by
  unfold State.notify
  dsimp only
  split
  · exact h
  exact State.sendNote_kept h

theorem State.applyHost_kept (h : Canonical s) {func va op} : Canonical (s.applyHost func va op).2 := by
  unfold State.applyHost
  dsimp only
  split
  · exact h
  grind [!State.hubTr_kept, !State.notify_kept, !State.postWord_kept]

theorem State.applyJoin_kept (h : Canonical s) {e caller} : Canonical (s.applyJoin e caller).2 := by
  unfold State.applyJoin
  dsimp only
  split
  · exact h
  split
  · exact h
  exact (ite_kept h (State.putPhys_kept h)).snd

theorem State.signalJoiner_kept (h : Canonical s) {func name op} : Canonical (s.signalJoiner func name op).2 := by
  unfold State.signalJoiner
  split
  · exact h
  next e _ =>
  refine ite_snd_kept h ?_
  split
  · split
    · exact (State.applySlot_kept h).snd
    exact h
  · exact (State.applyImage_kept h).snd
  · exact (State.applyHost_kept h).snd
  exact h

theorem State.deviceSignal_kept (h : Canonical s) {func name op} : Canonical (s.deviceSignal func name op) := by
  unfold State.deviceSignal
  grind [!State.signalJoiner_kept, !State.fresh_kept, canonical_iff]

theorem State.nameDeath_kept (h : Canonical s) {func name code} : Canonical (s.nameDeath func name code) := by
  unfold State.nameDeath
  dsimp only
  split
  · exact h
  split
  · exact h
  refine foldl_kept (ite_kept (State.putEntry_kept h) (State.devWriteBytes_kept (State.putEntry_kept h))) fun _ _ hs => ?_
  split
  · exact hs
  exact State.deviceSignal_kept hs

/-! Operands and results -/

theorem State.readVec_kept (h : Canonical s) {gi c u} : Canonical (s.readVec gi c u).2.2 := by
  unfold State.readVec
  dsimp only
  split
  · exact h
  grind [!State.drawN_kept]

theorem State.readWhole_kept (h : Canonical s) {gi c u} : Canonical (s.readWhole gi c u).2 := by
  unfold State.readWhole
  dsimp only
  split
  · exact h
  grind [!State.drawN_kept]

theorem State.readScalars_kept (h : Canonical s) {gi c u} : Canonical (s.readScalars gi c u).2 := by
  unfold State.readScalars
  dsimp only
  split
  · exact h
  grind [!State.drawN_kept]

theorem State.readLanes_kept (h : Canonical s) {gi c u} : Canonical (s.readLanes gi c u).2.2 := by
  unfold State.readLanes
  dsimp only
  split
  · exact State.readVec_kept h
  split
  · grind [!State.readScalars_kept]
  split
  · exact h
  split <;> exact h

theorem State.readU_kept (h : Canonical s) {gi c u lane} : Canonical (s.readU gi c u lane).2 := by
  unfold State.readU
  dsimp only
  split
  · exact (State.readVec_kept h).snd
  split
  · exact (State.readScalars_kept h).snd
  exact h

theorem State.readPair_kept (h : Canonical s) {gi c u} : Canonical (s.readPair gi c u).2 := by
  unfold State.readPair
  dsimp only
  split
  · exact (State.readVec_kept (State.readVec_kept h)).snd
  split
  · exact (State.readScalars_kept h).snd
  split
  · exact h
  split <;> exact h

theorem State.readSpan_kept (h : Canonical s) {gi r u n} : Canonical (s.readSpan gi r u n).2 := by
  fun_induction State.readSpan s gi r u n <;> grind [!State.readVec_kept]

theorem State.readData_kept (h : Canonical s) {gi c u bytes} : Canonical (s.readData gi c u bytes).2 := by
  unfold State.readData
  dsimp only
  split
  · exact (State.readSpan_kept h).snd
  split
  · exact (State.readScalars_kept h).snd
  exact h

theorem State.fixedV_kept (h : Canonical s) {gi c mask vals tag ready beside array} : Canonical (s.fixedV gi c mask vals tag ready beside array) := by
  unfold State.fixedV
  dsimp only
  grind [!State.drawN_kept, !State.fresh_kept, !State.modGrp_kept, !foldl_kept]

theorem State.fixedS_kept (h : Canonical s) {gi c x ready beside} : Canonical (s.fixedS gi c x ready beside) := by
  unfold State.fixedS
  dsimp only
  split
  · exact h
  grind [!State.draw_kept, !State.fresh_kept, !State.modGrp_kept, !foldl_kept]

theorem State.landV_kept (h : Canonical s) {gi c mask vals tag} : Canonical (s.landV gi c mask vals tag) := by
  unfold State.landV
  dsimp only
  exact State.modGrp_kept h

theorem State.landS_kept (h : Canonical s) {gi c x} : Canonical (s.landS gi c x) := by
  unfold State.landS
  dsimp only
  split <;> exact State.modGrp_kept h

theorem State.endStatus_kept (h : Canonical s) {gi id x} : Canonical (s.endStatus gi id x) := by
  unfold State.endStatus
  extract_lets g stored
  split
  · exact h
  extract_lets s1 s2
  have h1 : Canonical s1 := ite_kept h (ite_kept (State.putPhys_kept h) (State.landS_kept h))
  split
  · exact State.modGrp_kept h
  exact State.modGrp_kept (ite_kept (State.putPhys_kept h1) h1)

theorem State.landStatuses_kept (h : Canonical s) : Canonical s.landStatuses := by
  unfold State.landStatuses
  refine foldl_kept h fun _ _ hs => ?_
  refine foldl_kept hs fun _ _ hs => ?_
  split
  · exact State.endStatus_kept hs
  exact hs

/-! Commits, releases and atomics -/

theorem State.drainEgress_kept (h : Canonical s) : Canonical s.drainEgress := by
  unfold State.drainEgress
  refine foldl_kept h fun _ _ hs => ?_
  split
  · exact State.sendEgress_kept (State.servedPage_kept hs.frame)
  exact hs

theorem State.retranslate_kept (h : Canonical s) {e} : Canonical (s.retranslate e) := by
  unfold State.retranslate
  dsimp only
  grind [!State.hubTr_kept, !State.discardEsc_kept, !State.raiseXfault_kept, canonical_iff]

theorem State.writeEsc_kept (h : Canonical s) {sys e} : Canonical (s.writeEsc sys e) := by
  unfold State.writeEsc
  extract_lets s0 s1 s2
  have h1 : Canonical s1 := State.stampEgress_kept (State.devWrite_kept (State.rekey_kept h))
  have h2 : Canonical s2 := ite_kept (State.outdate_kept h1) h1
  exact h2.frame

theorem State.landEsc_kept (h : Canonical s) {sys mine e} : Canonical (s.landEsc sys mine e) := by
  unfold State.landEsc
  dsimp only
  split
  · exact h
  split
  · split
    · exact State.unpoison_kept (foldl_kept h fun _ _ h1 => State.writeEsc_kept h1)
    exact State.integRecord_kept (State.modGrp_kept (foldl_kept h fun _ _ h1 => State.dropEsc_kept h1))
  split
  · exact State.discardEsc_kept h
  exact State.writeEsc_kept h

theorem State.keepLines_kept (h : Canonical s) {gi es} : Canonical (s.keepLines gi es) := by
  unfold State.keepLines
  dsimp only
  refine ite_kept ?_ ?_
  · exact h
  exact foldl_kept h fun _ _ h1 => State.modGrp_kept h1

theorem State.moveEscrow_kept (h : Canonical s) {gi id scope sel re mine} : Canonical (s.moveEscrow gi id scope sel re mine) := by
  unfold State.moveEscrow
  extract_lets chosen s1 s2 es ready s3
  have h1 : Canonical s1 := ite_kept (foldl_kept h fun _ _ k => State.retranslate_kept k) h
  have h2 : Canonical s2 := ite_kept (State.drainEgress_kept h1) h1
  have h3 : Canonical s3 := State.keepLines_kept h2
  split
  · exact ite_kept (foldl_kept h3 fun _ _ k => State.raiseEsc_kept k) h2
  split
  · exact foldl_kept h3 fun _ _ k => State.raiseEsc_kept k
  exact foldl_kept h3 fun _ _ k => State.landEsc_kept k

theorem State.commitStep_kept (h : Canonical s) {gi id scope sel re} : Canonical (s.commitStep gi id scope sel re).1 := by
  unfold State.commitStep
  dsimp only
  exact State.moveEscrow_kept h

theorem State.discardBelow_kept (h : Canonical s) {gi mine} : Canonical (s.discardBelow gi mine) := foldl_kept h fun _ _ h1 => State.dropEsc_kept h1

theorem State.releaseStep_kept (h : Canonical s) {gi id scope sel} : Canonical (s.releaseStep gi id scope sel).1 := by
  unfold State.releaseStep
  dsimp only
  split
  · exact h
  exact State.commitStep_kept h

theorem State.runCommit_kept (h : Canonical s) {gi id sel} : Canonical (s.runCommit gi id sel) := by
  unfold State.runCommit
  dsimp only
  split
  · refine ite_kept ?_ ?_
    · exact h
    split
    · exact State.endStatus_kept (State.modGrp_kept (State.discardBelow_kept h))
    refine ite_kept ?_ ?_
    · exact State.endStatus_kept (State.commitStep_kept (ite_kept (State.modGrp_kept h) h))
    exact State.commitStep_kept (ite_kept (State.modGrp_kept h) h)
  exact h

theorem State.runAbort_kept (h : Canonical s) {gi id} : Canonical (s.runAbort gi id) := by
  unfold State.runAbort
  dsimp only
  split
  · split
    · exact h
    exact State.endStatus_kept (State.modGrp_kept (State.discardBelow_kept h))
  exact h

theorem State.endOp_kept (h : Canonical s) {gi id} : Canonical (s.endOp gi id) := State.modGrp_kept h

theorem State.failOp_kept (h : Canonical s) {gi id} : Canonical (s.failOp gi id) := State.modGrp_kept h

theorem State.integOp_kept (h : Canonical s) {gi id addr} : Canonical (s.integOp gi id addr) := State.integRecord_kept (State.failOp_kept h)

theorem State.runStoreRel_kept (h : Canonical s) {gi id sel} : Canonical (s.runStoreRel gi id sel) := by
  unfold State.runStoreRel
  dsimp only
  split
  · split
    · exact State.releaseStep_kept h
    split
    · exact State.endOp_kept (State.commitStep_kept (State.releaseStep_kept h))
    exact State.commitStep_kept (State.releaseStep_kept h)
  exact h

theorem State.landOwnPriv_kept (h : Canonical s) {gi space ps} : Canonical (s.landOwnPriv gi space ps) :=
  foldl_kept h fun _ _ h1 => State.writeEsc_kept h1

theorem State.atomAt_kept (h : Canonical s) {gi space op scope width place b x} :
    Canonical (s.atomAt gi space op scope width place b x).2 := by
  unfold State.atomAt
  extract_lets n func ps s0 m mask seen
  have h0 : Canonical s0 := State.landOwnPriv_kept h
  have hs : ∀ {v t}, Canonical t → Canonical (seen v t) := fun k => ite_kept (State.outdate_kept k) k
  split
  · exact (hs (State.devWriteBytes_kept (State.rekey_kept h0))).snd
  exact (hs h0).snd

theorem State.landWide_kept (h : Canonical s) {gi c width vals} : Canonical (s.landWide gi c width vals) := by
  unfold State.landWide
  dsimp only
  split
  · exact State.landV_kept (State.landV_kept h)
  exact State.landV_kept h

theorem State.atomLane_kept (h : Canonical s) {gi id lane} : Canonical (s.atomLane gi id lane) := by
  unfold State.atomLane
  dsimp only
  split
  · split
    · split
      · exact h
      split
      · exact h
      split
      · exact h
      split
      · exact State.integOp_kept h
      split
      · exact State.servedPage_kept (State.modGrp_kept (State.modGrp_kept h))
      exact State.modGrp_kept (State.atomAt_kept h)
    exact h
  exact h

theorem State.endAtomic_kept (h : Canonical s) {gi id} : Canonical (s.endAtomic gi id) := by
  unfold State.endAtomic
  dsimp only
  split
  · exact h
  split
  · exact h
  split
  · split
    · exact State.acquire_kept (State.endOp_kept (ite_kept h (State.landWide_kept h)))
    exact State.endOp_kept (ite_kept h (State.landWide_kept h))
  · split
    · exact State.acquire_kept (State.endOp_kept (ite_kept h (State.landWide_kept h)))
    exact State.endOp_kept (ite_kept h (State.landWide_kept h))
  exact h

theorem State.atomRelease_kept (h : Canonical s) {gi id sel} : Canonical (s.atomRelease gi id sel).1 := by
  unfold State.atomRelease
  dsimp only
  split
  · exact h
  split
  · exact h
  split
  · exact (State.modGrp_kept (State.releaseStep_kept h)).fst
  exact State.releaseStep_kept h

theorem State.runAtomic_kept (h : Canonical s) {gi id order} : Canonical (s.runAtomic gi id order) := by
  unfold State.runAtomic
  dsimp only
  split
  · exact State.atomRelease_kept h
  split
  · exact State.atomRelease_kept h
  exact State.endAtomic_kept (foldl_kept (State.atomRelease_kept h) fun _ _ h1 => State.atomLane_kept h1)

theorem State.atompLane_kept (h : Canonical s) {gi id lane} : Canonical (s.atompLane gi id lane) := by
  unfold State.atompLane
  dsimp only
  split
  · split
    · split
      · exact h
      split
      · exact h
      split
      · exact State.integOp_kept h
      split
      · exact State.servedPage_kept (State.modGrp_kept h)
      exact State.modGrp_kept (State.outdate_kept (foldl_kept (State.landOwnPriv_kept h) fun _ _ h1 => State.devWrite_kept h1))
    exact h
  exact h

theorem State.runAtomp_kept (h : Canonical s) {gi id lanes} : Canonical (s.runAtomp gi id lanes) := by
  unfold State.runAtomp
  dsimp only
  split
  · exact State.atomRelease_kept h
  exact State.endAtomic_kept (foldl_kept (State.atomRelease_kept h) fun _ _ h1 => State.atompLane_kept h1)

/-! The operand buffer and the multiplier array -/

theorem State.clearBuf_kept (h : Canonical s) {a n} : Canonical (s.clearBuf a n) := h.withOpbuf (Memory.filter_wf h.opbuf _)

theorem State.tagBuf_kept (h : Canonical s) {a n func} : Canonical (s.tagBuf a n func) := ⟨h.mem, h.tile, h.opbuf, h.regs⟩

theorem State.mopBlock_kept (h : Canonical s) {gi b} : Canonical (s.mopBlock gi b) := by
  unfold State.mopBlock
  dsimp only
  exact State.modGrp_kept h

theorem State.runMop_kept (h : Canonical s) {pkg q} : Canonical (s.runMop pkg q) := by
  unfold State.runMop
  dsimp only
  split
  · exact h
  split
  · exact State.endOp_kept (State.mopBlock_kept (State.modQuarter_kept h))
  exact State.modQuarter_kept h

theorem State.runObload_kept (h : Canonical s) {gi id} : Canonical (s.runObload gi id) := by
  unfold State.runObload
  dsimp only
  split
  · split
    · exact h
    split
    · exact State.integOp_kept h
    exact State.endOp_kept ((State.drawN_kept h).withOpbuf (Memory.write_wf h.opbuf _ _))
  exact h

theorem State.runMdrain_kept (h : Canonical s) {gi id} : Canonical (s.runMdrain gi id) := by
  unfold State.runMdrain
  dsimp only
  split
  · split
    · exact State.endStatus_kept h
    split
    · exact h
    exact State.endStatus_kept (State.modCore_kept h)
  exact h

/-! Completions -/

theorem State.laneBytes_kept (h : Canonical s) {gi space own near place} : Canonical (s.laneBytes gi space own near place).2 :=
  foldl_snd_kept h fun _ _ hs => State.loadElem_kept hs

theorem State.loadLane_kept (h : Canonical s) {gi id near whole lane} : Canonical (s.loadLane gi id near whole lane) := by
  unfold State.loadLane
  dsimp only
  split
  · split
    · split
      · exact h
      split
      · exact h
      split
      · exact h
      split
      · exact State.integOp_kept h
      split
      · exact State.servedPage_kept (State.modGrp_kept (State.modGrp_kept h))
      have k {p : Prop} [Decidable p] {l : List Nat} {q : State → Nat → Prop} [∀ s n, Decidable (q s n)] {pkg func : Nat} :
          Canonical (if p then l.foldl (fun s n => if q s n then s else s.fillNear pkg func n) s else s) :=
        ite_kept (foldl_kept h fun _ _ hs => ite_kept hs (State.fillNear_kept hs)) h
      exact State.modGrp_kept (State.modGrp_kept (ite_snd_kept (State.outdate_kept k).snd (State.laneBytes_kept k)))
    exact h
  exact h

theorem State.landLoad_kept (h : Canonical s) {gi dest span got} : Canonical (s.landLoad gi dest span got) := by
  unfold State.landLoad
  dsimp only
  exact foldl_kept h fun _ _ h1 => State.landV_kept h1

theorem State.endLoad_kept (h : Canonical s) {gi id} : Canonical (s.endLoad gi id) := by
  unfold State.endLoad
  dsimp only
  split
  · split
    · split
      · split
        · exact State.acquire_kept (State.endOp_kept (State.landLoad_kept h))
        exact State.endOp_kept (State.landLoad_kept h)
      exact h
    exact h
  exact h

theorem State.runLoad_kept (h : Canonical s) {gi id mask near} : Canonical (s.runLoad gi id mask near) :=
  State.endLoad_kept (foldl_kept h fun _ _ h1 => State.loadLane_kept h1)

theorem State.runSfu_kept (h : Canonical s) {gi id} : Canonical (s.runSfu gi id) := by
  unfold State.runSfu
  split
  · split
    · split
      · exact State.modGrp_kept (State.endOp_kept (State.landV_kept h))
      exact h
    exact h
  exact h

theorem State.runKick_kept (h : Canonical s) {gi id sel} : Canonical (s.runKick gi id sel) := by
  unfold State.runKick
  dsimp only
  split
  · refine ite_kept ?_ ?_
    · grind [!State.commitStep_kept]
    refine ite_kept ?_ ?_
    · grind [!State.endOp_kept, !State.modCore_kept, !State.commitStep_kept]
    grind [!State.modGrp_kept, !State.modCore_kept, !State.commitStep_kept]
  exact h

theorem State.runMops_kept (h : Canonical s) {p q gi n} : Canonical (s.runMops p q gi n) := by
  fun_induction State.runMops s p q gi n <;> grind [!State.runMop_kept]

theorem State.spawned_kept (h : Canonical s) {gi id o} : Canonical (s.spawned gi id o) := by
  unfold State.spawned
  split
  · exact h.frame
  exact h

theorem State.letGo_kept (h : Canonical s) {gi id o} : Canonical (s.letGo gi id o) := by
  unfold State.letGo
  dsimp only
  exact (State.spawned_kept h).frame

theorem State.runRequest_kept (h : Canonical s) {gi id sel} : Canonical (s.runRequest gi id sel) := by
  unfold State.runRequest
  dsimp only
  split
  · exact h
  split
  · exact h
  split
  · exact State.letGo_kept (State.atomRelease_kept h)
  exact State.atomRelease_kept h

theorem State.letAllGo_kept (h : Canonical s) {gi} : Canonical (s.letAllGo gi) := by
  unfold State.letAllGo
  refine foldl_kept h fun _ _ hs => ?_
  split
  · exact State.letGo_kept hs
  · exact State.letGo_kept hs
  · exact State.letGo_kept hs
  exact hs

theorem State.settleOp_kept (h : Canonical s) {gi id} : Canonical (s.settleOp gi id) := by
  unfold State.settleOp
  dsimp only
  split
  · exact h
  split
  · split
    · exact State.runLoad_kept h
    exact h
  · exact State.endOp_kept h
  · exact State.endOp_kept h
  · exact State.endOp_kept h
  · exact State.runSfu_kept h
  · exact State.runCommit_kept h
  · exact State.runAbort_kept h
  · exact State.runStoreRel_kept h
  · exact State.runAtomic_kept h
  · exact State.runAtomp_kept h
  · exact State.runMops_kept h
  · exact State.runObload_kept h
  · exact State.runMdrain_kept h
  · exact State.runKick_kept h
  · exact State.runRequest_kept h
  · exact State.runRequest_kept h
  · exact State.runRequest_kept h
  · exact State.endOp_kept h
  · exact State.endStatus_kept h
  exact h

theorem State.integLoss_kept (h : Canonical s) {gi} : Canonical (s.integLoss gi) :=
  State.modGrp_kept (foldl_kept h fun _ _ h1 => State.dropEsc_kept h1)

theorem State.haltLoss_kept (h : Canonical s) {gi} : Canonical (s.haltLoss gi) := by
  unfold State.haltLoss
  dsimp only
  split
  · exact foldl_kept h fun _ _ h1 => State.dropEsc_kept h1
  exact h

theorem State.settle_kept (h : Canonical s) {gi} : Canonical (s.settle gi).1 := by
  unfold State.settle
  extract_lets s0 owed s1 s2 s3
  have h1 : Canonical s1 := State.modGrp_kept (State.haltLoss_kept (State.modGrp_kept h))
  have h2 : Canonical s2 := foldl_kept h1 fun _ _ k => State.modGrp_kept (State.settleOp_kept k)
  exact (State.modGrp_kept h2).fst

/-! Groups, barriers and completion records -/

theorem State.poolReturn_kept (h : Canonical s) {pkg q} : Canonical (s.poolReturn pkg q) := by
  unfold State.poolReturn
  dsimp only
  refine foldl_kept h fun _ _ hs => ?_
  split
  · split
    · exact State.modGrp_kept hs
    exact hs
  exact hs

theorem State.inheritPass_kept (h : Canonical s) {n} : Canonical (s.inheritPass n) := by
  fun_induction State.inheritPass s n <;> grind [canonical_iff]

theorem State.inherit_kept (h : Canonical s) : Canonical s.inherit := by
  unfold State.inherit
  dsimp only
  refine foldl_kept (State.inheritPass_kept h.frame) fun _ _ hs => ?_
  split
  · exact State.putPhys_kept hs
  exact hs

theorem State.releaseWaiter_kept (h : Canonical s) {gi} : Canonical (s.releaseWaiter gi) := by
  unfold State.releaseWaiter
  dsimp only
  split
  · split
    · split
      · exact State.putEntry_kept (State.putPhys_kept (State.modGrp_kept h))
      exact State.modGrp_kept h
    exact State.modGrp_kept h
  · exact State.modGrp_kept h
  exact State.wake_kept h

theorem State.tryBarrier_kept (h : Canonical s) {gi c} : Canonical (s.tryBarrier gi c) := by
  unfold State.tryBarrier
  dsimp only
  split
  · exact foldl_kept h fun _ _ h1 => State.releaseWaiter_kept h1
  exact h

theorem State.tryGrid_kept (h : Canonical s) {launch id} : Canonical (s.tryGrid launch id) := by
  unfold State.tryGrid
  dsimp only
  split
  · exact h.frame
  exact h

theorem State.tryTeam_kept (h : Canonical s) {launch tidx id} : Canonical (s.tryTeam launch tidx id) := by
  unfold State.tryTeam
  dsimp only
  split
  · exact h.frame
  exact h

theorem State.arrive_kept (h : Canonical s) {gi c} : Canonical (s.arrive gi c).2 := by
  unfold State.arrive
  dsimp only
  split
  · exact (State.inherit_kept (State.tryTeam_kept (State.modGrp_kept h))).snd
  exact (State.inherit_kept (State.tryBarrier_kept (State.modGrp_kept h))).snd

theorem State.barriersAfter_kept (h : Canonical s) {gi} : Canonical (s.barriersAfter gi) := by
  unfold State.barriersAfter
  dsimp only
  grind [!State.inherit_kept, !foldl_kept, !State.tryGrid_kept, !State.tryTeam_kept, !State.tryBarrier_kept]

theorem State.signalHost_kept (h : Canonical s) {func cname ck} : Canonical (s.signalHost func cname ck).2 := by
  unfold State.signalHost
  split
  · exact h
  split
  · exact h
  grind [!State.applyHost_kept]

theorem State.completeFrom_kept (h : Canonical s) {func q tag note cname caddr status value recorded} :
    Canonical (s.completeFrom func q tag note cname caddr status value recorded) := by
  unfold State.completeFrom
  dsimp only
  split
  · split
    · split
      · exact State.signalHost_kept h
      grind [!State.fresh_kept, !State.signalHost_kept, canonical_iff]
    exact h
  grind [!State.hubPut_kept, !State.signalHost_kept, !State.fresh_kept, Put.Kept, canonical_iff]

theorem State.completeCommand_kept (h : Canonical s) {func q tag note cname caddr status value} :
    Canonical (s.completeCommand func q tag note cname caddr status value) :=
  State.completeFrom_kept h

theorem State.flushCompletions_kept (h : Canonical s) : Canonical s.flushCompletions := by
  unfold State.flushCompletions
  dsimp only
  refine foldl_kept h.frame fun _ _ hs => ?_
  split
  · exact State.completeFrom_kept hs
  exact hs

theorem State.launchEnd_kept (h : Canonical s) {l} : Canonical (s.launchEnd l) := by
  unfold State.launchEnd
  dsimp only
  split
  · exact h
  split
  · exact h
  split
  · exact State.completeCommand_kept h.frame
  exact h.frame

theorem State.finishMoves_kept (h : Canonical s) : Canonical s.finishMoves := by
  unfold State.finishMoves
  dsimp only
  refine foldl_kept h.frame fun _ _ hs => ?_
  exact State.completeCommand_kept hs

theorem State.endGroup_kept (h : Canonical s) {gi code} : Canonical (s.endGroup gi code) := by
  unfold State.endGroup
  extract_lets g s1 hub s2 s3 s4
  have h1 : Canonical s1 := State.nameDeath_kept (State.letAllGo_kept h)
  have h3 : Canonical s3 := State.modGrp_kept h1.frame
  exact State.finishMoves_kept (State.launchEnd_kept (State.barriersAfter_kept (ite_kept (State.poolReturn_kept h3) h3)))

theorem State.killGroup_kept (h : Canonical s) {gi code} : Canonical (s.killGroup gi code) := by
  unfold State.killGroup
  dsimp only
  split
  · exact h
  refine ite_kept ?_ ?_
  · grind [!State.modGrp_kept, !State.settle_kept]
  grind [!State.endGroup_kept, !foldl_kept, !State.dropEsc_kept, !State.settle_kept]

theorem State.kill_kept (h : Canonical s) {gi code} : Canonical (s.kill gi code) := by
  unfold State.kill
  dsimp only
  split
  · exact State.modGrp_kept h
  exact State.killGroup_kept h

theorem State.groupFault_kept (h : Canonical s) {gi cause second reason faddr} : Canonical (s.groupFault gi cause second reason faddr) := by
  unfold State.groupFault
  dsimp only
  exact State.killGroup_kept (State.raiseLog_kept h)

theorem State.runDeath_kept (h : Canonical s) {gi sel} : Canonical (s.runDeath gi sel) := by
  unfold State.runDeath
  dsimp only
  split
  · split
    · exact State.killGroup_kept h
    exact h
  split
  · exact h
  split
  · exact State.groupFault_kept h
  refine ite_kept ?_ ?_
  · exact State.moveEscrow_kept (ite_kept (State.modGrp_kept (State.integLoss_kept h)) h)
  exact State.endGroup_kept (State.moveEscrow_kept (ite_kept (State.modGrp_kept (State.integLoss_kept h)) h))

/-! Saving and installing groups -/

theorem State.saveEngines_kept (h : Canonical s) {f} : Canonical (s.saveEngines f) := by
  unfold State.saveEngines
  dsimp only
  split
  · exact h
  split
  · exact h.frame
  split
  · exact h
  exact State.raiseLog_kept h.frame

theorem State.dropContext_kept (h : Canonical s) {f} : Canonical (s.dropContext f) := ⟨h.mem, h.tile, h.opbuf, h.regs⟩

theorem State.landReturned_kept (h : Canonical s) {gi} : Canonical (s.landReturned gi) := by
  unfold State.landReturned
  dsimp only
  refine foldl_kept h fun _ _ hs => ?_
  split
  · split
    · exact hs
    exact State.landLoad_kept hs
  exact hs

theorem State.entrySaved_kept (h : Canonical s) {func name moving wp image} : Canonical (s.entrySaved func name moving wp image) := by
  unfold State.entrySaved
  dsimp only
  split
  · exact h
  split <;> exact State.devWriteBytes_kept h

theorem State.saveGroup_kept (h : Canonical s) {gi forced moving} : (s.saveGroup gi forced moving).Kept := by
  unfold State.saveGroup
  extract_lets r s1 s2 g bytes refused wp seals
  have hr : Canonical r.1 := State.settle_kept h
  have h1 : Canonical s1 := State.landReturned_kept hr
  have h2 : Canonical s2 := ite_kept (State.modGrp_kept h1) h1
  split
  · exact .wait (ite_kept (State.modGrp_kept hr) hr)
  split
  · split
    · exact .noRoom h
    exact .noRoom (State.raiseLog_kept (State.modGrp_kept hr))
  extract_lets s3 hub s4 s5
  have h3 : Canonical s3 := State.devWriteBytes_kept h2
  have h4 : Canonical s4 := h3.frame
  exact .done (State.poolReturn_kept (State.entrySaved_kept (State.setGrp_kept h4)))

theorem State.findAt_kept (h : Canonical s) {gi va access} : Canonical (s.findAt gi va access).2 := by
  unfold State.findAt
  dsimp only
  split
  · exact h
  grind [!State.hubTr_kept, !State.raiseXfault_kept]

theorem State.imEscrow_kept (h : Canonical s) {gi a pins os es bad} : Canonical (s.imEscrow gi a pins os es bad).2 := by
  fun_induction State.imEscrow s gi a pins os es bad <;> grind [!State.findAt_kept]

theorem State.imPieces_kept (h : Canonical s) {gi l ps bad} : Canonical (s.imPieces gi l ps bad).2 := by
  fun_induction State.imPieces s gi l ps bad <;> grind [!State.findAt_kept]

theorem State.reissue_kept (h : Canonical s) {gi kept l} : Canonical (s.reissue gi kept l) := by
  unfold State.reissue
  dsimp only
  split
  · exact h
  grind [!State.fresh_kept, !State.modGrp_kept]

theorem State.loadRanges_kept (h : Canonical s) {func a pkg q rs off} : Canonical (s.loadRanges func a pkg q rs off) := by
  fun_induction State.loadRanges s func a pkg q rs off <;> grind [!State.tagBuf_kept, !Canonical.withOpbuf, !Memory.write_wf, !Canonical.opbuf]

theorem State.recheck_kept (h : Canonical s) {gi} : Canonical (s.recheck gi) := by
  unfold State.recheck
  dsimp only
  split
  · exact h
  · exact h
  · split
    · exact State.wake_kept h
    exact State.modGrp_kept h
  · split
    · exact State.wake_kept h
    exact State.modGrp_kept h
  · split
    · exact State.wake_kept h
    exact State.modGrp_kept h
  exact State.modGrp_kept h

theorem State.placeEscrow_kept (h : Canonical s) {gi es} : Canonical (s.placeEscrow gi es) := by
  unfold State.placeEscrow
  exact foldl_kept h fun _ _ h1 => h1.frame

theorem State.install_kept (h : Canonical s) {gi pkg q slot} : (s.install gi pkg q slot).Kept := by
  unfold State.install
  extract_lets g a recs0 n mon fm
  have hf : Canonical fm.2 := ite_snd_kept (State.findAt_kept h) h
  clear_value fm mon n recs0
  split
  · exact .bad h
  obtain ⟨_, esc, rng, ops, _⟩ := s.imParts a
  dsimp -zeta only
  cases placeRecords (s.usedLines pkg q) recs0 with
  | none => exact .hold h
  | some recs =>
  dsimp -zeta only
  generalize State.escRoom _ gi = room
  split
  · exact .hold h
  split
  · exact .hold hf
  have he : ∀ {ps os es bad}, Canonical (fm.2.imEscrow gi a ps os es bad).2 := State.imEscrow_kept hf
  split
  next e => exact .hold (he.ofPair e)
  next es bad1 s1 e =>
  have h1 : Canonical s1 := he.ofPair e
  extract_lets pk
  have hp : ∀ {l ps bad}, Canonical (s1.imPieces gi l ps bad).2 := State.imPieces_kept h1
  split
  next e => exact .hold (hp.ofPair e)
  next ps bad2 s2 e =>
  have h2 : Canonical s2 := hp.ofPair e
  extract_lets c0 cond lw watch sp ws g s3 s4 s5 s6 s7 hub s8
  have h3 : Canonical s3 := State.loadRanges_kept (State.setGrp_kept h2)
  have h5 : Canonical s5 := foldl_kept (State.placeEscrow_kept h3) (fun s va h => State.modGrp_kept h)
  have h6 : Canonical s6 := foldl_kept h5 (fun s l h => State.reissue_kept h)
  have h7 : Canonical s7 := by
    unfold s7
    split
    · exact h6
    exact State.devWriteBytes_kept h6
  have h8 : Canonical s8 := h7.frame
  exact .done (State.poolReturn_kept (State.recheck_kept h8))

/-! Traps, checks and the issue of a word -/

theorem State.pageMap_kept (h : Canonical s) {gi access ps acc} : Canonical (s.pageMap gi access ps acc).2.2 := by
  fun_induction State.pageMap s gi access ps acc <;> grind [!State.translate_kept]

theorem State.putFrames_kept (h : Canonical s) {gi words m} : Canonical (s.putFrames gi words m) := ⟨h.mem, h.tile, h.opbuf, h.regs⟩

theorem State.integDiscard_kept (h : Canonical s) {gi} : Canonical (s.integDiscard gi) := State.modGrp_kept (State.integLoss_kept h)

theorem State.trapEntry_kept (h : Canonical s) {gi cause code faddr r} : (s.trapEntry gi cause code faddr r).Kept := by
  unfold State.trapEntry
  dsimp only
  split
  · exact .done (State.groupFault_kept (State.setGrp_kept h))
  split
  · exact .done (State.groupFault_kept (State.setGrp_kept h))
  split
  · exact .done (State.groupFault_kept (State.setGrp_kept h))
  grind [!State.pageMap_kept, !State.modGrp_kept, !State.integDiscard_kept, !State.putFrames_kept, !State.groupFault_kept, Try.Kept]

theorem Ctx.trap_kept (h : Canonical s) {cause} : (c.trap s cause).Kept := .trap h

theorem Res.at_kept (h : Canonical s) {cause addr} : (Res.at_ s cause addr).Kept := .trap h

theorem Res.page_kept (h : Canonical s) {addr access} : (Res.page s addr access).Kept := .trap h

theorem State.sampleGuard_kept (h : Canonical s) {gi f u beside} : Canonical (s.sampleGuard gi f u beside).2.2 := by
  unfold State.sampleGuard
  dsimp only
  split
  · exact h
  split
  · exact (State.readVec_kept h).snd2
  split
  · exact (State.readScalars_kept h).snd2
  split
  · exact h
  split <;> exact h

theorem State.sample_kept (h : Canonical s) {gi c u} : Canonical (s.sample gi c u).2 := by
  unfold State.sample
  dsimp only
  split
  · exact h
  exact (State.sampleGuard_kept (State.sampleGuard_kept h)).snd

theorem State.moveCur_kept (h : Canonical s) {pkg} : Canonical (s.moveCur pkg) := ⟨h.mem, h.tile, h.opbuf, h.regs⟩

theorem State.takeSlot_kept (h : Canonical s) {pkg q gi t} : Canonical (s.takeSlot pkg q gi t) := State.modQuarter_kept h

theorem State.held_kept (h : Canonical s) {gi k t} : Canonical (s.held gi k t) := State.moveCur_kept (State.modGrp_kept h)

theorem State.takeTrap_kept (h : Canonical s) {gi cause code faddr r} : (s.takeTrap gi cause code faddr r).Kept := by
  unfold State.takeTrap
  split
  · grind [!State.trapEntry_kept, !State.pageRecord_kept, Try.Kept]
  exact State.trapEntry_kept h

theorem State.owe_kept (h : Canonical s) {c cause code faddr} : Canonical (s.owe c cause code faddr) := State.modGrp_kept h

theorem State.enterTrap_kept (h : Canonical s) {c cause code faddr} : Canonical (s.enterTrap c cause code faddr) := by
  unfold State.enterTrap
  dsimp only
  grind [!State.takeTrap_kept, !State.modGrp_kept, !State.moveCur_kept, !State.takeSlot_kept, !State.held_kept, !State.owe_kept, Try.Kept]

theorem State.trapWord_kept (h : Canonical s) {cause code faddr} : Canonical (s.trapWord c cause code faddr) := by
  unfold State.trapWord
  dsimp only
  split
  · exact State.held_kept h
  split
  · exact (State.owe_kept h (c := c) (cause := cause) (code := code) (faddr := faddr)).frame
  exact State.enterTrap_kept h

theorem State.waiting_kept (h : Canonical s) {c} : Canonical (s.waiting c) := by
  unfold State.waiting
  dsimp only
  exact State.held_kept (State.modGrp_kept h)

theorem Ctx.close_kept {r : Res} (h : r.Kept) : Canonical (c.close r) := by
  cases r with
  | done s => exact State.moveCur_kept (State.takeSlot_kept (State.modGrp_kept h))
  | hold s => exact State.held_kept h
  | wait s => exact State.waiting_kept h
  | trap s cause code faddr => exact State.trapWord_kept h

theorem State.enterWord_kept (h : Canonical s) {gi k c0} : Canonical (s.enterWord gi k c0).2.2 := by
  unfold State.enterWord
  dsimp only
  exact State.modGrp_kept (State.sample_kept (State.modGrp_kept (State.advance_kept h)))

theorem wordRes_kept {i : Instr} {body : Ctx → State → Res} (hb : ∀ c s, Canonical s → (body c s).Kept) {gi k : Nat}
    {r : Nat × Clause × State} (h : Canonical r.2.2) : (wordRes i body gi k r).2.Kept := by
  unfold wordRes
  grind [!Ctx.trap_kept, Res.Kept]

theorem issueWord_kept {i : Instr} {body : Ctx → State → Res} (hb : ∀ c s, Canonical s → (body c s).Kept) (h : Canonical s) :
    NextKept (issueWord i body s) := by
  unfold issueWord
  split
  · trivial
  split
  · trivial
  exact Ctx.close_kept (wordRes_kept hb (State.enterWord_kept h))

theorem Ctx.vec_kept (h : Canonical s) {r} : Canonical (c.vec s r).2.2 := State.readLanes_kept h

theorem Ctx.uni_kept (h : Canonical s) {r} : Canonical (c.uni s r).2 := State.readU_kept h

theorem Ctx.putV_kept (h : Canonical s) {d vals tag} : Canonical (c.putV s d vals tag) := State.fixedV_kept h

theorem Ctx.putS_kept (h : Canonical s) {d x} : Canonical (c.putS s d x) := State.fixedS_kept h

theorem Ctx.flags_kept (h : Canonical s) {f} : Canonical (c.flags s f) := by
  unfold Ctx.flags
  split
  · exact h
  exact State.modGrp_kept h

theorem Ctx.putLanes_kept (h : Canonical s) {d rs tag} : (c.putLanes s d rs tag).Kept := .done (Ctx.flags_kept (Ctx.putV_kept h))

theorem Ctx.lane1T_kept (h : Canonical s) {d a tag f} : (c.lane1T s d a tag f).Kept := by
  unfold Ctx.lane1T
  dsimp only
  exact Ctx.putLanes_kept (Ctx.vec_kept h)

theorem Ctx.lane2T_kept (h : Canonical s) {d a b tag f} : (c.lane2T s d a b tag f).Kept := by
  unfold Ctx.lane2T
  dsimp only
  exact Ctx.putLanes_kept (Ctx.vec_kept (Ctx.vec_kept h))

theorem Ctx.lane3T_kept (h : Canonical s) {d a b e tag f} : (c.lane3T s d a b e tag f).Kept := by
  unfold Ctx.lane3T
  dsimp only
  exact Ctx.putLanes_kept (Ctx.vec_kept (Ctx.vec_kept (Ctx.vec_kept h)))

theorem Ctx.lane1_kept (h : Canonical s) {d a f} : (c.lane1 s d a f).Kept := Ctx.lane1T_kept h

theorem Ctx.lane2_kept (h : Canonical s) {d a b f} : (c.lane2 s d a b f).Kept := Ctx.lane2T_kept h

theorem Ctx.lane3_kept (h : Canonical s) {d a b e f} : (c.lane3 s d a b e f).Kept := Ctx.lane3T_kept h

theorem Ctx.array_kept (h : Canonical s) {r : Res} (k : r.Kept) : (c.array s r).Kept := by
  unfold Ctx.array
  dsimp only
  split
  · exact k
  exact h

theorem Ctx.scal1_kept (h : Canonical s) {d a f} : (c.scal1 s d a f).Kept := by
  unfold Ctx.scal1
  dsimp only
  exact .done (Ctx.flags_kept (Ctx.putS_kept (Ctx.uni_kept h)))

theorem Ctx.scal2_kept (h : Canonical s) {d a b f} : (c.scal2 s d a b f).Kept := by
  unfold Ctx.scal2
  dsimp only
  exact .done (Ctx.flags_kept (Ctx.putS_kept (Ctx.uni_kept (Ctx.uni_kept h))))

theorem Ctx.scal3_kept (h : Canonical s) {d a b e f} : (c.scal3 s d a b e f).Kept := by
  unfold Ctx.scal3
  dsimp only
  exact .done (Ctx.flags_kept (Ctx.putS_kept (Ctx.uni_kept (Ctx.uni_kept (Ctx.uni_kept h)))))

theorem Ctx.issueOpTo_kept (h : Canonical s) {dest span lanes kind} : Canonical (c.issueOpTo s dest span lanes kind).2 := by
  unfold Ctx.issueOpTo
  grind [!State.fresh_kept, !State.modGrp_kept]

theorem Ctx.issueOp_kept (h : Canonical s) {dest span kind} : Canonical (c.issueOp s dest span kind).2 := Ctx.issueOpTo_kept h

theorem Ctx.leave_kept (h : Canonical s) : OptionResKept (c.leave s) := by
  unfold Ctx.leave
  dsimp only
  split
  · exact .some (.trap h)
  split
  · exact trivial
  exact .some (.hold h)

/-! Fetch and selection -/

theorem State.codeWord_kept (h : Canonical s) {gi pa} : Canonical (s.codeWord gi pa).2 := by
  unfold State.codeWord
  dsimp only
  split
  · exact h
  grind [!State.drawN_kept]

theorem State.fetch_kept (h : Canonical s) {gi va} : (s.fetch gi va).Kept := by
  unfold State.fetch
  dsimp only
  split
  · exact .trap h
  grind [!State.translate_kept, !State.codeWord_kept, Fetch.Kept]

theorem State.peek_kept (h : Canonical s) {gi rs} : Canonical (s.peek gi rs).2 := by
  fun_induction State.peek s gi rs <;> grind [!State.fetch_kept, Fetch.Kept]

theorem State.chosen_kept (h : Canonical s) {gi x second progress} : Canonical (s.chosen gi x second progress).2 := by
  unfold State.chosen
  grind [!State.fetch_kept, Fetch.Kept]

theorem State.choose_kept (h : Canonical s) {gi} : Canonical (s.choose gi).2 := by
  unfold State.choose
  dsimp only
  grind [!State.peek_kept, !State.chosen_kept]

theorem State.toIssue_kept (h : Canonical s) {gi c} : Canonical (s.toIssue gi c) := State.advance_kept h

theorem State.fetchTrap_kept (h : Canonical s) {gi k c cause} : Canonical (s.fetchTrap gi k c cause) := by
  unfold State.fetchTrap
  dsimp only
  exact State.trapWord_kept (ite_kept (State.integRecord_kept (State.toIssue_kept h)) (State.toIssue_kept h))

theorem State.fetchHeld_kept (h : Canonical s) {gi k c} : Canonical (s.fetchHeld gi k c) := State.held_kept (State.toIssue_kept h)

theorem State.retryTrap_kept (h : Canonical s) {gi k c x} : Canonical (s.retryTrap gi k c x) := State.trapWord_kept (State.toIssue_kept h)

/-! Launches -/

theorem State.readRecord_kept (h : Canonical s) {func addr} : (s.readRecord func addr).Kept := by
  unfold State.readRecord
  grind [!State.hubTr_kept, RecordRead.Kept]

theorem State.takeName_kept (h : Canonical s) {func w loc} : PairKept (s.takeName func w loc) := by
  unfold State.takeName
  split
  · trivial
  exact .some (State.putEntry_kept (State.putEntry_kept (State.putEntry_kept h)))

theorem State.takeArea_kept (h : Canonical s) {func n gi} : PairKept (s.takeArea func n gi) := by
  unfold State.takeArea
  split
  · exact .some h
  split
  · exact trivial
  exact .some h.frame

theorem State.placeGroup_kept (h : Canonical s) {l x t pos pkg tsoff gidx} : OptionKept (s.placeGroup l x t pos pkg tsoff gidx) := by
  unfold State.placeGroup
  dsimp only
  split
  · trivial
  split
  · trivial
  grind [!State.takeName_kept, !State.takeArea_kept, OptionKept, PairKept, canonical_iff]

theorem State.placeGroups_kept (h : Canonical s) {l x t pos pkg tsoff gs} : OptionKept (s.placeGroups l x t pos pkg tsoff gs) := by
  fun_induction State.placeGroups s l x t pos pkg tsoff gs <;> grind [!State.placeGroup_kept, OptionKept]

theorem State.placeTeam_kept (h : Canonical s) {l x t pos pkg} : OptionKept (s.placeTeam l x t pos pkg) := by
  unfold State.placeTeam
  dsimp only
  split
  · exact trivial
  exact State.placeGroups_kept (foldl_kept h fun _ _ h1 => h1.frame)

theorem State.placeCluster_kept (h : Canonical s) {l x t cs pos} : OptionKept (s.placeCluster l x t cs pos) := by
  fun_induction State.placeCluster s l x t cs pos <;> grind [!State.placeTeam_kept, OptionKept]

theorem State.placeAll_kept (h : Canonical s) {l x t k n} : OptionKept (s.placeAll l x t k n) := by
  fun_induction State.placeAll s l x t k n <;> grind [!State.placeCluster_kept, OptionKept]

theorem State.placeLaunch_kept (h : Canonical s) {l} : OptionKept (s.placeLaunch l) := by
  unfold State.placeLaunch
  dsimp only
  split
  · exact trivial
  split
  · exact trivial
  split
  · exact trivial
  grind [!State.placeAll_kept, !foldl_kept, !State.acquire_kept, OptionKept, canonical_iff]

theorem State.dropLaunch_kept (h : Canonical s) {l} : Canonical (s.dropLaunch l) := ⟨h.mem, h.tile, h.opbuf, h.regs⟩

theorem State.refuseLaunch_kept (h : Canonical s) {l st} : Canonical (s.refuseLaunch l st) := by
  unfold State.refuseLaunch
  split
  · exact h
  split
  · exact State.endStatus_kept (State.dropLaunch_kept h)
  exact State.completeCommand_kept (State.dropLaunch_kept h)

theorem State.admitLaunch_kept (h : Canonical s) {l} : Canonical (s.admitLaunch l) := by
  unfold State.admitLaunch
  split
  · exact h
  split
  · exact State.refuseLaunch_kept h
  split
  · exact State.refuseLaunch_kept h
  grind [!State.placeLaunch_kept, !State.endStatus_kept, OptionKept]

theorem State.readLaunch_kept (h : Canonical s) {l} : Canonical (s.readLaunch l) := by
  unfold State.readLaunch
  split
  · exact h
  split
  · exact h
  grind [!State.readRecord_kept, !State.refuseLaunch_kept, !State.admitLaunch_kept, RecordRead.Kept, canonical_iff]

theorem execLaunchPlacement_kept (h : Canonical s) {l} : NextKept (execLaunchPlacement l s) := by
  unfold execLaunchPlacement
  split
  · exact .next h
  split
  · exact .next h
  split
  · exact .next (State.readLaunch_kept h)
  grind [!State.placeLaunch_kept, !State.endStatus_kept, NextKept, OptionKept, canonical_iff]

end Sys2Proof.Machine
end

section
/-! SUPPORT. Instruction words and events keep the memories and the registers canonical: one lemma each, in the order of the model; words that
are one shared operation stand in `exec_kept` below. -/

namespace Sys2Proof.Machine

set_option Elab.async false
variable {s : State} {c : Ctx}

/-! Events: completions -/

theorem execLoadComplete_kept (h : Canonical s) {g op mask near} : NextKept (execLoadComplete g op mask near s) := .next (State.runLoad_kept h)

theorem execStoreComplete_kept (h : Canonical s) {g op} : NextKept (execStoreComplete g op s) := by
  unfold execStoreComplete
  split
  · split
    · exact .next (State.endOp_kept h)
    · exact .next (State.endOp_kept h)
    exact .next h
  exact .next h

theorem execCommitComplete_kept (h : Canonical s) {g op sel} : NextKept (execCommitComplete g op sel s) := .next (State.runCommit_kept h)

theorem execAbortComplete_kept (h : Canonical s) {g op} : NextKept (execAbortComplete g op s) := .next (State.runAbort_kept h)

theorem execReleasePerform_kept (h : Canonical s) {g op sel} : NextKept (execReleasePerform g op sel s) := by
  unfold execReleasePerform
  dsimp only
  split
  · exact .next h
  split
  · exact .next (State.runStoreRel_kept h)
  · exact .next (State.atomRelease_kept h)
  · exact .next (State.atomRelease_kept h)
  · exact .next (State.runKick_kept h)
  · exact .next (State.runRequest_kept h)
  · exact .next (State.runRequest_kept h)
  · split
    · exact .next (State.readLaunch_kept (State.runRequest_kept h))
    exact .next (State.runRequest_kept h)
  exact .next h

theorem execAtomicPerformed_kept (h : Canonical s) {g op order} : NextKept (execAtomicPerformed g op order s) := .next (State.runAtomic_kept h)

theorem execVaultRoutineRun_kept (h : Canonical s) {g op lane} : NextKept (execVaultRoutineRun g op lane s) := .next (State.runAtomp_kept h)

theorem execSfuComplete_kept (h : Canonical s) {g op} : NextKept (execSfuComplete g op s) := by
  unfold execSfuComplete
  dsimp only
  split
  · exact .next (State.runSfu_kept h)
  exact .next h

theorem execMopComplete_kept (h : Canonical s) {core qtr} : NextKept (execMopComplete core qtr s) := .next (State.runMop_kept h)

theorem execMultiplyArrayIssue_kept (h : Canonical s) {g} : NextKept (execMultiplyArrayIssue g s) := by
  unfold execMultiplyArrayIssue
  dsimp only
  split
  · exact .next h
  split
  · exact .next h
  split
  · exact .next h
  grind [!State.fetch_kept, NextKept, Fetch.Kept, canonical_iff]

theorem execObresComplete_kept (h : Canonical s) {g op} : NextKept (execObresComplete g op s) := by
  unfold execObresComplete
  split
  · split
    · exact .next (State.endStatus_kept h)
    exact .next h
  exact .next h

theorem execObloadComplete_kept (h : Canonical s) {g op} : NextKept (execObloadComplete g op s) := .next (State.runObload_kept h)

theorem execMdrainReadComplete_kept (h : Canonical s) {g op} : NextKept (execMdrainReadComplete g op s) := .next (State.runMdrain_kept h)

theorem execIntegrityCheckPass_kept (h : Canonical s) {g k} : NextKept (execIntegrityCheckPass g k s) := .next (State.modGrp_kept h)

theorem execIntegrityCheckFail_kept (h : Canonical s) {g k} : NextKept (execIntegrityCheckFail g k s) := by
  unfold execIntegrityCheckFail
  split
  · exact .next (State.integRecord_kept (State.modGrp_kept h))
  exact .next h

theorem execPrefetchComplete_kept (h : Canonical s) {g op} : NextKept (execPrefetchComplete g op s) := by
  unfold execPrefetchComplete
  dsimp only
  split
  · split
    · grind [!State.endOp_kept, !foldl_kept, !State.fillNear_kept, NextKept]
    exact .next h
  exact .next h

/-! Copies and request lists -/

theorem State.clearPresence_kept (h : Canonical s) {p len} : Canonical (s.clearPresence p len) := by
  unfold State.clearPresence
  dsimp only
  split
  · exact h
  exact h.frame

theorem State.pushEntry_kept (h : Canonical s) {q e} : Canonical (s.pushEntry q e) := State.modCore_kept h

theorem State.placeCopy_kept (h : Canonical s) {q e ds dst len} : Canonical (s.placeCopy q e ds dst len) := by
  unfold State.placeCopy
  dsimp only
  exact State.pushEntry_kept (ite_kept (State.clearPresence_kept h) h)

/-! Events: engines -/

theorem State.modQueue_kept (h : Canonical s) {core q f} : Canonical (s.modQueue core q f) := State.modCore_kept h

theorem State.setHead_kept (h : Canonical s) {core q e} : Canonical (s.setHead core q e) := State.modQueue_kept h

theorem State.reach_kept (h : Canonical s) {q e space addr access} : (s.reach q e space addr access).Kept := by
  unfold State.reach
  dsimp only
  split
  · split
    · exact .at_ h
    exact .fail h
  grind [!State.hubTr_kept, !State.servedPage_kept, !State.raiseXfault_kept, Reach.Kept]

theorem State.readShape_kept (h : Canonical s) {q e addr} : ReachKept (s.readShape q e addr) := by
  unfold State.readShape
  grind [!State.hubTr_kept, !State.raiseXfault_kept, ReachKept, Reach.Kept]

theorem State.drainTodo_kept (h : Canonical s) {e w target add row0 col0} : PairKept (s.drainTodo e w target add row0 col0) := by
  unfold State.drainTodo
  dsimp only
  split
  · exact trivial
  split
  · exact trivial
  split
  · exact trivial
  split
  · grind [!State.drawWords_kept, PairKept]
  exact .some h

theorem State.clearLines_kept (h : Canonical s) {ts} : Canonical (s.clearLines ts) := ⟨h.mem, h.tile, h.opbuf, h.regs⟩

theorem State.begin_kept (h : Canonical s) {core q e ts clear} : Canonical (s.begin_ core q e ts clear) := by
  unfold State.begin_
  dsimp only
  exact State.setHead_kept (ite_kept (State.clearLines_kept h) h)

theorem State.beginEmpty_kept (h : Canonical s) {core q e ss ds src dst} : Canonical (s.beginEmpty core q e ss ds src dst) := by
  unfold State.beginEmpty
  grind [!State.reach_kept, !State.setHead_kept, !State.begin_kept, Reach.Kept]

theorem execEngineEntryStart_kept (h : Canonical s) {core queue} : NextKept (execEngineEntryStart core queue s) := by
  unfold execEngineEntryStart
  dsimp only
  split
  · exact .next h
  split
  · exact .next h
  split
  · exact .next h
  · split
    · exact .next (State.beginEmpty_kept h)
    exact .next (State.begin_kept h)
  · grind [!State.readShape_kept, !State.setHead_kept, !State.begin_kept, NextKept, ReachKept, Reach.Kept]
  grind [!State.readShape_kept, !State.setHead_kept, !State.drainTodo_kept, !State.begin_kept, NextKept, ReachKept, Reach.Kept, PairKept]

theorem State.sources_kept (h : Canonical s) {q e l m} : ReachKept (s.sources q e l m) := by
  fun_induction State.sources s q e l m <;> grind [!State.reach_kept, ReachKept, Reach.Kept]

theorem State.copyData_kept (h : Canonical s) {func t m} : Canonical (s.copyData func t m).2 := by
  unfold State.copyData
  grind [!State.drawN_kept]

theorem State.tillAdd_kept (h : Canonical s) {till n} : Canonical (s.tillAdd till n) := by
  unfold State.tillAdd
  split
  · exact h
  exact State.devWriteBytes_kept h

theorem State.lineDone_kept (h : Canonical s) {space p till n} : Canonical (s.lineDone space p till n) := by
  unfold State.lineDone
  dsimp only
  grind [!State.tillAdd_kept, !State.evalTills_kept, canonical_iff]

theorem State.entryWrite_kept (h : Canonical s) {e space va p d} : Canonical (s.entryWrite e space va p d) := by
  unfold State.entryWrite
  dsimp only
  exact State.stampEgress_kept (State.devWrite_kept (State.rekey_kept h))

theorem State.writeSector_kept (h : Canonical s) {core q e t rest p d wasBad} : Canonical (s.writeSector core q e t rest p d wasBad) := by
  unfold State.writeSector
  dsimp only
  split
  · exact State.setHead_kept (State.entryWrite_kept h)
  exact State.setHead_kept (State.lineDone_kept (ite_kept (State.unpoison_kept (State.entryWrite_kept h)) (State.entryWrite_kept h)))

theorem State.arriveSector_kept (h : Canonical s) {core q e t rest} : Canonical (s.arriveSector core q e t rest) := by
  unfold State.arriveSector
  dsimp only
  grind [!State.sources_kept, !State.setHead_kept, !State.reach_kept, !foldl_kept, !State.writeSector_kept, !State.copyData_kept, ReachKept,
    Reach.Kept]

theorem execEngineLineArrival_kept (h : Canonical s) {core queue} : NextKept (execEngineLineArrival core queue s) := by
  unfold execEngineLineArrival
  split
  · exact .next h
  split
  · exact .next h
  split
  · exact .next h
  exact .next (State.arriveSector_kept h)

theorem State.poisonRest_kept (h : Canonical s) {ts} : Canonical (s.poisonRest ts) := ⟨h.mem, h.tile, h.opbuf, h.regs⟩

theorem State.engineEvent_kept (h : Canonical s) {func kind status addr name} : Canonical (s.engineEvent func kind status addr name) :=
  State.raiseLog_kept h

theorem State.completionWord_kept (h : Canonical s) {cpl tag status} : Canonical (s.completionWord cpl tag status) := by
  unfold State.completionWord
  split
  · exact h
  exact State.devWriteBytes_kept h

theorem State.endCopy_kept (h : Canonical s) {c status performed} : Canonical (s.endCopy c status performed) := by
  unfold State.endCopy
  dsimp only
  exact State.completeCommand_kept h.frame

theorem State.copyRecordDone_kept (h : Canonical s) {id status} : Canonical (s.copyRecordDone id status) := by
  unfold State.copyRecordDone
  split
  · exact h
  split
  · exact State.endCopy_kept h
  exact h.frame

theorem State.endEntry_kept (h : Canonical s) {core q e} : Canonical (s.endEntry core q e) := by
  unfold State.endEntry
  dsimp only
  split
  · exact State.endStatus_kept (State.modQueue_kept (ite_kept h (State.engineEvent_kept (State.poisonRest_kept h))))
  · exact State.completionWord_kept (State.modQueue_kept (ite_kept h (State.engineEvent_kept (State.poisonRest_kept h))))
  · exact State.modQueue_kept (ite_kept h (State.engineEvent_kept (State.poisonRest_kept h)))
  exact State.copyRecordDone_kept (State.completionWord_kept (State.modQueue_kept (ite_kept h (State.engineEvent_kept (State.poisonRest_kept h)))))

theorem execEngineEntryComplete_kept (h : Canonical s) {core queue} : NextKept (execEngineEntryComplete core queue s) := by
  unfold execEngineEntryComplete
  split
  · exact .next h
  split
  · exact .next (State.endEntry_kept h)
  exact .next h

theorem execFenceComplete_kept (h : Canonical s) {core queue} : NextKept (execFenceComplete core queue s) := by
  unfold execFenceComplete
  dsimp only
  split
  · exact .next h
  split
  · split
    · split
      · exact .next (State.completionWord_kept (foldl_kept h fun _ _ h1 => State.modQueue_kept h1))
      exact .next (foldl_kept h fun _ _ h1 => State.modQueue_kept h1)
    exact .next h
  exact .next h

theorem execPresenceClearAck_kept (h : Canonical s) {core queue} : NextKept (execPresenceClearAck core queue s) := by
  unfold execPresenceClearAck
  dsimp only
  split
  · exact .next h
  grind [!State.modQueue_kept, !State.clearPresence_kept, NextKept]

theorem State.modList_kept (h : Canonical s) {core f} : Canonical (s.modList core f) := State.modCore_kept h

theorem State.dropList_kept (h : Canonical s) {core} : Canonical (s.dropList core) := State.modList_kept h

theorem State.nextRecord_kept (h : Canonical s) {core off l ahead} : Canonical (s.nextRecord core off l ahead) := by
  unfold State.nextRecord
  split
  · exact State.dropList_kept h
  exact State.modList_kept h

theorem State.placeRecord_kept (h : Canonical s) {core off l ahead w} : Canonical (s.placeRecord core off l ahead w) := by
  unfold State.placeRecord
  dsimp only
  grind [!State.fresh_kept, !State.dropList_kept, !State.nextRecord_kept, !State.engineEvent_kept, !State.completionWord_kept, !foldl_kept,
    !State.pushEntry_kept, !State.placeCopy_kept]

theorem State.takeRecord_kept (h : Canonical s) {core} : Canonical (s.takeRecord core) := by
  unfold State.takeRecord
  dsimp only
  split
  · exact h
  split
  · exact State.engineEvent_kept (State.dropList_kept h)
  split
  · exact State.engineEvent_kept (State.dropList_kept h)
  exact State.placeRecord_kept h

theorem execRequestListTaken_kept (h : Canonical s) {core} : NextKept (execRequestListTaken core s) := by
  unfold execRequestListTaken
  dsimp only
  split
  · exact .next (foldl_kept h fun _ _ h1 => State.runKick_kept h1)
  exact .next (State.takeRecord_kept (foldl_kept h fun _ _ h1 => State.runKick_kept h1))

/-! Words: names -/

theorem State.lookName_kept (h : Canonical s) {pkg func sclass name op again} : Canonical (s.lookName pkg func sclass name op again).2 := by
  unfold State.lookName
  dsimp only
  grind [!State.modCore_kept]

theorem State.denial_kept (h : Canonical s) {sender target op sclass func id} : Canonical (s.denial sender target op sclass func id) :=
  State.raiseLog_kept h

theorem Ctx.nameRequest_kept (h : Canonical s) {d name op rel} : Canonical (c.nameRequest s d name op rel) := by
  unfold Ctx.nameRequest
  grind [!Ctx.issueOp_kept, !State.lookName_kept, !State.denial_kept, !State.sealEscrow_kept, canonical_iff]

theorem Ctx.before_kept (h : Canonical s) : OptionResKept (c.before s) := by
  unfold Ctx.before
  split
  · exact .some (.hold h)
  exact Ctx.leave_kept h

theorem execSignal_kept (h : Canonical s) {o} : NextKept (execSignal o s) := by
  unfold execSignal
  dsimp only
  refine issueWord_kept (fun c s hs => ?_) h
  grind [!Ctx.before_kept, !Ctx.nameRequest_kept, !Ctx.uni_kept, Res.Kept, OptionResKept]

theorem execWake_kept (h : Canonical s) {o} : NextKept (execWake o s) := by
  unfold execWake
  dsimp only
  refine issueWord_kept (fun c s hs => ?_) h
  grind [!Ctx.before_kept, !Ctx.nameRequest_kept, !Ctx.uni_kept, Res.Kept, OptionResKept]

theorem execDeposit_kept (h : Canonical s) {o} : NextKept (execDeposit o s) := by
  unfold execDeposit
  dsimp only
  refine issueWord_kept (fun c s hs => ?_) h
  grind [!Ctx.before_kept, !Ctx.nameRequest_kept, !Ctx.uni_kept, Res.Kept, OptionResKept]

theorem execJoin_kept (h : Canonical s) {o} : NextKept (execJoin o s) := by
  unfold execJoin
  dsimp only
  refine issueWord_kept (fun c s hs => ?_) h
  grind [!Ctx.before_kept, !Ctx.nameRequest_kept, !Ctx.uni_kept, Res.Kept, OptionResKept]

theorem execSpawn_kept (h : Canonical s) {o} : NextKept (execSpawn o s) := by
  unfold execSpawn
  dsimp only
  refine issueWord_kept (fun c s hs => ?_) h
  split
  · exact .hold hs
  split
  · exact Res.at_kept (Ctx.uni_kept hs)
  split
  · exact Res.at_kept (Ctx.uni_kept hs)
  grind [!Ctx.leave_kept, !Ctx.issueOp_kept, !Ctx.uni_kept, !State.sealEscrow_kept, Res.Kept, OptionResKept]

/-! Events: names, restores and moves -/

theorem State.setStage_kept (h : Canonical s) {r stage} : Canonical (s.setStage r stage) := ⟨h.mem, h.tile, h.opbuf, h.regs⟩

theorem State.refuse_kept (h : Canonical s) {r moving} : Canonical (s.refuse r moving) := ⟨h.mem, h.tile, h.opbuf, h.regs⟩

theorem State.lineFull_kept (h : Canonical s) {x} : Canonical (s.lineFull x).2 := by
  unfold State.lineFull
  dsimp only
  split
  · exact State.draw_kept h
  exact h

theorem State.answer_kept (h : Canonical s) {r result} : Canonical (s.answer r result) := State.setStage_kept h

theorem execNameRequestDelivery_kept (h : Canonical s) {r} : NextKept (execNameRequestDelivery r s) := by
  unfold execNameRequestDelivery
  split
  · exact .next h
  split
  · exact .next (State.answer_kept h)
  · exact .next h
  · split
    · exact .next (State.answer_kept (State.applySlot_kept h))
    exact .next (State.refuse_kept h)
  · grind [!State.applyHost_kept, !State.answer_kept, NextKept]
  · exact .next (State.refuse_kept h)
  exact .next h

theorem execSavedDelivery_kept (h : Canonical s) {r} : NextKept (execSavedDelivery r s) := by
  unfold execSavedDelivery
  dsimp only
  split
  · exact .next h
  split
  · exact .next h
  · split
    · exact .next (State.refuse_kept (State.lineFull_kept h))
    split
    · split
      · exact .next (State.answer_kept (State.applyImage_kept (State.lineFull_kept h)))
      exact .next (State.refuse_kept (State.lineFull_kept h))
    exact .next (State.refuse_kept (State.lineFull_kept h))
  exact .next h

theorem execJoinAtHome_kept (h : Canonical s) {r} : NextKept (execJoinAtHome r s) := by
  unfold execJoinAtHome
  dsimp only
  split
  · exact .next h
  split
  · split
    · exact .next (State.refuse_kept (State.lineFull_kept h))
    split
    · split
      · exact .next (State.answer_kept (State.applyJoin_kept (State.lineFull_kept h)))
      exact .next (State.refuse_kept (State.lineFull_kept h))
    exact .next (State.refuse_kept (State.lineFull_kept h))
  · split
    · exact .next (State.refuse_kept (State.lineFull_kept h))
    split
    · split
      · exact .next (State.answer_kept (State.applyJoin_kept (State.lineFull_kept h)))
      exact .next (State.refuse_kept (State.lineFull_kept h))
    exact .next (State.refuse_kept (State.lineFull_kept h))
  · split
    · exact .next (State.refuse_kept (State.lineFull_kept h))
    split
    · split
      · exact .next (State.answer_kept (State.applyJoin_kept (State.lineFull_kept h)))
      exact .next (State.refuse_kept (State.lineFull_kept h))
    exact .next (State.refuse_kept (State.lineFull_kept h))
  exact .next h

theorem execNameResendTimer_kept (h : Canonical s) {r} : NextKept (execNameResendTimer r s) := by
  unfold execNameResendTimer
  dsimp only
  split
  · exact .next h
  split
  · exact .next h
  split
  · grind [!State.signalJoiner_kept, !State.refuse_kept, NextKept, canonical_iff]
  split
  · grind [!State.answer_kept, !State.lookName_kept, NextKept]
  · grind [!State.answer_kept, !State.denial_kept, !State.lookName_kept, NextKept]
  grind [!State.lookName_kept, NextKept, canonical_iff]

theorem execNameRequestAnswered_kept (h : Canonical s) {r} : NextKept (execNameRequestAnswered r s) := by
  unfold execNameRequestAnswered
  dsimp only
  split
  · exact .next h
  split
  · split
    · exact .next h
    split
    · exact .next (State.endStatus_kept h.frame)
    · exact .next (State.completeCommand_kept h.frame)
    exact .next h.frame
  exact .next h

theorem execRestore_kept (h : Canonical s) {g slot} : NextKept (execRestore g slot s) := by
  unfold execRestore
  dsimp only
  split
  · grind [!State.install_kept, !State.groupFault_kept, NextKept, Install.Kept]
  exact .next h

theorem execMoveInstallation_kept (h : Canonical s) {g} : NextKept (execMoveInstallation g s) := by
  unfold execMoveInstallation
  dsimp only
  split
  · exact .next h
  split
  · exact .next h
  grind [!State.install_kept, !State.finishMoves_kept, !State.groupFault_kept, NextKept, Install.Kept, canonical_iff]

theorem State.halt_kept (h : Canonical s) {gi forced} : Canonical (s.halt gi forced) := by
  unfold State.halt
  grind [!State.saveGroup_kept, SaveRes.Kept]

theorem execForcedHalt_kept (h : Canonical s) {g} : NextKept (execForcedHalt g s) := by
  unfold execForcedHalt
  dsimp only
  split
  · exact .next h
  split
  · exact .next (State.halt_kept h)
  split
  · exact .next (State.halt_kept h)
  split
  · exact .next (State.halt_kept h)
  exact .next h

/-! Events: the host's queues and commands -/

theorem execQueueTableWrite_kept (h : Canonical s) {q word value} : NextKept (execQueueTableWrite q word value s) := by
  unfold execQueueTableWrite
  dsimp only
  split
  · exact .next h
  split
  · exact .next h
  exact .next (State.setReg_kept h)

theorem State.countBad_kept (h : Canonical s) {q} : Canonical (s.countBad q) := ⟨h.mem, h.tile, h.opbuf, h.regs⟩

theorem State.accept_kept (h : Canonical s) {q func w} : Canonical (s.accept q func w) := by
  unfold State.accept
  dsimp only
  exact (State.devWriteBytes_kept h).frame

theorem State.dmwr_kept (h : Canonical s) {func page off data} : Canonical (s.dmwr func page off data).2 := by
  unfold State.dmwr
  dsimp only
  split
  · exact h
  split
  · exact h
  split
  · exact (State.countBad_kept h).snd
  split
  · exact (State.countBad_kept h).snd
  split
  · exact h
  exact (State.accept_kept h).snd

theorem execSubmit_kept (h : Canonical s) {func page off data posted} : NextKept (execSubmit func page off data posted s) := by
  unfold execSubmit
  dsimp only
  split
  · split
    · split
      · exact .next (State.countBad_kept h)
      exact .next h
    exact .next h
  exact .next (State.dmwr_kept h).frame

theorem State.grantTo_kept (h : Canonical s) {q} : Canonical (s.grantTo q) := ⟨h.mem, h.tile, h.opbuf, h.regs⟩

theorem State.popRing_kept (h : Canonical s) {q} : Canonical (s.popRing q) := ⟨h.mem, h.tile, h.opbuf, h.regs⟩

theorem State.beginPop_kept (h : Canonical s) {q} : Canonical (s.beginPop q) := State.popRing_kept (State.grantTo_kept h)

theorem State.finishCmd_kept (h : Canonical s) {q func w status value} : Canonical (s.finishCmd q func w status value) := State.completeCommand_kept h

theorem State.beginLaunch_kept (h : Canonical s) {q c} : Canonical (s.beginLaunch q c) := by
  unfold State.beginLaunch
  dsimp only
  split
  · exact State.finishCmd_kept (State.beginPop_kept h)
  grind [!State.readRecord_kept, !State.finishCmd_kept, !State.beginPop_kept, !State.admitLaunch_kept, !State.grantTo_kept, !State.popRing_kept,
    RecordRead.Kept, canonical_iff]

theorem execLaunch_kept (h : Canonical s) {q} : NextKept (execLaunch q s) := by
  unfold execLaunch
  split
  · exact .next (State.beginLaunch_kept h)
  exact .next h

theorem State.beginRequest_kept (h : Canonical s) {q c limit op} : Canonical (s.beginRequest q c limit op) := by
  unfold State.beginRequest
  dsimp only
  split
  · exact State.finishCmd_kept (State.beginPop_kept h)
  split
  · exact State.finishCmd_kept (State.beginPop_kept h)
  grind [!State.fresh_kept, !State.beginPop_kept, !State.denial_kept, canonical_iff]

theorem execTellerSignal_kept (h : Canonical s) {q} : NextKept (execTellerSignal q s) := by
  unfold execTellerSignal
  split
  · exact .next (State.beginRequest_kept h)
  exact .next h

theorem execTellerDeposit_kept (h : Canonical s) {q} : NextKept (execTellerDeposit q s) := by
  unfold execTellerDeposit
  split
  · exact .next (State.beginRequest_kept h)
  exact .next h

theorem State.beginCopy_kept (h : Canonical s) {q c} : Canonical (s.beginCopy q c) := by
  unfold State.beginCopy
  dsimp only
  split
  · exact State.finishCmd_kept (State.beginPop_kept h)
  split
  · exact State.finishCmd_kept (State.beginPop_kept h)
  grind [!State.fresh_kept, !State.beginPop_kept, canonical_iff]

theorem State.copyNext_kept (h : Canonical s) {c} : Canonical (s.copyNext c) := by
  unfold State.copyNext
  dsimp only
  split
  · exact State.endCopy_kept h
  grind [!State.readRecord_kept, !State.endCopy_kept, !State.engineEvent_kept, !State.completionWord_kept, !State.copyRecordDone_kept,
    !State.fresh_kept, !State.placeCopy_kept, !State.pushEntry_kept, RecordRead.Kept, canonical_iff]

theorem execCopy_kept (h : Canonical s) {q} : NextKept (execCopy q s) := by
  unfold execCopy
  split
  · exact .next (State.copyNext_kept h)
  split
  · exact .next (State.beginCopy_kept h)
  exact .next h

theorem State.setTaken_kept (h : Canonical s) {t u} : Canonical (s.setTaken t u) := ⟨h.mem, h.tile, h.opbuf, h.regs⟩

theorem State.dropTaken_kept (h : Canonical s) {t} : Canonical (s.dropTaken t) := ⟨h.mem, h.tile, h.opbuf, h.regs⟩

theorem State.endTaken_kept (h : Canonical s) {t status} : Canonical (s.endTaken t status) := State.finishCmd_kept (State.dropTaken_kept h)

theorem State.killDone_kept (h : Canonical s) {t} : Canonical (s.killDone t) := by
  unfold State.killDone
  split
  · exact State.endTaken_kept h
  exact h

theorem State.awaitDeath_kept (h : Canonical s) {t} : OptionKept (s.awaitDeath t) := by
  unfold State.awaitDeath
  split
  · exact .some (State.endTaken_kept h)
  exact trivial

theorem State.keepWaiting_kept (h : Canonical s) {t} : OptionKept (s.keepWaiting t) := by
  unfold State.keepWaiting
  split
  · exact trivial
  exact .some (State.setTaken_kept h)

theorem State.killStep_kept (h : Canonical s) {t} : OptionKept (s.killStep t) := by
  unfold State.killStep
  dsimp only
  split
  · exact State.awaitDeath_kept h
  split
  · split
    · exact .some (State.killDone_kept h)
    exact trivial
  split
  · exact .some (State.endTaken_kept h)
  split
  · exact .some (State.endTaken_kept h)
  · exact State.keepWaiting_kept h
  · exact .some (State.setTaken_kept h)
  split
  · exact .some (State.setTaken_kept h)
  exact .some (State.killDone_kept (State.kill_kept (State.setTaken_kept h)))

theorem State.movingSaved_kept (h : Canonical s) {gi} : Canonical (s.movingSaved gi) := by
  unfold State.movingSaved
  dsimp only
  exact State.entrySaved_kept (State.modGrp_kept h)

theorem State.haltTeam_kept (h : Canonical s) {gs} : (s.haltTeam gs).Kept := by
  fun_induction State.haltTeam s gs <;> grind [!State.movingSaved_kept, !State.saveGroup_kept, Halted.Kept, SaveRes.Kept]

theorem State.closeTeam_kept (h : Canonical s) {team} : Canonical (s.closeTeam team) := by
  unfold State.closeTeam
  refine foldl_kept h fun _ _ hs => ?_
  split
  · exact State.modGrp_kept hs
  exact hs

theorem State.haltMove_kept (h : Canonical s) {t} : OptionKept (s.haltMove t) := by
  unfold State.haltMove
  dsimp only
  split
  · exact .some (State.dropTaken_kept h)
  grind [!State.haltTeam_kept, !State.dropTaken_kept, !State.closeTeam_kept, !State.raiseLog_kept, !State.setTaken_kept, !State.settle_kept,
    OptionKept, Halted.Kept]

theorem State.moveStep_kept (h : Canonical s) {t} : OptionKept (s.moveStep t) := by
  unfold State.moveStep
  dsimp only
  split
  · exact State.awaitDeath_kept h
  split
  · exact State.haltMove_kept h
  split
  · exact .some (State.endTaken_kept h)
  split
  · exact .some (State.endTaken_kept h)
  · exact State.keepWaiting_kept h
  · exact .some (State.setTaken_kept h)
  split
  · exact .some (State.endTaken_kept h)
  split
  · exact State.keepWaiting_kept h
  split
  · exact .some (State.endTaken_kept h)
  split
  · exact .some (State.endTaken_kept h)
  have k : ∀ {t u gs m}, Canonical ((({ s with hub := { s.hub with moves := m } } : State).setTaken t u).closeTeam gs) :=
    State.closeTeam_kept (State.setTaken_kept h.frame)
  exact .some (getD_kept (State.haltMove_kept k) k)

theorem State.goOn_kept (h : Canonical s) {q kind : Nat} {f : Taken → Option State} (hf : ∀ x, OptionKept (f x)) :
    Canonical (s.goOn q kind f) := getD_kept (findSome?_kept hf) h

theorem State.takeCommand_kept (h : Canonical s) {q c} : Canonical (s.takeCommand q c) := by
  unfold State.takeCommand
  dsimp only
  exact (State.beginPop_kept h).frame

theorem execMove_kept (h : Canonical s) {q} : NextKept (execMove q s) := by
  unfold execMove
  dsimp only
  grind [!State.goOn_kept, !State.takeCommand_kept, !State.moveStep_kept, NextKept, OptionKept]

theorem execKill_kept (h : Canonical s) {q} : NextKept (execKill q s) := by
  unfold execKill
  dsimp only
  grind [!State.goOn_kept, !State.takeCommand_kept, !State.killStep_kept, NextKept, OptionKept]

/-! Events: walks and translations -/

theorem State.uncur_kept (h : Canonical s) {gi} : Canonical (s.uncur gi) := by
  unfold State.uncur
  split
  · exact h.frame
  exact h

theorem State.walkBad_kept (h : Canonical s) {w} : Canonical (s.walkBad w) := by
  unfold State.walkBad
  split
  · exact State.modGrp_kept h
  exact h

theorem State.walkAbsent_kept (h : Canonical s) {w} : Canonical (s.walkAbsent w) := by
  unfold State.walkAbsent
  dsimp only
  split
  · split
    · exact State.raiseXfault_kept (State.uncur_kept (State.modGrp_kept h))
    exact h
  exact h

theorem execPageWalkComplete_kept (h : Canonical s) {w} : NextKept (execPageWalkComplete w s) := by
  unfold execPageWalkComplete
  dsimp only
  split
  · exact .next h
  split
  · exact .next h
  split
  · exact .next (foldl_kept (State.setAD_kept h.frame) fun _ _ h1 => State.installTlb_kept h1)
  · exact .next (foldl_kept h.frame fun _ _ h1 => State.walkBad_kept h1)
  exact .next (foldl_kept h.frame fun _ _ h1 => State.walkAbsent_kept h1)

theorem State.afterAts_kept (h : Canonical s) : Canonical s.afterAts :=
  State.flushCompletions_kept (State.flushNotes_kept (State.flushEvents_kept (State.flushPuts_kept h)))

theorem execAtsTranslationCompletion_kept (h : Canonical s) {r granted} : NextKept (execAtsTranslationCompletion r granted s) := by
  unfold execAtsTranslationCompletion
  dsimp only
  split
  · exact .next h
  split
  · exact .next h.frame
  split
  · exact .next h.frame
  exact .next (State.afterAts_kept (State.installL2_kept h.frame))

theorem execPriResponse_kept (h : Canonical s) {r success} : NextKept (execPriResponse r success s) := by
  unfold execPriResponse
  dsimp only
  split
  · exact .next h
  split
  · exact .next h
  split <;> exact .next (State.afterAts_kept h.frame)

theorem State.landPriv_kept (h : Canonical s) {func p} : Canonical (s.landPriv func p) := foldl_kept h fun _ _ h1 => State.landEsc_kept h1

theorem State.dropPages_kept (h : Canonical s) {func va pages} : Canonical (s.dropPages func va pages) := by
  unfold State.dropPages
  dsimp only
  exact (State.landPriv_kept h).frame

theorem execAtsInvalidate_kept (h : Canonical s) {func va pages} : NextKept (execAtsInvalidate func va pages s) := by
  unfold execAtsInvalidate
  dsimp only
  split
  · exact .next (State.landPriv_kept h)
  exact .next (State.afterAts_kept (foldl_kept (State.landPriv_kept h) fun _ _ h1 => State.flushSector_kept h1).frame)

/-! Events: partitions, worlds and registers -/

theorem State.pcmdDone_kept (h : Canonical s) {st} : Canonical (s.pcmdDone st) := by
  unfold State.pcmdDone
  dsimp only
  exact State.setReg_kept h.frame

theorem State.perform_kept (h : Canonical s) {op : Nat} {f : List W64 → State} (hf : ∀ w, Canonical (f w)) : Canonical (s.perform op f) := by
  unfold State.perform
  split
  · exact h
  split
  · exact hf _
  exact State.pcmdDone_kept h

theorem execConfigure_kept (h : Canonical s) : NextKept (execConfigure s) :=
  .next (State.perform_kept h fun _ => ite_kept (State.pcmdDone_kept (State.setRegN_kept (State.setRegN_kept h))) (State.pcmdDone_kept h))

theorem execRetire_kept (h : Canonical s) : NextKept (execRetire s) :=
  .next (State.perform_kept h fun _ => ite_kept (State.pcmdDone_kept (State.setRegN_kept h)) (State.pcmdDone_kept h))

theorem State.setSlice_kept (h : Canonical s) {p f} : Canonical (s.setSlice p f) := ⟨h.mem, h.tile, h.opbuf, h.regs⟩

theorem State.startWorld_kept (h : Canonical s) {f} : Canonical (s.startWorld f) := by
  unfold State.startWorld
  dsimp only
  split
  · exact State.setSlice_kept (State.setRegN_kept h)
  · exact State.setSlice_kept (State.setRegN_kept h)
  exact State.setRegN_kept h

theorem execAdmitWorld_kept (h : Canonical s) : NextKept (execAdmitWorld s) := by
  refine .next (State.perform_kept h fun w => ?_)
  extract_lets f p s1 s2 hub s3
  have h2 : Canonical s2 := State.setRegN_kept (State.setRegN_kept (State.setRegN_kept h))
  have h3 : Canonical s3 := h2.frame
  exact ite_kept (State.pcmdDone_kept (ite_kept h3 (State.startWorld_kept h3))) (State.pcmdDone_kept h)

theorem State.passSlice_kept (h : Canonical s) {p} : Canonical (s.passSlice p) := by
  unfold State.passSlice
  dsimp only
  split
  · exact h
  split
  · exact h
  exact State.dropContext_kept (State.setSlice_kept h)

theorem State.refuseWaiting_kept (h : Canonical s) {f} : Canonical (s.refuseWaiting f) := by
  unfold State.refuseWaiting
  dsimp only
  refine foldl_kept h fun _ _ hs => ?_
  split
  · split
    · exact State.popRing_kept (State.refuseLaunch_kept hs)
    exact State.refuseLaunch_kept hs
  exact hs

theorem State.startDepart_kept (h : Canonical s) {f} : Canonical (s.startDepart f) := by
  unfold State.startDepart
  extract_lets p s1 hub s2 bound s3 s4
  have h1 : Canonical s1 := State.setRegN_kept (State.setRegN_kept h)
  have h2 : Canonical s2 := h1.frame
  have h3 : Canonical s3 := foldl_kept h2 fun _ _ k => State.setRegN_kept k
  split
  · exact h
  exact State.passSlice_kept (foldl_kept (State.refuseWaiting_kept h3) fun _ _ k => State.kill_kept k)

theorem State.scrub_kept (h : Canonical s) {f} : Canonical (s.scrub f) :=
  State.rebuildTrees_kept ⟨h.mem, Memory.filter_wf h.tile _, Memory.filter_wf h.opbuf _, h.regs⟩

theorem execDepart_kept (h : Canonical s) : NextKept (execDepart s) := by
  refine .next (State.perform_kept h fun w => ?_)
  extract_lets f s1
  have h1 : Canonical s1 := State.startDepart_kept h
  exact ite_kept (State.pcmdDone_kept h) (ite_kept (State.scrub_kept h1) h1)

theorem execDepartComplete_kept (h : Canonical s) {func} : NextKept (execDepartComplete func s) := by
  unfold execDepartComplete
  extract_lets p s1 hub s2 s3 s4
  have h1 : Canonical s1 := State.setRegN_kept (State.scrub_kept h)
  have h2 : Canonical s2 := h1.frame
  have h3 : Canonical s3 := State.setRegN_kept h2
  have h4 : Canonical s4 := ite_kept h3 (State.setRegN_kept h3)
  split
  · split
    · split
      · exact .next (State.pcmdDone_kept h4)
      exact .next h4
    exact .next h4
  exact .next h

theorem State.tdiFail_kept (h : Canonical s) {f} : Canonical (s.tdiFail f) := State.startDepart_kept (State.setRegN_kept h)

theorem execInvtlb_kept (h : Canonical s) : NextKept (execInvtlb s) := by
  refine .next (State.perform_kept h fun w => ?_)
  extract_lets va n s1
  have h1 : Canonical s1 := State.dropPages_kept h
  exact ite_kept (State.pcmdDone_kept h) (ite_kept h1 (State.pcmdDone_kept h1))

theorem State.dropNames_kept (h : Canonical s) {f p} : Canonical (s.dropNames f p) := ⟨h.mem, h.tile, h.opbuf, h.regs⟩

theorem execInvname_kept (h : Canonical s) : NextKept (execInvname s) :=
  .next (State.perform_kept h fun _ => State.pcmdDone_kept (State.dropNames_kept h))

theorem execAssign_kept (h : Canonical s) : NextKept (execAssign s) := by
  refine .next (State.perform_kept h fun w => ?_)
  dsimp only
  split
  · exact State.pcmdDone_kept h
  split
  · exact State.pcmdDone_kept (State.rebuildTrees_kept (h.withMem (Memory.filter_wf h.mem _)).frame)
  exact State.pcmdDone_kept h

theorem execRelease_kept (h : Canonical s) : NextKept (execRelease s) := by
  unfold execRelease
  grind [!State.perform_kept, !State.pcmdDone_kept, !State.rebuildTrees_kept, NextKept, canonical_iff]

theorem State.releaseName_kept (h : Canonical s) {gi} : Canonical (s.releaseName gi) := by
  unfold State.releaseName
  dsimp only
  grind [!State.modGrp_kept, !State.putEntry_kept]

theorem execRelnames_kept (h : Canonical s) : NextKept (execRelnames s) := by
  unfold execRelnames
  grind [!State.perform_kept, !State.pcmdDone_kept, !State.dropNames_kept, !foldl_kept, !State.releaseName_kept, NextKept, canonical_iff]

theorem execRoutine_kept (h : Canonical s) : NextKept (execRoutine s) := by
  unfold execRoutine
  grind [!State.perform_kept, !State.pcmdDone_kept, NextKept, canonical_iff]

theorem execPartitionTableWrite_kept (h : Canonical s) {p word value} : NextKept (execPartitionTableWrite p word value s) := by
  unfold execPartitionTableWrite
  dsimp only
  split
  · exact .next (State.setReg_kept h)
  exact .next h

theorem State.writeWorld_kept (h : Canonical s) {f word v} : Canonical (s.writeWorld f word v) := by
  unfold State.writeWorld
  split
  · exact State.tdiFail_kept h
  split
  · exact h
  split
  · exact State.setRegN_kept h
  · exact State.setReg_kept h
  · exact State.setReg_kept h
  · exact State.setReg_kept h
  · exact State.setReg_kept h
  exact h

theorem State.writePcmd_kept (h : Canonical s) {word v} : Canonical (s.writePcmd word v) := by
  unfold State.writePcmd
  dsimp only
  split
  · exact State.setReg_kept h
  split
  · exact h
  split
  · exact State.pcmdDone_kept (State.setRegN_kept (State.setReg_kept h)).frame
  exact (State.setRegN_kept (State.setReg_kept h)).frame

theorem State.writeFrt_kept (h : Canonical s) {f word v} : Canonical (s.writeFrt f word v) := by
  unfold State.writeFrt
  split
  · exact State.setReg_kept h
  · exact State.setReg_kept h
  · exact State.setReg_kept h
  exact h

theorem State.writeSave_kept (h : Canonical s) {f word v} : Canonical (s.writeSave f word v) := by
  unfold State.writeSave
  split
  · exact h
  split <;> exact State.setReg_kept h

theorem execRegisterWrite_kept (h : Canonical s) {off value} : NextKept (execRegisterWrite off value s) := by
  unfold execRegisterWrite
  split
  · exact .next h
  split
  · exact .next (State.writePcmd_kept h)
  split
  · exact .next (State.writeWorld_kept h)
  split
  · exact .next (State.writeSave_kept h)
  split
  · exact .next (State.writeFrt_kept h)
  split
  · exact .next (State.setReg_kept h)
  split
  · exact .next (State.setReg_kept h)
  split
  · exact .next (State.setReg_kept h)
  split
  · exact .next (State.setReg_kept h)
  split
  · exact .next (State.setReg_kept h)
  exact .next h

/-! Events: scheduling -/

theorem State.headerTrap_kept (h : Canonical s) {gi r cause code} : Canonical (s.headerTrap gi r cause code) := by
  unfold State.headerTrap
  grind [!State.takeTrap_kept, !State.integRecord_kept, Try.Kept]

theorem State.select_kept (h : Canonical s) {gi} : Canonical (s.select gi) := by
  unfold State.select
  grind [!State.choose_kept, !State.headerTrap_kept, !State.modGrp_kept]

theorem State.selectInTurn_kept (h : Canonical s) {gs} : Canonical (s.selectInTurn gs) := by
  fun_induction State.selectInTurn s gs <;> grind [!State.select_kept]

theorem execIssueSlotGrant_kept (h : Canonical s) {core qtr} : NextKept (execIssueSlotGrant core qtr s) := by
  unfold execIssueSlotGrant
  dsimp only
  split
  · exact .next h.frame
  exact .next (State.selectInTurn_kept h)

theorem State.start_kept (h : Canonical s) {gi} : Canonical (s.start gi) := by
  unfold State.start
  split
  · exact h
  next r rest _ =>
  have k : (s.fetch gi r.addr.toNat).Kept := State.fetch_kept h
  cases e : s.fetch gi r.addr.toNat with
  | hold s1 => rw [e] at k; exact k
  | trap cause s1 => rw [e] at k; exact State.headerTrap_kept k
  | word w s1 =>
    rw [e] at k
    have k : Canonical s1 := k
    dsimp only
    split
    · exact State.headerTrap_kept k
    split
    · exact State.modGrp_kept k
    split
    · exact k
    grind [!State.fetch_kept, !State.modGrp_kept, !State.modQuarter_kept, Fetch.Kept, canonical_iff]

theorem State.beginClause_kept (h : Canonical s) {gi} : Canonical (s.beginClause gi) := State.start_kept (ite_kept (State.select_kept h) h)

theorem execClauseStart_kept (h : Canonical s) {g} : NextKept (execClauseStart g s) := by
  unfold execClauseStart
  dsimp only
  split
  · exact .next (State.beginClause_kept h)
  exact .next h

theorem State.takeAgenda_kept (h : Canonical s) {e rest} : Canonical (s.takeAgenda e rest) := by
  unfold State.takeAgenda
  dsimp only
  exact State.advance_kept h.frame

theorem State.startDue_kept (h : Canonical s) {pkg before} : OptionKept (s.startDue pkg before) := by
  unfold State.startDue
  dsimp only
  split
  · split
    · split
      · exact trivial
      exact .some (State.beginClause_kept (State.advance_kept h))
    exact trivial
  exact trivial

theorem State.startNow_kept (h : Canonical s) : OptionKept s.startNow := findSome?_kept fun _ => State.startDue_kept h

theorem State.idle_kept (h : Canonical s) : Canonical s.idle := by
  unfold State.idle
  split
  · exact h.frame
  grind [!State.startNow_kept, OptionKept, canonical_iff]

theorem execHeaderFetchFaultServiced_kept (h : Canonical s) {g} : NextKept (execHeaderFetchFaultServiced g s) := by
  unfold execHeaderFetchFaultServiced
  split
  · split
    · exact .next (State.select_kept h)
    grind [!State.fetch_kept, NextKept, Fetch.Kept]
  exact .next h

theorem State.admit_kept (h : Canonical s) {gi} : Canonical (s.admit_ gi) := by
  unfold State.admit_
  dsimp only
  exact State.modQuarter_kept (State.modGrp_kept h)

theorem execAdmission_kept (h : Canonical s) {core qtr} : NextKept (execAdmission core qtr s) := by
  unfold execAdmission
  dsimp only
  split
  · exact .next h
  split
  · exact .next (State.admit_kept h)
  split
  · exact .next h
  split
  · exact .next (State.admit_kept (State.modGrp_kept h))
  exact .next h

theorem execWaitDemotion_kept (h : Canonical s) {g} : NextKept (execWaitDemotion g s) := by
  unfold execWaitDemotion
  dsimp only
  split
  · exact .next (State.modGrp_kept h)
  exact .next h

theorem State.recount_kept {t : State} (h : Canonical t) : Canonical (s.recount t) :=
  foldl_kept h fun _ _ hs => ite_kept (State.modGrp_kept hs) hs

theorem State.takeOwed_kept (h : Canonical s) {gi r cause code faddr clear} : Canonical (s.takeOwed gi r cause code faddr clear) := by
  unfold State.takeOwed
  grind [!State.takeTrap_kept, !State.modGrp_kept, Try.Kept, canonical_iff]

theorem execAsyncTrapTaken_kept (h : Canonical s) {g} : NextKept (execAsyncTrapTaken g s) := by
  unfold execAsyncTrapTaken
  dsimp only
  split
  · exact .next h
  split
  · exact .next h
  split
  · exact .next (State.takeOwed_kept h)
  split
  · split <;> exact .next (State.takeOwed_kept h)
  split
  · exact .next h
  split
  · exact .next (State.takeOwed_kept h)
  split
  · exact .next (State.takeOwed_kept h)
  exact .next h

theorem execGroupDeath_kept (h : Canonical s) {x} : NextKept (execGroupDeath x s) := .next (State.runDeath_kept h)

theorem execEviction_kept (h : Canonical s) {core qtr} : NextKept (execEviction core qtr s) := by
  unfold execEviction
  dsimp only
  grind [!State.saveGroup_kept, NextKept, SaveRes.Kept]

theorem execGridBarrierMessage_kept (h : Canonical s) {m} : NextKept (execGridBarrierMessage m s) := by
  unfold execGridBarrierMessage
  dsimp only
  split
  · exact .next h
  exact .next (State.inherit_kept (State.tryGrid_kept h.frame))

theorem execGridBarrierReleaseMsg_kept (h : Canonical s) {m} : NextKept (execGridBarrierReleaseMsg m s) := by
  unfold execGridBarrierReleaseMsg
  dsimp only
  split
  · exact .next h
  exact .next (State.inherit_kept (foldl_kept h.frame fun _ _ h1 => State.releaseWaiter_kept h1))

/-! Words: the system instructions -/

theorem execWrsr_kept (h : Canonical s) {o} : NextKept (execWrsr o s) := by
  unfold execWrsr
  dsimp only
  refine issueWord_kept (fun c s hs => ?_) h
  split
  · exact .done (State.modGrp_kept (State.modGrp_kept (Ctx.uni_kept hs)))
  · exact .done (State.modGrp_kept (State.modGrp_kept (Ctx.uni_kept hs)))
  · exact .done (State.modGrp_kept (State.modGrp_kept (Ctx.uni_kept hs)))
  · split
    · exact Ctx.trap_kept (Ctx.uni_kept hs)
    exact .done (State.inherit_kept (State.modGrp_kept (State.modGrp_kept (Ctx.uni_kept hs))))
  exact Ctx.trap_kept (Ctx.uni_kept hs)

theorem State.raiseBreak_kept (h : Canonical s) {gi code pos header} : Canonical (s.raiseBreak gi code pos header) := by
  unfold State.raiseBreak
  dsimp only
  split
  · exact State.killGroup_kept h
  exact State.queueEvent_kept (State.modGrp_kept h)

theorem execBrk_kept (h : Canonical s) {o} : NextKept (execBrk o s) := by
  unfold execBrk
  dsimp only
  refine issueWord_kept (fun c s hs => ?_) h
  split
  · exact .done (State.raiseBreak_kept (State.modGrp_kept hs))
  exact .trap hs

/-! Events: slices, faults, errors and the host's accesses -/

theorem State.postPreempt_kept (h : Canonical s) {gi} : Canonical (s.postPreempt gi) := by
  unfold State.postPreempt
  dsimp only
  split
  · exact State.modGrp_kept h
  exact h

theorem execTenantSliceEnd_kept (h : Canonical s) {p} : NextKept (execTenantSliceEnd p s) := by
  unfold execTenantSliceEnd
  extract_lets cur waiting s late
  have h : Canonical s := foldl_kept h fun _ _ k => State.saveEngines_kept k
  split
  · exact .next h
  split
  · exact .next h
  exact .next (foldl_kept (State.saveEngines_kept (State.dropContext_kept (State.setSlice_kept h))) fun _ _ k => State.postPreempt_kept k)

theorem execGraceExpiry_kept (h : Canonical s) {g} : NextKept (execGraceExpiry g s) := by
  unfold execGraceExpiry
  dsimp only
  split
  · split
    · exact .next (State.halt_kept h)
    exact .next h
  exact .next h

theorem State.setEvent_kept (h : Canonical s) {k e} : Canonical (s.setEvent k e) := ⟨h.mem, h.tile, h.opbuf, h.regs⟩

theorem State.answerEvent_kept (h : Canonical s) {e act} : Canonical (s.answerEvent e act) := by
  unfold State.answerEvent
  split
  · split
    · exact State.xfaultRetry_kept h
    exact State.xfaultFail_kept h
  split
  · split
    · split
      · exact State.modGrp_kept h
      exact State.kill_kept h
    exact h
  exact h

theorem State.actAnswers_kept (h : Canonical s) : Canonical s.actAnswers := by
  unfold State.actAnswers
  dsimp only
  exact foldl_kept h.frame fun _ _ h1 => State.answerEvent_kept h1

theorem State.settleEvent_kept (h : Canonical s) {k e disp act} : Canonical (s.settleEvent k e disp act) :=
  State.actAnswers_kept (State.flushEvents_kept (State.setEvent_kept h))

theorem State.clerkLeaves_kept (h : Canonical s) {k e} : Canonical (s.clerkLeaves k e) := by
  unfold State.clerkLeaves
  split <;> exact State.settleEvent_kept h

theorem execClerkGraceExpiry_kept (h : Canonical s) {e} : NextKept (execClerkGraceExpiry e s) := by
  unfold execClerkGraceExpiry
  split
  · split
    · exact .next (State.clerkLeaves_kept h)
    exact .next h
  exact .next h

theorem execClerkResponse_kept (h : Canonical s) {e handled act} : NextKept (execClerkResponse e handled act s) := by
  unfold execClerkResponse
  split
  · split
    · exact .next h
    split
    · exact .next (State.clerkLeaves_kept h)
    split
    · exact .next h
    exact .next (State.settleEvent_kept h)
  exact .next h

theorem State.takeResponse_kept (h : Canonical s) {func ring} : OptionKept (s.takeResponse func ring) := by
  unfold State.takeResponse
  dsimp only
  grind [!State.hubGet_kept, !State.hubTr_kept, !State.hubPost_kept, !State.answerEvent_kept, OptionKept, TrKept, canonical_iff]

theorem execResponseTaken_kept (h : Canonical s) {func} : NextKept (execResponseTaken func s) :=
  .next (getD_kept (findSome?_kept fun _ => State.takeResponse_kept h) h)

theorem execEventRingConsumed_kept (h : Canonical s) {func cons} : NextKept (execEventRingConsumed func cons s) := by
  unfold execEventRingConsumed
  dsimp only
  split
  · exact .next h
  grind [!State.hubPut_kept, !State.actAnswers_kept, !State.flushEvents_kept, NextKept, Put.Kept]

theorem State.linkEvent_kept (h : Canonical s) {flow n} : Canonical (s.linkEvent flow n) := State.raiseLog_kept h

theorem State.packetLost_kept (h : Canonical s) {kind} : Canonical (s.packetLost kind) := by
  unfold State.packetLost
  split
  · exact h
  · exact h
  · split
    · split
      · exact State.integRecord_kept (State.failOp_kept h)
      exact h
    exact h
  split
  · split
    · exact State.setHead_kept h
    exact h
  exact h

theorem State.debtFails_kept (h : Canonical s) {g k} : Canonical (s.debtFails g k) := by
  unfold State.debtFails
  split
  · exact State.integRecord_kept (State.modGrp_kept h)
  exact h

theorem State.setFailures_kept (h : Canonical s) {flow pkt n} : Canonical (s.setFailures flow pkt n) := ⟨h.mem, h.tile, h.opbuf, h.regs⟩

theorem execPacketTagFailure_kept (h : Canonical s) {p kind} : NextKept (execPacketTagFailure p kind s) := by
  unfold execPacketTagFailure
  dsimp only
  split
  · exact .next h
  grind [!State.linkEvent_kept, !State.debtFails_kept, !State.setFailures_kept, !State.packetLost_kept, NextKept, canonical_iff]

theorem State.softEvent_kept (h : Canonical s) {func structure_ location name} : Canonical (s.softEvent func structure_ location name) :=
  State.raiseLog_kept h

theorem State.softWord_kept (h : Canonical s) {gi faddr f} : Canonical (s.softWord gi faddr f) := by
  unfold State.softWord
  dsimp only
  split
  · exact State.softEvent_kept (State.modGrp_kept h)
  exact h

theorem State.setPoison_kept (h : Canonical s) {space p} : Canonical (s.setPoison space p) := by
  unfold State.setPoison
  split
  · exact h
  split <;> exact h.frame

theorem State.softLine_kept (h : Canonical s) {row pa} : Canonical (s.softLine row pa) := by
  unfold State.softLine
  split
  · exact State.softEvent_kept h
  exact h

theorem State.softTlb_kept (h : Canonical s) {core k} : Canonical (s.softTlb core k) := by
  unfold State.softTlb
  split
  · split
    · exact State.softEvent_kept (State.modCore_kept h)
    exact h
  split
  · split
    · exact State.softEvent_kept h.frame
    exact h
  exact h

theorem execSoftError_kept (h : Canonical s) {t} : NextKept (execSoftError t s) := by
  unfold execSoftError
  dsimp only
  split
  · split
    · exact .next (State.softWord_kept h)
    split
    · exact .next (State.softWord_kept h)
    exact .next h
  · exact .next (State.softWord_kept (State.drawWords_kept h))
  · exact .next (State.softWord_kept (State.drawWords_kept h))
  · exact .next (State.softWord_kept (State.drawWords_kept h))
  · split
    · exact .next h
    exact .next (State.kill_kept (State.raiseLog_kept (State.softEvent_kept h)))
  · split
    · exact .next h
    split
    · exact .next h
    exact .next (State.softEvent_kept (State.modGrp_kept (State.dropEsc_kept h)))
  · split
    · exact .next (State.softEvent_kept (State.modGrp_kept (h.withOpbuf (Memory.write_wf h.opbuf _ _))))
    exact .next h
  · split
    · exact .next (State.softEvent_kept (State.setPoison_kept h))
    exact .next (State.setPoison_kept h)
  · exact .next (State.softLine_kept (ite_kept (State.setPoison_kept h) h))
  · exact .next (State.softLine_kept (State.setPoison_kept h))
  · exact .next (State.softTlb_kept h)
  · exact .next h.frame
  · split
    · exact .next (State.softEvent_kept (State.modCore_kept h))
    exact .next h
  · split
    · exact .next (State.softEvent_kept (State.modCore_kept h))
    exact .next h
  split
  · exact .next (State.softEvent_kept (State.wake_kept h))
  exact .next h

theorem State.pathFails_kept (h : Canonical s) {pa} : Canonical (s.pathFails pa) := by
  unfold State.pathFails
  split
  · exact State.raiseLog_kept (State.setPoison_kept h)
  exact h

theorem execTreeNodeError_kept (h : Canonical s) {node port base frames} : NextKept (execTreeNodeError node port base frames s) := by
  unfold execTreeNodeError
  extract_lets first inPort mine tree s1 hub s2 s3
  have h1 : Canonical s1 := foldl_kept h fun _ _ k => foldl_kept k fun _ _ k => State.setPoison_kept k
  have h2 : Canonical s2 := h1.frame
  have h3 : Canonical s3 := foldl_kept h2 fun _ _ k => foldl_kept k fun _ _ k => State.raiseLog_kept k
  split
  · exact .next h
  split
  · exact .next (ite_kept (State.pathFails_kept h) h)
  exact .next (State.rebuildTrees_kept h3)

theorem State.confEvent_kept (h : Canonical s) {f pa} : Canonical (s.confEvent f pa) := State.raiseLog_kept h

theorem State.hostWrite_kept (h : Canonical s) {pa data} : Canonical (s.hostWrite pa data) := by
  unfold State.hostWrite
  dsimp only
  refine foldl_kept h fun _ _ hs => ?_
  split
  · split
    · exact State.unkey_kept (State.devWrite_kept (State.unpoison_kept hs))
    exact hs
  exact State.unkey_kept (State.devWrite_kept hs)

theorem execHostWriteArrival_kept (h : Canonical s) {pa data release} : NextKept (execHostWriteArrival pa data release s) := by
  unfold execHostWriteArrival
  dsimp only
  split
  · exact .next (State.confEvent_kept h)
  exact .next (ite_kept (State.hostWrite_kept h) h)

theorem execHostCxlMemAccess_kept (h : Canonical s) {pa write bytes} : NextKept (execHostCxlMemAccess pa write bytes s) := by
  unfold execHostCxlMemAccess
  extract_lets answer places
  have ha : ∀ {t a}, Canonical t → Canonical (answer t a) := fun k => k.frame
  split
  · exact .next (State.confEvent_kept h)
  · exact .next (ha (State.confEvent_kept h))
  · exact .next (ite_kept (State.hostWrite_kept h) h)
  split
  · exact .next (ha h)
  split
  · exact .next (ha (State.drawWords_kept h))
  exact .next (ha h)

/-! Events: TDISP -/

theorem State.say_kept (h : Canonical s) {a} : Canonical (s.say a) := ⟨h.mem, h.tile, h.opbuf, h.regs⟩

theorem State.tdispError_kept (h : Canonical s) : Canonical s.tdispError := State.say_kept h

theorem State.sayFree_kept (h : Canonical s) {kind request} : Canonical (s.sayFree kind request) := by
  unfold State.sayFree
  grind [!State.fresh_kept, !State.say_kept]

theorem State.setTdi_kept (h : Canonical s) {f v} : Canonical (s.setTdi f v) := State.setRegN_kept h

theorem execTdiError_kept (h : Canonical s) {func} : NextKept (execTdiError func s) := by
  unfold execTdiError
  split
  · exact .next (State.tdiFail_kept h)
  exact .next h

theorem execGetTdispVersion_kept (h : Canonical s) {func} : NextKept (execGetTdispVersion func s) := by
  unfold execGetTdispVersion
  split
  · exact .next (State.sayFree_kept h)
  exact .next (State.tdispError_kept h)

theorem execGetTdispCapabilities_kept (h : Canonical s) {func} : NextKept (execGetTdispCapabilities func s) := by
  unfold execGetTdispCapabilities
  split
  · exact .next (State.sayFree_kept h)
  exact .next (State.tdispError_kept h)

theorem execLockInterfaceRequest_kept (h : Canonical s) {func} : NextKept (execLockInterfaceRequest func s) := by
  unfold execLockInterfaceRequest
  split
  · exact .next (State.say_kept (State.setTdi_kept h))
  exact .next (State.tdispError_kept h)

theorem execGetDeviceInterfaceReport_kept (h : Canonical s) {func} : NextKept (execGetDeviceInterfaceReport func s) := by
  unfold execGetDeviceInterfaceReport
  split
  · exact .next (State.say_kept h)
  exact .next (State.tdispError_kept h)

theorem execGetDeviceInterfaceState_kept (h : Canonical s) {func} : NextKept (execGetDeviceInterfaceState func s) := by
  unfold execGetDeviceInterfaceState
  split
  · exact .next (State.say_kept h)
  exact .next (State.tdispError_kept h)

theorem execStartInterfaceRequest_kept (h : Canonical s) {func} : NextKept (execStartInterfaceRequest func s) := by
  unfold execStartInterfaceRequest
  dsimp only
  split
  · exact .next (State.say_kept (ite_kept (State.startWorld_kept (State.setTdi_kept h)) (State.setTdi_kept h)))
  exact .next (State.tdispError_kept h)

theorem execStopInterfaceRequest_kept (h : Canonical s) {func} : NextKept (execStopInterfaceRequest func s) := by
  unfold execStopInterfaceRequest
  split
  · exact .next (State.say_kept (State.startDepart_kept (State.setTdi_kept h)))
  exact .next (State.tdispError_kept h)

/-! Events: boot and measurement -/

theorem State.setMr_kept (h : Canonical s) {n v} : Canonical (s.setMr n v) := foldl_kept h fun _ _ h1 => State.setReg_kept h1

theorem State.extend_kept (h : Canonical s) {n d} : Canonical (s.extend n d) := State.setMr_kept h

theorem State.powerOn_kept (h : Canonical s) : Canonical s.powerOn :=
  ⟨Memory.filter_wf h.mem _, rfl, rfl, rfl⟩

theorem State.runSlot_kept (h : Canonical s) {slot} : Canonical (s.runSlot slot) := by
  unfold State.runSlot
  dsimp only
  exact State.setReg_kept (State.extend_kept h).frame

theorem execPowerOnBoot_kept (h : Canonical s) : NextKept (execPowerOnBoot s) := by
  unfold execPowerOnBoot
  dsimp only
  split
  · exact .next (State.runSlot_kept (State.powerOn_kept h))
  exact .next (State.setReg_kept (State.powerOn_kept h))

theorem execMrExtend_kept (h : Canonical s) {n digest} : NextKept (execMrExtend n digest s) := by
  unfold execMrExtend
  dsimp only
  split
  · exact .next h
  exact .next (ite_kept (State.setRegN_kept (State.extend_kept h)) (State.extend_kept h))

theorem execFminRaise_kept (h : Canonical s) {svn} : NextKept (execFminRaise svn s) := by
  unfold execFminRaise
  split
  · exact .next (State.setRegN_kept h.frame)
  exact .next h

theorem execReadyBitSet_kept (h : Canonical s) {b} : NextKept (execReadyBitSet b s) := by
  unfold execReadyBitSet
  dsimp only
  split
  · exact .next (State.setRegN_kept h)
  exact .next h

theorem execFunctionOutOfService_kept (h : Canonical s) {b} : NextKept (execFunctionOutOfService b s) := by
  unfold execFunctionOutOfService
  dsimp only
  split
  · exact .next (State.setRegN_kept (State.setRegN_kept h))
  exact .next (State.setRegN_kept h)

theorem execConfigRequest_kept (h : Canonical s) {func} : NextKept (execConfigRequest func s) := by
  unfold execConfigRequest
  dsimp only
  exact .next (State.say_kept h)

/-! Events: SPDM and PLDM -/

theorem State.spdmError_kept (h : Canonical s) {code} : Canonical (s.spdmError code) := State.say_kept h

theorem State.spdm_kept {t : State} (h : Canonical s) (k : Canonical t) : NextKept (s.spdm t) := by
  unfold State.spdm
  split
  · exact k
  exact h

theorem State.spdmAfter_kept {t : State} {need : Algs → Bool} (h : Canonical s) (k : Canonical t) : NextKept (s.spdmAfter need t) :=
  State.spdm_kept h (ite_kept k (State.spdmError_kept h))

theorem execGetVersion_kept (h : Canonical s) : NextKept (execGetVersion s) := State.spdm_kept h (State.say_kept h.frame)

theorem execGetCapabilities_kept (h : Canonical s) : NextKept (execGetCapabilities s) := by
  unfold execGetCapabilities
  grind [!State.fresh_kept, !State.spdm_kept, !State.say_kept, NextKept]

theorem execNegotiateAlgorithms_kept (h : Canonical s) {hash asym dhe sess} : NextKept (execNegotiateAlgorithms hash asym dhe sess s) := by
  unfold execNegotiateAlgorithms
  dsimp only
  exact State.spdm_kept h (ite_kept (State.say_kept h.frame) (State.spdmError_kept h))

theorem execGetDigests_kept (h : Canonical s) : NextKept (execGetDigests s) := State.spdmAfter_kept h (State.sayFree_kept h)

theorem execGetCertificate_kept (h : Canonical s) {off len} : NextKept (execGetCertificate off len s) := State.spdmAfter_kept h (State.say_kept h)

theorem execChallenge_kept (h : Canonical s) {nonce} : NextKept (execChallenge nonce s) := by
  unfold execChallenge
  dsimp only
  grind [!State.fresh_kept, !State.spdmAfter_kept, !State.say_kept, NextKept]

theorem execGetMeasurements_kept (h : Canonical s) {blocks nonce} : NextKept (execGetMeasurements blocks nonce s) := by
  unfold execGetMeasurements
  dsimp only
  exact State.spdmAfter_kept h (ite_kept (State.say_kept h) (State.spdmError_kept h))

theorem execKeyExchange_kept (h : Canonical s) {dheKey} : NextKept (execKeyExchange dheKey s) := by
  unfold execKeyExchange
  dsimp only
  exact State.spdmAfter_kept h (ite_kept (State.spdmError_kept h) (State.sayFree_kept h.frame))

theorem State.setSession_kept (h : Canonical s) {x} : Canonical (s.setSession x) := ⟨h.mem, h.tile, h.opbuf, h.regs⟩

theorem execFinish_kept (h : Canonical s) {session mac} : NextKept (execFinish session mac s) := by
  unfold execFinish
  grind [!State.spdmAfter_kept, !State.spdmError_kept, !State.sayFree_kept, !State.setSession_kept, NextKept, canonical_iff]

theorem State.inSession_kept (h : Canonical s) {id : Nat} {f : Session → State} (hf : ∀ x, Canonical (f x)) : NextKept (s.inSession id f) := by
  refine State.spdm_kept h ?_
  split
  · exact ite_kept (hf _) (State.spdmError_kept h)
  exact State.spdmError_kept h

theorem execKeyUpdate_kept (h : Canonical s) {session} : NextKept (execKeyUpdate session s) :=
  State.inSession_kept h fun _ => State.say_kept (State.setSession_kept h)

theorem execEndSession_kept (h : Canonical s) {session} : NextKept (execEndSession session s) :=
  State.inSession_kept h fun _ => State.say_kept h.frame

theorem execIdeKm_kept (h : Canonical s) {session stream key} : NextKept (execIdeKm session stream key s) :=
  State.inSession_kept h fun _ => ite_kept (State.spdmError_kept h) (State.say_kept h.frame)

theorem execSpdmUnsupportedRequest_kept (h : Canonical s) {code} : NextKept (execSpdmUnsupportedRequest code s) := by
  unfold execSpdmUnsupportedRequest
  dsimp only
  exact State.spdm_kept h (State.spdmError_kept h)

theorem execPldmDiscovery_kept (h : Canonical s) {code} : NextKept (execPldmDiscovery code s) := by
  unfold execPldmDiscovery
  split
  · exact .next h
  exact .next (State.sayFree_kept h)

theorem execPldmMonitoring_kept (h : Canonical s) {sensor} : NextKept (execPldmMonitoring sensor s) := by
  unfold execPldmMonitoring
  split
  · exact .next h
  split
  · exact .next (State.say_kept h)
  split
  · exact .next (State.say_kept h)
  split
  · exact .next (State.sayFree_kept h)
  exact .next (State.say_kept h)

theorem execPldmFirmwareUpdate_kept (h : Canonical s) {off data} : NextKept (execPldmFirmwareUpdate off data s) := by
  unfold execPldmFirmwareUpdate
  dsimp only
  split
  · exact .next h
  split
  · exact .next (State.say_kept h)
  exact .next (State.say_kept h.frame)

theorem execActivateFirmware_kept (h : Canonical s) : NextKept (execActivateFirmware s) := by
  unfold execActivateFirmware
  dsimp only
  split
  · exact .next h
  split
  · exact .next (State.say_kept h)
  split
  · exact .next (State.say_kept h.frame)
  exact .next (State.say_kept (ite_kept h.frame h.frame))

/-! Words: control flow and waiting -/

theorem Ctx.goTo_kept (h : Canonical s) {t} : Canonical (c.goTo s t) := State.modGrp_kept h

theorem Ctx.transfer_kept (h : Canonical s) {t aligned} : (c.transfer s t aligned).Kept := by
  unfold Ctx.transfer
  split
  · exact .trap h
  exact .done (Ctx.goTo_kept h)

theorem execJmpi_kept (h : Canonical s) {o} : NextKept (execJmpi o s) := by
  unfold execJmpi
  dsimp only
  exact issueWord_kept (fun _ _ hs => Ctx.transfer_kept (Ctx.uni_kept hs)) h

theorem execCall_kept (h : Canonical s) {o} : NextKept (execCall o s) := by
  unfold execCall
  refine issueWord_kept (fun c s hs => ?_) h
  split
  · exact .trap hs
  exact .done (Ctx.goTo_kept (Ctx.putS_kept hs))

theorem execRet_kept (h : Canonical s) {o} : NextKept (execRet o s) := by
  unfold execRet
  dsimp only
  exact issueWord_kept (fun _ _ hs => Ctx.transfer_kept (Ctx.uni_kept hs)) h

theorem execExit_kept (h : Canonical s) {o} : NextKept (execExit o s) := by
  unfold execExit
  dsimp only
  exact issueWord_kept (fun _ _ hs => .done (State.modGrp_kept (Ctx.uni_kept hs))) h

theorem execTret_kept (h : Canonical s) {o} : NextKept (execTret o s) := by
  unfold execTret
  dsimp only
  refine issueWord_kept (fun c s hs => ?_) h
  split
  · exact Ctx.trap_kept hs
  split
  · exact .hold hs
  split
  · exact Res.at_kept hs
  grind [!State.pageMap_kept, !State.integRecord_kept, !State.modGrp_kept, !Res.at_kept, !Res.page_kept, Res.Kept]

theorem Ctx.sleep_kept (h : Canonical s) {cond} : (c.sleep s cond).Kept := .done (State.modGrp_kept h)

theorem execSuspendCounter_kept (h : Canonical s) {o} : NextKept (execSuspendCounter o s) := by
  unfold execSuspendCounter
  dsimp only
  refine issueWord_kept (fun c s hs => ?_) h
  split
  · exact .done (State.acquire_kept (Ctx.uni_kept hs))
  exact Ctx.sleep_kept (Ctx.uni_kept hs)

theorem execSuspendTill_kept (h : Canonical s) {o} : NextKept (execSuspendTill o s) := by
  unfold execSuspendTill
  dsimp only
  refine issueWord_kept (fun c s hs => ?_) h
  split
  · exact Res.at_kept (Ctx.uni_kept (Ctx.uni_kept hs))
  split
  · exact Res.at_kept (Ctx.uni_kept (Ctx.uni_kept hs))
  split
  · exact Res.at_kept (Ctx.uni_kept (Ctx.uni_kept hs))
  split
  · exact .done (Ctx.uni_kept (Ctx.uni_kept hs))
  exact Ctx.sleep_kept (Ctx.uni_kept (Ctx.uni_kept hs))

theorem execSuspendMonitor_kept (h : Canonical s) {o} : NextKept (execSuspendMonitor o s) := by
  unfold execSuspendMonitor
  dsimp only
  refine issueWord_kept (fun c s hs => ?_) h
  split
  · exact Res.at_kept (Ctx.uni_kept (Ctx.uni_kept hs))
  split
  · exact Res.at_kept (Ctx.uni_kept (Ctx.uni_kept hs))
  grind [!State.translate_kept, !Ctx.uni_kept, !Res.at_kept, !State.servedPage_kept, !Ctx.sleep_kept, !Res.page_kept, Res.Kept]

theorem execYield_kept (h : Canonical s) {o} : NextKept (execYield o s) := by
  unfold execYield
  dsimp only
  refine issueWord_kept (fun c s hs => ?_) h
  split
  · exact .hold hs
  grind [!State.saveGroup_kept, !State.modGrp_kept, Res.Kept, SaveRes.Kept]

theorem execGrow_kept (h : Canonical s) {o} : NextKept (execGrow o s) := by
  unfold execGrow
  dsimp only
  refine issueWord_kept (fun c s hs => ?_) h
  split
  · exact Ctx.trap_kept hs
  split <;> exact .done (State.modGrp_kept hs)

theorem execShrink_kept (h : Canonical s) {o} : NextKept (execShrink o s) := by
  unfold execShrink
  dsimp only
  refine issueWord_kept (fun c s hs => ?_) h
  split
  · exact Ctx.trap_kept hs
  split
  · exact Ctx.trap_kept hs
  split
  · exact .hold hs
  exact .done (State.poolReturn_kept (State.modGrp_kept hs))

theorem Ctx.arrives_kept (h : Canonical s) {cond} : (c.arrives s cond).Kept := by
  unfold Ctx.arrives
  dsimp only
  split
  · exact .hold h
  split
  · exact .done (State.arrive_kept h)
  exact .done (State.modGrp_kept (State.arrive_kept h))

theorem execBarc_kept (h : Canonical s) {o} : NextKept (execBarc o s) := by
  unfold execBarc
  dsimp only
  refine issueWord_kept (fun c s hs => ?_) h
  split
  · exact Ctx.trap_kept hs
  exact Ctx.arrives_kept hs

theorem execBarg_kept (h : Canonical s) {o} : NextKept (execBarg o s) := by
  unfold execBarg
  refine issueWord_kept (fun c s hs => ?_) h
  split
  · exact Ctx.trap_kept hs
  exact Ctx.arrives_kept hs

theorem execEvrd_kept (h : Canonical s) {o} : NextKept (execEvrd o s) := by
  unfold execEvrd
  dsimp only
  exact issueWord_kept (fun _ _ hs => .done (Ctx.putS_kept hs)) h

theorem execEvadd_kept (h : Canonical s) {o} : NextKept (execEvadd o s) := by
  unfold execEvadd
  dsimp only
  exact issueWord_kept (fun _ _ hs => .done (State.addCounter_kept (Ctx.uni_kept hs))) h

/-! Words: conversions -/

theorem Ctx.vecs_kept (h : Canonical s) {r n} : Canonical (c.vecs s r n).2.2 := by
  fun_induction Ctx.vecs c s r n <;> grind [!Ctx.vec_kept]

theorem execQblk_kept (h : Canonical s) {o} : NextKept (execQblk o s) := by
  unfold execQblk
  dsimp only
  refine issueWord_kept (fun c s hs => ?_) h
  grind [!Ctx.flags_kept, !foldl_kept, !Ctx.putV_kept, !Ctx.vecs_kept, Res.Kept]

theorem execRand_kept (h : Canonical s) {o} : NextKept (execRand o s) := by
  unfold execRand
  dsimp only
  exact issueWord_kept (fun _ _ hs => .done (Ctx.putV_kept (Ctx.putV_kept (Ctx.putV_kept (Ctx.putV_kept (Ctx.vecs_kept (Ctx.uni_kept hs))))))) h

/-! Words: across lanes -/

theorem execV2s_kept (h : Canonical s) {o} : NextKept (execV2s o s) := by
  unfold execV2s
  dsimp only
  exact issueWord_kept (fun _ _ hs => .done (Ctx.putS_kept (Ctx.uni_kept (Ctx.vec_kept hs)))) h

theorem execShfl_kept (h : Canonical s) {o} : NextKept (execShfl o s) := by
  unfold execShfl
  dsimp only
  exact issueWord_kept (fun _ _ hs => .done (Ctx.putV_kept (Ctx.vec_kept (Ctx.vec_kept hs)))) h

theorem execShup_kept (h : Canonical s) {o} : NextKept (execShup o s) := by
  unfold execShup
  dsimp only
  exact issueWord_kept (fun _ _ hs => .done (Ctx.putV_kept (Ctx.vec_kept (Ctx.uni_kept (Ctx.vec_kept hs))))) h

theorem execShdn_kept (h : Canonical s) {o} : NextKept (execShdn o s) := by
  unfold execShdn
  dsimp only
  exact issueWord_kept (fun _ _ hs => .done (Ctx.putV_kept (Ctx.vec_kept (Ctx.uni_kept (Ctx.vec_kept hs))))) h

theorem execShxor_kept (h : Canonical s) {o} : NextKept (execShxor o s) := by
  unfold execShxor
  dsimp only
  exact issueWord_kept (fun _ _ hs => .done (Ctx.putV_kept (Ctx.uni_kept (Ctx.vec_kept hs)))) h

theorem execVote_kept (h : Canonical s) {o} : NextKept (execVote o s) := by
  unfold execVote
  dsimp only
  exact issueWord_kept (fun _ _ hs => .done (Ctx.putS_kept (Ctx.vec_kept hs))) h

theorem execReduce_kept (h : Canonical s) {o} : NextKept (execReduce o s) := by
  unfold execReduce
  dsimp only
  exact issueWord_kept (fun _ _ hs => .done (Ctx.flags_kept (Ctx.putV_kept (Ctx.vec_kept hs)))) h

theorem execScan_kept (h : Canonical s) {o} : NextKept (execScan o s) := by
  unfold execScan
  dsimp only
  exact issueWord_kept (fun _ _ hs => .done (Ctx.flags_kept (Ctx.putV_kept (Ctx.vec_kept hs)))) h

theorem Ctx.whole_kept (h : Canonical s) {r} : Canonical (c.whole s r).2 := by
  unfold Ctx.whole
  dsimp only
  split
  · exact State.readWhole_kept h
  split
  · exact (Ctx.uni_kept h).snd
  exact (Ctx.vec_kept h).snd

theorem execTagof_kept (h : Canonical s) {o} : NextKept (execTagof o s) := by
  unfold execTagof
  dsimp only
  exact issueWord_kept (fun _ _ hs => .done (Ctx.putS_kept (Ctx.whole_kept hs))) h

/-! Words: engines and matrices -/

theorem Ctx.statusNow_kept (h : Canonical s) {d kind st} : (c.statusNow s d kind st).Kept := by
  unfold Ctx.statusNow
  grind [!Ctx.issueOp_kept, !State.endStatus_kept, Res.Kept]

theorem execBulk_kept (h : Canonical s) {o} : NextKept (execBulk o s) := by
  unfold execBulk
  dsimp only
  refine issueWord_kept (fun c s hs => ?_) h
  split
  · exact .hold hs
  split
  · exact Res.at_kept (Ctx.uni_kept (Ctx.uni_kept (Ctx.uni_kept hs)))
  split
  · exact Ctx.statusNow_kept (Ctx.uni_kept (Ctx.uni_kept (Ctx.uni_kept hs)))
  grind [!Ctx.leave_kept, !Ctx.uni_kept, !Ctx.issueOp_kept, !State.placeCopy_kept, !State.sealEscrow_kept, Res.Kept, OptionResKept]

theorem execObres_kept (h : Canonical s) {o} : NextKept (execObres o s) := by
  unfold execObres
  dsimp only
  refine issueWord_kept (fun c s hs => ?_) h
  split
  · exact .hold hs
  split
  · exact Ctx.trap_kept (Ctx.uni_kept hs)
  split
  · exact Ctx.trap_kept (Ctx.uni_kept hs)
  split
  · exact .hold (Ctx.uni_kept hs)
  split
  · exact .done (Ctx.issueOp_kept (State.modGrp_kept (State.tagBuf_kept (State.clearBuf_kept (State.modGrp_kept (Ctx.uni_kept hs))))))
  exact .done (Ctx.issueOp_kept (State.modGrp_kept (Ctx.uni_kept hs)))

theorem execObrel_kept (h : Canonical s) {o} : NextKept (execObrel o s) := by
  unfold execObrel
  dsimp only
  refine issueWord_kept (fun c s hs => ?_) h
  split
  · exact Ctx.trap_kept hs
  split
  · exact .hold hs
  exact .done (Ctx.issueOp_kept (State.modGrp_kept hs))

theorem execObload_kept (h : Canonical s) {o} : NextKept (execObload o s) := by
  unfold execObload
  dsimp only
  refine issueWord_kept (fun c s hs => ?_) h
  split
  · exact .hold hs
  split
  · exact Res.at_kept (Ctx.uni_kept (Ctx.uni_kept (Ctx.uni_kept hs)))
  split
  · exact Res.at_kept (Ctx.uni_kept (Ctx.uni_kept (Ctx.uni_kept hs)))
  split
  · exact Res.at_kept (Ctx.uni_kept (Ctx.uni_kept (Ctx.uni_kept hs)))
  split
  · exact Res.at_kept (Ctx.uni_kept (Ctx.uni_kept (Ctx.uni_kept hs)))
  split
  · exact Res.at_kept (Ctx.uni_kept (Ctx.uni_kept (Ctx.uni_kept hs)))
  split
  · exact Ctx.trap_kept (Ctx.uni_kept (Ctx.uni_kept (Ctx.uni_kept hs)))
  grind [!Ctx.issueOp_kept, !Ctx.uni_kept, !State.endOp_kept, Res.Kept]

theorem execModeM_kept (h : Canonical s) {o} : NextKept (execModeM o s) := by
  unfold execModeM
  dsimp only
  refine issueWord_kept (fun c s hs => ?_) h
  split
  · exact Ctx.trap_kept hs
  split
  · exact .hold hs
  exact .done (State.modGrp_kept hs)

theorem execModeV_kept (h : Canonical s) {o} : NextKept (execModeV o s) := by
  unfold execModeV
  refine issueWord_kept (fun c s hs => ?_) h
  split
  · exact .hold hs
  exact .done (State.modGrp_kept hs)

theorem execMzero_kept (h : Canonical s) {o} : NextKept (execMzero o s) := by
  unfold execMzero
  refine issueWord_kept (fun c s hs => ?_) h
  split
  · exact .hold hs
  exact .done (State.modGrp_kept hs)

theorem execMop_kept (h : Canonical s) {o} : NextKept (execMop o s) := by
  unfold execMop
  dsimp only
  refine issueWord_kept (fun c s hs => ?_) h
  split
  · exact Ctx.trap_kept hs
  split
  · exact .hold hs
  grind [!Ctx.issueOp_kept, !State.modQuarter_kept, Res.Kept]

theorem execMsync_kept (h : Canonical s) {o} : NextKept (execMsync o s) := by
  unfold execMsync
  refine issueWord_kept (fun c s hs => ?_) h
  split
  · exact .hold hs
  exact .done hs

theorem execMdrain_kept (h : Canonical s) {o} : NextKept (execMdrain o s) := by
  unfold execMdrain
  dsimp only
  refine issueWord_kept (fun c s hs => ?_) h
  split
  · exact Ctx.trap_kept hs
  split
  · exact .hold hs
  split
  · exact Res.at_kept (Ctx.uni_kept (Ctx.uni_kept (Ctx.uni_kept hs)))
  split
  · exact Res.at_kept (Ctx.uni_kept (Ctx.uni_kept (Ctx.uni_kept hs)))
  split
  · exact Res.at_kept (Ctx.uni_kept (Ctx.uni_kept (Ctx.uni_kept hs)))
  split
  · exact Res.at_kept (Ctx.uni_kept (Ctx.uni_kept (Ctx.uni_kept hs)))
  split
  · exact Ctx.statusNow_kept (Ctx.uni_kept (Ctx.uni_kept (Ctx.uni_kept hs)))
  grind [!Ctx.leave_kept, !Ctx.uni_kept, !Ctx.issueOp_kept, !State.pushEntry_kept, Res.Kept, OptionResKept]

/-! Events: the fabric -/

theorem State.peerAtomic_kept (h : Canonical s) {pa op width b x} : Canonical (s.peerAtomic pa op width b x).2 := by
  unfold State.peerAtomic
  dsimp only
  split
  · exact (State.devWriteBytes_kept h).snd
  exact h

theorem execFabricRequest_kept (h : Canonical s) {ep off op} : NextKept (execFabricRequest ep off op s) := by
  unfold execFabricRequest
  dsimp only
  split
  · exact .next h
  split
  · exact .next (State.say_kept h)
  split
  · exact .next (State.say_kept (State.raiseLog_kept h))
  split
  · split <;> exact .next (State.say_kept h)
  · exact .next (State.say_kept (State.hostWrite_kept h))
  split
  · exact .next (State.say_kept h)
  exact .next (State.say_kept (State.peerAtomic_kept h))

theorem State.fenceLanes_kept (h : Canonical s) {gi id p} : Canonical (s.fenceLanes gi id p) := by
  unfold State.fenceLanes
  dsimp only
  split
  · exact h
  split
  · exact h
  split
  · exact State.modGrp_kept (State.drawN_kept h)
  · exact State.modGrp_kept (State.drawN_kept h)
  · exact State.modGrp_kept (State.drawN_kept h)
  exact h

theorem State.wakeWhere_kept (h : Canonical s) {p} : Canonical (s.wakeWhere p) := foldl_kept h fun _ _ h1 => State.wake_kept h1

theorem State.fenceEgress_kept (h : Canonical s) {p} : Canonical (s.fenceEgress p) := by
  unfold State.fenceEgress
  dsimp only
  refine foldl_kept (State.drawN_kept h) fun _ _ hs => ?_
  split
  · exact State.egressFenced_kept hs.frame
  exact hs

theorem State.fenceOut_kept (h : Canonical s) {p pe} : Canonical (s.fenceOut p pe) := by
  unfold State.fenceOut
  extract_lets ops s1 s2
  have h1 : Canonical s1 := foldl_kept h fun _ _ k => State.fenceLanes_kept k
  have h2 : Canonical s2 := foldl_kept h1 fun _ _ k => ite_kept (State.discardEsc_kept (State.draw_kept k)) (State.draw_kept k)
  exact State.wakeWhere_kept (State.fenceEgress_kept h2)

theorem State.resendSprayed_kept (h : Canonical s) {p} : Canonical (s.resendSprayed p) := ⟨h.mem, h.tile, h.opbuf, h.regs⟩

theorem State.declareDead_kept (h : Canonical s) {p} : Canonical (s.declareDead p) := by
  unfold State.declareDead
  dsimp only
  split
  · exact State.resendSprayed_kept (State.fenceOut_kept (State.setRegN_kept (State.setRegN_kept h)))
  refine foldl_kept (State.resendSprayed_kept (State.fenceOut_kept (State.setRegN_kept (State.setRegN_kept h)))) fun _ _ hs => ?_
  split
  · exact State.setRegN_kept hs
  exact hs

theorem execPlaneDead_kept (h : Canonical s) {l} : NextKept (execPlaneDead l s) := by
  unfold execPlaneDead
  dsimp only
  split
  · exact .next h
  exact .next (ite_kept (State.declareDead_kept h.frame) h.frame)

theorem execHeartbeatSend_kept (h : Canonical s) : NextKept (execHeartbeatSend s) := by
  unfold execHeartbeatSend
  dsimp only
  split
  · exact .next h
  exact .next (foldl_kept h.frame fun _ _ h1 => State.say_kept h1)

theorem execHeartbeatArrival_kept (h : Canonical s) {ep} : NextKept (execHeartbeatArrival ep s) := by
  unfold execHeartbeatArrival
  exact .next h.frame

theorem execPeerSilent_kept (h : Canonical s) {n} : NextKept (execPeerSilent n s) := by
  unfold execPeerSilent
  dsimp only
  split
  · exact .next h
  exact .next (State.fenceOut_kept (State.setRegN_kept h)).frame

theorem execEndpointClaimAck_kept (h : Canonical s) {ep plane} : NextKept (execEndpointClaimAck ep plane s) := by
  unfold execEndpointClaimAck
  split
  · exact .next h.frame
  exact .next h

theorem State.giveBack_kept (h : Canonical s) {ep} : Canonical (s.giveBack ep) := by
  unfold State.giveBack
  dsimp only
  split
  · split
    · exact (State.draw_kept h).frame
    exact State.draw_kept h
  exact h

theorem execWindowEntryWrite_kept (h : Canonical s) {n value} : NextKept (execWindowEntryWrite n value s) := by
  unfold execWindowEntryWrite
  dsimp only
  split
  · exact .next h
  split
  · exact .next (State.giveBack_kept (State.setReg_kept h).frame)
  exact .next (State.wakeWhere_kept (State.setReg_kept h))

theorem State.keepColl_kept (h : Canonical s) {c} : Canonical (s.keepColl c) := ⟨h.mem, h.tile, h.opbuf, h.regs⟩

theorem State.endColl_kept (h : Canonical s) {c status} : Canonical (s.endColl c status) := by
  unfold State.endColl
  dsimp only
  grind [!State.hubPut_kept, !State.keepColl_kept, !State.deviceSignal_kept, Put.Kept]

theorem State.takeColl_kept (h : Canonical s) {c} : Canonical (s.takeColl c) := by
  unfold State.takeColl
  dsimp only
  grind [!State.readRecord_kept, !State.keepColl_kept, !State.endColl_kept, RecordRead.Kept]

theorem execCollectiveSubmit_kept (h : Canonical s) {value} : NextKept (execCollectiveSubmit value s) := by
  unfold execCollectiveSubmit
  grind [!State.fresh_kept, !State.setReg_kept, !State.takeColl_kept, NextKept]

theorem State.collBytes_kept (h : Canonical s) {f a n acc} : CollKept (s.collBytes f a n acc) := by
  fun_induction State.collBytes s f a n acc <;> grind [!State.hubGet_kept, !State.hubTr_kept, TrKept, CollKept, OptionKept]

theorem State.collHeld_kept (h : Canonical s) {f a n} : OptionKept (s.collHeld f a n) := by
  fun_induction State.collHeld s f a n <;> grind [!State.hubTr_kept, OptionKept]

theorem State.collPut_kept (h : Canonical s) {f a bs} : (s.collPut f a bs).Kept := by
  fun_induction State.collPut s f a bs <;> grind [!State.hubPut_kept, Put.Kept]

theorem State.dropColl_kept (h : Canonical s) {c} : Canonical (s.dropColl c) := ⟨h.mem, h.tile, h.opbuf, h.regs⟩

theorem State.putColl_kept (h : Canonical s) {x fmt z own} : Canonical (s.putColl x fmt z own) := by
  unfold State.putColl
  grind [!State.collPut_kept, !State.endColl_kept, !State.keepColl_kept, Put.Kept]

theorem execCollectiveComplete_kept (h : Canonical s) {c} : NextKept (execCollectiveComplete c s) := by
  unfold execCollectiveComplete
  dsimp only
  split
  · exact .next h
  split
  · exact .next (State.endColl_kept (State.dropColl_kept h))
  · exact .next (State.takeColl_kept (State.dropColl_kept h))
  split
  · exact .next (State.takeColl_kept (State.dropColl_kept h))
  split
  · exact .next (State.endColl_kept (State.dropColl_kept h))
  grind [!State.collBytes_kept, !State.dropColl_kept, !State.keepColl_kept, !State.endColl_kept, !State.collHeld_kept, !State.putColl_kept,
    NextKept, CollKept, OptionKept]

theorem execDramRefresh_kept (h : Canonical s) {vault} : NextKept (execDramRefresh vault s) := by
  unfold execDramRefresh
  dsimp only
  exact .next h

theorem execEgressEscrowDrain_kept (h : Canonical s) {k} : NextKept (execEgressEscrowDrain k s) := by
  unfold execEgressEscrowDrain
  split
  · exact .next h
  split
  · exact .next h
  exact .next (State.sendEgress_kept (State.servedPage_kept h.frame))

/-! Words: memory -/

theorem Ctx.eas32_kept (h : Canonical s) {a off} : Canonical (c.eas32 s a off).2 := by
  unfold Ctx.eas32
  dsimp only
  exact Ctx.vec_kept h

theorem Ctx.eas64_kept (h : Canonical s) {a off} : Canonical (c.eas64 s a off).2 := by
  unfold Ctx.eas64
  dsimp only
  exact State.readPair_kept h

theorem Ctx.tileAccs_kept (h : Canonical s) {ea n extra} : (c.tileAccs s ea n extra).Kept := by
  unfold Ctx.tileAccs
  dsimp only
  split
  · exact .stop (.trap h)
  split
  · exact .stop (.trap h)
  exact .ok h

theorem State.mapAddrs_kept (h : Canonical s) {gi access ps m} : Canonical (s.mapAddrs gi access ps m).2.2 := by
  fun_induction State.mapAddrs s gi access ps m <;> grind [!State.translate_kept]

theorem Ctx.mapLanes_kept (h : Canonical s) {addr vas access wanted} : (c.mapLanes s addr vas access wanted).Kept := by
  unfold Ctx.mapLanes
  dsimp only
  grind [!State.mapAddrs_kept, !Res.page_kept, !Res.at_kept, Found4.Kept, Res.Kept]

theorem Ctx.globAccs_kept (h : Canonical s) {ea n access wanted} : (c.globAccs s ea n access wanted).Kept := by
  unfold Ctx.globAccs
  split
  · exact .stop (.trap h)
  split
  · exact .stop (.trap h)
  exact Ctx.mapLanes_kept h

theorem Ctx.privAccs_kept (h : Canonical s) {ea n access} : (c.privAccs s ea n access).Kept := by
  unfold Ctx.privAccs
  dsimp only
  split
  · exact .stop (.trap h)
  split
  · exact .stop (.trap h)
  exact Ctx.mapLanes_kept h

theorem Ctx.load_kept (h : Canonical s) {o kind space accs} : (c.load s o kind space accs).Kept := by
  unfold Ctx.load
  dsimp only
  exact .done (Ctx.issueOp_kept h)

theorem execLdp_kept (h : Canonical s) {o} : NextKept (execLdp o s) := by
  unfold execLdp
  dsimp only
  refine issueWord_kept (fun c s hs => ?_) h
  split
  · exact .hold hs
  grind [!Ctx.privAccs_kept, !Ctx.eas32_kept, !Ctx.load_kept, Res.Kept, Found4.Kept]

theorem execLdt_kept (h : Canonical s) {o} : NextKept (execLdt o s) := by
  unfold execLdt
  dsimp only
  refine issueWord_kept (fun c s hs => ?_) h
  split
  · exact .hold hs
  grind [!Ctx.tileAccs_kept, !Ctx.eas32_kept, !Ctx.load_kept, Res.Kept, Found4.Kept]

theorem execLdg_kept (h : Canonical s) {o} : NextKept (execLdg o s) := by
  unfold execLdg
  dsimp only
  refine issueWord_kept (fun c s hs => ?_) h
  split
  · exact .hold hs
  grind [!Ctx.globAccs_kept, !Ctx.eas64_kept, !Ctx.load_kept, Res.Kept, Found4.Kept]

theorem execLdw_kept (h : Canonical s) {o} : NextKept (execLdw o s) := by
  unfold execLdw
  dsimp only
  refine issueWord_kept (fun c s hs => ?_) h
  split
  · exact .hold hs
  grind [!Ctx.globAccs_kept, !Ctx.eas64_kept, !Ctx.eas32_kept, !Ctx.tileAccs_kept, !Ctx.load_kept, !State.modGrp_kept, !foldl_kept, Res.Kept,
    Found4.Kept]

theorem State.enter_kept (h : Canonical s) {gi level space sealId accs data va} : Canonical (s.enter gi level space sealId accs data va) :=
  ⟨h.mem, h.tile, h.opbuf, h.regs⟩

theorem Ctx.store_kept (h : Canonical s) {o space accs} : (c.store s o space accs).Kept := by
  unfold Ctx.store
  dsimp only
  split
  · exact Res.at_kept h
  split
  · grind [!Ctx.leave_kept, !State.fresh_kept, !State.readData_kept, !Ctx.issueOp_kept, !State.enter_kept, !State.sealEscrow_kept, Res.Kept,
      OptionResKept]
  exact .done (State.enter_kept (Ctx.issueOp_kept (State.readData_kept h)))

theorem execStp_kept (h : Canonical s) {o} : NextKept (execStp o s) := by
  unfold execStp
  dsimp only
  refine issueWord_kept (fun c s hs => ?_) h
  split
  · exact .hold hs
  grind [!Ctx.privAccs_kept, !Ctx.eas32_kept, !State.enter_kept, !Ctx.issueOp_kept, !State.readData_kept, Res.Kept, Found4.Kept]

theorem Ctx.kick_kept (h : Canonical s) {o} : (c.kick s o).Kept := by
  unfold Ctx.kick
  dsimp only
  grind [!Ctx.leave_kept, !Ctx.issueOp_kept, !State.readData_kept, !State.sealEscrow_kept, Res.Kept, OptionResKept]

theorem execStt_kept (h : Canonical s) {o} : NextKept (execStt o s) := by
  unfold execStt
  dsimp only
  refine issueWord_kept (fun c s hs => ?_) h
  split
  · exact .hold hs
  split
  · split
    · exact Res.at_kept (Ctx.eas32_kept hs)
    exact Ctx.kick_kept (Ctx.eas32_kept hs)
  grind [!Ctx.tileAccs_kept, !Ctx.eas32_kept, !Ctx.store_kept, Res.Kept, Found4.Kept]

theorem execStg_kept (h : Canonical s) {o} : NextKept (execStg o s) := by
  unfold execStg
  dsimp only
  refine issueWord_kept (fun c s hs => ?_) h
  split
  · exact .hold hs
  grind [!Ctx.globAccs_kept, !Ctx.eas64_kept, !Ctx.store_kept, Res.Kept, Found4.Kept]

theorem Ctx.atomData_kept (h : Canonical s) {r width} : Canonical (c.atomData s r width).2 := by
  unfold Ctx.atomData
  dsimp only
  split
  · exact State.readPair_kept h
  exact (Ctx.vec_kept h).snd

theorem Ctx.atomSeal_kept (h : Canonical s) {mod id} : Canonical (c.atomSeal s mod id) := by
  unfold Ctx.atomSeal
  split
  · exact State.sealEscrow_kept h
  exact h

theorem Ctx.atomic_kept (h : Canonical s) {o space accs} : (c.atomic s o space accs).Kept := by
  unfold Ctx.atomic
  dsimp only
  grind [!Ctx.leave_kept, !Ctx.issueOp_kept, !Ctx.atomData_kept, !Ctx.atomSeal_kept, Res.Kept, OptionResKept]

theorem execAtomt_kept (h : Canonical s) {o} : NextKept (execAtomt o s) := by
  unfold execAtomt
  dsimp only
  refine issueWord_kept (fun c s hs => ?_) h
  split
  · exact .hold hs
  grind [!Ctx.tileAccs_kept, !Ctx.eas32_kept, !Ctx.atomic_kept, Res.Kept, Found4.Kept]

theorem execAtomg_kept (h : Canonical s) {o} : NextKept (execAtomg o s) := by
  unfold execAtomg
  dsimp only
  refine issueWord_kept (fun c s hs => ?_) h
  split
  · exact .hold hs
  grind [!Ctx.globAccs_kept, !Ctx.eas64_kept, !Ctx.atomic_kept, Res.Kept, Found4.Kept]

theorem execAtomp_kept (h : Canonical s) {o} : NextKept (execAtomp o s) := by
  unfold execAtomp
  dsimp only
  refine issueWord_kept (fun c s hs => ?_) h
  split
  · exact Ctx.trap_kept hs
  split
  · exact .hold hs
  grind [!Ctx.globAccs_kept, !Ctx.eas64_kept, !Ctx.leave_kept, !Ctx.issueOp_kept, !Ctx.atomData_kept, !Ctx.atomSeal_kept, Res.Kept, Found4.Kept,
    OptionResKept]

theorem execCommit_kept (h : Canonical s) {o} : NextKept (execCommit o s) := by
  unfold execCommit
  refine issueWord_kept (fun c s hs => ?_) h
  split
  · exact .hold hs
  grind [!Ctx.leave_kept, !Ctx.issueOp_kept, !State.sealEscrow_kept, Res.Kept, OptionResKept]

theorem execAbort_kept (h : Canonical s) {o} : NextKept (execAbort o s) := by
  unfold execAbort
  refine issueWord_kept (fun c s hs => ?_) h
  split
  · exact .hold hs
  grind [!Ctx.issueOp_kept, !State.sealAbort_kept, Res.Kept]

theorem execPfg_kept (h : Canonical s) {o} : NextKept (execPfg o s) := by
  unfold execPfg
  dsimp only
  refine issueWord_kept (fun c s hs => ?_) h
  split
  · exact .hold hs
  exact .done (Ctx.issueOp_kept (Ctx.eas64_kept hs))

/-! Words: special functions -/

theorem Ctx.sfuWait_kept (h : Canonical s) : Canonical (c.sfuWait s) := by
  unfold Ctx.sfuWait
  dsimp only
  exact State.modQuarter_kept h

theorem Ctx.sfu_kept (h : Canonical s) {d a f} : (c.sfu s d a f).Kept := by
  unfold Ctx.sfu
  dsimp only
  split
  · exact .hold h
  split
  · exact .hold (Ctx.sfuWait_kept h)
  exact .done (Ctx.issueOpTo_kept (State.modQuarter_kept (Ctx.vec_kept h)))

/-! Words: shifts, selection and moves -/

theorem execIshl_kept (h : Canonical s) {o} : NextKept (execIshl o s) := by
  unfold execIshl
  dsimp only
  exact issueWord_kept (fun _ _ hs => .done (Ctx.putV_kept (Ctx.vec_kept (Ctx.vec_kept hs)))) h

theorem execIsel_kept (h : Canonical s) {o} : NextKept (execIsel o s) := by
  unfold execIsel
  dsimp only
  exact issueWord_kept (fun _ _ hs => .done (Ctx.putV_kept (Ctx.vec_kept (Ctx.vec_kept (Ctx.vec_kept hs))))) h

theorem execS2v_kept (h : Canonical s) {o} : NextKept (execS2v o s) := by
  unfold execS2v
  dsimp only
  exact issueWord_kept (fun _ _ hs => .done (Ctx.putV_kept (Ctx.putV_kept (Ctx.uni_kept hs)))) h

end Sys2Proof.Machine
end

section
/-! The step keeps the memories and the registers canonical (O60). -/

namespace Sys2Proof.Machine

set_option Elab.async false
variable {s : State} {c : Ctx}

theorem exec_kept (h : Canonical s) {i : Instr} : NextKept (exec i s) := by
  cases i with
  | nop _ => exact issueWord_kept (fun _ _ hs => .done hs) h
  | bra _ => exact issueWord_kept (fun _ _ hs => Ctx.transfer_kept hs) h
  | jmpi _ => exact execJmpi_kept h
  | call _ => exact execCall_kept h
  | ret _ => exact execRet_kept h
  | exit _ => exact execExit_kept h
  | trap _ => exact issueWord_kept (fun _ _ hs => .trap hs) h
  | tret _ => exact execTret_kept h
  | suspendCounter _ => exact execSuspendCounter_kept h
  | suspendTill _ => exact execSuspendTill_kept h
  | suspendMonitor _ => exact execSuspendMonitor_kept h
  | yield _ => exact execYield_kept h
  | grow _ => exact execGrow_kept h
  | shrink _ => exact execShrink_kept h
  | bart _ => exact issueWord_kept (fun _ _ hs => Ctx.arrives_kept hs) h
  | barc _ => exact execBarc_kept h
  | barg _ => exact execBarg_kept h
  | spawn _ => exact execSpawn_kept h
  | signal _ => exact execSignal_kept h
  | wake _ => exact execWake_kept h
  | deposit _ => exact execDeposit_kept h
  | join _ => exact execJoin_kept h
  | evrd _ => exact execEvrd_kept h
  | evadd _ => exact execEvadd_kept h
  | sadd _ => exact issueWord_kept (fun _ _ hs => Ctx.scal2_kept hs) h
  | ssub _ => exact issueWord_kept (fun _ _ hs => Ctx.scal2_kept hs) h
  | smul _ => exact issueWord_kept (fun _ _ hs => Ctx.scal2_kept hs) h
  | smulh _ => exact issueWord_kept (fun _ _ hs => Ctx.scal2_kept hs) h
  | sdiv _ => exact issueWord_kept (fun _ _ hs => Ctx.scal2_kept hs) h
  | srem _ => exact issueWord_kept (fun _ _ hs => Ctx.scal2_kept hs) h
  | sand _ => exact issueWord_kept (fun _ _ hs => Ctx.scal2_kept hs) h
  | sor _ => exact issueWord_kept (fun _ _ hs => Ctx.scal2_kept hs) h
  | sxor _ => exact issueWord_kept (fun _ _ hs => Ctx.scal2_kept hs) h
  | sshl _ => exact issueWord_kept (fun _ _ hs => Ctx.scal2_kept hs) h
  | sshr _ => exact issueWord_kept (fun _ _ hs => Ctx.scal2_kept hs) h
  | ssar _ => exact issueWord_kept (fun _ _ hs => Ctx.scal2_kept hs) h
  | smin _ => exact issueWord_kept (fun _ _ hs => Ctx.scal2_kept hs) h
  | smax _ => exact issueWord_kept (fun _ _ hs => Ctx.scal2_kept hs) h
  | scmp _ => exact issueWord_kept (fun _ _ hs => Ctx.scal2_kept hs) h
  | ssel _ => exact issueWord_kept (fun _ _ hs => Ctx.scal3_kept hs) h
  | smov _ => exact issueWord_kept (fun _ _ hs => Ctx.scal1_kept hs) h
  | saddi _ => exact issueWord_kept (fun _ _ hs => Ctx.scal1_kept hs) h
  | smovi _ => exact issueWord_kept (fun _ _ hs => .done (Ctx.putS_kept hs)) h
  | smovh _ => exact issueWord_kept (fun _ _ hs => Ctx.scal1_kept hs) h
  | spopc _ => exact issueWord_kept (fun _ _ hs => Ctx.scal1_kept hs) h
  | sclz _ => exact issueWord_kept (fun _ _ hs => Ctx.scal1_kept hs) h
  | sbfe _ => exact issueWord_kept (fun _ _ hs => Ctx.scal1_kept hs) h
  | sbfi _ => exact issueWord_kept (fun _ _ hs => Ctx.scal2_kept hs) h
  | iadd _ => exact issueWord_kept (fun _ _ hs => Ctx.lane2T_kept hs) h
  | isub _ => exact issueWord_kept (fun _ _ hs => Ctx.lane2T_kept hs) h
  | imul _ => exact issueWord_kept (fun _ _ hs => Ctx.lane2T_kept hs) h
  | imulh _ => exact issueWord_kept (fun _ _ hs => Ctx.lane2_kept hs) h
  | imad _ => exact issueWord_kept (fun _ _ hs => Ctx.lane3T_kept hs) h
  | iaddmin _ => exact issueWord_kept (fun _ _ hs => Ctx.lane3_kept hs) h
  | iabs _ => exact issueWord_kept (fun _ _ hs => Ctx.lane1_kept hs) h
  | iaddi _ => exact issueWord_kept (fun _ _ hs => Ctx.lane1T_kept hs) h
  | idot4 _ => exact issueWord_kept (fun _ _ hs => Ctx.lane3_kept hs) h
  | iand _ => exact issueWord_kept (fun _ _ hs => Ctx.lane2_kept hs) h
  | ior _ => exact issueWord_kept (fun _ _ hs => Ctx.lane2_kept hs) h
  | ixor _ => exact issueWord_kept (fun _ _ hs => Ctx.lane2_kept hs) h
  | ishl _ => exact execIshl_kept h
  | ishr _ => exact issueWord_kept (fun _ _ hs => Ctx.lane2_kept hs) h
  | isar _ => exact issueWord_kept (fun _ _ hs => Ctx.lane2_kept hs) h
  | imin _ => exact issueWord_kept (fun _ _ hs => Ctx.lane2_kept hs) h
  | imax _ => exact issueWord_kept (fun _ _ hs => Ctx.lane2_kept hs) h
  | icmp _ => exact issueWord_kept (fun _ _ hs => Ctx.lane2_kept hs) h
  | isel _ => exact execIsel_kept h
  | ipopc _ => exact issueWord_kept (fun _ _ hs => Ctx.lane1_kept hs) h
  | iclz _ => exact issueWord_kept (fun _ _ hs => Ctx.lane1_kept hs) h
  | ibfe _ => exact issueWord_kept (fun _ _ hs => Ctx.lane1_kept hs) h
  | ibfi _ => exact issueWord_kept (fun _ _ hs => Ctx.lane2_kept hs) h
  | mov _ => exact issueWord_kept (fun _ _ hs => Ctx.lane1T_kept hs) h
  | movi _ => exact issueWord_kept (fun _ _ hs => .done (Ctx.putV_kept hs)) h
  | s2v _ => exact execS2v_kept h
  | v2s _ => exact execV2s_kept h
  | shfl _ => exact execShfl_kept h
  | shup _ => exact execShup_kept h
  | shdn _ => exact execShdn_kept h
  | shxor _ => exact execShxor_kept h
  | vote _ => exact execVote_kept h
  | reduce _ => exact execReduce_kept h
  | scan _ => exact execScan_kept h
  | tagof _ => exact execTagof_kept h
  | fadd _ => exact issueWord_kept (fun _ _ hs => Ctx.lane2_kept hs) h
  | fsub _ => exact issueWord_kept (fun _ _ hs => Ctx.lane2_kept hs) h
  | fmul _ => exact issueWord_kept (fun _ _ hs => Ctx.array_kept hs (Ctx.lane2_kept hs)) h
  | ffma _ => exact issueWord_kept (fun _ _ hs => Ctx.array_kept hs (Ctx.lane3_kept hs)) h
  | fmin _ => exact issueWord_kept (fun _ _ hs => Ctx.lane2_kept hs) h
  | fmax _ => exact issueWord_kept (fun _ _ hs => Ctx.lane2_kept hs) h
  | faddmin _ => exact issueWord_kept (fun _ _ hs => Ctx.lane3_kept hs) h
  | fcmp _ => exact issueWord_kept (fun _ _ hs => Ctx.lane2_kept hs) h
  | fclass _ => exact issueWord_kept (fun _ _ hs => Ctx.lane1_kept hs) h
  | frnd _ => exact issueWord_kept (fun _ _ hs => Ctx.lane1_kept hs) h
  | fscale _ => exact issueWord_kept (fun _ _ hs => Ctx.lane2_kept hs) h
  | pkadd _ => exact issueWord_kept (fun _ _ hs => Ctx.lane2_kept hs) h
  | pkmul _ => exact issueWord_kept (fun _ _ hs => Ctx.lane2_kept hs) h
  | pkfma _ => exact issueWord_kept (fun _ _ hs => Ctx.array_kept hs (Ctx.lane3_kept hs)) h
  | fdot2 _ => exact issueWord_kept (fun _ _ hs => Ctx.array_kept hs (Ctx.lane3_kept hs)) h
  | fdot4 _ => exact issueWord_kept (fun _ _ hs => Ctx.array_kept hs (Ctx.lane3_kept hs)) h
  | fdot8 _ => exact issueWord_kept (fun _ _ hs => Ctx.array_kept hs (Ctx.lane3_kept hs)) h
  | cvt _ => exact issueWord_kept (fun _ _ hs => Ctx.lane1_kept hs) h
  | cvtsr _ => exact issueWord_kept (fun _ _ hs => Ctx.lane2_kept hs) h
  | qblk _ => exact execQblk_kept h
  | dqblk _ => exact issueWord_kept (fun _ _ hs => Ctx.lane2_kept hs) h
  | rcp _ => exact issueWord_kept (fun _ _ hs => Ctx.sfu_kept hs) h
  | rsq _ => exact issueWord_kept (fun _ _ hs => Ctx.sfu_kept hs) h
  | sqrt _ => exact issueWord_kept (fun _ _ hs => Ctx.sfu_kept hs) h
  | exp2 _ => exact issueWord_kept (fun _ _ hs => Ctx.sfu_kept hs) h
  | log2 _ => exact issueWord_kept (fun _ _ hs => Ctx.sfu_kept hs) h
  | sinpi _ => exact issueWord_kept (fun _ _ hs => Ctx.sfu_kept hs) h
  | cospi _ => exact issueWord_kept (fun _ _ hs => Ctx.sfu_kept hs) h
  | tanh _ => exact issueWord_kept (fun _ _ hs => Ctx.sfu_kept hs) h
  | rand _ => exact execRand_kept h
  | ldp _ => exact execLdp_kept h
  | stp _ => exact execStp_kept h
  | ldt _ => exact execLdt_kept h
  | stt _ => exact execStt_kept h
  | ldg _ => exact execLdg_kept h
  | stg _ => exact execStg_kept h
  | ldw _ => exact execLdw_kept h
  | atomt _ => exact execAtomt_kept h
  | atomg _ => exact execAtomg_kept h
  | atomp _ => exact execAtomp_kept h
  | commit _ => exact execCommit_kept h
  | abort _ => exact execAbort_kept h
  | pfg _ => exact execPfg_kept h
  | bulk _ => exact execBulk_kept h
  | obres _ => exact execObres_kept h
  | obrel _ => exact execObrel_kept h
  | obload _ => exact execObload_kept h
  | modeM _ => exact execModeM_kept h
  | modeV _ => exact execModeV_kept h
  | mzero _ => exact execMzero_kept h
  | mop _ => exact execMop_kept h
  | msync _ => exact execMsync_kept h
  | mdrain _ => exact execMdrain_kept h
  | rdsr _ => exact issueWord_kept (fun _ _ hs => .done (Ctx.putS_kept hs)) h
  | wrsr _ => exact execWrsr_kept h
  | brk _ => exact execBrk_kept h
  | reservedOpcode _ => exact issueWord_kept (fun _ _ hs => Ctx.trap_kept hs) h
  | issueSlotGrant _ _ => exact execIssueSlotGrant_kept h
  | clauseStart _ => exact execClauseStart_kept h
  | headerFetchFaultServiced _ => exact execHeaderFetchFaultServiced_kept h
  | admission _ _ => exact execAdmission_kept h
  | waitDemotion _ => exact execWaitDemotion_kept h
  | asyncTrapTaken _ => exact execAsyncTrapTaken_kept h
  | groupDeath _ => exact execGroupDeath_kept h
  | launchPlacement _ => exact execLaunchPlacement_kept h
  | eviction _ _ => exact execEviction_kept h
  | gridBarrierMessage _ => exact execGridBarrierMessage_kept h
  | gridBarrierReleaseMsg _ => exact execGridBarrierReleaseMsg_kept h
  | nameRequestDelivery _ => exact execNameRequestDelivery_kept h
  | nameResendTimer _ => exact execNameResendTimer_kept h
  | nameRequestAnswered _ => exact execNameRequestAnswered_kept h
  | savedDelivery _ => exact execSavedDelivery_kept h
  | joinAtHome _ => exact execJoinAtHome_kept h
  | restore _ _ => exact execRestore_kept h
  | moveInstallation _ => exact execMoveInstallation_kept h
  | forcedHalt _ => exact execForcedHalt_kept h
  | loadComplete _ _ _ _ => exact execLoadComplete_kept h
  | commitComplete _ _ _ => exact execCommitComplete_kept h
  | releasePerform _ _ _ => exact execReleasePerform_kept h
  | atomicPerformed _ _ _ => exact execAtomicPerformed_kept h
  | vaultRoutineRun _ _ _ => exact execVaultRoutineRun_kept h
  | sfuComplete _ _ => exact execSfuComplete_kept h
  | mopComplete _ _ => exact execMopComplete_kept h
  | multiplyArrayIssue _ => exact execMultiplyArrayIssue_kept h
  | obresComplete _ _ => exact execObresComplete_kept h
  | obloadComplete _ _ => exact execObloadComplete_kept h
  | mdrainReadComplete _ _ => exact execMdrainReadComplete_kept h
  | integrityCheckFail _ _ => exact execIntegrityCheckFail_kept h
  | requestListTaken _ => exact execRequestListTaken_kept h
  | presenceClearAck _ _ => exact execPresenceClearAck_kept h
  | engineEntryStart _ _ => exact execEngineEntryStart_kept h
  | engineLineArrival _ _ => exact execEngineLineArrival_kept h
  | engineEntryComplete _ _ => exact execEngineEntryComplete_kept h
  | fenceComplete _ _ => exact execFenceComplete_kept h
  | pageWalkComplete _ => exact execPageWalkComplete_kept h
  | priResponse _ _ => exact execPriResponse_kept h
  | atsInvalidate _ _ _ => exact execAtsInvalidate_kept h
  | submit func page off data posted =>
    exact execSubmit_kept (func := func) (page := page) (off := off) (data := data) (posted := posted) h
  | launch _ => exact execLaunch_kept h
  | tellerSignal _ => exact execTellerSignal_kept h
  | tellerDeposit _ => exact execTellerDeposit_kept h
  | copy _ => exact execCopy_kept h
  | move _ => exact execMove_kept h
  | kill _ => exact execKill_kept h
  | queueTableWrite _ _ _ => exact execQueueTableWrite_kept h
  | configure => exact execConfigure_kept h
  | retire => exact execRetire_kept h
  | admitWorld => exact execAdmitWorld_kept h
  | depart => exact execDepart_kept h
  | departComplete _ => exact execDepartComplete_kept h
  | invtlb => exact execInvtlb_kept h
  | invname => exact execInvname_kept h
  | assign => exact execAssign_kept h
  | release => exact execRelease_kept h
  | relnames => exact execRelnames_kept h
  | routine => exact execRoutine_kept h
  | partitionTableWrite _ _ _ => exact execPartitionTableWrite_kept h
  | registerWrite _ _ => exact execRegisterWrite_kept h
  | tenantSliceEnd _ => exact execTenantSliceEnd_kept h
  | graceExpiry _ => exact execGraceExpiry_kept h
  | clerkGraceExpiry _ => exact execClerkGraceExpiry_kept h
  | responseTaken _ => exact execResponseTaken_kept h
  | packetTagFailure _ _ => exact execPacketTagFailure_kept h
  | softError _ => exact execSoftError_kept h
  | treeNodeError _ _ _ _ => exact execTreeNodeError_kept h
  | hostWriteArrival _ _ release => exact execHostWriteArrival_kept (release := release) h
  | hostCxlMemAccess _ _ _ => exact execHostCxlMemAccess_kept h
  | tdiError _ => exact execTdiError_kept h
  | getTdispVersion _ => exact execGetTdispVersion_kept h
  | getTdispCapabilities _ => exact execGetTdispCapabilities_kept h
  | lockInterfaceRequest _ => exact execLockInterfaceRequest_kept h
  | getDeviceInterfaceReport _ => exact execGetDeviceInterfaceReport_kept h
  | getDeviceInterfaceState _ => exact execGetDeviceInterfaceState_kept h
  | startInterfaceRequest _ => exact execStartInterfaceRequest_kept h
  | stopInterfaceRequest _ => exact execStopInterfaceRequest_kept h
  | powerOnBoot => exact execPowerOnBoot_kept h
  | mrExtend _ _ => exact execMrExtend_kept h
  | fminRaise _ => exact execFminRaise_kept h
  | readyBitSet _ => exact execReadyBitSet_kept h
  | functionOutOfService _ => exact execFunctionOutOfService_kept h
  | configRequest func => exact execConfigRequest_kept (func := func) h
  | getVersion => exact execGetVersion_kept h
  | getCapabilities => exact execGetCapabilities_kept h
  | negotiateAlgorithms _ _ _ _ => exact execNegotiateAlgorithms_kept h
  | getDigests => exact execGetDigests_kept h
  | getCertificate _ _ => exact execGetCertificate_kept h
  | challenge _ => exact execChallenge_kept h
  | getMeasurements _ _ => exact execGetMeasurements_kept h
  | keyExchange dheKey => exact execKeyExchange_kept (dheKey := dheKey) h
  | finish _ _ => exact execFinish_kept h
  | keyUpdate _ => exact execKeyUpdate_kept h
  | endSession _ => exact execEndSession_kept h
  | ideKm _ _ _ => exact execIdeKm_kept h
  | spdmUnsupportedRequest code => exact execSpdmUnsupportedRequest_kept (code := code) h
  | pldmDiscovery _ => exact execPldmDiscovery_kept h
  | pldmMonitoring _ => exact execPldmMonitoring_kept h
  | pldmFirmwareUpdate _ _ => exact execPldmFirmwareUpdate_kept h
  | activateFirmware => exact execActivateFirmware_kept h
  | fabricRequest _ _ _ => exact execFabricRequest_kept h
  | planeDead _ => exact execPlaneDead_kept h
  | heartbeatSend => exact execHeartbeatSend_kept h
  | peerSilent _ => exact execPeerSilent_kept h
  | endpointClaimAck _ _ => exact execEndpointClaimAck_kept h
  | windowEntryWrite _ _ => exact execWindowEntryWrite_kept h
  | collectiveSubmit _ => exact execCollectiveSubmit_kept h
  | collectiveComplete _ => exact execCollectiveComplete_kept h
  | dramRefresh vault => exact execDramRefresh_kept (vault := vault) h
  | egressEscrowDrain _ => exact execEgressEscrowDrain_kept h
  | storeComplete _ _ => exact execStoreComplete_kept h
  | prefetchComplete _ _ => exact execPrefetchComplete_kept h
  | abortComplete _ _ => exact execAbortComplete_kept h
  | integrityCheckPass _ _ => exact execIntegrityCheckPass_kept h
  | heartbeatArrival _ => exact execHeartbeatArrival_kept h
  | atsTranslationCompletion _ _ => exact execAtsTranslationCompletion_kept h
  | clerkResponse _ _ _ => exact execClerkResponse_kept h
  | eventRingConsumed _ _ => exact execEventRingConsumed_kept h

theorem State.nextWord_kept (h : Canonical s) : NextKept s.nextWord := by
  unfold State.nextWord
  split
  · exact .next (State.idle_kept h)
  split
  · exact .next h.frame
  grind [!State.startDue_kept, !State.retryTrap_kept, !State.fetch_kept, !exec_kept, !State.fetchHeld_kept, !State.fetchTrap_kept, NextKept,
    OptionKept, Fetch.Kept]

theorem State.oneStep_kept (h : Canonical s) : NextKept s.oneStep := by
  unfold State.oneStep
  dsimp only
  split
  · exact State.nextWord_kept h
  split
  · exact State.nextWord_kept (State.takeAgenda_kept h)
  split
  · exact State.nextWord_kept (State.takeAgenda_kept h)
  exact exec_kept (State.takeAgenda_kept h)

theorem step_kept (h : Canonical s) : NextKept (step s) := by
  have k := State.oneStep_kept h
  unfold step
  split
  next e =>
    rw [e] at k
    exact .next (State.actAnswers_kept (State.landStatuses_kept (State.recount_kept k)))
  · trivial
  · trivial

theorem memoriesOk_iff : memoriesOk s ↔ Canonical s :=
  ⟨fun ⟨hm, ht, ho, hr⟩ => ⟨hm, ht, ho, hr⟩, fun ⟨hm, ht, ho, hr⟩ => ⟨hm, ht, ho, hr⟩⟩

/-- Settles O60: every function of the model that gives a state keeps `Canonical`, so `step` does. -/
theorem memoriesKept : Obligations.MemoriesKept := by
  intro s t h e
  have k := step_kept (memoriesOk_iff.1 h)
  rw [e] at k
  exact memoriesOk_iff.2 k

end Sys2Proof.Machine
end

section
/-! Memories and the hub's registers: read after write, and the canonical form determines them (O59). -/

namespace Sys2Proof.Machine

/-! Runs of bytes -/

theorem Memory.get_write {m : Memory} (h : m.wf = true) (a x : Nat) (bs : List Byte) :
    (m.write a bs).get x = if a ≤ x ∧ x < a + bs.length then bs.getD (x - a) 0 else m.get x := by
  induction bs generalizing m a with
  | nil => rw [if_neg (by simp only [List.length_nil]; omega)]; rfl
  | cons b bs ih =>
    rw [Memory.write, ih (Memory.put_wf h a b), Memory.get_put h, List.length_cons]
    rcases Nat.lt_trichotomy x a with lt | rfl | gt
    · rw [if_neg (by omega), if_neg (by omega), if_neg (by omega)]
    · rw [if_neg (by omega), if_pos rfl, if_pos (by omega), Nat.sub_self, List.getD_cons_zero]
    · obtain ⟨k, rfl⟩ : ∃ k, x = a + 1 + k := ⟨x - (a + 1), by omega⟩
      have e : a + 1 + k - a = k + 1 := by omega
      rw [e, List.getD_cons_succ, Nat.add_sub_cancel_left, if_neg (show a + 1 + k ≠ a by omega)]
      exact if_congr (by omega) rfl rfl

theorem Memory.get_putSector {m : Memory} (h : m.wf = true) (a x : Nat) (d : List (Option Byte)) :
    (m.putSector a d).get x = if a ≤ x then (d.getD (x - a) none).getD (m.get x) else m.get x := by
  induction d generalizing m a with
  | nil => rw [List.getD_nil, Option.getD_none, ite_self]; rfl
  | cons b d ih =>
    have k : (m.putSector a (b :: d)).get x = if a + 1 ≤ x then (d.getD (x - (a + 1)) none).getD (m.get x)
        else if x = a then b.getD (m.get x) else m.get x := by
      cases b with
      | none =>
        rw [Memory.putSector, ih h, Option.getD_none, ite_self]
      | some b =>
        rw [Memory.putSector, ih (Memory.put_wf h a b), Memory.get_put h, Option.getD_some]
        split
        · rw [if_neg (by omega)]
        · rfl
    rw [k]
    rcases Nat.lt_trichotomy x a with lt | rfl | gt
    · rw [if_neg (by omega), if_neg (by omega), if_neg (by omega)]
    · rw [if_neg (by omega), if_pos rfl, if_pos (Nat.le_refl x), Nat.sub_self, List.getD_cons_zero]
    · have e : x - a = x - (a + 1) + 1 := by omega
      rw [if_pos (by omega), if_pos (by omega), e, List.getD_cons_succ]

theorem Memory.read_write {m : Memory} (h : m.wf = true) (a : Nat) (bs : List Byte) : (m.write a bs).read a bs.length = bs := by
  unfold Memory.read
  refine List.ext_getElem (by rw [List.length_map, List.length_range]) fun k _ hk => ?_
  rw [List.getElem_map, List.getElem_range, Memory.get_write h, if_pos (by omega), Nat.add_sub_cancel_left, List.getD_eq_getElem _ _ hk]

theorem ofBytesLE_bytesLE (n x : Nat) : ofBytesLE (bytesLE n x) = x % 256 ^ n := by
  induction n generalizing x with
  | zero => rw [Nat.pow_zero, Nat.mod_one]; rfl
  | succ n ih => rw [bytesLE, ofBytesLE, ih, BitVec.toNat_ofNat, Nat.pow_succ' (m := 256), Nat.mod_mul]

theorem Memory.word_putWord {m : Memory} (h : m.wf = true) (a : Nat) (w : W64) : (m.putWord a w).word a = w := by
  have k : (m.putWord a w).read a 8 = bytesLE 8 w.toNat := Memory.read_write h a (bytesLE 8 w.toNat)
  rw [Memory.word, k, ofBytesLE_bytesLE, show 256 ^ 8 = 2 ^ 64 from rfl, Nat.mod_eq_of_lt w.isLt, BitVec.ofNat_toNat, BitVec.setWidth_eq]

/-! Extensionality -/

theorem getCell_head (c : Host.Cell) (cs : List Host.Cell) : getCell (c :: cs) c.1 = c.2 := if_pos rfl

/-- The first cell of one list is not below the first of another that reads the same. -/
theorem head_not_below {lo : Nat} {c d : Host.Cell} {cs ds : List Host.Cell} (hc : Memory.wfFrom lo (c :: cs) = true)
    (hd : Memory.wfFrom lo (d :: ds) = true) (e : ∀ a, getCell (c :: cs) a = getCell (d :: ds) a) : d.1 ≤ c.1 := by
  simp only [Memory.wfFrom, Bool.and_eq_true, decide_eq_true_eq] at hc hd
  by_contra lt
  have k : Memory.wfFrom d.1 (d :: ds) = true := by
    simp only [Memory.wfFrom, Bool.and_eq_true, decide_eq_true_eq]
    exact ⟨⟨Nat.le_refl _, hd.1.2⟩, hd.2⟩
  exact hc.1.2 (by rw [← getCell_head c cs, e, getCell_below k (by omega)])

theorem cells_ext {lo : Nat} {cs ds : List Host.Cell} (hc : Memory.wfFrom lo cs = true) (hd : Memory.wfFrom lo ds = true)
    (e : ∀ a, getCell cs a = getCell ds a) : cs = ds := by
  induction cs generalizing lo ds with
  | nil =>
    cases ds with
    | nil => rfl
    | cons d ds =>
      simp only [Memory.wfFrom, Bool.and_eq_true, decide_eq_true_eq] at hd
      exact absurd ((getCell_head d ds).symm.trans (e d.1).symm) hd.1.2
  | cons c cs ih =>
    cases ds with
    | nil =>
      simp only [Memory.wfFrom, Bool.and_eq_true, decide_eq_true_eq] at hc
      exact absurd ((getCell_head c cs).symm.trans (e c.1)) hc.1.2
    | cons d ds =>
      have place : c.1 = d.1 := Nat.le_antisymm (head_not_below hd hc fun a => (e a).symm) (head_not_below hc hd e)
      have byte : c.2 = d.2 := by rw [← getCell_head c cs, e, place, getCell_head]
      simp only [Memory.wfFrom, Bool.and_eq_true, decide_eq_true_eq] at hc hd
      have tail : ∀ a, getCell cs a = getCell ds a := by
        intro a
        by_cases low : a < c.1 + 1
        · rw [getCell_below hc.2 low, getCell_below hd.2 (place ▸ low)]
        · have k := e a
          rwa [getCell, getCell, if_neg (by omega), if_neg (by omega)] at k
      rw [Prod.ext place byte, ih hc.2 (place ▸ hd.2) tail]

theorem Memory.ext_get {m n : Memory} (hm : m.wf = true) (hn : n.wf = true) (e : ∀ a, m.get a = n.get a) : m = n :=
  congrArg Memory.mk (cells_ext hm hn e)

/-- Settles O59: what a byte reads as after each write, the extensionality of canonical memories, and the laws of `setReg`. -/
theorem memoryLaws : Obligations.MemoryLaws := by
  refine ⟨fun m h => ⟨fun a b => ⟨Memory.put_wf h a b, ?_, fun x hx => ?_⟩, fun a bs => ⟨Memory.write_wf h a bs, fun x => Memory.get_write h a x bs⟩,
    fun a d => ⟨Memory.putSector_wf h a d, fun x => Memory.get_putSector h a x d⟩, Memory.word_putWord h⟩, fun m n => Memory.ext_get,
    fun s off v h => ⟨regsOk_setReg h off v, ?_, fun o ho => ?_⟩⟩
  · rw [Memory.get_put h, if_pos rfl]
  · rw [Memory.get_put h, if_neg hx]
  · rw [State.reg_setReg h, if_pos rfl]
  · rw [State.reg_setReg h, if_neg ho]

end Sys2Proof.Machine
end

section
/-! Errors and the host's accesses (O54): an error in a vault line is claimed of every address, and fails at one that the exported window
serves. The line is poisoned under the address that the event names, while a read of that address looks at its home. -/

namespace Sys2Proof.Machine

/-- Reset's state with an exported window of one 64 KiB unit at unit 2; reset's own endpoint is 0. -/
def exportingUnit2 : State := State.reset.setReg offExpwin 0x8000000000020001

/-- The first fabric address of the own endpoint 0. -/
def fabricBase : Nat := 3 * 2 ^ 55

/-- RING of a routing table's entry is none of the registers whose value is not 0 there. -/
theorem exportingUnit2_reg (f : Nat) : exportingUnit2.reg (offFrt f 1) = 0 := by
  have above : 0x8000 < offFrt f 1 := by
    unfold offFrt
    omega
  have apart : offFrt f 1 ≠ 0xA000 ∧ offFrt f 1 ≠ offExpwin ∧ offFrt f 1 ≠ 0xA020 ∧ offFrt f 1 ≠ 0xA028 := by
    unfold offFrt offExpwin
    omega
  obtain ⟨plremap, expwin, pwrcap, therm⟩ := apart
  rw [exportingUnit2, State.reg_setReg (show regsOk State.reset from rfl), if_neg expwin]
  show regReset (offFrt f 1) = 0
  rw [regReset, if_neg (by omega), if_neg (by omega), if_neg plremap, if_neg pwrcap, if_neg therm]

theorem exportingUnit2_ringVa (f : Nat) : exportingUnit2.ringVa f = 0 := by
  rw [State.ringVa, State.regN, exportingUnit2_reg]
  rfl

/-- The error poisons the line of the address itself, not the line at 0x20000 that is its home, so the address does not read as poisoned. -/
theorem vaultLine_fabricBase : ∃ t, exec (.softError (.vaultLine fabricBase)) exportingUnit2 = .next t ∧ t.gpoison = [fabricBase] ∧
    t.poisoned .glob fabricBase = false :=
  ⟨(exportingUnit2.setPoison .glob fabricBase).softLine 5 (alignDown fabricBase 128), rfl, by decide +kernel, by decide +kernel⟩

/-- Refutes O54: in a state without an event ring, an uncorrectable error in the vault line of an address that the device's own exported window
serves does not poison that address. -/
theorem not_errorsAndHostAccess : ¬ Obligations.ErrorsAndHostAccess := by
  intro h
  obtain ⟨_, _, vaultLine, _⟩ := h exportingUnit2 exportingUnit2_ringVa
  obtain ⟨t, stepped, poisoned, _⟩ := vaultLine fabricBase
  obtain ⟨u, stepped', _, clean⟩ := vaultLine_fabricBase
  obtain rfl : t = u := by
    rw [stepped] at stepped'
    exact Host.Outcome.next.inj stepped'
  rw [clean] at poisoned
  exact Bool.noConfusion poisoned

end Sys2Proof.Machine
end

section
/-! Lists: what stands in a sorted list and what is first there, and the indices of the groups that satisfy a condition. -/

namespace Sys2Proof.Machine

/-! Sorted lists -/

section
variable {α : Type} {lt : α → α → Bool} {x : α}

theorem mem_insertBy {y z : α} : ∀ {l : List α}, z ∈ insertBy lt y l ↔ z = y ∨ z ∈ l
  | [] => by simp [insertBy]
  | a :: l => by
    rw [insertBy]
    split
    · exact List.mem_cons
    · rw [List.mem_cons, mem_insertBy, List.mem_cons]
      exact or_left_comm

theorem mem_sortBy {z : α} {l : List α} : z ∈ sortBy lt l ↔ z ∈ l := by
  have inserted : ∀ (l acc : List α), z ∈ l.foldl (fun acc y => insertBy lt y acc) acc ↔ z ∈ l ∨ z ∈ acc := by
    intro l
    induction l with
    | nil => simp
    | cons y l ih =>
      intro acc
      rw [List.foldl_cons, ih, mem_insertBy, List.mem_cons]
      tauto
  exact (inserted l []).trans (or_iff_left List.not_mem_nil)

/-- An element that goes before every other one stays first as others are inserted. -/
theorem insertBy_head_of_first {y : α} {l : List α} (hl : l.head? = some x) (hy : y = x ∨ lt y x = false) : (insertBy lt y l).head? = some x := by
  obtain ⟨l, rfl⟩ := List.head?_eq_some_iff.mp hl
  rw [insertBy]
  split
  next before =>
    rcases hy with rfl | hy
    · rfl
    · exact absurd before (by simp [hy])
  · rfl

/-- It comes first as it is inserted. -/
theorem insertBy_head_self {l : List α} (hl : ∀ y ∈ l, y = x ∨ lt x y = true) : (insertBy lt x l).head? = some x := by
  cases l with
  | nil => rfl
  | cons y l =>
    rw [insertBy]
    split
    · rfl
    next notBefore =>
      rcases hl y List.mem_cons_self with rfl | h
      · rfl
      · exact absurd h notBefore

theorem foldl_insertBy_head {l acc : List α} (hl : ∀ y ∈ l, y = x ∨ lt x y = true ∧ lt y x = false)
    (ha : acc.head? = some x ∨ x ∈ l ∧ ∀ y ∈ acc, y = x ∨ lt x y = true) :
    (l.foldl (fun acc y => insertBy lt y acc) acc).head? = some x := by
  induction l generalizing acc with
  | nil => exact ha.resolve_right (fun h => List.not_mem_nil h.1)
  | cons z l ih =>
    rw [List.foldl_cons]
    refine ih (fun y hy => hl y (List.mem_cons_of_mem _ hy)) ?_
    have hz := hl z List.mem_cons_self
    rcases ha with ha | ⟨hx, ha⟩
    · exact .inl (insertBy_head_of_first ha (hz.imp_right And.right))
    · rcases hz with rfl | ⟨before, after⟩
      · exact .inl (insertBy_head_self ha)
      · refine .inr ⟨(List.mem_cons.mp hx).resolve_left ?_, fun y hy => ?_⟩
        · rintro rfl
          exact absurd before (by simp [after])
        · rcases mem_insertBy.mp hy with rfl | hy
          · exact .inr before
          · exact ha y hy

/-- The element of a list that goes before every other one is the first of the sorted list. -/
theorem sortBy_head {l : List α} (hx : x ∈ l) (hl : ∀ y ∈ l, y = x ∨ lt x y = true ∧ lt y x = false) : (sortBy lt l).head? = some x :=
  foldl_insertBy_head hl (.inr ⟨hx, fun _ h => absurd h List.not_mem_nil⟩)

end

/-! The groups that satisfy a condition -/

theorem mem_positions {α : Type} {p : α → Bool} {i : Nat} : ∀ {l : List α} {n : Nat}, i ∈ positions p n l ↔ n ≤ i ∧ ∃ a, l[i - n]? = some a ∧ p a = true
  | [], n => by simp [positions]
  | a :: l, n => by
    have tail : i ∈ positions p (n + 1) l ↔ n < i ∧ ∃ b, (a :: l)[i - n]? = some b ∧ p b = true := by
      rw [mem_positions, Nat.succ_le_iff]
      refine and_congr_right fun h => ?_
      rw [show i - n = i - (n + 1) + 1 by omega, List.getElem?_cons_succ]
    rw [positions]
    by_cases h : i = n
    · subst h
      split <;> simp_all
    · split
      · rw [List.mem_cons, tail]
        grind
      · rw [tail]
        grind

theorem State.mem_grpsWhere {s : State} {p : Group → Bool} {gi : Nat} : gi ∈ s.grpsWhere p ↔ gi < s.groups.length ∧ p (s.grp gi) = true := by
  rw [State.grpsWhere, mem_positions, State.grp, List.getD_eq_getElem?_getD]
  by_cases h : gi < s.groups.length
  · simp [h]
  · simp [h]

end Sys2Proof.Machine
end

section
/-! The issue of a word (O16): what the beginning of a word at its clock gives, for every word that reaches its checks. -/

namespace Sys2Proof.Machine

/-- Flags raised one after another stand in the word that gathers them. -/
theorem getLsbD_foldl_flags (l : List (Nat × BitVec 6)) (f : W64) (j : Nat) :
    (l.foldl (fun x p => x ||| p.2.setWidth 64) f).getLsbD j = (f.getLsbD j || l.any (fun p => (p.2.setWidth 64).getLsbD j)) := by
  induction l generalizing f with
  | nil => simp
  | cons p l ih => rw [List.foldl_cons, ih, BitVec.getLsbD_or, List.any_cons, Bool.or_assoc]

/-- The flags of a group by clock t (R171): those it had, and those of the results that are readable then. -/
theorem Group.landed_flags (g : Group) (t j : Nat) : (g.landed t).flags.getLsbD j =
    (g.flags.getLsbD j || g.pendf.any (fun p => decide (p.1 ≤ t) && (p.2.setWidth 64).getLsbD j)) :=
  (getLsbD_foldl_flags _ g.flags j).trans (by rw [List.any_filter])

/-- A clause whose first word has issued keeps what it sampled then (R340). -/
theorem State.sample_of_sampled (s : State) (gi : Nat) {c : Clause} (u : Nat) (h : c.sampled = true) : s.sample gi c u = (c, s) := by
  rw [State.sample, if_pos h]

theorem State.clk_advance (s : State) (p t : Nat) : (s.advance p t).clk p = max (s.clk p) t := by
  rw [State.clk, State.advance, State.core_modCore, if_pos rfl]
  rfl

/-- The core of a word that has begun stands at the clock of its issue, or later. -/
theorem State.enterWord_clk (s : State) (gi k : Nat) (c0 : Clause) :
    (s.enterWord gi k c0).2.2.clk (s.grp gi).pkg = max (s.clk (s.grp gi).pkg) (s.enterWord gi k c0).1 := by
  rw [← State.clk_advance]
  exact congrArg (fun cores => (lookupD cores (s.grp gi).pkg Core.reset).clk) (State.sample_same ..).cores

/-- The clause of a word that has begun: with its guards sampled, unless its first word had issued before. -/
theorem State.enterWord_clause (s : State) (gi k : Nat) (c0 : Clause) : let c := (s.enterWord gi k c0).2.1
    c = { c0 with g0 := c.g0, g1 := c.g1, short0 := c.short0, short1 := c.short1 } ∧ (c0.sampled = true → c = c0) := by
  intro c
  obtain ⟨b0, b1, h0, h1, hc⟩ : ∃ b0 b1 h0 h1, c = { c0 with g0 := b0, g1 := b1, short0 := h0, short1 := h1 } := State.sample_clause ..
  exact ⟨by rw [hc], fun h => congrArg Prod.fst (State.sample_of_sampled _ gi _ h)⟩

/-- Settles O16: a word that reaches its checks has begun (`State.enterWord`), which moves its core's clock, writes what is readable, samples its
clause's guards, and leaves the rest. -/
theorem issueOfWord : Obligations.IssueOfWord := by
  intro i s c m h
  obtain ⟨c0, hc0, begun⟩ := h.begun
  have group := State.enterWord_grp (k := c.k) (c0 := c0) (State.lt_of_clause hc0)
  have elsewhere := s.enterWord_elsewhere c.gi c.k c0
  have clock := s.enterWord_clk c.gi c.k c0
  obtain ⟨clause, sampled⟩ := s.enterWord_clause c.gi c.k c0
  have at_ : (s.enterWord c.gi c.k c0).1 = s.issueClock c.gi c0 := rfl
  rw [begun] at group elsewhere clock clause sampled at_
  refine ⟨elsewhere, ?_, ?_, ?_, ?_, ?_, ?_, ?_, ?_, ?_, clock, c0, hc0, ?_, at_, clause, sampled⟩
  all_goals rw [group]
  case refine_9 => exact Group.landed_flags _ _
  all_goals rfl

end Sys2Proof.Machine
end

section
/-! Scheduling (O44): whom an order puts first, and what choosing a run, starting a clause, and entering or leaving the active set change. -/

namespace Sys2Proof.Machine

/-- In the order of R32 the group of highest priority comes first. -/
theorem State.inTurn_head {s : State} {gi : Nat} {l : List Nat} (last : Nat) (hg : gi ∈ l) (hl : ∀ j ∈ l, j ≠ gi → (s.grp j).prio < (s.grp gi).prio) :
    (s.inTurn last l).head? = some gi := by
  refine sortBy_head hg fun j hj => or_iff_not_imp_left.mpr fun ne => ?_
  have higher := hl j hj ne
  simp [higher, not_lt.mpr higher.le, higher.ne]

/-! The issue slot -/

/-- The group inside a clause that R32 puts first has the issue slot. -/
theorem execIssueSlotGrant_of_head {s : State} {gi pkg q : Nat}
    (h : (s.inTurn (s.quarter pkg q).rrIssue ((s.inQuarter pkg q).filter (fun g => s.mayIssue g))).head? = some gi) :
    exec (.issueSlotGrant pkg q) s = .next { s with cur := (s.nextClause gi).map (fun k => (gi, k)) } := by
  obtain ⟨_, first⟩ := List.head?_eq_some_iff.mp h
  show execIssueSlotGrant pkg q s = _
  simp only [execIssueSlotGrant, first]

/-! The start of a clause -/

/-- A group as the one run that it has selected starts (R206). -/
def Group.started (g : Group) (r : Run) (w : W64) : Group :=
  { g with clauses := [newClause r w g.emark (2 * (g.selNo + 1))], sel := [], selNo := g.selNo + 1, waiting := false }

/-- The one run selected starts, where its header is held, passes its checks, and its slots are clear. -/
theorem State.start_of_one {s : State} {gi : Nat} {r : Run} {w : W64} (sel : (s.grp gi).sel = [r]) (held : s.fetch gi r.addr.toNat = .word w s)
    (good : headerBad w = false) (place : r.pos ≤ bitsN w 59 56 + 1) (gathers : bitAt w 48 = true → r.lanes = (s.grp gi).live)
    (clear : (s.grp gi).waitMet w = true) (index : gi < s.groups.length) :
    (s.start gi).cur = some (gi, 0) ∧ (s.start gi).grp gi = (s.grp gi).started r w ∧ MemoryKept s (s.start gi) := by
  have passes : ¬ (headerBad w || decide (bitsN w 59 56 + 1 < r.pos)) = true := by simp [good, place]
  have whole : ¬ (bitAt w 48 && r.lanes != (s.grp gi).live) = true := by
    simp only [Bool.and_eq_true, bne_iff_ne, not_and, not_not]
    exact gathers
  simp only [State.start, sel, held]
  rw [if_neg passes, if_neg whole, if_neg (by simp [clear])]
  exact ⟨rfl, s.grp_modGrp_self (fun g => g.started r w) index, rfl, rfl, rfl⟩

/-! The choice of a run -/

/-- A group whose choice is made has selected the runs chosen, with its progress counter moved (R21); its registers are as they were. -/
theorem State.select_grp {s s1 : State} {gi : Nat} {r : Run} {p : Peek} {second : Option Run} {n : Nat} (h : s.choose gi = (.runs r p second n, s1))
    (index : gi < s1.groups.length) : let g := (s.select gi).grp gi
    g.sel = r :: second.toList ∧ g.progress = n ∧ g.v = (s1.grp gi).v ∧ g.s = (s1.grp gi).s := by
  simp only [State.select, h]
  rw [State.grp_modGrp_self _ _ index]
  exact ⟨rfl, rfl, rfl, rfl⟩

/-! The active set -/

/-- The group that R33 admits, of one that is ready alone. -/
theorem State.inTurn_one (s : State) (last gi : Nat) : s.inTurn last [gi] = [gi] := rfl

theorem State.admit_grp {s : State} {gi : Nat} (h : gi < s.groups.length) (j : Nat) :
    (s.admit_ gi).grp j = if j = gi then { s.grp gi with st := .active } else s.grp j := by
  show (s.modGrp gi (fun g => { g with st := .active })).grp j = _
  rw [State.grp_modGrp]
  grind

theorem State.lt_of_readyIn {s : State} {pkg q gi : Nat} (h : s.readyIn pkg q = [gi]) : gi < s.groups.length := by
  have ready : gi ∈ s.readyIn pkg q := by rw [h]; exact List.mem_singleton_self gi
  exact (State.mem_grpsWhere.mp (List.mem_filter.mp ready).1).1

/-- Settles O44: each event is enabled where the statement says so, and changes what the lemma about it says. -/
theorem clauseScheduling : Obligations.ClauseScheduling := by
  intro s gi pkg q
  refine ⟨fun inside may first => ?slot, fun r w index starts sel held good place gathers clear => ?start,
    fun r p second n s1 index may sel chosen same => ?choice, fun alone hpkg hqtr => ⟨fun room => ?admission, fun v full lowest hv lower between => ?displacement⟩,
    fun index active waits between long ready heldBack => ?demotion⟩
  case slot =>
    refine execIssueSlotGrant_of_head (State.inTurn_head _ (List.mem_filter.mpr ⟨inside, may⟩) fun j hj ne => ?_)
    obtain ⟨hj, mayJ⟩ := List.mem_filter.mp hj
    exact first j hj ne mayJ
  case start =>
    have stepped : exec (.clauseStart gi) s = .next (s.start gi) := by
      show execClauseStart gi s = _
      simp [execClauseStart, State.beginClause, starts, sel]
    obtain ⟨cursor, group, memory⟩ := State.start_of_one sel held good place gathers clear index
    exact ⟨_, stepped, cursor, (congrArg Group.sel group :), (congrArg Group.waiting group :), (congrArg Group.clauses group :), memory,
      (congrArg Group.v group :), (congrArg Group.s group :)⟩
  case choice =>
    have stepped : exec (.headerFetchFaultServiced gi) s = .next (s.select gi) := by
      show execHeaderFetchFaultServiced gi s = _
      simp [execHeaderFetchFaultServiced, may, sel]
    obtain ⟨runs, progress, v, sregs⟩ := State.select_grp chosen (same ▸ index)
    have group : s1.grp gi = s.grp gi := congrArg (fun gs => gs.getD gi Group.blank) same
    exact ⟨_, stepped, runs, progress, v.trans (congrArg Group.v group), sregs.trans (congrArg Group.s group)⟩
  case admission =>
    have index := State.lt_of_readyIn alone
    have stepped : exec (.admission pkg q) s = .next (s.admit_ gi) := by
      show execAdmission pkg q s = _
      simp [execAdmission, alone, State.inTurn_one, room]
    have group := State.admit_grp index gi
    rw [if_pos rfl] at group
    exact ⟨_, stepped, congrArg Group.st group, congrArg Group.others group, rfl, fun j ne => (State.admit_grp index j).trans (if_neg ne)⟩
  case displacement =>
    have index := State.lt_of_readyIn alone
    have stepped : exec (.admission pkg q) s = .next ((s.modGrp v Group.demote).admit_ gi) := by
      show execAdmission pkg q s = _
      simp [execAdmission, alone, State.inTurn_one, not_lt.mpr full, lowest, lower, between]
    have ne : v ≠ gi := by
      rintro rfl
      exact lt_irrefl _ lower
    have admitted := State.admit_grp (s := s.modGrp v Group.demote) (gi := gi) (by rwa [State.modGrp_length])
    have newcomer := (admitted gi).trans (if_pos rfl)
    have displaced := ((admitted v).trans (if_neg ne)).trans (s.grp_modGrp_self _ hv)
    exact ⟨_, stepped, congrArg Group.st newcomer, congrArg Group.st displaced, congrArg Group.sel displaced, rfl⟩
  case demotion =>
    have stepped : exec (.waitDemotion gi) s = .next (s.modGrp gi Group.demote) := by
      show execWaitDemotion gi s = _
      simp [execWaitDemotion, active, waits, between, long, ready, heldBack]
    have group := s.grp_modGrp_self Group.demote index
    exact ⟨_, stepped, (congrArg Group.st group :), (congrArg Group.sel group :), (congrArg Group.waiting group :), (congrArg Group.v group :),
      (congrArg Group.s group :), rfl⟩

end Sys2Proof.Machine
end

section
/-! Capacity and saving (O26): the pool of registers, what a write of the device leaves of a group that neither watches nor waits, and the save of a
group with nothing outstanding. -/

namespace Sys2Proof.Machine

/-! A performed word that is done -/

/-- A word that is done with state x, which touches neither its clause nor its place: registers and the rest stand as x has them, and it goes on. -/
theorem Performs.close_done {i : Instr} {s m x : State} {c : Ctx} (h : Performs i s c m) (leaves : Leaves c m x c.cl.taken c.cl.target) :
    let t := c.close (.done x)
    ((t.grp c.gi).v = (x.grp c.gi).v ∧ (t.grp c.gi).s = (x.grp c.gi).s ∧ (t.grp c.gi).flags = (x.grp c.gi).flags) ∧
      (t.grp c.gi).others = (x.grp c.gi).others ∧ Proceeds c m t c.cl.taken c.cl.target := by
  intro t
  have group : t.grp c.gi = _ := (c.close_done_grp x c.gi).trans (if_pos ⟨rfl, leaves.index⟩)
  obtain ⟨v, sregs, flags, -, -⟩ := (x.grp c.gi).wordDone_regs c.k c.t c.view.lay.anc.stall.toNat
  rw [group]
  exact ⟨⟨v, sregs, flags⟩, Group.wordDone_others .., Ctx.close_done_proceeds h.clause leaves fun _ => ⟨rfl, rfl⟩⟩

/-- A change of the word's group that touches neither its clauses nor its place. -/
theorem Performs.leaves {i : Instr} {s m : State} {c : Ctx} (h : Performs i s c m) (f : Group → Group)
    (hf : ∀ g, (f g).clauses = g.clauses ∧ (f g).pc = g.pc ∧ (f g).rpos = g.rpos ∧ (f g).emark = g.emark ∧ (f g).pkg = g.pkg ∧ (f g).qtr = g.qtr) :
    Leaves c m (m.modGrp c.gi f) c.cl.taken c.cl.target := by
  obtain ⟨clauses, place⟩ := hf (m.grp c.gi)
  exact .modGrp h.lt' f _ _ ⟨clauses.trans (setNth_getElem? _ _ _ h.clause).symm, place⟩

/-! The register pool (R45) -/

/-- Blocks that return to a pool change groups alone, and of these none that is not resident and none that does not wait on its pool. -/
theorem State.poolReturn_spec (s : State) (pkg q : Nat) : s.poolReturn pkg q = { s with groups := (s.poolReturn pkg q).groups } ∧
    (s.poolReturn pkg q).groups.length = s.groups.length ∧
    ∀ gi, ((s.grp gi).resident = false ∨ ∀ n, (s.grp gi).cond ≠ .pool n) → (s.poolReturn pkg q).grp gi = s.grp gi := by
  unfold State.poolReturn
  refine List.foldlRecOn (motive := fun (t : State) => t = { s with groups := t.groups } ∧ t.groups.length = s.groups.length ∧
    ∀ gi, ((s.grp gi).resident = false ∨ ∀ n, (s.grp gi).cond ≠ .pool n) → t.grp gi = s.grp gi) _ _ ⟨rfl, rfl, fun _ _ => rfl⟩ ?_
  rintro t ⟨shape, length, others⟩ j hj
  dsimp only
  split
  next n served =>
    split
    · refine ⟨?_, by rw [State.modGrp_length, length], fun gi hgi => ?_⟩
      · rw [shape]; rfl
      · rw [State.grp_modGrp_ne _ _ ?_, others gi hgi]
        rintro rfl
        obtain ⟨inside, waiting⟩ := List.mem_filter.mp (mem_sortBy.mp hj)
        have resident := (State.mem_grpsWhere.mp inside).2
        rcases hgi with gone | free
        · simp [gone] at resident
        · split at waiting
          next n pool => exact free n pool
          · exact absurd waiting (by decide)
    · exact ⟨shape, length, others⟩
  · exact ⟨shape, length, others⟩

theorem Leaves.poolReturn {c : Ctx} {m x : State} {taken : BitVec 64} {target : W64} (h : Leaves c m x taken target) (pkg q : Nat)
    (free : ∀ n, (x.grp c.gi).cond ≠ .pool n) : Leaves c m (x.poolReturn pkg q) taken target := by
  obtain ⟨shape, length, others⟩ := x.poolReturn_spec pkg q
  have group := others c.gi (.inr free)
  obtain ⟨index, clauses, place, home, quarters⟩ := h
  exact ⟨by rwa [length], by rwa [group], by rwa [group], by rwa [group], by rw [shape]; exact quarters⟩

/-! GROW and SHRINK (R43 to R45) -/

/-- What a GROW that is performed answers. -/
theorem Performs.exec_grow {o : IOps} {s m : State} {c : Ctx} (h : Performs (.grow o) s c m) : let g := m.grp c.gi; let n := o.imm.toNat
    exec (.grow o) s = .next (c.close (if 12 < g.blk + n then c.trap m .growLimit
      else if n ≤ m.freeBlocks g.pkg g.qtr then .done (m.modGrp c.gi (fun g => g.grown n))
      else .done (m.modGrp c.gi (fun g => { g with st := .pending, cond := .pool n, waiting := false })))) :=
  issueWord_performs h _

theorem Performs.grow_fits {o : IOps} {s m : State} {c : Ctx} (h : Performs (.grow o) s c m) (small : (m.grp c.gi).blk + o.imm.toNat ≤ 12)
    (fits : o.imm.toNat ≤ m.freeBlocks (m.grp c.gi).pkg (m.grp c.gi).qtr) : ∃ t, exec (.grow o) s = .next t ∧
      (t.grp c.gi).v = (m.grp c.gi).v ++ List.replicate (16 * o.imm.toNat) VReg.zero ∧ (t.grp c.gi).s = (m.grp c.gi).s ∧
      (t.grp c.gi).flags = (m.grp c.gi).flags ∧
      Changes c.gi m t (fun g => { g with blk := g.blk + o.imm.toNat, blkLost := false }) (fun s => s) ∧ Proceeds c m t c.cl.taken c.cl.target := by
  have leaves := h.leaves (fun g => g.grown o.imm.toNat) fun _ => ⟨rfl, rfl, rfl, rfl, rfl, rfl⟩
  obtain ⟨⟨v, sregs, flags⟩, -, goes⟩ := h.close_done leaves
  have changes := Ctx.close_done_changes leaves.index
    (Changes.modGrp h.lt' (fun g => g.grown o.imm.toNat) (fun g => { g with blk := g.blk + o.imm.toNat, blkLost := false }) rfl)
  rw [State.grp_modGrp_self _ _ h.lt'] at v sregs flags
  refine ⟨_, h.exec_grow, ?_⟩
  rw [if_neg (not_lt.mpr small), if_pos fits]
  exact ⟨v, sregs, flags, changes, goes⟩

theorem Performs.grow_waits {o : IOps} {s m : State} {c : Ctx} (h : Performs (.grow o) s c m) (small : (m.grp c.gi).blk + o.imm.toNat ≤ 12)
    (full : m.freeBlocks (m.grp c.gi).pkg (m.grp c.gi).qtr < o.imm.toNat) : ∃ t, exec (.grow o) s = .next t ∧
      Does c m t (fun g => { g with st := .pending, cond := .pool o.imm.toNat, waiting := false }) (fun s => s) := by
  let f := fun (g : Group) => { g with st := .pending, cond := .pool o.imm.toNat, waiting := false }
  have leaves := h.leaves f fun _ => ⟨rfl, rfl, rfl, rfl, rfl, rfl⟩
  refine ⟨_, h.exec_grow, ?_⟩
  rw [if_neg (not_lt.mpr small), if_neg (not_le.mpr full)]
  exact ⟨Ctx.close_done_kept leaves.index (.modGrp h.lt' f ⟨rfl, rfl, rfl, rfl, rfl⟩), Ctx.close_done_changes leaves.index (.modGrp h.lt' f f rfl),
    (h.close_done leaves).2.2⟩

theorem Performs.grow_limit {o : IOps} {s m : State} {c : Ctx} (h : Performs (.grow o) s c m) (large : 12 < (m.grp c.gi).blk + o.imm.toNat) :
    exec (.grow o) s = .next (m.trapWord c .growLimit 0 c.cl.wordAddr) := by
  rw [h.exec_grow, if_pos large]
  rfl

/-- A group with n blocks fewer, of which it keeps its first registers. -/
def Group.shrunk (g : Group) (n keep : Nat) : Group := { g with blk := g.blk - n, v := g.v.take keep, blkLost := false }

/-- Whether something outstanding targets a register that a SHRINK by n releases: its result, or the read of the window. -/
def Group.targetsReleased (g : Group) (n t : Nat) : Bool :=
  g.pendw.any (fun w => (isV w.reg && decide (16 * (g.blk - n) ≤ w.reg.toNat)) && decide (t < w.ready)) || g.draining ||
    g.ops.any (fun p => isV p.dest && decide (16 * (g.blk - n) < p.dest.toNat + p.span))

/-- What a SHRINK that is performed answers. -/
theorem Performs.exec_shrink {o : IOps} {s m : State} {c : Ctx} (h : Performs (.shrink o) s c m) : let g := m.grp c.gi; let n := o.imm.toNat
    exec (.shrink o) s = .next (c.close (if g.blk < n + 1 then c.trap m .illegal
      else if g.mm && decide (16 * (g.blk - n) < g.wbase + 64) then c.trap m .alias_
      else if g.targetsReleased n c.t then .hold m
      else .done ((m.modGrp c.gi (fun x => x.shrunk n (16 * (g.blk - n)))).poolReturn g.pkg g.qtr))) :=
  issueWord_performs h _

theorem Performs.shrink_to_none {o : IOps} {s m : State} {c : Ctx} (h : Performs (.shrink o) s c m) (none : (m.grp c.gi).blk < o.imm.toNat + 1) :
    exec (.shrink o) s = .next (m.trapWord c .illegal 0 c.cl.wordAddr) := by
  rw [h.exec_shrink, if_pos none]
  rfl

theorem Performs.shrink_window {o : IOps} {s m : State} {c : Ctx} (h : Performs (.shrink o) s c m) (some : o.imm.toNat < (m.grp c.gi).blk)
    (matrix : (m.grp c.gi).mm = true) (window : 16 * ((m.grp c.gi).blk - o.imm.toNat) < (m.grp c.gi).wbase + 64) :
    exec (.shrink o) s = .next (m.trapWord c .alias_ 0 c.cl.wordAddr) := by
  rw [h.exec_shrink, if_neg (by omega), if_pos (by simp [matrix, window])]
  rfl

theorem Group.targetsReleased_eq_false {g : Group} {n t : Nat} (drained : g.draining = false)
    (results : ∀ w ∈ g.pendw, isV w.reg = true → w.reg.toNat < 16 * (g.blk - n) ∨ w.ready ≤ t)
    (ops : ∀ p ∈ g.ops, isV p.dest = true → p.dest.toNat + p.span ≤ 16 * (g.blk - n)) : g.targetsReleased n t = false := by
  have noResult : g.pendw.any (fun w => (isV w.reg && decide (16 * (g.blk - n) ≤ w.reg.toNat)) && decide (t < w.ready)) = false := by
    rw [List.any_eq_false]
    intro w hw
    have := results w hw
    grind
  have noOp : g.ops.any (fun p => isV p.dest && decide (16 * (g.blk - n) < p.dest.toNat + p.span)) = false := by
    rw [List.any_eq_false]
    intro p hp
    have := ops p hp
    grind
  rw [Group.targetsReleased, noResult, noOp, drained]
  rfl

/-- A SHRINK that nothing holds back: the first registers stay, and the blocks that return may serve other groups, but not the group itself, which
does not wait on the pool. -/
theorem Performs.shrink_done {o : IOps} {s m : State} {c : Ctx} (h : Performs (.shrink o) s c m) (some : o.imm.toNat < (m.grp c.gi).blk)
    (window : (m.grp c.gi).mm = true → (m.grp c.gi).wbase + 64 ≤ 16 * ((m.grp c.gi).blk - o.imm.toNat))
    (idle : (m.grp c.gi).targetsReleased o.imm.toNat c.t = false) (free : (m.grp c.gi).cond = .none) :
    let keep := 16 * ((m.grp c.gi).blk - o.imm.toNat); let g := (m.grp c.gi).shrunk o.imm.toNat keep
    ∃ t, exec (.shrink o) s = .next t ∧ ((t.grp c.gi).v = g.v ∧ (t.grp c.gi).s = g.s ∧ (t.grp c.gi).flags = g.flags) ∧
      (t.grp c.gi).others = g.others ∧ t.outside = m.outside ∧ Proceeds c m t c.cl.taken c.cl.target := by
  intro keep g
  let x := m.modGrp c.gi (fun x => x.shrunk o.imm.toNat keep)
  have group : x.grp c.gi = g := m.grp_modGrp_self _ h.lt'
  have notWaiting : ∀ n, (x.grp c.gi).cond ≠ .pool n := by
    rw [group]
    intro n pool
    exact Cond.noConfusion (free.symm.trans pool)
  obtain ⟨shape, -, others⟩ := x.poolReturn_spec (m.grp c.gi).pkg (m.grp c.gi).qtr
  have leaves := (h.leaves (fun x => x.shrunk o.imm.toNat keep) fun _ => ⟨rfl, rfl, rfl, rfl, rfl, rfl⟩).poolReturn (m.grp c.gi).pkg
    (m.grp c.gi).qtr notWaiting
  obtain ⟨regs, rest, goes⟩ := h.close_done leaves
  rw [others c.gi (.inr notWaiting), group] at regs rest
  refine ⟨_, h.exec_shrink, ?_⟩
  rw [if_neg (by omega), if_neg (by simpa using window), if_neg (by simp [idle])]
  exact ⟨regs, rest, (c.close_done_elsewhere _).1.trans (congrArg State.outside shape :), goes⟩

/-! Writes of the device at device scope -/

/-- What a write at device scope leaves: the hub, how many groups there are, and a group that watches no sector and is not suspended. -/
structure WriteLeaves (gi : Nat) (s t : State) : Prop where
  hub    : t.hub = s.hub
  length : t.groups.length = s.groups.length
  group  : (s.grp gi).watch = [] → (s.grp gi).st ≠ .suspended → t.grp gi = s.grp gi

variable {s t u : State} {gi : Nat}

theorem WriteLeaves.refl (gi : Nat) (s : State) : WriteLeaves gi s s := ⟨rfl, rfl, fun _ _ => rfl⟩

theorem WriteLeaves.trans (h : WriteLeaves gi s t) (k : WriteLeaves gi t u) : WriteLeaves gi s u :=
  ⟨k.hub.trans h.hub, k.length.trans h.length, fun watch st => by
    have same := h.group watch st
    exact (k.group (same ▸ watch) (same ▸ st)).trans same⟩

theorem WriteLeaves.foldl {α : Type} {l : List α} {f : State → α → State} (s : State) (h : ∀ t, ∀ a ∈ l, WriteLeaves gi t (f t a)) :
    WriteLeaves gi s (l.foldl f s) :=
  List.foldlRecOn (motive := fun t => WriteLeaves gi s t) l f (.refl gi s) fun t ht a ha => ht.trans (h t a ha)

theorem WriteLeaves.ite {p : Prop} [Decidable p] (h : WriteLeaves gi s t) : WriteLeaves gi s (if p then t else s) := by
  split
  · exact h
  · exact .refl gi s

theorem State.hitWrite_leaves (layer : Nat) (by_ : Option Nat) (space : Space) (sector : Nat) (d : List (Option Byte)) :
    WriteLeaves gi s (s.hitWrite layer by_ space sector d) := by
  unfold State.hitWrite
  refine .foldl s fun t j _ => .ite ⟨rfl, State.modGrp_length .., fun watch _ => ?_⟩
  rw [State.grp_modGrp]
  split
  · rw [watch, List.map_nil, ← watch]
  · rfl

/-- A monitor's wake reaches suspended groups alone (R35). -/
theorem State.wakeMonitors_leaves (pa : Nat) : WriteLeaves gi s (s.wakeMonitors pa) := by
  unfold State.wakeMonitors
  refine List.foldlRecOn (motive := fun t => WriteLeaves gi s t) _ _ (.refl gi s) fun t ht j hj => ?_
  refine ⟨ht.hub, (State.modGrp_length ..).trans ht.length, fun watch st => ?_⟩
  have suspended := (State.mem_grpsWhere.mp hj).2
  have ne : gi ≠ j := by
    rintro rfl
    simp [st] at suspended
  exact (t.grp_modGrp_ne _ ne).trans (ht.group watch st)

theorem State.devWrite_leaves (sector : Nat) (d : List (Option Byte)) (by_ : Option Nat) :
    WriteLeaves gi s (s.devWrite .glob sector d by_ false) := by
  unfold State.devWrite
  split
  · exact .refl gi s
  · have hit : WriteLeaves gi s ((s.hitWrite 0 by_ .glob sector d).logWords sector d) :=
      (State.hitWrite_leaves 0 by_ .glob sector d).trans ⟨rfl, rfl, fun _ _ => rfl⟩
    refine (hit.trans ?_).trans (State.wakeMonitors_leaves sector)
    split
    · exact ⟨rfl, rfl, fun _ _ => rfl⟩
    · exact ⟨rfl, rfl, fun _ _ => rfl⟩

theorem State.devWriteBytes_leaves (p : Nat) (bs : List Byte) (by_ : Option Nat) : WriteLeaves gi s (s.devWriteBytes .glob p bs by_ false) :=
  .foldl s fun _ sector _ => State.devWrite_leaves sector _ by_

theorem State.entrySaved_leaves (func : Nat) (name : W64) (moving wp : Bool) (image : Nat) :
    WriteLeaves gi s (s.entrySaved func name moving wp image) := by
  unfold State.entrySaved
  split
  · exact .refl gi s
  · split
    · exact State.devWriteBytes_leaves ..
    · exact State.devWriteBytes_leaves ..

/-! The save of a group with nothing outstanding (R402) -/

theorem modifyNth_modifyNth {α : Type} (f f' : α → α) : ∀ (n : Nat) (l : List α),
    modifyNth f' n (modifyNth f n l) = modifyNth (fun x => f' (f x)) n l
  | _, [] => by simp [modifyNth]
  | 0, _ :: _ => rfl
  | n + 1, a :: l => congrArg (a :: ·) (modifyNth_modifyNth f f' n l)

theorem State.modGrp_modGrp (s : State) (gi : Nat) (f f' : Group → Group) : (s.modGrp gi f).modGrp gi f' = s.modGrp gi (fun g => f' (f g)) := by
  simp only [State.modGrp, modifyNth_modifyNth]

theorem State.modGrp_congr {f f' : Group → Group} (index : gi < s.groups.length) (h : f (s.grp gi) = f' (s.grp gi)) : s.modGrp gi f = s.modGrp gi f' := by
  have at_ : s.groups[gi]? = some (s.grp gi) := by
    rw [State.grp, List.getD_eq_getElem?_getD, List.getElem?_eq_getElem index]
    rfl
  rw [State.modGrp, State.modGrp, modifyNth_of_getElem? f _ _ _ at_, modifyNth_of_getElem? f' _ _ _ at_, h]

theorem State.haltLoss_idle (idle : (s.grp gi).ops = []) : s.haltLoss gi = s := by
  simp [State.haltLoss, idle]

/-- A group whose results are written and whose lines are checked (R402 steps 1 and 3). -/
def Group.checked (g : Group) : Group := { g.landAll with debt := [] }

/-- Settling, with what is owed set aside and then owed again (R402). -/
theorem State.settle_eq (s : State) (gi : Nat) : s.settle gi =
    let s0 := s.modGrp gi Group.checked
    let s1 := (s0.haltLoss gi).modGrp gi (fun g => { g with owedInteg := false })
    let s2 := ((s1.grp gi).ops.map Op.id).foldl (fun s id => (s.settleOp gi id).modGrp gi (fun g => { g with debt := [] })) s1
    let s3 := s2.modGrp gi (fun g => { g with owedInteg := (s0.grp gi).owedInteg || g.owedInteg })
    (s3, (s3.grp gi).ops.all Op.mayStay) := rfl

/-- With nothing outstanding a group settles at once: its results are written, its lines count as checked, and nothing is left to wait for. -/
theorem State.settle_idle (index : gi < s.groups.length) (idle : (s.grp gi).ops = []) : s.settle gi = (s.modGrp gi Group.checked, true) := by
  have group := s.grp_modGrp_self Group.checked index
  have ops : ((s.modGrp gi Group.checked).grp gi).ops = [] := by rw [group]; exact idle
  have checkedOps : (s.grp gi).checked.ops = [] := idle
  rw [State.settle_eq]
  dsimp only
  rw [State.haltLoss_idle ops]
  simp only [State.modGrp_modGrp, State.grp_modGrp_self _ _ index, checkedOps, List.map_nil, List.foldl_nil, List.all_nil, Bool.or_false]
  exact congrArg (·, true) (State.modGrp_congr index rfl)

theorem State.landReturned_idle (idle : (s.grp gi).ops = []) : s.landReturned gi = s := by
  rw [State.landReturned, idle, List.foldl_nil]

/-- A group put away as x, which neither watches nor is in a slot: the update of its entry and the return of its blocks do not reach it. -/
theorem State.putAway {x : Group} (index : gi < s.groups.length) (watch : x.watch = []) (st : x.st = .saved) (func : Nat) (name : W64)
    (moving wp : Bool) (image pkg q : Nat) : let t := ((s.setGrp gi x).entrySaved func name moving wp image).poolReturn pkg q
    t.groups.length = s.groups.length ∧ t.grp gi = x ∧ t.hub = s.hub := by
  intro t
  have put : (s.setGrp gi x).grp gi = x := s.grp_modGrp_self (fun _ => x) index
  have length : (s.setGrp gi x).groups.length = s.groups.length := s.modGrp_length gi (fun _ => x)
  have entry : WriteLeaves gi (s.setGrp gi x) ((s.setGrp gi x).entrySaved func name moving wp image) := State.entrySaved_leaves ..
  have kept := (entry.group (by rw [put, watch]) (by rw [put, st]; decide)).trans put
  obtain ⟨shape, same, others⟩ := ((s.setGrp gi x).entrySaved func name moving wp image).poolReturn_spec pkg q
  refine ⟨same.trans (entry.length.trans length), (others gi (.inl ?_)).trans kept, (congrArg State.hub shape :).trans entry.hub⟩
  rw [kept, Group.resident, st]

/-- A group's image written at its place, which the pool of images then holds, and its escrow with it (R399, R402). -/
def State.imageStored (s : State) (gi a : Nat) : State :=
  let t := s.devWriteBytes .glob a (s.imageBytes gi) none false
  { t with hub := { t.hub with images := t.hub.images ++ [((s.grp gi).func, a, alignUp (s.imageBytes gi).length 4096)] }
           escrow := t.escrow.filter (fun e => !(e.owner == gi && e.level == .group)) }

theorem State.imageStored_length (a : Nat) : (s.imageStored gi a).groups.length = s.groups.length := by
  have written : WriteLeaves gi s (s.devWriteBytes .glob a (s.imageBytes gi) none false) := State.devWriteBytes_leaves ..
  rw [State.imageStored, ← written.length]

theorem State.mem_imageStored (a : Nat) :
    ((s.grp gi).func, a, alignUp (s.imageBytes gi).length 4096) ∈ (s.imageStored gi a).hub.images :=
  List.mem_append_right _ (List.mem_singleton_self _)

/-- The seals of a group's own entries, which its record keeps. -/
def State.sealsOf (s : State) (gi : Nat) : List Nat := (s.escrow.filter (fun e => e.owner == gi && e.level == .group)).map Esc.sealId

/-- What YIELD's save of a group that has settled does, where its image finds room. -/
theorem State.saveGroup_settled {m : State} {a : Nat} (settled : s.settle gi = (m, true)) (landed : m.landReturned gi = m)
    (room : m.imageRoom (m.grp gi).func (alignUp (m.imageBytes gi).length 4096) = some a) : s.saveGroup gi false false =
      .done ((((m.imageStored gi a).setGrp gi ((m.grp gi).husk .saved a (m.sealsOf gi))).entrySaved (m.grp gi).func (m.grp gi).name false
        (m.grp gi).wakesAtSave a).poolReturn (m.grp gi).pkg (m.grp gi).qtr) := by
  unfold State.saveGroup
  simp only [settled, landed, Bool.not_true, Bool.false_eq_true, if_false]
  rw [room]
  rfl

/-- A group with nothing outstanding whose image finds room is saved: its record keeps who it is, and the pool holds its image at the place found. -/
theorem State.saveGroup_idle {a : Nat} (index : gi < s.groups.length) (idle : (s.grp gi).ops = []) :
    let m := s.modGrp gi Group.checked; let n := alignUp (m.imageBytes gi).length 4096
    m.imageRoom (m.grp gi).func n = some a → ∃ t, s.saveGroup gi false false = .done t ∧ t.groups.length = s.groups.length ∧
      t.grp gi = (m.grp gi).husk .saved a (m.sealsOf gi) ∧ ((m.grp gi).func, a, n) ∈ t.hub.images := by
  intro m n room
  have ops : (m.grp gi).ops = [] := by
    rw [s.grp_modGrp_self _ index]
    exact idle
  have length : (m.imageStored gi a).groups.length = s.groups.length := (State.imageStored_length a).trans (s.modGrp_length gi Group.checked)
  obtain ⟨same, group, hub⟩ := State.putAway (s := m.imageStored gi a) (x := (m.grp gi).husk .saved a (m.sealsOf gi)) (by rw [length]; exact index) rfl rfl
    (m.grp gi).func (m.grp gi).name false (m.grp gi).wakesAtSave a (m.grp gi).pkg (m.grp gi).qtr
  refine ⟨_, State.saveGroup_settled (State.settle_idle index idle) (State.landReturned_idle ops) room, same.trans length, group, ?_⟩
  rw [hub]
  exact State.mem_imageStored a

/-! YIELD (R244) -/

theorem Performs.yield_waits {o : VOps} {s m : State} {c : Ctx} (h : Performs (.yield o) s c m)
    (slots : (m.grp c.gi).ops.any (fun o => o.slot != 0) = true) : ∃ t, exec (.yield o) s = .next t ∧ Waits c m t :=
  h.holds (by rw [if_pos slots])

/-- What a YIELD that is performed answers where its slots are clear and the save of its group finds room: the word is done. -/
theorem Performs.exec_yield {o : VOps} {s m t : State} {c : Ctx} (h : Performs (.yield o) s c m) (idle : (m.grp c.gi).ops = [])
    (saved : (m.modGrp c.gi (fun g => { g.endClause c.cl with clauses := [] })).saveGroup c.gi false false = .done t) :
    exec (.yield o) s = .next (c.close (.done t)) := by
  refine (issueWord_performs h _).trans ?_
  dsimp only
  rw [idle, List.any_nil, if_neg Bool.false_ne_true, saved]

theorem Performs.yield_saves {o : VOps} {s m : State} {c : Ctx} {a : Nat} (h : Performs (.yield o) s c m) (idle : (m.grp c.gi).ops = []) :
    let m1 := (m.modGrp c.gi (fun g => { g.endClause c.cl with clauses := [] })).modGrp c.gi Group.checked
    let n := alignUp (m1.imageBytes c.gi).length 4096
    m1.imageRoom (m.grp c.gi).func n = some a → ∃ t, exec (.yield o) s = .next t ∧ (t.grp c.gi).st = .saved ∧ (t.grp c.gi).image = a ∧
      (t.grp c.gi).v = [] ∧ (t.grp c.gi).name = (m.grp c.gi).name ∧ (t.grp c.gi).cgen = (m.grp c.gi).cgen ∧
      ((m.grp c.gi).func, a, n) ∈ t.hub.images := by
  intro m1 n room
  let m0 := m.modGrp c.gi (fun g => { g.endClause c.cl with clauses := [] })
  have index : c.gi < m0.groups.length := (m.modGrp_length c.gi _).symm ▸ h.lt'
  have ended : m0.grp c.gi = { (m.grp c.gi).endClause c.cl with clauses := [] } := m.grp_modGrp_self _ h.lt'
  have checked : m1.grp c.gi = (m0.grp c.gi).checked := m0.grp_modGrp_self _ index
  have func : (m1.grp c.gi).func = (m.grp c.gi).func := by rw [checked, ended]; rfl
  have name : (m1.grp c.gi).name = (m.grp c.gi).name := by rw [checked, ended]; rfl
  have cgen : (m1.grp c.gi).cgen = (m.grp c.gi).cgen := by rw [checked, ended]; rfl
  rw [← func] at room
  obtain ⟨t, saved, length, group, image⟩ := State.saveGroup_idle index (by rw [ended]; exact idle) room
  have husk : (t.grp c.gi).others = ((m1.grp c.gi).husk .saved a (m1.sealsOf c.gi)).others := congrArg Group.others group
  have closed : (c.close (.done t)).grp c.gi = (t.grp c.gi).wordDone c.k c.t c.view.lay.anc.stall.toNat :=
    (c.close_done_grp t c.gi).trans (if_pos ⟨rfl, by rw [length]; exact index⟩)
  have others : ((c.close (.done t)).grp c.gi).others = ((m1.grp c.gi).husk .saved a (m1.sealsOf c.gi)).others := by
    rw [closed, Group.wordDone_others, husk]
  have regs := ((t.grp c.gi).wordDone_regs c.k c.t c.view.lay.anc.stall.toNat).1
  have hub : (c.close (.done t)).hub = t.hub := (congrArg State.hub (c.close_done_elsewhere t).1 :)
  refine ⟨_, h.exec_yield idle saved, congrArg Group.st others, congrArg Group.image others, ?_, (congrArg Group.name others).trans name,
    (congrArg Group.cgen others).trans cgen, ?_⟩
  · rw [closed, regs, group]; rfl
  · rw [hub, ← func]; exact image

/-- Settles O26, word by word: GROW with and without room and beyond its limit, SHRINK refused and done, YIELD held by its slots and done. -/
theorem capacityAndSaving : Obligations.CapacityAndSaving := by
  unfold Obligations.CapacityAndSaving
  refine ⟨fun o s c m => ?_, fun o s c m h => ⟨h.yield_waits, fun idle a room => h.yield_saves idle room⟩⟩
  intro g n
  refine ⟨fun h small => ⟨h.grow_fits small, h.grow_waits small⟩, fun h => h.grow_limit, fun h => h.shrink_to_none, fun h => h.shrink_window, ?_⟩
  intro h some window drained results ops free
  obtain ⟨t, runs, ⟨v, sregs, flags⟩, others, outside, goes⟩ :=
    h.shrink_done some window (Group.targetsReleased_eq_false drained results ops) free
  exact ⟨t, runs, v, congrArg Group.blk others, sregs, flags, others, outside, goes⟩

end Sys2Proof.Machine
end

section
/-! Grid barrier messages (O46): a state in which the recomputation of inherited priorities that ends a message's arrival wakes a group. -/

namespace Sys2Proof.Machine

/-- The place of a saved group's image. -/
def savedImage : Nat := 0x40000

/-- A group that waits at its team's barrier with priority 7. -/
def teamWaiter : Group := { Group.blank with st := .suspended, cond := .teamBarrier 0, prioBase := 7 }

/-- A saved group of the same team, which has not arrived there and has not yet been given the waiter's priority. -/
def savedLate : Group := { Group.blank with st := .saved, image := savedImage }

/-- A group of another launch that monitors the first line of the saved group's image. -/
def imageWatcher : Group := { Group.blank with st := .suspended, cond := .monitor savedImage savedImage 0, launch := 1 }

/-- The one group of a third launch, which waits at its grid barrier. -/
def gridWaiter : Group := { Group.blank with st := .suspended, cond := .gridBarrier 0, launch := 2 }

/-- A device with these four groups, the third launch's message under way. -/
def imageWatched : State :=
  { State.reset with groups := [teamWaiter, savedLate, imageWatcher, gridWaiter], hub := { State.reset.hub with barMsgs := [(2, 0, 0)] } }

/-- The message's arrival recomputes the inherited priorities; the saved group's rises to 7, so PRIO is written in its image (R52), and that write
wakes the group that monitors its line (R35). -/
theorem gridBarrierMessage_imageWatched :
    ∃ t, exec (.gridBarrierMessage 0) imageWatched = .next t ∧ (t.grp 1).prio = 7 ∧ (t.grp 2).st = .pending :=
  ⟨_, rfl, by decide +kernel, by decide +kernel⟩

/-- Refutes O46: its clause on grid barrier messages, which ranges over all states, lets a message change nothing of a group but its inherited
priority; in a state where a saved group's inherited priority is not up to date, a message also wakes the group that monitors its image. -/
theorem not_placementAndRestore : ¬ Obligations.PlacementAndRestore := by
  unfold Obligations.PlacementAndRestore
  rintro ⟨-, message, -⟩
  obtain ⟨t, stepped, -, kept, -⟩ := message imageWatched 0 2 0 0 rfl
  obtain ⟨u, stepped', -, woken⟩ := gridBarrierMessage_imageWatched
  obtain rfl : t = u := by
    rw [stepped] at stepped'
    exact Host.Outcome.next.inj stepped'
  have asleep : (t.grp 2).st = .suspended := congrArg Group.st (kept 2)
  rw [woken] at asleep
  exact GState.noConfusion asleep

end Sys2Proof.Machine
end

section
/-! Requests in flight (O47): a state that holds two requests under one number. A moving target's refusal sets each one's wait by the clock of that
one's own core, and the statement sets both by the clock of the one that was delivered. -/

namespace Sys2Proof.Machine

/-- A signal of core 0, numbered 0 and sent to a target whose location word says that it is moving (STATE 3). -/
def movingSignal : Req := ⟨0, .group 0 0, some 0, 0, 0, 0, .signal 0 0, .send, 3, 0, 0⟩

/-- Reset's state with core 0 one clock ahead of the hub, that signal, and one of the same number that no core has sent. -/
def sharedNumber : State := { State.reset.advance 0 1 with reqs := [movingSignal, { movingSignal with core := none }] }

/-- The first of the two is the one delivered, its target moves, and so both are refused (R71). -/
theorem sharedNumber_sent : sharedNumber.sent 0 = some movingSignal ∧ nState movingSignal.word0 = 3 := by decide +kernel

/-- The first waits until 256 clocks after its core's clock 1, the second until 256 clocks after the hub's clock 0. -/
theorem nameRequestDelivery_sharedNumber :
    ∃ t, exec (.nameRequestDelivery 0) sharedNumber = .next t ∧ t.reqs.map Req.resendAt = [257, 256] :=
  ⟨sharedNumber.refuse 0 true, rfl, by decide +kernel⟩

/-- Refutes O47: its clause on moving targets, which ranges over all states, makes every request of the delivered one's number wait by the clock of
the delivered one's core; where two requests of different cores share a number, the model makes each wait by its own core's clock. -/
theorem not_requestEvents : ¬ Obligations.RequestEvents := by
  unfold Obligations.RequestEvents
  intro h
  obtain ⟨-, moving, -⟩ := h sharedNumber 0 movingSignal
  obtain ⟨sent, state⟩ := sharedNumber_sent
  obtain ⟨t, stepped, waits⟩ := nameRequestDelivery_sharedNumber
  have claimed := (moving 0 0 sent state rfl).symm.trans stepped
  rw [← Host.Outcome.next.inj claimed] at waits
  exact absurd waits (by decide +kernel)

end Sys2Proof.Machine
end

section
/-! Stores (O34): what a group sees at a place once bytes have been put into its escrow or its priv-level stores, and that others see what they saw. -/

namespace Sys2Proof.Machine

/-- The newest byte is the first that is found from the newest entry on. -/
theorem newestByte_eq (es : List Esc) (f : Esc → Bool) (space : Space) (p : Nat) :
    newestByte es f space p = es.reverse.findSome? (fun e => if f e then e.byte space p else none) := by
  induction es using List.reverseRecOn with
  | nil => rfl
  | append_singleton es e ih =>
    rw [newestByte, List.foldl_append, List.foldl_cons, List.foldl_nil, ← newestByte, ih, List.reverse_append, List.reverse_singleton,
      List.singleton_append, List.findSome?_cons]
    by_cases h : f e
    · rw [if_pos h, if_pos h]
      cases e.byte space p <;> rfl
    · rw [if_neg h, if_neg h]

theorem newestByte_concat (es : List Esc) (e : Esc) (f : Esc → Bool) (space : Space) (p : Nat) :
    newestByte (es ++ [e]) f space p = (if f e then e.byte space p else none).or (newestByte es f space p) := by
  rw [newestByte_eq, newestByte_eq, List.reverse_append, List.reverse_singleton, List.singleton_append, List.findSome?_cons]
  cases if f e then e.byte space p else none <;> rfl

theorem newestByte_map (es : List Esc) (m : Esc → Esc) (f : Esc → Bool) (space : Space) (p : Nat) :
    newestByte (es.map m) f space p = es.reverse.findSome? (fun e => if f (m e) then (m e).byte space p else none) := by
  rw [newestByte_eq, ← List.map_reverse, List.findSome?_map]
  rfl

/-- Where some entry gives a byte and no entry another one, that byte is seen. -/
theorem findSome?_only {α β : Type} {g : α → Option β} {b : β} {l : List α} (only : ∀ a ∈ l, g a = none ∨ g a = some b)
    (gives : ∃ a ∈ l, g a = some b) : l.findSome? g = some b := by
  cases h : l.findSome? g with
  | none =>
    obtain ⟨a, ha, e⟩ := gives
    rw [List.findSome?_eq_none_iff.mp h a ha] at e
    exact e
  | some c =>
    obtain ⟨a, ha, e⟩ := List.exists_of_findSome?_eq_some h
    rcases only a ha with n | n
    · rw [n] at e; exact absurd e (by simp)
    · rw [← n, e]

/-- The last byte that a list of writes puts at a place. -/
def lastWrite (ws : List (Nat × Byte)) (p : Nat) : Option Byte := (ws.reverse.find? (fun w => w.1 == p)).map Prod.snd

theorem lastWrite_append (ws ws' : List (Nat × Byte)) (p : Nat) : lastWrite (ws ++ ws') p = (lastWrite ws' p).or (lastWrite ws p) := by
  rw [lastWrite, List.reverse_append, List.find?_append, Option.map_or]
  rfl

theorem lastWrite_singleton (p q : Nat) (b : Byte) : lastWrite [(p, b)] q = if p = q then some b else none := by
  rw [lastWrite, List.reverse_singleton, List.find?_singleton]
  by_cases h : p = q <;> simp [h]

/-- The entries of a group at one level, in its own view. -/
def ownAt (gi : Nat) (level : Level) (e : Esc) : Bool := e.level == level && e.owner == gi

/-- No entry of a group is covered by a commit. -/
def Uncovered (gi : Nat) (es : List Esc) : Prop := ∀ e ∈ es, e.owner = gi → e.sealId = 0

/-- Writes of a group at one level that no commit covers: it sees the last of them over what it saw, and views without its entries see what they saw. -/
structure Stores (gi : Nat) (level : Level) (space : Space) (ws : List (Nat × Byte)) (es es' : List Esc) : Prop where
  uncovered : Uncovered gi es → Uncovered gi es'
  seen : Uncovered gi es → ∀ p, newestByte es' (ownAt gi level) space p = (lastWrite ws p).or (newestByte es (ownAt gi level) space p)
  others : ∀ f : Esc → Bool, (∀ e, f e = true → e.owner ≠ gi) → ∀ space p, newestByte es' f space p = newestByte es f space p

variable {gi : Nat} {level : Level} {space : Space} {ws ws' : List (Nat × Byte)} {es es' es'' : List Esc}

theorem Stores.refl (gi : Nat) (level : Level) (space : Space) (es : List Esc) : Stores gi level space [] es es :=
  ⟨id, fun _ _ => rfl, fun _ _ _ _ => rfl⟩

theorem Stores.trans (h : Stores gi level space ws es es') (k : Stores gi level space ws' es' es'') : Stores gi level space (ws ++ ws') es es'' :=
  ⟨fun u => k.uncovered (h.uncovered u), fun u p => by rw [k.seen (h.uncovered u), h.seen u, lastWrite_append, Option.or_assoc],
    fun f hf sp p => (k.others f hf sp p).trans (h.others f hf sp p)⟩

/-- The byte of an entry at a place of its sector. -/
theorem Esc.byte_eq (e : Esc) (space : Space) (p : Nat) :
    e.byte space p = if e.space = space ∧ e.sector = sectorOf p then e.data.getD (p - e.sector) none else none := rfl

theorem sub_sectorOf_lt (p : Nat) : p - sectorOf p < 32 := by
  unfold sectorOf alignDown
  have := Nat.mod_lt p (show 32 > 0 by decide)
  omega

theorem sectorOf_le (p : Nat) : sectorOf p ≤ p := Nat.sub_le ..

/-- Whether an entry is the one into which a store of a group, which no commit covers, merges a byte at a place (R93). -/
def mergesInto (gi : Nat) (level : Level) (space : Space) (p : Nat) (e : Esc) : Bool :=
  e.owner == gi && e.level == level && e.space == space && e.sector == sectorOf p && e.sealId == 0

/-- Such an entry with the byte merged into it. -/
def Esc.merge (e : Esc) (p : Nat) (b : Byte) (after : List Nat) : Esc :=
  { e with
    data := (List.range 32).map (fun k => if k = p - e.sector then some b else e.data.getD k none)
    after := e.after ++ after.filter (fun o => !e.after.contains o) }

theorem Esc.merge_byte {e : Esc} {p : Nat} {b : Byte} (h : mergesInto gi level space p e = true) (after : List Nat) (q : Nat) :
    (e.merge p b after).byte space q = if p = q then some b else e.byte space q := by
  simp only [mergesInto, Bool.and_eq_true, beq_iff_eq] at h
  obtain ⟨⟨⟨⟨-, -⟩, sp⟩, sec⟩, -⟩ := h
  rw [Esc.byte_eq, Esc.byte_eq]
  simp only [Esc.merge, sp, true_and]
  by_cases hs : e.sector = sectorOf q
  · have low : q - e.sector < 32 := by rw [hs]; exact sub_sectorOf_lt q
    have lp := sectorOf_le p
    have lq := sectorOf_le q
    rw [if_pos hs, if_pos hs, getD_range_map, if_pos low]
    exact if_congr (by omega) rfl rfl
  · rw [if_neg hs, if_neg hs, if_neg]
    rintro rfl
    exact hs sec

/-- A new entry holds the one byte that it was taken for. -/
theorem Esc.byte_of_one (va : Nat) (p : Nat) (b : Byte) (after : List Nat) (pool : Bool) (q : Nat) :
    Esc.byte ⟨gi, level, space, sectorOf p, va, oneByte (p - sectorOf p) b, 0, false, after, pool⟩ space q = if p = q then some b else none := by
  have low := sub_sectorOf_lt q
  have lp := sectorOf_le p
  have lq := sectorOf_le q
  rw [Esc.byte_eq]
  by_cases hs : sectorOf p = sectorOf q
  · rw [if_pos ⟨rfl, hs⟩, oneByte]
    dsimp only
    rw [getD_range_map, hs, if_pos low]
    exact if_congr (by omega) rfl rfl
  · rw [if_neg (fun h => hs h.2), if_neg]
    rintro rfl
    exact hs rfl

/-- A view that has no entry of the group sees what it saw. -/
theorem ownAt_of_merges {e : Esc} {p : Nat} (h : mergesInto gi level space p e = true) : ownAt gi level e = true ∧ e.owner = gi := by
  simp only [mergesInto, Bool.and_eq_true, beq_iff_eq] at h
  obtain ⟨⟨⟨⟨owner, lev⟩, -⟩, -⟩, -⟩ := h
  exact ⟨by simp [ownAt, owner, lev], owner⟩

theorem Stores.escPut (gi : Nat) (level : Level) (space : Space) (p va : Nat) (b : Byte) (after : List Nat) (pool : Bool) (es : List Esc) :
    Stores gi level space [(p, b)] es (escPut es gi level space p va b 0 after pool) := by
  show Stores gi level space [(p, b)] es (if es.any (mergesInto gi level space p)
    then es.map (fun e => if mergesInto gi level space p e then e.merge p b after else e)
    else es ++ [⟨gi, level, space, sectorOf p, sectorOf va, oneByte (p - sectorOf p) b, 0, false, after, pool⟩])
  split
  next merges =>
    have owner : ∀ e : Esc, (if mergesInto gi level space p e then e.merge p b after else e).owner = e.owner := fun e => by split <;> rfl
    have sealed : ∀ e : Esc, (if mergesInto gi level space p e then e.merge p b after else e).sealId = e.sealId := fun e => by split <;> rfl
    have views : ∀ e : Esc, ownAt gi level (if mergesInto gi level space p e then e.merge p b after else e) = ownAt gi level e :=
      fun e => by split <;> rfl
    refine ⟨fun u e he => ?_, fun u q => ?_, fun f hf sp q => ?_⟩
    · obtain ⟨x, hx, rfl⟩ := List.mem_map.mp he
      rw [owner, sealed]
      exact u x hx
    · rw [newestByte_map, lastWrite_singleton]
      by_cases hq : p = q
      · subst hq
        rw [if_pos rfl, Option.some_or]
        refine findSome?_only (fun e he => ?_) ?_
        · rw [views]
          by_cases own : ownAt gi level e
          · rw [if_pos own]
            by_cases m : mergesInto gi level space p e
            · rw [if_pos m, Esc.merge_byte m, if_pos rfl]
              exact .inr rfl
            · rw [if_neg m, Esc.byte_eq, if_neg]
              · exact .inl rfl
              · rintro ⟨sp, sec⟩
                simp only [ownAt, Bool.and_eq_true, beq_iff_eq] at own
                exact m (by simp [mergesInto, own, sp, sec, u e (List.mem_reverse.mp he) own.2])
          · rw [if_neg own]
            exact .inl rfl
        · obtain ⟨e, he, m⟩ := List.any_eq_true.mp merges
          exact ⟨e, List.mem_reverse.mpr he, by rw [views, if_pos (ownAt_of_merges m).1, if_pos m, Esc.merge_byte m, if_pos rfl]⟩
      · rw [if_neg hq, Option.none_or, newestByte_eq]
        congr 1
        funext e
        rw [views]
        by_cases m : mergesInto gi level space p e
        · rw [if_pos m, Esc.merge_byte m, if_neg hq]
        · rw [if_neg m]
    · rw [newestByte_map, newestByte_eq]
      congr 1
      funext e
      by_cases m : mergesInto gi level space p e
      · have out : ∀ x : Esc, x.owner = gi → ¬ f x = true := fun x hx h => hf x h hx
        have owner := (ownAt_of_merges m).2
        rw [if_pos m, if_neg (out (e.merge p b after) owner), if_neg (out e owner)]
      · rw [if_neg m]
  next none =>
    refine ⟨fun u e he => ?_, fun u q => ?_, fun f hf sp q => ?_⟩
    · rcases List.mem_append.mp he with he | he
      · exact u e he
      · rw [List.mem_singleton.mp he]
        exact fun _ => rfl
    · rw [newestByte_concat, lastWrite_singleton, if_pos (by simp [ownAt]), Esc.byte_of_one]
    · rw [newestByte_concat, if_neg (fun h => hf _ h rfl), Option.none_or]

/-- Bytes put one after another, whatever each entry takes over from the state of the fold. -/
theorem Stores.foldl {α β : Type} {f : β × List Esc → α → β × List Esc} {w : α → Nat × Byte} {l : List α} (r : β × List Esc)
    (h : ∀ r, ∀ a ∈ l, Stores gi level space [w a] r.2 (f r a).2) : Stores gi level space (l.map w) r.2 (l.foldl f r).2 := by
  induction l generalizing r with
  | nil => exact .refl ..
  | cons a l ih => exact (h r a List.mem_cons_self).trans (ih (f r a) fun r x hx => h r x (List.mem_cons_of_mem _ hx))

/-- The writes of a store: each lane's bytes at their places, lanes ascending. -/
def storeWrites (accs : List Acc) (data : List (List Byte)) : List (Nat × Byte) := accs.flatMap (fun a => a.place.zip (data.getD a.lane []))

theorem State.enter_stores (s : State) (gi : Nat) (level : Level) (space : Space) (accs : List Acc) (data : List (List Byte)) (va : Acc → Nat → Nat) :
    Stores gi level space (storeWrites accs data) s.escrow (s.enter gi level space 0 accs data va).escrow := by
  unfold State.enter storeWrites
  generalize s.escrow = es
  induction accs generalizing es with
  | nil => exact .refl ..
  | cons a accs ih =>
    rw [List.flatMap_cons]
    refine Stores.trans ?_ (ih _)
    have one := Stores.foldl (gi := gi) (level := level) (space := space) (l := a.place.zip (data.getD a.lane [])) (w := id) ((0 : Nat), es)
      (f := fun r x => (r.1 + 1, Machine.escPut r.2 gi level space x.1 (va a r.1) x.2 0 ((s.grp gi).pins space a.lane x.1) (decide (0 < s.poolRoom gi r.2))))
      fun r x _ => .escPut ..
    rwa [List.map_id] at one

theorem State.ownByte_eq (s : State) (gi : Nat) (space : Space) (p : Nat) : s.ownByte gi space p = newestByte s.escrow (ownAt gi .group) space p := rfl
theorem State.privByte_eq (s : State) (gi p : Nat) : s.privByte gi p = newestByte s.escrow (ownAt gi .priv) .glob p := rfl

/-- Settles O34: each byte put into escrow or the priv-level stores is then the group's own there, and in no other group's view. -/
theorem storesAreSeen : Obligations.StoresAreSeen := by
  intro m gi p space accs data va uncovered writes last seen t u
  have escrow : Stores gi .group space (storeWrites accs data) m.escrow t.escrow := m.enter_stores ..
  have priv : Stores gi .priv .glob (storeWrites accs data) m.escrow u.escrow := m.enter_stores ..
  have seenOver : ∀ before, seen before = (lastWrite (storeWrites accs data) p).or before := fun before => by
    show (match lastWrite (storeWrites accs data) p with
      | some b => some b
      | none => before) = _
    cases lastWrite (storeWrites accs data) p <;> rfl
  have foreign : ∀ (level : Level) (j : Nat), j ≠ gi → ∀ e, ownAt j level e = true → e.owner ≠ gi := by
    intro level j ne e h
    simp only [ownAt, Bool.and_eq_true, beq_iff_eq] at h
    exact h.2 ▸ ne
  refine ⟨?_, ?_, fun q => ⟨rfl, rfl⟩, fun j ne => ⟨?_, ?_⟩⟩
  · rw [seenOver, State.ownByte_eq, State.ownByte_eq]
    exact escrow.seen uncovered p
  · rw [seenOver, State.privByte_eq, State.privByte_eq]
    exact priv.seen uncovered p
  · exact escrow.others _ (foreign .group j ne) space p
  · exact priv.others _ (foreign .priv j ne) .glob p

end Sys2Proof.Machine
end

section
/-! What a write of the device leaves of every group: it may hit watches, wake a group, and leave findings; registers, operations, results under
way, debt and place stay. One lemma for each shared operation on the way from a write to an event's record. -/

namespace Sys2Proof.Machine

/-- A group without what a write of the device may change of it: its watch set, whether and on what it waits, its findings, and what it has acquired. -/
def Group.steady (g : Group) : Group :=
  { g with st := if g.resident then .active else g.st, cond := .none, watch := [], pages := [], acqSeq := 0 }

theorem Group.steady_resident (g : Group) : g.steady.resident = g.resident := by
  by_cases h : g.resident
  · rw [h, Group.steady, if_pos h]
    rfl
  · rw [Group.steady, if_neg h]
    rfl

/-- Every group is in t as it is in s, but for what a write of the device may change. -/
structure Steady (s t : State) : Prop where
  length : t.groups.length = s.groups.length
  group : ∀ j, (t.grp j).steady = (s.grp j).steady

variable {s t u : State}

theorem Steady.refl (s : State) : Steady s s := ⟨rfl, fun _ => rfl⟩

theorem Steady.trans (h : Steady s t) (k : Steady t u) : Steady s u :=
  ⟨k.length.trans h.length, fun j => (k.group j).trans (h.group j)⟩

/-- A state with the groups of one that is reached. -/
theorem Steady.regroup (h : Steady s t) (e : u.groups = t.groups := by rfl) : Steady s u :=
  h.trans ⟨congrArg List.length e, fun j => congrArg (fun gs : List Group => (gs.getD j Group.blank).steady) e⟩

theorem Steady.modGrp (h : Steady s t) {gi : Nat} {f : Group → Group} (hf : ∀ g, (f g).steady = g.steady) : Steady s (t.modGrp gi f) :=
  h.trans ⟨State.modGrp_length .., fun j => by
    rw [State.grp_modGrp]
    split
    · exact hf _
    · rfl⟩

theorem Steady.ite {p : Prop} [Decidable p] (h : Steady s t) (k : Steady s u) : Steady s (if p then t else u) := by
  split
  · exact h
  · exact k

theorem Steady.foldl {α : Type} {f : State → α → State} {l : List α} (h : Steady s t) (hf : ∀ u, ∀ a ∈ l, Steady u (f u a)) : Steady s (l.foldl f t) :=
  List.foldlRecOn (motive := fun u => Steady s u) l f h fun u hu a ha => hu.trans (hf u a ha)

/-! What it says of each part of a group -/

section
variable (h : Steady s t) (j : Nat)
include h

theorem Steady.v : (t.grp j).v = (s.grp j).v := (congrArg Group.v (h.group j) :)
theorem Steady.sregs : (t.grp j).s = (s.grp j).s := (congrArg Group.s (h.group j) :)
theorem Steady.ops : (t.grp j).ops = (s.grp j).ops := (congrArg Group.ops (h.group j) :)
theorem Steady.pendw : (t.grp j).pendw = (s.grp j).pendw := (congrArg Group.pendw (h.group j) :)
theorem Steady.flags : (t.grp j).flags = (s.grp j).flags := (congrArg Group.flags (h.group j) :)
theorem Steady.pkg : (t.grp j).pkg = (s.grp j).pkg := (congrArg Group.pkg (h.group j) :)
theorem Steady.func : (t.grp j).func = (s.grp j).func := (congrArg Group.func (h.group j) :)
theorem Steady.name : (t.grp j).name = (s.grp j).name := (congrArg Group.name (h.group j) :)
theorem Steady.debt : (t.grp j).debt = (s.grp j).debt := (congrArg Group.debt (h.group j) :)
theorem Steady.owedInteg : (t.grp j).owedInteg = (s.grp j).owedInteg := (congrArg Group.owedInteg (h.group j) :)
theorem Steady.resident : (t.grp j).resident = (s.grp j).resident := by
  rw [← Group.steady_resident, h.group, Group.steady_resident]

end

/-! Watches and wakes -/

theorem Group.steady_woken (g : Group) : (if g.st = .suspended then { g with st := .pending, cond := .none } else { g with cond := .none } : Group).steady = g.steady := by
  split
  next h => simp [Group.steady, Group.resident, h]
  next => rfl

theorem Steady.acquire (h : Steady s t) {gi scope : Nat} : Steady s (t.acquire gi scope) := by
  unfold State.acquire
  dsimp only
  have near : ∀ f, Steady s (t.mapNear f) := fun f => h.regroup
  exact .ite (.modGrp (.ite (near _) (.ite (near _) h)) fun _ => rfl) (.ite (near _) (.ite (near _) h))

theorem Steady.wake (h : Steady s t) {gi : Nat} {acq : Bool} : Steady s (t.wake gi acq) := by
  have woken := h.modGrp (gi := gi) Group.steady_woken
  exact .ite woken.acquire woken

theorem Steady.evalTills (h : Steady s t) {line : Nat} : Steady s (t.evalTills line) := by
  unfold State.evalTills
  refine h.foldl fun u gi _ => ?_
  split
  · exact .ite (Steady.refl u).wake (.refl u)
  · exact .refl u

theorem Steady.wakeMonitors (h : Steady s t) {pa : Nat} : Steady s (t.wakeMonitors pa) := h.foldl fun u _ _ => (Steady.refl u).wake

theorem Steady.hitWrite (h : Steady s t) {layer : Nat} {by_ : Option Nat} {space : Space} {sector : Nat} {d : List (Option Byte)} :
    Steady s (t.hitWrite layer by_ space sector d) := by
  unfold State.hitWrite
  exact h.foldl fun u _ _ => .ite ((Steady.refl u).modGrp fun _ => rfl) (.refl u)

/-! Writes -/

theorem Steady.landAt (h : Steady s t) {sector : Nat} {d : List (Option Byte)} : Steady s (t.landAt sector d) := by
  unfold State.landAt
  split
  · exact h.regroup
  · refine .ite h (Steady.wakeMonitors ?_)
    exact h.hitWrite.regroup

theorem Steady.egressFenced (h : Steady s t) {e : Egress} : Steady s (t.egressFenced e) := by
  have owed : Steady s (match e.owner with
      | some (gi, op) => t.modGrp gi (fun g => g.owePage op e.va (t.turnedCode e.sector 1))
      | none => t) := by
    split
    · exact h.modGrp fun _ => rfl
    · exact h
  exact .ite owed owed.regroup

theorem Steady.sendEgress (h : Steady s t) {e : Egress} : Steady s (t.sendEgress e) := .ite h (.ite h.egressFenced h.landAt)

theorem Steady.flushSector (h : Steady s t) {sector : Nat} : Steady s (t.flushSector sector) := by
  unfold State.flushSector State.sendEach
  exact h.foldl fun u _ _ => .ite (Steady.regroup (Steady.refl u)).sendEgress (.refl u)

theorem Steady.devWrite (h : Steady s t) {space : Space} {sector : Nat} {d : List (Option Byte)} {by_ : Option Nat} {sys : Bool} :
    Steady s (t.devWrite space sector d by_ sys) := by
  unfold State.devWrite
  refine .ite h ?_
  cases space with
  | tile => exact Steady.evalTills h.hitWrite.regroup
  | glob =>
    have logged : Steady s ((t.hitWrite 0 by_ .glob sector d).logWords sector d) := h.hitWrite.regroup
    exact Steady.wakeMonitors (.ite logged.regroup (.ite logged.flushSector.landAt logged.regroup))

theorem Steady.devWriteBytes (h : Steady s t) {space : Space} {p : Nat} {bs : List Byte} {by_ : Option Nat} {sys : Bool} :
    Steady s (t.devWriteBytes space p bs by_ sys) := h.foldl fun u _ _ => (Steady.refl u).devWrite

theorem Steady.rekey (h : Steady s t) {func : Nat} {space : Space} {ps : List Nat} : Steady s (t.rekey func space ps) := by
  unfold State.rekey
  split
  · exact h
  · refine h.foldl fun u b _ => ?_
    unfold State.rekeyBlock
    split
    · exact (Steady.refl u).regroup
    next f _ =>
      have flushed : Steady u (u.flushSector (sectorOf (16 * b))) := (Steady.refl u).flushSector
      exact .ite (.refl u) (flushed.regroup rfl)

/-! Translations and records of events -/

theorem Steady.finish (h : Steady s t) {die func pa access : Nat} {w x : Bool} {group : Option Nat} : Steady s (t.finish die func pa access w x group).2 := by
  have asked : Steady s (t.askAts die func pa access group) := .ite h h.regroup
  unfold State.finish
  dsimp only
  split
  · exact h
  split
  · exact h
  split
  · split <;> exact h
  · split <;> exact h
  · split
    · exact h
    split
    · exact h.regroup
    · exact asked
  · exact h

theorem Steady.hubTr (h : Steady s t) {die func va access : Nat} : Steady s (t.hubTr die func va access).2 := by
  unfold State.hubTr
  split
  · exact h
  · split
    · exact h
    · exact h
    · exact Steady.finish (h.foldl fun u _ _ => (Steady.refl u).devWriteBytes)

/-- The state of a write of the hub's. -/
def Put.state : Put → State
  | .done s | .hold s | .fail s => s

theorem Steady.hubPut (h : Steady s t) {func va : Nat} {bs : List Byte} {sys : Bool} : Steady s (t.hubPut func va bs sys).state := by
  have found := h.hubTr (die := 0) (func := func) (va := va) (access := accWrite)
  unfold State.hubPut
  split
  next pa s1 e =>
    rw [e] at found
    split
    · exact found
    · split
      · exact found
      · exact found.rekey.devWriteBytes
  next s1 e =>
    rw [e] at found
    exact found
  next s1 _ _ e =>
    rw [e] at found
    exact found

theorem Steady.hubGet (h : Steady s t) {func va n : Nat} {b : List Byte} (e : t.hubGet func va n = .ok (b, u)) : Steady s u := by
  have found := h.hubTr (die := 0) (func := func) (va := va) (access := accRead)
  unfold State.hubGet at e
  split at e
  next pa s1 k =>
    rw [k] at found
    split at e
    · cases e
      exact found
    · exact absurd e (by simp)
  next => exact absurd e (by simp)

theorem Steady.hubPost (h : Steady s t) {func va : Nat} {bs : List Byte} : Steady s (t.hubPost func va bs) := by
  have put := h.hubPut (func := func) (va := va) (bs := bs) (sys := true)
  unfold State.hubPost
  split
  next e =>
    rw [e] at put
    exact put
  next e =>
    rw [e] at put
    exact put.regroup
  next e =>
    rw [e] at put
    exact put

theorem Steady.writeRecord (h : Steady s t) {e : Event} : Steady s (t.writeRecord e).2 := by
  unfold State.writeRecord
  dsimp only
  split
  · exact h
  · split
    · exact h.regroup
    · exact h
    next cb s0 got =>
      have read := h.hubGet got
      split
      · exact h
      · have first := read.hubPut (func := e.func) (va := e.ring + 0x100 + 64 * ((s0.prod e.func + 1) % e.size))
          (bs := recordBytes e ((s0.prod e.func + 1) % 2 ^ 32)) (sys := true)
        split
        next s1 put =>
          rw [put] at first
          have second : Steady s (s1.hubPut e.func e.ring (bytesLE 8 (s0.prod e.func + 1)) true).state := Steady.hubPut first
          split
          next s2 put2 =>
            rw [put2] at second
            dsimp only
            split <;> exact Steady.regroup second
          · exact h.regroup
          · exact h
        · exact h.regroup
        · exact h

theorem Steady.flushList (h : Steady s t) {es : List Event} : Steady s (t.flushList es) := by
  induction es generalizing t with
  | nil => exact h
  | cons e es ih =>
    have written := h.writeRecord (e := e)
    unfold State.flushList
    dsimp only
    split
    · exact ih h.regroup
    · split
      next s1 k =>
        rw [k] at written
        exact ih (.ite written.regroup written)
      next s1 k =>
        rw [k] at written
        exact ih written.regroup

theorem Steady.raiseLog (h : Steady s t) {func cls : Nat} {payload : List W64} {group : W64} {waits : Option Nat} :
    Steady s (t.raiseLog func cls payload group waits) := by
  unfold State.raiseLog State.queueEvent State.flushEvents
  refine .ite h (.ite ?_ ?_)
  · exact Steady.hubPost h.regroup
  · exact Steady.flushList h.regroup

theorem Steady.integRecord (h : Steady s t) {gi source addr : Nat} : Steady s (t.integRecord gi source addr) := h.raiseLog

end Sys2Proof.Machine
end

section
/-! A group with one operation outstanding: nothing comes before it, its results land at once, and it ends with a status or with its slot alone. -/

namespace Sys2Proof.Machine

variable {s t : State} {gi : Nat} {o : Op}

theorem Alone.op (h : Alone s gi o) : (s.grp gi).op o.id = some o := by
  simp [Group.op, h.one]

/-- No operation comes before it. -/
theorem Alone.none_before (h : Alone s gi o) (p : Op → Bool) : (s.grp gi).ops.any (fun x => decide (x.id < o.id) && p x) = false := by
  simp [h.one]

theorem Alone.commitsBefore (h : Alone s gi o) : (s.grp gi).commitsBefore o.id = false := h.none_before _
theorem Alone.behindAcquire (h : Alone s gi o) : (s.grp gi).behindAcquire o.id = false := h.none_before _

theorem Alone.laneBefore (h : Alone s gi o) (space : Space) (a : Acc) : (s.grp gi).laneBefore o.id space a = false := by
  simp [Group.laneBefore, h.one]

theorem Alone.landed (h : Alone s gi o) (x : Op) : s.landed gi x = true := by
  simp [State.landed, h.settled]

/-- It is still alone after a write of the device. -/
theorem Alone.steady (h : Alone s gi o) (k : Steady s t) : Alone t gi o :=
  ⟨k.length ▸ h.index, (k.resident gi).trans h.resident, (k.ops gi).trans h.one, (k.pendw gi).trans h.settled⟩

theorem Group.setOp_one {g : Group} (one : g.ops = [o]) (f : Op → Op) : g.setOp o.id f = { g with ops := [f o] } := by
  simp [Group.setOp, one]

theorem Group.dropOp_one {g : Group} (one : g.ops = [o]) : g.dropOp o.id = { g with ops := [] } := by
  simp [Group.dropOp, one]

theorem Alone.grp_setOp (h : Alone s gi o) (f : Op → Op) : (s.modGrp gi (fun g => g.setOp o.id f)).grp gi = { s.grp gi with ops := [f o] } := by
  rw [State.grp_modGrp_self _ _ h.index, Group.setOp_one h.one]

/-- A change of its group that leaves residence and results under way. -/
theorem Alone.modGrp (h : Alone s gi o) {f : Group → Group} {o' : Op} (ops : (f (s.grp gi)).ops = [o']) (st : (f (s.grp gi)).st = (s.grp gi).st)
    (pendw : (f (s.grp gi)).pendw = (s.grp gi).pendw) : Alone (s.modGrp gi f) gi o' := by
  have group := s.grp_modGrp_self f h.index
  refine ⟨by rw [State.modGrp_length]; exact h.index, ?_, by rw [group, ops], by rw [group, pendw, h.settled]⟩
  rw [group, Group.resident, st]
  exact h.resident

theorem Alone.setOp (h : Alone s gi o) (f : Op → Op) : Alone (s.modGrp gi (fun g => g.setOp o.id f)) gi (f o) :=
  h.modGrp (by rw [Group.setOp_one h.one]) rfl rfl

/-- The end of an operation changes its group alone. -/
theorem Alone.endOp_grp (h : Alone s gi o) : (s.endOp gi o.id).grp gi = { s.grp gi with ops := [] } := by
  rw [State.endOp, State.grp_modGrp_self _ _ h.index, Group.dropOp_one h.one]

/-- A group whose operation has ended with a status (R217). -/
def Group.endedWith (g : Group) (d : RegCode) (x : W64) : Group := { (if isS d then g.setS d x else g) with ops := [] }

/-- The status of the one operation lands at once (R217, R342). -/
theorem Alone.endStatus (h : Alone s gi o) (x : W64) : s.endStatus gi o.id x = s.modGrp gi (fun g => g.endedWith o.dest x) := by
  have resident := h.resident
  have here : ((s.grp gi).st == .saved || (s.grp gi).st == .moving) = false := by
    unfold Group.resident at resident
    split at resident <;> simp_all
  have lands : s.landS gi o.dest x = s.modGrp gi (fun g => g.setS o.dest x) := by
    simp [State.landS, h.settled]
  unfold State.endStatus
  simp only [h.op, here, h.landed, lands, Bool.not_true, Bool.not_false, Bool.and_false, Bool.false_and, Bool.false_eq_true, if_false]
  by_cases d : isS o.dest = true
  · rw [d, if_neg (by simp), State.modGrp_modGrp]
    refine State.modGrp_congr h.index ?_
    rw [Group.endedWith, if_pos d]
    exact Group.dropOp_one h.one
  · rw [Bool.not_eq_true] at d
    rw [d, if_pos (by simp)]
    refine State.modGrp_congr h.index ?_
    rw [Group.endedWith, if_neg (by simp [d])]
    exact Group.dropOp_one h.one

theorem Group.endedWith_regs (g : Group) (d : RegCode) (x : W64) : (g.endedWith d x).ops = [] ∧
    (g.endedWith d x).s = (if isS d then setNth g.s (sNum d) x else g.s) ∧ (g.endedWith d x).v = g.v ∧ (g.endedWith d x).watch = g.watch := by
  cases h : isS d <;> simp [Group.endedWith, Group.setS, h]

/-- An operation that ends with its status, of a group whose registers are those of an earlier state. -/
theorem Alone.ended (h : Alone t gi o) (x : W64) (v : (t.grp gi).v = (s.grp gi).v) (sregs : (t.grp gi).s = (s.grp gi).s) :
    Ended s (t.endStatus gi o.id x) gi o.dest x := by
  obtain ⟨ops, sr, vr, -⟩ := (t.grp gi).endedWith_regs o.dest x
  rw [h.endStatus, Ended, State.grp_modGrp_self _ _ h.index, ops, sr, vr, v, sregs]
  exact ⟨rfl, rfl, rfl⟩

/-! Vector results -/

/-- A group with lanes of a vector register written by a result of an operation. -/
def Group.putV (g : Group) (n : Nat) (mask : BitVec 64) (vals : List W32) (tag : Tag) : Group :=
  g.setV n ⟨tag, putLanes (g.vreg n).lanes mask vals⟩

/-- With no result under way the lanes are written as they are, and the register has the result's tag (R292). -/
theorem State.landV_settled (index : gi < s.groups.length) (settled : (s.grp gi).pendw = []) (c : RegCode) (mask : BitVec 64) (vals : List W32) (tag : Tag) :
    s.landV gi c mask vals tag = s.modGrp gi (fun g => g.putV c.toNat mask vals tag) := by
  refine State.modGrp_congr index ?_
  dsimp only
  rw [settled, List.filter_nil, List.foldl_nil, if_pos (by rfl)]
  simp only [BitVec.not_zero, BitVec.and_allOnes, underPend]
  show ({ (s.grp gi).putV c.toNat mask vals tag with pendw := [] } : Group) = (s.grp gi).putV c.toNat mask vals tag
  rw [← settled]
  rfl

theorem Group.vreg_putV {g : Group} {n : Nat} (h : n < g.v.length) (mask : BitVec 64) (vals : List W32) (tag : Tag) (m : Nat) :
    (g.putV n mask vals tag).vreg m = if m = n then ⟨tag, putLanes (g.vreg n).lanes mask vals⟩ else g.vreg m := by
  unfold Group.putV Group.setV Group.vreg setNth
  rw [getD_modifyNth]
  by_cases k : m = n
  · rw [if_pos ⟨k, h⟩, if_pos k]
  · rw [if_neg (fun e => k e.1), if_neg k]

theorem Group.putV_length (g : Group) (n : Nat) (mask : BitVec 64) (vals : List W32) (tag : Tag) : (g.putV n mask vals tag).v.length = g.v.length :=
  modifyNth_length ..

/-- A lane of a register so written. -/
theorem lane_putLanes (tag : Tag) (old : List W32) (mask : BitVec 64) (vals : List W32) {i : Nat} (h : i < 64) :
    VReg.lane ⟨tag, putLanes old mask vals⟩ i = if mask.getLsbD i then vals.getD i 0 else old.getD i 0 := putLanes_getD old mask vals i h

end Sys2Proof.Machine
end

section
/-! Writes of the device that reach their place: what becomes of the memories and of both escrows, and what is as it was. -/

namespace Sys2Proof.Machine

/-- What a write of the device leaves of a state: all but its groups, near caches, memories, escrows, words that fetches may still see, and counters. -/
def State.still (s : State) : State :=
  { s with groups := [], cores := [], mem := ⟨[]⟩, tile := ⟨[]⟩, escrow := [], egress := [], wlog := [], freeCount := 0, seq := 0 }

/-- A core without its near cache. -/
def Core.calm (c : Core) : Core := { c with near := [] }

/-- A write of the device has given the memories and the escrows these contents; of the groups it has changed what `Steady` lets change. -/
structure Becomes (s t : State) (mem tile : Memory) (escrow : List Esc) (egress : List Egress) : Prop extends Steady s t where
  still : t.still = s.still
  cores : ∀ p, (t.core p).calm = (s.core p).calm
  mem : t.mem = mem
  tile : t.tile = tile
  escrow : t.escrow = escrow
  egress : t.egress = egress

variable {s t u : State} {m m' tl tl' : Memory} {es es' : List Esc} {eg eg' : List Egress}

theorem Becomes.refl (s : State) : Becomes s s s.mem s.tile s.escrow s.egress := ⟨.refl s, rfl, fun _ => rfl, rfl, rfl, rfl, rfl⟩

theorem Becomes.trans (h : Becomes s t m tl es eg) (k : Becomes t u m' tl' es' eg') : Becomes s u m' tl' es' eg' :=
  ⟨h.toSteady.trans k.toSteady, k.still.trans h.still, fun p => (k.cores p).trans (h.cores p), k.mem, k.tile, k.escrow, k.egress⟩

/-! What depends on nothing that a write changes -/

theorem Becomes.poisoned (h : Becomes s t m tl es eg) (space : Space) (p : Nat) : t.poisoned space p = s.poisoned space p := by
  cases space with
  | tile => exact (congrArg (fun s : State => s.poisoned .tile p) h.still :)
  | glob => exact (congrArg (fun s : State => s.poisoned .glob p) h.still :)

theorem Becomes.turnsAway (h : Becomes s t m tl es eg) (func p : Nat) : t.turnsAway func p = s.turnsAway func p :=
  (congrArg (fun s : State => s.turnsAway func p) h.still :)

theorem Becomes.servedAt (h : Becomes s t m tl es eg) (p : Nat) : t.servedAt p = s.servedAt p := (congrArg (fun s : State => s.servedAt p) h.still :)
theorem Becomes.absent (h : Becomes s t m tl es eg) : t.absent = s.absent := (congrArg State.absent h.still :)
theorem Becomes.hub (h : Becomes s t m tl es eg) : t.hub = s.hub := (congrArg State.hub h.still :)
theorem Becomes.out (h : Becomes s t m tl es eg) : t.out = s.out := (congrArg State.out h.still :)
theorem Becomes.reqs (h : Becomes s t m tl es eg) : t.reqs = s.reqs := (congrArg State.reqs h.still :)
theorem Becomes.opbuf (h : Becomes s t m tl es eg) : t.opbuf = s.opbuf := (congrArg State.opbuf h.still :)
theorem Becomes.gpoison (h : Becomes s t m tl es eg) : t.gpoison = s.gpoison := (congrArg State.gpoison h.still :)
theorem Becomes.queues (h : Becomes s t m tl es eg) (p : Nat) : (t.core p).queues = (s.core p).queues := (congrArg Core.queues (h.cores p) :)
theorem Becomes.lists (h : Becomes s t m tl es eg) (p : Nat) : (t.core p).lists = (s.core p).lists := (congrArg Core.lists (h.cores p) :)

/-! Watches and wakes -/

/-- Groups alone have changed, as far as `Steady` lets them. -/
structure Stirs (s t : State) : Prop extends Steady s t where
  only : t = { s with groups := t.groups }

theorem Stirs.refl (s : State) : Stirs s s := ⟨.refl s, rfl⟩

theorem Stirs.trans (h : Stirs s t) (k : Stirs t u) : Stirs s u := ⟨h.toSteady.trans k.toSteady, by rw [k.only, h.only]⟩

theorem Stirs.modGrp (s : State) (gi : Nat) {f : Group → Group} (hf : ∀ g, (f g).steady = g.steady) : Stirs s (s.modGrp gi f) :=
  ⟨(Steady.refl s).modGrp hf, rfl⟩

theorem Stirs.foldl {α : Type} {f : State → α → State} {l : List α} (s : State) (hf : ∀ u, ∀ a ∈ l, Stirs u (f u a)) : Stirs s (l.foldl f s) :=
  List.foldlRecOn (motive := fun u => Stirs s u) l f (.refl s) fun u hu a ha => hu.trans (hf u a ha)

theorem Stirs.ite {p : Prop} [Decidable p] (h : Stirs s t) : Stirs s (if p then t else s) := by
  split
  · exact h
  · exact .refl s

theorem State.wake_stirs (s : State) (gi : Nat) : Stirs s (s.wake gi false) := .modGrp s gi Group.steady_woken

theorem State.evalTills_stirs (s : State) (line : Nat) : Stirs s (s.evalTills line) := by
  unfold State.evalTills
  refine .foldl s fun u gi _ => ?_
  split
  · exact .ite (u.wake_stirs gi)
  · exact .refl u

theorem State.wakeMonitors_stirs (s : State) (pa : Nat) : Stirs s (s.wakeMonitors pa) := .foldl s fun u gi _ => u.wake_stirs gi

theorem State.hitWrite_stirs (s : State) (layer : Nat) (by_ : Option Nat) (space : Space) (sector : Nat) (d : List (Option Byte)) :
    Stirs s (s.hitWrite layer by_ space sector d) := by
  unfold State.hitWrite
  exact .foldl s fun u gi _ => .ite (.modGrp u gi fun _ => rfl)

theorem Stirs.becomes (h : Stirs s t) : Becomes s t s.mem s.tile s.escrow s.egress := by
  have only := h.only
  refine ⟨h.toSteady, ?_, fun p => ?_, ?_, ?_, ?_, ?_⟩ <;> rw [only] <;> rfl

/-- Groups that stir after a change. -/
theorem Becomes.stirs (h : Becomes s t m tl es eg) (k : Stirs t u) : Becomes s u m tl es eg := by
  obtain ⟨steady, still, cores, mem, tile, escrow, egress⟩ := k.becomes
  exact ⟨h.toSteady.trans steady, still.trans h.still, fun p => (cores p).trans (h.cores p), mem.trans h.mem, tile.trans h.tile,
    escrow.trans h.escrow, egress.trans h.egress⟩

/-- What near caches hold of it changes nothing else. -/
theorem State.core_mapNear (s : State) (f : Nat → List NearLine → List NearLine) (p : Nat) : ((s.mapNear f).core p).calm = (s.core p).calm := by
  unfold State.core State.mapNear
  induction s.cores with
  | nil => rfl
  | cons c cs ih =>
    simp only [List.map_cons, lookupD]
    split
    · rfl
    · exact ih

theorem Becomes.mapNear (h : Becomes s t m tl es eg) (f : Nat → List NearLine → List NearLine) : Becomes s (t.mapNear f) m tl es eg :=
  ⟨h.toSteady.regroup, h.still, fun p => (t.core_mapNear f p).trans (h.cores p), h.mem, h.tile, h.escrow, h.egress⟩

theorem Becomes.outdate (h : Becomes s t m tl es eg) (who : List Nat) (bs : List (Nat × Byte)) : Becomes s (t.outdate who bs) m tl es eg := h.mapNear _

theorem Becomes.logWords (h : Becomes s t m tl es eg) (sector : Nat) (d : List (Option Byte)) : Becomes s (t.logWords sector d) m tl es eg :=
  ⟨h.toSteady.regroup, h.still, h.cores, h.mem, h.tile, h.escrow, h.egress⟩

theorem Becomes.withMem (h : Becomes s t m tl es eg) (m' : Memory) : Becomes s { t with mem := m' } m' tl es eg :=
  ⟨h.toSteady.regroup, h.still, h.cores, rfl, h.tile, h.escrow, h.egress⟩

theorem Becomes.withTile (h : Becomes s t m tl es eg) (m' : Memory) : Becomes s { t with tile := m' } m m' es eg :=
  ⟨h.toSteady.regroup, h.still, h.cores, h.mem, rfl, h.escrow, h.egress⟩

theorem Becomes.withEscrow (h : Becomes s t m tl es eg) (es' : List Esc) : Becomes s { t with escrow := es' } m tl es' eg :=
  ⟨h.toSteady.regroup, h.still, h.cores, h.mem, h.tile, rfl, h.egress⟩

theorem Becomes.withEgress (h : Becomes s t m tl es eg) (eg' : List Egress) : Becomes s { t with egress := eg' } m tl es eg' :=
  ⟨h.toSteady.regroup, h.still, h.cores, h.mem, h.tile, h.escrow, rfl⟩

/-! Regions -/

/-- The bytes of an aligned block of a power of two up to 2^55 lie in one region (R376). -/
theorem regionOf_add {p n k : Nat} (aligned : p % n = 0) (inside : k < n) (power : n ∣ 2 ^ 55) : regionOf (p + k) = regionOf p := by
  obtain ⟨b, rfl⟩ := Nat.dvd_of_mod_eq_zero aligned
  obtain ⟨c, hc⟩ := power
  have block : (n * b + k) / n = b := by
    rw [Nat.mul_add_div (by omega), Nat.div_eq_of_lt inside, Nat.add_zero]
  have whole : n * b / n = b := Nat.mul_div_cancel_left b (by omega)
  have same : (n * b + k) / 2 ^ 55 = n * b / 2 ^ 55 := by rw [hc, ← Nat.div_div_eq_div_mul, ← Nat.div_div_eq_div_mul, block, whole]
  rw [regionOf, regionOf, natBits, natBits, Nat.shiftRight_eq_div_pow, Nat.shiftRight_eq_div_pow, same]

theorem alignDown_mod (p n : Nat) : alignDown p n % n = 0 := by
  rw [alignDown, ← Nat.div_mul_self_eq_mod_sub_self, Nat.mul_mod_left]

theorem alignDown_add_mod (p n : Nat) : alignDown p n + p % n = p := Nat.sub_add_cancel (Nat.mod_le p n)

theorem alignDown_eq (p n : Nat) : alignDown p n = p / n * n := (Nat.div_mul_self_eq_mod_sub_self).symm

theorem regionOf_alignDown (p : Nat) {n : Nat} (h : 0 < n) (power : n ∣ 2 ^ 55) : regionOf (alignDown p n) = regionOf p := by
  have k := regionOf_add (alignDown_mod p n) (Nat.mod_lt p h) power
  rw [alignDown_add_mod] at k
  exact k.symm

theorem State.servedAt_of_region {p : Nat} (s : State) (h : regionOf p ≠ 3) : s.servedAt p = none := by
  simp [State.servedAt, h]

theorem State.home_of_region {p : Nat} (s : State) (h : regionOf p ≠ 3) : s.home p = p := by
  rw [State.home, s.servedAt_of_region h]
  rfl

theorem State.keyOf_of_region {p : Nat} (s : State) (h : regionOf p ≠ 1) : s.keyOf p = none := if_neg h

/-- A byte of device DRAM or of the host that the egress escrow does not hold is the memory's, for every world. -/
theorem State.devByte_of_region {p : Nat} (s : State) (empty : s.egress = []) (h : regionOf p ≠ 3) : s.devByte .glob p = s.mem.get p := by
  simp [State.devByte, empty, egressByte, s.home_of_region h]

theorem State.seenByte_of_region {p : Nat} (s : State) (func : Nat) (empty : s.egress = []) (h1 : regionOf p ≠ 1) (h3 : regionOf p ≠ 3) :
    s.seenByte func p = s.mem.get p := by
  simp [State.seenByte, s.keyOf_of_region h1, s.devByte_of_region empty h3]

/-- Only CXL-attached memory comes under a world's key (R397). -/
theorem State.rekey_of_region (s : State) (func : Nat) (space : Space) {ps : List Nat} (h : ∀ p ∈ ps, regionOf p ≠ 1) : s.rekey func space ps = s := by
  have none : ps.filter (fun p => regionOf p == 1) = [] := List.filter_eq_nil_iff.mpr fun p hp => by simpa using h p hp
  unfold State.rekey
  split
  · rfl
  · rw [none]
    rfl

theorem State.rekey_tile (s : State) (func : Nat) (ps : List Nat) : s.rekey func .tile ps = s := rfl

/-! One sector written -/

theorem positions_isSome_eq_nil {α : Type} : ∀ (d : List (Option α)) (n : Nat), positions Option.isSome n d = [] ↔ ∀ k, d.getD k none = none
  | [], n => by simp [positions]
  | none :: d, n => by
    rw [positions, if_neg (by simp), positions_isSome_eq_nil d (n + 1)]
    exact ⟨fun h k => by cases k with
      | zero => rfl
      | succ k => exact h k, fun h k => h (k + 1)⟩
  | some x :: d, n => by
    rw [positions, if_pos (by rfl)]
    exact ⟨fun h => absurd h (by simp), fun h => absurd (h 0) (by simp)⟩

/-- Whether a sector's data enables no byte. -/
theorem enabled_isEmpty {d : List (Option Byte)} : (enabled d).isEmpty = true ↔ ∀ k, d.getD k none = none := by
  rw [List.isEmpty_iff, enabled, positions_isSome_eq_nil]

theorem Memory.putSector_none (m : Memory) : ∀ (a : Nat) (d : List (Option Byte)), (∀ k, d.getD k none = none) → m.putSector a d = m
  | _, [], _ => rfl
  | a, none :: d, h => m.putSector_none (a + 1) d fun k => h (k + 1)
  | _, some x :: _, h => absurd (h 0) (by simp)

/-- A sector of the tile store written (R86, R337). -/
theorem State.devWrite_tile (s : State) (sector : Nat) (d : List (Option Byte)) (by_ : Option Nat) (sys : Bool) :
    Becomes s (s.devWrite .tile sector d by_ sys) s.mem (s.tile.putSector sector d) s.escrow s.egress := by
  unfold State.devWrite
  split
  next none =>
    rw [s.tile.putSector_none sector d (enabled_isEmpty.mp none)]
    exact .refl s
  next =>
    have hit := (s.hitWrite_stirs 0 by_ .tile sector d).becomes
    have put := hit.withTile ((s.hitWrite 0 by_ .tile sector d).tile.putSector sector d)
    rw [hit.tile] at put
    dsimp only
    rw [hit.tile]
    exact put.stirs (State.evalTills_stirs ..)

/-- A sector of global memory that is written to its destination at once: one of device DRAM, or, at system scope, one that the device does not serve
itself and of which nothing stands in the egress escrow (R97). -/
theorem State.devWrite_glob (s : State) {sector : Nat} (d : List (Option Byte)) (by_ : Option Nat) {sys : Bool}
    (direct : regionOf sector = 0 ∨ (sys = true ∧ s.egress = [] ∧ regionOf sector ≠ 3)) :
    Becomes s (s.devWrite .glob sector d by_ sys) (s.mem.putSector sector d) s.tile s.escrow s.egress := by
  unfold State.devWrite
  split
  next none =>
    rw [s.mem.putSector_none sector d (enabled_isEmpty.mp none)]
    exact .refl s
  next =>
    have logged := (s.hitWrite_stirs 0 by_ .glob sector d).becomes.logWords sector d
    have put := logged.withMem (s.mem.putSector sector d)
    dsimp only
    refine Becomes.stirs ?_ (State.wakeMonitors_stirs ..)
    by_cases dram : regionOf sector = 0
    · rw [if_pos dram, logged.mem]
      exact put
    · obtain ⟨rfl, empty, notFabric⟩ := direct.resolve_left dram
      have flushed : ((s.hitWrite 0 by_ .glob sector d).logWords sector d).flushSector sector = (s.hitWrite 0 by_ .glob sector d).logWords sector d := by
        rw [State.flushSector, logged.egress, empty]
        rfl
      rw [if_neg dram, if_pos rfl, flushed, State.landAt, State.servedAt_of_region _ notFabric]
      dsimp only
      rw [logged.mem]
      exact put

/-- A sector of other memory waits in the egress escrow at device scope (R97). -/
theorem State.devWrite_egress (s : State) {sector : Nat} (d : List (Option Byte)) (by_ : Option Nat) (far : regionOf sector ≠ 0)
    (some : (enabled d).isEmpty = false) :
    Becomes s (s.devWrite .glob sector d by_ false) s.mem s.tile s.escrow (s.egress ++ [⟨sector, d, 0, none, 0, none, none⟩]) := by
  unfold State.devWrite
  rw [if_neg (by simp [some])]
  have logged := (s.hitWrite_stirs 0 by_ .glob sector d).becomes.logWords sector d
  dsimp only
  rw [if_neg far, if_neg (by simp), logged.egress]
  exact (logged.withEgress _).stirs (State.wakeMonitors_stirs ..)

/-- Where a write has added nothing to the egress escrow there is nothing to stamp. -/
theorem State.stampEgress_same (h : t.egress = s.egress) (f : Egress → Egress) : t.stampEgress s f = t := by
  rw [State.stampEgress, ← h, List.take_length, List.drop_length, List.map_nil, List.append_nil]

/-- What it has added is stamped. -/
theorem State.stampEgress_one {x : Egress} (h : t.egress = s.egress ++ [x]) (f : Egress → Egress) : t.stampEgress s f = { t with egress := s.egress ++ [f x] } := by
  rw [State.stampEgress, h]
  simp

end Sys2Proof.Machine
end

section
/-! Bytes written sector by sector: the memory that a run of bytes leaves, and that the writes of the device leave that memory. -/

namespace Sys2Proof.Machine

/-- What a run of bytes, some of them enabled, gives a sector. -/
def sectorData (p : Nat) (data : List (Option Byte)) (sec : Nat) : List (Option Byte) :=
  (List.range 32).map (fun k => if p ≤ sec + k then data.getD (sec + k - p) none else none)

/-- A byte once a run of bytes from p on has been written. -/
def runByte (p : Nat) (data : List (Option Byte)) (a : Nat) (old : Byte) : Byte := if p ≤ a then (data.getD (a - p) none).getD old else old

theorem runByte_idem (p : Nat) (data : List (Option Byte)) (a : Nat) (old : Byte) : runByte p data a (runByte p data a old) = runByte p data a old := by
  unfold runByte
  split
  · cases data.getD (a - p) none <;> rfl
  · rfl

/-- Outside the run nothing is written. -/
theorem runByte_outside {p a : Nat} {data : List (Option Byte)} (h : ¬(p ≤ a ∧ a < p + data.length)) (old : Byte) : runByte p data a old = old := by
  unfold runByte
  split
  next low =>
    rw [List.getD_eq_default _ _ (by omega)]
    rfl
  next => rfl

/-- A run with every byte enabled. -/
theorem runByte_map_some (p : Nat) (bs : List Byte) (a : Nat) (old : Byte) :
    runByte p (bs.map some) a old = if p ≤ a ∧ a < p + bs.length then bs.getD (a - p) 0 else old := by
  split
  next h =>
    have low : a - p < bs.length := by omega
    rw [runByte, if_pos h.1, List.getD_eq_getElem _ _ (by simpa using low), List.getD_eq_getElem _ _ low, List.getElem_map]
    rfl
  next h => exact runByte_outside (by simpa using h) old

/-- A run written to some sectors of a memory. -/
def Memory.putRun (m : Memory) (p : Nat) (data : List (Option Byte)) (secs : List Nat) : Memory :=
  secs.foldl (fun m sec => m.putSector sec (sectorData p data sec)) m

theorem Memory.putRun_wf {m : Memory} (h : m.wf = true) (p : Nat) (data : List (Option Byte)) (secs : List Nat) : (m.putRun p data secs).wf = true :=
  List.foldlRecOn (motive := fun m : Memory => m.wf = true) secs _ h fun _ hm sec _ => Memory.putSector_wf hm sec _

theorem sectorData_byte {sec a : Nat} (p : Nat) (data : List (Option Byte)) (old : Byte) :
    (if sec ≤ a then ((sectorData p data sec).getD (a - sec) none).getD old else old) = if sec ≤ a ∧ a < sec + 32 then runByte p data a old else old := by
  unfold sectorData runByte
  rw [getD_range_map]
  by_cases low : sec ≤ a
  · rw [if_pos low, Nat.add_sub_cancel' low]
    by_cases high : a < sec + 32
    · rw [if_pos (by omega : a - sec < 32), if_pos (And.intro low high)]
      by_cases inside : p ≤ a
      · rw [if_pos inside, if_pos inside]
      · rw [if_neg inside, if_neg inside]
        rfl
    · rw [if_neg (by omega : ¬a - sec < 32), if_neg (fun h => high h.2)]
      rfl
  · rw [if_neg low, if_neg (fun h => low h.1)]

/-- The aligned sector that holds a place is the place's own. -/
theorem sectorOf_iff {sec a : Nat} (aligned : sec % 32 = 0) : (sec ≤ a ∧ a < sec + 32) ↔ sectorOf a = sec := by
  unfold sectorOf alignDown
  omega

theorem Memory.get_putRun {m : Memory} (h : m.wf = true) (p : Nat) (data : List (Option Byte)) {secs : List Nat} (aligned : ∀ sec ∈ secs, sec % 32 = 0)
    (a : Nat) : (m.putRun p data secs).get a = if sectorOf a ∈ secs then runByte p data a (m.get a) else m.get a := by
  induction secs generalizing m with
  | nil => rfl
  | cons sec secs ih =>
    obtain ⟨first, rest⟩ := List.forall_mem_cons.mp aligned
    show ((m.putSector sec (sectorData p data sec)).putRun p data secs).get a = _
    rw [ih (Memory.putSector_wf h ..) rest, Memory.get_putSector h, sectorData_byte, if_congr (sectorOf_iff first) rfl rfl]
    by_cases here : sectorOf a = sec
    · subst here
      rw [if_pos rfl, runByte_idem, ite_self, if_pos List.mem_cons_self]
    · rw [if_neg here]
      exact if_congr (by rw [List.mem_cons, or_iff_right here]) rfl rfl

/-! The sectors of a run -/

/-- The sectors in which a run of n bytes from p on stands, each once. -/
def runSectors (p n : Nat) : List Nat := dedupN ((List.range n).map (fun k => sectorOf (p + k)))

theorem mem_dedupN {l : List Nat} {x : Nat} : x ∈ dedupN l ↔ x ∈ l := by
  have grow : ∀ (l acc : List Nat), x ∈ l.foldl (fun acc x => if acc.contains x then acc else acc ++ [x]) acc ↔ x ∈ acc ∨ x ∈ l := by
    intro l
    induction l with
    | nil => simp
    | cons y l ih =>
      intro acc
      rw [List.foldl_cons, ih]
      split
      next here =>
        have := List.contains_iff_mem.mp here
        simp only [List.mem_cons]
        constructor
        · rintro (h | h)
          · exact .inl h
          · exact .inr (.inr h)
        · rintro (h | rfl | h)
          · exact .inl h
          · exact .inl this
          · exact .inr h
      next => simp [or_assoc]
  exact (grow l []).trans (or_iff_right List.not_mem_nil)

theorem nodup_dedupN (l : List Nat) : (dedupN l).Nodup := by
  unfold dedupN
  refine List.foldlRecOn (motive := List.Nodup) l _ List.nodup_nil fun acc h x _ => ?_
  split
  · exact h
  next new =>
    rw [List.nodup_append]
    refine ⟨h, List.nodup_singleton x, fun a ha b hb e => new ?_⟩
    rw [← List.mem_singleton.mp hb, ← e]
    exact List.contains_iff_mem.mpr ha

theorem mem_runSectors {p n sec : Nat} : sec ∈ runSectors p n ↔ ∃ k < n, sectorOf (p + k) = sec := by
  simp [runSectors, mem_dedupN]

theorem runSectors_aligned {p n sec : Nat} (h : sec ∈ runSectors p n) : sec % 32 = 0 := by
  obtain ⟨k, -, rfl⟩ := mem_runSectors.mp h
  exact alignDown_mod ..

/-- A run written to its sectors is written whole, and nothing else is. -/
theorem Memory.get_putRun_whole {m : Memory} (h : m.wf = true) (p : Nat) (data : List (Option Byte)) (a : Nat) :
    (m.putRun p data (runSectors p data.length)).get a = runByte p data a (m.get a) := by
  rw [Memory.get_putRun h p data fun sec => runSectors_aligned]
  split
  · rfl
  next out =>
    rw [runByte_outside]
    rintro ⟨low, high⟩
    exact out (mem_runSectors.mpr ⟨a - p, by omega, by rw [Nat.add_sub_cancel' low]⟩)

/-! The device's writes of a run -/

/-- A run of bytes written by the device, sector by sector. -/
def State.devWriteRun (s : State) (space : Space) (p : Nat) (data : List (Option Byte)) (by_ : Option Nat) (sys : Bool) (secs : List Nat) : State :=
  secs.foldl (fun s sec => s.devWrite space sec (sectorData p data sec) by_ sys) s

theorem State.devWriteBytes_eq (s : State) (space : Space) (p : Nat) (bs : List Byte) (by_ : Option Nat) (sys : Bool) :
    s.devWriteBytes space p bs by_ sys = s.devWriteRun space p (bs.map some) by_ sys (runSectors p bs.length) := by
  have data : ∀ sec, (List.range 32).map (fun k => if p ≤ sec + k then bs[sec + k - p]? else none) = sectorData p (bs.map some) sec := fun sec =>
    List.map_congr_left fun k _ => by
      rw [List.getD_eq_getElem?_getD, List.getElem?_map]
      cases bs[sec + k - p]? <;> rfl
  unfold State.devWriteBytes State.devWriteRun
  simp only [data]
  rfl

theorem State.devWriteRun_tile (s : State) (p : Nat) (data : List (Option Byte)) (by_ : Option Nat) (sys : Bool) (secs : List Nat) :
    Becomes s (s.devWriteRun .tile p data by_ sys secs) s.mem (s.tile.putRun p data secs) s.escrow s.egress := by
  induction secs generalizing s with
  | nil => exact .refl s
  | cons sec secs ih =>
    have first := s.devWrite_tile sec (sectorData p data sec) by_ sys
    have rest := ih (s.devWrite .tile sec (sectorData p data sec) by_ sys)
    rw [first.mem, first.tile, first.escrow, first.egress] at rest
    exact first.trans rest

theorem State.devWriteRun_glob (s : State) (p : Nat) (data : List (Option Byte)) (by_ : Option Nat) {sys : Bool} {secs : List Nat}
    (direct : ∀ sec ∈ secs, regionOf sec = 0 ∨ (sys = true ∧ s.egress = [] ∧ regionOf sec ≠ 3)) :
    Becomes s (s.devWriteRun .glob p data by_ sys secs) (s.mem.putRun p data secs) s.tile s.escrow s.egress := by
  induction secs generalizing s with
  | nil => exact .refl s
  | cons sec secs ih =>
    obtain ⟨here, there⟩ := List.forall_mem_cons.mp direct
    have first := s.devWrite_glob (sectorData p data sec) by_ here
    have rest := ih (s.devWrite .glob sec (sectorData p data sec) by_ sys) (by rw [first.egress]; exact there)
    rw [first.mem, first.tile, first.escrow, first.egress] at rest
    exact first.trans rest

/-- Bytes of the tile store written. -/
theorem State.devWriteBytes_tile (s : State) (p : Nat) (bs : List Byte) (by_ : Option Nat) (sys : Bool) :
    Becomes s (s.devWriteBytes .tile p bs by_ sys) s.mem (s.tile.putRun p (bs.map some) (runSectors p bs.length)) s.escrow s.egress := by
  rw [State.devWriteBytes_eq]
  exact s.devWriteRun_tile ..

/-- Bytes of device DRAM written. -/
theorem State.devWriteBytes_dram (s : State) {p : Nat} {bs : List Byte} (by_ : Option Nat) (sys : Bool) (dram : ∀ k < bs.length, regionOf (p + k) = 0) :
    Becomes s (s.devWriteBytes .glob p bs by_ sys) (s.mem.putRun p (bs.map some) (runSectors p bs.length)) s.tile s.escrow s.egress := by
  rw [State.devWriteBytes_eq]
  refine s.devWriteRun_glob p _ by_ fun sec hsec => .inl ?_
  obtain ⟨k, hk, rfl⟩ := mem_runSectors.mp hsec
  rw [sectorOf, regionOf_alignDown _ (by decide) (by decide)]
  exact dram k hk

theorem Memory.get_putRun_bytes {m : Memory} (h : m.wf = true) (p : Nat) (bs : List Byte) (a : Nat) :
    (m.putRun p (bs.map some) (runSectors p bs.length)).get a = if p ≤ a ∧ a < p + bs.length then bs.getD (a - p) 0 else m.get a := by
  have whole := Memory.get_putRun_whole h p (bs.map some) a
  rw [List.length_map] at whole
  rw [whole, runByte_map_some]

/-- The low bytes of a number. -/
theorem bytesLE_getD (n v k : Nat) (h : k < n) : (bytesLE n v).getD k 0 = BitVec.ofNat 8 (v / 256 ^ k) := by
  induction n generalizing v k with
  | zero => omega
  | succ n ih =>
    cases k with
    | zero => simp [bytesLE]
    | succ k =>
      rw [bytesLE, List.getD_cons_succ, ih _ _ (by omega), Nat.div_div_eq_div_mul, Nat.pow_succ']

theorem bytesLE_length (n v : Nat) : (bytesLE n v).length = n := by
  induction n generalizing v with
  | zero => rfl
  | succ n ih => rw [bytesLE, List.length_cons, ih]

end Sys2Proof.Machine
end

section
/-! The fabric (O57): what a peer asks of the exported window, planes and links, heartbeats and silent peers, reductions, and the sectors of the
hub's egress escrow. -/

namespace Sys2Proof.Machine

variable {s t : State}

/-! Requests of peers -/

theorem State.region_of_frameOk {f pa : Nat} (h : s.frameOk f pa = true) : regionOf pa = 0 := by
  simp only [State.frameOk, Bool.and_eq_true, beq_iff_eq] at h
  exact h.1.1.1.1

/-- Bytes of device DRAM are the memory's, where nothing stands in the egress escrow. -/
theorem State.devRead_dram (empty : s.egress = []) {p n : Nat} (dram : ∀ k < n, regionOf (p + k) = 0) : s.devRead .glob p n = s.mem.read p n :=
  List.map_congr_left fun k hk => s.devByte_of_region empty (by rw [dram k (List.mem_range.mp hk)]; decide)

/-- Blocks of device DRAM stand under no key. -/
theorem State.unkey_of_region {ps : List Nat} (h : ∀ p ∈ ps, regionOf p ≠ 1) : s.unkey ps = s := by
  have none : ∀ k : Nat × Nat, ps.any (fun p => regionOf p == 1 && p / 16 == k.1) = false := fun k =>
    List.any_eq_false.mpr fun p hp => by simp [h p hp]
  simp [State.unkey, none]

/-- The places that a sector's data enables lie in the sector's region. -/
theorem region_of_enabled {p sec x : Nat} {data : List (Option Byte)} (aligned : sec % 32 = 0) (h : x ∈ enabled (sectorData p data sec)) :
    regionOf (sec + x) = regionOf sec := by
  obtain ⟨-, a, found, -⟩ := mem_positions.mp h
  have low : x - 0 < (sectorData p data sec).length := (List.getElem?_eq_some_iff.mp found).1
  rw [sectorData, List.length_map, List.length_range] at low
  exact regionOf_add aligned (by omega) (by decide)

/-- A write by the host of bytes of device DRAM none of which is poisoned. -/
theorem State.hostWrite_dram {pa : Nat} {data : List (Option Byte)} (dram : ∀ k < data.length, regionOf (pa + k) = 0) (clean : s.gpoison = []) :
    Becomes s (s.hostWrite pa data) (s.mem.putRun pa data (runSectors pa data.length)) s.tile s.escrow s.egress := by
  have within : ∀ sec ∈ runSectors pa data.length, sec % 32 = 0 ∧ regionOf sec = 0 := fun sec h => by
    refine ⟨runSectors_aligned h, ?_⟩
    obtain ⟨k, hk, rfl⟩ := mem_runSectors.mp h
    rw [sectorOf, regionOf_alignDown _ (by decide) (by decide)]
    exact dram k hk
  unfold State.hostWrite
  rw [show sectorParts pa data = (runSectors pa data.length).map (fun sec => (sec, sectorData pa data sec)) from rfl, List.foldl_map]
  generalize runSectors pa data.length = secs at within
  induction secs generalizing s with
  | nil => exact .refl s
  | cons sec secs ih =>
    obtain ⟨⟨aligned, here⟩, there⟩ := List.forall_mem_cons.mp within
    have first := s.devWrite_glob (sectorData pa data sec) none (sys := true) (.inl here)
    have unpoisoned : s.poisoned .glob (alignDown sec 128) = false := by simp [State.poisoned, clean]
    have rest := ih (s := s.devWrite .glob sec (sectorData pa data sec) none true) (by rw [first.gpoison]; exact clean) there
    rw [first.mem, first.tile, first.escrow, first.egress] at rest
    rw [List.foldl_cons]
    dsimp only
    rw [if_neg (by simp [unpoisoned]), State.unkey_of_region]
    · exact first.trans rest
    · intro p hp
      obtain ⟨x, hx, rfl⟩ := List.mem_map.mp hp
      rw [region_of_enabled aligned hx, here]
      decide

section
variable {ep off pa : Nat} (endpoint : s.hasEndpoint ep = true)
include endpoint

theorem State.fabricRequest_fenced {op : FabricOp} (outside : s.exported off (max 1 (fabricBytes op)) = none) :
    exec (.fabricRequest ep off op) s = .next (s.say (.word ansFenced 0)) := by
  show execFabricRequest ep off op s = _
  unfold execFabricRequest
  dsimp only
  rw [endpoint, outside]
  rfl

variable (f : Nat) (hf : f = s.regN offExpwin 62 57)
include hf

theorem State.fabricRequest_load {n : Nat} (inside : s.exported off (max 1 n) = some pa)
    (served : ∀ k < max 1 n, s.frameOk f (pa + k) = true ∧ s.poisoned .glob (pa + k) = false) :
    exec (.fabricRequest ep off (.load n)) s = .next (s.say (.bytes ansFabric (s.devRead .glob pa n))) := by
  subst hf
  have owned : (List.range (max 1 n)).all (fun k => s.frameOk (s.regN offExpwin 62 57) (pa + k)) = true :=
    List.all_eq_true.mpr fun k hk => (served k (List.mem_range.mp hk)).1
  have clean : (List.range n).any (fun k => s.poisoned .glob (pa + k)) = false :=
    List.any_eq_false.mpr fun k hk => by rw [(served k (by have := List.mem_range.mp hk; omega)).2]; decide
  show execFabricRequest ep off (.load n) s = _
  unfold execFabricRequest
  simp only [fabricBytes, endpoint, inside, owned, clean, Bool.not_true, Bool.false_eq_true, if_false]

theorem State.fabricRequest_atomic {aop width : Nat} {b x : W64} (inside : s.exported off (2 ^ width) = some pa)
    (served : ∀ k < 2 ^ width, s.frameOk f (pa + k) = true ∧ s.poisoned .glob (pa + k) = false) :
    exec (.fabricRequest ep off (.atomic aop width b x)) s =
      .next ((s.peerAtomic pa aop width b x).2.say (.word ansFabric (s.peerAtomic pa aop width b x).1)) := by
  subst hf
  have some : max 1 (2 ^ width) = 2 ^ width := Nat.max_eq_right Nat.one_le_two_pow
  have owned : (List.range (2 ^ width)).all (fun k => s.frameOk (s.regN offExpwin 62 57) (pa + k)) = true :=
    List.all_eq_true.mpr fun k hk => (served k (List.mem_range.mp hk)).1
  have clean : (List.range (2 ^ width)).any (fun k => s.poisoned .glob (pa + k)) = false :=
    List.any_eq_false.mpr fun k hk => by rw [(served k (List.mem_range.mp hk)).2]; decide
  show execFabricRequest ep off (.atomic aop width b x) s = _
  unfold execFabricRequest
  simp only [fabricBytes, some, endpoint, inside, owned, clean, Bool.not_true, Bool.false_eq_true, if_false]

theorem State.fabricRequest_store {data : List (Option Byte)} (inside : s.exported off (max 1 data.length) = some pa)
    (served : ∀ k < max 1 data.length, s.frameOk f (pa + k) = true) :
    exec (.fabricRequest ep off (.store data)) s = .next ((s.hostWrite pa data).say (.word ansFabric 0)) := by
  subst hf
  have owned : (List.range (max 1 data.length)).all (fun k => s.frameOk (s.regN offExpwin 62 57) (pa + k)) = true :=
    List.all_eq_true.mpr fun k hk => served k (List.mem_range.mp hk)
  show execFabricRequest ep off (.store data) s = _
  unfold execFabricRequest
  simp only [fabricBytes, endpoint, inside, owned, Bool.not_true, Bool.false_eq_true, if_false]

end

/-- A peer's atomic on device DRAM: the value before, and the new value's bytes, where there is one. -/
theorem State.peerAtomic_dram {pa aop width : Nat} {b x : W64} (empty : s.egress = []) (wf : s.mem.wf = true)
    (dram : ∀ k < 2 ^ width, regionOf (pa + k) = 0) :
    let old := ofBytesLE (s.mem.read pa (2 ^ width))
    let r := s.peerAtomic pa aop width b x
    r.1 = BitVec.ofNat 64 old ∧ r.2.out = s.out ∧ ∀ k < 2 ^ width, r.2.mem.get (pa + k) =
      match atomVal aop (8 * 2 ^ width) old (b.toNat % 2 ^ (8 * 2 ^ width)) (x.toNat % 2 ^ (8 * 2 ^ width)) with
        | some v => BitVec.ofNat 8 (v / 256 ^ k)
        | none => s.mem.get (pa + k) := by
  dsimp only
  unfold State.peerAtomic
  dsimp only
  rw [State.devRead_dram empty dram]
  generalize atomVal aop (8 * 2 ^ width) _ _ _ = new
  cases new with
  | none => exact ⟨rfl, rfl, fun _ _ => rfl⟩
  | some v =>
    have written := s.devWriteBytes_dram (bs := bytesLE (2 ^ width) v) none true (by rw [bytesLE_length]; exact dram)
    refine ⟨rfl, written.out, fun k hk => ?_⟩
    dsimp only
    rw [written.mem, Memory.get_putRun_bytes wf, bytesLE_length, if_pos (by omega), Nat.add_sub_cancel_left, bytesLE_getD _ _ _ hk]

/-! Nothing outstanding -/

theorem State.grpsWhere_eq_nil {q : Group → Bool} (h : ∀ gi < s.groups.length, q (s.grp gi) = false) : s.grpsWhere q = [] :=
  List.eq_nil_iff_forall_not_mem.mpr fun gi hgi => by
    obtain ⟨index, found⟩ := State.mem_grpsWhere.mp hgi
    rw [h gi index] at found
    exact absurd found (by decide)

/-- Where nothing is under way that FENCED could end, fencing changes nothing. -/
theorem State.fenceOut_quiet (h : Quiet s) (p : Nat → Bool) (pe : Egress → Bool) : s.fenceOut p pe = s := by
  obtain ⟨groups, escrow, egress⟩ := h
  have idle : ∀ gi < s.groups.length, (s.grp gi).ops = [] ∧ (s.grp gi).st ≠ .suspended := fun gi hgi => by
    refine groups _ ?_
    rw [State.grp, List.getD_eq_getElem _ _ hgi]
    exact List.getElem_mem hgi
  have ops : (s.grpsWhere (fun g => g.alive)).flatMap (fun g => (s.grp g).ops.map (fun o => (g, o.id))) = [] :=
    List.flatMap_eq_nil_iff.mpr fun gi hgi => by rw [(idle gi (State.mem_grpsWhere.mp hgi).1).1]; rfl
  have fenced : s.fenceEgress pe = s := by
    unfold State.fenceEgress
    rw [egress]
    rfl
  have asleep : s.wakeWhere p = s := by
    unfold State.wakeWhere
    rw [State.grpsWhere_eq_nil fun gi index => by rw [beq_eq_false_iff_ne.mpr (idle gi index).2, Bool.false_and]]
    rfl
  unfold State.fenceOut
  dsimp only
  rw [ops, List.foldl_nil, escrow, List.filter_nil, List.foldl_nil, fenced, asleep]

/-! Planes -/

/-- Of a state only the hub's registers have changed, and they keep their form. -/
structure Retuned (s t : State) : Prop where
  regs : regsOk s → regsOk t
  only : t = { s with hub := { s.hub with regs := t.hub.regs } }

theorem Retuned.refl (s : State) : Retuned s s := ⟨id, rfl⟩

theorem Retuned.trans {u : State} (h : Retuned s t) (k : Retuned t u) : Retuned s u := ⟨k.regs ∘ h.regs, by rw [k.only, h.only]⟩

theorem State.setRegN_retuned (s : State) (off hi lo v : Nat) : Retuned s (s.setRegN off hi lo v) := ⟨fun h => regsOk_setRegN h off hi lo v, rfl⟩

/-- The logical planes of a dead plane given to another one after another. -/
def State.remap (s : State) (p q : Nat) (ls : List Nat) : State :=
  ls.foldl (fun s l => if s.mapOf l = p then s.setRegN offPlremap (3 * l + 2) (3 * l) q else s) s

theorem State.mapOf_setRegN (h : regsOk s) {l m q : Nat} (hl : l < 8) (hq : q < 8) :
    (s.setRegN offPlremap (3 * l + 2) (3 * l) q).mapOf m = if m = l then q else s.mapOf m := by
  unfold State.mapOf
  split
  next e =>
    subst e
    rw [State.regN_setRegN h _ _ _ _ (by omega) (by omega), show 3 * m + 2 + 1 - 3 * m = 3 by omega]
    exact Nat.mod_eq_of_lt hq
  next ne => exact State.regN_setRegN_field h _ _ _ _ _ _ (by omega) (by omega) (by omega)

theorem State.remap_spec (h : regsOk s) {p q : Nat} (hq : q < 8) {ls : List Nat} (few : ∀ l ∈ ls, l < 8) (once : ls.Nodup) :
    Retuned s (s.remap p q ls) ∧ (∀ o ≠ offPlremap, (s.remap p q ls).reg o = s.reg o) ∧
      (∀ i, 24 ≤ i → bitAt ((s.remap p q ls).reg offPlremap) i = bitAt (s.reg offPlremap) i) ∧
      ∀ m, (s.remap p q ls).mapOf m = if m ∈ ls ∧ s.mapOf m = p then q else s.mapOf m := by
  induction ls generalizing s with
  | nil => exact ⟨.refl s, fun _ _ => rfl, fun _ _ => rfl, fun m => (if_neg (by simp)).symm⟩
  | cons l ls ih =>
    obtain ⟨here, there⟩ := List.forall_mem_cons.mp few
    obtain ⟨new, once⟩ := List.nodup_cons.mp once
    show Retuned s ((if s.mapOf l = p then s.setRegN offPlremap (3 * l + 2) (3 * l) q else s).remap p q ls) ∧ _
    rw [show s.remap p q (l :: ls) = (if s.mapOf l = p then s.setRegN offPlremap (3 * l + 2) (3 * l) q else s).remap p q ls from rfl]
    by_cases mine : s.mapOf l = p
    · rw [if_pos mine]
      have first := s.setRegN_retuned offPlremap (3 * l + 2) (3 * l) q
      obtain ⟨rest, others, high, maps⟩ := ih (first.regs h) there once
      refine ⟨first.trans rest, fun o ho => (others o ho).trans (State.reg_setRegN_ne h ho ..), fun i hi => ?_, fun m => ?_⟩
      · rw [high i hi, State.setRegN, State.reg_setReg h, if_pos rfl, bitAt_setBits _ _ _ _ _ (by omega), if_neg (by omega)]
      · rw [maps, State.mapOf_setRegN h here hq]
        by_cases e : m = l
        · subst e
          rw [if_pos rfl, if_neg (fun k => new k.1), if_pos ⟨List.mem_cons_self, mine⟩]
        · rw [if_neg e]
          exact if_congr (by rw [List.mem_cons, or_iff_right e]) rfl rfl
    · rw [if_neg mine]
      obtain ⟨rest, others, high, maps⟩ := ih h there once
      refine ⟨rest, others, high, fun m => ?_⟩
      rw [maps]
      refine if_congr ⟨fun k => ⟨List.mem_cons_of_mem _ k.1, k.2⟩, fun k => ⟨?_, k.2⟩⟩ rfl rfl
      rcases List.mem_cons.mp k.1 with rfl | inside
      · exact absurd k.2 mine
      · exact inside

theorem Retuned.quiet (h : Retuned s t) (k : Quiet s) : Quiet t := by
  obtain ⟨groups, escrow, egress⟩ := k
  rw [h.only]
  exact ⟨groups, escrow, egress⟩

/-- The registers once a plane is dead: its bits (R436). -/
def State.deadBits (s : State) (p : Nat) : State := (s.setRegN offPlremap (24 + p) (24 + p) 1).setRegN offReady (5 + p) (5 + p) 0

theorem State.deadBits_spec (h : regsOk s) {p : Nat} (hp : p ≤ 7) : Retuned s (s.deadBits p) ∧
    (∀ i, bitAt ((s.deadBits p).reg offPlremap) i = if i = 24 + p then true else bitAt (s.reg offPlremap) i) ∧
    (∀ i, bitAt ((s.deadBits p).reg offReady) i = if i = 5 + p then false else bitAt (s.reg offReady) i) ∧
    ∀ l < 8, (s.deadBits p).mapOf l = s.mapOf l := by
  have first := s.setRegN_retuned offPlremap (24 + p) (24 + p) 1
  have h1 := first.regs h
  refine ⟨first.trans (State.setRegN_retuned ..), fun i => ?_, fun i => ?_, fun l hl => ?_⟩
  · rw [State.deadBits, State.reg_setRegN_ne h1 (by decide), State.setRegN, State.reg_setReg h, if_pos rfl, bitAt_setBits _ _ _ _ _ (by omega)]
    by_cases e : i = 24 + p
    · rw [if_pos (by omega), if_pos e, e, Nat.sub_self]
      rfl
    · rw [if_neg (by omega), if_neg e]
  · rw [State.deadBits, State.setRegN, State.reg_setReg h1, if_pos rfl, bitAt_setBits _ _ _ _ _ (by omega), State.reg_setRegN_ne h (by decide)]
    by_cases e : i = 5 + p
    · rw [if_pos (by omega), if_pos e, Nat.zero_testBit]
    · rw [if_neg (by omega), if_neg e]
  · rw [State.mapOf, State.deadBits, State.regN_setRegN_ne h1 (by decide), State.regN_setRegN_field h _ _ _ _ _ _ (by omega) (by omega) (by omega)]
    rfl

/-- The planes that are live once p is dead are none of them p, so its own bits do not count. -/
theorem State.livePlanes_deadBits (h : regsOk s) {p : Nat} (hp : p ≤ 7) : (s.deadBits p).livePlanes p = s.livePlanes p := by
  obtain ⟨-, remap, ready, -⟩ := State.deadBits_spec h hp
  refine List.filter_congr fun k hk => ?_
  obtain ⟨j, hj, rfl⟩ := List.mem_map.mp hk
  have := List.mem_range.mp hj
  rw [remap, ready, if_neg (by omega), if_neg (by omega)]

/-- The steps of a dead plane where nothing is outstanding and another plane is live. -/
theorem State.declareDead_quiet (h : regsOk s) (quiet : Quiet s) {p q : Nat} (hp : p ≤ 7) (live : (s.livePlanes p).head? = some q) :
    s.declareDead p = (s.deadBits p).remap p q (List.range 8) := by
  have bits := (State.deadBits_spec h hp).1
  have still : ∀ e, (s.deadBits p).egress.map e = (s.deadBits p).egress := fun e => by rw [(bits.quiet quiet).2.2]; rfl
  unfold State.declareDead
  dsimp only
  rw [show (s.setRegN offPlremap (24 + p) (24 + p) 1).setRegN offReady (5 + p) (5 + p) 0 = s.deadBits p from rfl,
    State.fenceOut_quiet (bits.quiet quiet), State.resendSprayed, still]
  rw [State.livePlanes_deadBits h hp, live]
  rfl

theorem Retuned.memory (h : Retuned s t) : MemoryKept s t := by
  rw [h.only]
  exact ⟨rfl, rfl, rfl⟩

theorem Retuned.fabric (h : Retuned s t) : t.fabric = s.fabric := by rw [h.only]
theorem Retuned.groups (h : Retuned s t) : t.groups = s.groups := by rw [h.only]
theorem Retuned.out (h : Retuned s t) : t.out = s.out := by rw [h.only]

/-! Heartbeats -/

theorem State.foldl_say {α : Type} (s : State) (a : State → α → Answer) (same : ∀ t : State, t.hub = s.hub → ∀ x, a t x = a s x) (l : List α) :
    l.foldl (fun s x => s.say (a s x)) s = { s with out := s.out ++ l.map (a s) } := by
  have grow : ∀ (l : List α) (u : State), u.hub = s.hub → l.foldl (fun s x => s.say (a s x)) u = { u with out := u.out ++ l.map (a s) } := by
    intro l
    induction l with
    | nil =>
      intro u _
      rw [List.map_nil, List.append_nil]
      rfl
    | cons x l ih =>
      intro u hu
      rw [List.foldl_cons, same u hu x, ih (u.say (a s x)) hu, State.say]
      dsimp only
      rw [List.map_cons, List.append_assoc, List.singleton_append]
  exact grow l s rfl

/-- The counts of periods without a heartbeat after one more for each of some endpoints. -/
theorem lookupD_foldl_setKey {eps : List Nat} (once : eps.Nodup) (l : List (Nat × Nat)) (ep : Nat) :
    lookupD (eps.foldl (fun l ep => setKey l ep (lookupD l ep 0 + 1)) l) ep 0 = lookupD l ep 0 + if ep ∈ eps then 1 else 0 := by
  induction eps generalizing l with
  | nil => rfl
  | cons e eps ih =>
    obtain ⟨new, once⟩ := List.nodup_cons.mp once
    rw [List.foldl_cons, ih once, lookupD_setKey]
    by_cases h : ep = e
    · subst h
      rw [if_pos rfl, if_neg new, if_pos List.mem_cons_self]
    · rw [if_neg h]
      exact congrArg _ (if_congr (by rw [List.mem_cons, or_iff_right h]) rfl rfl)

theorem State.mem_watched {ep : Nat} : ep ∈ s.watched ↔ (List.range 64).any (fun n => s.winState n == 1 && s.winEp n == ep) = true := by
  rw [State.watched, mem_dedupN, List.mem_map, List.any_eq_true]
  simp only [List.mem_filter, Bool.and_eq_true, beq_iff_eq, and_assoc]

theorem lookupD_dropKey (l : List (Nat × Nat)) (k j : Nat) : lookupD (dropKey l k) j 0 = if j = k then 0 else lookupD l j 0 := by
  induction l with
  | nil => exact (ite_self _).symm
  | cons p l ih =>
    have step : dropKey (p :: l) k = if p.1 = k then dropKey l k else p :: dropKey l k := by
      by_cases h : p.1 = k <;> simp [dropKey, h]
    rw [step]
    by_cases h : p.1 = k
    · rw [if_pos h, ih, lookupD, h]
      by_cases e : j = k
      · rw [if_pos e, if_pos e]
      · rw [if_neg e, if_neg e, if_neg (Ne.symm e)]
    · rw [if_neg h, lookupD, lookupD, ih]
      by_cases e : p.1 = j
      · rw [if_pos e, if_pos e, if_neg (e ▸ h)]
      · rw [if_neg e, if_neg e]

/-- The counts that the end of a period leaves (R437). -/
theorem State.heartbeatSend_next (due : s.regN offHbcfg 31 0 ≠ 0) (time : s.fabric.sent + s.regN offHbcfg 31 0 ≤ s.hubClk) :
    exec .heartbeatSend s = .next
      { s with
        fabric := { s.fabric with
          sent := s.hubClk, heard := []
          missed := (s.watched.filter (fun ep => !s.fabric.heard.contains ep)).foldl (fun l ep => setKey l ep (lookupD l ep 0 + 1)) s.fabric.missed }
        out := s.out ++ s.liveLinks.map (fun k => Answer.word 3 (BitVec.ofNat 64 (65536 * k + s.regN offOwnep 15 0))) } := by
  show execHeartbeatSend s = _
  unfold execHeartbeatSend
  dsimp only
  rw [if_neg (by omega), State.foldl_say _ (fun s k => Answer.word ansHeartbeat (BitVec.ofNat 64 (65536 * k + s.regN offOwnep 15 0)))]
  · rfl
  · intro t e x
    rw [State.regN, State.reg, e]
    rfl

/-- A window without heartbeats, of whose endpoint nothing is outstanding (R438). -/
theorem State.peerSilent_next {n : Nat} (hn : n < 64) (quiet : Quiet s) (window : s.winState n = 1) (due : s.regN offHbcfg 31 0 ≠ 0)
    (silent : 8 ≤ lookupD s.fabric.missed (s.winEp n) 0) : exec (.peerSilent n) s = .next
      { s.setRegN (offWin n) 1 0 2 with
        fabric := { s.fabric with
          claims := if s.winTkov n && !s.fabric.claims.any (fun c => c.1 == s.winEp n) then s.fabric.claims ++ [(s.winEp n, [])] else s.fabric.claims
          silent := s.fabric.silent.filter (fun x => x ≠ s.winEp n) ++ [s.winEp n] } } := by
  show execPeerSilent n s = _
  unfold execPeerSilent
  dsimp only
  rw [if_neg (by omega), State.fenceOut_quiet ((s.setRegN_retuned ..).quiet quiet)]
  rfl

/-! Reductions -/

/-- A record that is a good one, of a world whose partition has an engine, is under way (R445). -/
theorem State.takeColl_words {c : Coll} {w : List W64} {sr : State} (read : s.readRecord c.func c.addr = .words w sr) (good : colOk w = true)
    (engine : sr.regN (offPart (sr.partOf c.func) 5) 27 20 ≠ 0) : s.takeColl c = sr.keepColl { c with words := w } := by
  unfold State.takeColl
  rw [read]
  dsimp only
  rw [good, if_neg (by decide), if_neg engine]

/-! The egress escrow -/

/-- The egress escrow's oldest sector of its place and its copy drains. -/
theorem State.egressDrain_next {k : Nat} {e : Egress} (found : s.egress[k]? = some e)
    (oldest : ∀ x ∈ s.egress.take k, x.sector ≠ e.sector ∧ (e.copy = 0 ∨ x.copy ≠ e.copy)) :
    exec (.egressEscrowDrain k) s = .next ((({ s with egress := dropNth k s.egress } : State).servedPage e.sector accWrite).sendEgress e) := by
  have first : (s.egress.take k).any (fun x => x.sector == e.sector || (e.copy != 0 && x.copy == e.copy)) = false :=
    List.any_eq_false.mpr fun x hx => by
      obtain ⟨sector, copy⟩ := oldest x hx
      rcases copy with h | h <;> simp [sector, h]
  show execEgressEscrowDrain k s = _
  unfold execEgressEscrowDrain
  rw [found]
  dsimp only
  rw [first, if_neg (by simp)]

theorem State.servedPage_none {pa access : Nat} (h : s.servedAt pa = none) : s.servedPage pa access = s := by
  rw [State.servedPage, h]

theorem State.servedPage_open {pa access : Nat} (h : s.fenced pa = false) : s.servedPage pa access = s := by
  unfold State.servedPage
  dsimp only
  rw [h]
  split
  · exact if_neg (by rw [Bool.false_and]; decide)
  · rfl

/-- Only host writes are stopped. -/
theorem State.region_of_stopped {e : Egress} (h : s.stopped e = true) : regionOf e.sector = 2 := by
  cases f : e.func with
  | none =>
    rw [State.stopped, f] at h
    exact absurd h (by simp)
  | some f' =>
    rw [State.stopped, f] at h
    simp only [Option.map_some, Option.getD_some, State.hostStopped, Bool.and_eq_true, beq_iff_eq] at h
    exact h.1

theorem State.region_of_turnedAway {pa : Nat} (h : s.fenced pa = true ∨ s.unwindowed pa = true) : regionOf pa = 3 := by
  rcases h with h | h
  · simp only [State.fenced, Bool.and_eq_true, beq_iff_eq] at h
    exact h.1
  · simp only [State.unwindowed, Bool.and_eq_true, beq_iff_eq] at h
    exact h.1

theorem State.sendEgress_turned {e : Egress} (h : s.fenced e.sector = true ∨ s.unwindowed e.sector = true) : s.sendEgress e = s.egressFenced e := by
  have free : s.stopped e = false := by
    rw [← Bool.not_eq_true]
    intro k
    exact absurd ((State.region_of_stopped k).symm.trans (State.region_of_turnedAway h)) (by decide)
  rw [State.sendEgress, free, if_neg (by simp), if_pos (by simpa using h)]

theorem State.sendEgress_lands {e : Egress} (going : s.stopped e = false) (unfenced : s.fenced e.sector = false) (window : s.unwindowed e.sector = false) :
    s.sendEgress e = s.landAt e.sector e.data := by
  rw [State.sendEgress, going, unfenced, window]
  rfl

/-- A queue entry ended with a status where its copy's sector has been turned away. -/
def Entry.stopped (x : Entry) (copy status fail : Nat) : Entry := if x.id = copy ∧ x.status = 0 then { x with status := status, fail := fail } else x

theorem State.core_mapQueues (s : State) (f : Entry → Entry) (p : Nat) :
    (State.core { s with cores := s.cores.map (fun c => (c.1, { c.2 with queues := c.2.queues.map (fun q => q.map f) })) } p).queues =
      (s.core p).queues.map (fun q => q.map f) := by
  unfold State.core
  induction s.cores with
  | nil => rfl
  | cons c cs ih =>
    simp only [List.map_cons, lookupD]
    split
    · rfl
    · exact ih

/-- A sector turned away: no memory changes, what its copy has behind it goes too, its group owes, and its engine entry ends. -/
theorem State.egressFenced_spec (s : State) (e : Egress) : (s.egressFenced e).mem = s.mem ∧
    (s.egressFenced e).egress = s.egress.filter (fun x => e.copy = 0 ∨ x.copy ≠ e.copy) ∧
    (∀ gi op, e.owner = some (gi, op) → gi < s.groups.length →
      ((s.egressFenced e).grp gi).pages = (s.grp gi).pages ++ [(op, e.va, if s.unwindowed e.sector then 4 else 1)]) ∧
    (e.copy ≠ 0 → ∀ p, ((s.egressFenced e).core p).queues =
      (s.core p).queues.map (fun q => q.map (fun x => x.stopped e.copy (if s.unwindowed e.sector then 2 else 0x11) e.va))) := by
  obtain ⟨sector, data, copy, owner, va, plane, func⟩ := e
  have owed : ∀ u : State, (∀ gi op, owner = some (gi, op) → gi < s.groups.length → u.grp gi = (s.grp gi).owePage op va (s.turnedCode sector 1)) →
      ∀ gi op, owner = some (gi, op) → gi < s.groups.length → (u.grp gi).pages = (s.grp gi).pages ++ [(op, va, if s.unwindowed sector then 4 else 1)] :=
    fun u h gi op e index => by rw [h gi op e index]; rfl
  unfold State.egressFenced
  dsimp only
  by_cases alone : copy = 0
  · rw [if_pos alone]
    refine ⟨?_, ?_, owed _ fun gi op e index => ?_, fun h => absurd alone h⟩
    · cases owner <;> rfl
    · have all : s.egress.filter (fun x => decide (copy = 0 ∨ x.copy ≠ copy)) = s.egress := List.filter_eq_self.mpr fun x _ => by simp [alone]
      rw [all]
      cases owner <;> rfl
    · rw [e]
      exact State.grp_modGrp_self _ _ index
  · rw [if_neg alone]
    refine ⟨?_, ?_, owed _ fun gi op e index => ?_, fun _ p => ?_⟩
    · cases owner <;> rfl
    · have copies : ∀ l : List Egress, l.filter (fun x => decide (copy = 0 ∨ x.copy ≠ copy)) = l.filter (fun x => decide (x.copy ≠ copy)) :=
        fun l => List.filter_congr fun x _ => by simp [alone]
      rw [copies]
      cases owner <;> rfl
    · rw [e]
      exact State.grp_modGrp_self _ _ index
    · cases owner <;> exact State.core_mapQueues ..

/-- A sector that the device serves itself lands on its line. -/
theorem State.landAt_served {sector h : Nat} (d : List (Option Byte)) (served : s.servedAt sector = some h) (clean : s.poisoned .glob h = false) :
    Becomes s (s.landAt sector d) (s.mem.putSector h d) s.tile s.escrow s.egress := by
  have logged := (s.hitWrite_stirs 0 none .glob h d).becomes.logWords h d
  rw [State.landAt, served]
  dsimp only
  rw [if_neg (by simp [clean]), logged.mem]
  exact (logged.withMem _).stirs (State.wakeMonitors_stirs ..)

theorem State.landAt_elsewhere {sector : Nat} (d : List (Option Byte)) (h : s.servedAt sector = none) :
    s.landAt sector d = { s with mem := s.mem.putSector sector d } := by
  rw [State.landAt, h]

/-! The clauses -/

theorem fabricRequests (s : State) (ep off pa n : Nat) (endpoint : s.hasEndpoint ep = true) : let f := s.regN offExpwin 62 57
    (s.exported off (max 1 n) = none → exec (.fabricRequest ep off (.load n)) s = .next { s with out := s.out ++ [.word 5 0] }) ∧
    (s.exported off (max 1 n) = some pa → (∀ k < max 1 n, s.frameOk f (pa + k) = true ∧ s.poisoned .glob (pa + k) = false) →
      exec (.fabricRequest ep off (.load n)) s = .next { s with out := s.out ++ [.bytes 4 (s.devRead .glob pa n)] }) ∧
    (∀ aop width b x, width ≤ 3 → let z := 2 ^ width
      s.exported off z = some pa → pa % z = 0 → (∀ k < z, s.frameOk f (pa + k) = true ∧ s.poisoned .glob (pa + k) = false) →
      s.egress = [] → s.mem.wf = true → let old := ofBytesLE (s.mem.read pa z)
      ∃ t, exec (.fabricRequest ep off (.atomic aop width b x)) s = .next t ∧ t.out = s.out ++ [.word 4 (BitVec.ofNat 64 old)] ∧
        ∀ k < z, t.mem.get (pa + k) = match atomVal aop (8 * z) old (b.toNat % 2 ^ (8 * z)) (x.toNat % 2 ^ (8 * z)) with
          | some v => BitVec.ofNat 8 (v / 256 ^ k)
          | none => s.mem.get (pa + k)) ∧
    (∀ data, s.exported off (max 1 data.length) = some pa → (∀ k < max 1 data.length, s.frameOk f (pa + k) = true) → s.gpoison = [] →
      s.mem.wf = true → s.egress = [] → ∃ t, exec (.fabricRequest ep off (.store data)) s = .next t ∧ t.out = s.out ++ [.word 4 0] ∧
        ∀ a, t.mem.get a = if pa ≤ a then (data.getD (a - pa) none).getD (s.mem.get a) else s.mem.get a) := by
  refine ⟨fun outside => State.fabricRequest_fenced endpoint outside, fun inside served => State.fabricRequest_load endpoint _ rfl inside served,
    fun aop width b x _ => ?_, fun data => ?_⟩
  · intro z inside _ served empty wf old
    obtain ⟨value, out, bytes⟩ := State.peerAtomic_dram (aop := aop) (b := b) (x := x) empty wf fun k hk => State.region_of_frameOk (served k hk).1
    refine ⟨_, State.fabricRequest_atomic endpoint _ rfl inside served, ?_, bytes⟩
    rw [State.say, out, value]
  · intro inside served clean wf _
    have written := State.hostWrite_dram (data := data) (fun k hk => State.region_of_frameOk (served k (by omega))) clean
    refine ⟨_, State.fabricRequest_store endpoint _ rfl inside served, ?_, fun a => ?_⟩
    · rw [State.say, written.out]
    · show (s.hostWrite pa data).mem.get a = _
      rw [written.mem, Memory.get_putRun_whole wf]
      rfl

theorem planesDie (s : State) (p q link : Nat) (hp : p ≤ 7) (hq : q ≤ 7) (hl : link ≤ 1) (ok : regsOk s) (quiet : Quiet s) : let dead := s.fabric.deadLinks
    let lost : State := { s with fabric := { s.fabric with deadLinks := dead ++ [2 * p + link] } }
    2 * p + link ∉ dead → (2 * p + (1 - link) ∉ dead → exec (.planeDead ⟨p, link⟩) s = .next lost) ∧
    (2 * p + (1 - link) ∈ dead → (s.livePlanes p).head? =
      some q → ∃ t, exec (.planeDead ⟨p, link⟩) s = .next t ∧ bitAt (t.reg offPlremap) (24 + p) = true ∧ bitAt (t.reg offReady) (5 + p) = false ∧
        (∀ l < 8, t.mapOf l = if s.mapOf l = p then q else s.mapOf l) ∧ t.fabric = lost.fabric ∧ t.groups = s.groups ∧ MemoryKept s t) := by
  intro dead lost up
  have run : exec (.planeDead ⟨p, link⟩) s = .next (if dead.contains (2 * p + (1 - link)) then lost.declareDead p else lost) := by
    show execPlaneDead ⟨p, link⟩ s = _
    unfold execPlaneDead
    dsimp only
    rw [if_neg (by simpa [hp, hl] using up)]
  rw [run]
  refine ⟨fun other => by rw [if_neg (by simpa using other)], fun other live => ?_⟩
  rw [if_pos (by simpa using other)]
  obtain ⟨bits, remap, ready, maps⟩ := State.deadBits_spec (s := lost) ok hp
  obtain ⟨moved, others, high, maps'⟩ := State.remap_spec (bits.regs ok) (p := p) (show q < 8 by omega)
    (fun l hl => List.mem_range.mp hl) List.nodup_range
  have all := bits.trans moved
  refine ⟨_, congrArg _ (State.declareDead_quiet (s := lost) ok quiet hp live), ?_, ?_, fun l hl => ?_, all.fabric, all.groups, all.memory⟩
  · rw [high _ (by omega), remap, if_pos rfl]
  · rw [others _ (by decide), ready, if_pos rfl]
  · rw [maps', maps l hl, if_congr (and_iff_right (List.mem_range.mpr hl)) rfl rfl]
    rfl

theorem heartbeatsSent (s : State) (due : s.regN offHbcfg 31 0 ≠ 0) (time : s.fabric.sent + s.regN offHbcfg 31 0 ≤ s.hubClk) :
    ∃ t, exec .heartbeatSend s = .next t ∧ t.fabric.sent = s.hubClk ∧
      t.out = s.out ++ s.liveLinks.map (fun k => Answer.word 3 (BitVec.ofNat 64 (65536 * k + s.regN offOwnep 15 0))) ∧ t.fabric.heard = [] ∧
      ∀ ep, lookupD t.fabric.missed ep 0 = lookupD s.fabric.missed ep 0 +
        (if (List.range 64).any (fun n => s.winState n == 1 && s.winEp n == ep) && !s.fabric.heard.contains ep then 1 else 0) := by
  refine ⟨_, State.heartbeatSend_next due time, rfl, rfl, rfl, fun ep => ?_⟩
  dsimp only
  rw [lookupD_foldl_setKey (List.Nodup.filter _ (show s.watched.Nodup from nodup_dedupN _))]
  exact congrArg _ (if_congr (by rw [List.mem_filter, State.mem_watched, Bool.and_eq_true]) rfl rfl)

theorem heartbeatsCome (s : State) (ep plane : Nat) : (∃ t, exec (.heartbeatArrival ep) s = .next t ∧ lookupD t.fabric.missed ep 0 = 0 ∧
      ep ∈ t.fabric.heard ∧ ∀ e, e ≠ ep → lookupD t.fabric.missed e 0 = lookupD s.fabric.missed e 0) ∧
    (plane ≤ 7 → bitAt (s.reg offReady) (5 + plane) = true → ∃ t, exec (.endpointClaimAck ep plane) s = .next t ∧
      ∀ c ∈ t.fabric.claims, c.1 = ep → plane ∈ c.2) := by
  refine ⟨⟨_, rfl, ?_, by simp, fun e ne => ?_⟩, fun low ready => ?_⟩
  · dsimp only
    rw [lookupD_dropKey, if_pos rfl]
  · dsimp only
    rw [lookupD_dropKey, if_neg ne]
  · refine ⟨_, if_pos ⟨low, ready⟩, fun c hc mine => ?_⟩
    obtain ⟨c', -, rfl⟩ := List.mem_map.mp hc
    by_cases new : c'.1 = ep ∧ c'.2.contains plane = false
    · rw [if_pos new]
      simp
    · rw [if_neg new] at mine ⊢
      exact List.contains_iff_mem.mp (by simpa [mine] using new)

theorem peersSilent (s : State) (n : Nat) (hn : n < 64) (ok : regsOk s) (quiet : Quiet s) (window : s.winState n = 1) (due : s.regN offHbcfg 31 0 ≠ 0)
    (silent : 8 ≤ lookupD s.fabric.missed (s.winEp n) 0) :
    ∃ t, exec (.peerSilent n) s = .next t ∧ t.winState n = 2 ∧ t.winEp n = s.winEp n ∧ t.groups = s.groups ∧ MemoryKept s t ∧
      s.winEp n ∈ t.fabric.silent ∧ (s.winTkov n = true → ∃ c ∈ t.fabric.claims, c.1 = s.winEp n) := by
  have fenced := s.setRegN_retuned (offWin n) 1 0 2
  refine ⟨_, State.peerSilent_next hn quiet window due silent, ?_, ?_, fenced.groups, fenced.memory, by simp, fun taken => ?_⟩
  · exact State.regN_setRegN ok (offWin n) 1 0 2 (by decide) (by decide)
  · exact State.regN_setRegN_field ok (offWin n) 1 0 2 47 32 (by decide) (by decide) (by decide)
  · rw [taken, Bool.true_and]
    by_cases known : s.fabric.claims.any (fun c => c.1 == s.winEp n) = true
    · rw [known]
      obtain ⟨c, hc, e⟩ := List.any_eq_true.mp known
      exact ⟨c, hc, beq_iff_eq.mp e⟩
    · rw [Bool.not_eq_true] at known
      rw [known]
      exact ⟨(s.winEp n, []), by simp, rfl⟩

/-- A sector of the egress escrow drains. -/
theorem egressDrains (s : State) (k : Nat) (e : Egress) (found : s.egress[k]? = some e)
    (oldest : ∀ x ∈ s.egress.take k, x.sector ≠ e.sector ∧ (e.copy = 0 ∨ x.copy ≠ e.copy)) (wf : s.mem.wf = true) :
    let gone := s.unwindowed e.sector
    ((s.fenced e.sector = true ∨ gone = true) → s.servedAt e.sector = none → ∃ t, exec (.egressEscrowDrain k) s = .next t ∧ t.mem = s.mem ∧
      t.egress = (dropNth k s.egress).filter (fun x => e.copy = 0 ∨ x.copy ≠ e.copy) ∧
      (∀ gi op, e.owner = some (gi, op) → gi < s.groups.length → (t.grp gi).pages = (s.grp gi).pages ++ [(op, e.va, if gone then 4 else 1)]) ∧
      (e.copy ≠ 0 → ∀ p, (t.core p).queues = (s.core p).queues.map (fun q => q.map (fun x =>
        if x.id = e.copy ∧ x.status = 0 then { x with status := if gone then 2 else 0x11, fail := e.va } else x)))) ∧
    (s.stopped e = true → ∃ t, exec (.egressEscrowDrain k) s = .next t ∧ MemoryKept s t ∧ t.groups = s.groups ∧ t.egress = dropNth k s.egress) ∧
    (s.fenced e.sector = false → gone = false → s.stopped e = false →
      let landed := fun (t : State) (p : Nat) => t.egress = dropNth k s.egress ∧
        ∀ a, t.mem.get a = if p ≤ a then (e.data.getD (a - p) none).getD (s.mem.get a) else s.mem.get a
      (s.servedAt e.sector = none → ∃ t, exec (.egressEscrowDrain k) s = .next t ∧ landed t e.sector ∧ t.groups = s.groups) ∧
      (∀ h, s.servedAt e.sector = some h → s.poisoned .glob h = false → ∃ t, exec (.egressEscrowDrain k) s = .next t ∧ landed t h)) := by
  intro gone
  let s0 : State := { s with egress := dropNth k s.egress }
  have run : ∀ t, (s0.servedPage e.sector accWrite).sendEgress e = t → exec (.egressEscrowDrain k) s = .next t :=
    fun t h => h ▸ State.egressDrain_next found oldest
  refine ⟨fun away elsewhere => ?_, fun stop => ?_, fun opened here going => ⟨fun elsewhere => ?_, fun h served clean => ?_⟩⟩
  · obtain ⟨mem, egress, pages, queues⟩ := s0.egressFenced_spec e
    refine ⟨s0.egressFenced e, run _ ?_, mem, egress, pages, queues⟩
    rw [State.servedPage_none (s := s0) elsewhere, State.sendEgress_turned (s := s0) away]
  · have elsewhere : s.servedAt e.sector = none := s.servedAt_of_region (by rw [State.region_of_stopped stop]; decide)
    refine ⟨s0, run _ ?_, ⟨rfl, rfl, rfl⟩, rfl, rfl⟩
    rw [State.servedPage_none (s := s0) elsewhere, State.sendEgress]
    exact if_pos stop
  · refine ⟨{ s0 with mem := s0.mem.putSector e.sector e.data }, run _ ?_, ⟨rfl, fun a => Memory.get_putSector wf e.sector a e.data⟩, rfl⟩
    rw [State.servedPage_none (s := s0) elsewhere, State.sendEgress_lands (s := s0) going opened here, State.landAt_elsewhere (s := s0) _ elsewhere]
  · have landed := State.landAt_served (s := s0) e.data served clean
    refine ⟨s0.landAt e.sector e.data, run _ ?_, landed.egress, fun a => ?_⟩
    · rw [State.servedPage_open (s := s0) opened, State.sendEgress_lands (s := s0) going opened here]
    · rw [landed.mem]
      exact Memory.get_putSector wf h a e.data

/-- Settles O57, event by event. -/
theorem fabricEvents : Obligations.FabricEvents := by
  refine ⟨fabricRequests, planesDie, heartbeatsSent, heartbeatsCome, peersSilent, ?_, ?_, egressDrains, fun _ _ => rfl⟩
  · intro s sr value w f addr s0 read good engine
    exact congrArg Host.Outcome.next (State.takeColl_words (s := s0) (c := ⟨s.seq, addr, f, [], none⟩) read good engine)
  · intro s s1 s2 c id addr f z w fmt own found read s0 agree format bytes free put
    show execCollectiveComplete c s = _
    unfold execCollectiveComplete
    rw [found]
    dsimp only
    rw [format]
    dsimp only
    have contributions : (s.dropColl c).collBytes f (w.getD 0 0).toNat (z * colCount w) [] = .ok (own, s1) := bytes
    rw [if_neg (by simpa using read), agree, if_neg (by decide), contributions]
    dsimp only
    rw [free]
    dsimp only [State.putColl]
    rw [put]

end Sys2Proof.Machine
end

section
/-! Copy engines (O48): an entry starts, its sectors arrive, it ends; fences, acknowledgements and request lists. -/

namespace Sys2Proof.Machine

variable {s t : State} {core q : Nat} {e : Entry}

/-! Queues -/

theorem State.queues_modQueue (s : State) (core q : Nat) (f : List Entry → List Entry) :
    ((s.modQueue core q f).core core).queues = modifyNth f q (s.core core).queues := by
  rw [State.modQueue, State.core_modCore, if_pos rfl]

/-- The queues with the head entry replaced. -/
theorem State.queues_setHead (s : State) (core q : Nat) (e : Entry) :
    ((s.setHead core q e).core core).queues = modifyNth (fun l => l.map (fun x => if x.id = e.id then e else x)) q (s.core core).queues :=
  s.queues_modQueue ..

theorem State.core_pushEntry (s : State) (q : Nat) (e : Entry) (h : e.core = core) :
    (s.pushEntry q e).core core = { s.core core with queues := modifyNth (fun l => enterQueue (l ++ [e])) q (s.core core).queues } := by
  rw [State.pushEntry, State.core_modCore, h, if_pos rfl]

/-- A head entry that has started, is in no error and may go on. -/
theorem State.lineArrival_next {x : Todo} {rest : List Todo} (head : s.engineHead core q = some e) (started : e.started = true) (status : e.status = 0)
    (runs : s.engineRuns core q e = true) (todo : e.todo = x :: rest) : exec (.engineLineArrival core q) s = .next (s.arriveSector core q e x rest) := by
  show execEngineLineArrival core q s = _
  unfold execEngineLineArrival
  rw [head]
  dsimp only
  rw [started, runs, todo, if_neg (by simp [status])]

theorem State.entryStart_next {ss ds : Space} {src dst len : Nat} (head : s.engineHead core q = some e) (started : e.started = false) (status : e.status = 0)
    (runs : s.engineRuns core q e = true) (kind : e.kind = .linear ss ds src dst len) (some : len ≠ 0) :
    exec (.engineEntryStart core q) s = .next (s.begin_ core q e (s.linearTodo e ss ds src dst len) false) := by
  show execEngineEntryStart core q s = _
  unfold execEngineEntryStart
  rw [head]
  dsimp only
  rw [started, runs, if_neg (by simp [status]), kind]
  dsimp only
  rw [if_neg some]

theorem State.entryComplete_next (head : s.engineHead core q = some e) (started : e.started = true) (runs : s.engineRuns core q e = true)
    (todo : e.todo = []) : exec (.engineEntryComplete core q) s = .next (s.endEntry core q e) := by
  show execEngineEntryComplete core q s = _
  unfold execEngineEntryComplete
  rw [head]
  dsimp only
  rw [started, runs, todo, if_pos (by simp)]

/-! A sector of a copy within the tile store -/

/-- A place of the tile store that an entry may read and write: in its window, allotted, not poisoned, below the fabric. -/
structure Reachable (s : State) (e : Entry) (a : Nat) : Prop where
  low : a < 2 ^ 55
  window : s.inWindow e.func e.core (a / Config.sliceBytes) = true
  belowEngine : a % Config.sliceBytes < Config.engineRegion
  allotted : s.allotted e.func (a / Config.sliceBytes) (a % Config.sliceBytes) = true
  clean : s.poisoned .tile a = false

theorem Reachable.reach {a : Nat} (h : Reachable s e a) (q access : Nat) : s.reach q e .tile a access = .at_ a s := by
  unfold State.reach
  dsimp only
  rw [h.window, h.allotted, if_pos (by simp [h.belowEngine])]

theorem Reachable.region {a : Nat} (h : Reachable s e a) : regionOf a = 0 := by
  rw [regionOf, natBits, Nat.shiftRight_eq_div_pow, Nat.div_eq_of_lt h.low, Nat.zero_mod]

theorem Entry.newPacket_near {a : Nat} (e : Entry) (last : Option (Nat × Nat)) (h : regionOf a = 0) : e.newPacket last a = false := by
  simp [Entry.newPacket, h]

/-- The sector at src of the tile store, as a copy's sector holds it. -/
def tileSrcs (s : State) (src : Nat) : List (Option Src) := (List.range 32).map (fun b => some ⟨.tile, src + b, some (s.tile.get (src + b))⟩)

theorem foldl_known (x : Space × Nat) (n : Nat) :
    (List.replicate n x).foldl (fun acc x => if acc.any (fun y => y.2 == x.2) then acc else acc ++ [x]) [x] = [x] := by
  induction n with
  | zero => rfl
  | succ n ih =>
    rw [List.replicate_succ, List.foldl_cons, if_pos (by simp)]
    exact ih

theorem sectorOf_add {src b : Nat} (aligned : src % 32 = 0) (h : b < 32) : sectorOf (src + b) = src := by
  unfold sectorOf alignDown
  omega

theorem Todo.sources_tileSrcs {x : Todo} {src : Nat} (aligned : src % 32 = 0) (srcs : x.srcs = tileSrcs s src) : x.sources = [(.tile, src)] := by
  have all : x.srcs.filterMap (fun x => x.map (fun y => (y.space, sectorOf y.addr))) = List.replicate 32 (.tile, src) := by
    have one : ∀ b ∈ List.range 32, ((fun x : Option Src => x.map (fun y => (y.space, sectorOf y.addr))) ∘
        fun b => some ⟨.tile, src + b, some (s.tile.get (src + b))⟩) b = (some ∘ fun _ => (.tile, src)) b := fun b hb => by
      simp only [Function.comp_apply, Option.map_some, sectorOf_add aligned (List.mem_range.mp hb)]
    rw [srcs, tileSrcs, List.filterMap_map, List.filterMap_congr one, List.filterMap_eq_map, List.map_const', List.length_range]
  unfold Todo.sources
  dsimp only
  rw [all, List.replicate_succ, List.foldl_cons]
  exact foldl_known ..

theorem State.sources_one {src : Nat} (h : Reachable s e src) (q : Nat) : s.sources q e [(.tile, src)] [] = .ok ([(src, src)], s) := by
  unfold State.sources
  rw [h.reach]
  dsimp only
  rw [h.clean]
  rfl

/-- The bytes of a sector whose source has not changed since the start: what stands there now (R311). -/
theorem State.copyData_unchanged {x : Todo} {src : Nat} (s : State) (func : Nat) (aligned : src % 32 = 0) (srcs : x.srcs = tileSrcs s src) :
    s.copyData func x [(src, src)] = ((List.range 32).map (fun b => some (s.tile.get (src + b))), (s.drawN 1).2) := by
  refine Prod.ext ?_ rfl
  unfold State.copyData
  dsimp only
  rw [srcs, tileSrcs, List.map_map]
  refine List.map_congr_left fun b hb => ?_
  have low := List.mem_range.mp hb
  have now : s.srcByte func .tile (lookupD [(src, src)] (sectorOf (src + b)) 0 + (src + b) % 32) = s.tile.get (src + b) := by
    rw [sectorOf_add aligned low, lookupD, if_pos rfl, show src + (src + b) % 32 = src + b by omega]
    rfl
  simp only [Function.comp_apply, Option.map_some, Option.getD_some]
  rw [now, ite_self]

/-- A sector written to the tile store by an entry without a till, the last of its line: the bytes, and the line is present. -/
theorem State.writeSector_tile {x : Todo} {rest : List Todo} (s : State) (core q : Nat) (p : Nat) (d : List (Option Byte)) (space : x.space = .tile)
    (last : ∀ y ∈ rest, y.sameLine x = false) (till : e.till = 0) :
    let t := s.writeSector core q e x rest p d false
    t.tile = s.tile.putSector p d ∧ t.absent = s.absent.filter (fun l => l ≠ alignDown p 64) ∧
      (t.core core).queues =
        modifyNth (fun l => l.map (fun y => if y.id = e.id then { e with todo := rest, lineAcc := 0 } else y)) q (s.core core).queues := by
  have written := s.devWrite_tile p d none false
  have entered : s.entryWrite e x.space x.sector p d = s.devWrite .tile p d none false := by
    rw [space]
    exact State.stampEgress_same written.egress _
  have alone : rest.any (fun y => y.sameLine x) = false := List.any_eq_false.mpr fun y hy => by rw [last y hy]; decide
  intro t
  have result : t = (({ s.devWrite .tile p d none false with absent := s.absent.filter (fun l => l ≠ alignDown p 64) } : State).evalTills
      (alignDown p 64)).setHead core q { e with todo := rest, lineAcc := 0 } := by
    show s.writeSector core q e x rest p d false = _
    unfold State.writeSector
    dsimp only
    rw [entered, alone, space, till, ← written.absent]
    rfl
  have stirred := (State.evalTills_stirs ({ s.devWrite .tile p d none false with absent := s.absent.filter (fun l => l ≠ alignDown p 64) } : State)
    (alignDown p 64)).becomes
  rw [result]
  refine ⟨stirred.tile.trans written.tile, stirred.absent, ?_⟩
  rw [State.queues_setHead, stirred.queues]
  exact congrArg _ (written.queues core)

/-- A sector of a copy within the tile store arrives, its source as it was at the start. -/
theorem State.arriveSector_tile {x : Todo} {rest : List Todo} {ksrc kdst len src : Nat} (kind : e.kind = .linear .tile .tile ksrc kdst len)
    (space : x.space = .tile) (aligned : src % 32 = 0) (srcs : x.srcs = tileSrcs s src) (from_ : Reachable s e src) (dest : Reachable s e x.sector) :
    s.arriveSector core q e x rest =
      (s.drawN 1).2.writeSector core q e x rest x.sector ((List.range 32).map (fun b => some (s.tile.get (src + b)))) false := by
  have read : e.readPacket src = e := by
    rw [Entry.readPacket, e.newPacket_near _ from_.region]
    rfl
  have sent : e.sendPacket x.sector = e := by
    rw [Entry.sendPacket, e.newPacket_near _ dest.region]
    rfl
  unfold State.arriveSector
  dsimp only
  rw [kind]
  dsimp only
  rw [if_neg (by decide), if_neg (by decide), Todo.sources_tileSrcs aligned srcs, State.sources_one from_]
  simp only [List.foldl_cons, List.foldl_nil, read, space, dest.reach, sent, dest.clean, kind, State.copyData_unchanged s e.func aligned srcs,
    Bool.false_and, Bool.false_eq_true, if_false]

/-! Fences -/

/-- Queues that change one after another, each once. -/
theorem State.queues_foldl_modQueue (f : List Entry → List Entry) {ks : List Nat} (once : ks.Nodup) (inside : ∀ k ∈ ks, k < (s.core core).queues.length)
    (k : Nat) : ((ks.foldl (fun s k => s.modQueue core k f) s).core core).queues.getD k [] =
      if k ∈ ks then f ((s.core core).queues.getD k []) else (s.core core).queues.getD k [] := by
  induction ks generalizing s with
  | nil => rfl
  | cons j ks ih =>
    obtain ⟨new, once⟩ := List.nodup_cons.mp once
    obtain ⟨here, there⟩ := List.forall_mem_cons.mp inside
    rw [List.foldl_cons, ih once (by rw [State.queues_modQueue, modifyNth_length]; exact there), State.queues_modQueue, getD_modifyNth]
    by_cases h : k = j
    · subst h
      rw [if_neg new, if_pos ⟨rfl, here⟩, if_pos List.mem_cons_self]
    · rw [if_neg (fun a : k = j ∧ _ => h a.1)]
      exact if_congr (by rw [List.mem_cons, or_iff_right h]) rfl rfl

theorem State.memory_foldl_modQueue (f : List Entry → List Entry) (ks : List Nat) (s : State) :
    MemoryKept s (ks.foldl (fun s k => s.modQueue core k f) s) :=
  List.foldlRecOn (motive := fun t => MemoryKept s t) ks _ ⟨rfl, rfl, rfl⟩ fun _ h _ _ => h

/-! Presence -/

theorem State.mem_clearPresence {p len a : Nat} (s : State) (low : p ≤ a) (high : a < p + len) : alignDown a 64 ∈ (s.clearPresence p len).absent := by
  unfold State.clearPresence
  rw [if_neg (by omega)]
  dsimp only
  by_cases known : alignDown a 64 ∈ s.absent
  · exact List.mem_append_left _ known
  · refine List.mem_append_right _ (List.mem_filter.mpr ⟨List.mem_map.mpr ⟨a / 64 - p / 64, List.mem_range.mpr ?_, ?_⟩, by simpa using known⟩)
    · omega
    · rw [alignDown_eq, alignDown_eq]
      omega

theorem State.absent_clearPresence (s : State) (p len : Nat) {a : Nat} (h : a ∈ s.absent) : a ∈ (s.clearPresence p len).absent := by
  unfold State.clearPresence
  split
  · exact h
  · exact List.mem_append_left _ h

theorem State.cores_clearPresence (s : State) (p len : Nat) : (s.clearPresence p len).cores = s.cores := by
  unfold State.clearPresence
  split <;> rfl

theorem State.clearAck_next {ss : Space} {src dst len : Nat}
    (first : ((s.core core).queues.getD q []).find? (fun y => y.awaitAck && y.rel == 0 && s.sliceCurrent y.func) = some e)
    (kind : e.kind = .linear ss .tile src dst len) : exec (.presenceClearAck core q) s = .next ((s.clearPresence dst len).modQueue core q
      (fun l => enterQueue (l.map (fun x => if x.id = e.id then { x with awaitAck := false } else x)))) := by
  show execPresenceClearAck core q s = _
  unfold execPresenceClearAck
  rw [first]
  dsimp only
  rw [kind]

/-! Request lists -/

/-- A record that is a copy is no end record. -/
theorem State.recKind_of_copy {func at_ n till : Nat} {place : Nat → Option Nat} {w : List W64} {kind : EntryKind}
    (h : s.recordFate func core at_ place w = .copy n kind till) : recKind w ≠ 0 := by
  intro zero
  unfold State.recordFate at h
  dsimp only at h
  rw [zero] at h
  cases clean : recClean w with
  | false => simp [clean] at h
  | true =>
    simp only [clean, Bool.not_true, Bool.false_eq_true, if_false] at h
    split at h
    · exact absurd h (by simp)
    · split at h <;> exact absurd h (by simp)

/-- The lists of a core whose first ready one is served. -/
structure Serves (s : State) (core : Nat) (held : List ListReq) (l : ListReq) (lists : List ListReq) : Prop where
  lists : (s.core core).lists = held ++ l :: lists
  ready : s.listReady l = true
  held : ∀ y ∈ held, s.listReady y = false

section
variable {held lists : List ListReq} {l : ListReq} (h : Serves s core held l lists)
include h

theorem Serves.curList : s.curList core = some l := by
  rw [State.curList, h.lists, List.find?_append, List.find?_eq_none.mpr fun y hy => by rw [h.held y hy]; decide, Option.none_or, List.find?_cons, h.ready]

/-- The served list changed, or taken away. -/
theorem Serves.modList (f : ListReq → Option ListReq) :
    (s.modList core f).core core = { s.core core with lists := held ++ ((f l).toList ++ lists) } := by
  have before : (s.core core).lists.takeWhile (fun l => !s.listReady l) = held := by
    rw [h.lists, List.takeWhile_append_of_pos fun y hy => by simp [h.held y hy], List.takeWhile_cons_of_neg (by simp [h.ready]), List.append_nil]
  have after : (s.core core).lists.dropWhile (fun l => !s.listReady l) = l :: lists := by
    rw [h.lists, List.dropWhile_append_of_pos fun y hy => by simp [h.held y hy], List.dropWhile_cons_of_neg (by simp [h.ready])]
  rw [State.modList, State.core_modCore, if_pos rfl, before, after]

theorem Serves.nextRecord (off : Nat) (ahead : List ListRec) : (s.nextRecord core off l ahead).core core = { s.core core with
    lists := held ++ (if Config.listRecords ≤ l.pos + 1 ∨ Config.engineRegion ≤ off + 64 then lists
      else { l with pos := l.pos + 1, ahead := ahead } :: lists) } := by
  unfold State.nextRecord State.dropList
  split <;> exact h.modList _

/-- Without lists to take the first record of the served list is placed. -/
theorem Serves.listTaken_next {p : Nat} {w : List W64} (kicks : s.kicks core = []) (own : ownPlace core l.addr = some p)
    (first : l.ahead.headD (s.listRecord core l p l.pos) = .words w) (more : recKind w ≠ 0) :
    exec (.requestListTaken core) s = .next (s.placeRecord core (p % Config.sliceBytes + 64 * l.pos) l
      (if l.ahead.drop 1 = [] then s.readAhead core l p Config.listRecords (l.pos + 1) else l.ahead.drop 1) w) := by
  show execRequestListTaken core s = _
  unfold execRequestListTaken State.takeRecord
  rw [kicks]
  dsimp only [sortBy, List.foldl]
  rw [if_neg (Nat.lt_irrefl _), h.curList]
  dsimp only
  rw [own]
  dsimp only
  rw [first]
  dsimp only
  rw [if_congr (show ((l.ahead.drop 1).isEmpty && recKind w != 0) = true ↔ l.ahead.drop 1 = [] by simp [more]) rfl rfl]

end

/-- A record that copies to global memory placed: its list moves on, and its entry stands last in its queue. -/
theorem State.placeRecord_copy {off n src dst len till : Nat} {ss : Space} {l : ListReq} {ahead : List ListRec} {w : List W64}
    (fate : s.recordFate l.func core (2 ^ 31 + off) (ownPlace core) w = .copy n (.linear ss .glob src dst len) till) :
    s.placeRecord core off l ahead w = ((s.nextRecord core off l ahead).fresh.2).pushEntry n (Entry.fresh_ (s.nextRecord core off l ahead).seq
      (.linear ss .glob src dst len) (.list (recTag w) ((s.recCpl l.func (ownPlace core) w).getD 0)) l.func l.name (s.grp l.g).rclass core till) := by
  unfold State.placeRecord
  dsimp only
  rw [fate, if_neg (State.recKind_of_copy fate)]
  rfl

theorem State.nextRecord_others (s : State) (core off : Nat) (l : ListReq) (ahead : List ListRec) :
    (s.nextRecord core off l ahead).seq = s.seq ∧ (s.nextRecord core off l ahead).groups = s.groups ∧ MemoryKept s (s.nextRecord core off l ahead) := by
  unfold State.nextRecord
  split <;> exact ⟨rfl, rfl, rfl, rfl, rfl⟩

/-! The clauses -/

theorem entriesStart (s : State) (core q : Nat) (e : Entry) (src dst len : Nat) (head : s.engineHead core q = some e) (started : e.started = false)
    (status : e.status = 0) (runs : s.engineRuns core q e = true) (kind : e.kind = .linear .tile .tile src dst len) (some_ : len ≠ 0)
    (till : s.tillBad e = false) (_ : src % 32 = 0) : ∃ t, exec (.engineEntryStart core q) s = .next t ∧ MemoryKept s t ∧ t.groups = s.groups ∧
      (t.core core).queues = modifyNth (fun l => l.map (fun y => if y.id = e.id then { e with
        started := true
        todo := (List.range (len / 32)).map (fun k => ⟨.tile, dst + 32 * k, (List.range 32).map (fun b =>
          some ⟨.tile, src + 32 * k + b, some (s.tile.get (src + 32 * k + b))⟩)⟩) } else y)) q (s.core core).queues := by
  refine ⟨_, State.entryStart_next head started status runs kind some_, ⟨rfl, rfl, rfl⟩, rfl, ?_⟩
  unfold State.begin_
  simp only [till, Bool.false_eq_true, if_false]
  exact s.queues_setHead ..

theorem sectorsArrive (s : State) (core q : Nat) (e : Entry) (ksrc kdst len src : Nat) (x : Todo) (rest : List Todo)
    (head : s.engineHead core q = some e) (started : e.started = true) (status : e.status = 0) (runs : s.engineRuns core q e = true)
    (kind : e.kind = .linear .tile .tile ksrc kdst len) (todo : e.todo = x :: rest) (till : e.till = 0) (space : x.space = .tile)
    (last : ∀ y ∈ rest, x.sameLine y = false ∧ y.sameLine x = false) (aligned : src % 32 = 0) (_ : x.sector % 32 = 0) (srcs : x.srcs = tileSrcs s src)
    (here : ∀ a ∈ [src, x.sector], Reachable s e a) (wf : s.tile.wf = true) :
    ∃ t, exec (.engineLineArrival core q) s = .next t ∧ (∀ b < 32, t.tile.get (x.sector + b) = s.tile.get (src + b)) ∧
      (∀ a, (a < x.sector ∨ x.sector + 32 ≤ a) → t.tile.get a = s.tile.get a) ∧ alignDown x.sector 64 ∉ t.absent ∧
      (t.core core).queues = modifyNth (fun l => l.map (fun y => if y.id = e.id then { e with todo := rest, lineAcc := 0 } else y)) q (s.core core).queues := by
  obtain ⟨tile, absent, queues⟩ := (s.drawN 1).2.writeSector_tile (rest := rest) (e := e) core q x.sector
    ((List.range 32).map (fun b => some (s.tile.get (src + b)))) space (fun y hy => (last y hy).2) till
  have arrives := State.lineArrival_next head started status runs todo
  rw [State.arriveSector_tile kind space aligned srcs (here src (by simp)) (here x.sector (by simp))] at arrives
  refine ⟨_, arrives, fun b hb => ?_, fun a ha => ?_, ?_, queues⟩
  · rw [tile, State.drawN_tile, Memory.get_putSector wf, if_pos (Nat.le_add_right ..), Nat.add_sub_cancel_left, getD_range_map, if_pos hb]
    rfl
  · rw [tile, State.drawN_tile, Memory.get_putSector wf, getD_range_map]
    rcases ha with before | behind
    · rw [if_neg (by omega)]
    · rw [if_neg (show ¬a - x.sector < 32 by omega), Option.getD_none, ite_self]
  · rw [absent]
    simp

theorem bulksComplete (s : State) (core q : Nat) (e : Entry) (gi id slot beside : Nat) (d : RegCode) (lanes : BitVec 64)
    (head : s.engineHead core q = some e) (started : e.started = true) (status : e.status = 0) (todo : e.todo = []) (runs : s.engineRuns core q e = true)
    (report : e.report = .bulk gi id) (alone : Alone s gi ⟨id, slot, d, 1, lanes, beside, .bulk none⟩) :
    ∃ t, exec (.engineEntryComplete core q) s = .next t ∧ Ended s t gi d 0 ∧
      MemoryKept s t ∧ (t.core core).queues = modifyNth (fun l => enterQueue (l.filter (fun y => decide (y.id ≠ e.id)))) q (s.core core).queues := by
  let s1 := s.modQueue core q (fun l => enterQueue (l.filter (fun x => x.id ≠ e.id)))
  have alone1 : Alone s1 gi ⟨id, slot, d, 1, lanes, beside, .bulk none⟩ := alone.steady (.regroup (.refl s))
  have ends : s.endEntry core q e = s1.endStatus gi id 0 := by
    unfold State.endEntry
    dsimp only
    rw [status, if_pos rfl, report]
    rfl
  refine ⟨_, State.entryComplete_next head started runs todo, ?_⟩
  rw [ends]
  refine ⟨alone1.ended 0 rfl rfl, ?_⟩
  rw [alone1.endStatus]
  exact ⟨⟨rfl, rfl, rfl⟩, s.queues_modQueue ..⟩

theorem fencesComplete (s : State) (core q : Nat) (e : Entry) (mask tag : Nat) (head : s.engineHead core q = some e) (kind : e.kind = .fence mask)
    (report : e.report = .list tag 0) (runs : s.engineRuns core q e = true) (four : (s.core core).queues.length = 4)
    (heads : ∀ k < 4, Nat.testBit mask k = true → ∃ y, s.engineHead core k = some y ∧ y.id = e.id) :
    ∃ t, exec (.fenceComplete core q) s = .next t ∧ MemoryKept s t ∧ ∀ k < 4, (t.core core).queues.getD k [] =
      if Nat.testBit mask k then enterQueue (((s.core core).queues.getD k []).filter (fun y => decide (y.id ≠ e.id))) else (s.core core).queues.getD k [] := by
  have all : ((List.range 4).filter (fun k => Nat.testBit mask k)).all (fun k => (s.engineHead core k).any (fun x => x.id == e.id)) = true :=
    List.all_eq_true.mpr fun k hk => by
      obtain ⟨low, named⟩ := List.mem_filter.mp hk
      obtain ⟨y, hy, same⟩ := heads k (List.mem_range.mp low) named
      rw [hy]
      exact beq_iff_eq.mpr same
  have run : exec (.fenceComplete core q) s = .next (((List.range 4).filter (fun k => Nat.testBit mask k)).foldl
      (fun s k => s.modQueue core k (fun l => enterQueue (l.filter (fun x => decide (x.id ≠ e.id))))) s) := by
    show execFenceComplete core q s = _
    unfold execFenceComplete
    rw [head]
    dsimp only
    rw [kind]
    dsimp only
    rw [runs, all, if_pos (by decide), report]
    rfl
  refine ⟨_, run, State.memory_foldl_modQueue .., fun k hk => ?_⟩
  rw [State.queues_foldl_modQueue _ (List.nodup_range.filter _) fun j hj => ?_]
  · exact if_congr (by rw [List.mem_filter, List.mem_range]; exact and_iff_right hk) rfl rfl
  · rw [four]
    exact List.mem_range.mp (List.mem_filter.mp hj).1

theorem acknowledged (s : State) (core q : Nat) (e : Entry) (ss : Space) (src dst len : Nat)
    (first : ((s.core core).queues.getD q []).find? (fun y => y.awaitAck && y.rel == 0 && s.sliceCurrent y.func) = some e)
    (kind : e.kind = .linear ss .tile src dst len) : ∃ t, exec (.presenceClearAck core q) s = .next t ∧
      (∀ a, dst ≤ a → a < dst + len → alignDown a 64 ∈ t.absent) ∧ (∀ a ∈ s.absent, a ∈ t.absent) ∧
      (t.core core).queues = modifyNth (fun l => enterQueue (l.map (fun y => if y.id = e.id then { y with awaitAck := false } else y))) q
        (s.core core).queues := by
  refine ⟨_, State.clearAck_next first kind, fun a low high => s.mem_clearPresence low high, fun a ha => s.absent_clearPresence dst len ha, ?_⟩
  rw [State.queues_modQueue, State.core, State.cores_clearPresence]
  rfl

theorem recordsPlaced (s : State) (core : Nat) (l : ListReq) (held lists : List ListReq) (w : List W64) (more : List ListRec)
    (p n src dst len till : Nat) (ss : Space) (kicks : s.kicks core = []) (serves : Serves s core held l lists) (own : ownPlace core l.addr = some p) :
    let off := p % Config.sliceBytes + 64 * l.pos
    (l.ahead = .words w :: more ∨ (l.ahead = [] ∧ more = [] ∧ s.listRecord core l p l.pos = .words w)) →
    s.recordFate l.func core (2 ^ 31 + off) (ownPlace core) w = .copy n (.linear ss .glob src dst len) till →
    ∃ t, exec (.requestListTaken core) s = .next t ∧ MemoryKept s t ∧ t.groups = s.groups ∧
      (t.core core).lists = held ++ (if Config.listRecords ≤ l.pos + 1 ∨ Config.engineRegion ≤ off + 64 then lists
        else { l with pos := l.pos + 1, ahead := if more = [] then s.readAhead core l p Config.listRecords (l.pos + 1) else more } :: lists) ∧
      (t.core core).queues = modifyNth (fun y => enterQueue (y ++ [Entry.fresh_ s.seq (.linear ss .glob src dst len)
        (.list (bitsN (w.getD 4 0) 63 32) ((s.recCpl l.func (ownPlace core) w).getD 0)) l.func l.name (s.grp l.g).rclass core till])) n
        (s.core core).queues := by
  intro off first fate
  obtain ⟨head, tail⟩ : l.ahead.headD (s.listRecord core l p l.pos) = .words w ∧ l.ahead.drop 1 = more := by
    rcases first with ahead | ⟨ahead, last, read⟩
    · rw [ahead]
      exact ⟨rfl, rfl⟩
    · rw [ahead, last]
      exact ⟨read, rfl⟩
  have run := serves.listTaken_next kicks own head (State.recKind_of_copy fate)
  rw [tail, State.placeRecord_copy fate] at run
  obtain ⟨seq, groups, memory⟩ := s.nextRecord_others core off l (if more = [] then s.readAhead core l p Config.listRecords (l.pos + 1) else more)
  have moved := serves.nextRecord off (if more = [] then s.readAhead core l p Config.listRecords (l.pos + 1) else more)
  refine ⟨_, run, memory, groups, ?_, ?_⟩
  · rw [State.core_pushEntry (core := core) _ _ _ rfl]
    exact congrArg Core.lists moved
  · rw [State.core_pushEntry (core := core) _ _ _ rfl, seq]
    exact congrArg _ (congrArg Core.queues moved)

/-- Settles O48, event by event. -/
theorem engineEvents : Obligations.EngineEvents := by
  intro s core q e
  refine ⟨entriesStart s core q e, ?_, bulksComplete s core q e, fencesComplete s core q e, acknowledged s core q e, ?_⟩
  · intro ksrc kdst len src x rest head started status runs kind todo till space last aligned sector srcs here
    refine sectorsArrive s core q e ksrc kdst len src x rest head started status runs kind todo till space last aligned sector srcs fun a ha => ?_
    obtain ⟨low, window, below, allotted, clean⟩ := here a ha
    exact ⟨low, window, below, allotted, clean⟩
  · intro l held lists w more p n src dst len till ss kicks all current before own waiting off first
    have ready : s.listReady l = true := by rw [State.listReady, current, before]; rfl
    refine recordsPlaced s core l held lists w more p n src dst len till ss kicks ⟨all, ready, fun y hy => ?_⟩ own ?_
    · rcases waiting y hy with h | h <;> simp [State.listReady, h]
    · refine first.imp_right fun ⟨ahead, last, aligned, allotted, clean, words⟩ => ⟨ahead, last, ?_⟩
      rw [State.listRecord, if_neg (fun h => h.elim (absurd aligned) fun k => absurd (k.symm.trans allotted) (by decide)), if_neg (by rw [clean]; decide), words]

end Sys2Proof.Machine
end

section
/-! Commits: what becomes of entries of escrow that a commit step moves up, lands or discards. -/

namespace Sys2Proof.Machine

variable {s t : State} {gi id own scope : Nat} {e x : Esc} {o : Op}

theorem Becomes.memory {es : List Esc} {eg : List Egress} (h : Becomes s t s.mem s.tile es eg) : MemoryKept s t := ⟨h.mem, h.tile, h.opbuf⟩

/-! Entries that may move -/

theorem Held.movable (h : Held s gi id e) (re : Bool) : s.movable re e = true := by
  have present : s.absentEsc e = false := by
    rcases h.present with glob | there
    · simp [State.absentEsc, glob]
    · simp [State.absentEsc, there]
  simp [State.movable, h.unmarked, State.pinned, h.after, present]

theorem Held.covered (h : Held s gi id e) (scope : Nat) (some : 1 ≤ scope) : coveredBy gi id scope e = true := by
  simp [coveredBy, h.owner, h.sealed, Esc.below, h.level, some]

/-- An entry under another seal is not covered. -/
theorem coveredBy_ne (h : e.sealId ≠ id) : coveredBy gi id scope e = false := by simp [coveredBy, h]

/-- An entry of another group is not covered. -/
theorem coveredBy_other (h : e.owner ≠ gi) : coveredBy gi id scope e = false := by simp [coveredBy, h]

/-- An entry that stands at the scope's level is not below it. -/
theorem coveredBy_raised (h : e.level = levelOf scope) (low : scope ≤ 2) : coveredBy gi id scope e = false := by
  have notBelow : e.below scope = false := by
    rw [Esc.below, h, levelOf]
    by_cases one : scope = 1
    · simp [one]
    · simp only [one, if_false, decide_eq_false_iff_not]
      omega
  simp [coveredBy, notBelow]

theorem Held.of_absent (h : Held s gi id e) (absent : t.absent = s.absent) : Held t gi id e :=
  ⟨h.owner, h.level, h.sealed, h.unmarked, h.after, h.whole, by rw [absent]; exact h.present⟩

theorem byAge_one (h : e.level = .group) : byAge [e] = [e] := by simp [byAge, h]

/-! A commit step -/

/-- No OBLOAD of the group keeps a line. -/
def Group.keepsNone (g : Group) : Prop := ∀ o ∈ g.ops, ∀ r off src len own, o.kind ≠ .obload r off src len own

theorem State.keepLines_none (h : (s.grp gi).keepsNone) (es : List Esc) : s.keepLines gi es = s := by
  unfold State.keepLines
  dsimp only
  rw [if_pos]
  rw [Bool.not_eq_true', List.any_eq_false]
  intro o ho
  have none := h o ho
  split
  next r off src len own k => exact absurd k (none r off src len own)
  next => decide

theorem State.keepLines_nil (s : State) (gi : Nat) : s.keepLines gi [] = s := by
  unfold State.keepLines
  dsimp only
  split <;> rfl

/-- The state before entries move: at system scope the egress escrow goes first (R97). -/
def State.drained (s : State) (scope : Nat) : State := if scope = 4 then s.drainEgress else s

theorem State.drained_empty (h : s.egress = []) (scope : Nat) : s.drained scope = s := by
  unfold State.drained State.drainEgress
  rw [h]
  split <;> rfl

/-- An entry on its way to a scope. -/
def State.moveOne (s : State) (gi id scope : Nat) (mine : Esc → Bool) (e : Esc) : State :=
  if scope = 1 then s.raiseEsc e .team ((s.grp gi).nextSeal id .team)
  else if scope = 2 then s.raiseEsc e .cluster ((s.grp gi).nextSeal id .cluster)
  else s.landEsc (scope == 4) mine e

/-- The entries of a commit that may move now, in the order of their stores: the sectors that may move whole. -/
def State.readyOf (s : State) (re : Bool) (es : List Esc) : List Esc :=
  byAge (es.filter (fun e => es.all (fun x => x.space != e.space || x.sector != e.sector || s.movable re x)))

/-- Entries moved up to a scope. -/
def State.moveAll (s : State) (gi id scope : Nat) (mine : Esc → Bool) (es ready : List Esc) : State :=
  if scope = 1 then if es.all (fun e => ready.contains e) then ready.foldl (fun s e => s.raiseEsc e .team ((s.grp gi).nextSeal id .team))
      (s.keepLines gi ready) else s
  else if scope = 2 then ready.foldl (fun s e => s.raiseEsc e .cluster ((s.grp gi).nextSeal id .cluster)) (s.keepLines gi ready)
  else ready.foldl (fun s e => s.landEsc (scope == 4) mine e) (s.keepLines gi ready)

section
variable {re : Bool} {mine : Esc → Bool}

/-- A commit step over all its sectors, none of which is to be translated again. -/
theorem State.moveEscrow_all (unmarked : ∀ x ∈ s.escrow, mine x = true → x.marked = false) :
    s.moveEscrow gi id scope [] re mine = (s.drained scope).moveAll gi id scope mine ((s.drained scope).escrow.filter mine)
      ((s.drained scope).readyOf re ((s.drained scope).escrow.filter mine)) := by
  have none : s.escrow.filter (fun e => mine e && e.marked && e.space == .glob) = [] :=
    List.filter_eq_nil_iff.mpr fun x hx h => by
      simp only [Bool.and_eq_true] at h
      exact absurd h.1.2 (by rw [unmarked x hx h.1.1]; decide)
  unfold State.moveEscrow
  simp only [List.isEmpty_nil, Bool.true_or, Bool.and_true, none, List.foldl_nil, ite_self]
  rfl

/-- Where none of the entries may move, none does. -/
theorem State.moveEscrow_idle (unmarked : ∀ x ∈ s.escrow, mine x = true → x.marked = false)
    (stuck : ∀ x ∈ (s.drained scope).escrow, mine x = true → (s.drained scope).movable re x = false) :
    s.moveEscrow gi id scope [] re mine = s.drained scope := by
  have ready : (s.drained scope).readyOf re ((s.drained scope).escrow.filter mine) = [] := by
    have none : ((s.drained scope).escrow.filter mine).filter (fun e => ((s.drained scope).escrow.filter mine).all
        (fun x => x.space != e.space || x.sector != e.sector || (s.drained scope).movable re x)) = [] :=
      List.filter_eq_nil_iff.mpr fun x hx all => by
        obtain ⟨inside, hmine⟩ := List.mem_filter.mp hx
        have := List.all_eq_true.mp all x hx
        simp [stuck x inside hmine] at this
    rw [State.readyOf, none]
    rfl
  rw [State.moveEscrow_all unmarked, ready, State.moveAll]
  simp only [List.foldl_nil, State.keepLines_nil, ite_self]

/-- The one entry of a commit, which may move, moves. -/
theorem State.moveEscrow_one (found : s.escrow.filter mine = [e]) (unmarked : e.marked = false) (movable : s.movable re e = true)
    (level : e.level = .group) (still : s.drained scope = s) (none : (s.grp gi).keepsNone) :
    s.moveEscrow gi id scope [] re mine = s.moveOne gi id scope mine e := by
  have ready : s.readyOf re [e] = [e] := by simp [State.readyOf, movable, byAge_one level]
  rw [State.moveEscrow_all, still, found, ready, State.moveAll, State.keepLines_none none]
  · simp [State.moveOne]
  · intro x hx hmine
    have inside : x ∈ s.escrow.filter mine := List.mem_filter.mpr ⟨hx, hmine⟩
    rw [found, List.mem_singleton] at inside
    rw [inside, unmarked]

end

/-! Raising an entry -/

/-- An entry moved up: it is the newest at its level, and nothing else of memory changes. -/
theorem State.raiseEsc_becomes (s : State) (e : Esc) (level : Level) (next : Nat) : Becomes s (s.raiseEsc e level next) s.mem s.tile
    (s.escrow.filter (fun x => x ≠ e) ++ [{ e with level := level, sealId := next, after := [] }]) s.egress := by
  have hit := (s.hitWrite_stirs (if level = .team then 2 else 1) (some e.owner) e.space e.sector e.data).becomes
  unfold State.raiseEsc
  dsimp only
  rw [hit.escrow]
  exact hit.withEscrow _

/-- No later commit step of a group with one operation covers what it has raised. -/
theorem Group.nextSeal_one {g : Group} (one : g.ops = [o]) (step : o.commitStep = some scope) (low : scope ≤ 2) (own : Nat) :
    g.nextSeal own (levelOf scope) = 0 := by
  unfold Group.nextSeal
  rw [one, List.find?_cons, step, levelOf]
  by_cases team : scope = 1
  · simp [team]
  · have notAbove : ¬3 ≤ scope := by omega
    simp [team, notAbove]

theorem ite_watch {p : Prop} [Decidable p] {j : Nat} (h : (s.grp j).watch = []) (k : (t.grp j).watch = []) :
    ((if p then s else t).grp j).watch = [] := by
  split
  · exact h
  · exact k

/-- Watches of a group without any stay none. -/
theorem State.hitWrite_watch (s : State) {layer : Nat} {by_ : Option Nat} {space : Space} {sector : Nat} {d : List (Option Byte)} {j : Nat}
    (h : (s.grp j).watch = []) : ((s.hitWrite layer by_ space sector d).grp j).watch = [] := by
  unfold State.hitWrite
  refine List.foldlRecOn (motive := fun u : State => (u.grp j).watch = []) _ _ h fun u hu gi _ => ?_
  refine ite_watch ?_ hu
  rw [State.grp_modGrp]
  split
  · simp [hu]
  · exact hu

theorem State.raiseEsc_watch {level : Level} {next : Nat} {j : Nat} (h : (s.grp j).watch = []) : ((s.raiseEsc e level next).grp j).watch = [] :=
  s.hitWrite_watch h

/-- An entry at a level that its group's commit step has given it. -/
def Esc.raised (e : Esc) (scope : Nat) : Esc := { e with level := levelOf scope, sealId := 0 }

theorem State.moveOne_raised (h : Alone s gi o) (step : o.commitStep = some scope) (some_ : 1 ≤ scope) (low : scope ≤ 2) (mine : Esc → Bool)
    (after : e.after = []) : Becomes s (s.moveOne gi own scope mine e) s.mem s.tile (s.escrow.filter (fun x => x ≠ e) ++ [e.raised scope]) s.egress ∧
      ((s.grp gi).watch = [] → ((s.moveOne gi own scope mine e).grp gi).watch = []) := by
  have next := Group.nextSeal_one h.one step low own
  have shape : ({ e with level := levelOf scope, sealId := 0, after := [] } : Esc) = e.raised scope := by rw [← after]; rfl
  have moves : s.moveOne gi own scope mine e = s.raiseEsc e (levelOf scope) 0 := by
    rw [← next]
    unfold State.moveOne levelOf
    by_cases team : scope = 1
    · rw [if_pos team, if_pos team]
    · rw [if_neg team, if_neg team, if_pos (by omega)]
  have raised := s.raiseEsc_becomes e (levelOf scope) 0
  rw [moves, ← shape]
  exact ⟨raised, State.raiseEsc_watch⟩

/-! Discarding an entry -/

theorem State.dropEsc_group (h : e.level = .group) : s.dropEsc e = { s with escrow := s.escrow.filter (fun x => x ≠ e) } := by
  have none : s.hitRetract e = s := by
    unfold State.hitRetract
    rw [h]
    rfl
  unfold State.dropEsc
  rw [none]

/-- The one entry of a commit discarded. -/
theorem State.discardBelow_one {mine : Esc → Bool} (all : s.escrow = [e]) (owner : e.owner = gi) (level : e.level = .group) (hmine : mine e = true) :
    s.discardBelow gi mine = { s with escrow := [] } := by
  unfold State.discardBelow
  rw [all, List.filter_cons_of_pos (by simp [owner, level, hmine]), List.filter_nil, List.foldl_cons, List.foldl_nil, State.dropEsc_group level, all,
    List.filter_cons_of_neg (by simp), List.filter_nil]

/-! Landing an entry -/

/-- Its sector's places lie in its region. -/
theorem Held.region (h : Held s gi id e) {k : Nat} (hk : k ∈ enabled e.data) : regionOf (e.sector + k) = regionOf e.sector := by
  obtain ⟨-, a, found, -⟩ := mem_positions.mp hk
  have low := (List.getElem?_eq_some_iff.mp found).1
  rw [h.whole.2] at low
  exact regionOf_add h.whole.1 (by omega) (by decide)

/-- Blocks of other memory than CXL's keep their keys. -/
theorem Held.rekey (h : Held s gi id e) (near : e.space = .tile ∨ regionOf e.sector ≠ 1) (func : Nat) :
    s.rekey func e.space ((enabled e.data).map (fun k => e.sector + k)) = s := by
  rcases near with tile | near
  · rw [tile]
    rfl
  · refine s.rekey_of_region func e.space fun p hp => ?_
    obtain ⟨k, hk, rfl⟩ := List.mem_map.mp hp
    rw [h.region hk]
    exact near

/-- The sector of an entry that leaves the egress escrow as it is. -/
theorem State.writeEsc_becomes {m tl : Memory} (h : Held s gi id e) (near : e.space = .tile ∨ regionOf e.sector ≠ 1) {sys : Bool}
    (put : Becomes s (s.devWrite e.space e.sector e.data (some e.owner) sys) m tl s.escrow s.egress) :
    Becomes s (s.writeEsc sys e) m tl (s.escrow.filter (fun x => x ≠ e)) s.egress := by
  unfold State.writeEsc
  dsimp only
  rw [h.rekey near, State.stampEgress_same put.egress]
  split
  · have marked := put.outdate (s.viewers e) e.bytes
    rw [marked.escrow]
    exact marked.withEscrow _
  · rw [put.escrow]
    exact put.withEscrow _

/-- An entry of the tile store lands. -/
theorem State.writeEsc_tile (h : Held s gi id e) (tile : e.space = .tile) (sys : Bool) :
    Becomes s (s.writeEsc sys e) s.mem (s.tile.putSector e.sector e.data) (s.escrow.filter (fun x => x ≠ e)) s.egress := by
  refine State.writeEsc_becomes h (.inl tile) ?_
  rw [tile]
  exact s.devWrite_tile ..

/-- An entry of global memory that reaches its destination at once. -/
theorem State.writeEsc_glob (h : Held s gi id e) (glob : e.space = .glob) {sys : Bool}
    (direct : regionOf e.sector = 0 ∨ (sys = true ∧ s.egress = [] ∧ regionOf e.sector = 2)) :
    Becomes s (s.writeEsc sys e) (s.mem.putSector e.sector e.data) s.tile (s.escrow.filter (fun x => x ≠ e)) s.egress := by
  have near : regionOf e.sector ≠ 1 ∧ regionOf e.sector ≠ 3 := by
    rcases direct with region | ⟨-, -, region⟩ <;> rw [region] <;> decide
  refine State.writeEsc_becomes h (.inr near.1) ?_
  rw [glob]
  exact s.devWrite_glob _ _ (direct.imp_right fun ⟨system, empty, _⟩ => ⟨system, empty, near.2⟩)

/-- An entry of the host's memory waits in the egress escrow at device scope. -/
theorem State.writeEsc_egress (h : Held s gi id e) (glob : e.space = .glob) (host : regionOf e.sector = 2) (some_ : (enabled e.data).isEmpty = false) :
    ∃ x, x.sector = e.sector ∧ x.data = e.data ∧
      Becomes s (s.writeEsc false e) s.mem s.tile (s.escrow.filter (fun x => x ≠ e)) (s.egress ++ [x]) := by
  have put := s.devWrite_egress e.data (some e.owner) (sector := e.sector) (by rw [host]; decide) some_
  refine ⟨⟨e.sector, e.data, 0, some (e.owner, (s.grp e.owner).sealOp e.sealId), e.va, none, some (s.grp e.owner).func⟩, rfl, rfl, ?_⟩
  unfold State.writeEsc
  dsimp only
  rw [h.rekey (.inr (by rw [host]; decide)), glob, State.stampEgress_one put.egress, if_pos rfl]
  have marked := (put.withEgress (s.egress ++ [⟨e.sector, e.data, 0, some (e.owner, (s.grp e.owner).sealOp e.sealId), e.va, none,
    some (s.grp e.owner).func⟩])).outdate (s.viewers e) e.bytes
  rw [marked.escrow]
  exact marked.withEscrow _

/-- An entry that is neither poisoned nor turned away is written. -/
theorem State.landEsc_writes {sys : Bool} {mine : Esc → Bool} (here : e ∈ s.escrow) (clean : s.poisoned e.space e.sector = false)
    (taken : e.space = .glob → s.turnsAway (s.grp e.owner).func e.sector = false) : s.landEsc sys mine e = s.writeEsc sys e := by
  have inside : s.escrow.contains e = true := List.contains_iff_mem.mpr here
  have goes : (e.space == .glob && s.turnsAway (s.grp e.owner).func e.sector) = false := by
    cases space : e.space with
    | tile => rfl
    | glob => rw [taken space]; rfl
  unfold State.landEsc
  rw [inside, clean, goes]
  rfl

/-- At device and system scope an entry is written. -/
theorem State.moveOne_lands {mine : Esc → Bool} (high : 3 ≤ scope) (here : e ∈ s.escrow) (clean : s.poisoned e.space e.sector = false)
    (taken : e.space = .glob → s.turnsAway (s.grp e.owner).func e.sector = false) : s.moveOne gi own scope mine e = s.writeEsc (scope == 4) e := by
  unfold State.moveOne
  rw [if_neg (by omega), if_neg (by omega), State.landEsc_writes here clean taken]

/-! The egress escrow drained -/

/-- The one sector of the egress escrow, of the host's memory and not stopped, reaches its destination. -/
theorem State.drainEgress_one {x : Egress} (one : s.egress = [x]) (host : regionOf x.sector = 2) (going : s.stopped x = false) :
    s.drainEgress = { s with egress := [], mem := s.mem.putSector x.sector x.data } := by
  have far : regionOf x.sector ≠ 3 := by rw [host]; decide
  have elsewhere : ({ s with egress := [] } : State).servedAt x.sector = none := State.servedAt_of_region _ far
  unfold State.drainEgress
  rw [one, List.foldl_cons, List.foldl_nil, one, if_pos (by simp), List.erase_cons_head]
  simp only [State.servedPage, elsewhere, State.sendEgress, State.landAt]
  have moving : ({ s with egress := [] } : State).stopped x = false := going
  rw [moving, if_neg (by decide), if_neg]
  simp [State.fenced, State.unwindowed, far]

end Sys2Proof.Machine
end

section
/-! The operations that make a commit step: COMMIT, ABORT, releasing stores, kick stores, and requests, each alone in its group and with no
integrity debt. -/

namespace Sys2Proof.Machine

variable {s t u : State} {gi id own scope : Nat} {e x : Esc} {o : Op}

/-! No debt, nothing before -/

theorem Group.indebted_false {g : Group} (debt : g.debt = []) (owed : g.owedInteg = false) : g.indebted = false := by
  simp [Group.indebted, debt, owed]

theorem Alone.keepsNone (h : Alone s gi o) (kind : ∀ r off src len own, o.kind ≠ .obload r off src len own) : (s.grp gi).keepsNone := by
  intro y hy
  rw [h.one, List.mem_singleton] at hy
  rw [hy]
  exact kind

/-- A commit step that finds none of its entries. -/
theorem State.commitStep_none (none : ∀ x ∈ s.escrow, coveredBy gi id scope x = false) (still : s.drained scope = s) (re : Bool) :
    s.commitStep gi id scope [] re = (s, true) := by
  have idle : s.moveEscrow gi id scope [] re (coveredBy gi id scope) = s := by
    rw [State.moveEscrow_idle, still]
    · exact fun x hx h => absurd h (by rw [none x hx]; decide)
    · rw [still]
      exact fun x hx h => absurd h (by rw [none x hx]; decide)
  have left : s.escrow.any (coveredBy gi id scope) = false := List.any_eq_false.mpr fun x hx => by rw [none x hx]; decide
  rw [State.commitStep, idle, left]
  rfl

/-- A commit step with one entry, after which none is left below the scope. -/
theorem State.commitStep_one (h : Held s gi id e) (found : s.escrow.filter (coveredBy gi id scope) = [e]) (still : s.drained scope = s)
    (none : (s.grp gi).keepsNone) (re : Bool)
    (done : ∀ x ∈ (s.moveOne gi id scope (coveredBy gi id scope) e).escrow, coveredBy gi id scope x = false) :
    s.commitStep gi id scope [] re = (s.moveOne gi id scope (coveredBy gi id scope) e, true) := by
  have left : (s.moveOne gi id scope (coveredBy gi id scope) e).escrow.any (coveredBy gi id scope) = false :=
    List.any_eq_false.mpr fun x hx => by rw [done x hx]; decide
  rw [State.commitStep, State.moveEscrow_one found h.unmarked (h.movable re) h.level still none, left]
  rfl

/-- A commit step whose one entry may not move yet. -/
theorem State.commitStep_held {re : Bool} (here : e ∈ s.escrow) (mine : coveredBy gi id scope e = true) (still : s.drained scope = s)
    (stuck : ∀ x ∈ s.escrow, coveredBy gi id scope x = true → x.marked = false ∧ s.movable re x = false) :
    s.commitStep gi id scope [] re = (s, false) := by
  have idle : s.moveEscrow gi id scope [] re (coveredBy gi id scope) = s := by
    rw [State.moveEscrow_idle, still]
    · exact fun x hx h => (stuck x hx h).1
    · rw [still]
      exact fun x hx h => (stuck x hx h).2
  rw [State.commitStep, idle, List.any_eq_true.mpr ⟨e, here, mine⟩]
  rfl

/-- A release's step of an operation that is alone is its commit step. -/
theorem Alone.releaseStep (h : Alone s gi o) (free : (s.grp gi).indebted = false) (scope : Nat) (sel : List Nat) :
    s.releaseStep gi o.id scope sel = s.commitStep gi o.id scope sel true := by
  unfold State.releaseStep
  dsimp only
  rw [h.commitsBefore, h.behindAcquire, free, h.none_before]
  rfl

/-! COMMIT -/

variable {slot beside : Nat} {d : RegCode} {lanes : BitVec 64}

theorem State.runCommit_indebted (h : Alone s gi ⟨id, slot, d, 1, lanes, beside, .commit scope false⟩) (owes : (s.grp gi).indebted = true) :
    s.runCommit gi id [] = s := by
  have op := h.op
  unfold State.runCommit
  dsimp only at op ⊢
  rw [op]
  dsimp only
  rw [owes, if_pos (by simp)]

/-- The group's watch set is cleared, and its COMMIT is being published. -/
def Group.examined (g : Group) (id scope : Nat) : Group := g.unwatch.setOp id (fun o => { o with kind := .commit scope true })

/-- A COMMIT whose turn has come: it fails on a hit, or makes its commit step. -/
theorem State.runCommit_turn (h : Alone s gi ⟨id, slot, d, 1, lanes, beside, .commit scope false⟩) (free : (s.grp gi).indebted = false)
    (cluster : scope = 2 → ∀ j, j ≠ gi → ∀ o ∈ (s.grp j).ops, o.kind ≠ .commit 2 true)
    (team : scope = 1 → ∀ x ∈ s.escrow, coveredBy gi id 1 x = true → s.movable false x = true) : s.runCommit gi id [] =
      if scope ≤ 2 ∧ ((s.grp gi).wovf = true ∨ (s.grp gi).watchHit = true) then
        ((s.discardBelow gi (coveredBy gi id scope)).modGrp gi Group.unwatch).endStatus gi id
          (BitVec.ofNat 64 (if (s.grp gi).wovf then stWatchfull else stConflict))
      else
        let r := (if scope ≤ 2 then s.modGrp gi (fun g => g.examined id scope) else s).commitStep gi id scope [] (decide (2 ≤ scope))
        if r.2 then r.1.endStatus gi id (BitVec.ofNat 64 stOk) else r.1 := by
  have before := h.commitsBefore
  have acquire := h.behindAcquire
  have reading := h.none_before Op.watching
  have op := h.op
  dsimp only at before acquire reading op
  unfold State.runCommit
  dsimp only
  rw [op]
  dsimp only
  rw [before, acquire, free, reading, Bool.and_false, if_neg]
  · simp only [true_and, and_true]
    rfl
  simp only [Bool.false_or, Bool.or_false, Bool.or_eq_true, Bool.and_eq_true, beq_iff_eq, decide_eq_true_eq, List.any_eq_true, Bool.not_eq_true',
    List.all_eq_false, List.mem_filter]
  rintro (⟨⟨two, -⟩, j, -, other, y, hy, publishing⟩ | ⟨one, x, ⟨inside, mine⟩, stuck⟩)
  · have not := cluster two j other y hy
    split at publishing
    next kind => exact not kind
    next => exact absurd publishing (by decide)
  · exact stuck (team one x inside mine)

/-- The group of a COMMIT that is being published. -/
theorem Alone.examined (h : Alone s gi ⟨id, slot, d, 1, lanes, beside, .commit scope false⟩) (scope' : Nat) :
    Alone (s.modGrp gi (fun g => g.examined id scope')) gi ⟨id, slot, d, 1, lanes, beside, .commit scope' true⟩ ∧
      ((s.modGrp gi (fun g => g.examined id scope')).grp gi).v = (s.grp gi).v ∧
      ((s.modGrp gi (fun g => g.examined id scope')).grp gi).s = (s.grp gi).s ∧
      ((s.modGrp gi (fun g => g.examined id scope')).grp gi).watch = [] := by
  have one : ((s.grp gi).unwatch).ops = [⟨id, slot, d, 1, lanes, beside, .commit scope false⟩] := h.one
  have group := State.grp_modGrp_self s (fun g => g.examined id scope') h.index
  refine ⟨h.modGrp ?_ rfl rfl, by rw [group]; rfl, by rw [group]; rfl, by rw [group]; rfl⟩
  exact congrArg Group.ops (Group.setOp_one one _)

theorem Alone.discarded (h : Alone s gi o) {f : Group → Group} (ops : ∀ g, (f g).ops = g.ops) (st : ∀ g, (f g).st = g.st) (pendw : ∀ g, (f g).pendw = g.pendw) :
    Alone (State.modGrp { s with escrow := [] } gi f) gi o :=
  Alone.modGrp (s := { s with escrow := [] }) ⟨h.index, h.resident, h.one, h.settled⟩ ((ops _).trans h.one) (st _) (pendw _)

/-- What ends with a status leaves everything but its group. -/
theorem Alone.endStatus_others (h : Alone s gi o) (w : W64) : MemoryKept s (s.endStatus gi o.id w) ∧ (s.endStatus gi o.id w).escrow = s.escrow ∧
    (s.endStatus gi o.id w).egress = s.egress ∧ ((s.grp gi).watch = [] → ((s.endStatus gi o.id w).grp gi).watch = []) := by
  rw [h.endStatus]
  refine ⟨⟨rfl, rfl, rfl⟩, rfl, rfl, fun none => ?_⟩
  rw [State.grp_modGrp_self _ _ h.index, ((s.grp gi).endedWith_regs o.dest w).2.2.2, none]

/-- The one entry of a group discarded, its watch set cleared, and the status of what discarded it. -/
theorem Alone.discards (h : Alone s gi o) {mine : Esc → Bool} (all : s.escrow = [e]) (owner : e.owner = gi) (level : e.level = .group)
    (hmine : mine e = true) (w : W64) :
    let t := ((s.discardBelow gi mine).modGrp gi Group.unwatch).endStatus gi o.id w
    Ended s t gi o.dest w ∧ MemoryKept s t ∧ t.escrow = [] ∧ (t.grp gi).watch = [] := by
  intro t
  have cleared := h.discarded (f := Group.unwatch) (fun _ => rfl) (fun _ => rfl) (fun _ => rfl)
  have group : (State.modGrp { s with escrow := [] } gi Group.unwatch).grp gi = (s.grp gi).unwatch := State.grp_modGrp_self _ _ h.index
  have result : t = (State.modGrp { s with escrow := [] } gi Group.unwatch).endStatus gi o.id w := by
    rw [← State.discardBelow_one all owner level hmine]
  obtain ⟨memory, escrow, -, watch⟩ := cleared.endStatus_others w
  rw [result]
  exact ⟨cleared.ended w (by rw [group]; rfl) (by rw [group]; rfl), memory, escrow, watch (by rw [group]; rfl)⟩

/-- The one entry of escrow may move. -/
theorem Held.all_movable (held : Held s gi id e) (all : s.escrow = [e]) : ∀ x ∈ s.escrow, coveredBy gi id 1 x = true → s.movable false x = true := by
  intro x hx _
  rw [all, List.mem_singleton] at hx
  rw [hx]
  exact held.movable false

section
variable (h : Alone s gi ⟨id, slot, d, 1, lanes, beside, .commit scope false⟩) (free : (s.grp gi).indebted = false) (held : Held s gi id e)
  (all : s.escrow = [e])
include h free held all

/-- A COMMIT whose watch set was hit, or has overflowed, discards its entry (R105). -/
theorem State.commit_fails (some_ : 1 ≤ scope) (low : scope ≤ 2) (hit : (s.grp gi).wovf = true ∨ (s.grp gi).watchHit = true)
    (cluster : ∀ j, j ≠ gi → ∀ o ∈ (s.grp j).ops, o.kind ≠ .commit 2 true) :
    Ended s (s.runCommit gi id []) gi d (if (s.grp gi).wovf then 9 else 8) ∧ MemoryKept s (s.runCommit gi id []) ∧
      (s.runCommit gi id []).escrow = [] ∧ ((s.runCommit gi id []).grp gi).watch = [] := by
  have status : (if (s.grp gi).wovf then 9 else 8 : W64) = BitVec.ofNat 64 (if (s.grp gi).wovf then stWatchfull else stConflict) := by
    split <;> rfl
  rw [State.runCommit_turn h free (fun _ => cluster) (fun _ => held.all_movable all), if_pos ⟨low, hit⟩, status]
  exact h.discards all held.owner held.level (held.covered scope some_) _

/-- A COMMIT to team or cluster scope whose watch set was not hit shows its entry there (R97, R99). -/
theorem State.commit_raises (some_ : 1 ≤ scope) (low : scope ≤ 2) (unhit : ¬((s.grp gi).wovf = true ∨ (s.grp gi).watchHit = true))
    (cluster : ∀ j, j ≠ gi → ∀ o ∈ (s.grp j).ops, o.kind ≠ .commit 2 true) :
    Ended s (s.runCommit gi id []) gi d 0 ∧ MemoryKept s (s.runCommit gi id []) ∧
      (s.runCommit gi id []).escrow = [e.raised scope] ∧ ((s.runCommit gi id []).grp gi).watch = [] := by
  obtain ⟨busy, v, sregs, watch⟩ := h.examined scope
  let u := s.modGrp gi (fun g => g.examined id scope)
  obtain ⟨moved, still⟩ := State.moveOne_raised (own := id) busy rfl some_ low (coveredBy gi id scope) held.after
  have here : u.escrow.filter (fun x => x ≠ e) = [] := by
    rw [show u.escrow = [e] from all]
    simp
  rw [here, List.nil_append] at moved
  have step : u.commitStep gi id scope [] (decide (2 ≤ scope)) = (u.moveOne gi id scope (coveredBy gi id scope) e, true) := by
    refine State.commitStep_one (s := u) (held.of_absent rfl) ?_ (if_neg (by omega)) (busy.keepsNone fun _ _ _ _ _ k => nomatch k) _ fun x hx => ?_
    · rw [show u.escrow = [e] from all, List.filter_cons_of_pos (held.covered scope some_), List.filter_nil]
    · rw [moved.escrow, List.mem_singleton] at hx
      rw [hx]
      exact coveredBy_raised rfl low
  have result : s.runCommit gi id [] = (u.moveOne gi id scope (coveredBy gi id scope) e).endStatus gi id 0 := by
    rw [State.runCommit_turn h free (fun _ => cluster) (fun _ => held.all_movable all), if_neg (fun k => unhit k.2), if_pos low, step]
    rfl
  have last := busy.steady moved.toSteady
  obtain ⟨memory, escrow, -, watch'⟩ := last.endStatus_others 0
  rw [result]
  refine ⟨last.ended 0 ((moved.v gi).trans v) ((moved.sregs gi).trans sregs), ?_, escrow.trans moved.escrow, watch' (still watch)⟩
  exact ⟨memory.1.trans moved.mem, memory.2.1.trans moved.tile, memory.2.2.trans moved.opbuf⟩

/-- A COMMIT to device or system scope whose entry lands. -/
theorem State.commit_lands {m tl : Memory} {eg : List Egress} (high : 3 ≤ scope) (empty : s.egress = []) (clean : s.poisoned e.space e.sector = false)
    (taken : e.space = .glob → s.turnsAway (s.grp gi).func e.sector = false)
    (written : Becomes s (s.writeEsc (scope == 4) e) m tl (s.escrow.filter (fun x => x ≠ e)) eg) :
    Ended s (s.runCommit gi id []) gi d 0 ∧ (s.runCommit gi id []).mem = m ∧ (s.runCommit gi id []).tile = tl ∧
      (s.runCommit gi id []).escrow = [] ∧ (s.runCommit gi id []).egress = eg := by
  have here : s.escrow.filter (fun x => x ≠ e) = [] := by
    rw [all]
    simp
  rw [here] at written
  have lands : s.moveOne gi id scope (coveredBy gi id scope) e = s.writeEsc (scope == 4) e :=
    State.moveOne_lands high (by rw [all]; exact List.mem_singleton_self e) clean (by rw [held.owner]; exact taken)
  have step : s.commitStep gi id scope [] (decide (2 ≤ scope)) = (s.writeEsc (scope == 4) e, true) := by
    rw [← lands]
    refine State.commitStep_one held ?_ (s.drained_empty empty scope) (h.keepsNone fun _ _ _ _ _ k => nomatch k) _ fun x hx => ?_
    · rw [all, List.filter_cons_of_pos (held.covered scope (by omega)), List.filter_nil]
    · rw [lands, written.escrow] at hx
      exact absurd hx (by simp)
  have result : s.runCommit gi id [] = (s.writeEsc (scope == 4) e).endStatus gi id 0 := by
    rw [State.runCommit_turn h free (fun two => by omega) (fun one => by omega), if_neg (fun k => absurd k.1 (by omega)),
      if_neg (show ¬scope ≤ 2 by omega), step]
    rfl
  have last := h.steady written.toSteady
  obtain ⟨memory, escrow, egress, -⟩ := last.endStatus_others 0
  rw [result]
  exact ⟨last.ended 0 (written.v gi) (written.sregs gi), memory.1.trans written.mem, memory.2.1.trans written.tile, escrow.trans written.escrow,
    egress.trans written.egress⟩

end

/-- A COMMIT to system scope with nothing in escrow brings the egress escrow to its destination. -/
theorem State.commit_drains {x : Egress} (h : Alone s gi ⟨id, slot, d, 1, lanes, beside, .commit 4 false⟩) (free : (s.grp gi).indebted = false)
    (none : s.escrow = []) (one : s.egress = [x]) (host : regionOf x.sector = 2) (going : s.stopped x = false) :
    Ended s (s.runCommit gi id []) gi d 0 ∧ (s.runCommit gi id []).mem = s.mem.putSector x.sector x.data ∧ (s.runCommit gi id []).tile = s.tile ∧
      (s.runCommit gi id []).egress = [] := by
  let u : State := { s with egress := [], mem := s.mem.putSector x.sector x.data }
  have drained : s.drained 4 = u := State.drainEgress_one one host going
  have step : s.commitStep gi id 4 [] true = (u, true) := by
    have idle : s.moveEscrow gi id 4 [] true (coveredBy gi id 4) = u := by
      rw [State.moveEscrow_idle, drained]
      · rw [none]
        exact fun x hx => absurd hx (by simp)
      · rw [drained, show u.escrow = [] from none]
        exact fun x hx => absurd hx (by simp)
    rw [State.commitStep, idle, show u.escrow = [] from none]
    rfl
  have last : Alone u gi _ := h.steady (.regroup (.refl s))
  have result : s.runCommit gi id [] = u.endStatus gi id 0 := by
    rw [State.runCommit_turn h free (fun two => by omega) (fun one => by omega), if_neg (fun k => absurd k.1 (by decide)),
      if_neg (show ¬4 ≤ 2 by decide), show decide (2 ≤ 4) = true from rfl, step]
    rfl
  obtain ⟨memory, -, egress, -⟩ := last.endStatus_others 0
  rw [result]
  exact ⟨last.ended 0 rfl rfl, memory.1, memory.2.1, egress⟩

/-- An ABORT discards the entry that it covers (R101, R302). -/
theorem State.runAbort_discards (h : Alone s gi ⟨id, slot, d, 1, lanes, beside, .abort 3⟩) (held : Held s gi id e) (all : s.escrow = [e]) :
    Ended s (s.runAbort gi id) gi d 0 ∧ MemoryKept s (s.runAbort gi id) ∧ (s.runAbort gi id).escrow = [] ∧ ((s.runAbort gi id).grp gi).watch = [] := by
  have before := h.commitsBefore
  have op := h.op
  have result : s.runAbort gi id = ((s.discardBelow gi (coveredBy gi id 3)).modGrp gi Group.unwatch).endStatus gi id 0 := by
    dsimp only at before op
    unfold State.runAbort
    dsimp only
    rw [op]
    dsimp only
    rw [before, if_neg (by decide)]
    rfl
  rw [result]
  exact h.discards all held.owner held.level (held.covered 3 (by decide)) 0

end Sys2Proof.Machine
end

section
/-! Releases: releasing stores, kick stores and requests. -/

namespace Sys2Proof.Machine

variable {s t u : State} {gi id own scope : Nat} {e x : Esc} {o : Op} {slot beside : Nat} {d : RegCode} {lanes : BitVec 64}

/-- A releasing store whose release's own step is made: its entry is moved up as its own commit. -/
theorem State.runStoreRel_eq (h : Alone s gi ⟨id, slot, d, 1, lanes, beside, .storeRel scope own⟩) (free : (s.grp gi).indebted = false) :
    s.runStoreRel gi id [] =
      let r := s.commitStep gi id scope [] true
      if !r.2 then r.1
      else
        let r2 := r.1.commitStep gi own scope [] true
        if r2.2 then r2.1.endOp gi id else r2.1 := by
  have op := h.op
  have release := h.releaseStep free scope []
  dsimp only at op release
  unfold State.runStoreRel
  rw [op]
  dsimp only
  rw [release]

/-- Both its steps made, it ends. -/
theorem State.runStoreRel_ends (h : Alone s gi ⟨id, slot, d, 1, lanes, beside, .storeRel scope own⟩) (free : (s.grp gi).indebted = false)
    (first : s.commitStep gi id scope [] true = (t, true)) (second : t.commitStep gi own scope [] true = (u, true)) :
    s.runStoreRel gi id [] = u.endOp gi id := by
  rw [State.runStoreRel_eq h free, first]
  dsimp only
  rw [second]
  rfl

theorem releasePerform_store (h : Alone s gi ⟨id, slot, d, 1, lanes, beside, .storeRel scope own⟩) :
    exec (.releasePerform gi id []) s = .next (s.runStoreRel gi id []) := by
  have op := h.op
  dsimp only at op
  show execReleasePerform gi id [] s = _
  unfold execReleasePerform
  rw [op]

theorem releasePerform_kick {lists : List Nat} {rel : Bool} (h : Alone s gi ⟨id, slot, d, 1, lanes, beside, .kick lists rel⟩) :
    exec (.releasePerform gi id []) s = .next (s.runKick gi id []) := by
  have op := h.op
  dsimp only at op
  show execReleasePerform gi id [] s = _
  unfold execReleasePerform
  rw [op]

theorem releasePerform_request {rel : Option Nat} (h : Alone s gi ⟨id, slot, d, 1, lanes, beside, .request rel⟩) :
    exec (.releasePerform gi id []) s = .next (s.runRequest gi id []) := by
  have op := h.op
  dsimp only at op
  show execReleasePerform gi id [] s = _
  unfold execReleasePerform
  rw [op]

/-- An operation that ends leaves everything but its group's operations. -/
theorem Alone.endOp_others (h : Alone s gi o) : ((s.endOp gi o.id).grp gi).ops = [] ∧ ((s.endOp gi o.id).grp gi).v = (s.grp gi).v ∧
    ((s.endOp gi o.id).grp gi).s = (s.grp gi).s ∧ ((s.endOp gi o.id).grp gi).flags = (s.grp gi).flags ∧
    ((s.endOp gi o.id).grp gi).debt = (s.grp gi).debt ∧ MemoryKept s (s.endOp gi o.id) ∧ (s.endOp gi o.id).escrow = s.escrow := by
  rw [h.endOp_grp]
  exact ⟨rfl, rfl, rfl, rfl, rfl, ⟨rfl, rfl, rfl⟩, rfl⟩

/-! The two entries of a releasing store -/

/-- The entries before a releasing store and its own one. -/
structure TwoHeld (s : State) (gi id own : Nat) (e x : Esc) : Prop where
  all : s.escrow = [e, x]
  first : Held s gi id e
  second : Held s gi own x
  apart : own ≠ id

theorem TwoHeld.ne (h : TwoHeld s gi id own e x) : x ≠ e := fun same => h.apart (by rw [← h.second.sealed, ← h.first.sealed, same])

theorem TwoHeld.filter_first (h : TwoHeld s gi id own e x) (some_ : 1 ≤ scope) : s.escrow.filter (coveredBy gi id scope) = [e] := by
  have not : coveredBy gi id scope x = false := coveredBy_ne (by rw [h.second.sealed]; exact h.apart)
  rw [h.all, List.filter_cons_of_pos (h.first.covered scope some_), List.filter_cons_of_neg (by rw [not]; decide), List.filter_nil]

theorem TwoHeld.others (h : TwoHeld s gi id own e x) : s.escrow.filter (fun y => y ≠ e) = [x] := by
  rw [h.all, List.filter_cons_of_neg (by simp), List.filter_cons_of_pos (by simpa using h.ne), List.filter_nil]

theorem levelOf_ne_group (scope : Nat) : levelOf scope ≠ .group := by
  unfold levelOf
  split <;> decide

/-- A releasing store to team or cluster scope shows the entries before it there, then its own. -/
theorem State.runStoreRel_raises (h : Alone s gi ⟨id, slot, d, 1, lanes, beside, .storeRel scope own⟩) (free : (s.grp gi).indebted = false)
    (two : TwoHeld s gi id own e x) (some_ : 1 ≤ scope) (low : scope ≤ 2) : ∃ u, s.runStoreRel gi id [] = u.endOp gi id ∧
      Becomes s u s.mem s.tile [e.raised scope, x.raised scope] s.egress := by
  have notObload : ∀ r off src len o, OpKind.storeRel scope own ≠ .obload r off src len o := fun _ _ _ _ _ k => nomatch k
  have up : ∀ (y : Esc) (k : Nat), coveredBy gi k scope (y.raised scope) = false := fun y k => coveredBy_raised rfl low
  obtain ⟨moved, -⟩ := State.moveOne_raised (own := id) h rfl some_ low (coveredBy gi id scope) two.first.after
  rw [two.others] at moved
  have first : s.commitStep gi id scope [] true = (s.moveOne gi id scope (coveredBy gi id scope) e, true) := by
    refine State.commitStep_one two.first (two.filter_first some_) (if_neg (by omega)) (h.keepsNone notObload) _ fun y hy => ?_
    rw [moved.escrow, List.mem_append, List.mem_singleton, List.mem_singleton] at hy
    rcases hy with rfl | rfl
    · exact coveredBy_ne (by rw [two.second.sealed]; exact two.apart)
    · exact up e id
  have next := h.steady moved.toSteady
  have held := two.second.of_absent moved.absent
  obtain ⟨moved', -⟩ := State.moveOne_raised (own := own) next rfl some_ low (coveredBy gi own scope) two.second.after
  have others : (s.moveOne gi id scope (coveredBy gi id scope) e).escrow.filter (fun y => y ≠ x) = [e.raised scope] := by
    have ne : e.raised scope ≠ x := by
      intro same
      have level := two.second.level
      rw [← same] at level
      exact levelOf_ne_group scope level
    rw [moved.escrow, List.singleton_append, List.filter_cons_of_neg (by simp), List.filter_cons_of_pos (by simpa using ne), List.filter_nil]
  rw [others] at moved'
  have second : (s.moveOne gi id scope (coveredBy gi id scope) e).commitStep gi own scope [] true =
      ((s.moveOne gi id scope (coveredBy gi id scope) e).moveOne gi own scope (coveredBy gi own scope) x, true) := by
    refine State.commitStep_one held ?_ (if_neg (by omega)) (next.keepsNone notObload) _ fun y hy => ?_
    · rw [moved.escrow, List.singleton_append, List.filter_cons_of_pos (held.covered scope some_), List.filter_cons_of_neg (by rw [up]; decide),
        List.filter_nil]
    · rw [moved'.escrow, List.singleton_append, List.mem_cons, List.mem_singleton] at hy
      rcases hy with rfl | rfl
      · exact up e own
      · exact up x own
  have both := moved.trans moved'
  rw [moved.mem, moved.tile, moved.egress] at both
  exact ⟨_, State.runStoreRel_ends h free first second, both⟩

/-! Entries of device DRAM -/

/-- A step to device scope with one entry of device DRAM writes it. -/
theorem State.commitStep_dram (lands : Lands s gi id e) (found : s.escrow.filter (coveredBy gi id 3) = [e]) (none : (s.grp gi).keepsNone)
    (done : ∀ y ∈ s.escrow, y ≠ e → coveredBy gi id 3 y = false) : s.commitStep gi id 3 [] true = (s.writeEsc false e, true) ∧
      Becomes s (s.writeEsc false e) (s.mem.putSector e.sector e.data) s.tile (s.escrow.filter (fun y => y ≠ e)) s.egress := by
  have held := lands.toHeld
  have written := State.writeEsc_glob held lands.space (sys := false) (.inl lands.region)
  have here : e ∈ s.escrow := (List.mem_filter.mp (show e ∈ s.escrow.filter (coveredBy gi id 3) by rw [found]; exact List.mem_singleton_self e)).1
  have lands' : s.moveOne gi id 3 (coveredBy gi id 3) e = s.writeEsc false e :=
    State.moveOne_lands (by decide) here (by rw [lands.space]; exact lands.clean) (fun _ => by rw [held.owner]; exact lands.taken)
  refine ⟨?_, written⟩
  rw [← lands']
  refine State.commitStep_one held found rfl none _ fun y hy => ?_
  rw [lands', written.escrow, List.mem_filter] at hy
  exact done y hy.1 (by simpa using hy.2)

/-- A releasing store to device scope writes the entries before it, then its own. -/
theorem State.runStoreRel_dram (h : Alone s gi ⟨id, slot, d, 1, lanes, beside, .storeRel 3 own⟩) (free : (s.grp gi).indebted = false)
    (all : s.escrow = [e, x]) (apart : own ≠ id) (before : Lands s gi id e) (mine : Lands s gi own x) :
    ∃ u, s.runStoreRel gi id [] = u.endOp gi id ∧
      Becomes s u ((s.mem.putSector e.sector e.data).putSector x.sector x.data) s.tile [] s.egress := by
  have notObload : ∀ r off src len o, OpKind.storeRel 3 own ≠ .obload r off src len o := fun _ _ _ _ _ k => nomatch k
  have two : TwoHeld s gi id own e x := ⟨all, before.toHeld, mine.toHeld, apart⟩
  obtain ⟨first, written⟩ := State.commitStep_dram before (two.filter_first (by decide)) (h.keepsNone notObload) fun y hy ne => by
    rw [all, List.mem_cons, List.mem_singleton, or_iff_right ne] at hy
    rw [hy]
    exact coveredBy_ne (by rw [mine.sealed]; exact apart)
  rw [two.others] at written
  have next := h.steady written.toSteady
  have mine' : Lands (s.writeEsc false e) gi own x := ⟨mine.toHeld.of_absent written.absent, mine.space, mine.region,
    (written.poisoned .glob _).trans mine.clean, by rw [written.func, written.turnsAway]; exact mine.taken⟩
  obtain ⟨second, written'⟩ := State.commitStep_dram mine' (by rw [written.escrow, List.filter_cons_of_pos (mine'.toHeld.covered 3 (by decide)),
      List.filter_nil]) (next.keepsNone notObload) fun y hy ne => by
    rw [written.escrow, List.mem_singleton] at hy
    exact absurd hy ne
  rw [written.escrow, List.filter_cons_of_neg (by simp), List.filter_nil, written.mem, written.tile, written.egress] at written'
  exact ⟨_, State.runStoreRel_ends h free first second, written.trans written'⟩

/-- An absent line holds a releasing store back (R88). -/
theorem State.runStoreRel_absent (h : Alone s gi ⟨id, slot, d, 1, lanes, beside, .storeRel scope own⟩) (free : (s.grp gi).indebted = false)
    (all : s.escrow = [e, x]) (apart : own ≠ id) (some_ : 1 ≤ scope) (low : scope ≤ 3) (owner : e.owner = gi) (level : e.level = .group)
    (sealed : e.sealId = id) (unmarked : e.marked = false) (own_ : x.sealId = own) (tile : e.space = .tile) (absent : alignDown e.sector 64 ∈ s.absent) :
    s.runStoreRel gi id [] = s := by
  have mine : coveredBy gi id scope e = true := by simp [coveredBy, owner, sealed, Esc.below, level, some_]
  have not : coveredBy gi id scope x = false := coveredBy_ne (by rw [own_]; exact apart)
  have held : s.commitStep gi id scope [] true = (s, false) := by
    refine State.commitStep_held (e := e) (by rw [all]; exact List.mem_cons_self) mine (if_neg (by omega)) fun y hy covered => ?_
    rw [all, List.mem_cons, List.mem_singleton] at hy
    rcases hy with rfl | rfl
    · exact ⟨unmarked, by simp [State.movable, State.absentEsc, tile, absent]⟩
    · exact absurd covered (by rw [not]; decide)
  rw [State.runStoreRel_eq h free, held]
  rfl

/-! Kick stores and requests -/

/-- A kick store whose lists all find room hands them over behind its release (R112). -/
theorem State.runKick_hands {lists : List Nat} (h : Alone s gi ⟨id, slot, d, 1, lanes, beside, .kick lists true⟩) (free : (s.grp gi).indebted = false)
    (step : s.commitStep gi id 3 [] true = (t, true)) (steady : Steady s t) (room : (t.core (s.grp gi).pkg).lists.length + lists.length ≤ Config.listMax) :
    s.runKick gi id [] = (t.modCore (s.grp gi).pkg (fun c => { c with
      lists := c.lists ++ lists.map (fun a => ⟨a, id, 0, gi, (s.grp gi).func, (s.grp gi).name, []⟩) })).endOp gi id := by
  have op := h.op
  have before := h.commitsBefore
  have acquire := h.behindAcquire
  have still : (t.grp gi).indebted = false := by
    rw [Group.indebted, steady.debt, steady.owedInteg]
    exact free
  have fits : lists.length ≤ Config.listMax - (t.core (s.grp gi).pkg).lists.length := by omega
  dsimp only at op before acquire
  unfold State.runKick
  dsimp only
  rw [op]
  dsimp only
  rw [before, acquire, free, step]
  simp only [Bool.or_self, Bool.false_eq_true, if_false, if_true, still, Bool.not_true, fits, List.take_of_length_le fits]

/-- The release of an operation whose step is made is behind it. -/
theorem Alone.atomRelease_made (h : Alone s gi o) (step : o.commitStep = some scope) (made : s.releaseStep gi o.id scope [] = (t, true)) :
    s.atomRelease gi o.id [] = (t.modGrp gi (fun g => g.setOp o.id Op.released), true) := by
  unfold State.atomRelease
  rw [h.op]
  dsimp only
  rw [step]
  simp only [made, if_true]

/-- A request whose release is made is sent (R249). -/
theorem State.runRequest_sends (h : Alone s gi ⟨id, slot, d, 1, lanes, beside, .request (some 3)⟩) (free : (s.grp gi).indebted = false)
    (none : ∀ e ∈ s.escrow, e.owner ≠ gi) : s.runRequest gi id [] =
      (s.modGrp gi (fun g => g.setOp id Op.released)).letGo gi id ⟨id, slot, d, 1, lanes, beside, .request (some 3)⟩ := by
  have op := h.op
  have step : s.commitStep gi id 3 [] true = (s, true) := State.commitStep_none (fun y hy => coveredBy_other (none y hy)) rfl true
  have released := h.atomRelease_made rfl ((h.releaseStep free 3 []).trans step)
  dsimp only at op released
  unfold State.runRequest
  rw [op]
  dsimp only [Op.commitStep]
  rw [h.resident, released]
  rfl

end Sys2Proof.Machine
end

section
/-! Atomics: a lane's operation at its place, a vault routine on its line, and the old values that land at their end. -/

namespace Sys2Proof.Machine

variable {s t u w : State} {gi id scope : Nat} {o : Op} {slot beside span : Nat} {d : RegCode} {lanes : BitVec 64}

/-! The operations of a group changed -/

/-- Of a state only the operations of one group have changed. -/
structure Reops (s t : State) (gi : Nat) (ops : List Op) : Prop where
  only : t = { s with groups := t.groups }
  length : t.groups.length = s.groups.length
  group : t.grp gi = { s.grp gi with ops := ops }

theorem Alone.reops (h : Alone s gi o) : Reops s s gi [o] := ⟨rfl, rfl, by rw [← h.one]⟩

theorem Alone.reops_setOp (h : Alone s gi o) (f : Op → Op) : Reops s (s.modGrp gi (fun g => g.setOp o.id f)) gi [f o] :=
  ⟨rfl, State.modGrp_length .., h.grp_setOp f⟩

theorem Reops.alone {o' : Op} (h : Reops s t gi [o']) (k : Alone s gi o) : Alone t gi o' := by
  have group := h.group
  have resident := k.resident
  have settled := k.settled
  refine ⟨by rw [h.length]; exact k.index, ?_, by rw [group], by rw [group]; exact settled⟩
  rw [group]
  exact resident

/-! Values that land -/

/-- Where a state has a group's registers as another has them, a value lands in both alike. -/
theorem LaneLands.of_regs {width i : Nat} {x : W64} (h : LaneLands t u gi d width i x) (v : (t.grp gi).v = (s.grp gi).v) (sregs : (t.grp gi).s = (s.grp gi).s) :
    LaneLands s u gi d width i x := by
  have vreg : ∀ n, (t.grp gi).vreg n = (s.grp gi).vreg n := fun n => by rw [Group.vreg, Group.vreg, v]
  unfold LaneLands at h ⊢
  simpa only [vreg, v, sregs] using h

/-- What keeps the registers after a value has landed keeps the value. -/
theorem LaneLands.after {width i : Nat} {x : W64} (h : LaneLands s t gi d width i x) (v : (u.grp gi).v = (t.grp gi).v) (sregs : (u.grp gi).s = (t.grp gi).s) :
    LaneLands s u gi d width i x := by
  have vreg : ∀ n, (u.grp gi).vreg n = (t.grp gi).vreg n := fun n => by rw [Group.vreg, Group.vreg, v]
  unfold LaneLands at h ⊢
  simpa only [vreg, v, sregs] using h

theorem maskOf_one (lane i : Nat) (h : i < 64) : (maskOf [lane]).getLsbD i = decide (i = lane) := by
  rw [maskOf, laneMask_getLsbD _ _ h]
  simp

/-- One lane of a register written, the register being G. -/
theorem vreg_putOne {g : Group} {n lane : Nat} (inside : n < g.v.length) (val : Nat → W32) : ((g.putV n (maskOf [lane])
    ((List.range 64).map val) .g).vreg n).tag = .g ∧ ∀ j < 64, ((g.putV n (maskOf [lane]) ((List.range 64).map val) .g).vreg n).lane j =
      if j = lane then val j else (g.vreg n).lane j := by
  rw [Group.vreg_putV inside, if_pos rfl]
  refine ⟨rfl, fun j hj => ?_⟩
  rw [lane_putLanes _ _ _ _ hj, maskOf_one _ _ hj, getD_range_map, if_pos hj]
  exact if_congr decide_eq_true_iff rfl rfl

/-- A group with a value of 32 or 64 bits in one lane of its destination. -/
def Group.landOne (g : Group) (d : RegCode) (width lane : Nat) (x : W64) : Group :=
  let low := g.putV d.toNat (maskOf [lane]) ((List.range 64).map (fun i => (lookupD [(lane, x)] i 0).setWidth 32)) .g
  if width = 3 then low.putV (d + 1).toNat (maskOf [lane]) ((List.range 64).map (fun i => (lookupD [(lane, x)] i 0).extractLsb' 32 32)) .g else low

theorem State.landWide_one (index : gi < s.groups.length) (settled : (s.grp gi).pendw = []) (d : RegCode) (width lane : Nat) (x : W64) :
    s.landWide gi d width [(lane, x)] = s.modGrp gi (fun g => g.landOne d width lane x) := by
  unfold State.landWide
  dsimp only
  rw [State.landV_settled index settled]
  by_cases wide : width = 3
  · rw [if_pos wide, State.landV_settled (by rw [State.modGrp_length]; exact index), State.modGrp_modGrp]
    · refine State.modGrp_congr index ?_
      simp only [Group.landOne, wide, if_true]
      rfl
    · rw [State.grp_modGrp_self _ _ index]
      exact settled
  · rw [if_neg wide]
    refine State.modGrp_congr index ?_
    simp only [Group.landOne, wide, if_false]
    rfl

theorem Group.landOne_spec {g : Group} {width lane : Nat} {x : W64} (inside : d.toNat + regsOf width ≤ min 192 g.v.length) :
    (∀ r < regsOf width, ((g.landOne d width lane x).vreg (d.toNat + r)).tag = .g ∧ ∀ j < 64, ((g.landOne d width lane x).vreg (d.toNat + r)).lane j =
      if j = lane then x.extractLsb' (32 * r) 32 else (g.vreg (d.toNat + r)).lane j) ∧
    ∀ n, (n < d.toNat ∨ d.toNat + regsOf width ≤ n) → (g.landOne d width lane x).vreg n = g.vreg n := by
  have bounds := Nat.le_min.mp inside
  have value : ∀ j, j = lane → lookupD [(lane, x)] j 0 = x := fun j h => by rw [lookupD, if_pos h.symm]
  have first : x.setWidth 32 = x.extractLsb' (32 * 0) 32 := by
    ext i
    simp
  unfold regsOf at bounds ⊢
  have inside0 : d.toNat < g.v.length := by split at bounds <;> omega
  have low := fun val => vreg_putOne (g := g) (lane := lane) inside0 val
  by_cases wide : width = 3
  · rw [if_pos wide] at bounds ⊢
    have next : (d + 1).toNat = d.toNat + 1 := by
      have := bounds.1
      bv_omega
    simp only [Group.landOne, wide, if_true, next]
    have inside1 : d.toNat + 1 < (g.putV d.toNat (maskOf [lane]) ((List.range 64).map (fun i => (lookupD [(lane, x)] i 0).setWidth 32)) .g).v.length := by
      rw [Group.putV_length]
      omega
    refine ⟨fun r hr => ?_, fun n hn => ?_⟩
    · obtain rfl | rfl : r = 0 ∨ r = 1 := by omega
      · rw [Group.vreg_putV inside1, if_neg (by omega)]
        obtain ⟨tag, lane'⟩ := low (fun i => (lookupD [(lane, x)] i 0).setWidth 32)
        refine ⟨tag, fun j hj => (lane' j hj).trans ?_⟩
        split
        next e => rw [value j e, first]
        next => rfl
      · obtain ⟨tag, lane'⟩ := vreg_putOne (lane := lane) inside1 (fun i => (lookupD [(lane, x)] i 0).extractLsb' 32 32)
        refine ⟨tag, fun j hj => (lane' j hj).trans ?_⟩
        rw [Group.vreg_putV inside0, if_neg (show ¬d.toNat + 1 = d.toNat by omega)]
        split
        next e => rw [value j e]
        next => rfl
    · rw [Group.vreg_putV inside1, if_neg (by omega), Group.vreg_putV inside0, if_neg (by omega)]
  · rw [if_neg wide] at bounds ⊢
    simp only [Group.landOne, wide, if_false]
    refine ⟨fun r hr => ?_, fun n hn => ?_⟩
    · obtain rfl : r = 0 := by omega
      obtain ⟨tag, lane'⟩ := low (fun i => (lookupD [(lane, x)] i 0).setWidth 32)
      refine ⟨tag, fun j hj => (lane' j hj).trans ?_⟩
      split
      next e => rw [value j e, first]
      next => rfl
    · rw [Group.vreg_putV inside0, if_neg (by omega)]

theorem Group.landOne_others (g : Group) (d : RegCode) (width lane : Nat) (x : W64) : (g.landOne d width lane x).s = g.s ∧
    (g.landOne d width lane x).ops = g.ops ∧ (g.landOne d width lane x).st = g.st ∧ (g.landOne d width lane x).pendw = g.pendw := by
  unfold Group.landOne
  dsimp only
  split <;> exact ⟨rfl, rfl, rfl, rfl⟩

/-! The end of an atomic -/

theorem MemoryKept.ite {p : Prop} [Decidable p] (h : MemoryKept s t) (k : MemoryKept s u) : MemoryKept s (if p then t else u) := by
  split
  · exact h
  · exact k

/-- An acquire leaves the memories. -/
theorem State.acquire_memory (s : State) (gi scope : Nat) : MemoryKept s (s.acquire gi scope) := by
  have near : ∀ f, MemoryKept s (s.mapNear f) := fun _ => ⟨rfl, rfl, rfl⟩
  have dropped := fun f f' => MemoryKept.ite (p := 2 ≤ scope) (near f) (.ite (p := scope = 1) (near f') ⟨rfl, rfl, rfl⟩)
  exact .ite (dropped _ _) (dropped _ _)

/-- An atomic whose one lane has been performed: its value lands, and it ends. -/
def State.closeAtomic (s : State) (gi : Nat) (o : Op) (scope width : Nat) (acq : Bool) (got : List (Nat × W64)) : State :=
  let s1 := if o.dest = 0xFF then s else s.landWide gi o.dest width got
  let s2 := s1.endOp gi o.id
  if acq then s2.acquire gi scope else s2

theorem Alone.closeAtomic (h : Alone s gi o) {width lane : Nat} {acq : Bool} {x : W64} (inside : destIn (s.grp gi) o.dest width) :
    let t := s.closeAtomic gi o scope width acq [(lane, x)]
    (t.grp gi).ops = [] ∧ LaneLands s t gi o.dest width lane x ∧ t.mem = s.mem ∧ t.tile = s.tile := by
  have landed : ∃ u, (if o.dest = 0xFF then s else s.landWide gi o.dest width [(lane, x)]) = u ∧ Alone u gi o ∧ LaneLands s u gi o.dest width lane x ∧
      u.mem = s.mem ∧ u.tile = s.tile := by
    by_cases none : o.dest = 0xFF
    · exact ⟨s, if_pos none, h, ⟨rfl, fun _ => rfl, fun some_ => absurd none some_⟩, rfl, rfl⟩
    · have room := inside.resolve_left none
      have group := State.grp_modGrp_self s (fun g => g.landOne o.dest width lane x) h.index
      obtain ⟨sregs, ops, st, pendw⟩ := (s.grp gi).landOne_others o.dest width lane x
      obtain ⟨values, others⟩ := Group.landOne_spec (x := x) (lane := lane) room
      refine ⟨s.modGrp gi (fun g => g.landOne o.dest width lane x), ?_, h.modGrp (ops.trans h.one) st pendw, ?_, rfl, rfl⟩
      · rw [if_neg none, State.landWide_one h.index h.settled]
      · rw [LaneLands, group]
        exact ⟨sregs, fun e => absurd e none, fun _ => ⟨values, others⟩⟩
  obtain ⟨u, eq, alone, lands, mem, tile⟩ := landed
  obtain ⟨ops, v, sregs, -, -, memory, -⟩ := alone.endOp_others
  have ended : LaneLands s (u.endOp gi o.id) gi o.dest width lane x := lands.after v sregs
  intro t
  have result : t = if acq then (u.endOp gi o.id).acquire gi scope else u.endOp gi o.id := by
    rw [← eq]
    rfl
  rw [result]
  cases acq with
  | false => exact ⟨ops, ended, memory.1.trans mem, memory.2.1.trans tile⟩
  | true =>
    have steady := (Steady.refl (u.endOp gi o.id)).acquire (gi := gi) (scope := scope)
    obtain ⟨amem, atile, -⟩ := (u.endOp gi o.id).acquire_memory gi scope
    exact ⟨(steady.ops gi).trans ops, ended.after (steady.v gi) (steady.sregs gi), amem.trans (memory.1.trans mem), atile.trans (memory.2.1.trans tile)⟩

end Sys2Proof.Machine
end

section
/-! Atomics of one lane, each alone in its group (O42). -/

namespace Sys2Proof.Machine

variable {s t u w : State} {gi id scope op width rt : Nat} {o : Op} {slot beside span : Nat} {d : RegCode} {lanes : BitVec 64} {space : Space}
  {acq rel : Bool} {a : Acc} {b x : List W64} {got : List (Nat × W64)}

/-! What an atomic finds -/

/-- A release that covers no entry is made at once; there may be none. -/
theorem Alone.atomRelease (h : Alone s gi o) (free : (s.grp gi).indebted = false) (empty : s.egress = [])
    (none : o.commitStep.isSome = true → ∀ e ∈ s.escrow, e.owner ≠ gi) :
    ∃ u o', s.atomRelease gi o.id [] = (u, true) ∧ Reops s u gi [o'] ∧ (o' = o ∨ o' = o.released) := by
  cases step : o.commitStep with
  | none =>
    refine ⟨s, o, ?_, h.reops, .inl rfl⟩
    unfold State.atomRelease
    rw [h.op]
    dsimp only
    rw [step, h.behindAcquire, free]
    rfl
  | some sc =>
    have made : s.commitStep gi o.id sc [] true = (s, true) :=
      State.commitStep_none (fun y hy => coveredBy_other (none (by rw [step]; rfl) y hy)) (s.drained_empty empty sc) true
    exact ⟨_, o.released, h.atomRelease_made step ((h.releaseStep free sc []).trans made), h.reops_setOp Op.released, .inr rfl⟩

/-- No priv-level store of the group is met. -/
theorem State.privMet_none (h : space = .tile ∨ ∀ e ∈ s.escrow, e.owner = gi → e.level ≠ .priv) (ps : List Nat) : s.privMet gi space ps = [] := by
  unfold State.privMet
  split
  next glob =>
    have none := h.resolve_left (by rw [glob]; decide)
    refine List.filter_eq_nil_iff.mpr fun e he met => ?_
    simp only [Bool.and_eq_true, beq_iff_eq] at met
    exact none e he met.1.1.1 met.1.1.2
  next => rfl

theorem State.landOwnPriv_none (h : space = .tile ∨ ∀ e ∈ s.escrow, e.owner = gi → e.level ≠ .priv) (ps : List Nat) : s.landOwnPriv gi space ps = s := by
  rw [State.landOwnPriv, State.privMet_none h]
  rfl

theorem State.privWaits_none (h : space = .tile ∨ ∀ e ∈ s.escrow, e.owner = gi → e.level ≠ .priv) (ps : List Nat) : s.privWaits gi space ps = false := by
  rw [State.privWaits, State.privMet_none h]
  rfl

/-! A lane's operation -/

/-- Its new bytes, where it has a new value, over those of a memory. -/
def atomByte (m : Memory) (p n : Nat) (v : Option Nat) (q : Nat) : Byte :=
  if p ≤ q ∧ q < p + n then (match v with
    | some v => BitVec.ofNat 8 (v / 256 ^ (q - p))
    | none => m.get q) else m.get q

theorem atomByte_some {m : Memory} (h : m.wf = true) (p n v q : Nat) :
    (m.putRun p ((bytesLE n v).map some) (runSectors p (bytesLE n v).length)).get q = atomByte m p n (some v) q := by
  rw [Memory.get_putRun_bytes h, bytesLE_length, atomByte]
  split
  next inside => rw [bytesLE_getD n v (q - p) (by omega)]
  next => rfl

theorem atomByte_none (m : Memory) (p n q : Nat) : m.get q = atomByte m p n none q := by
  unfold atomByte
  split <;> rfl

/-- The value that an atomic writes, if it writes one. -/
def atomNew (op width m : Nat) (b x : W64) : Option Nat := atomVal op (8 * 2 ^ width) m (b.toNat % 2 ^ (8 * 2 ^ width)) (x.toNat % 2 ^ (8 * 2 ^ width))

/-- An atomic on the tile store. -/
theorem State.atomAt_tile (wf : s.tile.wf = true) (op scope width p : Nat) (b x : W64) :
    let m := ofBytesLE (s.tile.read p (2 ^ width))
    let r := s.atomAt gi .tile op scope width p b x
    r.1 = BitVec.ofNat 64 m ∧ ∃ tile, Becomes s r.2 s.mem tile s.escrow s.egress ∧
      ∀ q, tile.get q = atomByte s.tile p (2 ^ width) (atomNew op width m b x) q := by
  intro m r
  have run : r = (match atomNew op width m b x with
      | some v => (BitVec.ofNat 64 m, s.devWriteBytes .tile p (bytesLE (2 ^ width) v) (some gi) (scope == 4 || regionOf p != 0))
      | none => (BitVec.ofNat 64 m, s)) := by
    show s.atomAt gi .tile op scope width p b x = _
    unfold State.atomAt
    dsimp only
    rw [State.landOwnPriv_none (.inl rfl)]
    rfl
  rw [run]
  cases atomNew op width m b x with
  | none => exact ⟨rfl, s.tile, .refl s, atomByte_none _ _ _⟩
  | some v => exact ⟨rfl, _, s.devWriteBytes_tile .., atomByte_some wf p _ v⟩

/-- An atomic on device DRAM, where no priv-level store of the group stands and nothing waits in the egress escrow. -/
theorem State.atomAt_dram (wf : s.mem.wf = true) (empty : s.egress = []) (noPriv : ∀ e ∈ s.escrow, e.owner = gi → e.level ≠ .priv) {p : Nat}
    (dram : ∀ k < 2 ^ width, regionOf (p + k) = 0) (op scope : Nat) (b x : W64) :
    let m := ofBytesLE (s.mem.read p (2 ^ width))
    let r := s.atomAt gi .glob op scope width p b x
    r.1 = BitVec.ofNat 64 m ∧ ∃ mem, Becomes s r.2 mem s.tile s.escrow s.egress ∧
      ∀ q, mem.get q = atomByte s.mem p (2 ^ width) (atomNew op width m b x) q := by
  intro m r
  let ps := (List.range (2 ^ width)).map (fun k => p + k)
  have places : ∀ q ∈ ps, regionOf q = 0 := fun q hq => by
    obtain ⟨k, hk, rfl⟩ := List.mem_map.mp hq
    exact dram k (List.mem_range.mp hk)
  have read : s.seenRead (s.grp gi).func .glob p (2 ^ width) = s.mem.read p (2 ^ width) :=
    List.map_congr_left fun k hk => s.seenByte_of_region _ empty (by rw [dram k (List.mem_range.mp hk)]; decide)
      (by rw [dram k (List.mem_range.mp hk)]; decide)
  have run : r = (match atomNew op width m b x with
      | some v => (BitVec.ofNat 64 m, (s.devWriteBytes .glob p (bytesLE (2 ^ width) v) (some gi) (scope == 4 || regionOf p != 0)).outdate [gi]
          (ps.zip (bytesLE (2 ^ width) v)))
      | none => (BitVec.ofNat 64 m, s.outdate [gi] (ps.zip (bytesLE (2 ^ width) m)))) := by
    show s.atomAt gi .glob op scope width p b x = _
    unfold State.atomAt
    dsimp only
    rw [State.landOwnPriv_none (.inr noPriv), read, s.rekey_of_region _ .glob (ps := ps) fun q hq => by rw [places q hq]; decide]
    simp only [if_true]
    rfl
  rw [run]
  cases atomNew op width m b x with
  | none => exact ⟨rfl, s.mem, (Becomes.refl s).outdate _ _, atomByte_none _ _ _⟩
  | some v =>
    exact ⟨rfl, _, (s.devWriteBytes_dram _ _ (by rw [bytesLE_length]; exact dram)).outdate _ _, atomByte_some wf p _ v⟩

/-! The one lane of an atomic -/

/-- An atomic's lane that nothing holds back is performed. -/
theorem Alone.atomLane (h : Alone s gi ⟨id, slot, d, span, lanes, beside, .atomic space op scope width acq rel [a] b x []⟩)
    (present : space = .tile → alignDown (a.place.headD 0) 64 ∉ s.absent) (clean : s.poisoned space (a.place.headD 0) = false)
    (taken : space = .glob → s.turnsAway (s.grp gi).func (a.place.headD 0) = false)
    (noPriv : space = .tile ∨ ∀ e ∈ s.escrow, e.owner = gi → e.level ≠ .priv) :
    let r := s.atomAt gi space op scope width (a.place.headD 0) (b.getD a.lane 0) (x.getD a.lane 0)
    s.atomLane gi id a.lane = r.2.modGrp gi (fun g => g.setOp id (fun o => { o with kind := .atomic space op scope width acq rel [] b x [(a.lane, r.1)] })) := by
  have hop := h.op
  have before := h.laneBefore space a
  have here : (space == .tile && s.absent.contains (alignDown (a.place.headD 0) 64)) = false := by
    cases space with
    | tile => simpa using present rfl
    | glob => rfl
  have goes : (space == .glob && s.turnsAway (s.grp gi).func (a.place.headD 0)) = false := by
    cases space with
    | tile => rfl
    | glob => rw [taken rfl]; rfl
  have rest : [a].filter (fun y => decide (y.lane ≠ a.lane)) = [] := by simp
  dsimp only at hop before
  unfold State.atomLane
  dsimp only
  rw [hop]
  dsimp only
  rw [List.find?_cons, beq_self_eq_true]
  dsimp only
  rw [here, before, State.privWaits_none noPriv, clean, goes, rest]
  rfl

/-- An atomic without lanes to perform ends. -/
theorem Alone.endAtomic (h : Alone s gi ⟨id, slot, d, span, lanes, beside, .atomic space op scope width acq rel [] b x got⟩) :
    s.endAtomic gi id = s.closeAtomic gi ⟨id, slot, d, span, lanes, beside, .atomic space op scope width acq rel [] b x got⟩ scope width acq got := by
  have hop := h.op
  dsimp only at hop
  unfold State.endAtomic
  rw [hop]
  dsimp only
  rw [h.landed]
  rfl

theorem Alone.endAtomp (h : Alone s gi ⟨id, slot, d, span, lanes, beside, .atomp rt width acq rel [] b x got⟩) :
    s.endAtomic gi id = s.closeAtomic gi ⟨id, slot, d, span, lanes, beside, .atomp rt width acq rel [] b x got⟩ 3 width acq got := by
  have hop := h.op
  dsimp only at hop
  unfold State.endAtomic
  rw [hop]
  dsimp only
  rw [h.landed]
  rfl

/-- A lane performed, its operation closed: the old value lands, and the memories are what the lane has left. -/
theorem Alone.performed_closes {v : State} {o' : Op} {mem tile : Memory} {es : List Esc} {eg : List Egress} {lane : Nat} {old : W64}
    (h : Alone s gi o) (reops : Reops s u gi [o']) (becomes : Becomes u v mem tile es eg) (f : Op → Op) (inside : destIn (s.grp gi) (f o').dest width) :
    let t := (v.modGrp gi (fun g => g.setOp o'.id f)).closeAtomic gi (f o') scope width acq [(lane, old)]
    (t.grp gi).ops = [] ∧ LaneLands s t gi (f o').dest width lane old ∧ t.mem = mem ∧ t.tile = tile := by
  have after := (reops.alone h).steady becomes.toSteady
  have regs := after.grp_setOp f
  have v' : ((v.modGrp gi (fun g => g.setOp o'.id f)).grp gi).v = (s.grp gi).v := by
    rw [regs]
    exact (becomes.v gi).trans (by rw [reops.group])
  have s' : ((v.modGrp gi (fun g => g.setOp o'.id f)).grp gi).s = (s.grp gi).s := by
    rw [regs]
    exact (becomes.sregs gi).trans (by rw [reops.group])
  obtain ⟨ops, lands, mem', tile'⟩ := (after.setOp f).closeAtomic (acq := acq) (scope := scope) (lane := lane) (x := old) (width := width)
    (by rw [destIn, v']; exact inside)
  exact ⟨ops, lands.of_regs v' s', mem'.trans becomes.mem, tile'.trans becomes.tile⟩

/-- An atomic whose release is made and whose one lane is performed returns its old value (R298). -/
theorem Alone.runAtomic (h : Alone s gi ⟨id, slot, d, span, lanes, beside, .atomic space op scope width acq rel [a] b x []⟩)
    (free : (s.grp gi).indebted = false) (empty : s.egress = []) (owned : rel = true → ∀ e ∈ s.escrow, e.owner ≠ gi)
    (inside : destIn (s.grp gi) d width) (present : space = .tile → alignDown (a.place.headD 0) 64 ∉ s.absent)
    (clean : s.poisoned space (a.place.headD 0) = false) (taken : space = .glob → s.turnsAway (s.grp gi).func (a.place.headD 0) = false)
    (noPriv : space = .tile ∨ ∀ e ∈ s.escrow, e.owner = gi → e.level ≠ .priv) {old : W64} {leaves : Memory → Memory → Prop}
    (performs : ∀ u : State, u = { s with groups := u.groups } →
      let r := u.atomAt gi space op scope width (a.place.headD 0) (b.getD a.lane 0) (x.getD a.lane 0)
      r.1 = old ∧ ∃ mem tile, Becomes u r.2 mem tile u.escrow u.egress ∧ leaves mem tile) :
    let t := s.runAtomic gi id []
    (t.grp gi).ops = [] ∧ LaneLands s t gi d width a.lane old ∧ leaves t.mem t.tile := by
  obtain ⟨u, o', release, reops, which⟩ := h.atomRelease free empty (fun step => owned (by cases rel with
    | true => rfl
    | false => exact absurd step (by simp [Op.commitStep])))
  obtain ⟨rel', rfl⟩ : ∃ rel', o' = ⟨id, slot, d, span, lanes, beside, .atomic space op scope width acq rel' [a] b x []⟩ := by
    rcases which with rfl | rfl
    · exact ⟨rel, rfl⟩
    · exact ⟨false, rfl⟩
  have alone := reops.alone h
  obtain ⟨value, mem, tile, becomes, left⟩ := performs u reops.only
  let v := (u.atomAt gi space op scope width (a.place.headD 0) (b.getD a.lane 0) (x.getD a.lane 0)).2
  have func : (u.grp gi).func = (s.grp gi).func := by rw [reops.group]
  have performed := alone.atomLane (by rw [reops.only]; exact present) (by rw [reops.only]; exact clean)
    (by rw [func, reops.only]; exact taken) (by rw [reops.only]; exact noPriv)
  dsimp only at performed value
  rw [value] at performed
  have done := (alone.steady becomes.toSteady).setOp (fun o => { o with kind := .atomic space op scope width acq rel' [] b x [(a.lane, old)] })
  have result : s.runAtomic gi id [] = (v.modGrp gi (fun g => g.setOp id (fun o =>
      { o with kind := .atomic space op scope width acq rel' [] b x [(a.lane, old)] }))).closeAtomic gi
        ⟨id, slot, d, span, lanes, beside, .atomic space op scope width acq rel' [] b x [(a.lane, old)]⟩ scope width acq [(a.lane, old)] := by
    have hop := alone.op
    dsimp only at hop release
    unfold State.runAtomic
    dsimp only
    rw [release]
    dsimp only
    rw [hop]
    dsimp only [Op.accs]
    rw [if_neg (by decide), if_pos (by rfl), List.map_singleton, List.foldl_cons, List.foldl_nil, performed]
    exact done.endAtomic
  obtain ⟨ops, lands, mem', tile'⟩ := h.performed_closes (scope := scope) (acq := acq) (lane := a.lane) (old := old) reops becomes
    (fun o => { o with kind := .atomic space op scope width acq rel' [] b x [(a.lane, old)] }) inside
  intro t
  rw [show t = _ from result]
  exact ⟨ops, lands, by rw [mem', tile']; exact left⟩

/-! The one lane of a vault routine -/

/-- The four sectors of a line written with a routine's bytes. -/
def Memory.putLine (m : Memory) (line : Nat) (data : List (Option Byte)) (ks : List Nat) : Memory :=
  ks.foldl (fun m k => m.putSector (line + 32 * k) ((data.drop (32 * k)).take 32)) m

def State.devWriteLine (s : State) (line : Nat) (data : List (Option Byte)) (by_ : Option Nat) (ks : List Nat) : State :=
  ks.foldl (fun s k => s.devWrite .glob (line + 32 * k) ((data.drop (32 * k)).take 32) by_ false) s

theorem State.devWriteLine_dram (s : State) {line : Nat} (data : List (Option Byte)) (by_ : Option Nat) {ks : List Nat}
    (dram : ∀ k ∈ ks, regionOf (line + 32 * k) = 0) :
    Becomes s (s.devWriteLine line data by_ ks) (s.mem.putLine line data ks) s.tile s.escrow s.egress := by
  induction ks generalizing s with
  | nil => exact .refl s
  | cons k ks ih =>
    obtain ⟨here, there⟩ := List.forall_mem_cons.mp dram
    have first := s.devWrite_glob ((data.drop (32 * k)).take 32) by_ (sys := false) (.inl here)
    have rest := ih (s.devWrite .glob (line + 32 * k) ((data.drop (32 * k)).take 32) by_ false) there
    rw [first.mem, first.tile, first.escrow, first.egress] at rest
    exact first.trans rest

theorem getD_chunk (data : List (Option Byte)) (lo j : Nat) : ((data.drop lo).take 32).getD j none = if j < 32 then data.getD (lo + j) none else none := by
  simp only [List.getD_eq_getElem?_getD, List.getElem?_take, List.getElem?_drop]
  split <;> rfl

theorem Memory.get_putLine {m : Memory} (h : m.wf = true) (line : Nat) (data : List (Option Byte)) (n q : Nat) :
    (m.putLine line data (List.range n)).wf = true ∧ (m.putLine line data (List.range n)).get q =
      if line ≤ q ∧ q < line + 32 * n then (data.getD (q - line) none).getD (m.get q) else m.get q := by
  induction n with
  | zero => exact ⟨h, (if_neg (by omega)).symm⟩
  | succ n ih =>
    obtain ⟨wf, below⟩ := ih
    have step : m.putLine line data (List.range (n + 1)) =
        (m.putLine line data (List.range n)).putSector (line + 32 * n) ((data.drop (32 * n)).take 32) := by
      rw [Memory.putLine, List.range_succ, List.foldl_append]
      rfl
    rw [step]
    refine ⟨Memory.putSector_wf wf .., ?_⟩
    rw [Memory.get_putSector wf, below, getD_chunk]
    by_cases low : line + 32 * n ≤ q
    · rw [if_pos low, if_neg (by omega : ¬(line ≤ q ∧ q < line + 32 * n))]
      by_cases high : q < line + 32 * n + 32
      · rw [if_pos (by omega), if_pos (by omega), show 32 * n + (q - (line + 32 * n)) = q - line by omega]
      · rw [if_neg (by omega), if_neg (by omega)]
        rfl
    · rw [if_neg low]
      exact if_congr (by omega) rfl rfl

/-- A vault routine's lane that nothing holds back runs: its stores are visible together (R109). -/
theorem Alone.atompLane (h : Alone s gi ⟨id, slot, d, span, lanes, beside, .atomp rt width acq rel [a] b x []⟩) (empty : s.egress = [])
    (dram : regionOf (a.place.headD 0) = 0) (clean : s.poisoned .glob (a.place.headD 0) = false)
    (taken : s.turnsAway (s.grp gi).func (a.place.headD 0) = false) (noPriv : ∀ e ∈ s.escrow, e.owner = gi → e.level ≠ .priv) :
    let line := alignDown (a.place.headD 0) 128
    let r := runRoutine ((s.routineOf (s.grp gi).func rt).getD []) (s.mem.read line 128) [BitVec.ofNat 32 (a.place.headD 0 - line),
      (b.getD a.lane 0).setWidth 32, (b.getD a.lane 0).extractLsb' 32 32, (x.getD a.lane 0).setWidth 32, (x.getD a.lane 0).extractLsb' 32 32]
    ∃ v, s.atompLane gi id a.lane = v.modGrp gi (fun g => g.setOp id (fun o =>
        { o with kind := .atomp rt width acq rel [] b x [(a.lane, r.2.2 ++ r.2.1)] })) ∧
      Becomes s v (s.mem.putLine line r.1 (List.range 4)) s.tile s.escrow s.egress := by
  intro line r
  have region : ∀ k < 128, regionOf (line + k) = 0 := fun k hk => by
    rw [regionOf_add (alignDown_mod ..) hk (by decide), regionOf_alignDown _ (by decide) (by decide), dram]
  have read : s.devRead .glob line 128 = s.mem.read line 128 :=
    List.map_congr_left fun k hk => s.devByte_of_region empty (by rw [region k (List.mem_range.mp hk)]; decide)
  have rest : [a].filter (fun y => decide (y.lane ≠ a.lane)) = [] := by simp
  have hop := h.op
  have before := h.laneBefore .glob { a with place := (List.range 128).map (fun k => line + k) }
  dsimp only at hop before
  have written := s.devWriteLine_dram (line := line) r.1 (some gi) (ks := List.range 4) fun k hk => by
    have := List.mem_range.mp hk
    exact region (32 * k) (by omega)
  refine ⟨_, ?_, written.outdate [gi] ((List.range 128).filterMap (fun k => (r.1.getD k none).map (fun b => (line + k, b))))⟩
  unfold State.atompLane
  dsimp only
  rw [hop]
  dsimp only
  rw [List.find?_cons, beq_self_eq_true]
  dsimp only
  rw [before, State.privWaits_none (.inr noPriv), clean, taken, rest, State.landOwnPriv_none (.inr noPriv), read]
  rfl

/-- An ATOMP of one lane, run and ended (R299). -/
theorem Alone.runAtomp (h : Alone s gi ⟨id, slot, d, span, lanes, beside, .atomp rt width acq rel [a] b x []⟩) (free : (s.grp gi).indebted = false)
    (empty : s.egress = []) (owned : rel = true → ∀ e ∈ s.escrow, e.owner ≠ gi) (inside : destIn (s.grp gi) d width)
    (dram : regionOf (a.place.headD 0) = 0) (clean : s.poisoned .glob (a.place.headD 0) = false)
    (taken : s.turnsAway (s.grp gi).func (a.place.headD 0) = false) (noPriv : ∀ e ∈ s.escrow, e.owner = gi → e.level ≠ .priv) :
    let line := alignDown (a.place.headD 0) 128
    let r := runRoutine ((s.routineOf (s.grp gi).func rt).getD []) (s.mem.read line 128) [BitVec.ofNat 32 (a.place.headD 0 - line),
      (b.getD a.lane 0).setWidth 32, (b.getD a.lane 0).extractLsb' 32 32, (x.getD a.lane 0).setWidth 32, (x.getD a.lane 0).extractLsb' 32 32]
    let t := s.runAtomp gi id [a.lane]
    (t.grp gi).ops = [] ∧ LaneLands s t gi d width a.lane (r.2.2 ++ r.2.1) ∧ t.mem = s.mem.putLine line r.1 (List.range 4) ∧ t.tile = s.tile := by
  intro line r
  obtain ⟨u, o', release, reops, which⟩ := h.atomRelease free empty (fun step => owned (by cases rel with
    | true => rfl
    | false => exact absurd step (by simp [Op.commitStep])))
  obtain ⟨rel', rfl⟩ : ∃ rel', o' = ⟨id, slot, d, span, lanes, beside, .atomp rt width acq rel' [a] b x []⟩ := by
    rcases which with rfl | rfl
    · exact ⟨rel, rfl⟩
    · exact ⟨false, rfl⟩
  have alone := reops.alone h
  have func : (u.grp gi).func = (s.grp gi).func := by rw [reops.group]
  obtain ⟨v, performed, becomes⟩ := alone.atompLane (by rw [reops.only]; exact empty) dram (by rw [reops.only]; exact clean)
    (by rw [func, reops.only]; exact taken) (by rw [reops.only]; exact noPriv)
  have same : u.mem = s.mem ∧ u.tile = s.tile ∧ u.routineOf = s.routineOf := by
    rw [reops.only]
    exact ⟨rfl, rfl, rfl⟩
  obtain ⟨mem, tile, routine⟩ := same
  rw [func, mem, routine] at performed becomes
  rw [tile] at becomes
  have done := (alone.steady becomes.toSteady).setOp (fun o => { o with kind := .atomp rt width acq rel' [] b x [(a.lane, r.2.2 ++ r.2.1)] })
  have result : s.runAtomp gi id [a.lane] = (v.modGrp gi (fun g => g.setOp id (fun o =>
      { o with kind := .atomp rt width acq rel' [] b x [(a.lane, r.2.2 ++ r.2.1)] }))).closeAtomic gi
        ⟨id, slot, d, span, lanes, beside, .atomp rt width acq rel' [] b x [(a.lane, r.2.2 ++ r.2.1)]⟩ 3 width acq [(a.lane, r.2.2 ++ r.2.1)] := by
    dsimp only at release
    unfold State.runAtomp
    dsimp only
    rw [release, List.foldl_cons, List.foldl_nil, performed]
    exact done.endAtomp
  intro t
  rw [show t = _ from result]
  exact h.performed_closes reops becomes _ inside

end Sys2Proof.Machine
end

section
/-! The clauses of O42. -/

namespace Sys2Proof.Machine

variable {s : State} {gi id own slot beside : Nat} {d : RegCode} {lanes : BitVec 64} {e x : Esc}

theorem commitComplete_eq (s : State) (gi id : Nat) : exec (.commitComplete gi id []) s = .next (s.runCommit gi id []) := rfl
theorem abortComplete_eq (s : State) (gi id : Nat) : exec (.abortComplete gi id) s = .next (s.runAbort gi id) := rfl
theorem atomicPerformed_eq (s : State) (gi id : Nat) : exec (.atomicPerformed gi id []) s = .next (s.runAtomic gi id []) := rfl
theorem vaultRoutineRun_eq (s : State) (gi id lane : Nat) : exec (.vaultRoutineRun gi id lane) s = .next (s.runAtomp gi id [lane]) := rfl

/-- Whether a watch set stands as hit. -/
theorem Group.unhit_iff (g : Group) : ¬(g.wovf = true ∨ g.watchHit = true) ↔ g.wovf = false ∧ g.whit = false ∧ ∀ w ∈ g.watch, w.hit = false := by
  simp [Group.watchHit]

/-- The writes of a commit to device and system scope. -/
theorem commitsLand (free : (s.grp gi).indebted = false) (held : Held s gi id e) (all : s.escrow = [e]) (clean : s.poisoned e.space e.sector = false)
    (empty : s.egress = []) {scope : Nat} (high : 3 ≤ scope) (h : Alone s gi ⟨id, slot, d, 1, lanes, beside, .commit scope false⟩) :
    let t := s.runCommit gi id []
    (e.space = .tile → s.tile.wf = true → Ended s t gi d 0 ∧ t.escrow = [] ∧ t.mem = s.mem ∧ ∀ a, t.tile.get a = e.over a (s.tile.get a)) ∧
    (e.space = .glob → s.mem.wf = true → s.turnsAway (s.grp gi).func e.sector = false →
      (regionOf e.sector = 0 ∨ (regionOf e.sector = 2 ∧ scope = 4) → Ended s t gi d 0 ∧ t.tile = s.tile ∧ t.escrow = [] ∧ t.egress = [] ∧
        ∀ a, t.mem.get a = e.over a (s.mem.get a)) ∧
      (regionOf e.sector = 2 → scope = 3 → (∃ k < 32, (e.data.getD k none).isSome = true) → ∃ x : Egress, Ended s t gi d 0 ∧ t.tile = s.tile ∧
        t.escrow = [] ∧ t.mem = s.mem ∧ t.egress = [x] ∧ x.sector = e.sector ∧ x.data = e.data)) := by
  intro t
  refine ⟨fun tile wf => ?_, fun glob wf taken => ⟨fun direct => ?_, fun host device some_ => ?_⟩⟩
  · obtain ⟨ended, mem, tiles, escrow, -⟩ := State.commit_lands h free held all high empty clean (fun k => absurd (tile.symm.trans k) (by decide))
      (State.writeEsc_tile held tile (scope == 4))
    refine ⟨ended, escrow, mem, fun a => ?_⟩
    rw [tiles]
    exact Memory.get_putSector wf ..
  · obtain ⟨ended, mem, tiles, escrow, egress⟩ := State.commit_lands h free held all high empty clean (fun _ => taken)
      (State.writeEsc_glob held glob (sys := scope == 4) (direct.imp_right fun ⟨region, four⟩ => ⟨by rw [four]; rfl, empty, region⟩))
    refine ⟨ended, tiles, escrow, egress.trans empty, fun a => ?_⟩
    rw [mem]
    exact Memory.get_putSector wf ..
  · have holds : (enabled e.data).isEmpty = false := by
      rw [← Bool.not_eq_true, enabled_isEmpty]
      obtain ⟨k, -, present⟩ := some_
      intro none
      rw [none k] at present
      exact absurd present (by decide)
    obtain ⟨x, sector, data, written⟩ := State.writeEsc_egress held glob host holds
    subst device
    obtain ⟨ended, mem, tiles, escrow, egress⟩ := State.commit_lands h free held all high empty clean (fun _ => taken) written
    exact ⟨x, ended, tiles, escrow, mem, by rw [egress, empty]; rfl, sector, data⟩

/-- What a request whose release is made leaves (R249). -/
theorem requestSent (free : (s.grp gi).indebted = false) (h : Alone s gi ⟨id, slot, d, 1, lanes, beside, .request (some 3)⟩)
    (others : ∀ e ∈ s.escrow, e.owner ≠ gi) : let t := s.runRequest gi id []
    (t.grp gi).v = (s.grp gi).v ∧ (t.grp gi).s = (s.grp gi).s ∧ t.tile = s.tile ∧
      (t.grp gi).ops = [⟨id, slot, d, 1, lanes, beside, .request none⟩] ∧ MemoryKept s t ∧ t.reqs = s.reqs.map (fun r => match r.stage with
        | .release _ => if r.sender = .group gi id then { r with stage := .send } else r
        | _ => r) := by
  intro t
  have result : t = (s.modGrp gi (fun g => g.setOp id Op.released)).letGo gi id ⟨id, slot, d, 1, lanes, beside, .request (some 3)⟩ :=
    State.runRequest_sends h free others
  have group : t.grp gi = { s.grp gi with ops := [⟨id, slot, d, 1, lanes, beside, .request none⟩] } := by
    rw [result]
    exact h.grp_setOp Op.released
  refine ⟨by rw [group], by rw [group], by rw [result]; rfl, by rw [group], by rw [result]; exact ⟨rfl, rfl, rfl⟩, ?_⟩
  rw [result]
  refine List.map_congr_left fun r _ => ?_
  cases r.stage with
  | release scope =>
    cases sender : r.sender with
    | group g i => exact if_congr (by simp) rfl rfl
    | teller => simp
    | joiner => simp
  | send => cases r.sender <;> rfl
  | refused => cases r.sender <;> rfl
  | answered => cases r.sender <;> rfl
  | completing => cases r.sender <;> rfl

/-- A step of a kick store's release, with its lists. -/
theorem kickPerforms {lists : List Nat} (free : (s.grp gi).indebted = false) (all : s.escrow = [e]) (lands : Lands s gi id e)
    (h : Alone s gi ⟨id, slot, d, 1, lanes, beside, .kick lists true⟩)
    (room : (s.core (s.grp gi).pkg).lists.length + lists.length ≤ Config.listMax) : let t := s.runKick gi id []
    (t.grp gi).v = (s.grp gi).v ∧ (t.grp gi).s = (s.grp gi).s ∧ t.tile = s.tile ∧ (t.grp gi).ops = [] ∧ t.escrow = [] ∧
      t.mem = s.mem.putSector e.sector e.data ∧ (t.core (s.grp gi).pkg).lists =
        (s.core (s.grp gi).pkg).lists ++ lists.map (fun a => ⟨a, id, 0, gi, (s.grp gi).func, (s.grp gi).name, []⟩) := by
  intro t
  have held := lands.toHeld
  obtain ⟨step, written⟩ := State.commitStep_dram lands (by rw [all, List.filter_cons_of_pos (held.covered 3 (by decide)), List.filter_nil])
    (h.keepsNone fun _ _ _ _ _ k => nomatch k) fun y hy ne => by
      rw [all, List.mem_singleton] at hy
      exact absurd hy ne
  rw [all, List.filter_cons_of_neg (by simp), List.filter_nil] at written
  have result := State.runKick_hands h free step written.toSteady (by rw [written.lists]; exact room)
  have after := h.steady written.toSteady
  let u := (s.writeEsc false e).modCore (s.grp gi).pkg (fun c => { c with
    lists := c.lists ++ lists.map (fun a => ⟨a, id, 0, gi, (s.grp gi).func, (s.grp gi).name, []⟩) })
  have alone : Alone u gi _ := after.steady (.regroup (.refl _))
  obtain ⟨ops, v, sregs, -, -, memory, escrow⟩ := alone.endOp_others
  rw [show t = u.endOp gi id from result]
  refine ⟨v.trans (written.v gi), sregs.trans (written.sregs gi), memory.2.1.trans written.tile, ops, escrow.trans written.escrow,
    memory.1.trans written.mem, ?_⟩
  show (u.core (s.grp gi).pkg).lists = _
  rw [State.core_modCore, if_pos rfl]
  exact congrArg (· ++ _) (written.lists _)

/-- Settles O42, operation by operation. -/
theorem commitsComplete : Obligations.CommitsComplete := by
  intro s gi id slot beside d lanes
  refine ⟨fun scope h owes => ?_, fun debt owed => ?_⟩
  · have indebted : (s.grp gi).indebted = true := by
      rcases owes with debt | owed
      · simp [Group.indebted, debt]
      · simp [Group.indebted, owed]
    rw [commitComplete_eq, State.runCommit_indebted h indebted]
  have free := Group.indebted_false debt owed
  refine ⟨fun e all held => ⟨?_, ?_, ?_, ?_⟩, ?_, ?_, ?_, ?_, ?_⟩
  · intro p hp h unhit others
    have low : (1 ≤ p.1 ∧ p.1 ≤ 2) ∧ p.2 = levelOf p.1 := by
      simp only [List.mem_cons, List.not_mem_nil, or_false] at hp
      rcases hp with rfl | rfl <;> exact ⟨by decide, rfl⟩
    obtain ⟨⟨some_, low⟩, level⟩ := low
    obtain ⟨ended, memory, escrow, watch⟩ := State.commit_raises h free held all some_ low ((Group.unhit_iff _).mpr unhit) others
    exact ⟨_, ⟨commitComplete_eq s gi id, ended, memory.2.1⟩, memory, by rw [level]; exact escrow, watch⟩
  · intro scope hs h hit others
    have low : 1 ≤ scope ∧ scope ≤ 2 := by
      simp only [List.mem_cons, List.not_mem_nil, or_false] at hs
      omega
    obtain ⟨ended, memory, rest⟩ := State.commit_fails h free held all low.1 low.2
      (by_contra fun k => hit ((Group.unhit_iff _).mp k)) others
    exact ⟨_, ⟨commitComplete_eq s gi id, ended, memory.2.1⟩, memory, rest⟩
  · exact fun h => ⟨_, abortComplete_eq s gi id, State.runAbort_discards h held all⟩
  · intro clean empty scope hs h
    have high : 3 ≤ scope := by
      simp only [List.mem_cons, List.not_mem_nil, or_false] at hs
      omega
    obtain ⟨onTile, onGlob⟩ := commitsLand free held all clean empty high h
    refine ⟨fun tile wf => ⟨_, commitComplete_eq s gi id, onTile tile wf⟩, fun glob wf taken => ?_⟩
    obtain ⟨direct, device⟩ := onGlob glob wf taken
    refine ⟨fun near => ?_, fun host three some_ => ?_⟩
    · obtain ⟨ended, tile, rest⟩ := direct near
      exact ⟨_, ⟨commitComplete_eq s gi id, ended, tile⟩, rest⟩
    · obtain ⟨x, ended, tile, rest⟩ := device host three some_
      exact ⟨_, x, ⟨commitComplete_eq s gi id, ended, tile⟩, rest⟩
  · intro x none one h host going wf
    obtain ⟨ended, mem, tile, egress⟩ := State.commit_drains h free none one host going
    refine ⟨_, ⟨commitComplete_eq s gi id, ended, tile⟩, egress, fun a => ?_⟩
    rw [mem]
    exact Memory.get_putSector wf ..
  · intro own e x all apart
    refine ⟨fun before mine p hp h => ?_, fun before mine wf h => ?_, fun scope some_ low h owner level sealed unmarked own_ tile absent => ?_⟩
    · have low : (1 ≤ p.1 ∧ p.1 ≤ 2) ∧ p.2 = levelOf p.1 := by
        simp only [List.mem_cons, List.not_mem_nil, or_false] at hp
        rcases hp with rfl | rfl <;> exact ⟨by decide, rfl⟩
      obtain ⟨⟨some_, low⟩, level⟩ := low
      obtain ⟨u, result, raised⟩ := State.runStoreRel_raises h free ⟨all, before, mine, apart⟩ some_ low
      obtain ⟨ops, v, sregs, -, -, memory, escrow⟩ := (h.steady raised.toSteady).endOp_others
      refine ⟨u.endOp gi id, ⟨by rw [releasePerform_store h, result], v.trans (raised.v gi), sregs.trans (raised.sregs gi),
        memory.2.1.trans raised.tile⟩, ops, ⟨memory.1.trans raised.mem, memory.2.1.trans raised.tile, memory.2.2.trans raised.opbuf⟩, ?_⟩
      rw [level]
      exact escrow.trans raised.escrow
    · obtain ⟨u, result, written⟩ := State.runStoreRel_dram h free all apart before mine
      obtain ⟨ops, v, sregs, -, -, memory, escrow⟩ := (h.steady written.toSteady).endOp_others
      refine ⟨u.endOp gi id, ⟨by rw [releasePerform_store h, result], v.trans (written.v gi), sregs.trans (written.sregs gi),
        memory.2.1.trans written.tile⟩, ops, escrow.trans written.escrow, fun a => ?_⟩
      rw [show (u.endOp gi id).mem = _ from memory.1.trans written.mem, Memory.get_putSector (Memory.putSector_wf wf ..), Memory.get_putSector wf]
      rfl
    · rw [releasePerform_store h, State.runStoreRel_absent h free all apart some_ low owner level sealed unmarked own_ tile absent]
  · intro e lists all lands wf h room
    obtain ⟨v, sregs, tile, ops, escrow, mem, handed⟩ := kickPerforms free all lands h room
    refine ⟨_, ⟨releasePerform_kick h, v, sregs, tile⟩, ops, escrow, fun a => ?_, handed⟩
    rw [mem]
    exact Memory.get_putSector wf ..
  · intro h none
    obtain ⟨v, sregs, tile, rest⟩ := requestSent free h none
    exact ⟨_, ⟨releasePerform_request h, v, sregs, tile⟩, rest⟩
  · intro a width span acq rel b x inside lane low high empty owned p n byte arg aligned
    refine ⟨fun op scope h present clean wf => ?_, fun noPriv region taken clean wf => ⟨fun op scope h => ?_, fun rt h => ?_⟩⟩
    · have atom := fun u : State => u.atomAt_tile (gi := gi) (op := op) (scope := scope) (width := width) (p := p) (b := b.getD a.lane 0) (x := x.getD a.lane 0)
      obtain ⟨ops, lands, mem, tile⟩ := h.runAtomic free empty owned inside (fun _ => present) clean (fun k => nomatch k) (.inl rfl)
        (old := BitVec.ofNat 64 (ofBytesLE (s.tile.read p n)))
        (leaves := fun mem tile => mem = s.mem ∧ ∀ q, tile.get q = atomByte s.tile p n (atomNew op width (ofBytesLE (s.tile.read p n))
          (b.getD a.lane 0) (x.getD a.lane 0)) q)
        fun u hu => by
          have same : u.mem = s.mem ∧ u.tile = s.tile := by
            rw [hu]
            exact ⟨rfl, rfl⟩
          obtain ⟨value, tile, becomes, bytes⟩ := atom u (by rw [same.2]; exact wf)
          rw [same.2] at value bytes
          exact ⟨value, u.mem, tile, becomes, same.1, bytes⟩
      exact ⟨_, atomicPerformed_eq s gi id, ops, lands, mem, tile⟩
    · have dram : ∀ k < n, regionOf (p + k) = 0 := fun k hk => by
        rw [regionOf_add aligned hk (Nat.pow_dvd_pow 2 (by omega)), region]
      have atom := fun u : State => u.atomAt_dram (gi := gi) (width := width) (p := p) (op := op) (scope := scope) (b := b.getD a.lane 0) (x := x.getD a.lane 0)
      obtain ⟨ops, lands, tile, mem⟩ := h.runAtomic free empty owned inside (fun k => nomatch k) clean (fun _ => taken) (.inr noPriv)
        (old := BitVec.ofNat 64 (ofBytesLE (s.mem.read p n)))
        (leaves := fun mem tile => tile = s.tile ∧ ∀ q, mem.get q = atomByte s.mem p n (atomNew op width (ofBytesLE (s.mem.read p n))
          (b.getD a.lane 0) (x.getD a.lane 0)) q)
        fun u hu => by
          have same : u.mem = s.mem ∧ u.tile = s.tile ∧ u.escrow = s.escrow ∧ u.egress = s.egress := by
            rw [hu]
            exact ⟨rfl, rfl, rfl, rfl⟩
          obtain ⟨mem, tile, escrow, egress⟩ := same
          obtain ⟨value, mem', becomes, bytes⟩ := atom u (by rw [mem]; exact wf) (by rw [egress]; exact empty) (by rw [escrow]; exact noPriv) dram
          rw [mem] at value bytes
          exact ⟨value, mem', u.tile, becomes, tile, bytes⟩
      exact ⟨_, atomicPerformed_eq s gi id, ops, lands, tile, mem⟩
    · obtain ⟨ops, lands, mem, tile⟩ := h.runAtomp free empty owned inside region clean taken noPriv
      refine ⟨_, vaultRoutineRun_eq s gi id a.lane, ops, lands, tile, fun q => ?_⟩
      rw [mem]
      exact (Memory.get_putLine wf ..).2

end Sys2Proof.Machine
end

section
/-! Loads: what a lane's return changes (its operation, integrity debt and near caches alone), the bytes that it gives, and how they land. -/

namespace Sys2Proof.Machine

variable {s t u : State} {gi id : Nat} {o : Op}

/-! What the return of a load's data leaves -/

/-- A group without its operations and its integrity debt. -/
def Group.bare (g : Group) : Group := { g with ops := [], debt := [] }

/-- A state without its groups, near caches and the place of the free bits. -/
def State.unread (s : State) : State := { s with groups := [], cores := [], freeCount := 0 }

/-- Near caches, the place of the free bits, and groups' operations and integrity debt are all that has changed, and of its debt the group has lost
nothing. -/
structure Reads (s t : State) (gi : Nat) : Prop where
  unread : t.unread = s.unread
  cores : ∀ p, (t.core p).calm = (s.core p).calm
  length : t.groups.length = s.groups.length
  bare : ∀ j, (t.grp j).bare = (s.grp j).bare
  owes : ∀ x ∈ (s.grp gi).debt, x ∈ (t.grp gi).debt

theorem Reads.refl (s : State) (gi : Nat) : Reads s s gi := ⟨rfl, fun _ => rfl, rfl, fun _ => rfl, fun _ h => h⟩

theorem Reads.trans (h : Reads s t gi) (k : Reads t u gi) : Reads s u gi :=
  ⟨k.unread.trans h.unread, fun p => (k.cores p).trans (h.cores p), k.length.trans h.length, fun j => (k.bare j).trans (h.bare j),
    fun x hx => k.owes x (h.owes x hx)⟩

theorem State.outdate_reads (s : State) (gi : Nat) (who : List Nat) (bs : List (Nat × Byte)) : Reads s (s.outdate who bs) gi :=
  ⟨rfl, s.core_mapNear _, rfl, fun _ => rfl, fun _ h => h⟩

theorem State.draw_reads (s : State) (gi : Nat) : Reads s s.draw.2 gi := ⟨rfl, fun _ => rfl, rfl, fun _ => rfl, fun _ h => h⟩

theorem Core.calm_near (c : Core) (near : List NearLine) : ({ c with near := near } : Core).calm = c.calm := rfl

theorem State.fillNear_reads (s : State) (gi pkg func pa : Nat) : Reads s (s.fillNear pkg func pa) gi := by
  refine ⟨rfl, fun p => ?_, rfl, fun _ => rfl, fun _ h => h⟩
  unfold State.fillNear
  dsimp only
  rw [State.core_modCore]
  split
  next e =>
    rw [e]
    exact Core.calm_near ..
  next => rfl

/-- A change of the group that keeps all but its operations and adds to its debt. -/
theorem State.modGrp_reads (s : State) (gi : Nat) {f : Group → Group} (bare : ∀ g, (f g).bare = g.bare) (owes : ∀ g, ∀ x ∈ g.debt, x ∈ (f g).debt) :
    Reads s (s.modGrp gi f) gi := by
  refine ⟨rfl, fun _ => rfl, State.modGrp_length .., fun j => ?_, fun x hx => ?_⟩
  · rw [State.grp_modGrp]
    split
    · exact bare _
    · rfl
  · rw [State.grp_modGrp]
    split
    · exact owes _ x hx
    · exact hx

section
variable (h : Reads s t gi)
include h

theorem Reads.tile : t.tile = s.tile := (congrArg State.tile h.unread :)
theorem Reads.absent : t.absent = s.absent := (congrArg State.absent h.unread :)
theorem Reads.escrow : t.escrow = s.escrow := (congrArg State.escrow h.unread :)
theorem Reads.memory : MemoryKept s t :=
  ⟨(congrArg State.mem h.unread :), h.tile, (congrArg State.opbuf h.unread :)⟩
theorem Reads.seenByte (func p : Nat) : t.seenByte func p = s.seenByte func p := (congrArg (fun s : State => s.seenByte func p) h.unread :)
theorem Reads.turnsAway (func p : Nat) : t.turnsAway func p = s.turnsAway func p := (congrArg (fun s : State => s.turnsAway func p) h.unread :)
theorem Reads.otherPriv (p : Nat) : t.otherPriv gi p = s.otherPriv gi p := (congrArg (fun s : State => s.otherPriv gi p) h.unread :)

theorem Reads.poisoned (space : Space) (p : Nat) : t.poisoned space p = s.poisoned space p := by
  cases space with
  | tile => exact (congrArg (fun s : State => s.poisoned .tile p) h.unread :)
  | glob => exact (congrArg (fun s : State => s.poisoned .glob p) h.unread :)

theorem Reads.v (j : Nat) : (t.grp j).v = (s.grp j).v := (congrArg Group.v (h.bare j) :)
theorem Reads.sregs (j : Nat) : (t.grp j).s = (s.grp j).s := (congrArg Group.s (h.bare j) :)
theorem Reads.flags (j : Nat) : (t.grp j).flags = (s.grp j).flags := (congrArg Group.flags (h.bare j) :)
theorem Reads.pkg (j : Nat) : (t.grp j).pkg = (s.grp j).pkg := (congrArg Group.pkg (h.bare j) :)
theorem Reads.func (j : Nat) : (t.grp j).func = (s.grp j).func := (congrArg Group.func (h.bare j) :)

/-- Teams and clusters are what they were, so what they show is. -/
theorem Reads.midByte (j : Nat) (space : Space) (p : Nat) : t.midByte (t.grp j) space p = s.midByte (s.grp j) space p := by
  have team : ∀ i, sameTeam (t.grp i) (t.grp j) = sameTeam (s.grp i) (s.grp j) := fun i =>
    (congrArg₂ sameTeam (h.bare i) (h.bare j) :)
  have cluster : ∀ i, sameCluster (t.grp i) (t.grp j) = sameCluster (s.grp i) (s.grp j) := fun i =>
    (congrArg₂ sameCluster (h.bare i) (h.bare j) :)
  unfold State.midByte
  simp only [team, cluster, h.escrow]

theorem Reads.alone {o' : Op} (k : Alone s gi o) (ops : (t.grp gi).ops = [o']) : Alone t gi o' := by
  have resident : (t.grp gi).resident = (s.grp gi).resident := (congrArg Group.resident (h.bare gi) :)
  have pendw : (t.grp gi).pendw = (s.grp gi).pendw := (congrArg Group.pendw (h.bare gi) :)
  exact ⟨h.length ▸ k.index, resident.trans k.resident, ops, pendw.trans k.settled⟩

end

/-! An element's bytes -/

/-- The byte that a place gives below the group's own: its team's or cluster's, else the device-visible one. -/
def State.lowByte (s : State) (gi : Nat) (space : Space) (p : Nat) : Byte :=
  (s.midByte (s.grp gi) space p).getD (match space with
    | .tile => s.tile.get p
    | .glob => s.seenByte (s.grp gi).func p)

theorem Reads.lowByte (h : Reads s t gi) (space : Space) (p : Nat) : t.lowByte gi space p = s.lowByte gi space p := by
  unfold State.lowByte
  rw [h.midByte, h.func, h.tile]
  cases space with
  | tile => rfl
  | glob => exact congrArg _ (h.seenByte ..)

/-- The byte that a load of one element finds at a place, `f` telling whether another group's priv-level store is already seen. -/
def State.elemByte (s : State) (gi : Nat) (space : Space) (near f : Bool) (p : Nat) : Byte :=
  match s.midByte (s.grp gi) space p with
  | some b => b
  | none => match space with
    | .tile => s.devByte .tile p
    | .glob => match f, s.otherPriv gi p with
      | true, some b => b
      | _, _ => match near, (s.core (s.grp gi).pkg).nearByte gi (s.grp gi).func p with
        | true, some b => b
        | _, _ => s.seenByte (s.grp gi).func p

/-- The bytes are those of the places, whatever near cache and free bit say, and only near caches change. -/
theorem State.loadElem_eq (s : State) (gi : Nat) (space : Space) (ps : List Nat) (near : Bool) :
    ∃ f, (s.loadElem gi space ps near).1 = ps.map (s.elemByte gi space near f) ∧ Reads s (s.loadElem gi space ps near).2 gi := by
  have marked : ∀ (u : State) bs, Reads s u gi → Reads s (if space = .glob then u.outdate [gi] bs else u) gi := fun u bs h => by
    split
    · exact h.trans (u.outdate_reads ..)
    · exact h
  have drawn : Reads s (if space == .glob && ps.any (fun p => (s.otherPriv gi p).isSome) then s.draw else (false, s)).2 gi := by
    split
    · exact s.draw_reads gi
    · exact .refl s gi
  exact ⟨_, rfl, marked _ _ drawn⟩

/-- Where no other group's priv-level store stands and no near cache serves, an element's byte is that of the layers below. -/
theorem State.elemByte_low {space : Space} {p : Nat} (none : space = .glob → s.otherPriv gi p = none) (f : Bool) :
    s.elemByte gi space false f p = s.lowByte gi space p := by
  unfold State.elemByte State.lowByte
  cases s.midByte (s.grp gi) space p with
  | some b => rfl
  | none =>
    cases space with
    | tile => rfl
    | glob =>
      rw [none rfl]
      cases f <;> rfl

/-- A byte that the near cache serves. -/
theorem State.elemByte_near {p : Nat} {b : Byte} (none : s.otherPriv gi p = none)
    (serves : (s.core (s.grp gi).pkg).nearByte gi (s.grp gi).func p = some b) (f : Bool) :
    s.elemByte gi .glob true f p = (s.midByte (s.grp gi) .glob p).getD b := by
  unfold State.elemByte
  cases s.midByte (s.grp gi) .glob p with
  | some b => rfl
  | none =>
    rw [none, serves]
    cases f <;> rfl

/-! A lane's bytes -/

/-- A group's own byte over what stands below it. -/
def ownOver (own : List (Nat × Byte)) (under : Nat → Byte) (p : Nat) : Byte := lookupD own p (under p)

theorem lookupD_eq_find {β : Type} (l : List (Nat × β)) (k : Nat) (d : β) : lookupD l k d = match l.find? (fun x => x.1 == k) with
    | some x => x.2
    | none => d := by
  induction l with
  | nil => rfl
  | cons x l ih =>
    rw [lookupD, List.find?_cons]
    by_cases h : x.1 = k
    · rw [if_pos h, beq_iff_eq.mpr h]
    · rw [if_neg h, beq_eq_false_iff_ne.mpr h]
      exact ih

/-- What stands below a group's own byte does not count. -/
theorem ownOver_congr {own : List (Nat × Byte)} {f g : Nat → Byte} {p : Nat} (h : own.any (fun x => x.1 == p) = false → f p = g p) :
    ownOver own f p = ownOver own g p := by
  unfold ownOver
  rw [lookupD_eq_find, lookupD_eq_find]
  cases found : own.find? (fun x => x.1 == p) with
  | some x => rfl
  | none =>
    refine h (List.any_eq_false.mpr fun x hx => ?_)
    exact List.find?_eq_none.mp found x hx

theorem flatten_elements : ∀ l : List Nat, (elements l).flatten = l
  | p0 :: p1 :: p2 :: p3 :: p4 :: p5 :: p6 :: p7 :: rest => by
    rw [elements, List.flatten_cons, flatten_elements rest]
    rfl
  | [] => rfl
  | [_] | [_, _] | [_, _, _] | [_, _, _, _] | [_, _, _, _, _] | [_, _, _, _, _, _] | [_, _, _, _, _, _, _] => by simp [elements]

/-- At most eight bytes are one element. -/
theorem elements_short {l : List Nat} (some : l ≠ []) (short : l.length ≤ 8) : elements l = [l] := by
  match l with
  | [] => exact absurd rfl some
  | [_] | [_, _] | [_, _, _] | [_, _, _, _] | [_, _, _, _, _] | [_, _, _, _, _, _] | [_, _, _, _, _, _, _] => simp [elements]
  | [_, _, _, _, _, _, _, _] => simp [elements]
  | _ :: _ :: _ :: _ :: _ :: _ :: _ :: _ :: _ :: _ => exact absurd short (by simp)

/-- A lane's element: its bytes, the group's own over those that the element's load found. -/
theorem zip_own (own : List (Nat × Byte)) (f : Nat → Byte) (ps : List Nat) : (ps.zip (ps.map f)).map (fun x => lookupD own x.1 x.2) = ps.map (ownOver own f) := by
  rw [List.zip_map_right, List.map_map]
  induction ps with
  | nil => rfl
  | cons p ps ih => simpa [ownOver] using ih

/-- A lane's bytes, where no other group's priv-level store stands under any that is not the group's own: those of the layers below. -/
theorem State.laneBytes_low (s : State) (gi : Nat) (space : Space) (own : List (Nat × Byte)) (place : List Nat)
    (none : space = .glob → ∀ p ∈ place, own.any (fun x => x.1 == p) = false → s.otherPriv gi p = none) :
    (s.laneBytes gi space own false place).1 = place.map (ownOver own (s.lowByte gi space)) ∧ Reads s (s.laneBytes gi space own false place).2 gi := by
  have step : ∀ (els : List (List Nat)) (acc : List Byte) (u : State), Reads s u gi → (∀ ps ∈ els, ∀ p ∈ ps, p ∈ place) →
      let r := els.foldl (fun acc ps =>
        let r := acc.2.loadElem gi space ps false
        (acc.1 ++ (ps.zip r.1).map (fun x => lookupD own x.1 x.2), r.2)) (acc, u)
      r.1 = acc ++ els.flatten.map (ownOver own (s.lowByte gi space)) ∧ Reads s r.2 gi := by
    intro els
    induction els with
    | nil => exact fun acc u hu _ => ⟨(List.append_nil acc).symm, hu⟩
    | cons ps els ih =>
      intro acc u hu within
      obtain ⟨here, there⟩ := List.forall_mem_cons.mp within
      obtain ⟨f, bytes, reads⟩ := u.loadElem_eq gi space ps false
      obtain ⟨rest, reads'⟩ := ih (acc ++ (ps.zip (u.loadElem gi space ps false).1).map (fun x => lookupD own x.1 x.2)) _ (hu.trans reads) there
      refine ⟨?_, reads'⟩
      rw [List.foldl_cons, rest, bytes, zip_own, List.flatten_cons, List.map_append, List.append_assoc]
      congr 2
      refine List.map_congr_left fun p hp => ownOver_congr fun foreign => ?_
      rw [State.elemByte_low (fun glob => (hu.otherPriv p).trans (none glob p (here p hp) foreign)), hu.lowByte]
  obtain ⟨bytes, reads⟩ := step (elements place) [] s (.refl s gi) fun ps hps p hp => by
    rw [← flatten_elements place]
    exact List.mem_flatten.mpr ⟨ps, hps, hp⟩
  refine ⟨?_, reads⟩
  rw [flatten_elements] at bytes
  exact bytes

/-! Loads that land -/

/-- A group with a load's values in its registers. -/
def Group.landSpan (g : Group) (d : RegCode) (mask : BitVec 64) (val : Nat → Nat → W32) (rs : List Nat) : Group :=
  rs.foldl (fun g r => g.putV (d + BitVec.ofNat 8 r).toNat mask ((List.range 64).map (fun i => val i r)) .g) g

theorem Group.landSpan_others (d : RegCode) (mask : BitVec 64) (val : Nat → Nat → W32) (rs : List Nat) (g : Group) :
    (g.landSpan d mask val rs).bare = { g.bare with v := (g.landSpan d mask val rs).v } ∧ (g.landSpan d mask val rs).ops = g.ops ∧
      (g.landSpan d mask val rs).debt = g.debt ∧ (g.landSpan d mask val rs).v.length = g.v.length := by
  unfold Group.landSpan
  refine List.foldlRecOn (motive := fun u : Group => u.bare = { g.bare with v := u.v } ∧ u.ops = g.ops ∧ u.debt = g.debt ∧ u.v.length = g.v.length)
    rs _ ⟨rfl, rfl, rfl, rfl⟩ fun u hu r _ => ?_
  obtain ⟨bare, ops, debt, length⟩ := hu
  refine ⟨?_, ops, debt, (Group.putV_length ..).trans length⟩
  exact (congrArg (fun x : Group => { x with v := (u.putV (d + BitVec.ofNat 8 r).toNat mask ((List.range 64).map (fun i => val i r)) .g).v }) bare :)

theorem regCode_add {d : RegCode} {r : Nat} (h : d.toNat + r < 192) : (d + BitVec.ofNat 8 r).toNat = d.toNat + r := by
  rw [BitVec.toNat_add, BitVec.toNat_ofNat]
  omega

/-- Its registers: the values in the lanes of the mask, and G; every other register as it was. -/
theorem Group.vreg_landSpan (g : Group) (d : RegCode) (mask : BitVec 64) (val : Nat → Nat → W32) {span : Nat} (inside : d.toNat + span ≤ min 192 g.v.length)
    (n : Nat) : (g.landSpan d mask val (List.range span)).vreg n = if d.toNat ≤ n ∧ n < d.toNat + span then
        ⟨.g, putLanes (g.vreg n).lanes mask ((List.range 64).map (fun i => val i (n - d.toNat)))⟩ else g.vreg n := by
  have bounds := Nat.le_min.mp inside
  induction span with
  | zero => exact (if_neg (by omega)).symm
  | succ span ih =>
    have below := ih (by omega) (by omega)
    have step : g.landSpan d mask val (List.range (span + 1)) = (g.landSpan d mask val (List.range span)).putV (d.toNat + span) mask
        ((List.range 64).map (fun i => val i span)) .g := by
      have more : List.range (span + 1) = List.range span ++ [span] := List.range_succ
      rw [Group.landSpan, more, List.foldl_append, ← regCode_add (by omega)]
      rfl
    rw [step, Group.vreg_putV (by rw [(g.landSpan_others d mask val (List.range span)).2.2.2]; omega)]
    by_cases last : n = d.toNat + span
    · subst last
      rw [if_pos rfl, below, if_neg (by omega), if_pos (by omega), Nat.add_sub_cancel_left]
    · rw [if_neg last, below]
      exact if_congr (by omega) rfl rfl

theorem State.modGrp_self (s : State) (gi : Nat) : s.modGrp gi (fun g => g) = s := by
  have same : ∀ (n : Nat) (l : List Group), modifyNth (fun g => g) n l = l := by
    intro n l
    induction l generalizing n with
    | nil => cases n <;> rfl
    | cons x l ih =>
      cases n with
      | zero => rfl
      | succ n => rw [modifyNth, ih]
  rw [State.modGrp, same]

theorem State.landLoad_eq (index : gi < s.groups.length) (settled : (s.grp gi).pendw = []) (d : RegCode) (span : Nat) (got : List (Nat × List Byte)) :
    s.landLoad gi d span got = s.modGrp gi (fun g => g.landSpan d (maskOf (got.map Prod.fst)) (fun i r => loadedWord (lookupD got i []) r) (List.range span)) := by
  unfold State.landLoad
  dsimp only
  generalize List.range span = rs
  induction rs generalizing s with
  | nil => exact (s.modGrp_self gi).symm
  | cons r rs ih =>
    rw [List.foldl_cons, State.landV_settled index settled, ih (by rw [State.modGrp_length]; exact index) (by rw [State.grp_modGrp_self _ _ index]; exact settled),
      State.modGrp_modGrp]
    rfl

end Sys2Proof.Machine
end

section
/-! The lanes of a load that return one after another, and the load's end. -/

namespace Sys2Proof.Machine

variable {s t u : State} {gi : Nat}

/-- A load that is outstanding, but for what has returned of it. -/
structure PendingLoad where
  id : Nat
  slot : Nat
  dest : RegCode
  span : Nat
  lanes : BitVec 64
  beside : Nat
  kind : Nat
  mod : BitVec 8
  space : Space
  scope : Nat
  width : Nat
  acq : Bool
  accs : List Acc
  own : List (Nat × Byte)

/-- It as an operation, with the bytes that have returned. -/
def PendingLoad.op (l : PendingLoad) (got : List (Nat × List Byte)) : Op :=
  ⟨l.id, l.slot, l.dest, l.span, l.lanes, l.beside, .load l.kind l.mod l.space l.scope l.width l.acq l.accs l.own got⟩

/-- Whether a place is one of the group's own bytes. -/
def PendingLoad.mine (l : PendingLoad) (p : Nat) : Bool := l.own.any (fun x => x.1 == p)

/-- The places of an access that the layers below give. -/
def PendingLoad.below (l : PendingLoad) (a : Acc) : List Nat := a.place.filter (fun p => !l.mine p)

/-- Whether the near cache may serve an access. -/
def PendingLoad.serves (l : PendingLoad) (near : Bool) (a : Acc) : Bool :=
  near && l.kind == 2 && decide (l.scope ≤ 2) && !(l.acq && l.scope == 2) && !(l.below a).any (fun p => regionOf p == 3)

/-- Whether it serves a place of it. -/
def State.cached (s : State) (gi : Nat) (l : PendingLoad) (near : Bool) (a : Acc) (p : Nat) : Bool :=
  l.serves near a && ((s.core (s.grp gi).pkg).nearByte gi (s.grp gi).func p).isSome

/-- Whether it serves every place that the layers below give. -/
def State.nearHit (s : State) (gi : Nat) (l : PendingLoad) (near : Bool) (a : Acc) : Bool := l.serves near a && (l.below a).all (s.cached gi l near a)

/-- The lines of an access that the near cache is to serve and does not hold are filled. -/
def State.filled (s : State) (gi : Nat) (l : PendingLoad) (near : Bool) (a : Acc) : State :=
  if l.serves near a && !s.nearHit gi l near a then
    (l.below a).foldl (fun t p => if ((t.core (s.grp gi).pkg).nearByte gi (s.grp gi).func p).isSome then t else t.fillNear (s.grp gi).pkg (s.grp gi).func p) s
  else s

/-- The bytes of an access, and the state after it. -/
def State.returned (s : State) (gi : Nat) (l : PendingLoad) (near : Bool) (a : Acc) : List Byte × State :=
  if l.kind = 0 then (a.place.map (fun p => lookupD l.own p ((s.filled gi l near a).seenByte (s.grp gi).func p)),
    (s.filled gi l near a).outdate [gi] ((l.below a).map (fun p => (p, (s.filled gi l near a).seenByte (s.grp gi).func p))))
  else (s.filled gi l near a).laneBytes gi l.space l.own (l.serves near a) a.place

/-- The lines that an access adds to integrity debt. -/
def State.newDebt (s : State) (gi : Nat) (l : PendingLoad) (near : Bool) (a : Acc) : List Nat :=
  if s.nearHit gi l near a then [] else dedupN (((l.below a).filter (fun p => remoteLine (s.grp gi).pkg l.space p)).map (lineOf l.space))

theorem lookupD_absent {β : Type} {l : List (Nat × β)} {k : Nat} (h : ∀ x ∈ l, x.1 ≠ k) (d : β) : lookupD l k d = d := by
  rw [lookupD_eq_find, List.find?_eq_none.mpr fun x hx => by simpa using h x hx]

theorem filter_contains_filter (q : Nat → Bool) (l : List Nat) : l.filter (fun p => (l.filter q).contains p) = l.filter q :=
  List.filter_congr fun p hp => by
    rw [List.contains_eq_mem, Bool.eq_iff_iff, decide_eq_true_iff, List.mem_filter]
    exact and_iff_right hp

/-- No absent line holds an access back whose lines are present, or where every byte of the load is the group's own (R88). -/
theorem PendingLoad.unhidden {l : PendingLoad} {a : Acc} {absent : List Nat}
    (present : l.space = .tile → (∀ x ∈ l.accs, ∀ p ∈ x.place, l.mine p = true) ∨ ∀ p ∈ a.place, alignDown p 64 ∉ absent) :
    (l.space == .tile && !(l.accs.all (fun x => x.place.all (fun p => l.own.any (fun y => y.1 == p)))) &&
      a.place.any (fun p => absent.contains (alignDown p 64))) = false := by
  cases space : l.space with
  | glob => rfl
  | tile =>
    rcases present space with own | there
    · have every : l.accs.all (fun x => x.place.all (fun p => l.own.any (fun y => y.1 == p))) = true :=
        List.all_eq_true.mpr fun x hx => List.all_eq_true.mpr fun p hp => own x hx p hp
      rw [every]
      rfl
    · rw [List.any_eq_false.mpr fun p hp => by simpa using there p hp, Bool.and_false]

section
variable {l : PendingLoad} {got : List (Nat × List Byte)} (h : Alone s gi (l.op got)) {near whole : Bool} {a : Acc}
include h

/-- A lane without an access is none of the load's. -/
theorem Alone.loadLane_none {lane : Nat} (none : (l.op got).accs.find? (fun a => a.lane == lane) = none) : s.loadLane gi l.id near whole lane = s := by
  have hop := h.op
  unfold State.loadLane
  dsimp only [PendingLoad.op] at hop none ⊢
  rw [hop]
  dsimp only
  rw [none]

/-- A lane whose access nothing holds back returns whole. -/
theorem Alone.loadLane_returns (found : (l.op got).accs.find? (fun x => x.lane == a.lane) = some a) (fresh : ∀ x ∈ got, x.1 ≠ a.lane)
    (all : whole = true ∨ elements a.place = [a.place])
    (present : l.space = .tile → (∀ x ∈ l.accs, ∀ p ∈ x.place, l.mine p = true) ∨ ∀ p ∈ a.place, alignDown p 64 ∉ s.absent)
    (clean : ∀ p ∈ a.place, s.poisoned l.space p = false)
    (taken : l.space = .glob → ∀ p ∈ l.below a, s.cached gi l near a p = true ∨ s.turnsAway (s.grp gi).func p = false) :
    s.loadLane gi l.id near whole a.lane = ((s.returned gi l near a).2.modGrp gi (fun g => g.setOp l.id (fun o =>
        { o with kind := .load l.kind l.mod l.space l.scope l.width l.acq l.accs l.own (got ++ [(a.lane, (s.returned gi l near a).1)]) }))).modGrp gi
          (fun g => (s.newDebt gi l near a).foldl (fun g line => g.addDebt l.space line) g) := by
  have hop := h.op
  have before := h.laneBefore l.space a
  have acquire := h.behindAcquire
  have had : lookupD got a.lane [] = [] := lookupD_absent fresh []
  have others : got.filter (fun p => decide (p.1 ≠ a.lane)) = got := List.filter_eq_self.mpr fun x hx => decide_eq_true (fresh x hx)
  have here := PendingLoad.unhidden present
  have sound : a.place.find? (fun p => s.poisoned l.space p) = none := List.find?_eq_none.mpr fun p hp => by rw [clean p hp]; decide
  have goes : (l.space == .glob && (l.below a).any (fun p => !s.cached gi l near a p && s.turnsAway (s.grp gi).func p)) = false := by
    cases space : l.space with
    | tile => rfl
    | glob =>
      refine Bool.and_eq_false_iff.mpr (.inr (List.any_eq_false.mpr fun p hp => ?_))
      rcases taken space p hp with cached | goes
      · simp [cached]
      · simp [goes]
  have now : (if whole = true then a.place else (elements a.place).headD []) = a.place := by
    rcases all with whole | one
    · rw [if_pos whole]
    · rw [one]
      exact ite_self _
  unfold State.loadLane
  dsimp only [PendingLoad.op] at hop found before acquire ⊢
  rw [hop]
  dsimp only
  rw [found]
  dsimp only
  rw [had]
  simp only [List.length_nil, List.drop_zero, before, acquire, here, sound, now, others, List.nil_append, Bool.or_self, Bool.false_eq_true, if_false,
    filter_contains_filter (fun p => !l.own.any (fun x => x.1 == p)) a.place]
  exact if_neg (Bool.eq_false_iff.mp goes)

end

end Sys2Proof.Machine
end

section
/-! A load's lanes in turn, and its end. -/

namespace Sys2Proof.Machine

variable {s t u : State} {gi : Nat} {l : PendingLoad} {got : List (Nat × List Byte)}

/-! The accesses that have still to return -/

theorem PendingLoad.accs_none {i : Nat} (absent : l.accs.find? (fun a => a.lane == i) = none) (got : List (Nat × List Byte)) :
    (l.op got).accs.find? (fun a => a.lane == i) = none := by
  refine List.find?_eq_none.mpr fun y hy => ?_
  obtain ⟨x, hx, kept⟩ := List.mem_filterMap.mp hy
  dsimp only at kept
  split at kept
  · cases kept
    exact List.find?_eq_none.mp absent x hx
  · exact absurd kept (by simp)

theorem PendingLoad.accs_fresh {a : Acc} (once : (l.accs.map Acc.lane).Nodup) (here : a ∈ l.accs) (some_ : a.place ≠ []) (fresh : ∀ x ∈ got, x.1 ≠ a.lane) :
    (l.op got).accs.find? (fun x => x.lane == a.lane) = some a := by
  have whole : (lookupD got a.lane []).length = 0 := by rw [lookupD_absent fresh]; rfl
  have kept : a ∈ (l.op got).accs := List.mem_filterMap.mpr ⟨a, here, by
    dsimp only
    rw [whole, if_pos (List.length_pos_iff.mpr some_)]
    rfl⟩
  cases found : (l.op got).accs.find? (fun x => x.lane == a.lane) with
  | none => exact absurd (List.find?_eq_none.mp found a kept) (by simp)
  | some y =>
    have lane := List.find?_some found
    obtain ⟨x, hx, part⟩ := List.mem_filterMap.mp (List.mem_of_find?_eq_some found)
    dsimp only at part
    split at part
    · cases part
      obtain rfl : x = a := List.inj_on_of_nodup_map once hx here (by simpa using lane)
      rw [whole]
      rfl
    · exact absurd part (by simp)

/-- With every access whole there is none left. -/
theorem PendingLoad.accs_done (all : ∀ a ∈ l.accs, (lookupD got a.lane []).length = a.place.length) : (l.op got).accs = [] := by
  refine List.filterMap_eq_nil_iff.mpr fun a ha => ?_
  dsimp only
  rw [if_neg (by rw [all a ha]; omega)]

/-! Debt -/

theorem Group.foldl_addDebt (space : Space) (lines : List Nat) (g : Group) :
    (lines.foldl (fun g line => g.addDebt space line) g).bare = g.bare ∧ (lines.foldl (fun g line => g.addDebt space line) g).ops = g.ops ∧
      (∀ x ∈ g.debt, x ∈ (lines.foldl (fun g line => g.addDebt space line) g).debt) ∧
      ∀ line ∈ lines, ⟨space, line⟩ ∈ (lines.foldl (fun g line => g.addDebt space line) g).debt := by
  induction lines generalizing g with
  | nil => exact ⟨rfl, rfl, fun _ h => h, fun _ h => absurd h (by simp)⟩
  | cons line lines ih =>
    obtain ⟨bare, ops, kept, added⟩ := ih (g.addDebt space line)
    have first : (g.addDebt space line).bare = g.bare ∧ (g.addDebt space line).ops = g.ops ∧ (∀ x ∈ g.debt, x ∈ (g.addDebt space line).debt) ∧
        ⟨space, line⟩ ∈ (g.addDebt space line).debt := by
      unfold Group.addDebt
      split
      next known => exact ⟨rfl, rfl, fun _ h => h, List.contains_iff_mem.mp known⟩
      next => exact ⟨rfl, rfl, fun _ h => List.mem_append_left _ h, List.mem_append_right _ (List.mem_singleton_self _)⟩
    obtain ⟨bare', ops', kept', added'⟩ := first
    refine ⟨bare.trans bare', ops.trans ops', fun x hx => kept x (kept' x hx), fun y hy => ?_⟩
    rcases List.mem_cons.mp hy with rfl | inside
    · exact kept _ added'
    · exact added y inside

/-- A lane's return, seen from the group: its operation and its debt. -/
theorem State.lane_returned (v : State) (index : gi < v.groups.length) (ops : (v.grp gi).ops = [l.op got]) (lane : Nat) (bytes : List Byte) (lines : List Nat) :
    let t := (v.modGrp gi (fun g => g.setOp l.id (fun o => { o with
      kind := .load l.kind l.mod l.space l.scope l.width l.acq l.accs l.own (got ++ [(lane, bytes)]) }))).modGrp gi
        (fun g => lines.foldl (fun g line => g.addDebt l.space line) g)
    Reads v t gi ∧ (t.grp gi).ops = [l.op (got ++ [(lane, bytes)])] ∧ ∀ line ∈ lines, ⟨l.space, line⟩ ∈ (t.grp gi).debt := by
  intro t
  have changed : (v.grp gi).setOp l.id (fun o => { o with
      kind := .load l.kind l.mod l.space l.scope l.width l.acq l.accs l.own (got ++ [(lane, bytes)]) }) = { v.grp gi with ops := [l.op (got ++ [(lane, bytes)])] } :=
    Group.setOp_one (o := l.op got) ops _
  have group : t.grp gi = lines.foldl (fun g line => g.addDebt l.space line) { v.grp gi with ops := [l.op (got ++ [(lane, bytes)])] } := by
    rw [State.grp_modGrp_self _ _ (by rw [State.modGrp_length]; exact index), State.grp_modGrp_self _ _ index, changed]
  have first : Reads v (v.modGrp gi (fun g => g.setOp l.id (fun o => { o with
      kind := .load l.kind l.mod l.space l.scope l.width l.acq l.accs l.own (got ++ [(lane, bytes)]) }))) gi :=
    v.modGrp_reads gi (fun _ => rfl) fun _ _ h => h
  refine ⟨first.trans (State.modGrp_reads _ gi (fun g => (Group.foldl_addDebt l.space lines g).1) fun g => (Group.foldl_addDebt l.space lines g).2.2.1), ?_, ?_⟩
  · rw [group]
    exact (Group.foldl_addDebt ..).2.1
  · rw [group]
    exact (Group.foldl_addDebt ..).2.2.2

/-! The load's end -/

/-- A load whose every access has returned lands and ends. -/
def State.closeLoad (s : State) (gi : Nat) (l : PendingLoad) (got : List (Nat × List Byte)) : State :=
  let s1 := (s.landLoad gi l.dest l.span got).endOp gi l.id
  if l.acq then s1.acquire gi l.scope else s1

theorem Alone.endLoad (h : Alone s gi (l.op got)) (done : (l.op got).accs = []) : s.endLoad gi l.id = s.closeLoad gi l got := by
  have hop := h.op
  have landed := h.landed (l.op got)
  unfold State.endLoad
  dsimp only [PendingLoad.op] at hop done landed ⊢
  rw [hop]
  dsimp only
  rw [done, landed]
  rfl

theorem Alone.endLoad_waits (h : Alone s gi (l.op got)) (left : (l.op got).accs ≠ []) : s.endLoad gi l.id = s := by
  have hop := h.op
  have more : (l.op got).accs.isEmpty = false := by rwa [← Bool.not_eq_true, List.isEmpty_iff]
  unfold State.endLoad
  dsimp only [PendingLoad.op] at hop more ⊢
  rw [hop]
  dsimp only
  rw [more]
  rfl

theorem maskOf_getLsbD (ls : List Nat) {i : Nat} (h : i < 64) : (maskOf ls).getLsbD i = ls.contains i := by
  rw [maskOf, laneMask_getLsbD _ _ h]

/-- What a load leaves that lands: the bytes that have returned in its registers, and nothing else of memory or registers changed. -/
theorem Alone.closeLoad (h : Alone u gi (l.op got)) (reads : Reads s u gi) (inside : l.dest.toNat + l.span ≤ min 192 (s.grp gi).v.length)
    {vals : List (Nat × List Byte)} (same : ∀ i < 64, got.find? (fun x => x.1 == i) = vals.find? (fun x => x.1 == i)) :
    LoadLands s (u.closeLoad gi l got) gi l.dest l.span vals ∧ ((u.closeLoad gi l got).grp gi).debt = (u.grp gi).debt ∧
      (l.acq = false → (u.closeLoad gi l got).cores = u.cores) := by
  let val := fun i r => loadedWord (lookupD got i []) r
  have room : l.dest.toNat + l.span ≤ min 192 (u.grp gi).v.length := by rw [reads.v]; exact inside
  have regs := (u.grp gi).vreg_landSpan l.dest (maskOf (got.map Prod.fst)) val room
  obtain ⟨bare, ops, debt, -⟩ := Group.landSpan_others l.dest (maskOf (got.map Prod.fst)) val (List.range l.span) (u.grp gi)
  let w := u.modGrp gi (fun g => g.landSpan l.dest (maskOf (got.map Prod.fst)) val (List.range l.span))
  have landed : u.landLoad gi l.dest l.span got = w := State.landLoad_eq h.index h.settled ..
  have group : w.grp gi = (u.grp gi).landSpan l.dest (maskOf (got.map Prod.fst)) val (List.range l.span) := State.grp_modGrp_self _ _ h.index
  have after : Alone w gi (l.op got) := by
    refine h.modGrp (ops.trans h.one) ?_ ?_
    · exact (congrArg Group.st bare :)
    · exact (congrArg Group.pendw bare :)
  obtain ⟨eops, ev, es, ef, ed, ememory, -⟩ := after.endOp_others
  have wv : (w.grp gi).s = (s.grp gi).s ∧ (w.grp gi).flags = (s.grp gi).flags := by
    rw [group]
    exact ⟨(congrArg Group.s bare :).trans (reads.sregs gi), (congrArg Group.flags bare :).trans (reads.flags gi)⟩
  have vreg : ∀ x : State, (x.grp gi).v = (w.grp gi).v → ∀ n, (x.grp gi).vreg n = (w.grp gi).vreg n := fun x e n => by
    rw [Group.vreg, Group.vreg, e]
  have lands : ∀ x : State, (x.grp gi).ops = [] → MemoryKept s x → (x.grp gi).s = (w.grp gi).s → (x.grp gi).flags = (w.grp gi).flags →
      (x.grp gi).v = (w.grp gi).v → LoadLands s x gi l.dest l.span vals := by
    intro x xops xmem xs xf xv
    have old : ∀ n, (u.grp gi).vreg n = (s.grp gi).vreg n := fun n => by rw [Group.vreg, Group.vreg, reads.v]
    refine ⟨xops, xmem, xs.trans wv.1, xf.trans wv.2, fun r hr i hi => ?_, fun r hr => ?_, fun n hn => ?_⟩
    · rw [vreg x xv, group, regs, if_pos (by omega), lane_putLanes _ _ _ _ hi, maskOf_getLsbD _ hi, getD_range_map, if_pos hi, Nat.add_sub_cancel_left,
        old, ← same i hi]
      cases found : got.find? (fun x => x.1 == i) with
      | none =>
        have out : (got.map Prod.fst).contains i = false := by
          rw [← Bool.not_eq_true, List.contains_iff_mem]
          rintro member
          obtain ⟨y, hy, e⟩ := List.mem_map.mp member
          exact absurd (List.find?_eq_none.mp found y hy) (by simp [e])
        rw [out]
        rfl
      | some y =>
        have member : (got.map Prod.fst).contains i = true :=
          List.contains_iff_mem.mpr (List.mem_map.mpr ⟨y, List.mem_of_find?_eq_some found, by simpa using List.find?_some found⟩)
        rw [member, if_pos rfl]
        show loadedWord (lookupD got i []) r = _
        rw [lookupD_eq_find, found]
        rfl
    · rw [vreg x xv, group, regs, if_pos (by omega)]
    · rw [vreg x xv, group, regs, if_neg (by omega), old]
  have memory : MemoryKept s (w.endOp gi l.id) := by
    obtain ⟨m, tl, ob⟩ := reads.memory
    exact ⟨ememory.1.trans m, ememory.2.1.trans tl, ememory.2.2.trans ob⟩
  have owed : ((w.endOp gi l.id).grp gi).debt = (u.grp gi).debt := by
    refine Eq.trans ed ?_
    rw [group]
    exact debt
  have closed : u.closeLoad gi l got = if l.acq then (w.endOp gi l.id).acquire gi l.scope else w.endOp gi l.id := by
    rw [← landed]
    rfl
  rw [closed]
  cases l.acq with
  | false => exact ⟨lands _ eops memory es ef ev, owed, fun _ => rfl⟩
  | true =>
    have steady := (Steady.refl (w.endOp gi l.id)).acquire (gi := gi) (scope := l.scope)
    obtain ⟨m, tl, ob⟩ := (w.endOp gi l.id).acquire_memory gi l.scope
    refine ⟨lands _ ((steady.ops gi).trans eops) ⟨m.trans memory.1, tl.trans memory.2.1, ob.trans memory.2.2⟩ ((steady.sregs gi).trans es)
      ((steady.flags gi).trans ef) ((steady.v gi).trans ev), (steady.debt gi).trans owed, fun k => absurd k (by decide)⟩

/-! The lanes of a load that the near cache does not serve -/

/-- What has returned once some lanes have been visited, f giving a place's byte. -/
def PendingLoad.returns (l : PendingLoad) (f : Nat → Byte) (lanes : List Nat) : List (Nat × List Byte) :=
  lanes.filterMap (fun i => (l.accs.find? (fun a => a.lane == i)).map (fun a => (a.lane, a.place.map f)))

/-- The byte of a place below the group's own, by the load's kind: LDP sees device-visible memory alone. -/
def State.underByte (s : State) (gi : Nat) (l : PendingLoad) (p : Nat) : Byte :=
  if l.kind = 0 then s.seenByte (s.grp gi).func p else s.lowByte gi l.space p

/-- A load some of whose lanes have been visited. -/
structure Returning (s u : State) (gi : Nat) (l : PendingLoad) (done : List Nat) : Prop where
  reads : Reads s u gi
  ops : (u.grp gi).ops = [l.op (l.returns (ownOver l.own (s.underByte gi l)) done)]
  owed : ∀ a ∈ l.accs, a.lane ∈ done → ∀ p ∈ a.place, l.mine p = false → remoteLine (s.grp gi).pkg l.space p = true →
    ⟨l.space, lineOf l.space p⟩ ∈ (u.grp gi).debt

theorem PendingLoad.returns_keys {f : Nat → Byte} {lanes : List Nat} {x : Nat × List Byte} (h : x ∈ l.returns f lanes) : x.1 ∈ lanes := by
  obtain ⟨i, hi, found⟩ := List.mem_filterMap.mp h
  obtain ⟨a, ha, rfl⟩ := Option.map_eq_some_iff.mp found
  have lane : a.lane = i := by simpa using List.find?_some ha
  rw [lane]
  exact hi

end Sys2Proof.Machine
end

section
/-! A load's lanes one after another, where the near cache serves none of them. -/

namespace Sys2Proof.Machine

variable {s u : State} {gi : Nat} {l : PendingLoad} {near whole : Bool}

/-- A load that nothing holds back: its lines are present, sound and taken, and the layers below are all that gives its bytes. -/
structure Returnable (s : State) (gi : Nat) (l : PendingLoad) (near : Bool) : Prop where
  alone : Alone s gi (l.op [])
  unserved : l.kind = 2 → near = true → 2 < l.scope
  once : (l.accs.map Acc.lane).Nodup
  filled : ∀ a ∈ l.accs, a.place ≠ []
  clean : ∀ a ∈ l.accs, ∀ p ∈ a.place, s.poisoned l.space p = false
  present : l.space = .tile → (∀ x ∈ l.accs, ∀ p ∈ x.place, l.mine p = true) ∨ ∀ x ∈ l.accs, ∀ p ∈ x.place, alignDown p 64 ∉ s.absent
  taken : l.space = .glob → ∀ a ∈ l.accs, ∀ p ∈ a.place, l.mine p = false → s.turnsAway (s.grp gi).func p = false ∧ s.otherPriv gi p = none

/-! What a lane's return does to the groups: nothing, before it is written down -/

theorem State.loadElem_groups (s : State) (gi : Nat) (space : Space) (ps : List Nat) (near : Bool) : (s.loadElem gi space ps near).2.groups = s.groups := by
  have marked : ∀ (u : State) bs, (if space = .glob then u.outdate [gi] bs else u).groups = u.groups := fun u bs => by
    split <;> rfl
  have drawn : (if space == .glob && ps.any (fun p => (s.otherPriv gi p).isSome) then s.draw else (false, s)).2.groups = s.groups := by
    split <;> rfl
  exact (marked _ _).trans drawn

theorem State.laneBytes_groups (s : State) (gi : Nat) (space : Space) (own : List (Nat × Byte)) (near : Bool) (place : List Nat) :
    (s.laneBytes gi space own near place).2.groups = s.groups :=
  List.foldlRecOn (motive := fun r : List Byte × State => r.2.groups = s.groups) (elements place) _ rfl fun _ kept _ _ =>
    (State.loadElem_groups ..).trans kept

theorem State.filled_groups (s : State) (gi : Nat) (l : PendingLoad) (near : Bool) (a : Acc) : (s.filled gi l near a).groups = s.groups := by
  unfold State.filled
  split
  · refine List.foldlRecOn (motive := fun u : State => u.groups = s.groups) (l.below a) _ rfl fun u kept p _ => ?_
    split
    · exact kept
    · exact kept
  · rfl

theorem State.returned_groups (s : State) (gi : Nat) (l : PendingLoad) (near : Bool) (a : Acc) : (s.returned gi l near a).2.groups = s.groups := by
  unfold State.returned
  split
  · exact s.filled_groups gi l near a
  · exact (State.laneBytes_groups ..).trans (s.filled_groups gi l near a)

theorem State.returned_ops (s : State) (gi : Nat) (l : PendingLoad) (near : Bool) (a : Acc) : ((s.returned gi l near a).2.grp gi).ops = (s.grp gi).ops := by
  unfold State.grp
  rw [State.returned_groups]

theorem PendingLoad.serves_of_unserved (h : l.kind = 2 → near = true → 2 < l.scope) (a : Acc) : l.serves near a = false := by
  cases served : l.serves near a with
  | false => rfl
  | true =>
    simp only [PendingLoad.serves, Bool.and_eq_true, beq_iff_eq, decide_eq_true_eq] at served
    obtain ⟨⟨⟨⟨fromNear, plain⟩, scope⟩, -⟩, -⟩ := served
    exact absurd (h plain fromNear) (by omega)

section
variable {a : Acc} (unserved : l.serves near a = false)
include unserved

theorem State.filled_unserved (s : State) (gi : Nat) : s.filled gi l near a = s := by
  unfold State.filled
  rw [unserved]
  rfl

theorem State.newDebt_unserved (s : State) (gi : Nat) :
    s.newDebt gi l near a = dedupN (((l.below a).filter (fun p => remoteLine (s.grp gi).pkg l.space p)).map (lineOf l.space)) := by
  unfold State.newDebt State.nearHit
  rw [unserved]
  rfl

/-- An access's bytes are the group's own over those below, and only near caches change. -/
theorem State.returned_unserved (s : State) (gi : Nat) (unseen : l.space = .glob → ∀ p ∈ a.place, l.mine p = false → s.otherPriv gi p = none) :
    (s.returned gi l near a).1 = a.place.map (ownOver l.own (s.underByte gi l)) ∧ Reads s (s.returned gi l near a).2 gi := by
  unfold State.returned State.underByte
  rw [State.filled_unserved unserved, unserved]
  by_cases lane : l.kind = 0
  · simp only [if_pos lane]
    exact ⟨rfl, s.outdate_reads ..⟩
  · simp only [if_neg lane]
    exact s.laneBytes_low gi l.space l.own a.place unseen

end

theorem Reads.underByte (h : Reads s u gi) : u.underByte gi l = s.underByte gi l := by
  funext p
  unfold State.underByte
  rw [h.func, h.seenByte, h.lowByte]

theorem PendingLoad.returns_append (f : Nat → Byte) (done : List Nat) (lane : Nat) : l.returns f (done ++ [lane]) = l.returns f done ++
    match l.accs.find? (fun a => a.lane == lane) with
    | some a => [(a.lane, a.place.map f)]
    | none => [] := by
  rw [PendingLoad.returns, List.filterMap_append]
  cases found : l.accs.find? (fun a => a.lane == lane) <;> simp [PendingLoad.returns, found]

/-- A lane that has not been visited. -/
theorem Returning.step {done : List Nat} {lane : Nat} (h : Returning s u gi l done) (ready : Returnable s gi l near) (fresh : lane ∉ done)
    (all : ∀ a ∈ l.accs, a.lane = lane → whole = true ∨ elements a.place = [a.place]) :
    Returning s (u.loadLane gi l.id near whole lane) gi l (done ++ [lane]) := by
  have alone : Alone u gi (l.op (l.returns (ownOver l.own (s.underByte gi l)) done)) := h.reads.alone ready.alone h.ops
  have more := l.returns_append (ownOver l.own (s.underByte gi l)) done lane
  cases found : l.accs.find? (fun a => a.lane == lane) with
  | none =>
    rw [alone.loadLane_none (PendingLoad.accs_none found _)]
    rw [found] at more
    refine ⟨h.reads, by rw [more, List.append_nil]; exact h.ops, fun a ha hd => ?_⟩
    rcases List.mem_append.mp hd with before | here
    · exact h.owed a ha before
    · exact absurd (List.find?_eq_none.mp found a ha) (by simpa using here)
  | some a =>
    have ha := List.mem_of_find?_eq_some found
    obtain rfl : a.lane = lane := by simpa using List.find?_some found
    rw [found] at more
    have unvisited : ∀ x ∈ l.returns (ownOver l.own (s.underByte gi l)) done, x.1 ≠ a.lane := fun x hx e => fresh (e ▸ PendingLoad.returns_keys hx)
    have unserved := PendingLoad.serves_of_unserved (near := near) ready.unserved a
    rw [alone.loadLane_returns (PendingLoad.accs_fresh ready.once ha (ready.filled a ha) unvisited) unvisited (all a ha rfl)
      (fun tile => (ready.present tile).imp_right fun there => by rw [h.reads.absent]; exact there a ha)
      (fun p hp => (h.reads.poisoned ..).trans (ready.clean a ha p hp))
      (fun glob p hp => .inr (by
        obtain ⟨inside, foreign⟩ := List.mem_filter.mp hp
        rw [h.reads.func, h.reads.turnsAway]
        exact (ready.taken glob a ha p inside (by simpa using foreign)).1))]
    obtain ⟨bytes, reads⟩ := u.returned_unserved unserved gi fun glob p hp foreign =>
      (h.reads.otherPriv p).trans (ready.taken glob a ha p hp foreign).2
    obtain ⟨onward, ops, debts⟩ := State.lane_returned (l := l) (u.returned gi l near a).2 (by rw [reads.length]; exact alone.index)
      ((u.returned_ops gi l near a).trans h.ops) a.lane (u.returned gi l near a).1 (u.newDebt gi l near a)
    rw [h.reads.underByte] at bytes
    have all := (h.reads.trans reads).trans onward
    refine ⟨all, ?_, fun x hx visited p hp foreign far => ?_⟩
    · rw [ops, more, bytes]
    · rcases List.mem_append.mp visited with before | here
      · exact (reads.trans onward).owes _ (h.owed x hx before p hp foreign far)
      · obtain rfl : x = a := List.inj_on_of_nodup_map ready.once hx ha (List.mem_singleton.mp here)
        refine debts _ ?_
        rw [State.newDebt_unserved unserved, h.reads.pkg, mem_dedupN]
        exact List.mem_map_of_mem (List.mem_filter.mpr ⟨List.mem_filter.mpr ⟨hp, by rw [foreign]; rfl⟩, far⟩)

theorem Returning.start (ready : Returnable s gi l near) : Returning s s gi l [] :=
  ⟨.refl s gi, ready.alone.one, fun _ _ h => absurd h (by simp)⟩

theorem Returning.lanes {done : List Nat} (h : Returning s u gi l done) (ready : Returnable s gi l near) (lanes : List Nat)
    (fresh : (done ++ lanes).Nodup) (all : ∀ a ∈ l.accs, whole = true ∨ elements a.place = [a.place]) :
    Returning s (lanes.foldl (fun u i => u.loadLane gi l.id near whole i) u) gi l (done ++ lanes) := by
  induction lanes generalizing u done with
  | nil => rwa [List.append_nil]
  | cons lane lanes ih =>
    have split : done ++ lane :: lanes = done ++ [lane] ++ lanes := by rw [List.append_assoc]; rfl
    have unvisited : lane ∉ done := fun inside => List.disjoint_of_nodup_append fresh inside (List.mem_cons_self ..)
    rw [split] at fresh ⊢
    exact ih (h.step ready unvisited fun a ha _ => all a ha) fresh

/-- What has returned for a lane once it has been visited, or where it has no access. -/
theorem PendingLoad.find_returns (f : Nat → Byte) {lanes : List Nat} {i : Nat} (h : i ∈ lanes ∨ l.accs.find? (fun a => a.lane == i) = none) :
    (l.returns f lanes).find? (fun x => x.1 == i) = (l.accs.map (fun a => (a.lane, a.place.map f))).find? (fun x => x.1 == i) := by
  have every : (l.accs.map (fun a => (a.lane, a.place.map f))).find? (fun x => x.1 == i) =
      (l.accs.find? (fun a => a.lane == i)).map (fun a => (a.lane, a.place.map f)) := List.find?_map ..
  rw [every]
  induction lanes with
  | nil =>
    rw [h.resolve_left (by simp)]
    rfl
  | cons j lanes ih =>
    unfold PendingLoad.returns at ih ⊢
    rw [List.filterMap_cons]
    cases found : l.accs.find? (fun a => a.lane == j) with
    | none =>
      rw [Option.map_none]
      refine ih (h.elim (fun inside => ?_) .inr)
      rcases List.mem_cons.mp inside with rfl | later
      · exact .inr found
      · exact .inl later
    | some a =>
      have lane : a.lane = j := by simpa using List.find?_some found
      rw [Option.map_some]
      dsimp only
      by_cases here : j = i
      · rw [List.find?_cons_of_pos (by simpa [lane] using here), ← here, found]
        rfl
      · rw [List.find?_cons_of_neg (by simpa [lane] using here)]
        exact ih (h.imp_left fun inside => (List.mem_cons.mp inside).resolve_left fun e => here e.symm)

theorem find_lane {accs : List Acc} {a : Acc} (once : (accs.map Acc.lane).Nodup) (ha : a ∈ accs) : accs.find? (fun x => x.lane == a.lane) = some a := by
  cases found : accs.find? (fun x => x.lane == a.lane) with
  | none => exact absurd (List.find?_eq_none.mp found a ha) (by simp)
  | some x =>
    have lane := List.find?_some found
    exact congrArg some (List.inj_on_of_nodup_map once (List.mem_of_find?_eq_some found) ha (by simpa using lane))

/-- A load that nothing holds back, of whatever lanes: it lands, each byte the group's own or that of the layers below, and its lines from elsewhere are
owed. -/
theorem Returnable.runLoad {mask : BitVec 64} (ready : Returnable s gi l near) (inside : l.dest.toNat + l.span ≤ min 192 (s.grp gi).v.length)
    (named : ∀ a ∈ l.accs, a.lane ∈ lanesOf mask) (all : ∀ a ∈ l.accs, (mask == BitVec.allOnes 64) = true ∨ elements a.place = [a.place]) :
    let t := s.runLoad gi l.id mask near
    LoadLands s t gi l.dest l.span (l.accs.map (fun a => (a.lane, a.place.map (ownOver l.own (s.underByte gi l))))) ∧
      (∀ x ∈ (s.grp gi).debt, x ∈ (t.grp gi).debt) ∧ ∀ a ∈ l.accs, ∀ p ∈ a.place, l.mine p = false → remoteLine (s.grp gi).pkg l.space p = true →
        ⟨l.space, lineOf l.space p⟩ ∈ (t.grp gi).debt := by
  have once : (lanesOf mask).Nodup := List.Nodup.filter _ List.nodup_range
  have visited := (Returning.start ready).lanes ready (lanesOf mask) once all
  rw [List.nil_append] at visited
  obtain ⟨reads, ops, owed⟩ := visited
  have alone := reads.alone ready.alone ops
  have found : ∀ i, (l.returns (ownOver l.own (s.underByte gi l)) (lanesOf mask)).find? (fun x => x.1 == i) =
      (l.accs.map (fun a => (a.lane, a.place.map (ownOver l.own (s.underByte gi l))))).find? (fun x => x.1 == i) := fun i => by
    refine PendingLoad.find_returns _ ?_
    cases access : l.accs.find? (fun a => a.lane == i) with
    | none => exact .inr rfl
    | some a =>
      have lane : a.lane = i := by simpa using List.find?_some access
      exact .inl (lane ▸ named a (List.mem_of_find?_eq_some access))
  have done : (l.op (l.returns (ownOver l.own (s.underByte gi l)) (lanesOf mask))).accs = [] := by
    refine PendingLoad.accs_done fun a ha => ?_
    have returned : (l.accs.map (fun a => (a.lane, a.place.map (ownOver l.own (s.underByte gi l))))).find? (fun x => x.1 == a.lane) =
        some (a.lane, a.place.map (ownOver l.own (s.underByte gi l))) := by
      rw [List.find?_map]
      exact congrArg (Option.map _) (find_lane ready.once ha)
    rw [lookupD_eq_find, found, returned]
    exact List.length_map ..
  obtain ⟨lands, debt, -⟩ := alone.closeLoad reads inside fun i _ => found i
  unfold State.runLoad
  rw [alone.endLoad done]
  refine ⟨lands, fun x hx => ?_, fun a ha p hp foreign far => ?_⟩
  · rw [debt]
    exact reads.owes x hx
  · rw [debt]
    exact owed a ha (named a ha) p hp foreign far

end Sys2Proof.Machine
end

section
/-! Lines of a near cache, and a load of one access. -/

namespace Sys2Proof.Machine

variable {s u : State} {gi : Nat} {l : PendingLoad} {near whole : Bool} {a : Acc}

/-! The line that has been filled -/

theorem find_lastN_snoc {α : Type} {q : α → Bool} {xs : List α} {x : α} {n : Nat} (room : 0 < n) (others : ∀ y ∈ xs, q y = false) (here : q x = true) :
    (lastN n (xs ++ [x])).find? q = some x := by
  have dropped : lastN n (xs ++ [x]) = xs.drop (xs.length + 1 - n) ++ [x] := by
    rw [lastN, List.length_append, List.length_singleton, List.drop_append_of_le_length (by omega)]
  rw [dropped, List.find?_append, List.find?_eq_none.mpr fun y hy => by rw [others y (List.mem_of_mem_drop hy)]; decide,
    List.find?_cons_of_pos here]
  rfl

/-- A place's line, filled, is what its device-visible bytes are. -/
theorem State.nearLine_fillNear (s : State) (pkg func pa : Nat) {p : Nat} (line : alignDown p 128 = alignDown pa 128) :
    ((s.fillNear pkg func pa).core pkg).nearLine func p = some ⟨func, alignDown pa 128, s.seenRead func .glob (alignDown pa 128) 128, []⟩ := by
  unfold State.fillNear
  dsimp only
  rw [State.core_modCore, if_pos rfl, Core.nearLine, line]
  dsimp only
  refine find_lastN_snoc (Nat.succ_pos _) (fun y hy => ?_) ?_
  · exact (Bool.not_eq_true' _).mp (List.mem_filter.mp hy).2
  · simp

/-- What has been read marks the bytes of near caches alone. -/
theorem State.nearLine_outdate (s : State) (who : List Nat) (bs : List (Nat × Byte)) (pkg func p : Nat) :
    ((s.outdate who bs).core pkg).nearLine func p = ((s.core pkg).nearLine func p).map (fun x => x.outdate who bs) := by
  have marked : ((s.outdate who bs).core pkg).near = (s.core pkg).near.map (fun x => x.outdate who bs) := by
    unfold State.core State.outdate State.mapNear
    induction s.cores with
    | nil => rfl
    | cons c cs ih =>
      simp only [List.map_cons, lookupD]
      split
      · rfl
      · exact ih
  rw [Core.nearLine, marked, List.find?_map]
  rfl

/-- A line that agrees with what has been read is not marked. -/
theorem NearLine.outdate_same {x : NearLine} {who : List Nat} {bs : List (Nat × Byte)} (same : ∀ b ∈ bs, x.data.getD (b.1 - x.line) 0 = b.2) :
    x.outdate who bs = x := by
  have differ : bs.filter (fun b => alignDown b.1 128 == x.line && x.data.getD (b.1 - x.line) 0 != b.2) = [] :=
    List.filter_eq_nil_iff.mpr fun b hb => by rw [same b hb]; simp
  unfold NearLine.outdate
  dsimp only
  rw [differ]
  simp

/-- A byte of a device-visible line. -/
theorem State.seenRead_getD (s : State) (func : Nat) {p line : Nat} (inside : alignDown p 128 = line) :
    (s.seenRead func .glob line 128).getD (p - line) 0 = s.seenByte func p := by
  have low : line ≤ p := by rw [← inside]; exact Nat.sub_le ..
  have high : p - line < 128 := by
    have := alignDown_add_mod p 128
    have := Nat.mod_lt p (show 0 < 128 by decide)
    omega
  rw [State.seenRead, getD_range_map, if_pos high, Nat.add_sub_cancel' low]

theorem Core.nearByte_of_line {c : Core} {func p : Nat} {x : NearLine} (line : c.nearLine func p = some x) (fresh : (gi, p) ∉ x.old) :
    c.nearByte gi func p = some (x.data.getD (p - x.line) 0) := by
  unfold Core.nearByte
  rw [line]
  exact if_neg (by simpa using fresh)

/-! A load of one access -/

theorem foldl_one {α β : Type} {f : β → α → β} {b : β} {lanes : List α} {i : α} (once : lanes.Nodup) (inside : i ∈ lanes)
    (before : ∀ j, j ≠ i → f b j = b) (after : ∀ j, j ≠ i → f (f b i) j = f b i) : lanes.foldl f b = f b i := by
  obtain ⟨xs, ys, rfl⟩ := List.append_of_mem inside
  obtain ⟨-, late, apart⟩ := List.nodup_append.mp once
  have first : xs.foldl f b = b := List.foldlRecOn (motive := fun c => c = b) xs f rfl fun c hc j hj => by
    rw [hc]
    exact before j (apart j hj i (List.mem_cons_self ..))
  rw [List.foldl_append, first, List.foldl_cons]
  refine List.foldlRecOn (motive := fun c => c = f b i) ys f rfl fun c hc j hj => ?_
  rw [hc]
  refine after j fun e => ?_
  exact (List.nodup_cons.mp late).1 (e ▸ hj)

theorem lanesOf_all {i : Nat} (h : i < 64) : i ∈ lanesOf (BitVec.allOnes 64) :=
  List.mem_filter.mpr ⟨List.mem_range.mpr h, by rw [BitVec.getLsbD_allOnes]; exact decide_eq_true h⟩

theorem lanesOf_nodup (m : BitVec 64) : (lanesOf m).Nodup := List.Nodup.filter _ List.nodup_range

/-- Where every lane is named, its one lane decides, where what it leaves no other lane changes. -/
theorem Alone.runLoad_one (alone : Alone s gi (l.op [])) (one : l.accs = [a]) (lane : a.lane < 64)
    (after : ∀ j, j ≠ a.lane → (s.loadLane gi l.id near true a.lane).loadLane gi l.id near true j = s.loadLane gi l.id near true a.lane) :
    s.runLoad gi l.id (BitVec.allOnes 64) near = (s.loadLane gi l.id near true a.lane).endLoad gi l.id := by
  unfold State.runLoad
  rw [foldl_one (lanesOf_nodup _) (lanesOf_all lane) (fun j hj => ?_) after]
  · rfl
  · refine alone.loadLane_none (PendingLoad.accs_none ?_ [])
    rw [one, List.find?_cons_of_neg (by simpa using hj.symm)]
    rfl

/-- An access that returns whole ends its load. -/
theorem Alone.runLoad_returns (alone : Alone s gi (l.op [])) (one : l.accs = [a]) (lane : a.lane < 64) (filled : a.place ≠ []) (plain : l.acq = false)
    (inside : l.dest.toNat + l.span ≤ min 192 (s.grp gi).v.length)
    (present : l.space = .tile → (∀ x ∈ l.accs, ∀ p ∈ x.place, l.mine p = true) ∨ ∀ p ∈ a.place, alignDown p 64 ∉ s.absent)
    (clean : ∀ p ∈ a.place, s.poisoned l.space p = false)
    (taken : l.space = .glob → ∀ p ∈ l.below a, s.cached gi l near a p = true ∨ s.turnsAway (s.grp gi).func p = false)
    (whole : (s.returned gi l near a).1.length = a.place.length) (reads : Reads s (s.returned gi l near a).2 gi) :
    let t := s.runLoad gi l.id (BitVec.allOnes 64) near
    LoadLands s t gi l.dest l.span [(a.lane, (s.returned gi l near a).1)] ∧ t.cores = (s.returned gi l near a).2.cores := by
  intro t
  have first : (l.op []).accs.find? (fun x => x.lane == a.lane) = some a :=
    PendingLoad.accs_fresh (by rw [one]; simp) (by rw [one]; simp) filled (by simp)
  obtain ⟨onward, ops, -⟩ := State.lane_returned (l := l) (got := []) (s.returned gi l near a).2 (by rw [reads.length]; exact alone.index)
    ((s.returned_ops gi l near a).trans alone.one) a.lane (s.returned gi l near a).1 (s.newDebt gi l near a)
  have step := alone.loadLane_returns (near := near) (whole := true) first (by simp) (.inl rfl) present clean taken
  have later := (reads.trans onward).alone alone ops
  have done : (l.op [(a.lane, (s.returned gi l near a).1)]).accs = [] := PendingLoad.accs_done fun x hx => by
    obtain rfl : x = a := by simpa [one] using hx
    rw [lookupD, if_pos rfl, whole]
  have run : t = _ := alone.runLoad_one one lane fun j hj => by
    rw [step]
    exact later.loadLane_none (PendingLoad.accs_none (by rw [one, List.find?_cons_of_neg (by simpa using hj.symm)]; rfl) _)
  rw [step] at run
  rw [List.nil_append] at later run
  rw [later.endLoad done] at run
  obtain ⟨lands, -, cores⟩ := later.closeLoad (reads.trans onward) inside fun i _ => rfl
  rw [run]
  exact ⟨lands, cores plain⟩

end Sys2Proof.Machine
end

section
/-! A plain LDG that the near cache serves (R92), and a load that an absent or a poisoned line holds back (R88, R89). -/

namespace Sys2Proof.Machine

variable {s u : State} {gi : Nat} {o : Op} {l : PendingLoad} {near : Bool} {a : Acc}

/-! The near cache serves an element -/

/-- An element whose every byte the near cache serves, b giving them: what is read marks no line that agrees with them. -/
theorem State.loadElem_near (s : State) (gi : Nat) {ps : List Nat} {b : Nat → Byte} (unseen : ∀ p ∈ ps, s.otherPriv gi p = none)
    (serves : ∀ p ∈ ps, (s.core (s.grp gi).pkg).nearByte gi (s.grp gi).func p = some (b p)) :
    (s.loadElem gi .glob ps true).1 = ps.map (fun p => (s.midByte (s.grp gi) .glob p).getD (b p)) ∧
      ∃ bs : List (Nat × Byte), (∀ x ∈ bs, x.1 ∈ ps ∧ x.2 = b x.1) ∧ (s.loadElem gi .glob ps true).2.cores = (s.outdate [gi] bs).cores := by
  obtain ⟨f, bytes, -⟩ := s.loadElem_eq gi .glob ps true
  have given : (s.loadElem gi .glob ps true).1 = ps.map (fun p => (s.midByte (s.grp gi) .glob p).getD (b p)) :=
    bytes.trans (List.map_congr_left fun p hp => State.elemByte_near (unseen p hp) (serves p hp) f)
  refine ⟨given, (ps.zip (s.loadElem gi .glob ps true).1).filter (fun x => (s.midByte (s.grp gi) .glob x.1).isNone && (s.otherPriv gi x.1).isNone),
    fun x hx => ?_, ?_⟩
  · obtain ⟨member, low⟩ := List.mem_filter.mp hx
    rw [given, ← List.map_prod_left_eq_zip] at member
    obtain ⟨p, hp, rfl⟩ := List.mem_map.mp member
    obtain ⟨mid, -⟩ := Bool.and_eq_true_iff.mp low
    refine ⟨hp, ?_⟩
    dsimp only at mid ⊢
    rw [Option.isNone_iff_eq_none.mp mid]
    rfl
  · have quiet : (if Space.glob == .glob && ps.any (fun p => (s.otherPriv gi p).isSome) then s.draw else (false, s)).2.cores = s.cores := by
      split <;> rfl
    exact congrArg (List.map _) quiet

/-- A lane of one element. -/
theorem State.laneBytes_near (s : State) (gi : Nat) (own : List (Nat × Byte)) {place : List Nat} {b : Nat → Byte} (short : elements place = [place])
    (unseen : ∀ p ∈ place, s.otherPriv gi p = none)
    (serves : ∀ p ∈ place, (s.core (s.grp gi).pkg).nearByte gi (s.grp gi).func p = some (b p)) :
    (s.laneBytes gi .glob own true place).1 = place.map (ownOver own (fun p => (s.midByte (s.grp gi) .glob p).getD (b p))) ∧
      (s.laneBytes gi .glob own true place).2 = (s.loadElem gi .glob place true).2 := by
  unfold State.laneBytes
  rw [short]
  refine ⟨?_, rfl⟩
  have bytes := (s.loadElem_near gi unseen serves).1
  rw [List.foldl_cons, List.foldl_nil]
  dsimp only
  rw [List.nil_append, bytes]
  exact zip_own ..

/-! A plain LDG within the cluster (R92) -/

/-- A load that the near cache may serve: a plain one of cluster scope or below, of one element of a line that is no fabric endpoint's. -/
structure NearLoad (s : State) (gi : Nat) (l : PendingLoad) (a : Acc) (line : Nat) : Prop where
  alone : Alone s gi (l.op [])
  one : l.accs = [a]
  kind : l.kind = 2
  space : l.space = .glob
  scope : l.scope ≤ 2
  plain : l.acq = false
  inside : l.dest.toNat + l.span ≤ min 192 (s.grp gi).v.length
  lane : a.lane < 64
  filled : a.place ≠ []
  short : a.place.length ≤ 8
  lined : ∀ p ∈ a.place, alignDown p 128 = line
  local_ : ∀ p ∈ a.place, regionOf p ≠ 3
  clean : ∀ p ∈ a.place, s.poisoned .glob p = false
  unseen : ∀ p ∈ a.place, s.otherPriv gi p = none

section
variable {line : Nat} (h : NearLoad s gi l a line)
include h

theorem NearLoad.serves : l.serves true a = true := by
  have fabric : (l.below a).any (fun p => regionOf p == 3) = false := List.any_eq_false.mpr fun p hp => by
    simpa using h.local_ p (List.mem_filter.mp hp).1
  rw [PendingLoad.serves, fabric, h.kind, h.plain, decide_eq_true h.scope]
  rfl

/-- Once its line is there the near cache gives its bytes, and marks nothing that agrees with them. -/
theorem NearLoad.returned {b : Nat → Byte} (reads : Reads s (s.filled gi l true a) gi)
    (given : ∀ p ∈ a.place, ((s.filled gi l true a).core (s.grp gi).pkg).nearByte gi (s.grp gi).func p = some (b p)) :
    (s.returned gi l true a).1 = a.place.map (ownOver l.own (fun p => (s.midByte (s.grp gi) .glob p).getD (b p))) ∧
      Reads s (s.returned gi l true a).2 gi ∧ ∃ bs : List (Nat × Byte), (∀ x ∈ bs, x.1 ∈ a.place ∧ x.2 = b x.1) ∧
        (s.returned gi l true a).2.cores = ((s.filled gi l true a).outdate [gi] bs).cores := by
  have load : s.returned gi l true a = (s.filled gi l true a).laneBytes gi .glob l.own true a.place := by
    rw [State.returned, if_neg (by rw [h.kind]; decide), h.space, h.serves]
  have unseen : ∀ p ∈ a.place, (s.filled gi l true a).otherPriv gi p = none := fun p hp => (reads.otherPriv p).trans (h.unseen p hp)
  have serves : ∀ p ∈ a.place, ((s.filled gi l true a).core ((s.filled gi l true a).grp gi).pkg).nearByte gi ((s.filled gi l true a).grp gi).func p =
      some (b p) := fun p hp => by
    rw [reads.pkg, reads.func]
    exact given p hp
  obtain ⟨bytes, after⟩ := (s.filled gi l true a).laneBytes_near gi l.own (elements_short h.filled h.short) unseen serves
  obtain ⟨-, marks⟩ := (s.filled gi l true a).loadElem_near gi unseen serves
  have onward := ((s.filled gi l true a).loadElem_eq gi .glob a.place true).choose_spec.2
  rw [load, bytes, after]
  refine ⟨List.map_congr_left fun p hp => ownOver_congr fun _ => ?_, reads.trans onward, marks⟩
  rw [reads.midByte]

/-- The bytes that it lands, and the near caches that it leaves. -/
theorem NearLoad.runLoad {b : Nat → Byte} (reads : Reads s (s.filled gi l true a) gi)
    (given : ∀ p ∈ a.place, ((s.filled gi l true a).core (s.grp gi).pkg).nearByte gi (s.grp gi).func p = some (b p))
    (taken : ∀ p ∈ l.below a, s.cached gi l true a p = true ∨ s.turnsAway (s.grp gi).func p = false) :
    let t := s.runLoad gi l.id (BitVec.allOnes 64) true
    LoadLands s t gi l.dest l.span [(a.lane, a.place.map (ownOver l.own (fun p => (s.midByte (s.grp gi) .glob p).getD (b p))))] ∧
      ∃ bs : List (Nat × Byte), (∀ x ∈ bs, x.1 ∈ a.place ∧ x.2 = b x.1) ∧ t.cores = ((s.filled gi l true a).outdate [gi] bs).cores := by
  obtain ⟨bytes, after, bs, marks, cores⟩ := h.returned reads given
  obtain ⟨lands, kept⟩ := h.alone.runLoad_returns (near := true) h.one h.lane h.filled h.plain h.inside
    (fun tile => absurd (h.space.symm.trans tile) (by decide)) (by rw [h.space]; exact h.clean) (fun _ => taken)
    (by rw [bytes, List.length_map]) after
  rw [bytes] at lands
  exact ⟨lands, bs, marks, kept.trans cores⟩

/-- Its places are of the one line. -/
theorem NearLoad.nearLine_eq (c : Core) (func : Nat) {p : Nat} (hp : p ∈ a.place) : c.nearLine func p = c.nearLine func line := by
  have aligned : alignDown line 128 = line := by
    rw [← h.lined p hp, alignDown, alignDown_mod]
    rfl
  rw [Core.nearLine, Core.nearLine, h.lined p hp, aligned]

/-- A line that the near cache holds serves every byte. -/
theorem NearLoad.hit {x : NearLine} (held : (s.core (s.grp gi).pkg).nearLine (s.grp gi).func line = some x) (fresh : ∀ p ∈ a.place, (gi, p) ∉ x.old) :
    LoadLands s (s.runLoad gi l.id (BitVec.allOnes 64) true) gi l.dest l.span
      [(a.lane, a.place.map (ownOver l.own (fun p => (s.midByte (s.grp gi) .glob p).getD (x.data.getD (p - line) 0))))] := by
  have given : ∀ p ∈ a.place, (s.core (s.grp gi).pkg).nearByte gi (s.grp gi).func p = some (x.data.getD (p - line) 0) := fun p hp => by
    have here := (h.nearLine_eq (s.core (s.grp gi).pkg) (s.grp gi).func hp).trans held
    have start : x.line = line := by
      have matches_ := List.find?_some here
      rw [h.lined p hp] at matches_
      exact beq_iff_eq.mp (Bool.and_eq_true_iff.mp matches_).2
    rw [Core.nearByte_of_line here (fresh p hp), start]
  have cached : ∀ p ∈ a.place, s.cached gi l true a p = true := fun p hp => by
    rw [State.cached, h.serves, given p hp]
    rfl
  have hit : s.nearHit gi l true a = true := by
    rw [State.nearHit, h.serves]
    exact List.all_eq_true.mpr fun p hp => cached p (List.mem_filter.mp hp).1
  have same : s.filled gi l true a = s := by
    rw [State.filled, h.serves, hit]
    rfl
  exact (h.runLoad (same.symm ▸ .refl s gi) (by rw [same]; exact given) fun p hp => .inl (cached p (List.mem_filter.mp hp).1)).1

/-- A line that the near cache does not hold is filled, once for the load. -/
theorem NearLoad.filled_once (absent : (s.core (s.grp gi).pkg).nearLine (s.grp gi).func line = none) (foreign : ∀ p ∈ a.place, l.mine p = false) :
    ∃ p ∈ a.place, s.filled gi l true a = s.fillNear (s.grp gi).pkg (s.grp gi).func p := by
  have below : l.below a = a.place := List.filter_eq_self.mpr fun p hp => by rw [foreign p hp]; rfl
  have unheld : ∀ p ∈ a.place, (s.core (s.grp gi).pkg).nearByte gi (s.grp gi).func p = none := fun p hp => by
    rw [Core.nearByte, h.nearLine_eq _ _ hp, absent]
  obtain ⟨p, ps, places⟩ := List.exists_cons_of_ne_nil h.filled
  have hp : p ∈ a.place := by rw [places]; exact List.mem_cons_self ..
  have miss : s.nearHit gi l true a = false := by
    rw [State.nearHit, below, Bool.and_eq_false_iff]
    refine .inr (List.all_eq_false.mpr ⟨p, hp, ?_⟩)
    rw [State.cached, unheld p hp]
    simp
  refine ⟨p, hp, ?_⟩
  have held : ∀ q ∈ ps, ∀ u, u = s.fillNear (s.grp gi).pkg (s.grp gi).func p → ((u.core (s.grp gi).pkg).nearByte gi (s.grp gi).func q).isSome = true := by
    rintro q hq u rfl
    have hq' : q ∈ a.place := by rw [places]; exact List.mem_cons_of_mem _ hq
    rw [Core.nearByte_of_line (s.nearLine_fillNear _ _ p ((h.lined q hq').trans (h.lined p hp).symm)) (by simp)]
    rfl
  rw [State.filled, h.serves, miss, below, places, List.foldl_cons, unheld p hp]
  refine List.foldlRecOn (motive := fun u => u = s.fillNear (s.grp gi).pkg (s.grp gi).func p) ps _ rfl fun u hu q hq => ?_
  rw [if_pos (held q hq u hu)]
  exact hu

/-- It then gives the line's bytes, and stays. -/
theorem NearLoad.fill (absent : (s.core (s.grp gi).pkg).nearLine (s.grp gi).func line = none)
    (foreign : ∀ p ∈ a.place, l.mine p = false ∧ s.turnsAway (s.grp gi).func p = false) :
    let t := s.runLoad gi l.id (BitVec.allOnes 64) true
    LoadLands s t gi l.dest l.span [(a.lane, a.place.map (ownOver l.own (fun p => (s.midByte (s.grp gi) .glob p).getD (s.seenByte (s.grp gi).func p))))] ∧
      (t.core (s.grp gi).pkg).nearLine (s.grp gi).func line = some ⟨(s.grp gi).func, line, s.seenRead (s.grp gi).func .glob line 128, []⟩ := by
  obtain ⟨p, hp, filled⟩ := h.filled_once absent fun p hp => (foreign p hp).1
  let x : NearLine := ⟨(s.grp gi).func, line, s.seenRead (s.grp gi).func .glob line 128, []⟩
  have new : ∀ q ∈ a.place, ((s.filled gi l true a).core (s.grp gi).pkg).nearLine (s.grp gi).func q = some x := fun q hq => by
    rw [filled, State.nearLine_fillNear s _ _ p ((h.lined q hq).trans (h.lined p hp).symm), h.lined p hp]
  have byte : ∀ q ∈ a.place, x.data.getD (q - x.line) 0 = s.seenByte (s.grp gi).func q := fun q hq => s.seenRead_getD _ (h.lined q hq)
  obtain ⟨lands, bs, marks, cores⟩ := h.runLoad (b := s.seenByte (s.grp gi).func) (filled.symm ▸ s.fillNear_reads ..)
    (fun q hq => by rw [Core.nearByte_of_line (new q hq) (by simp [x]), byte q hq])
    fun q hq => .inr (foreign q (List.mem_filter.mp hq).1).2
  refine ⟨lands, ?_⟩
  have core : (s.runLoad gi l.id (BitVec.allOnes 64) true).core (s.grp gi).pkg = ((s.filled gi l true a).outdate [gi] bs).core (s.grp gi).pkg := by
    rw [State.core, cores]
    rfl
  rw [core, State.nearLine_outdate, ← h.nearLine_eq _ _ hp, new p hp, Option.map_some, NearLine.outdate_same fun y hy => ?_]
  obtain ⟨inside, value⟩ := marks y hy
  rw [value]
  exact byte _ inside

end

/-! What holds a load back -/

/-- An absent line, where not every byte is the group's own, holds a lane back (R88). -/
theorem Alone.loadLane_hidden (alone : Alone s gi (l.op [])) (one : l.accs = [a]) (filled : a.place ≠ []) (tile : l.space = .tile)
    (foreign : ∃ p ∈ a.place, l.mine p = false) (absent : ∃ p ∈ a.place, alignDown p 64 ∈ s.absent) (whole : Bool) :
    s.loadLane gi l.id near whole a.lane = s := by
  have hop := alone.op
  have before := alone.laneBefore .tile a
  have acquire := alone.behindAcquire
  have first : (l.op []).accs.find? (fun x => x.lane == a.lane) = some a :=
    PendingLoad.accs_fresh (by rw [one]; simp) (by rw [one]; simp) filled (by simp)
  obtain ⟨p, hp, other⟩ := foreign
  obtain ⟨q, hq, gone⟩ := absent
  have every : l.accs.all (fun x => x.place.all (fun p => l.own.any (fun y => y.1 == p))) = false := by
    rw [one]
    exact List.all_eq_false.mpr ⟨a, List.mem_singleton_self a, fun own => absurd (List.all_eq_true.mp own p hp) (Bool.eq_false_iff.mp other)⟩
  have some_ : a.place.any (fun p => s.absent.contains (alignDown p 64)) = true :=
    List.any_eq_true.mpr ⟨q, hq, by simpa using gone⟩
  unfold State.loadLane
  dsimp only [PendingLoad.op] at hop first before acquire ⊢
  rw [hop]
  dsimp only
  rw [first]
  dsimp only
  simp only [lookupD, List.length_nil, List.drop_zero, before, acquire, tile, every, some_, Bool.or_self, Bool.false_eq_true, if_false]
  exact if_pos rfl

/-- A poisoned line is an integrity failure (R89). -/
theorem Alone.loadLane_poisoned (alone : Alone s gi (l.op [])) (one : l.accs = [a]) (filled : a.place ≠ [])
    (present : l.space = .tile → (∀ x ∈ l.accs, ∀ p ∈ x.place, l.mine p = true) ∨ ∀ p ∈ a.place, alignDown p 64 ∉ s.absent)
    (bad : ∃ p ∈ a.place, s.poisoned l.space p = true) (whole : Bool) :
    ∃ va, s.loadLane gi l.id near whole a.lane = s.integOp gi l.id va := by
  have hop := alone.op
  have before := alone.laneBefore l.space a
  have acquire := alone.behindAcquire
  have first : (l.op []).accs.find? (fun x => x.lane == a.lane) = some a :=
    PendingLoad.accs_fresh (by rw [one]; simp) (by rw [one]; simp) filled (by simp)
  have here := PendingLoad.unhidden present
  obtain ⟨p, hp, poisoned⟩ := bad
  cases finding : a.place.find? (fun p => s.poisoned l.space p) with
  | none => exact absurd poisoned (List.find?_eq_none.mp finding p hp)
  | some q =>
    refine ⟨(s.grp gi).accVa l.kind a q, ?_⟩
    unfold State.loadLane
    dsimp only [PendingLoad.op] at hop first before acquire ⊢
    rw [hop]
    dsimp only
    rw [first]
    dsimp only
    simp only [lookupD, List.length_nil, List.drop_zero, before, acquire, here, finding, Bool.or_self, Bool.false_eq_true, if_false]

theorem Alone.runLoad_hidden (alone : Alone s gi (l.op [])) (one : l.accs = [a]) (lane : a.lane < 64) (filled : a.place ≠ []) (tile : l.space = .tile)
    (foreign : ∃ p ∈ a.place, l.mine p = false) (absent : ∃ p ∈ a.place, alignDown p 64 ∈ s.absent) :
    s.runLoad gi l.id (BitVec.allOnes 64) near = s := by
  have waits := alone.loadLane_hidden (near := near) one filled tile foreign absent true
  have first : (l.op []).accs.find? (fun x => x.lane == a.lane) = some a :=
    PendingLoad.accs_fresh (by rw [one]; simp) (by rw [one]; simp) filled (by simp)
  rw [alone.runLoad_one one lane, waits, alone.endLoad_waits]
  · intro done
    rw [done] at first
    exact absurd first (by simp)
  · intro j hj
    rw [waits]
    refine alone.loadLane_none (PendingLoad.accs_none ?_ [])
    rw [one, List.find?_cons_of_neg (by simpa using hj.symm)]
    rfl

/-- A world without a ring has no record of an integrity failure (R415): it is owed, and the operation's slot stays (R294). -/
theorem State.integOp_ringless (s : State) (gi id va : Nat) (ring : s.ringVa (s.grp gi).func = 0) : s.integOp gi id va = s.failOp gi id := by
  have same : (s.failOp gi id).ringVa ((s.failOp gi id).grp gi).func = 0 := by
    have func : ((s.failOp gi id).grp gi).func = (s.grp gi).func := by
      rw [State.failOp, State.grp_modGrp]
      split <;> rfl
    rw [func]
    exact ring
  exact if_pos same

theorem Alone.runLoad_poisoned (alone : Alone s gi (l.op [])) (one : l.accs = [a]) (lane : a.lane < 64) (filled : a.place ≠ [])
    (present : l.space = .tile → (∀ x ∈ l.accs, ∀ p ∈ x.place, l.mine p = true) ∨ ∀ p ∈ a.place, alignDown p 64 ∉ s.absent)
    (bad : ∃ p ∈ a.place, s.poisoned l.space p = true) (ring : s.ringVa (s.grp gi).func = 0) :
    s.runLoad gi l.id (BitVec.allOnes 64) near = s.failOp gi l.id := by
  obtain ⟨va, step⟩ := alone.loadLane_poisoned (near := near) one filled present bad true
  rw [s.integOp_ringless gi l.id va ring] at step
  have failed : ((s.failOp gi l.id).grp gi).op l.id = some { l.op [] with kind := .failed l.acq } := by
    have group : (s.failOp gi l.id).grp gi = { s.grp gi with ops := [{ l.op [] with kind := .failed l.acq }], owedInteg := true } := by
      rw [State.failOp, State.grp_modGrp_self _ _ alone.index]
      exact congrArg (fun g : Group => { g with owedInteg := true }) (Group.setOp_one (o := l.op []) alone.one _)
    rw [group, Group.op]
    simp [PendingLoad.op]
  rw [alone.runLoad_one one lane, step]
  · unfold State.endLoad
    rw [failed]
  · intro j _
    rw [step]
    unfold State.loadLane
    dsimp only
    rw [failed]

/-- What a failed operation leaves. -/
theorem Alone.failOp_others (h : Alone s gi o) : MemoryKept s (s.failOp gi o.id) ∧ ((s.failOp gi o.id).grp gi).owedInteg = true ∧
    ((s.failOp gi o.id).grp gi).v = (s.grp gi).v ∧ ((s.failOp gi o.id).grp gi).s = (s.grp gi).s ∧
      ((s.failOp gi o.id).grp gi).ops.map Op.slot = [o.slot] := by
  rw [State.failOp, State.grp_modGrp_self _ _ h.index, Group.setOp_one h.one]
  exact ⟨⟨rfl, rfl, rfl⟩, rfl, rfl, rfl, rfl⟩

end Sys2Proof.Machine
end

section
/-! O41: a load completes, through the near cache or below it; stores, prefetches and lines of debt. -/

namespace Sys2Proof.Machine

variable {s : State} {gi : Nat} {o : Op}

theorem loadComplete_eq (s : State) (gi id : Nat) (mask : BitVec 64) (near : Bool) :
    exec (.loadComplete gi id mask near) s = .next (s.runLoad gi id mask near) := rfl

/-- A store that has reached its layer only ends (R293). -/
theorem Alone.storeComplete (h : Alone s gi o) (store : o.kind = .store ∨ o.kind = .storePrivate) :
    exec (.storeComplete gi o.id) s = .next (s.endOp gi o.id) := by
  have hop := h.op
  show execStoreComplete gi o.id s = _
  unfold execStoreComplete
  rw [hop]
  dsimp only
  rcases store with kind | kind <;> rw [kind]

/-- A prefetch within the cluster whose address and line are good fills the line (R303). -/
theorem Alone.prefetchComplete {scope pa : Nat} {a : Acc} (h : Alone s gi o) (kind : o.kind = .prefetch scope [a])
    (address : s.prefetchPa (s.grp gi) a.addr = some pa) (good : scope ≤ 2 ∧ regionOf pa ≠ 3 ∧ s.poisoned .glob pa = false) :
    exec (.prefetchComplete gi o.id) s = .next ((s.fillNear (s.grp gi).pkg (s.grp gi).func pa).endOp gi o.id) := by
  have hop := h.op
  show execPrefetchComplete gi o.id s = _
  unfold execPrefetchComplete
  rw [hop]
  dsimp only
  rw [kind]
  dsimp only
  rw [List.foldl_cons, List.foldl_nil, address]
  dsimp only
  rw [if_pos good]

/-- A line of debt that fails its check is owed as INTEGRITY (R115); that its record is written changes no register and no debt. -/
theorem integrityCheckFail_owes {k : Nat} (index : gi < s.groups.length) (inside : k < (s.grp gi).debt.length) :
    ∃ t, exec (.integrityCheckFail gi k) s = .next t ∧ (t.grp gi).owedInteg = true ∧ (t.grp gi).debt = dropNth k (s.grp gi).debt ∧
      (t.grp gi).v = (s.grp gi).v ∧ (t.grp gi).s = (s.grp gi).s := by
  let u := s.modGrp gi (fun x => { x.lessDebt k with owedInteg := true })
  have group : u.grp gi = { (s.grp gi).lessDebt k with owedInteg := true } := s.grp_modGrp_self _ index
  have recorded : Steady u (u.integRecord gi 0 (((s.grp gi).debt.map Debt.line).getD k 0)) := (Steady.refl u).integRecord
  refine ⟨_, if_pos inside, (recorded.owedInteg gi).trans ?_, (recorded.debt gi).trans ?_, (recorded.v gi).trans ?_, (recorded.sregs gi).trans ?_⟩ <;>
    rw [group] <;> rfl

/-- The statement's reading of a byte, the group's own over what stands below it. -/
theorem map_ownOver (place : List Nat) (own : List (Nat × Byte)) {f g : Nat → Byte} (same : ∀ p ∈ place, f p = g p) :
    place.map (ownOver own f) = place.map (fun p => match own.find? (fun x => x.1 == p) with
      | some x => x.2
      | none => g p) :=
  List.map_congr_left fun p hp => by
    rw [ownOver, lookupD_eq_find, same p hp]
    cases own.find? (fun x => x.1 == p) <;> rfl

/-- Settles O41: each lane's bytes are shown to be the group's own over those of the layers below, lane by lane (`Returning.step`); the near cache's line
gives them where it serves (`NearLoad`). -/
theorem loadsAndStoresComplete : Obligations.LoadsAndStoresComplete := by
  unfold Obligations.LoadsAndStoresComplete
  intro s gi id g seen below
  refine ⟨?_, ?_, ?_, ?_, ?_, ?_⟩
  · intro slot span beside scope width kind space d lanes mask mod near acq accs own alone inside kinds unserved once accesses places mine clean present taken
    let l : PendingLoad := ⟨id, slot, d, span, lanes, beside, kind, mod, space, scope, width, acq, accs, own⟩
    have member : ∀ a ∈ accs, ∀ p ∈ a.place, p ∈ places := fun a ha p hp => List.mem_flatMap.mpr ⟨a, ha, hp⟩
    have ready : Returnable s gi l near := {
      alone := alone
      unserved := unserved
      once := once
      filled := fun a ha => (accesses a ha).2.1
      clean := fun a ha p hp => clean p (member a ha p hp)
      present := fun tile => (present tile).imp (fun all x hx p hp => all p (member x hx p hp)) fun all x hx p hp => all p (member x hx p hp)
      taken := fun glob a ha p hp => taken glob p (member a ha p hp) }
    have named : ∀ a ∈ accs, a.lane ∈ lanesOf mask := fun a ha => by
      obtain ⟨lane, -, all | ⟨bit, -⟩⟩ := accesses a ha
      · rw [all]
        exact lanesOf_all lane
      · exact List.mem_filter.mpr ⟨List.mem_range.mpr lane, bit⟩
    obtain ⟨lands, kept, owed⟩ := ready.runLoad (mask := mask) inside named fun a ha => by
      obtain ⟨-, filled, all | ⟨-, short⟩⟩ := accesses a ha
      · exact .inl (beq_iff_eq.mpr all)
      · exact .inr (elements_short filled short)
    have under : s.underByte gi l = below kind space := by
      funext p
      unfold State.underByte
      simp only [List.mem_cons, Prod.mk.injEq, List.not_mem_nil, or_false] at kinds
      rcases kinds with ⟨rfl, rfl⟩ | ⟨rfl, rfl⟩ | ⟨rfl, rfl⟩ | ⟨rfl, rfl⟩ | ⟨rfl, rfl⟩ <;> rfl
    refine ⟨_, loadComplete_eq s gi id mask near, ?_, kept, fun p hp => ?_⟩
    · have bytes : accs.map (fun a => (a.lane, a.place.map (seen own (below kind space)))) =
          accs.map (fun a => (a.lane, a.place.map (ownOver own (s.underByte gi l)))) :=
        List.map_congr_left fun a _ => congrArg (Prod.mk a.lane) (map_ownOver _ _ fun p _ => congrFun under p).symm
      rw [bytes]
      exact lands
    · obtain ⟨a, ha, here⟩ := List.mem_flatMap.mp hp
      exact owed a ha p here
  · intro slot span beside scope width line d lanes mod a own alone inside low lane filled short lined gives
    let l : PendingLoad := ⟨id, slot, d, span, lanes, beside, 2, mod, .glob, scope, width, false, [a], own⟩
    have load : NearLoad s gi l a line := ⟨alone, rfl, rfl, rfl, low, rfl, inside, lane, filled, short, fun p hp => (lined p hp).1,
      fun p hp => (lined p hp).2.1, fun p hp => (lined p hp).2.2.1, fun p hp => (lined p hp).2.2.2⟩
    have given : ∀ f : Nat → Byte, LoadLands s (s.runLoad gi id (BitVec.allOnes 64) true) gi d span
        [(a.lane, a.place.map (ownOver own (fun p => (s.midByte g .glob p).getD (f p))))] → gives (s.runLoad gi id (BitVec.allOnes 64) true) f := fun f lands =>
      ⟨loadComplete_eq .., (map_ownOver a.place own fun _ _ => rfl) ▸ lands⟩
    refine ⟨fun x held fresh => ⟨_, given _ (load.hit held fresh)⟩, fun absent foreign => ?_⟩
    obtain ⟨lands, stays⟩ := load.fill absent foreign
    exact ⟨_, given _ lands, stays⟩
  · intro slot span beside scope width kind space d lanes mod near acq a own alone lane filled hidden
    let l : PendingLoad := ⟨id, slot, d, span, lanes, beside, kind, mod, space, scope, width, acq, [a], own⟩
    have start : Alone s gi (l.op []) := alone
    refine ⟨fun ⟨tile, foreign, absent⟩ => ?_, fun free bad ring => ?_⟩
    · rw [loadComplete_eq]
      exact congrArg Host.Outcome.next (start.runLoad_hidden rfl lane filled tile foreign absent)
    · have present : space = .tile → (∀ x ∈ [a], ∀ p ∈ x.place, l.mine p = true) ∨ ∀ p ∈ a.place, alignDown p 64 ∉ s.absent := fun tile => by
        by_cases own : ∃ p ∈ a.place, l.mine p = false
        · exact .inr fun p hp gone => free ⟨tile, own, p, hp, gone⟩
        · refine .inl fun x hx p hp => ?_
          obtain rfl := List.mem_singleton.mp hx
          exact (Bool.not_eq_false _).mp fun foreign => own ⟨p, hp, foreign⟩
      refine ⟨_, loadComplete_eq .., ?_⟩
      rw [start.runLoad_poisoned rfl lane filled present bad ring]
      exact start.failOp_others
  · intro slot d lanes beside kind kinds alone
    have store : kind = .store ∨ kind = .storePrivate := by simpa using kinds
    obtain ⟨ops, v, sregs, -⟩ := alone.endOp_others
    exact ⟨_, alone.storeComplete store, ops, rfl, v, sregs⟩
  · intro slot beside scope pa d lanes a alone address low region clean
    let u := s.fillNear g.pkg g.func pa
    have after : Alone u gi _ := (s.fillNear_reads gi g.pkg g.func pa).alone alone alone.one
    exact ⟨_, alone.prefetchComplete rfl address ⟨low, region, clean⟩, after.endOp_others.1, rfl, s.nearLine_fillNear g.pkg g.func pa rfl⟩
  · intro k index inside
    refine ⟨⟨s.modGrp gi (fun x => x.lessDebt k), rfl, ?_⟩, integrityCheckFail_owes index inside⟩
    rw [State.grp_modGrp_self _ _ index]
    exact ⟨rfl, rfl, rfl, rfl⟩

end Sys2Proof.Machine
end

section
/-! Lanes of one, two or three vector sources under the lanewise tag rule: FP32 and packed arithmetic (O7). -/

namespace Sys2Proof.Machine

/-! What a word gives under the lanewise rule (R258) -/

section
variable {i : Instr} {n : Nat} {d a b e : RegCode} (hl : (view i).map (fun v => Machine.latency v.op) = some n)
include hl

theorem lanewiseGives1 {f : W32 → W32 × Flags} (hx : ∀ s, exec i s = issueWord i (fun c s => c.lane1 s d a f) s) :
    VectorGives1 i n d a lanewise1 f :=
  vectorGives1 hl hx (fun _ => rfl) lanewise_one

theorem lanewiseGives2 {f : W32 → W32 → W32 × Flags} (hx : ∀ s, exec i s = issueWord i (fun c s => c.lane2 s d a b f) s) :
    VectorGives2 i n d a b lanewise2 f :=
  vectorGives2 hl hx (fun _ _ => rfl) lanewise_two

theorem lanewiseGives3 {f : W32 → W32 → W32 → W32 × Flags} (hx : ∀ s, exec i s = issueWord i (fun c s => c.lane3 s d a b e f) s) :
    VectorGives3 i n d a b e lanewise3 f :=
  vectorGives3 hl hx (fun _ _ _ => rfl) lanewise_three

theorem lanewiseArray2 {f : W32 → W32 → W32 × Flags} (hx : ∀ s, exec i s = issueWord i (fun c s => c.array s (c.lane2 s d a b f)) s) :
    ArrayGives2 i n d a b lanewise2 f :=
  arrayGives2 hl hx lanewise_two

theorem lanewiseArray3 {f : W32 → W32 → W32 → W32 × Flags}
    (hx : ∀ s, exec i s = issueWord i (fun c s => c.array s (c.lane3 s d a b e f)) s) : ArrayGives3 i n d a b e lanewise3 f :=
  arrayGives3 hl hx lanewise_three

end

theorem isRdn_eq_decide (rm : Rm) : isRdn rm = decide (rm = .rdn) := by
  cases rm <;> simp [isRdn]

/-- Settles O7: each word is the shared operation of its number of sources over the exact value rounded once, and those of the multiply class
behind the array queue. -/
theorem floatLanes : Obligations.FloatLanes := by
  unfold Obligations.FloatLanes
  simp only [← isRdn_eq_decide]
  refine ⟨fun o => ⟨?fadd, ?fsub, ?fmul, ?ffma, ?faddmin, ?fscale, ?frnd⟩, fun o => ⟨?pkadd, ?pkmul, ?pkfma, ?fdot2, ?fdot4, ?fdot8⟩⟩
  case fadd | fsub | fscale | pkadd | pkmul => exact lanewiseGives2 rfl fun _ => rfl
  case fmul => exact lanewiseArray2 rfl fun _ => rfl
  case faddmin => exact lanewiseGives3 rfl fun _ => rfl
  case ffma | pkfma | fdot2 | fdot4 | fdot8 => exact lanewiseArray3 rfl fun _ => rfl
  case frnd => exact lanewiseGives1 rfl fun _ => rfl

end Sys2Proof.Machine
end

section
/-! Trees over lanes (R178, R179): the levels of a reduction and of a scan, with the flags of their combinations, and the words that take them;
votes and the tag of a register (O6). -/

namespace Sys2Proof.Machine

/-! Flags that accumulate over a list -/

theorem foldl_or_init {α : Type} {w : Nat} (g : α → BitVec w) (l : List α) (a : BitVec w) :
    l.foldl (fun f x => f ||| g x) a = a ||| l.foldl (fun f x => f ||| g x) 0 := by
  induction l generalizing a with
  | nil => simp
  | cons x l ih => rw [List.foldl_cons, List.foldl_cons, ih, ih (0 ||| g x), show 0 ||| g x = g x from BitVec.zero_or, BitVec.or_assoc]

theorem getLsbD_foldl_or {α : Type} {w : Nat} (g : α → BitVec w) (l : List α) (a : BitVec w) (b : Nat) :
    (l.foldl (fun f x => f ||| g x) a).getLsbD b = true ↔ a.getLsbD b = true ∨ ∃ x ∈ l, (g x).getLsbD b = true := by
  induction l generalizing a with
  | nil => simp
  | cons x l ih => rw [List.foldl_cons, ih, BitVec.getLsbD_or, Bool.or_eq_true, or_assoc]; simp

/-! Levels -/

/-- A level of a tree over n lanes: each lane's value, and the flags of them all. -/
def treeLevel (g : Nat → Option W32 × Flags) (n : Nat) : List (Option W32) × Flags :=
  (((List.range n).map g).map Prod.fst, ((List.range n).map g).foldl (fun f p => f ||| p.2) 0)

theorem treeLevel_length (g : Nat → Option W32 × Flags) (n : Nat) : (treeLevel g n).1.length = n := by simp [treeLevel]

theorem treeLevel_getD (g : Nat → Option W32 × Flags) {n i : Nat} (h : i < n) : (treeLevel g n).1.getD i none = (g i).1 := by
  rw [treeLevel, List.map_map, getD_range_map, if_pos h]
  rfl

theorem treeLevel_flags (g : Nat → Option W32 × Flags) (n : Nat) : (treeLevel g n).2 = (List.range n).foldl (fun f i => f ||| (g i).2) 0 := by
  rw [treeLevel, List.foldl_map]

/-- What a lane of a reduction's level at distance d is (R178), and of a scan's (R179). -/
def reduceLane (op : W32 → W32 → W32 × Flags) (d : Nat) (x : List (Option W32)) (i : Nat) : Option W32 × Flags :=
  if i % (2 * d) = 0 then combine op (x.getD i none) (x.getD (i + d) none) else (x.getD i none, 0)
def scanLane (op : W32 → W32 → W32 × Flags) (d : Nat) (x : List (Option W32)) (i : Nat) : Option W32 × Flags :=
  if d ≤ i then combine op (x.getD (i - d) none) (x.getD i none) else (x.getD i none, 0)

theorem reduceLevel_eq (op : W32 → W32 → W32 × Flags) (d : Nat) (x : List (Option W32)) :
    reduceLevel op d x = treeLevel (reduceLane op d x) x.length := rfl
theorem scanLevel_eq (op : W32 → W32 → W32 × Flags) (d : Nat) (x : List (Option W32)) : scanLevel op d x = treeLevel (scanLane op d x) x.length := rfl

/-- The first k levels, of distances 1 to 2^(k−1), with the flags of them all. -/
def levelsTo (level : Nat → List (Option W32) → List (Option W32) × Flags) (x : List (Option W32)) : Nat → List (Option W32) × Flags
  | 0 => (x, 0)
  | k + 1 =>
    let below := levelsTo level x k
    let r := level (2 ^ k) below.1
    (r.1, below.2 ||| r.2)

theorem levels_eq_levelsTo (level : Nat → List (Option W32) → List (Option W32) × Flags) (x : List (Option W32)) :
    levels level x = levelsTo level x 6 := rfl

section
variable (op : W32 → W32 → W32 × Flags) (x : Nat → Option W32)

theorem reduce_length (k : Nat) : (levelsTo (reduceLevel op) ((List.range 64).map x) k).1.length = 64 := by
  induction k with
  | zero => simp [levelsTo]
  | succ k ih => rw [levelsTo, reduceLevel_eq, treeLevel_length, ih]

theorem scan_length (k : Nat) : (levelsTo (scanLevel op) ((List.range 64).map x) k).1.length = 64 := by
  induction k with
  | zero => simp [levelsTo]
  | succ k ih => rw [levelsTo, scanLevel_eq, treeLevel_length, ih]

/-- What the two subtrees of a tree of 2^(k+1) lanes give at the level that joins them. -/
theorem reduceLane_tree {l : List (Option W32)} {k i : Nat} (hk : k < 6) (hi : i < 64) (root : 2 ^ (k + 1) ∣ i)
    (sub : ∀ j < 64, 2 ^ k ∣ j → l.getD j none = (treeOf op x j k).1) :
    reduceLane op (2 ^ k) l i = combine op (treeOf op x i k).1 (treeOf op x (i + 2 ^ k) k).1 := by
  have apart : i + 2 ^ k < 64 := by
    obtain ⟨q, rfl⟩ := root
    interval_cases k <;> omega
  have low : 2 ^ k ∣ i := (pow_dvd_pow 2 (Nat.le_succ k)).trans root
  rw [reduceLane, if_pos (by rw [← pow_succ']; exact Nat.mod_eq_zero_of_dvd root), sub i hi low,
    sub _ apart ((Nat.dvd_add_right low).mpr dvd_rfl)]

/-- After k levels of a reduction, the lane at the root of each tree of 2^k lanes holds the value of its tree. -/
theorem reduce_value {k i : Nat} (hk : k ≤ 6) (hi : i < 64) (root : 2 ^ k ∣ i) :
    (levelsTo (reduceLevel op) ((List.range 64).map x) k).1.getD i none = (treeOf op x i k).1 := by
  induction k generalizing i with
  | zero => rw [levelsTo, getD_range_map, if_pos hi]; rfl
  | succ k ih =>
    rw [levelsTo, reduceLevel_eq, treeLevel_getD _ (by rwa [reduce_length]),
      reduceLane_tree op x (by omega) hi root fun j hj sub => ih (by omega) hj sub]
    rfl

/-- The roots of trees of 2^(k+1) lanes, and their upper halves, are the roots of those of 2^k. -/
theorem exists_root_succ {P : Nat → Prop} {k : Nat} (hk : k < 6) :
    (∃ i < 64, 2 ^ k ∣ i ∧ P i) ↔ ∃ i < 64, 2 ^ (k + 1) ∣ i ∧ (P i ∨ P (i + 2 ^ k)) := by
  have bound : 2 ^ k * 2 ^ (6 - k) = 64 := by rw [← pow_add, show k + (6 - k) = 6 by omega]; rfl
  constructor
  · rintro ⟨_, hi, ⟨q, rfl⟩, hp⟩
    obtain ⟨r, rfl | rfl⟩ := Nat.even_or_odd' q
    · exact ⟨_, hi, ⟨r, by rw [pow_succ, mul_assoc]⟩, .inl hp⟩
    · refine ⟨2 ^ k * (2 * r), lt_of_le_of_lt (Nat.mul_le_mul_left _ (by omega)) hi, ⟨r, by rw [pow_succ, mul_assoc]⟩, .inr ?_⟩
      rwa [mul_add, mul_one] at hp
  · rintro ⟨i, hi, root, hp⟩
    have low : 2 ^ k ∣ i := (pow_dvd_pow 2 (Nat.le_succ k)).trans root
    rcases hp with hp | hp
    · exact ⟨i, hi, low, hp⟩
    · refine ⟨i + 2 ^ k, ?_, (Nat.dvd_add_right low).mpr dvd_rfl, hp⟩
      obtain ⟨q, rfl⟩ := root
      interval_cases k <;> omega

/-- A flag is raised by the first k levels where a tree of 2^k lanes raises it. -/
theorem reduce_flags {k : Nat} (hk : k ≤ 6) (b : Nat) : (levelsTo (reduceLevel op) ((List.range 64).map x) k).2.getLsbD b = true ↔
    ∃ i < 64, 2 ^ k ∣ i ∧ (treeOf op x i k).2.getLsbD b = true := by
  induction k with
  | zero => simp [levelsTo, treeOf]
  | succ k ih =>
    set below := levelsTo (reduceLevel op) ((List.range 64).map x) k with hb
    have level : (treeLevel (reduceLane op (2 ^ k) below.1) 64).2.getLsbD b = true ↔
        ∃ i < 64, 2 ^ (k + 1) ∣ i ∧ (combine op (treeOf op x i k).1 (treeOf op x (i + 2 ^ k) k).1).2.getLsbD b = true := by
      rw [treeLevel_flags, getLsbD_foldl_or]
      simp only [BitVec.ofNat_eq_ofNat, BitVec.getLsbD_zero, Bool.false_eq_true, false_or, List.mem_range]
      refine exists_congr fun i => and_congr_right fun hi => ?_
      by_cases root : 2 ^ (k + 1) ∣ i
      · rw [reduceLane_tree op x (by omega) hi root fun j hj sub => reduce_value op x (by omega) hj sub]
        simp [root]
      · rw [reduceLane, if_neg fun e => root (by rw [pow_succ']; exact Nat.dvd_of_mod_eq_zero e)]
        simp [root]
    rw [levelsTo, reduceLevel_eq, reduce_length, BitVec.getLsbD_or, Bool.or_eq_true, level, ih (by omega), exists_root_succ (by omega),
      ← exists_or]
    refine exists_congr fun i => ?_
    simp only [treeOf, BitVec.getLsbD_or, Bool.or_eq_true]
    tauto

/-- A reduction over 64 lanes (R178). -/
theorem reduce_eq_tree : (levels (reduceLevel op) ((List.range 64).map x)).1.getD 0 none = (treeOf op x 0 6).1 ∧
    (levels (reduceLevel op) ((List.range 64).map x)).2 = (treeOf op x 0 6).2 := by
  rw [levels_eq_levelsTo]
  refine ⟨reduce_value op x le_rfl (by decide) (dvd_zero _), BitVec.eq_of_getLsbD_eq fun b _ => Bool.eq_iff_iff.mpr ?_⟩
  rw [reduce_flags op x le_rfl]
  constructor
  · rintro ⟨i, hi, root, raised⟩
    rwa [Nat.eq_zero_of_dvd_of_lt root hi] at raised
  · exact fun raised => ⟨0, by decide, dvd_zero _, raised⟩

/-- After k levels of a scan each lane holds the combination of the 2^k lanes up to it. -/
theorem scan_value (k : Nat) {i : Nat} (hi : i < 64) :
    (levelsTo (scanLevel op) ((List.range 64).map x) k).1.getD i none = scanOf op x k i := by
  induction k generalizing i with
  | zero => rw [levelsTo, getD_range_map, if_pos hi]; rfl
  | succ k ih =>
    rw [levelsTo, scanLevel_eq, treeLevel_getD _ (by rwa [scan_length]), scanLane, scanOf, ih hi,
      ih ((Nat.sub_le i (2 ^ k)).trans_lt hi)]
    split <;> rfl

/-- The flags of the first k levels of a scan. -/
theorem scan_flags (k : Nat) : (levelsTo (scanLevel op) ((List.range 64).map x) k).2 =
    (List.range k).foldl (fun f k => (List.range 64).foldl (fun f i =>
      f ||| (if 2 ^ k ≤ i then (combine op (scanOf op x k (i - 2 ^ k)) (scanOf op x k i)).2 else 0)) f) 0 := by
  induction k with
  | zero => rfl
  | succ k ih =>
    set below := levelsTo (scanLevel op) ((List.range 64).map x) k
    have level : (treeLevel (scanLane op (2 ^ k) below.1) 64).2 = (List.range 64).foldl (fun f i =>
        f ||| (if 2 ^ k ≤ i then (combine op (scanOf op x k (i - 2 ^ k)) (scanOf op x k i)).2 else 0)) 0 := by
      rw [treeLevel_flags]
      refine List.foldl_ext _ _ _ fun f i hi => ?_
      have hi := List.mem_range.mp hi
      rw [scanLane, scan_value op x k hi, scan_value op x k ((Nat.sub_le i (2 ^ k)).trans_lt hi)]
      split <;> rfl
    rw [levelsTo, scanLevel_eq, scan_length, level, List.range_succ (n := k), List.foldl_append, ← ih]
    exact (foldl_or_init ..).symm

/-- A scan over 64 lanes (R179). -/
theorem scan_eq_tree : (∀ i < 64, (levels (scanLevel op) ((List.range 64).map x)).1.getD i none = scanOf op x 6 i) ∧
    (levels (scanLevel op) ((List.range 64).map x)).2 = scanFlags op x := by
  rw [levels_eq_levelsTo]
  exact ⟨fun _ hi => scan_value op x 6 hi, scan_flags op x 6⟩

end

/-! Votes (R270) -/

section
variable (p : List Nat) (x : Nat → W32)

theorem vote_ballot (act : BitVec 64) : vote 0 ((lanesOf act).map (fun i => (i, x i))) = laneMask (fun j => act.getLsbD j && x j != 0) := by
  refine BitVec.eq_of_getLsbD_eq fun i hi => ?_
  rw [vote, maskOf_getLsbD _ hi, laneMask_getLsbD _ _ hi, Bool.eq_iff_iff]
  simp [lanesOf, hi]

theorem vote_any : vote 1 (p.map (fun i => (i, x i))) = if ∃ j ∈ p, x j ≠ 0 then 1 else 0 := by
  simp [vote]

theorem vote_all : vote 2 (p.map (fun i => (i, x i))) = if ∀ j ∈ p, x j ≠ 0 then 1 else 0 := by
  simp [vote]

theorem vote_equal (k : Nat) : vote (k + 3) (p.map (fun i => (i, x i))) = if ∀ j ∈ p, ∀ i ∈ p, x j = x i then 1 else 0 := by
  cases p with
  | nil => rfl
  | cons j p =>
    have first : (∀ a ∈ j :: p, x a = x j) ↔ ∀ a ∈ j :: p, ∀ b ∈ j :: p, x a = x b :=
      ⟨fun h a ha b hb => (h a ha).trans (h b hb).symm, fun h a ha => h a ha j (List.mem_cons_self ..)⟩
    rw [← if_congr first rfl rfl]
    simp [vote]

end

theorem lanesOf_map_congr {α : Type} {f g : Nat → α} (act : BitVec 64) (h : ∀ i < 64, f i = g i) : (lanesOf act).map f = (lanesOf act).map g :=
  List.map_congr_left fun i hi => h i (List.mem_range.mp (List.mem_filter.mp hi).1)

/-! The words -/

section
variable {o : VOps} {s m : State} {c : Ctx}

/-- The lanes of a covered source that take part in a tree. -/
theorem Ctx.present_covered {r : RegCode} (h : c.covered m r) : c.present (c.vec m r).1 =
    (List.range 64).map (fun j => if c.act.getLsbD j then some ((m.grp c.gi).laneOf r j) else none) :=
  range_map_congr fun i hi => by rw [(Ctx.vec_covered h).1 i hi]

theorem Performs.vote {x : W64} (h : Performs (.vote o) s c m) (ha : c.covered m o.a) (ht : c.inTurn m o.d)
    (votes : Machine.vote (bitsN o.mod 1 0) ((lanesOf c.act).map (fun i => (i, (m.grp c.gi).laneOf o.a i))) = x) :
    ∃ t, exec (.vote o) s = .next t ∧ ScalarResult c 8 s m t o.d x 0 := by
  obtain ⟨lanes, -, same⟩ := Ctx.vec_covered ha
  refine h.scalar_next rfl ?_ ht
  dsimp only
  rw [same, lanesOf_map_congr c.act fun i hi => by rw [lanes i hi], votes]
  rfl

theorem Performs.reduce (h : Performs (.reduce o) s c m) (ha : c.covered m o.a) (ht : c.inTurn m o.d) :
    let op := treeOp (bitsN o.mod 3 0) (Rm.ofCode (bitsN o.mod 6 4) 0)
    let x := fun j => if c.act.getLsbD j then some ((m.grp c.gi).laneOf o.a j) else none
    ∃ t, exec (.reduce o) s = .next t ∧ VectorResult c 8 s m t o.d
      (fun _ => (treeOf op x 0 6).1.getD (treeIdentity (bitsN o.mod 3 0))) .u (treeOf op x 0 6).2 := by
  intro op x
  obtain ⟨value, flags⟩ := reduce_eq_tree op x
  refine h.vector_next rfl ?_ ht
  dsimp only
  rw [(Ctx.vec_covered ha).2.2, Ctx.present_covered ha, value, flags, List.map_const', List.length_range]

theorem Performs.scan (h : Performs (.scan o) s c m) (ha : c.covered m o.a) (ht : c.inTurn m o.d) :
    let op := treeOp (bitsN o.mod 3 0) (Rm.ofCode (bitsN o.mod 6 4) 0)
    let x := fun j => if c.act.getLsbD j then some ((m.grp c.gi).laneOf o.a j) else none
    ∃ t, exec (.scan o) s = .next t ∧ VectorResult c 8 s m t o.d
      (fun j => (if o.mod.getLsbD 7 then (if j = 0 then none else scanOf op x 6 (j - 1)) else scanOf op x 6 j).getD
        (treeIdentity (bitsN o.mod 3 0))) .g (scanFlags op x) := by
  intro op x
  obtain ⟨value, flags⟩ := scan_eq_tree op x
  refine h.vector_next rfl ?_ ht
  dsimp only
  rw [(Ctx.vec_covered ha).2.2, Ctx.present_covered ha, flags]
  rw [range_map_congr fun i hi => by rw [value i hi, value (i - 1) (by omega), bitAt_eq]]

/-- TAGOF reads a covered register as it stands: its tag and its lanes. -/
theorem Ctx.whole_covered {r : RegCode} (h : c.covered m r) : (c.whole m r).2 = m ∧ (c.whole m r).1.tag = (m.grp c.gi).tagOf r ∧
    ∀ i < 64, (c.whole m r).1.lane i = (m.grp c.gi).laneOf r i := by
  unfold Ctx.whole
  split
  case isTrue vector =>
    simp [State.readWhole, h.1, h.2, Group.tagOf, Group.laneOf, vector]
  case isFalse notVector =>
    split
    case isTrue scalar =>
      obtain ⟨lanes, tag, -⟩ := Ctx.vec_covered h
      rw [Ctx.uni_covered h]
      refine ⟨rfl, ?_, fun i hi => ?_⟩
      · have low : r.toNat ≤ 0xEF := (of_decide_eq_true scalar).2
        rw [Group.tagOf, if_neg notVector, if_neg (by rintro rfl; exact absurd low (by decide)),
          if_neg (by rintro rfl; exact absurd low (by decide))]
      · rw [VReg.lane, getD_replicate, if_pos hi, Group.scalarOf, Group.laneOf, if_neg notVector, if_neg notVector, if_pos scalar, if_pos scalar]
    case isFalse notScalar =>
      obtain ⟨lanes, tag, same⟩ := Ctx.vec_covered h
      exact ⟨same, tag, lanes⟩

/-- A word of a value over a tag's code. -/
theorem append_code (x : W32) (k : Nat) (h : k < 2 ^ 32) : x ++ BitVec.ofNat 32 k = x.setWidth 64 <<< 32 ||| BitVec.ofNat 64 k := by
  refine BitVec.eq_of_getLsbD_eq fun i hi => ?_
  rw [BitVec.getLsbD_append, BitVec.getLsbD_or, BitVec.getLsbD_shiftLeft, BitVec.getLsbD_setWidth, BitVec.getLsbD_ofNat, BitVec.getLsbD_ofNat]
  by_cases low : i < 32
  · simp [low, hi]
  · have above : k.testBit i = false := Nat.testBit_lt_two_pow (h.trans_le (Nat.pow_le_pow_right (by decide) (by omega)))
    simp [low, hi, above, show i - 32 < 64 by omega]

theorem Performs.tagof (h : Performs (.tagof o) s c m) (ha : c.covered m o.a) (ht : c.inTurn m o.d) :
    let g := m.grp c.gi
    ∃ t, exec (.tagof o) s = .next t ∧ ScalarResult c 2 s m t o.d (match g.tagOf o.a with
      | .u => (g.laneOf o.a 0).setWidth 64 <<< 32
      | .a => (g.laneOf o.a 1 - g.laneOf o.a 0).setWidth 64 <<< 32 ||| 1
      | .g => 2) 0 := by
  intro g
  obtain ⟨same, tag, lanes⟩ := Ctx.whole_covered ha
  refine h.scalar_next rfl ?_ ht
  dsimp only
  rw [same, tag]
  refine congrArg (fun x => Res.done (c.putS m o.d x)) ?_
  cases g.tagOf o.a with
  | u => exact (append_code _ 0 (by decide)).trans (by rw [lanes 0 (by decide), BitVec.or_zero])
  | a => exact (append_code _ 1 (by decide)).trans (by rw [← lanes 0 (by decide), ← lanes 1 (by decide)]; rfl)
  | g => exact (by decide : (0#32 ++ 2#32 : W64) = 2)

end

/-- Settles O6: votes by their kinds, reductions and scans by the values and flags of their levels, and the tag of a register read as a whole. -/
theorem crossLaneTrees : Obligations.CrossLaneTrees := by
  unfold Obligations.CrossLaneTrees
  intro o s c m ha ht g code op x
  refine ⟨fun h => h.vote ha ht ?_, fun h => h.reduce ha ht, fun h => h.scan ha ht, fun h => h.tagof ha ht⟩
  generalize bitsN o.mod 1 0 = k
  rcases k with _ | _ | _ | k
  · exact vote_ballot _ _
  · exact vote_any _ _
  · exact vote_all _ _
  · exact vote_equal _ _ k

end Sys2Proof.Machine
end

section
/-! Results in consecutive vector registers, words of consecutive sources, and random numbers (O10). -/

namespace Sys2Proof.Machine

/-! Operands that the encoding admits (R212, R213) -/

section
variable {i : Instr} {s m : State} {c : Ctx}

/-- The operands of a performed word are of their kinds. -/
theorem Performs.admits (h : Performs i s c m) : c.view.kd.admits c.view.lay.d = true ∧ c.view.ka.admits c.view.lay.a = true ∧
    c.view.kb.admits c.view.lay.b' = true ∧ c.view.kc.admits c.view.lay.c = true := by
  have encoding : encodingFate i c.view c.cl = none := by
    have passes := h.passes
    unfold wordFate at passes
    split at passes
    · cases passes
    · assumption
  have static : staticTest i = none := by
    unfold encodingFate at encoding
    by_contra fails
    simp [Option.isSome_iff_ne_none.mpr fails] at encoding
  have kinds : c.view.regsOk = true := by
    by_contra fails
    unfold staticTest at static
    simp only [h.row, Bool.not_eq_true] at static fails
    simp only [fails, Bool.not_false, if_true] at static
    split at static <;> cases static
  simpa only [View.regsOk, Bool.and_eq_true, and_assoc] using kinds

end

/-- An operand of n registers, where its kind admits it, ends at v191 or below. -/
theorem Kind.admits_fits {k : Kind} {r : RegCode} (h : k.admits r = true) (spans : ∃ n, k = .vsN n ∨ k = .vdN n) (vector : isV r = true) :
    r.toNat + k.span ≤ 192 := by
  have low : r.toNat ≤ 0xBF := of_decide_eq_true vector
  have notScalar : isS r = false := decide_eq_false (by omega)
  have notSpecial : isSpecial r = false := decide_eq_false (by omega)
  obtain ⟨n, rfl | rfl⟩ := spans <;> simpa [Kind.admits, vector, notScalar, notSpecial] using h

/-! Sources in consecutive registers -/

theorem nthReg_zero (r : RegCode) : nthReg r 0 = r := by
  simp [nthReg]

/-- The operand that a word of consecutive sources reads after its first register. -/
theorem nthReg_next {r : RegCode} {n j : Nat} (fits : isV r = true → r.toNat + n ≤ 192) (hj : j + 1 < n) :
    nthReg (if isV r then r + 1 else r) j = nthReg r (j + 1) := by
  by_cases vector : isV r = true
  · have room := fits vector
    have succ : (r + 1).toNat = r.toNat + 1 := by rw [BitVec.toNat_add]; exact Nat.mod_eq_of_lt (by simp; omega)
    have next : isV (r + 1) = true := decide_eq_true (by omega)
    rw [if_pos vector, nthReg, nthReg, if_pos next, if_pos vector, BitVec.add_assoc, Nat.add_comm, BitVec.ofNat_add]
    rfl
  · simp [nthReg, vector]

theorem next_fits {r : RegCode} {n : Nat} (fits : isV r = true → r.toNat + (n + 1) ≤ 192) (vector : isV (if isV r then r + 1 else r) = true) :
    (if isV r then r + 1 else r).toNat + n ≤ 192 := by
  by_cases first : isV r = true
  · rw [if_pos first, BitVec.toNat_add]
    have room := fits first
    simp only [BitVec.ofNat_eq_ofNat, BitVec.toNat_ofNat]
    omega
  · rw [if_neg first] at vector
    exact absurd vector first

theorem ite_u_iff (p : Prop) [Decidable p] : (if p then Tag.u else .g) = .u ↔ p := by
  split <;> simp_all

/-- The lanewise tag of a source and of those after it: U where each is U (R258). -/
theorem lanewise_cons (x : Tag) (p : Prop) [Decidable p] : lanewise [x, if p then .u else .g] = if x = .u ∧ p then .u else .g := by
  rw [lanewise_two _ _ [], lanewise2]
  exact if_congr (and_congr_right fun _ => ite_u_iff p) rfl rfl

/-- The lanes of covered sources in consecutive registers, and the lanewise tag of them all. -/
theorem Ctx.vecs_covered {c : Ctx} {m : State} (n : Nat) {r : RegCode} (fits : isV r = true → r.toNat + n ≤ 192)
    (h : ∀ j < n, c.covered m (nthReg r j)) :
    (c.vecs m r n).1.length = n ∧
    (∀ j < n, ∀ i < 64, ((c.vecs m r n).1.getD j []).getD i 0 = (m.grp c.gi).laneOf (nthReg r j) i) ∧
    (c.vecs m r n).2.1 = (if ∀ j < n, (m.grp c.gi).tagOf (nthReg r j) = .u then .u else .g) ∧ (c.vecs m r n).2.2 = m := by
  induction n generalizing r with
  | zero => simp [Ctx.vecs]
  | succ n ih =>
    have first := h 0 (by omega)
    rw [nthReg_zero] at first
    obtain ⟨lanes, tag, same⟩ := Ctx.vec_covered first
    have next : ∀ j < n, nthReg (if isV r then r + 1 else r) j = nthReg r (j + 1) := fun j hj => nthReg_next fits (by omega)
    obtain ⟨length, restLanes, restTag, restSame⟩ := ih (next_fits fits) fun j hj => by rw [next j hj]; exact h (j + 1) (by omega)
    simp only [Ctx.vecs, same]
    refine ⟨by rw [List.length_cons, length], fun j hj i hi => ?_, ?_, restSame⟩
    · cases j with
      | zero => rw [nthReg_zero]; exact lanes i hi
      | succ j => rw [← next j (by omega)]; exact restLanes j (by omega) i hi
    · rw [tag, restTag, lanewise_cons]
      refine if_congr ?_ rfl rfl
      rw [Nat.forall_lt_succ_left, nthReg_zero]
      exact and_congr_right fun _ => forall₂_congr fun j hj => by rw [next j hj]

/-! Results in consecutive registers -/

theorem regCode_inj {d : RegCode} {i j : Nat} (hi : i < 256) (hj : j < 256) (h : (d + BitVec.ofNat 8 i).toNat = (d + BitVec.ofNat 8 j).toNat) :
    i = j := by
  have same := (BitVec.add_right_inj _).mp (BitVec.eq_of_toNat_eq h)
  have := congrArg BitVec.toNat same
  rwa [BitVec.toNat_ofNat, BitVec.toNat_ofNat, Nat.mod_eq_of_lt hi, Nat.mod_eq_of_lt hj] at this

/-- n results in consecutive registers, one after the other. -/
def Ctx.putVs (c : Ctx) (m : State) (d : RegCode) (vals : Nat → List W32) (tag : Nat → Tag) (n : Nat) : State :=
  (List.range n).foldl (fun s j => c.putV s (d + BitVec.ofNat 8 j) (vals j) (tag j)) m

/-- The j-th of the registers that such results leave. -/
def Ctx.newReg (c : Ctx) (m : State) (d : RegCode) (vals : Nat → List W32) (tag : Nat → Tag) (j : Nat) : VReg :=
  ⟨if c.full then tagIf (tag j) (vals j) else .g, Machine.putLanes ((m.grp c.gi).vreg (d + BitVec.ofNat 8 j).toNat).lanes c.written (vals j)⟩

/-- Registers replaced one after the other leave every other one. -/
theorem getD_setRegs (v : List VReg) (d : RegCode) (r : Nat → VReg) {n k : Nat} (hk : ∀ j < n, k ≠ (d + BitVec.ofNat 8 j).toNat) (x : VReg) :
    ((List.range n).foldl (fun v j => setNth v (d + BitVec.ofNat 8 j).toNat (r j)) v).getD k x = v.getD k x := by
  induction n with
  | zero => rfl
  | succ n ih =>
    rw [List.range_succ, List.foldl_append, List.foldl_cons, List.foldl_nil, setNth, getD_modifyNth, if_neg fun e => hk n (by omega) e.1,
      ih fun j hj => hk j (by omega)]

/-- Results in turn in consecutive registers: each register as it was in the lanes that it does not cover, and readable at the same clock. -/
theorem Ctx.putVs_inTurn {c : Ctx} {m : State} {d : RegCode} (vals : Nat → List W32) (tag : Nat → Tag) {n : Nat} (hn : n ≤ 256)
    (ht : ∀ j < n, c.inTurn m (d + BitVec.ofNat 8 j)) (hl : c.gi < m.groups.length) :
    Elsewhere c.gi m (c.putVs m d vals tag n) ∧ (c.putVs m d vals tag n).groups.length = m.groups.length ∧
    ∃ ws, ws.map (fun w => (w.reg, w.ready)) = (List.range n).map (fun j => (d + BitVec.ofNat 8 j, c.t + Machine.latency c.view.op)) ∧
      (c.putVs m d vals tag n).grp c.gi = { m.grp c.gi with
        v := (List.range n).foldl (fun v j => setNth v (d + BitVec.ofNat 8 j).toNat (c.newReg m d vals tag j)) (m.grp c.gi).v
        pendw := (m.grp c.gi).pendw ++ ws } := by
  induction n with
  | zero => exact ⟨.refl _ _, rfl, [], rfl, by simp [Ctx.putVs]⟩
  | succ n ih =>
    obtain ⟨elsewhere, length, ws, ready, group⟩ := ih (by omega) fun j hj => ht j (by omega)
    have split : c.putVs m d vals tag (n + 1) = c.putV (c.putVs m d vals tag n) (d + BitVec.ofNat 8 n) (vals n) (tag n) := by
      rw [Ctx.putVs, List.range_succ, List.foldl_append]
      rfl
    have turn : c.inTurn (c.putVs m d vals tag n) (d + BitVec.ofNat 8 n) := by
      intro w hw reg
      rw [group] at hw
      rcases List.mem_append.mp hw with old | new
      · exact ht n (by omega) w old reg
      · have := List.mem_map_of_mem (f := fun w : PendW => (w.reg, w.ready)) new
        rw [ready] at this
        obtain ⟨j, -, e⟩ := List.mem_map.mp this
        exact (congrArg Prod.snd e).ge
    have before : ((c.putVs m d vals tag n).grp c.gi).vreg (d + BitVec.ofNat 8 n).toNat = (m.grp c.gi).vreg (d + BitVec.ofNat 8 n).toNat := by
      rw [group]
      exact getD_setRegs _ d _ (fun j hj e => by have := regCode_inj (by omega) (by omega) e; omega) _
    let w : PendW := ⟨d + BitVec.ofNat 8 n, c.t + Machine.latency c.view.op, ((m.grp c.gi).vreg (d + BitVec.ofNat 8 n).toNat).lanes,
      ((m.grp c.gi).vreg (d + BitVec.ofNat 8 n).toNat).tag, 0, c.written, c.cl.beside, (c.putVs m d vals tag n).seq, isArrayOp c.view.op⟩
    obtain ⟨e1, l1, g1⟩ := State.fixedV_inTurn c.written (vals n) (if c.full then tagIf (tag n) (vals n) else .g) c.cl.beside
      (isArrayOp c.view.op) turn (by rw [length]; exact hl)
    rw [split]
    refine ⟨elsewhere.trans e1, l1.trans length, ws ++ [w], ?_, g1.trans ?_⟩
    · rw [List.map_append, ready, List.range_succ, List.map_append]
      rfl
    · rw [before, group, List.range_succ, List.foldl_append, ← List.append_assoc]
      rfl

theorem Ctx.newReg_lane (c : Ctx) (m : State) (d : RegCode) (vals : Nat → List W32) (tag : Nat → Tag) (j : Nat) {i : Nat} (hi : i < 64) :
    (c.newReg m d vals tag j).lane i = if c.full = true ∨ c.act.getLsbD i = true then (vals j).getD i 0
      else ((m.grp c.gi).vreg (d + BitVec.ofNat 8 j).toNat).lane i := by
  have covers : c.written.getLsbD i = true ↔ c.full = true ∨ c.act.getLsbD i = true := by
    by_cases full : c.full = true
    · rw [Ctx.written, if_pos full, BitVec.getLsbD_allOnes]
      simp [full, hi]
    · simp [Ctx.written, full]
  rw [Ctx.newReg, VReg.lane, putLanes_getD _ _ _ _ hi]
  exact if_congr covers rfl rfl

theorem Ctx.newReg_tag (c : Ctx) (m : State) (d : RegCode) {vals : Nat → List W32} (tag : Nat → Tag) {j : Nat} {val : Nat → W32}
    (hv : ∀ i < 64, (vals j).getD i 0 = val i) :
    (c.newReg m d vals tag j).tag = if c.full then tagIf (tag j) ((List.range 64).map val) else .g := by
  rw [Ctx.newReg, tagIf, tagIf, conforms_congr (tag j) (vals j) ((List.range 64).map val) fun i hi => by rw [hv i hi, getD_range_map, if_pos hi]]

/-- A performed word whose one effect is n results in turn in consecutive vector registers; the values are given for each lane. -/
theorem Performs.vectors {i : Instr} {s m : State} {c : Ctx} (h : Performs i s c m) {d : RegCode} {n : Nat} (vals : Nat → List W32)
    (tag : Nat → Tag) (f : Flags) (val : Nat → Nat → W32) (hv : ∀ j < n, ∀ i < 64, (vals j).getD i 0 = val j i) (hn : n ≤ 256)
    (ht : ∀ j < n, c.inTurn m (d + BitVec.ofNat 8 j)) :
    VectorResults c (Machine.latency c.view.op) s m (c.close (.done (c.flags (c.putVs m d vals tag n) f))) d n val tag f := by
  obtain ⟨wrote, length, ws, ready, group⟩ := c.putVs_inTurn vals tag hn ht h.lt'
  obtain ⟨raised, length', group'⟩ := c.flags_spec (c.putVs m d vals tag n) f (by rw [length]; exact h.lt')
  have done := c.close_done_grp (c.flags (c.putVs m d vals tag n) f) c.gi
  rw [if_pos ⟨rfl, by rw [length', length]; exact h.lt'⟩] at done
  obtain ⟨v, sregs, flags, pendw, pendf⟩ := ((c.flags (c.putVs m d vals tag n) f).grp c.gi).wordDone_regs c.k c.t c.view.lay.anc.stall.toNat
  rw [← done, group', group] at v sregs flags pendw pendf
  refine ⟨⟨c.newReg m d vals tag, v.trans (by rw [← h.v]), fun j hj => ⟨fun i hi => ?_, c.newReg_tag m d tag (hv j hj)⟩⟩, ⟨ws, pendw, ready⟩,
    pendf, flags, sregs.trans h.sregs, ?_, (h.elsewhere.trans (wrote.trans raised)).trans (c.close_done_elsewhere _)⟩
  · rw [c.newReg_lane m d vals tag j hi, hv j hj i hi, Group.vreg, h.v]
    rfl
  · rw [done, Group.wordDone_others, group', group, ← h.others]
    rfl

/-- What a performed word answers, where its description is n results in turn. -/
theorem Performs.vectors_next {i : Instr} {s m : State} {c : Ctx} {lat n : Nat} (h : Performs i s c m)
    (hl : (view i).map (fun v => Machine.latency v.op) = some lat) {body : Ctx → State → Res} {d : RegCode} {vals : Nat → List W32}
    {tag : Nat → Tag} {f : Flags} {val : Nat → Nat → W32} (hb : body c m = .done (c.flags (c.putVs m d vals tag n) f))
    (hv : ∀ j < n, ∀ i < 64, (vals j).getD i 0 = val j i) (hn : n ≤ 256) (ht : ∀ j < n, c.inTurn m (d + BitVec.ofNat 8 j)) :
    ∃ t, issueWord i body s = .next t ∧ VectorResults c lat s m t d n val tag f :=
  ⟨_, issueWord_performs h body, by rw [hb, ← h.latency hl]; exact h.vectors vals tag f val hv hn ht⟩

/-! Random numbers (R184, R185, R289) -/

/-- The lane's number in the low bits of a counter word. -/
theorem counter_lane (x : W32) {i : Nat} (hi : i < 64) : BitVec.ofNat 32 (bitsN x 25 0 * 64 + i) = (x <<< 6) ||| BitVec.ofNat 32 i := by
  have low : bitsN x 25 0 = x.toNat % 2 ^ 26 := by
    rw [bitsN, BitVec.extractLsb'_toNat]
    rfl
  have shifted : x.toNat <<< 6 % 2 ^ 32 = (x.toNat % 2 ^ 26) <<< 6 := by
    rw [Nat.shiftLeft_eq, Nat.shiftLeft_eq]
    omega
  apply BitVec.eq_of_toNat_eq
  rw [BitVec.toNat_ofNat, BitVec.toNat_or, BitVec.toNat_shiftLeft, BitVec.toNat_ofNat, shifted, Nat.mod_eq_of_lt (by omega : i < 2 ^ 32),
    ← Nat.shiftLeft_add_eq_or_of_lt hi, low, Nat.shiftLeft_eq]
  omega

/-- The j-th of the four words of a lane. -/
def wordOf (r : W32 × W32 × W32 × W32) (j : Nat) : W32 := if j = 0 then r.1 else if j = 1 then r.2.1 else if j = 2 then r.2.2.1 else r.2.2.2

theorem Ctx.putVs_four (c : Ctx) (m : State) (d : RegCode) (vals : Nat → List W32) (tag : Nat → Tag) : c.putVs m d vals tag 4 =
    c.putV (c.putV (c.putV (c.putV m d (vals 0) (tag 0)) (d + 1) (vals 1) (tag 1)) (d + 2) (vals 2) (tag 2)) (d + 3) (vals 3) (tag 3) := by
  have first : d + BitVec.ofNat 8 0 = d := BitVec.add_zero d
  simp only [Ctx.putVs, List.range_succ, List.range_zero, List.nil_append, List.foldl_append, List.foldl_cons, List.foldl_nil, first]
  rfl

theorem Ctx.flags_zero (c : Ctx) (m : State) : c.flags m 0 = m := rfl

/-- Where RAND's kind admits its counter registers, they end at v191 or below. -/
theorem Performs.rand_fits {o : VOps} {s m : State} {c : Ctx} (h : Performs (.rand o) s c m) : isV o.b = true → o.b.toNat + 4 ≤ 192 := by
  have row : view (.rand o) = some c.view := h.row
  obtain ⟨-, -, kind, -⟩ := h.admits
  rw [← Option.some.inj row] at kind
  exact Kind.admits_fits kind ⟨4, .inr rfl⟩

/-- The words of a lane, where a lookup in the lists of lanes gives the lanes `b` (R185). -/
theorem randLane_eq (key : W64) {bs : List (List W32)} {b : Nat → Nat → W32} {i : Nat} (lanes : ∀ j < 4, (bs.getD j []).getD i 0 = b j i)
    (hi : i < 64) : randLane key bs i =
      philox (b 0 i, b 1 i, b 2 i, (b 3 i <<< 6) ||| BitVec.ofNat 32 i) (key.setWidth 32) (key.extractLsb' 32 32) 10 := by
  simp only [randLane, lanes 0 (by decide), lanes 1 (by decide), lanes 2 (by decide), lanes 3 (by decide), counter_lane _ hi]

/-- Settles O10: the four words of each lane, written one register after the other. -/
theorem randomNumbers : Obligations.RandomNumbers := by
  unfold Obligations.RandomNumbers
  intro o s c m g key h ha hb ht
  obtain ⟨-, lanes, -, same⟩ := Ctx.vecs_covered 4 h.rand_fits hb
  refine h.vectors_next rfl
    (vals := fun j => ((List.range 64).map (fun i => randLane key (c.vecs m o.b 4).1 i)).map (fun r => wordOf r j)) ?_
    (fun j _ i hi => ?_) (by decide) ht
  · dsimp only
    rw [Ctx.uni_covered ha]
    dsimp only
    rw [same, Ctx.putVs_four, Ctx.flags_zero]
    simp [wordOf, key, g]
  · rw [List.map_map, getD_map_range _ i hi, Function.comp, randLane_eq key (fun j hj => lanes j hj i hi) hi]
    rfl

end Sys2Proof.Machine
end

section
/-! Conversions of lanes, and blocks of lanes quantised (O9). -/

namespace Sys2Proof.Machine

/-! Blocks (R174, R285) -/

/-- The scale byte of block m of n registers of lanes: that of its lanes that act. -/
def scaleOf (f : Fmt) (act : BitVec 64) (n : Nat) (a : Nat → Nat → W32) (m : Nat) : Nat :=
  blockScale f ((blockPlaces n m).filter (fun p => act.getLsbD p.2) |>.map (fun p => f32 (a p.1 p.2)))

theorem blockPlaces_inside {n m : Nat} (hm : m < 4) {p : Nat × Nat} (h : p ∈ blockPlaces n m) : p.1 < n ∧ p.2 < 64 := by
  obtain ⟨j, hj, h⟩ := List.mem_flatMap.mp h
  obtain ⟨u, hu, rfl⟩ := List.mem_map.mp h
  have := List.mem_range.mp hu
  exact ⟨List.mem_range.mp hj, by dsimp only; omega⟩

/-- The values of rows of lanes, and the flags of them all. -/
def rowsOf (rs : List (List (W32 × Flags))) : List (List W32) × Flags :=
  (rs.map (fun l => l.map Prod.fst), rs.foldl (fun x l => l.foldl (fun x r => x ||| r.2) x) 0)

section
variable (f : Fmt) (code : Nat) (act wr : BitVec 64) (n : Nat) (a r : Nat → Nat → W32)

/-- The element of a lane under its block's scale byte, where r is the random value of a lane. -/
def elemOf (j i : Nat) : Nat × Flags := blockElem f (scaleOf f act n a (i / 16)) (Rm.ofCode code (r j i)) (a j i)

/-- What a lane written raises: the flags of its element, and NV where its block holds a NaN or an infinity. -/
def elemFlags (j i : Nat) : Flags := (elemOf f code act n a r j i).2 ||| (if scaleOf f act n a (i / 16) = 255 then fNV else 0)

/-- A lane's scale byte above its element. -/
def scaledElem (j i : Nat) : W32 := BitVec.ofNat 32 (scaleOf f act n a (i / 16) * 2 ^ 24 + (elemOf f code act n a r j i).1)

/-- A lane's value, and what it raises where it is written. -/
def quantLane (j i : Nat) : W32 × Flags := (scaledElem f code act n a r j i, if wr.getLsbD i then elemFlags f code act n a r j i else 0)

/-- Blocks quantised, where a lookup in the lists of lanes gives the lanes `a` and the random values `r`. -/
theorem quantise_eq {sr : Bool} {as bs : List (List W32)} (length : as.length = n)
    (ha : ∀ j < n, ∀ i < 64, (as.getD j []).getD i 0 = a j i)
    (hr : ∀ j < n, ∀ i < 64, (if sr then (bs.getD j []).getD i 0 else 0) = r j i) :
    quantise f sr code as bs act wr =
      ((List.range n).map (fun j => (List.range 64).map (fun i => scaledElem f code act n a r j i)),
        (List.range n).foldl (fun x j => (lanesOf wr).foldl (fun x i => x ||| elemFlags f code act n a r j i) x) 0) := by
  subst length
  have rows : quantise f sr code as bs act wr =
      rowsOf ((List.range as.length).map (fun j => (List.range 64).map (quantLane f code act wr as.length a r j))) := by
    refine congrArg rowsOf ?_
    refine range_map_congr fun j hj => range_map_congr fun i hi => ?_
    have block : i / 16 < 4 := by omega
    have scale : blockScale f ((blockPlaces as.length (i / 16)).filter (fun p => act.getLsbD p.2) |>.map
        (fun p => f32 ((as.getD p.1 []).getD p.2 0))) = scaleOf f act as.length a (i / 16) := by
      refine congrArg (blockScale f) (List.map_congr_left fun p hp => ?_)
      obtain ⟨hp1, hp2⟩ := blockPlaces_inside block (List.mem_filter.mp hp).1
      rw [ha _ hp1 _ hp2]
    dsimp only
    rw [getD_range_map, if_pos block, scale, ha j hj i hi, hr j hj i hi]
    rfl
  rw [rows, rowsOf, List.map_map, List.foldl_map]
  refine Prod.ext ?_ (List.foldl_ext _ _ _ fun x j _ => ?_)
  · simp [quantLane, Function.comp_def]
  · rw [List.foldl_map, lanesOf, List.foldl_filter]
    refine List.foldl_ext _ _ _ fun x i _ => ?_
    by_cases written : wr.getLsbD i = true <;> simp [quantLane, written]

end

/-! The words -/

/-- Where the kinds of QBLK's sources admit them, they end at v191 or below. -/
theorem Performs.qblk_fits {o : VOps} {s m : State} {c : Ctx} (h : Performs (.qblk o) s c m) :
    (isV o.a = true → o.a.toNat + qblkSpan o.mod ≤ 192) ∧ (isV o.b = true → o.b.toNat + qblkSpan o.mod ≤ 192) := by
  have row : view (.qblk o) = some c.view := h.row
  obtain ⟨-, kinda, kindb, -⟩ := h.admits
  rw [← Option.some.inj row] at kinda kindb
  exact ⟨Kind.admits_fits kinda ⟨_, .inl rfl⟩, Kind.admits_fits kindb ⟨_, .inl rfl⟩⟩

/-- The random values of QBLK under SR (R165), and the tag of their registers; under another rounding it reads none. -/
def Ctx.qblkRandom (c : Ctx) (m : State) (o : VOps) : List (List W32) × Tag × State :=
  if bitsN o.mod 2 0 == 4 then c.vecs m o.b (qblkSpan o.mod) else ([], .u, m)

theorem Ctx.qblkRandom_covered {c : Ctx} {m : State} {o : VOps} (fits : isV o.b = true → o.b.toNat + qblkSpan o.mod ≤ 192) :
    let g := m.grp c.gi; let n := qblkSpan o.mod; let sr := bitsN o.mod 2 0 = 4
    (sr → ∀ j < n, c.covered m (nthReg o.b j)) →
    (∀ j < n, ∀ i < 64, (if bitsN o.mod 2 0 == 4 then ((c.qblkRandom m o).1.getD j []).getD i 0 else 0) =
      if sr then g.laneOf (nthReg o.b j) i else 0) ∧
    (c.qblkRandom m o).2.1 = (if sr → ∀ j < n, g.tagOf (nthReg o.b j) = .u then .u else .g) ∧ (c.qblkRandom m o).2.2 = m := by
  intro g n sr hb
  by_cases random : sr
  · obtain ⟨-, lanes, tag, same⟩ := Ctx.vecs_covered n fits (hb random)
    have read : c.qblkRandom m o = c.vecs m o.b n := if_pos (beq_iff_eq.mpr random)
    rw [read]
    refine ⟨fun j hj i hi => ?_, tag.trans (if_congr (by simp [random, g, n]) rfl rfl), same⟩
    rw [if_pos (beq_iff_eq.mpr random), if_pos random]
    exact lanes j hj i hi
  · simp [Ctx.qblkRandom, beq_eq_false_iff_ne.mpr random, random]

/-- What QBLK gives: each register's lanes with their blocks' scale bytes above them, and the flags of the lanes written. -/
theorem Performs.qblk {o : VOps} {s m : State} {c : Ctx} (h : Performs (.qblk o) s c m) :
    let g := m.grp c.gi; let n := qblkSpan o.mod; let sr := bitsN o.mod 2 0 = 4
    let f := fmtOf o.mod; let code := bitsN o.mod 2 0
    let a := fun j i => g.laneOf (nthReg o.a j) i
    let r := fun j i => if sr then g.laneOf (nthReg o.b j) i else 0
    (∀ j < n, c.covered m (nthReg o.a j)) → (sr → ∀ j < n, c.covered m (nthReg o.b j)) →
    (∀ j < n, c.inTurn m (o.d + BitVec.ofNat 8 j)) →
    ∃ t, exec (.qblk o) s = .next t ∧ VectorResults c 8 s m t o.d n (scaledElem f code c.act n a r)
      (fun _ => if (∀ j < n, g.tagOf (nthReg o.a j) = .u) ∧ (sr → ∀ j < n, g.tagOf (nthReg o.b j) = .u) then .u else .g)
      ((List.range n).foldl (fun x j => (lanesOf c.written).foldl (fun x i => x ||| elemFlags f code c.act n a r j i) x) 0) := by
  intro g n sr f code a r ha hb ht
  obtain ⟨fitsA, fitsB⟩ := h.qblk_fits
  obtain ⟨length, lanesA, tagA, sameA⟩ := Ctx.vecs_covered n fitsA ha
  obtain ⟨lanesB, tagB, sameB⟩ := Ctx.qblkRandom_covered fitsB hb
  have values := quantise_eq f code c.act c.written n a r length lanesA lanesB
  have few : n ≤ 256 := by
    show (if o.mod.getLsbD 3 then 3 else 1) ≤ 256
    split <;> decide
  have tags : lanewise [(c.vecs m o.a n).2.1, (c.qblkRandom m o).2.1] =
      if (∀ j < n, g.tagOf (nthReg o.a j) = .u) ∧ (sr → ∀ j < n, g.tagOf (nthReg o.b j) = .u) then .u else .g := by
    rw [tagA, tagB, lanewise_cons]
    exact if_congr (and_congr_left fun _ => ite_u_iff _) rfl rfl
  let q := quantise f (code == 4) code (c.vecs m o.a n).1 (c.qblkRandom m o).1 c.act c.written
  refine h.vectors_next rfl (vals := fun j => q.1.getD j []) ?_ (fun j hj i hi => ?_) few ht
  · dsimp only
    rw [sameA, ← tags]
    show Res.done (c.flags (c.putVs (c.qblkRandom m o).2.2 o.d (fun j => q.1.getD j [])
      (fun _ => lanewise [(c.vecs m o.a n).2.1, (c.qblkRandom m o).2.1]) n) q.2) = _
    rw [sameB, show q = _ from values]
  · rw [show q = _ from values, getD_range_map, if_pos hj, getD_range_map, if_pos hi]

/-- Settles O9: the conversions of single lanes are the shared operations under the lanewise rule; QBLK's blocks by `quantise_eq`. -/
theorem conversions : Obligations.Conversions := by
  unfold Obligations.Conversions
  have same : ∀ x : W32, (x.toNat : W32) = x := fun x => by simp
  simp only [same]
  exact ⟨fun o => ⟨lanewiseGives1 rfl fun _ => rfl, lanewiseGives2 rfl fun _ => rfl, lanewiseGives2 rfl fun _ => rfl⟩,
    fun o s c m h ha hb ht => h.qblk ha hb ht⟩

end Sys2Proof.Machine
end

section
/-! Special functions (O11): the line of words that wait for a quarter's SFU, and the operation that a word leaves when its turn has come. -/

namespace Sys2Proof.Machine

theorem Ctx.slotFull_eq_false {c : Ctx} {m : State} : c.slotFull m = false ↔ c.slotFree m := by
  have zero : c.view.lay.anc.sb.toNat = 0 ↔ c.view.lay.anc.sb = 0 := BitVec.toNat_eq (y := 0) |>.symm
  rw [Ctx.slotFull, Ctx.slotFree, ← zero]
  simp [or_iff_not_imp_left]

/-- The SFU is a word's where it is free, and no other word stands first in its line. -/
theorem Ctx.sfuTurn_iff {c : Ctx} {m : State} : let g := m.grp c.gi
    c.sfuTurn m = true ↔ (m.quarter g.pkg g.qtr).sfuFree ≤ c.t ∧ ∀ x ∈ (m.sfuLine g.pkg g.qtr).head?, x = c.sfuMe := by
  simp [Ctx.sfuTurn, Option.all_eq_true]

section
variable {i : Instr} {s m x : State} {c : Ctx} {body : Ctx → State → Res}

/-- A word that is held once its description has changed something outside the groups. -/
theorem Performs.holds_in (h : Performs i s c m) (groups : x.groups = m.groups) (hb : body c m = .hold x) :
    ∃ t, issueWord i body s = .next t ∧ Waits c x t := by
  have same : x.grp c.gi = m.grp c.gi := by rw [State.grp, groups, State.grp]
  exact ⟨_, issueWord_performs h body, by rw [hb]; exact Ctx.close_hold (by rw [groups]; exact h.lt') (by rw [same]; exact h.clause)⟩

/-- A word that leaves one operation outstanding once its description has changed something outside the groups. -/
theorem Performs.issues_in (h : Performs i s c m) (groups : x.groups = m.groups) {d : RegCode} {n : Nat} {lanes : BitVec 64} {kind : OpKind}
    (hb : body c m = .done (c.issueOpTo x d n lanes kind).2) :
    ∃ t id, issueWord i body s = .next t ∧ RegsKept c.gi x t ∧ Proceeds c x t c.cl.taken c.cl.target ∧
      Changes c.gi x t (fun g => { g with ops := g.ops ++ [{ c.operation id d n kind with lanes := lanes }] }) (fun s => s) := by
  have inside : c.gi < x.groups.length := by rw [groups]; exact h.lt'
  have clause : (x.grp c.gi).clauses[c.k]? = some c.cl := by rw [State.grp, groups]; exact h.clause
  have issued : c.issueOpTo x d n lanes kind = (x.seq, ({ x with seq := x.seq + 1 } : State).modGrp c.gi
      (fun g => { g with ops := g.ops ++ [{ c.operation x.seq d n kind with lanes := lanes }] })) := rfl
  have index : c.gi < (c.issueOpTo x d n lanes kind).2.groups.length := by
    rw [issued, State.modGrp_length]
    exact inside
  have group : (c.issueOpTo x d n lanes kind).2.grp c.gi =
      { x.grp c.gi with ops := (x.grp c.gi).ops ++ [{ c.operation x.seq d n kind with lanes := lanes }] } := by
    rw [issued]
    exact State.grp_modGrp_self _ _ inside
  have kept : RegsKept c.gi x (c.issueOpTo x d n lanes kind).2 := by constructor <;> rw [group]
  have changes : Changes c.gi x (c.issueOpTo x d n lanes kind).2
      (fun g => { g with ops := g.ops ++ [{ c.operation x.seq d n kind with lanes := lanes }] }) (fun s => s) := by
    refine ⟨by rw [group]; rfl, rfl, fun j hj => ?_, fun _ => rfl⟩
    rw [issued]
    exact State.grp_modGrp_ne _ _ hj
  have leaves : Leaves c x (c.issueOpTo x d n lanes kind).2 c.cl.taken c.cl.target :=
    ⟨index, by rw [group]; exact (setNth_getElem? _ _ _ clause).symm, by rw [group]; exact ⟨rfl, rfl, rfl⟩, by rw [group]; exact ⟨rfl, rfl⟩, rfl⟩
  refine ⟨_, x.seq, issueWord_performs h body, ?_⟩
  rw [hb]
  exact ⟨Ctx.close_done_kept index kept, Ctx.close_done_proceeds clause leaves fun _ => ⟨rfl, rfl⟩, Ctx.close_done_changes index changes⟩

end

section
variable {i : Instr} {s m : State} {c : Ctx} {d a : RegCode} {f : W32 → W32 × Flags}

/-- A word whose turn has not come takes its place in the line. -/
theorem Performs.sfu_waits (h : Performs i s c m) (free : c.slotFree m) (turn : c.sfuTurn m = false) : let g := m.grp c.gi
    let line := m.sfuLine g.pkg g.qtr
    ∃ t, issueWord i (fun c s => c.sfu s d a f) s = .next t ∧
      Waits c (m.modQuarter g.pkg g.qtr (fun q => { q with sfuQ := if c.sfuMe ∈ line then line else line ++ [c.sfuMe] })) t := by
  intro g line
  refine h.holds_in rfl ?_
  have place : c.sfuWait m = m.modQuarter g.pkg g.qtr (fun q => { q with sfuQ := if c.sfuMe ∈ line then line else line ++ [c.sfuMe] }) := by
    simp [Ctx.sfuWait, g, line]
  rw [← place]
  simp [Ctx.sfu, Ctx.slotFull_eq_false.mpr free, turn]

/-- A word whose turn has come occupies the SFU and leaves the line. -/
theorem Performs.sfu_issues (h : Performs i s c m) (free : c.slotFree m) (turn : c.sfuTurn m = true) (ha : c.covered m a) :
    let g := m.grp c.gi; let line := m.sfuLine g.pkg g.qtr; let vals := (List.range 64).map (fun i => (f (g.laneOf a i)).1)
    let busy := m.modQuarter g.pkg g.qtr (fun q => { q with sfuFree := c.t + sfuClocks c.cl.lanes, sfuQ := line.filter (fun x => x ≠ c.sfuMe) })
    ∃ t id, issueWord i (fun c s => c.sfu s d a f) s = .next t ∧ RegsKept c.gi busy t ∧ Proceeds c busy t c.cl.taken c.cl.target ∧
      Changes c.gi busy t (fun x => { x with ops := x.ops ++ [{ c.operation id d 1
        (.sfu ⟨if c.full then tagIf (lanewise1 (g.tagOf a) vals) vals else .g, vals⟩ c.written (c.raised (fun i => (f (g.laneOf a i)).2))) with
        lanes := c.written }] }) (fun s => s) := by
  intro g line vals busy
  refine h.issues_in (x := busy) rfl ?_
  obtain ⟨lanes, tag, same⟩ := Ctx.vec_covered ha
  have results : (List.range 64).map (fun i => f ((c.vec m a).1.getD i 0)) = (List.range 64).map (fun i => f (g.laneOf a i)) :=
    range_map_congr fun i hi => by rw [lanes i hi]
  have others : ∀ y, (y != c.sfuMe) = decide (y ≠ c.sfuMe) := fun y => by rw [bne, beq_eq_decide, decide_not]
  simp only [Ctx.sfu, Ctx.slotFull_eq_false.mpr free, turn, Bool.not_true, Bool.false_eq_true, if_false, same, tag, results, Ctx.laneFlags_raised,
    List.map_map, lanewise_one _ vals, others]
  rfl

end

/-- The words of the special functions, with their functions (R287). -/
def sfuWords (o : VOps) : List (Instr × (W32 → W32 × Flags)) :=
  [(.rcp o, sfuRcp), (.rsq o, sfuRsq), (.sqrt o, sfuSqrt), (.exp2 o, sfuExp2), (.log2 o, sfuLog2), (.sinpi o, sfuSinpi), (.cospi o, sfuCospi),
    (.tanh o, sfuTanh)]

theorem exec_sfuWords (o : VOps) : ∀ p ∈ sfuWords o, ∀ s, exec p.1 s = issueWord p.1 (fun c s => c.sfu s o.d o.a p.2) s := by
  simp only [sfuWords, List.forall_mem_cons]
  exact ⟨fun _ => rfl, fun _ => rfl, fun _ => rfl, fun _ => rfl, fun _ => rfl, fun _ => rfl, fun _ => rfl, fun _ => rfl,
    List.forall_mem_nil _⟩

/-- Settles O11: each word is the shared operation of its function, held in its place of the line or issued. -/
theorem specialFunctions : Obligations.SpecialFunctions := by
  unfold Obligations.SpecialFunctions
  intro o p hp s c m h g unit line me turn
  simp only [exec_sfuWords o p hp]
  refine ⟨fun free late => h.sfu_waits free ?_, fun now free ha => h.sfu_issues free (Ctx.sfuTurn_iff.mpr now) ha⟩
  exact Bool.eq_false_iff.mpr fun now => late (Ctx.sfuTurn_iff.mp now)

end Sys2Proof.Machine
end

section
/-! Encodings (O12, O13): a word's fields determine it and it determines them, and decoding undoes encoding. -/

namespace Sys2Proof

open Machine

/-! Fields and words -/

/-- The fields of a word in the layout of another. -/
def fieldsAs (w : W64) : Layout → Layout
  | .v _ => .v (vOps w)
  | .i _ => .i (iOps w)
  | .w _ => .w (wOps w)
  | .b _ => .b (bOps w)

/-- The opcode and the fields of a word, in any layout, are all of its bits (R209, R210). -/
theorem packWord_fieldsAs (w : W64) (l : Layout) : packWord (opOf w) (fieldsAs w l) = w := by
  apply BitVec.eq_of_getLsbD_eq
  intro i hi
  cases l <;> simp only [fieldsAs, packWord, opOf, vOps, iOps, wOps, bOps, ancOf, Anc.pack, BitVec.getLsbD_append,
    BitVec.getLsbD_extractLsb'] <;> grind

/-! Opcodes and instructions -/

/-- What a word is read as: a reserved word, or an instruction of its opcode with the word's own fields. -/
theorem view_decodeRaw (w : W64) : decodeRaw w = .reservedOpcode w ∨
    ∃ v, view (decodeRaw w) = some v ∧ v.op = opOf w ∧ v.lay = fieldsAs w v.lay := by
  have op : ∀ {n : Nat}, (opOf w).toNat = n → BitVec.ofNat 10 n = opOf w := fun h => by rw [← h, BitVec.ofNat_toNat, BitVec.setWidth_eq]
  unfold decodeRaw
  split
  -- the two opcodes whose forms MOD selects (R241, R319)
  case h_9 h => unfold decodeSuspend; split_ifs <;> exact .inr ⟨_, rfl, op h, rfl⟩
  case h_129 h => unfold decodeMode; split_ifs <;> exact .inr ⟨_, rfl, op h, rfl⟩
  case h_137 => exact .inl rfl
  all_goals
    next h => exact .inr ⟨_, rfl, op h, rfl⟩

/-- Every instruction word of the map is encoded so that its word is read as it again, where its word alone passes the tests. -/
theorem encodes_of_view {i : Instr} {v : View} (h : view i = some v) : Laws.Encode.Statement i := by
  open Laws.Encode in
  cases i with
  | nop o => exact nop o | bra o => exact bra o | jmpi o => exact jmpi o | call o => exact call o | ret o => exact ret o | exit o => exact exit o
  | trap o => exact trap o | tret o => exact tret o | suspendCounter o => exact suspendCounter o | suspendTill o => exact suspendTill o
  | suspendMonitor o => exact suspendMonitor o | yield o => exact yield o | grow o => exact grow o | shrink o => exact shrink o
  | bart o => exact bart o | barc o => exact barc o | barg o => exact barg o | spawn o => exact spawn o | signal o => exact signal o
  | wake o => exact wake o | deposit o => exact deposit o | join o => exact join o | evrd o => exact evrd o | evadd o => exact evadd o
  | sadd o => exact sadd o | ssub o => exact ssub o | smul o => exact smul o | smulh o => exact smulh o | sdiv o => exact sdiv o
  | srem o => exact srem o | sand o => exact sand o | sor o => exact sor o | sxor o => exact sxor o | sshl o => exact sshl o | sshr o => exact sshr o
  | ssar o => exact ssar o | smin o => exact smin o | smax o => exact smax o | scmp o => exact scmp o | ssel o => exact ssel o
  | smov o => exact smov o | saddi o => exact saddi o | smovi o => exact smovi o | smovh o => exact smovh o | spopc o => exact spopc o
  | sclz o => exact sclz o | sbfe o => exact sbfe o | sbfi o => exact sbfi o | iadd o => exact iadd o | isub o => exact isub o
  | imul o => exact imul o | imulh o => exact imulh o | imad o => exact imad o | iaddmin o => exact iaddmin o | iabs o => exact iabs o
  | iaddi o => exact iaddi o | idot4 o => exact idot4 o | iand o => exact iand o | ior o => exact ior o | ixor o => exact ixor o
  | ishl o => exact ishl o | ishr o => exact ishr o | isar o => exact isar o | imin o => exact imin o | imax o => exact imax o
  | icmp o => exact icmp o | isel o => exact isel o | ipopc o => exact ipopc o | iclz o => exact iclz o | ibfe o => exact ibfe o
  | ibfi o => exact ibfi o | mov o => exact mov o | movi o => exact movi o | s2v o => exact s2v o | v2s o => exact v2s o | shfl o => exact shfl o
  | shup o => exact shup o | shdn o => exact shdn o | shxor o => exact shxor o | vote o => exact vote o | reduce o => exact reduce o
  | scan o => exact scan o | tagof o => exact tagof o | fadd o => exact fadd o | fsub o => exact fsub o | fmul o => exact fmul o
  | ffma o => exact ffma o | fmin o => exact fmin o | fmax o => exact fmax o | faddmin o => exact faddmin o | fcmp o => exact fcmp o
  | fclass o => exact fclass o | frnd o => exact frnd o | fscale o => exact fscale o | pkadd o => exact pkadd o | pkmul o => exact pkmul o
  | pkfma o => exact pkfma o | fdot2 o => exact fdot2 o | fdot4 o => exact fdot4 o | fdot8 o => exact fdot8 o | cvt o => exact cvt o
  | cvtsr o => exact cvtsr o | qblk o => exact qblk o | dqblk o => exact dqblk o | rcp o => exact rcp o | rsq o => exact rsq o
  | sqrt o => exact sqrt o | exp2 o => exact exp2 o | log2 o => exact log2 o | sinpi o => exact sinpi o | cospi o => exact cospi o
  | tanh o => exact tanh o | rand o => exact rand o | ldp o => exact ldp o | stp o => exact stp o | ldt o => exact ldt o | stt o => exact stt o
  | ldg o => exact ldg o | stg o => exact stg o | ldw o => exact ldw o | atomt o => exact atomt o | atomg o => exact atomg o
  | atomp o => exact atomp o | commit o => exact commit o | abort o => exact abort o | pfg o => exact pfg o | bulk o => exact bulk o
  | obres o => exact obres o | obrel o => exact obrel o | obload o => exact obload o | modeM o => exact modeM o | modeV o => exact modeV o
  | mzero o => exact mzero o | mop o => exact mop o | msync o => exact msync o | mdrain o => exact mdrain o | rdsr o => exact rdsr o
  | wrsr o => exact wrsr o | brk o => exact brk o
  | _ => cases h

/-! The tests of the word alone (R225) -/

theorem staticTest_of_view_none {i : Instr} (h : view i = none) : staticTest i = some 1 := by
  rw [staticTest, h]

/-- A word that passes the tests is of the map: test 1 is among them. -/
theorem view_of_passes {i : Instr} (h : staticTest i = none) : ∃ v, view i = some v :=
  Option.ne_none_iff_exists'.mp fun none => by rw [staticTest_of_view_none none] at h; cases h

theorem staticTest_of_res0 {i : Instr} {v : View} (h : view i = some v) (bad : v.res0Ok = false) : staticTest i = some 4 := by
  rw [staticTest, h]; simp [bad]

theorem staticTest_of_regs {i : Instr} {v : View} (h : view i = some v) (ok : v.res0Ok = true) (bad : v.regsOk = false) :
    staticTest i = some 5 := by
  rw [staticTest, h]; simp [ok, bad]

/-! The decoder on a word's bytes (R204) -/

theorem wordBytes_length (w : W64) : (wordBytes w).length = 8 := bytesLE_length 8 w.toNat

/-- The decoder reads a word back from its bytes, whatever follows. -/
theorem ofBytesLE_take_wordBytes (w : W64) (rest : List Byte) : BitVec.ofNat 64 (ofBytesLE ((wordBytes w ++ rest).take 8)) = w := by
  rw [List.take_left' (wordBytes_length w), wordBytes, ofBytesLE_bytesLE]
  exact BitVec.eq_of_toNat_eq (by simp [w.isLt])

theorem decode_wordBytes_of_fails {w : W64} {t : Nat} (h : staticTest (decodeRaw w) = some t) : decode (wordBytes w) = .error (.illegal t) := by
  have word := ofBytesLE_take_wordBytes w []
  rw [List.append_nil] at word
  simp [decode, wordBytes_length, word, h]

theorem decode_wordBytes_of_passes {w : W64} (h : staticTest (decodeRaw w) = none) (rest : List Byte) :
    decode (wordBytes w ++ rest) = .ok (decodeRaw w, rest) := by
  have length : (wordBytes w ++ rest).length = 8 + rest.length := by rw [List.length_append, wordBytes_length]
  simp [decode, length, ofBytesLE_take_wordBytes, h, List.drop_left' (wordBytes_length w)]

/-- A word is an instruction where it is read as one that passes the tests of the word alone. -/
theorem decode_wordBytes_eq {w : W64} {i : Instr} (h : decodeRaw w = i ∧ staticTest i = none) : decode (wordBytes w) = .ok (i, []) := by
  obtain ⟨rfl, passes⟩ := h
  simpa using decode_wordBytes_of_passes passes []

/-- The encoder on an instruction word of the map. -/
theorem encode_of_view {i : Instr} {v : View} (h : view i = some v) : encode i = some (packWord v.op v.lay) := by
  have e : encode i = (view i).map (fun v => packWord v.op v.lay) := by
    unfold encode
    split
    · cases h
    · rfl
  rw [e, h]; rfl

/-- Settles O13: a well-formed instruction's word is read as it (`encodes_of_view`), and a word's opcode and fields are all of its bits
(`packWord_fieldsAs`). -/
theorem encodingsAgree : Obligations.EncodingsAgree := by
  refine ⟨fun i ok => ?_, fun w => ?_⟩
  · have passes : staticTest i = none := Option.isNone_iff_eq_none.mp ok
    obtain ⟨v, hv⟩ := view_of_passes passes
    obtain ⟨w, hw, rfl⟩ := encodes_of_view hv ok
    exact ⟨w, hw, decode_wordBytes_of_passes passes⟩
  · obtain reserved | ⟨v, hv, hop, hl⟩ := view_decodeRaw w
    · rw [reserved]; rfl
    · rw [encode_of_view hv, hop, hl, packWord_fieldsAs]

/-- Settles O12: the spec's words by evaluation, the refusals by the tests that the words fail. -/
theorem wordsDecode : Obligations.WordsDecode := by
  refine ⟨⟨decode_wordBytes_of_fails ?_, ?_, ?_, ?_, ?_, ?_, ?_, ?_, ?_, ?_, ?_⟩, fun bs short => ?_,
    fun w h => ?_, fun w v h bad => ?_, fun w v h ok bad => ?_⟩
  · decide
  iterate 10 exact decode_wordBytes_eq (by decide)
  · rw [decode, if_pos short]
  · exact decode_wordBytes_of_fails (staticTest_of_view_none h)
  · exact decode_wordBytes_of_fails (staticTest_of_res0 h bad)
  · exact decode_wordBytes_of_fails (staticTest_of_regs h ok bad)

end Sys2Proof
end

section
/-! Words that trap, are held, or have no effect (O17 to O19): every instruction word issues with a body of its own (`exec_word`), and how a word that
reaches its checks ends. -/

namespace Sys2Proof.Machine

/-! Bodies of words -/

/-- A word of a fixed latency is never held, but for one of the multiply class where the array queue is not empty (R131, R217). -/
def NeverHeld (v : View) (body : Ctx → State → Res) : Prop :=
  latency v.op ≠ 0 → ∀ (c : Ctx) (m : State), isArrayOp v.op = false ∨ c.arrayIdle m → ∀ x, body c m ≠ .hold x

/-- A word that ends by its description alone, done or trapped. -/
theorem neverHeld_of_ne {v : View} {body : Ctx → State → Res} (h : ∀ c m x, body c m ≠ .hold x) : NeverHeld v body := fun _ c m _ => h c m

theorem neverHeld_of_variable {v : View} {body : Ctx → State → Res} (h : latency v.op = 0) : NeverHeld v body := fun k => absurd h k

theorem neverHeld_array {v : View} {r : Ctx → State → Res} (op : isArrayOp v.op = true) (h : ∀ c m x, r c m ≠ .hold x) :
    NeverHeld v (fun c m => c.array m (r c m)) := by
  intro _ c m idle x
  have empty : (m.quarter (m.grp c.gi).pkg (m.grp c.gi).qtr).arrayQ = [] := idle.resolve_left (by simp [op])
  simpa [Ctx.array, empty] using h c m x

/-- Every instruction word issues by the clause that the cursor names, with a body that says how it ends. -/
theorem exec_word {i : Instr} {v : View} (h : view i = some v) :
    ∃ body, (∀ s, exec i s = issueWord i body s) ∧ NeverHeld v body := by
  cases i with
  | nop _ | bra _ | jmpi _ | ret _ | exit _ | trap _ | tret _ | suspendCounter _ | suspendTill _ | suspendMonitor _ | yield _ | grow _ | shrink _
  | bart _ | barc _ | barg _ | spawn _ | signal _ | wake _ | deposit _ | join _ | evadd _ | rcp _ | rsq _ | sqrt _ | exp2 _ | log2 _ | sinpi _
  | cospi _ | tanh _ | ldp _ | stp _ | ldt _ | stt _ | ldg _ | stg _ | ldw _ | atomt _ | atomg _ | atomp _ | commit _ | abort _ | pfg _ | bulk _
  | obres _ | obrel _ | obload _ | modeM _ | modeV _ | mzero _ | mop _ | msync _ | mdrain _ | wrsr _ | brk _ =>
    cases h
    exact ⟨_, fun _ => rfl, neverHeld_of_variable rfl⟩
  | fmul _ | ffma _ | pkfma _ | fdot2 _ | fdot4 _ | fdot8 _ =>
    cases h
    exact ⟨_, fun _ => rfl, neverHeld_array rfl fun _ _ _ => nofun⟩
  | call _ =>
    cases h
    refine ⟨_, fun _ => rfl, neverHeld_of_ne fun c m x => ?_⟩
    split <;> exact nofun
  | _ =>
    cases h
    all_goals exact ⟨_, fun _ => rfl, neverHeld_of_ne fun _ _ _ => nofun⟩

theorem exec_isWord {i : Instr} (h : isWord i = true) : ∃ body, ∀ s, exec i s = issueWord i body s := by
  cases hv : view i with
  | some v =>
    obtain ⟨body, e, -⟩ := exec_word hv
    exact ⟨body, e⟩
  | none =>
    cases i with
    | reservedOpcode w => exact ⟨_, fun _ => rfl⟩
    | _ => simp [isWord, hv] at h

/-! How a word that reaches its checks ends -/

section
variable {i : Instr} {s m : State} {c : Ctx}

theorem Performs.reaches (h : Performs i s c m) : Reaches i s c m := ⟨h.cursor, h.begun, h.owesNone, h.row, h.context⟩

/-- The issue of a word whose clause stands, by what its beginning gives. -/
theorem issueWord_begun {gi k : Nat} {c0 : Clause} (cursor : s.cur = some (gi, k)) (stands : (s.grp gi).clauses[k]? = some c0)
    (body : Ctx → State → Res) : let x := wordRes i body gi k (s.enterWord gi k c0)
    issueWord i body s = .next (x.1.close x.2) := by
  simp [issueWord, cursor, stands]

theorem Reaches.ends (h : Reaches i s c m) {body : Ctx → State → Res} {r : Res} (ends : wordRes i body c.gi c.k (c.t, c.cl, m) = (c, r)) :
    issueWord i body s = .next (c.close r) := by
  obtain ⟨c0, stands, begun⟩ := h.begun
  rw [issueWord_begun h.cursor stands, begun, ends]

/-- A word that fails one of tests 1 to 11 takes the trap of the first that it fails. -/
theorem Reaches.fails (h : Reaches i s c m) {cause : Cause} (fate : wordFate i c.view ((m.grp c.gi).asAt c.t) c.cl = some cause)
    (body : Ctx → State → Res) : issueWord i body s = .next (m.trapWord c cause 0 c.cl.wordAddr) := by
  have context := h.context
  refine h.ends (r := c.trap m cause) ?_
  simp only [wordRes, h.owesNone, h.row]
  rw [← context, fate]

/-- A word that fails test 12 or 13 traps where it issues, as it does where no lane acts and where its description does not hold it. -/
theorem Reaches.fails_at_issue (h : Reaches i s c m) {cause : Cause} (passes : wordFate i c.view ((m.grp c.gi).asAt c.t) c.cl = none)
    (fate : issueFate ((m.grp c.gi).asAt c.t) i c.view c.cl c.t = some cause) {body : Ctx → State → Res}
    (free : c.act = 0 ∨ ∀ x, body c m ≠ .hold x) :
    issueWord i body s = .next (m.trapWord c cause 0 c.cl.wordAddr) := by
  have context := h.context
  have own : ∀ x, (if c.act = 0 then Res.done m else body c m) ≠ .hold x := fun x => by
    split
    · exact nofun
    next acts => exact free.resolve_left acts x
  refine h.ends (r := c.trap m cause) ?_
  simp only [wordRes, h.owesNone, h.row]
  rw [← context, passes, fate]
  generalize (if c.act = 0 then Res.done m else body c m) = r at own
  cases r with
  | hold x => exact absurd rfl (own x)
  | _ => rfl

/-- A word that passes its checks and in which no lane acts is done (R208). -/
theorem Reaches.idle (h : Reaches i s c m) (passes : wordFate i c.view ((m.grp c.gi).asAt c.t) c.cl = none)
    (timely : issueFate ((m.grp c.gi).asAt c.t) i c.view c.cl c.t = none) (idle : c.act = 0) (body : Ctx → State → Res) :
    issueWord i body s = .next (c.close (.done m)) := by
  have context := h.context
  refine h.ends ?_
  simp only [wordRes, h.owesNone, h.row]
  rw [← context, passes, timely, if_pos idle]

/-- A word that has met a trap takes it, whatever it is. -/
theorem issueWord_owes {gi k code met : Nat} {c0 : Clause} {cause : Cause} {faddr : W64} (cursor : s.cur = some (gi, k))
    (stands : (s.grp gi).clauses[k]? = some c0) (owes : (s.enterWord gi k c0).2.1.owes = some (cause, code, faddr, met))
    (body : Ctx → State → Res) :
    let r := s.enterWord gi k c0
    issueWord i body s = .next (r.2.2.trapWord (Ctx.bare gi k r.2.1 r.1) cause code faddr) := by
  rw [issueWord_begun cursor stands]
  simp only [wordRes, owes]
  rfl

/-- A word of no opcode of the map traps ILLEGAL (R224). -/
theorem issueWord_unassigned {gi k : Nat} {c0 : Clause} (row : view i = none) (cursor : s.cur = some (gi, k))
    (stands : (s.grp gi).clauses[k]? = some c0) (owes : (s.enterWord gi k c0).2.1.owes = none) (body : Ctx → State → Res) :
    let r := s.enterWord gi k c0
    issueWord i body s = .next (r.2.2.trapWord (Ctx.bare gi k r.2.1 r.1) .illegal 0 r.2.1.wordAddr) := by
  rw [issueWord_begun cursor stands]
  simp only [wordRes, owes, row]
  rfl

end

/-- Settles O18: a word that reaches its checks takes the trap of the one it fails (`Reaches.fails`, `Reaches.fails_at_issue`), and one that owes
a trap takes it. -/
theorem failedCheckTraps : Obligations.FailedCheckTraps := by
  unfold Obligations.FailedCheckTraps
  refine ⟨fun i s c m cause h => ?_, fun i s gi k code met c0 cause faddr word cursor stands owes => ?_⟩
  · obtain ⟨body, exec, free⟩ := exec_word h.row
    refine ⟨fun fate => ?_, fun passes fate now => ?_⟩
    · rw [exec]; exact h.fails fate body
    · rw [exec]; exact h.fails_at_issue passes fate (now.imp_right fun ⟨fixed, idle⟩ => free fixed c m idle)
  · obtain ⟨body, exec⟩ := exec_isWord word
    rw [exec]
    exact issueWord_owes cursor stands owes body

/-! Reserved opcodes (R223, R224) -/

/-- The ranges of opcodes that the map of R223 leaves unassigned. -/
def reservedRanges : List (Nat × Nat) :=
  [(0x016, 0x07F), (0x098, 0x0FF), (0x123, 0x17F), (0x191, 0x1FF), (0x204, 0x207), (0x211, 0x27F), (0x28D, 0x2FF), (0x309, 0x37F), (0x383, 0x3FF)]

/-- Whether an opcode lies in one of them. -/
def isUnassigned (op : Nat) : Bool := reservedRanges.any (fun p => decide (p.1 ≤ op ∧ op ≤ p.2))

theorem isUnassigned_of_range {op : Nat} (h : ∃ p ∈ reservedRanges, p.1 ≤ op ∧ op ≤ p.2) : isUnassigned op = true := by
  simpa only [isUnassigned, List.any_eq_true, decide_eq_true_eq] using h

/-- No instruction of the map has such an opcode. -/
theorem view_op_assigned {i : Instr} {v : View} (h : view i = some v) : isUnassigned v.op.toNat = false := by
  cases i with
  | _ =>
    cases h
    all_goals rfl

/-- Settles O19: a word of such an opcode is read as a reserved one, which is no instruction, and whose issue traps. -/
theorem reservedOpcodes : Obligations.ReservedOpcodes := by
  unfold Obligations.ReservedOpcodes
  intro w op range
  have reserved : decodeRaw w = .reservedOpcode w := by
    refine (view_decodeRaw w).resolve_right fun ⟨v, row, same, _⟩ => ?_
    have assigned : isUnassigned op = false :=
      (congrArg (fun x : BitVec 10 => isUnassigned x.toNat) same).symm.trans (view_op_assigned row)
    rw [isUnassigned_of_range range] at assigned
    cases assigned
  refine ⟨reserved, decode_wordBytes_of_fails (by rw [reserved]; rfl), fun s gi k c0 cursor stands => ?_⟩
  exact fun owes => issueWord_unassigned rfl cursor stands owes _

/-! Words without an effect (R114, R115, R119, R131, R208, R217) -/

section
variable {i : Instr} {s m : State} {c : Ctx}

theorem Reaches.lt (h : Reaches i s c m) : c.gi < m.groups.length := by
  obtain ⟨c0, stands, begun⟩ := h.begun
  have length := s.enterWord_length c.gi c.k c0
  rw [begun] at length
  exact length ▸ State.lt_of_clause stands

/-- The clause of a word that reaches its checks stands in its place. -/
theorem Reaches.clause (h : Reaches i s c m) : (m.grp c.gi).clauses[c.k]? = some c.cl := by
  obtain ⟨c0, stands, begun⟩ := h.begun
  have group := State.enterWord_grp (k := c.k) (c0 := c0) (State.lt_of_clause stands)
  rw [begun] at group
  rw [group]
  exact getElem?_setNth_self _ _ _ (List.getElem?_eq_some_iff.mp stands).1

/-- A word that is done with no effect but that its place is passed. -/
theorem Ctx.close_done_does (lt : c.gi < m.groups.length) (clause : (m.grp c.gi).clauses[c.k]? = some c.cl) :
    Does c m (c.close (.done m)) (fun g => g) (fun s => s) :=
  ⟨Ctx.close_done_kept lt (.refl _ _), Ctx.close_done_changes lt (.refl _ _),
    Ctx.close_done_proceeds clause ⟨lt, (setNth_getElem? _ _ _ clause).symm, ⟨rfl, rfl, rfl⟩, ⟨rfl, rfl⟩, rfl⟩ fun _ => ⟨rfl, rfl⟩⟩

theorem Ctx.slotFull_eq_true : c.slotFull m = true ↔ ¬c.slotFree m := by
  rw [← Bool.not_eq_false, Ctx.slotFull_eq_false]

/-- An access to memory is held by a full slot or by an acquire before it. -/
theorem Ctx.accHeld_of_full (full : ¬c.slotFree m) : c.accHeld m = true := by
  rw [Ctx.accHeld, Ctx.slotFull_eq_true.mpr full, Bool.true_or]

theorem Ctx.accHeld_of_acquiring (acquiring : (m.grp c.gi).acquiring = true) : c.accHeld m = true := by
  rw [Ctx.accHeld, acquiring, Bool.or_true]

end

end Sys2Proof.Machine
end

section
/-! Words without an effect (O17) and the order of the checks (O20). -/

namespace Sys2Proof.Machine

section
variable {i : Instr} {m : State} {c : Ctx} {body : Ctx → State → Res}

/-- A word whose description holds it where `p` holds waits there, performed or not. -/
theorem waits_of_held {p : Ctx → State → Prop} (e : ∀ s, exec i s = issueWord i body s) (held : ∀ c m, p c m → body c m = .hold m) :
    ∀ s c m, Performs i s c m → p c m → ∃ t, exec i s = .next t ∧ Waits c m t := fun s c m h hp => by
  rw [e]; exact h.holds (held c m hp)

/-- A word that leaves the group takes INTEGRITY where a line has failed, at its clause's header, and waits while lines are unchecked. -/
theorem leaves_of_leave (e : ∀ s, exec i s = issueWord i body s) (leave : ∀ c m r, c.slotFree m → c.leave m = some r → body c m = r) :
    ∀ s c m, Performs i s c m → c.slotFree m →
      ((m.grp c.gi).owedInteg = true → exec i s = .next (m.trapWord c .integrity 0 c.cl.hdr)) ∧
      ((m.grp c.gi).owedInteg = false → (m.grp c.gi).debt ≠ [] → ∃ t, exec i s = .next t ∧ Waits c m t) := by
  intro s c m h free
  rw [e]
  refine ⟨fun owed => h.traps (leave c m _ free ?_), fun clear debt => h.holds (leave c m _ free ?_)⟩
  · simp only [Ctx.leave, owed, if_true]
  · simp [Ctx.leave, clear, debt]

theorem Ctx.array_of_busy {r : Res} (busy : ¬c.arrayIdle m) : c.array m r = .hold m := if_neg (by rwa [List.isEmpty_iff])

theorem Ctx.before_of_full (full : ¬c.slotFree m) : c.before m = some (.hold m) := if_pos (Ctx.slotFull_eq_true.mpr full)

theorem Ctx.before_of_free (free : c.slotFree m) : c.before m = c.leave m := by
  rw [Ctx.before, Ctx.slotFull_eq_false.mpr free]; rfl

end

/-- A word whose slot is at its limit is held (R217). -/
theorem fullSlots (o : VOps) : ∀ i ∈ [Instr.signal o, .wake o, .deposit o, .join o, .spawn o, .rcp o, .rsq o, .sqrt o, .exp2 o, .log2 o, .sinpi o,
      .cospi o, .tanh o, .ldp o, .stp o, .ldt o, .stt o, .ldg o, .stg o, .ldw o, .atomt o, .atomg o, .commit o, .abort o, .pfg o,
      .bulk o, .obres o, .obload o],
    ∀ (s : State) (c : Ctx) (m : State), Performs i s c m → ¬c.slotFree m → ∃ t, exec i s = .next t ∧ Waits c m t := by
  have full : ∀ (c : Ctx) m, ¬c.slotFree m → c.slotFull m = true := fun _ _ h => Ctx.slotFull_eq_true.mpr h
  simp only [List.forall_mem_cons]
  refine ⟨?_, ?_, ?_, ?_, ?_, ?_, ?_, ?_, ?_, ?_, ?_, ?_, ?_, ?_, ?_, ?_, ?_, ?_, ?_, ?_, ?_, ?_, ?_, ?_, ?_, ?_, ?_, ?_, List.forall_mem_nil _⟩
  -- the name requests
  iterate 4 exact waits_of_held (fun _ => rfl) fun c m h => by simp only [Ctx.before_of_full h]
  -- SPAWN and the special functions
  iterate 9 exact waits_of_held (fun _ => rfl) fun c m h => if_pos (full c m h)
  -- accesses to memory, COMMIT and ABORT, and what stands beside them
  iterate 9 exact waits_of_held (fun _ => rfl) fun c m h => if_pos (Ctx.accHeld_of_full h)
  iterate 2 exact waits_of_held (fun _ => rfl) fun c m h => if_pos (full c m h)
  iterate 2 exact waits_of_held (fun _ => rfl) fun c m h => if_pos (Ctx.accHeld_of_full h)
  · exact waits_of_held (fun _ => rfl) fun c m h => if_pos (full c m h)
  · exact waits_of_held (fun _ => rfl) fun c m h => if_pos (Ctx.accHeld_of_full h)

/-- Settles O17: a word in which no lane acts is done (`Reaches.idle`); in each other case the word's description holds it or gives INTEGRITY. -/
theorem wordsWithoutEffect : Obligations.WordsWithoutEffect := by
  unfold Obligations.WordsWithoutEffect
  refine ⟨fun i s c m h passes timely idle => ?_, fullSlots, fun o => ?_, fun o => ?_, fun o => ?_⟩
  · obtain ⟨body, exec, -⟩ := exec_word h.row
    rw [exec]
    exact ⟨_, h.idle passes timely idle body, Ctx.close_done_does h.lt h.clause⟩
  · simp only [List.forall_mem_cons]
    refine ⟨?_, ?_, ?_, ?_, ?_, ?_, List.forall_mem_nil _⟩
    all_goals exact waits_of_held (fun _ => rfl) fun c m h => Ctx.array_of_busy h
  · simp only [List.forall_mem_cons]
    refine ⟨?_, ?_, ?_, ?_, ?_, ?_, ?_, ?_, ?_, ?_, ?_, ?_, List.forall_mem_nil _⟩
    all_goals exact waits_of_held (fun _ => rfl) fun c m h => if_pos (Ctx.accHeld_of_acquiring h)
  · simp only [List.forall_mem_cons]
    refine ⟨?_, ?_, ?_, ?_, ?_, List.forall_mem_nil _⟩
    iterate 4 exact leaves_of_leave (fun _ => rfl) fun c m r free h => by simp only [Ctx.before_of_free free, h]
    exact leaves_of_leave (fun _ => rfl) fun c m r free h => by simp [Ctx.slotFull_eq_false.mpr free, h]

/-! The order of the tests (R225) -/

section
variable {i : Instr} {v : View} {g : Group} {cl : Clause} {t : Nat}

/-- Tests 1 to 9, but for those of the word alone: class, place, gathering, and guards that a header does not hold. -/
def FormOk (v : View) (cl : Clause) : Prop :=
  (v.cls.code = bitsN cl.word 63 60 ∨ (cl.pos = cl.count ∧ v.cls = .ctrl)) ∧ (v.transfer = true → cl.pos = cl.count) ∧
    (v.gather = true → bitAt cl.word 48 = true) ∧ ∀ f ∈ cl.selected v.lay.anc.gsel, bitAt f.1 15 = true

theorem encodingFate_of_illegal (h : ¬(staticTest i = none ∧ FormOk v cl)) : encodingFate i v cl = some .illegal := by
  refine if_pos ?_
  by_contra passes
  simp only [Bool.or_eq_true, not_or] at passes
  obtain ⟨⟨⟨⟨cls, place⟩, static⟩, gather⟩, guards⟩ := passes
  exact h ⟨by simpa using static, by simpa [or_iff_not_imp_left] using cls, by simpa using place, by simpa using gather,
    by simpa only [List.any_eq_true, not_exists, not_and, Bool.not_eq_true', Bool.not_eq_false] using guards⟩

theorem encodingFate_of_passes (static : staticTest i = none) (form : FormOk v cl) :
    encodingFate i v cl = if immFate i = .growLimit then some .growLimit else none := by
  obtain ⟨cls, place, gather, guards⟩ := form
  refine (if_neg ?_).trans (by cases immFate i <;> rfl)
  simp only [Bool.or_eq_true, not_or]
  exact ⟨⟨⟨⟨by simpa [or_iff_not_imp_left] using cls, by simpa using place⟩, by simp [static]⟩, by simpa using gather⟩,
    by simpa only [List.any_eq_true, not_exists, not_and, Bool.not_eq_true', Bool.not_eq_false] using guards⟩

/-- The vector registers that tests 10 and 11 look at: of the guards selected, and of the operands where some lane acts. -/
def testedRegs (v : View) (cl : Clause) : List Nat := guardRegs v cl ++ (if cl.active v.lay.anc.gsel ≠ 0 then v.regs else [])

/-- Tests 10 and 11, in their order. -/
theorem stateFate_eq : stateFate g i v cl =
    if ∃ n ∈ testedRegs v cl, 16 * g.blk ≤ n then some .illegal
    else if cl.active v.lay.anc.gsel ≠ 0 ∧ modeBad i g.mm = true then some .mode
    else if v.cls ≠ .mat ∧ ∃ n ∈ testedRegs v cl, g.inWindow n = true then some .alias_ else none := by
  unfold stateFate
  dsimp only
  simp only [testedRegs, bne_iff_ne, List.any_eq_true, decide_eq_true_eq, Bool.and_eq_true]
  split_ifs <;> rfl

/-- Whether test 12 finds a source or a destination uncovered. -/
def ShortAt (i : Instr) (v : View) (g : Group) (cl : Clause) (t : Nat) : Prop :=
  (∃ f ∈ cl.selected v.lay.anc.gsel, f.2 = true) ∨ (cl.active v.lay.anc.gsel ≠ 0 ∧
    ((∃ r ∈ v.readCodes (readsD i), g.short r.1 t cl.beside (if r.2 then some cl.lanes else none) = true) ∨
      ∃ r ∈ v.writeCodes, g.writeShort r (if latency v.op = 0 then none else some (t + latency v.op)) cl.beside = true))

/-- Whether test 13 finds an operand that must be uniform with another tag. -/
def NotUniform (v : View) (g : Group) (cl : Clause) : Prop :=
  cl.active v.lay.anc.gsel ≠ 0 ∧ ∃ p ∈ [(v.ka, v.lay.a), (v.kb, v.lay.b'), (v.kc, v.lay.c)],
      p.1 = .us ∧ isV p.2 = true ∧ (g.vreg p.2.toNat).tag ≠ .u

open Classical in
/-- Tests 12 and 13, in their order. -/
theorem issueFate_eq : issueFate g i v cl t =
    if g.chk = true ∧ ShortAt i v g cl t then some .stallShort else if NotUniform v g cl then some .shape else none := by
  simp [issueFate, ShortAt, NotUniform, -Prod.exists, and_assoc, or_assoc]
end

/-- Settles O20: the tests in their order, by `encodingFate_of_passes`, `stateFate_eq` and `issueFate_eq`. -/
theorem checksInOrder : Obligations.ChecksInOrder := by
  unfold Obligations.ChecksInOrder
  intro i v g cl t row guards acts classOk formOk regs short notUniform
  have passes : staticTest i = none → formOk → immFate i = .ok → wordFate i v g cl = stateFate g i v cl := fun static form imm => by
    rw [wordFate, encodingFate_of_passes static form, imm]; rfl
  have illegal : ¬(staticTest i = none ∧ formOk) → wordFate i v g cl = some .illegal := fun h => by
    rw [wordFate, encodingFate_of_illegal h]
  refine ⟨⟨fun h => illegal fun ok => h ok.1, fun h => illegal fun ok => h ok.2, fun static form grow => ?_,
    fun wf form imm => ?_⟩, ?_, ?_, ?_⟩
  · rw [wordFate, encodingFate_of_passes static form, if_pos grow]
  · rw [passes (Option.isNone_iff_eq_none.mp wf) form imm, stateFate_eq]
    refine ⟨fun beyond => if_pos beyond, fun within => ?_⟩
    rw [if_neg fun ⟨n, hn, beyond⟩ => absurd (within n hn) (by omega)]
    refine ⟨fun ha bad => if_pos ⟨ha, bad⟩, fun mode => ?_⟩
    rw [if_neg mode]
    refine ⟨fun cls window => if_pos ⟨cls, window⟩, fun clear => if_neg fun ⟨cls, n, hn, window⟩ => ?_⟩
    rw [clear.resolve_left cls n hn] at window
    cases window
  all_goals rw [issueFate_eq]
  · exact fun chk uncovered => if_pos ⟨chk, uncovered⟩
  · exact fun covered shape => (if_neg covered).trans (if_pos shape)
  · exact fun covered uniform => (if_neg covered).trans (if_neg uniform)

end Sys2Proof.Machine
end

section
/-! A step of the device (O14, O15): the step fetches, decodes and performs the next word or performs the event that is due, and always answers. -/

namespace Sys2Proof

theorem decode_eq_ok {bs rest : List Byte} {i : Instr} (h : decode bs = .ok (i, rest)) :
    decodeRaw (BitVec.ofNat 64 (Machine.ofBytesLE (bs.take 8))) = i := by
  unfold decode at h
  split at h
  · cases h
  · dsimp only at h
    split at h
    · cases h
    · simp only [Except.ok.injEq, Prod.mk.injEq] at h
      exact h.1

end Sys2Proof

namespace Sys2Proof.Machine

/-! What a fetch leaves (R204) -/

/-- Two states with the same groups and the same clause that issues. -/
def SamePlace (s t : State) : Prop := t.groups = s.groups ∧ t.cur = s.cur

section
variable {s t : State}

theorem SamePlace.refl (s : State) : SamePlace s s := ⟨rfl, rfl⟩

theorem SamePlace.trans {u : State} (h : SamePlace s t) (k : SamePlace t u) : SamePlace s u := ⟨k.1.trans h.1, k.2.trans h.2⟩

theorem State.askAts_samePlace {die func pa access : Nat} {group : Option Nat} : SamePlace s (s.askAts die func pa access group) := by
  unfold State.askAts
  split <;> exact ⟨rfl, rfl⟩

theorem State.startWalk_samePlace {pkg func va access : Nat} {group : Option Nat} : SamePlace s (s.startWalk pkg func va access group) := by
  unfold State.startWalk
  dsimp only
  split <;> exact ⟨rfl, rfl⟩

theorem State.finish_samePlace {die func pa access : Nat} {w x : Bool} {group : Option Nat} :
    SamePlace s (s.finish die func pa access w x group).2 := by
  unfold State.finish
  dsimp only
  split
  · exact .refl s
  split
  · exact .refl s
  split
  · split <;> exact .refl s
  · split <;> exact .refl s
  · split
    · exact .refl s
    split
    · exact ⟨rfl, rfl⟩
    · exact s.askAts_samePlace
  · exact .refl s

theorem State.translate_samePlace {gi va access : Nat} : SamePlace s (s.translate gi va access).2 := by
  unfold State.translate
  dsimp only
  split
  · exact .refl s
  split
  · exact s.finish_samePlace
  · split
    next e _ =>
      have entered : SamePlace s (s.installTlb (s.grp gi).pkg e.2) := ⟨rfl, rfl⟩
      exact entered.trans (State.finish_samePlace)
    · exact s.startWalk_samePlace

theorem State.codeWord_samePlace {gi pa : Nat} : SamePlace s (s.codeWord gi pa).2 := by
  unfold State.codeWord
  dsimp only
  split <;> exact ⟨rfl, rfl⟩

/-- A word fetched leaves the groups and the clause that issues. -/
theorem State.fetch_samePlace {gi va : Nat} {w : W64} (h : s.fetch gi va = .word w t) : SamePlace s t := by
  have found := s.translate_samePlace (gi := gi) (va := va) (access := accFetch)
  revert h
  unfold State.fetch
  generalize s.translate gi va accFetch = r at found
  split
  · exact nofun
  · split
    next pa s1 =>
      split_ifs
      · exact nofun
      · exact nofun
      · exact nofun
      · rintro ⟨⟩
        exact found.trans s1.codeWord_samePlace
    all_goals exact nofun

/-- Where no old word is left that a fetch may still see, the fetch sees the memory's word. -/
theorem State.codeWord_current {gi pa : Nat} (h : ∀ o ∈ s.wlog, o.addr = pa → o.seq < (s.grp gi).acqSeq) :
    s.codeWord gi pa = (s.seenWord (s.grp gi).func pa, s) := by
  have none : s.wlog.filter (fun o => o.addr == pa && decide ((s.grp gi).acqSeq ≤ o.seq)) = [] := by
    simp only [List.filter_eq_nil_iff, Bool.and_eq_true, beq_iff_eq, decide_eq_true_eq, not_and, not_le]
    exact h
  rw [State.codeWord, none]
  rfl

theorem State.fetch_of_reached {gi va pa : Nat} (below : va < 2 ^ 57) (found : s.translate gi va accFetch = (.ok pa, t))
    (dest : t.destOk (t.grp gi).func (some (t.grp gi).pkg) pa = true) (open_ : t.fenced pa = false) (sound : t.poisoned .glob pa = false) :
    s.fetch gi va = .word (t.codeWord gi pa).1 (t.codeWord gi pa).2 := by
  rw [State.fetch, if_neg (by omega), found]
  simp [dest, open_, sound]

theorem State.seenRead_take (func p : Nat) : (s.seenRead func .glob p 8).take 8 = s.seenRead func .glob p 8 :=
  List.take_of_length_le (by simp [State.seenRead])

/-! The next word -/

theorem State.nextWord_of_startDue {gi k : Nat} {c : Clause} (cursor : s.cur = some (gi, k)) (stands : (s.grp gi).clauses[k]? = some c)
    (due : s.startDue (s.grp gi).pkg (s.issueClock gi c) = some t) : s.nextWord = .next t := by
  simp only [State.nextWord, cursor, stands, due]

section
variable {gi k : Nat} {c : Clause} (cursor : s.cur = some (gi, k)) (stands : (s.grp gi).clauses[k]? = some c)
  (undue : s.startDue (s.grp gi).pkg (s.issueClock gi c) = none)
include cursor stands undue

theorem State.nextWord_of_owes {x : Cause × Nat × W64 × Nat} (owes : c.owes = some x) : s.nextWord = .next (s.retryTrap gi k c x) := by
  simp only [State.nextWord, cursor, stands, undue, owes]

theorem State.nextWord_of_fetch {w : W64} (free : c.owes = none) (fetched : s.fetch gi c.wordAddr.toNat = .word w t) :
    s.nextWord = exec (decodeRaw w) t := by
  simp only [State.nextWord, cursor, stands, undue, free, fetched]

theorem State.nextWord_of_decoded {pa : Nat} {i : Instr} (free : c.owes = none) (below : c.wordAddr.toNat < 2 ^ 57)
    (found : s.translate gi c.wordAddr.toNat accFetch = (.ok pa, t)) (dest : t.destOk (t.grp gi).func (some (t.grp gi).pkg) pa = true)
    (open_ : t.fenced pa = false) (sound : t.poisoned .glob pa = false) (current : ∀ o ∈ t.wlog, o.addr = pa → o.seq < (t.grp gi).acqSeq)
    (decoded : decode (t.seenRead (t.grp gi).func .glob pa 8) = .ok (i, [])) : s.nextWord = exec i t := by
  have fetched := State.fetch_of_reached below found dest open_ sound
  rw [State.codeWord_current current] at fetched
  rw [State.nextWord_of_fetch cursor stands undue free fetched, State.seenWord]
  have word := decode_eq_ok decoded
  rw [State.seenRead_take] at word
  rw [word]

end
end

/-! One step -/

/-- The state at which a step begins: the head of the agenda, where there is one, has let its clocks pass. -/
def State.begun (s : State) : State :=
  match s.agenda with
  | [] => s
  | e :: rest => s.takeAgenda e rest

/-- What the clocks that passed in a step bring. -/
def afterStep (s : State) : Host.Outcome State Fault Refusal → Host.Outcome State Fault Refusal
  | .next t => .next (s.recount t).landStatuses.actAnswers
  | .fault f => .fault f
  | .refused r => .refused r

section
variable {s : State}

theorem step_eq_afterStep : step s = afterStep s s.oneStep := by
  unfold step afterStep
  rfl

/-- A step with no event at the head of its agenda issues the next word. -/
theorem State.oneStep_of_word (h : ∀ e ∈ s.agenda.head?, ∀ j ∈ e.what, isWord j = true) : s.oneStep = s.begun.nextWord := by
  unfold State.oneStep State.begun
  cases hs : s.agenda with
  | nil => rfl
  | cons e rest =>
    dsimp only
    cases he : e.what with
    | none => rfl
    | some j => exact if_pos (h e (by rw [hs]; rfl) j he)

theorem State.oneStep_of_event {e : Sched} {rest : List Sched} {i : Instr} (agenda : s.agenda = e :: rest) (what : e.what = some i)
    (event : isWord i = false) : s.oneStep = exec i (s.takeAgenda e rest) := by
  simp [State.oneStep, agenda, what, event]

/-- Settles O14: `nextWord` in its cases, and the event at the head of the agenda. -/
theorem stepRunsDecoded : Obligations.StepRunsDecoded := by
  unfold Obligations.StepRunsDecoded
  intro s around s0
  refine ⟨fun word gi k c cursor stands => ?_, fun e rest i agenda what event => ?_⟩
  · have next : step s = afterStep s s0.nextWord := by rw [step_eq_afterStep, State.oneStep_of_word word]; rfl
    refine ⟨fun s1 due => ?_, fun undue => ⟨fun s1 pa i => ?_, fun x owes => ?_⟩⟩
    · rw [next, State.nextWord_of_startDue cursor stands due]; rfl
    · intro g free below found dest open_ sound current decoded
      rw [next, State.nextWord_of_decoded cursor stands undue free below found dest open_ sound current decoded]; rfl
    · rw [next, State.nextWord_of_owes cursor stands undue owes]; rfl
  · rw [step_eq_afterStep, State.oneStep_of_event agenda what event]; rfl

end

end Sys2Proof.Machine
end

section
/-! Every step answers a next state (O15): the events by their descriptions, the words by their issue. -/

namespace Sys2Proof.Machine

/-- An answer that is a next state. -/
def GoesOn (r : Host.Outcome State Fault Refusal) : Prop := ∃ t, r = .next t

theorem goesOn_next {t : State} : GoesOn (.next t) := ⟨t, rfl⟩

theorem State.spdm_goesOn {s f : State} : GoesOn (s.spdm f) := by
  unfold State.spdm
  split <;> exact goesOn_next

/-- Every event is performed, or leaves the state (log entry 43). -/
theorem exec_event_goesOn {i : Instr} (event : isWord i = false) (s : State) : GoesOn (exec i s) := by
  cases i with
  -- events whose description is one change of the state
  | groupDeath _ | loadComplete _ _ _ _ | commitComplete _ _ _ | atomicPerformed _ _ _ | vaultRoutineRun _ _ _ | mopComplete _ _
  | obloadComplete _ _ | mdrainReadComplete _ _ | move _ | kill _ | configure | retire | admitWorld | depart | invtlb | invname | assign
  | release | relnames | routine | responseTaken _ | configRequest _ | collectiveSubmit _ | dramRefresh _ | abortComplete _ _
  | integrityCheckPass _ _ | heartbeatArrival _ => exact goesOn_next
  -- requests of the SPDM responder
  | getVersion | getCapabilities | negotiateAlgorithms _ _ _ _ | spdmUnsupportedRequest _ | getDigests | getCertificate _ _ | challenge _
  | getMeasurements _ _ | keyExchange _ | finish _ _ | keyUpdate _ | endSession _ | ideKm _ _ _ => exact State.spdm_goesOn
  -- scheduling
  | issueSlotGrant _ _ | clauseStart _ | headerFetchFaultServiced _ | admission _ _ | waitDemotion _ | asyncTrapTaken _ | launchPlacement _
  | eviction _ _ | gridBarrierMessage _ | gridBarrierReleaseMsg _ =>
    unfold exec
    dsimp only [execIssueSlotGrant, execClauseStart, execHeaderFetchFaultServiced, execAdmission, execWaitDemotion, execAsyncTrapTaken,
      execLaunchPlacement, execEviction, execGridBarrierMessage, execGridBarrierReleaseMsg]
    (repeat' split) <;> exact goesOn_next
  -- names
  | nameRequestDelivery _ | nameResendTimer _ | nameRequestAnswered _ | savedDelivery _ | joinAtHome _ | restore _ _ | moveInstallation _
  | forcedHalt _ =>
    unfold exec
    dsimp only [execNameRequestDelivery, execNameResendTimer, execNameRequestAnswered, execSavedDelivery, execJoinAtHome, execRestore,
      execMoveInstallation, execForcedHalt]
    (repeat' split) <;> exact goesOn_next
  -- completions
  | releasePerform _ _ _ | sfuComplete _ _ | multiplyArrayIssue _ | obresComplete _ _ | integrityCheckFail _ _ | storeComplete _ _
  | prefetchComplete _ _ =>
    unfold exec
    dsimp only [execReleasePerform, execSfuComplete, execMultiplyArrayIssue, execObresComplete, execIntegrityCheckFail, execStoreComplete,
      execPrefetchComplete]
    (repeat' split) <;> exact goesOn_next
  -- engines
  | requestListTaken _ | presenceClearAck _ _ | engineEntryStart _ _ | engineLineArrival _ _ | engineEntryComplete _ _
  | fenceComplete _ _ =>
    unfold exec
    dsimp only [execRequestListTaken, execPresenceClearAck, execEngineEntryStart, execEngineLineArrival, execEngineEntryComplete,
      execFenceComplete]
    (repeat' split) <;> exact goesOn_next
  -- translation
  | pageWalkComplete _ | priResponse _ _ | atsInvalidate _ _ _ | atsTranslationCompletion _ _ =>
    unfold exec
    dsimp only [execPageWalkComplete, execPriResponse, execAtsInvalidate, execAtsTranslationCompletion]
    (repeat' split) <;> exact goesOn_next
  -- the command processor
  | submit _ _ _ _ _ | launch _ | tellerSignal _ | tellerDeposit _ | copy _ | queueTableWrite _ _ _ | departComplete _
  | partitionTableWrite _ _ _ | registerWrite _ _ =>
    unfold exec
    dsimp only [execSubmit, execLaunch, execTellerSignal, execTellerDeposit, execCopy, execQueueTableWrite, execDepartComplete,
      execPartitionTableWrite, execRegisterWrite]
    (repeat' split) <;> exact goesOn_next
  -- slices, events and faults
  | tenantSliceEnd _ | graceExpiry _ | clerkGraceExpiry _ | packetTagFailure _ _ | softError _ | treeNodeError _ _ _ _
  | hostWriteArrival _ _ _ | hostCxlMemAccess _ _ _ | clerkResponse _ _ _ | eventRingConsumed _ _ =>
    unfold exec
    dsimp only [execTenantSliceEnd, execGraceExpiry, execClerkGraceExpiry, execPacketTagFailure, execSoftError, execTreeNodeError,
      execHostWriteArrival, execHostCxlMemAccess, execClerkResponse, execEventRingConsumed]
    (repeat' split) <;> exact goesOn_next
  -- TDISP
  | tdiError _ | getTdispVersion _ | getTdispCapabilities _ | lockInterfaceRequest _ | getDeviceInterfaceReport _
  | getDeviceInterfaceState _ | startInterfaceRequest _ | stopInterfaceRequest _ =>
    unfold exec
    dsimp only [execTdiError, execGetTdispVersion, execGetTdispCapabilities, execLockInterfaceRequest, execGetDeviceInterfaceReport,
      execGetDeviceInterfaceState, execStartInterfaceRequest, execStopInterfaceRequest]
    (repeat' split) <;> exact goesOn_next
  -- boot, and PLDM
  | powerOnBoot | mrExtend _ _ | fminRaise _ | readyBitSet _ | functionOutOfService _ | pldmDiscovery _ | pldmMonitoring _
  | pldmFirmwareUpdate _ _ | activateFirmware =>
    unfold exec
    dsimp only [execPowerOnBoot, execMrExtend, execFminRaise, execReadyBitSet, execFunctionOutOfService, execPldmDiscovery,
      execPldmMonitoring, execPldmFirmwareUpdate, execActivateFirmware]
    (repeat' split) <;> exact goesOn_next
  -- the fabric
  | fabricRequest _ _ _ | planeDead _ | heartbeatSend | peerSilent _ | endpointClaimAck _ _ | windowEntryWrite _ _ | collectiveComplete _
  | egressEscrowDrain _ =>
    unfold exec
    dsimp only [execFabricRequest, execPlaneDead, execHeartbeatSend, execPeerSilent, execEndpointClaimAck, execWindowEntryWrite,
      execCollectiveComplete, execEgressEscrowDrain]
    (repeat' split) <;> exact goesOn_next
  | _ => cases event

/-! Words -/

theorem isWord_of_view {i : Instr} {v : View} (row : view i = some v) : isWord i = true := by
  unfold isWord
  split
  · rfl
  · rw [row]; rfl

/-- What a word is read as is an instruction word, of the map or reserved. -/
theorem isWord_decodeRaw (w : W64) : isWord (decodeRaw w) = true := by
  obtain reserved | ⟨v, row, -, -⟩ := view_decodeRaw w
  · rw [reserved]; rfl
  · exact isWord_of_view row

/-- The word of a clause that stands issues, waits or traps. -/
theorem exec_word_goesOn {i : Instr} {s : State} {gi k : Nat} {c : Clause} (word : isWord i = true) (cursor : s.cur = some (gi, k))
    (stands : (s.grp gi).clauses[k]? = some c) : GoesOn (exec i s) := by
  obtain ⟨body, exec⟩ := exec_isWord word
  rw [exec, issueWord_begun cursor stands]
  exact goesOn_next

theorem State.nextWord_goesOn (s : State) : GoesOn s.nextWord := by
  unfold State.nextWord
  split
  · exact goesOn_next
  next gi k cursor =>
    split
    · exact goesOn_next
    next c stands =>
      split
      · exact goesOn_next
      split
      · exact goesOn_next
      split
      next w t fetched =>
        obtain ⟨groups, cur⟩ := State.fetch_samePlace fetched
        have grp : t.grp gi = s.grp gi := by rw [State.grp, groups, State.grp]
        exact exec_word_goesOn (isWord_decodeRaw w) (cur.trans cursor) (grp ▸ stands)
      · exact goesOn_next
      · exact goesOn_next

/-! Steps -/

theorem State.oneStep_goesOn (s : State) : GoesOn s.oneStep := by
  unfold State.oneStep
  dsimp only
  split
  · exact s.nextWord_goesOn
  split
  · exact State.nextWord_goesOn _
  split
  · exact State.nextWord_goesOn _
  next event => exact exec_event_goesOn (Bool.eq_false_iff.mpr event) _

/-- Settles O15: an event is performed or leaves the state, and a word is one of a clause that stands. -/
theorem everyStepGoesOn : Obligations.EveryStepGoesOn := by
  intro s
  obtain ⟨t, next⟩ := s.oneStep_goesOn
  exact ⟨_, by rw [step_eq_afterStep, next]; rfl⟩

end Sys2Proof.Machine
end

section
/-! Trap entry (O23). The statement's TCAUSE holds the code of every trap; the model's, as R237 has it, only that of TRAP and BRK. The code that a PAGE
trap is taken with says what the access was (R389): it goes to the PAGE record, and TCAUSE holds 0. -/

namespace Sys2Proof.Machine

/-- The group of a word due, with a handler, and a window for its frame. -/
def trapGroup : Group := { fetchGroup 0 0 1 with pwin := 0x1001, tbase := 0x1800, tframe := 0 }

/-- That group in its place, with the page of its frame held. -/
def trapState : State := { State.reset.placeWord 0 with groups := [trapGroup] }

/-- The context of its word. -/
def trapCtx : Ctx := Ctx.bare 0 0 (trapGroup.clauses.head (List.cons_ne_nil _ _)) 0

/-- The translation of its frame. -/
def trapFrame : Tr × State :=
  (trapState.modGrp 0 (fun x => { x with tbase := (trapGroup.asAt 0).tbase })).translate 0 (trapGroup.privAddr 0 trapGroup.frameOff) accWrite

theorem trapFrame_reached : trapFrame.1 = .ok 0x1000 ∧ trapFrame.2.destOk trapGroup.func (some trapGroup.pkg) 0x1000 = true := by decide +kernel

/-- A PAGE trap of a write leaves CODE 0. -/
theorem trapState_page_tcause : ((trapState.trapWord trapCtx .page accWrite 0).grp 0).tcause =
    BitVec.ofNat 64 (256 * trapCtx.cl.pos + Cause.page.code) := by
  decide +kernel

/-- Refutes O23: in `trapState` a PAGE trap of a write is taken at once with code 1, and leaves CODE 0 (`trapState_page_tcause`). -/
theorem not_trapEntry : ¬ Obligations.TrapEntry := by
  rintro ⟨entry, -⟩
  obtain ⟨place, dest⟩ := trapFrame_reached
  have ring : trapState.ringVa trapGroup.func = 0 := by decide +kernel
  have handler : (trapGroup.asAt 0).tbase ≠ 0 := by decide
  have room : trapGroup.frameOff + 32 ≤ trapGroup.privLen := by decide
  obtain ⟨-, tcause, -⟩ := entry trapState trapFrame.2 trapCtx .page accWrite 0 0x1000 (by decide) (.inr nofun) (fun _ => ring) rfl handler room
    (Prod.ext place rfl) dest rfl nofun
  have differs := trapState_page_tcause.symm.trans tcause
  exact absurd differs (by decide)

end Sys2Proof.Machine
end

section
/-! Scalar words (O1, O2): each is the shared operation of its number of sources, whose function is the one that R254 and R255 state. -/

namespace Sys2Proof.Machine

/-! Functions of R254 -/

section
variable (sat uns : Bool) (a b : W64)

theorem sAdd_eq : sAdd sat a b = if sat then limited 64 (-(2 ^ 63)) (2 ^ 63 - 1) (a.toInt + b.toInt) else (a + b, 0) :=
  fit64_eq sat (by rw [BitVec.ofInt_add, BitVec.ofInt_toInt, BitVec.ofInt_toInt])

theorem sSub_eq : sSub sat a b = if sat then limited 64 (-(2 ^ 63)) (2 ^ 63 - 1) (a.toInt - b.toInt) else (a - b, 0) :=
  fit64_eq sat (by rw [Int.sub_eq_add_neg, BitVec.ofInt_add, BitVec.ofInt_neg, BitVec.ofInt_toInt, BitVec.ofInt_toInt, BitVec.sub_eq_add_neg])

theorem sMul_eq : sMul sat a b = if sat then limited 64 (-(2 ^ 63)) (2 ^ 63 - 1) (a.toInt * b.toInt) else (a * b, 0) :=
  fit64_eq sat (by rw [BitVec.ofInt_mul, BitVec.ofInt_toInt, BitVec.ofInt_toInt])

theorem sMulh_eq : sMulh uns a b = highProduct uns a b := highProduct_eq uns a b

/-- A quotient truncates toward zero, of either signedness. -/
theorem sDiv_eq : sDiv uns a b = if b = 0 then (BitVec.allOnes 64, fDZ) else (if uns then a.udiv b else a.sdiv b, 0) := by
  have quotient : w64 ((x64 uns a).tdiv (x64 uns b)) = if uns then a.udiv b else a.sdiv b := by
    cases uns
    · exact tdiv_signed a b
    · exact tdiv_unsigned a b
  rw [sDiv, quotient]

theorem sRem_eq : sRem uns a b = if b = 0 then (a, fDZ) else (if uns then a.umod b else a.srem b, 0) := by
  have remainder : w64 ((x64 uns a).tmod (x64 uns b)) = if uns then a.umod b else a.srem b := by
    cases uns
    · exact tmod_signed a b
    · exact tmod_unsigned a b
  rw [sRem, remainder]

theorem sShl_eq : sShl a b = a <<< b := by
  rw [sShl, BitVec.shiftLeft_eq']
  split
  next far => rw [BitVec.shiftLeft_eq_zero far]; rfl
  · rfl

theorem sShr_eq : sShr a b = a >>> b := by
  rw [sShr, BitVec.ushiftRight_eq']
  split
  next far => rw [BitVec.ushiftRight_eq_zero far]; rfl
  · rfl

theorem sSar_eq : sSar a b = a.sshiftRight' b := by
  rw [sSar, BitVec.sshiftRight_eq']
  split
  next far =>
    apply BitVec.eq_of_getLsbD_eq
    intro i hi
    have out : ¬ b.toNat + i < 64 := by omega
    rw [BitVec.getLsbD_sshiftRight, if_neg out]
    cases a.msb
    · exact BitVec.getLsbD_zero.trans (by rw [Bool.and_false])
    · exact (BitVec.getLsbD_allOnes (v := 64)).trans (by rw [decide_eq_true hi, decide_eq_false (by omega)]; rfl)
  · rfl

theorem sMin_eq : sMin uns a b = lesser uns a b := lesser_eq uns a b
theorem sMax_eq : sMax uns a b = greater uns a b := greater_eq uns a b

end

theorem popCount_eq {n : Nat} (a : BitVec n) : popCount a = (List.range n).countP (fun j => a.getLsbD j) := by
  rw [popCount, List.countP_eq_length_filter]

/-- Settles O1: each word is the shared operation of its sources over the function that R254 states. -/
theorem scalarArithmetic : Obligations.ScalarArithmetic := by
  unfold Obligations.ScalarArithmetic
  refine ⟨fun o => ⟨?sadd, ?ssub, ?smul, ?smulh, ?sdiv, ?srem⟩,
    fun o => ⟨?sand, ?sor, ?sxor, ?sshl, ?sshr, ?ssar, ?smin, ?smax, ?scmp, ?ssel⟩⟩
  case sadd => exact scalarGives2 rfl (fun _ => rfl) (sAdd_eq _)
  case ssub => exact scalarGives2 rfl (fun _ => rfl) (sSub_eq _)
  case smul => exact scalarGives2 rfl (fun _ => rfl) (sMul_eq _)
  case smulh => exact scalarGives2 rfl (fun _ => rfl) fun a b => congrArg (·, 0) (sMulh_eq _ a b)
  case sdiv => exact scalarGives2 rfl (fun _ => rfl) (sDiv_eq _)
  case srem => exact scalarGives2 rfl (fun _ => rfl) (sRem_eq _)
  case sand | sor | sxor => exact scalarGives2 rfl (fun _ => rfl) fun _ _ => rfl
  case sshl => exact scalarGives2 rfl (fun _ => rfl) fun a b => congrArg (·, 0) (sShl_eq a b)
  case sshr => exact scalarGives2 rfl (fun _ => rfl) fun a b => congrArg (·, 0) (sShr_eq a b)
  case ssar => exact scalarGives2 rfl (fun _ => rfl) fun a b => congrArg (·, 0) (sSar_eq a b)
  case smin => exact scalarGives2 rfl (fun _ => rfl) fun a b => congrArg (·, 0) (sMin_eq _ a b)
  case smax => exact scalarGives2 rfl (fun _ => rfl) fun a b => congrArg (·, 0) (sMax_eq _ a b)
  case scmp =>
    refine scalarGives2 rfl (fun _ => rfl) fun a b => ?_
    rw [← condI_holds]
    rfl
  case ssel =>
    refine scalarGives3 rfl (fun _ => rfl) fun a b e => ?_
    simp only [bne_iff_ne]

/-- Settles O2, in the same way; SMOVH and SBFI have their destination as a source. -/
theorem scalarMoves : Obligations.ScalarMoves := by
  unfold Obligations.ScalarMoves
  refine ⟨fun o => ⟨?smov, ?spopc, ?sclz⟩, fun o => ⟨?saddi, ?sbfe, ?sbfi⟩, fun o => ⟨?smovi, ?smovh⟩⟩
  case smov => exact scalarGives1 rfl (fun _ => rfl) fun _ => rfl
  case spopc => exact scalarGives1 rfl (fun _ => rfl) fun a => by rw [popCount_eq]
  case sclz => exact scalarGives1 rfl (fun _ => rfl) fun a => by rw [leadZeros_eq]
  case saddi =>
    refine scalarGives1 rfl (fun _ => rfl) fun a => ?_
    rw [sAdd_eq, BitVec.toInt_signExtend_of_le (by decide)]
    rfl
  case sbfe => exact scalarGives1 rfl (fun _ => rfl) fun a => by rw [fieldGet_eq _ _ _ _ (Nat.succ_pos _)]; rfl
  case sbfi => exact scalarGives2 rfl (fun _ => rfl) fun d a => by rw [fieldPut_eq _ _ _ _ (Nat.succ_pos _)]
  case smovi => exact scalarGives0 rfl (fun _ => rfl) fun _ _ => rfl
  case smovh => exact scalarGives1 rfl (fun _ => rfl) fun _ => rfl

end Sys2Proof.Machine
end

section
/-! Control transfers (O21): where a target is refused, what a transfer makes of the clause that takes it, and the death that begins with the last lane's
EXIT. -/

namespace Sys2Proof.Machine

/-! Fields of addresses -/

theorem bitsN_high_eq_zero (t : W64) : bitsN t 63 57 = 0 ↔ t.toNat < 2 ^ 57 := by
  have wide := t.isLt
  rw [bitsN, BitVec.extractLsb'_toNat, Nat.shiftRight_eq_div_pow]
  omega

theorem bitsN_low3 (t : W64) : bitsN t 2 0 = t.toNat % 8 := by
  rw [bitsN, BitVec.extractLsb'_toNat, Nat.shiftRight_eq_div_pow]
  omega

/-! Targets (R210, R232) -/

section
variable {t : W64}

theorem badTarget_far (far : 2 ^ 57 ≤ t.toNat) (aligned : Bool) : badTarget t aligned = some .space := by
  rw [badTarget, if_pos fun low => absurd ((bitsN_high_eq_zero t).mp low) (not_lt.mpr far)]

theorem badTarget_near (near : t.toNat < 2 ^ 57) : badTarget t false = none := by
  rw [badTarget, if_neg (not_not.mpr ((bitsN_high_eq_zero t).mpr near)), Bool.false_and, if_neg Bool.false_ne_true]

theorem badTarget_register (near : t.toNat < 2 ^ 57) : badTarget t true = if t.toNat % 8 = 0 then none else some .misalign := by
  rw [badTarget, if_neg (not_not.mpr ((bitsN_high_eq_zero t).mpr near)), bitsN_low3]
  by_cases aligned : t.toNat % 8 = 0 <;> simp [aligned]

end

/-! The clause that takes a transfer -/

section
variable {i : Instr} {s m : State} {c : Ctx}

/-- A transfer that is performed is its clause's last word (R225, test 2). -/
theorem Performs.last_of_transfer (h : Performs i s c m) (transfer : (view i).map View.transfer = some true) : c.cl.count ≤ c.cl.pos := by
  have passes := h.passes
  rw [h.row] at transfer
  have transfers : c.view.transfer = true := Option.some.inj transfer
  by_contra early
  have placeBad : (c.cl.pos != c.cl.count) = true := bne_iff_ne.mpr (by omega)
  have fate : encodingFate i c.view c.cl = some .illegal := by
    simp [encodingFate, transfers, placeBad]
  rw [wordFate, fate] at passes
  exact Option.some_ne_none _ passes

/-- A state that touches neither the clause nor its place, as it is and once the clause has taken a transfer (R232). -/
theorem Performs.leaves_self (h : Performs i s c m) : Leaves c m m c.cl.taken c.cl.target :=
  ⟨h.lt', (setNth_getElem? _ _ _ h.clause).symm, ⟨rfl, rfl, rfl⟩, ⟨rfl, rfl⟩, rfl⟩

theorem Leaves.goTo {x : State} (h : Leaves c m x c.cl.taken c.cl.target) (clause : (m.grp c.gi).clauses[c.k]? = some c.cl) (t : W64) :
    Leaves c m (c.goTo x t) c.act t := by
  obtain ⟨index, clauses, place, home, quarters⟩ := h
  have group : (c.goTo x t).grp c.gi = _ := State.grp_modGrp_self _ _ index
  have at_ : (x.grp c.gi).clauses[c.k]? = some c.cl := by
    rw [clauses]
    exact getElem?_setNth_self _ _ _ (List.getElem?_eq_some_iff.mp clause).1
  refine ⟨by rw [Ctx.goTo, State.modGrp_length]; exact index, ?_, by rw [group]; exact place, by rw [group]; exact home, quarters⟩
  rw [group]
  show modifyNth _ _ _ = _
  rw [modifyNth_of_getElem? _ _ _ _ at_, clauses, setNth_setNth]

theorem Performs.goTo_proceeds {x : State} (h : Performs i s c m) (transfer : (view i).map View.transfer = some true)
    (leaves : Leaves c m x c.cl.taken c.cl.target) (t : W64) : Proceeds c m (c.close (.done (c.goTo x t))) c.act t :=
  Ctx.close_done_proceeds h.clause (leaves.goTo h.clause t) fun early => absurd early (not_lt.mpr (h.last_of_transfer transfer))

/-- A transfer whose target passes its tests. -/
theorem Performs.transfers (h : Performs i s c m) (transfer : (view i).map View.transfer = some true) {body : Ctx → State → Res} {t : W64}
    (taken : body c m = .done (c.goTo m t)) : ∃ u, issueWord i body s = .next u ∧ RegsKept c.gi m u ∧
      Changes c.gi m u (fun g => g) (fun s => s) ∧ Proceeds c m u c.act t := by
  refine ⟨_, issueWord_performs h body, ?_⟩
  rw [taken]
  have leaves := h.leaves_self.goTo h.clause t
  exact ⟨Ctx.close_done_kept leaves.index (.modGrp h.lt' _ ⟨rfl, rfl, rfl, rfl, rfl⟩), Ctx.close_done_changes leaves.index (.modGrp h.lt' _ _ rfl),
    h.goTo_proceeds transfer h.leaves_self t⟩

/-- What a transfer to t of a register answers: a trap where its tests fail, SPACE before MISALIGN. -/
theorem Performs.transfersToRegister (h : Performs i s c m) (transfer : (view i).map View.transfer = some true) {a : RegCode} (covered : c.covered m a)
    (e : ∀ s, exec i s = issueWord i (fun c s => let a := c.uni s a; c.transfer a.2 a.1 true) s) :
    let t := (m.grp c.gi).scalarOf c.lane a
    (t.toNat < 2 ^ 57 → t.toNat % 8 = 0 → ∃ u, exec i s = .next u ∧
      RegsKept c.gi m u ∧ Changes c.gi m u (fun g => g) (fun s => s) ∧ Proceeds c m u c.act t) ∧
    (2 ^ 57 ≤ t.toNat → exec i s = .next (m.trapWord c .space 0 t)) ∧
    (t.toNat < 2 ^ 57 → t.toNat % 8 ≠ 0 → exec i s = .next (m.trapWord c .misalign 0 t)) := by
  intro t
  rw [e]
  refine ⟨fun near aligned => h.transfers transfer ?_, fun far => h.traps ?_, fun near odd => h.traps ?_⟩
  all_goals simp only [Ctx.uni_covered covered, Ctx.transfer]
  · rw [badTarget_register near, if_pos aligned]
  · rw [badTarget_far far]
  · rw [badTarget_register near, if_neg odd]

/-! CALL -/

/-- A scalar result stands in every state that differs from one in which it stands by the group's place in its program alone. -/
theorem ScalarResult.congr {lat : Nat} {t u : State} {d : RegCode} {x : W64} {f : Flags} (h : ScalarResult c lat s m t d x f)
    (kept : RegsKept c.gi t u) (others : (u.grp c.gi).others = (t.grp c.gi).others) (elsewhere : Elsewhere c.gi t u) :
    ScalarResult c lat s m u d x f := by
  obtain ⟨value, readable, raises, flags, vectors, others', elsewhere'⟩ := h
  exact ⟨kept.s.trans value, by rwa [kept.pendw], kept.pendf.trans raises, kept.flags.trans flags, kept.v.trans vectors, others.trans others',
    elsewhere'.trans elsewhere⟩

/-- What a done word leaves depends on its description's registers, the rest of its group and its surroundings, and not on the clause's transfer. -/
theorem ScalarResult.goTo {lat : Nat} {x : State} {d : RegCode} {v : W64} {f : Flags} (index : c.gi < x.groups.length)
    (h : ScalarResult c lat s m (c.close (.done x)) d v f) (t : W64) : ScalarResult c lat s m (c.close (.done (c.goTo x t))) d v f := by
  have plain : (c.close (.done x)).grp c.gi = _ := (c.close_done_grp x c.gi).trans (if_pos ⟨rfl, index⟩)
  have taken : (c.close (.done (c.goTo x t))).grp c.gi = _ :=
    (c.close_done_grp (c.goTo x t) c.gi).trans (if_pos ⟨rfl, by rw [Ctx.goTo, State.modGrp_length]; exact index⟩)
  have group : (c.goTo x t).grp c.gi = _ := x.grp_modGrp_self _ index
  have regs := (x.grp c.gi).wordDone_regs c.k c.t c.view.lay.anc.stall.toNat
  have regs' := ((c.goTo x t).grp c.gi).wordDone_regs c.k c.t c.view.lay.anc.stall.toNat
  rw [← plain] at regs
  rw [← taken, group] at regs'
  obtain ⟨v1, s1, f1, w1, p1⟩ := regs
  obtain ⟨v2, s2, f2, w2, p2⟩ := regs'
  refine h.congr ⟨v2.trans v1.symm, s2.trans s1.symm, f2.trans f1.symm, w2.trans w1.symm, p2.trans p1.symm⟩ ?_ ?_
  · rw [taken, plain, Group.wordDone_others, Group.wordDone_others, group]
    rfl
  · have e := c.close_done_elsewhere x
    have e' := c.close_done_elsewhere (c.goTo x t)
    have e0 : Elsewhere c.gi x (c.goTo x t) := Elsewhere.modGrp ..
    have all := e0.trans e'
    exact ⟨all.1.trans e.1.symm, fun j hj => (all.2.1 j hj).trans (e.2.1 j hj).symm, fun p => (all.2.2 p).trans (e.2.2 p).symm⟩

theorem Performs.leaves_putS (h : Performs i s c m) {d : RegCode} (x : W64) (inTurn : c.inTurn m d) :
    Leaves c m (c.putS m d x) c.cl.taken c.cl.target := by
  obtain ⟨elsewhere, length, group⟩ := c.putS_inTurn x inTurn h.lt'
  have here : (setNth (m.grp c.gi).clauses c.k c.cl) = (m.grp c.gi).clauses := setNth_getElem? _ _ _ h.clause
  have cores : (c.putS m d x).cores = m.cores := by
    unfold Ctx.putS State.fixedS
    dsimp only
    split
    · rfl
    · show (if _ then _ else _ : Bool × State).2.cores = _
      split <;> rfl
  refine ⟨by rw [length]; exact h.lt', ?_, ?_, ?_, by rw [State.core, cores]; rfl⟩
  all_goals
    rw [group]
    split
  exacts [here.symm, here.symm, ⟨rfl, rfl, rfl⟩, ⟨rfl, rfl, rfl⟩, ⟨rfl, rfl⟩, ⟨rfl, rfl⟩]

theorem Performs.calls {o : BOps} (h : Performs (.call o) s c m) (near : (c.branch o.off).toNat < 2 ^ 57) (inTurn : c.inTurn m (0xC0 + o.mod)) :
    ∃ t, exec (.call o) s = .next t ∧ ScalarResult c 2 s m t (0xC0 + o.mod) c.cl.next 0 ∧ Proceeds c m t c.act (c.branch o.off) := by
  have leaves := h.leaves_putS c.cl.next inTurn
  have result := h.scalar c.cl.next 0 inTurn
  rw [h.latency rfl] at result
  refine ⟨_, issueWord_performs h _, ?_⟩
  rw [badTarget_near near]
  exact ⟨ScalarResult.goTo leaves.index result _, h.goTo_proceeds rfl leaves _⟩

/-! EXIT (R234) -/

theorem Performs.exits {o : VOps} (h : Performs (.exit o) s c m) (covered : c.covered m o.a) :
    let code := ((m.grp c.gi).scalarOf c.lane o.a).setWidth 32
    ∃ t, exec (.exit o) s = .next t ∧ Does c m t (fun g => g.exitLanes c.act code) (fun s => s) :=
  h.does (f := fun g => g.exitLanes c.act (((m.grp c.gi).scalarOf c.lane o.a).setWidth 32)) (by simp only [Ctx.uni_covered covered]) rfl
    fun _ => ⟨rfl, rfl, rfl, rfl, rfl, rfl, rfl, rfl, rfl, rfl, rfl⟩

theorem Group.exitLanes_eq (g : Group) (act : BitVec 64) (code : BitVec 32) : g.exitLanes act code =
    let live := g.live &&& ~~~act
    { g with live := live, exitCode := code, dying := decide (live = 0), accept := g.accept && decide (live ≠ 0) } := by
  unfold Group.exitLanes
  dsimp only
  rw [bne]
  congr 1
  rw [decide_not]
  rfl

end

/-- Settles O21: NOP changes nothing, a transfer whose target passes is taken by its clause, and EXIT takes its lanes from the group. -/
theorem transfers : Obligations.Transfers := by
  unfold Obligations.Transfers
  refine ⟨⟨fun o s c m h => h.doesNothing rfl, fun o s c m => ⟨fun h near => ?bra, fun h far => ?_, fun h near inTurn => h.calls near inTurn, fun h far => ?_⟩,
    fun o i hi s c m h covered => ?register⟩, fun o s c m h covered => ?exit⟩
  case bra => exact h.transfers rfl (by rw [Ctx.transfer, badTarget_near (by exact near)]; rfl)
  case register =>
    simp only [List.mem_cons, List.not_mem_nil, or_false] at hi
    rcases hi with rfl | rfl
    · exact h.transfersToRegister rfl covered fun _ => rfl
    · exact h.transfersToRegister rfl covered fun _ => rfl
  case exit =>
    obtain ⟨t, runs, kept, changes, goes⟩ := h.exits covered
    exact ⟨t, runs, kept, goes, by simpa only [Group.exitLanes_eq] using changes⟩
  · exact h.traps (by rw [Ctx.transfer, badTarget_far (by exact far)]; rfl)
  · exact h.traps (by rw [badTarget_far (by exact far)]; rfl)

end Sys2Proof.Machine
end

section
/-! What a write of the device leaves of a group that none can wake: all but hits of watches, findings and inherited priority; of every core its
quarters; and escrow. It follows `Steady` from a write to an event's record, and ends with what inherited priorities leave. -/

namespace Sys2Proof.Machine

/-- Whether a write of the device may wake a group: it is suspended on a till or a monitor (R35, R337). -/
def Group.wakeable (g : Group) : Bool :=
  g.st == .suspended && (match g.cond with
    | .till .. | .monitor .. => true
    | _ => false)

/-- A group without hits of watches, findings and inherited priority. -/
def Group.unmarked (g : Group) : Group := { g with watch := [], pages := [], prioInh := 0 }

theorem Group.wakeable_unmarked (g : Group) : g.unmarked.wakeable = g.wakeable := rfl

/-- A write of the device, or several, from s to t. -/
structure Undisturbed (s t : State) : Prop where
  length : t.groups.length = s.groups.length
  quarters : ∀ p, (t.core p).qtr = (s.core p).qtr
  escrow : t.escrow = s.escrow
  group : ∀ j, (s.grp j).wakeable = false → (t.grp j).unmarked = (s.grp j).unmarked

variable {s t u : State}

theorem Undisturbed.refl (s : State) : Undisturbed s s := ⟨rfl, fun _ => rfl, rfl, fun _ _ => rfl⟩

theorem Undisturbed.trans (h : Undisturbed s t) (k : Undisturbed t u) : Undisturbed s u :=
  ⟨k.length.trans h.length, fun p => (k.quarters p).trans (h.quarters p), k.escrow.trans h.escrow, fun j hj => by
    have same := h.group j hj
    have awake : (t.grp j).wakeable = false := by rw [← Group.wakeable_unmarked, same, Group.wakeable_unmarked, hj]
    exact (k.group j awake).trans same⟩

/-- A state with the groups, and the quarters, of one that is reached. -/
theorem Undisturbed.regroup (h : Undisturbed s t) (e : u.groups = t.groups := by rfl) (q : ∀ p, (u.core p).qtr = (t.core p).qtr := by intro; rfl)
    (x : u.escrow = t.escrow := by rfl) : Undisturbed s u :=
  h.trans ⟨congrArg List.length e, q, x, fun j _ => congrArg (fun gs : List Group => (gs.getD j Group.blank).unmarked) e⟩

theorem Undisturbed.modGrp (h : Undisturbed s t) {gi : Nat} {f : Group → Group} (hf : ∀ g, (f g).unmarked = g.unmarked) :
    Undisturbed s (t.modGrp gi f) :=
  h.trans ⟨State.modGrp_length .., fun _ => rfl, rfl, fun j _ => by
    rw [State.grp_modGrp]
    split
    · exact hf _
    · rfl⟩

/-- A group that a write may wake is no concern. -/
theorem Undisturbed.wake (h : Undisturbed s t) {gi : Nat} (wakeable : (s.grp gi).wakeable = true) : Undisturbed s (t.wake gi false) := by
  refine ⟨(State.modGrp_length ..).trans h.length, h.quarters, h.escrow, fun j hj => ?_⟩
  show ((t.modGrp gi _).grp j).unmarked = _
  rw [State.grp_modGrp_ne _ _ ?_, h.group j hj]
  rintro rfl
  rw [wakeable] at hj
  cases hj

theorem Undisturbed.ite {p : Prop} [Decidable p] (h : Undisturbed s t) (k : Undisturbed s u) : Undisturbed s (if p then t else u) := by
  split
  · exact h
  · exact k

theorem Undisturbed.foldl {α : Type} {f : State → α → State} {l : List α} (h : Undisturbed s t)
    (hf : ∀ u, ∀ a ∈ l, Undisturbed u (f u a)) : Undisturbed s (l.foldl f t) :=
  List.foldlRecOn (motive := fun u => Undisturbed s u) l f h fun u hu a ha => hu.trans (hf u a ha)

/-! Watches and wakes -/

theorem Undisturbed.evalTills (h : Undisturbed s t) {line : Nat} : Undisturbed s (t.evalTills line) := by
  refine h.trans ?_
  unfold State.evalTills
  refine List.foldlRecOn (motive := fun u => Undisturbed t u) _ _ (.refl t) fun u hu gi hgi => ?_
  obtain ⟨-, sleeps⟩ := State.mem_grpsWhere.mp hgi
  have wakeable : (t.grp gi).wakeable = true := by
    unfold Group.wakeable
    revert sleeps
    cases (t.grp gi).cond <;> simp +contextual
  split
  · exact .ite (hu.wake wakeable) hu
  · exact hu

theorem Undisturbed.wakeMonitors (h : Undisturbed s t) {pa : Nat} : Undisturbed s (t.wakeMonitors pa) := by
  refine h.trans ?_
  unfold State.wakeMonitors
  refine List.foldlRecOn (motive := fun u => Undisturbed t u) _ _ (.refl t) fun u hu gi hgi => ?_
  obtain ⟨-, sleeps⟩ := State.mem_grpsWhere.mp hgi
  have wakeable : (t.grp gi).wakeable = true := by
    unfold Group.wakeable
    revert sleeps
    cases (t.grp gi).cond <;> simp +contextual
  exact hu.wake wakeable

theorem Undisturbed.hitWrite (h : Undisturbed s t) {layer : Nat} {by_ : Option Nat} {space : Space} {sector : Nat} {d : List (Option Byte)} :
    Undisturbed s (t.hitWrite layer by_ space sector d) := by
  unfold State.hitWrite
  exact h.foldl fun u _ _ => .ite ((Undisturbed.refl u).modGrp fun _ => rfl) (.refl u)

/-! Writes -/

theorem Undisturbed.landAt (h : Undisturbed s t) {sector : Nat} {d : List (Option Byte)} : Undisturbed s (t.landAt sector d) := by
  unfold State.landAt
  split
  · exact h.regroup
  · refine .ite h (Undisturbed.wakeMonitors ?_)
    exact h.hitWrite.regroup

/-- Cores that change beside their quarters leave these. -/
theorem State.core_map_qtr (s : State) {f : Nat × Core → Nat × Core} (keeps : ∀ c, (f c).1 = c.1 ∧ (f c).2.qtr = c.2.qtr) (p : Nat) :
    (State.core { s with cores := s.cores.map f } p).qtr = (s.core p).qtr := by
  unfold State.core
  induction s.cores with
  | nil => rfl
  | cons c cs ih =>
    obtain ⟨place, quarters⟩ := keeps c
    simp only [List.map_cons, lookupD, place]
    split
    · exact quarters
    · exact ih

theorem Undisturbed.egressFenced (h : Undisturbed s t) {e : Egress} : Undisturbed s (t.egressFenced e) := by
  have owed : Undisturbed s (match e.owner with
      | some (gi, op) => t.modGrp gi (fun g => g.owePage op e.va (t.turnedCode e.sector 1))
      | none => t) := by
    split
    · exact h.modGrp fun _ => rfl
    · exact h
  exact .ite owed (owed.regroup rfl (State.core_map_qtr _ fun _ => ⟨rfl, rfl⟩))

theorem Undisturbed.sendEgress (h : Undisturbed s t) {e : Egress} : Undisturbed s (t.sendEgress e) := .ite h (.ite h.egressFenced h.landAt)

theorem Undisturbed.flushSector (h : Undisturbed s t) {sector : Nat} : Undisturbed s (t.flushSector sector) := by
  unfold State.flushSector State.sendEach
  exact h.foldl fun u _ _ => .ite (Undisturbed.regroup (Undisturbed.refl u)).sendEgress (.refl u)

theorem Undisturbed.devWrite (h : Undisturbed s t) {space : Space} {sector : Nat} {d : List (Option Byte)} {by_ : Option Nat} {sys : Bool} :
    Undisturbed s (t.devWrite space sector d by_ sys) := by
  unfold State.devWrite
  refine .ite h ?_
  cases space with
  | tile => exact Undisturbed.evalTills h.hitWrite.regroup
  | glob =>
    have logged : Undisturbed s ((t.hitWrite 0 by_ .glob sector d).logWords sector d) := h.hitWrite.regroup
    exact Undisturbed.wakeMonitors (.ite logged.regroup (.ite logged.flushSector.landAt logged.regroup))

theorem Undisturbed.devWriteBytes (h : Undisturbed s t) {space : Space} {p : Nat} {bs : List Byte} {by_ : Option Nat} {sys : Bool} :
    Undisturbed s (t.devWriteBytes space p bs by_ sys) := h.foldl fun u _ _ => (Undisturbed.refl u).devWrite

theorem Undisturbed.remember (h : Undisturbed s t) (mem : Memory) (keys : List (Nat × Nat)) : Undisturbed s { t with mem := mem, cxlKeys := keys } := h.regroup

theorem Undisturbed.rekey (h : Undisturbed s t) {func : Nat} {space : Space} {ps : List Nat} : Undisturbed s (t.rekey func space ps) := by
  unfold State.rekey
  split
  · exact h
  · refine h.foldl fun u b _ => ?_
    unfold State.rekeyBlock
    split
    · exact (Undisturbed.refl u).regroup
    next f _ =>
      have flushed : Undisturbed u (u.flushSector (sectorOf (16 * b))) := (Undisturbed.refl u).flushSector
      exact .ite (.refl u) (flushed.remember ..)

/-! Translations and records of events -/

theorem Undisturbed.finish (h : Undisturbed s t) {die func pa access : Nat} {w x : Bool} {group : Option Nat} :
    Undisturbed s (t.finish die func pa access w x group).2 := by
  have asked : Undisturbed s (t.askAts die func pa access group) := .ite h h.regroup
  unfold State.finish
  dsimp only
  split
  · exact h
  split
  · exact h
  split
  · split <;> exact h
  · split <;> exact h
  · split
    · exact h
    split
    · exact h.regroup
    · exact asked
  · exact h

theorem Undisturbed.hubTr (h : Undisturbed s t) {die func va access : Nat} : Undisturbed s (t.hubTr die func va access).2 := by
  unfold State.hubTr
  split
  · exact h
  · split
    · exact h
    · exact h
    · exact Undisturbed.finish (h.foldl fun u _ _ => (Undisturbed.refl u).devWriteBytes)

theorem Undisturbed.hubPut (h : Undisturbed s t) {func va : Nat} {bs : List Byte} {sys : Bool} : Undisturbed s (t.hubPut func va bs sys).state := by
  have found := h.hubTr (die := 0) (func := func) (va := va) (access := accWrite)
  unfold State.hubPut
  split
  next pa s1 e =>
    rw [e] at found
    split
    · exact found
    split
    · exact found
    · exact found.rekey.devWriteBytes
  next s1 e =>
    rw [e] at found
    exact found
  next s1 _ _ e =>
    rw [e] at found
    exact found

theorem Undisturbed.hubGet (h : Undisturbed s t) {func va n : Nat} {b : List Byte} (e : t.hubGet func va n = .ok (b, u)) : Undisturbed s u := by
  have found := h.hubTr (die := 0) (func := func) (va := va) (access := accRead)
  unfold State.hubGet at e
  split at e
  next k =>
    rw [k] at found
    split at e
    · cases e
      exact found
    · cases e
  · cases e

theorem Undisturbed.hubPost (h : Undisturbed s t) {func va : Nat} {bs : List Byte} : Undisturbed s (t.hubPost func va bs) := by
  have put := h.hubPut (func := func) (va := va) (bs := bs) (sys := true)
  unfold State.hubPost
  split <;> rename_i e <;> rw [e] at put
  · exact put
  · exact put.regroup
  · exact put

theorem Undisturbed.writeRecord (h : Undisturbed s t) {e : Event} : Undisturbed s (t.writeRecord e).2 := by
  unfold State.writeRecord
  dsimp only
  split
  · exact h
  split
  · exact h.regroup
  · exact h
  next cb s0 got =>
    have read := h.hubGet got
    split
    · exact h
    have first := read.hubPut (func := e.func) (va := e.ring + 0x100 + 64 * ((s0.prod e.func + 1) % e.size))
      (bs := recordBytes e ((s0.prod e.func + 1) % 2 ^ 32)) (sys := true)
    split
    next s1 put =>
      rw [put] at first
      have second : Undisturbed s (s1.hubPut e.func e.ring (bytesLE 8 (s0.prod e.func + 1)) true).state := Undisturbed.hubPut first
      split
      next s2 put2 =>
        rw [put2] at second
        dsimp only
        split <;> exact Undisturbed.regroup second
      · exact h.regroup
      · exact h
    · exact h.regroup
    · exact h

theorem Undisturbed.flushList (h : Undisturbed s t) {es : List Event} : Undisturbed s (t.flushList es) := by
  induction es generalizing t with
  | nil => exact h
  | cons e es ih =>
    have written := h.writeRecord (e := e)
    unfold State.flushList
    dsimp only
    split
    · exact ih h.regroup
    · split <;> rename_i k <;> rw [k] at written
      · exact ih (.ite written.regroup written)
      · exact ih written.regroup

theorem Undisturbed.queueEvent (h : Undisturbed s t) {e : Event} : Undisturbed s (t.queueEvent e) := by
  unfold State.queueEvent State.flushEvents
  exact .ite (Undisturbed.hubPost h.regroup) (Undisturbed.flushList h.regroup)

theorem Undisturbed.raiseLog (h : Undisturbed s t) {func cls : Nat} {payload : List W64} {group : W64} {waits : Option Nat} :
    Undisturbed s (t.raiseLog func cls payload group waits) := .ite h h.queueEvent

/-! Inherited priorities (R51, R52) -/

/-- A state with inherited priorities of its groups replaced. -/
def State.reprioritised (s : State) (f : Group → Nat) : State := { s with groups := s.groups.map (fun g => { g with prioInh := f g }) }

theorem State.grp_reprioritised (s : State) (f : Group → Nat) (j : Nat) :
    ∃ n, (s.reprioritised f).grp j = { s.grp j with prioInh := n } := by
  simp only [State.grp, State.reprioritised, List.getD_eq_getElem?_getD, List.getElem?_map]
  cases s.groups[j]? with
  | none => exact ⟨0, rfl⟩
  | some g => exact ⟨f g, rfl⟩

theorem Undisturbed.reprioritised (h : Undisturbed s t) (f : Group → Nat) : Undisturbed s (t.reprioritised f) :=
  h.trans ⟨List.length_map .., fun _ => rfl, rfl, fun j _ => by
    obtain ⟨n, e⟩ := t.grp_reprioritised f j
    rw [e]
    rfl⟩

theorem State.inheritPass_eq (s : State) (n : Nat) : ∃ f, s.inheritPass n = s.reprioritised f := by
  induction n generalizing s with
  | zero => exact ⟨Group.prioInh, by simp [State.inheritPass, State.reprioritised]⟩
  | succ n ih =>
    let f := fun (x : Group) => if x.alive then s.inherited x else x.prioInh
    have once : s.groups.map (fun x => if x.alive then { x with prioInh := s.inherited x } else x) = s.groups.map (fun x => { x with prioInh := f x }) :=
      List.map_congr_left fun x _ => by by_cases h : x.alive <;> simp [f, h]
    obtain ⟨f', e⟩ := ih (s.reprioritised f)
    refine ⟨fun g => f' { g with prioInh := f g }, ?_⟩
    rw [State.inheritPass, once]
    refine e.trans ?_
    simp [State.reprioritised]

/-- Priorities inherited anew: but for them, what the writes into saved groups' images leave. -/
theorem State.inherit_spec (s : State) : ∃ f, let u := s.reprioritised f
    Steady u s.inherit ∧ Undisturbed u s.inherit ∧ s.inherit.hub = s.hub := by
  obtain ⟨f, e⟩ := (s.reprioritised fun _ => 0).inheritPass_eq (s.groups.length + 1)
  have pass : (s.reprioritised fun _ => 0).inheritPass (s.groups.length + 1) = s.reprioritised fun g => f { g with prioInh := 0 } := by
    rw [e]
    simp [State.reprioritised]
  refine ⟨fun g => f { g with prioInh := 0 }, ?_⟩
  intro u
  unfold State.inherit
  dsimp only
  rw [show (State.inheritPass { s with groups := s.groups.map (fun (x : Group) => { x with prioInh := 0 }) } (s.groups.length + 1)) = u from pass]
  refine ⟨(Steady.refl u).foldl fun t _ _ => .ite (Steady.refl t).devWriteBytes (.refl t),
    (Undisturbed.refl u).foldl fun t _ _ => .ite (Undisturbed.refl t).devWriteBytes (.refl t), ?_⟩
  refine List.foldlRecOn (motive := fun (t : State) => t.hub = s.hub) _ _ rfl fun t ht _ _ => ?_
  split
  · exact (WriteLeaves.hub (gi := 0) (State.devWriteBytes_leaves ..)).trans ht
  · exact ht

/-! Registers and place of a group -/

/-- A group's registers, its results under way, its place in its program, and its quarter. -/
def Group.anchor (g : Group) : Group :=
  { Group.blank with
    v := g.v, s := g.s, flags := g.flags, pendw := g.pendw, pendf := g.pendf, clauses := g.clauses, pc := g.pc, rpos := g.rpos, emark := g.emark
    pkg := g.pkg, qtr := g.qtr }

theorem Steady.anchor (h : Steady s t) (j : Nat) : (t.grp j).anchor = (s.grp j).anchor := (congrArg Group.anchor (h.group j) :)

theorem RegsKept.of_anchor {gi : Nat} (h : (t.grp gi).anchor = (s.grp gi).anchor) : RegsKept gi s t :=
  ⟨(congrArg Group.v h :), (congrArg Group.s h :), (congrArg Group.flags h :), (congrArg Group.pendw h :), (congrArg Group.pendf h :)⟩

theorem Steady.regsKept (h : Steady s t) (gi : Nat) : RegsKept gi s t := .of_anchor (h.anchor gi)

/-- What a word's description leaves where its group keeps its place. -/
theorem Performs.leaves_anchored {i : Instr} {m x : State} {c : Ctx} (h : Performs i s c m) (length : x.groups.length = m.groups.length)
    (anchored : (x.grp c.gi).anchor = (m.grp c.gi).anchor) (quarters : ∀ p, (x.core p).qtr = (m.core p).qtr) :
    Leaves c m x c.cl.taken c.cl.target :=
  ⟨by rw [length]; exact h.lt', (congrArg Group.clauses anchored :).trans (setNth_getElem? _ _ _ h.clause).symm,
    ⟨(congrArg Group.pc anchored :), (congrArg Group.rpos anchored :), (congrArg Group.emark anchored :)⟩,
    ⟨(congrArg Group.pkg anchored :), (congrArg Group.qtr anchored :)⟩, quarters _⟩

/-- A word whose group keeps its registers and its place, whatever else its description does, passes its place. -/
theorem Performs.passes_anchored {i : Instr} {m x : State} {c : Ctx} (h : Performs i s c m) (length : x.groups.length = m.groups.length)
    (anchored : (x.grp c.gi).anchor = (m.grp c.gi).anchor) (quarters : ∀ p, (x.core p).qtr = (m.core p).qtr) :
    RegsKept c.gi m (c.close (.done x)) ∧ Proceeds c m (c.close (.done x)) c.cl.taken c.cl.target := by
  have leaves := h.leaves_anchored length anchored quarters
  exact ⟨Ctx.close_done_kept leaves.index (.of_anchor anchored), Ctx.close_done_proceeds h.clause leaves fun _ => ⟨rfl, rfl⟩⟩

end Sys2Proof.Machine
end

section
/-! Own counters, mailboxes and special registers (O28): EVADD's counter, RDSR's word, and what each index of WRSR writes. -/

namespace Sys2Proof.Machine

theorem RegsKept.trans {gi : Nat} {s t u : State} (h : RegsKept gi s t) (k : RegsKept gi t u) : RegsKept gi s u :=
  ⟨k.v.trans h.v, k.s.trans h.s, k.flags.trans h.flags, k.pendw.trans h.pendw, k.pendf.trans h.pendf⟩

/-! EVADD -/

/-- A counter of a group that does not sleep grows, and no one wakes (R35). -/
theorem State.addCounter_awake {s : State} {gi : Nat} (index : gi < s.groups.length) (awake : (s.grp gi).st ≠ .suspended) (k : Nat) (v : W64) :
    s.addCounter gi k v = s.modGrp gi (fun g => { g with ctr := modifyNth (fun y => y + v) k g.ctr }) := by
  have st : ((s.modGrp gi (fun g => { g with ctr := modifyNth (fun y => y + v) k g.ctr })).grp gi).st = (s.grp gi).st := by
    rw [s.grp_modGrp_self _ index]
  unfold State.addCounter
  dsimp only
  split
  next asleep _ => exact absurd (st.symm.trans asleep) awake
  · rfl

/-! RDSR -/

theorem Group.gstat_lost (g : Group) : ({ g with blk := if g.blkLost then 0 else g.blk } : Group).gstat =
    BitVec.ofNat 64 ((if g.blkLost then 0 else g.blk) * 2 ^ 16 + g.wbase * 2 ^ 8 + (if g.ts then 4 else 0) + (if g.chk then 2 else 0) +
      (if g.mm then 1 else 0)) := rfl

/-! WRSR -/

/-- Fields of a special register that WRSR keeps. -/
theorem ofNat_low6 (x : W64) : BitVec.ofNat 64 (bitsN x 5 0) = x &&& 0x3F := by
  apply BitVec.eq_of_toNat_eq
  have wide := x.isLt
  have masked : (x &&& 0x3F).toNat = x.toNat % 2 ^ 6 := by
    rw [BitVec.toNat_and]
    exact Nat.and_two_pow_sub_one_eq_mod _ 6
  rw [masked, BitVec.toNat_ofNat, bitsN, BitVec.extractLsb'_toNat, Nat.shiftRight_eq_div_pow]
  omega

theorem ofNat_tbase (x : W64) : BitVec.ofNat 64 (8 * bitsN x 56 3) = x &&& 0x01FFFFFFFFFFFFF8 := by
  have shift : BitVec.ofNat 64 (8 * bitsN x 56 3) = (x.extractLsb' 3 54).setWidth 64 <<< 3 := by
    apply BitVec.eq_of_toNat_eq
    have narrow := (x.extractLsb' 3 54).isLt
    rw [BitVec.toNat_shiftLeft, BitVec.toNat_setWidth, BitVec.toNat_ofNat, Nat.shiftLeft_eq, show bitsN x 56 3 = (x.extractLsb' 3 54).toNat from rfl]
    omega
  have mask : (0x01FFFFFFFFFFFFF8 : W64) = (BitVec.allOnes 54).setWidth 64 <<< 3 := by decide
  rw [shift, mask]
  refine BitVec.eq_of_getLsbD_eq fun i small => ?_
  rw [BitVec.getLsbD_and, BitVec.getLsbD_shiftLeft, BitVec.getLsbD_shiftLeft, BitVec.getLsbD_setWidth, BitVec.getLsbD_setWidth, BitVec.getLsbD_allOnes,
    BitVec.getLsbD_extractLsb']
  by_cases low : i < 3
  · simp [low]
  · simp [low, small, show 3 + (i - 3) = i by omega, show i - 3 < 64 by omega, Bool.and_comm]

section
variable {i : Instr} {o : IOps} {s m : State} {c : Ctx}

/-- What stood before clock t's write of a special register of g, as the group then remembers it (R325, R339). -/
def Group.stoodBefore (g : Group) (t : Nat) : Option Was :=
  if g.was.any (fun w => w.clk == t) then g.was else some ⟨t, g.chk, g.flags, g.tbase, g.prioBase, g.prioInh⟩

theorem Group.keepWas_eq (g : Group) (t : Nat) : g.keepWas t = { g with was := g.stoodBefore t } := by
  unfold Group.keepWas Group.stoodBefore
  split <;> rfl

/-- WRSR's state as its write begins: what stood before is remembered. -/
def Ctx.remembers (c : Ctx) (m : State) : State := m.modGrp c.gi (fun g => g.keepWas c.t)

theorem Performs.grp_remembers (h : Performs i s c m) : (c.remembers m).grp c.gi = { m.grp c.gi with was := (m.grp c.gi).stoodBefore c.t } :=
  (m.grp_modGrp_self _ h.lt').trans (Group.keepWas_eq ..)

theorem Ctx.remembers_modGrp (c : Ctx) (m : State) (f : Group → Group) :
    (c.remembers m).modGrp c.gi f = m.modGrp c.gi (fun g => f { g with was := g.stoodBefore c.t }) := by
  simp only [Ctx.remembers, State.modGrp_modGrp, Group.keepWas_eq]

/-- The description of WRSR, where x is the value to write. -/
def Ctx.writeSpecial (c : Ctx) (m : State) (x : W64) (idx : Nat) : Res :=
  match idx with
  | 0 => .done ((c.remembers m).modGrp c.gi (fun g => { g with chk := bitAt x 1 }))
  | 1 => .done ((c.remembers m).modGrp c.gi (fun g => { g with flags := BitVec.ofNat 64 (bitsN x 5 0) }))
  | 2 => .done ((c.remembers m).modGrp c.gi (fun g => { g with tbase := BitVec.ofNat 64 (8 * bitsN x 56 3) }))
  | 7 =>
    if ((c.remembers m).grp c.gi).prioBase < bitsN x 2 0 then c.trap m .illegal
    else .done ((c.remembers m).modGrp c.gi (fun g => { g with prioBase := bitsN x 2 0 })).inherit
  | _ => c.trap m .illegal

theorem exec_wrsr (o : IOps) (s : State) :
    exec (.wrsr o) s = issueWord (.wrsr o) (fun c s => c.writeSpecial (c.uni s o.a).2 (c.uni s o.a).1 o.imm.toNat) s := rfl

/-- An index that WRSR does not write (R327). -/
theorem Ctx.writeSpecial_illegal (c : Ctx) (m : State) (x : W64) {idx : Nat} (h0 : idx ≠ 0) (h1 : idx ≠ 1) (h2 : idx ≠ 2) (h7 : idx ≠ 7) :
    c.writeSpecial m x idx = c.trap m .illegal := by
  unfold Ctx.writeSpecial
  split
  · exact absurd rfl h0
  · exact absurd rfl h1
  · exact absurd rfl h2
  · exact absurd rfl h7
  · rfl

/-- The base priority that WRSR lowers, with inherited priorities as they then are (R51): every other group's base priority stays. -/
theorem Performs.lowersPriority (h : Performs i s c m) (prio : Nat) :
    let t := c.close (.done ((c.remembers m).modGrp c.gi (fun g => { g with prioBase := prio })).inherit)
    RegsKept c.gi m t ∧ (t.grp c.gi).prioBase = prio ∧ (t.grp c.gi).was = (m.grp c.gi).stoodBefore c.t ∧
      ∀ j, j ≠ c.gi → (t.grp j).prioBase = (m.grp j).prioBase := by
  rw [Ctx.remembers_modGrp]
  generalize step : m.modGrp c.gi _ = w
  have index : c.gi < w.groups.length := by rw [← step, State.modGrp_length]; exact h.lt'
  have here : w.grp c.gi = { m.grp c.gi with was := (m.grp c.gi).stoodBefore c.t, prioBase := prio } := by
    rw [← step]; exact m.grp_modGrp_self _ h.lt'
  obtain ⟨f, steady, -, -⟩ := w.inherit_spec
  have index' : c.gi < w.inherit.groups.length := by
    rw [steady.length, State.reprioritised, List.length_map]
    exact index
  obtain ⟨-, others, -⟩ := c.close_done_elsewhere w.inherit
  have closed := (congrArg Group.others ((c.close_done_grp w.inherit c.gi).trans (if_pos ⟨rfl, index'⟩))).trans (Group.wordDone_others ..)
  obtain ⟨n, inherited⟩ := w.grp_reprioritised f c.gi
  have same := steady.group c.gi
  rw [inherited, here] at same
  have kept : RegsKept c.gi m (w.reprioritised f) := by
    constructor <;> rw [inherited, here]
  refine ⟨Ctx.close_done_kept index' (kept.trans (steady.regsKept _)), ?_, ?_, fun j ne => ?_⟩
  · exact (congrArg Group.prioBase closed :).trans (congrArg Group.prioBase same :)
  · exact (congrArg Group.was closed :).trans (congrArg Group.was same :)
  · obtain ⟨n, inherited⟩ := w.grp_reprioritised f j
    have stays : w.grp j = m.grp j := by rw [← step]; exact m.grp_modGrp_ne _ ne
    have same : (w.inherit.grp j).prioBase = ((w.reprioritised f).grp j).prioBase := (congrArg Group.prioBase (steady.group j) :)
    rw [others j ne, same, inherited, stays]

/-- FLAGS, as WRSR writes it. -/
theorem Performs.writesFlags (h : Performs i s c m) {f : Group → Group} {x : W64} {w : Group → Option Was}
    (e : f = fun g => { g with was := w g, flags := x }) :
    let t := c.close (.done (m.modGrp c.gi f))
    (t.grp c.gi).flags = x ∧ (t.grp c.gi).v = (m.grp c.gi).v ∧ (t.grp c.gi).s = (m.grp c.gi).s ∧
      Changes c.gi m t (fun g => { g with was := w (m.grp c.gi) }) (fun s => s) := by
  subst e
  intro t
  have index : c.gi < (m.modGrp c.gi fun g => { g with was := w g, flags := x }).groups.length := by rw [State.modGrp_length]; exact h.lt'
  have closed : t.grp c.gi = _ := (c.close_done_grp _ c.gi).trans (if_pos ⟨rfl, index⟩)
  obtain ⟨v, scalars, flags, -, -⟩ := ((m.modGrp c.gi fun g => { g with was := w g, flags := x }).grp c.gi).wordDone_regs c.k c.t c.view.lay.anc.stall.toNat
  rw [← closed, m.grp_modGrp_self _ h.lt'] at v scalars flags
  exact ⟨flags, v, scalars, Ctx.close_done_changes index (.modGrp h.lt' _ _ rfl)⟩

/-- WRSR by its index. -/
theorem Performs.writesSpecial (h : Performs (.wrsr o) s c m) (covered : c.covered m o.a) :
    let g := m.grp c.gi; let x := g.scalarOf c.lane o.a; let idx := o.imm.toNat
    let illegal := exec (.wrsr o) s = .next (m.trapWord c .illegal 0 c.cl.wordAddr)
    (idx = 0 → ∃ t, exec (.wrsr o) s = .next t ∧ Does c m t (fun y => { y with chk := x.getLsbD 1, was := g.stoodBefore c.t }) (fun s => s)) ∧
    (idx = 1 → ∃ t, exec (.wrsr o) s = .next t ∧ (t.grp c.gi).flags = x &&& 0x3F ∧ (t.grp c.gi).v = g.v ∧ (t.grp c.gi).s = g.s ∧
      Changes c.gi m t (fun y => { y with was := g.stoodBefore c.t }) (fun s => s)) ∧
    (idx = 2 → ∃ t, exec (.wrsr o) s = .next t ∧
      Does c m t (fun y => { y with tbase := x &&& 0x01FFFFFFFFFFFFF8, was := g.stoodBefore c.t }) (fun s => s)) ∧
    (idx = 7 → bitsN x 2 0 ≤ g.prioBase → ∃ t, exec (.wrsr o) s = .next t ∧ RegsKept c.gi m t ∧ (t.grp c.gi).prioBase = bitsN x 2 0 ∧
      (t.grp c.gi).was = g.stoodBefore c.t ∧ ∀ j, j ≠ c.gi → (t.grp j).prioBase = (m.grp j).prioBase) ∧
    (idx = 7 → g.prioBase < bitsN x 2 0 → illegal) ∧
    (idx ≠ 0 → idx ≠ 1 → idx ≠ 2 → idx ≠ 7 → illegal) := by
  simp only [exec_wrsr]
  refine ⟨fun e => h.does (f := fun g => { g with was := g.stoodBefore c.t, chk := bitAt ((m.grp c.gi).scalarOf c.lane o.a) 1 }) ?_ rfl
      fun _ => ⟨rfl, rfl, rfl, rfl, rfl, rfl, rfl, rfl, rfl, rfl, rfl⟩, fun e => ⟨_, issueWord_performs h _, ?_⟩, 
    fun e => h.does (f := fun g => { g with was := g.stoodBefore c.t, tbase := (m.grp c.gi).scalarOf c.lane o.a &&& 0x01FFFFFFFFFFFFF8 }) ?_ rfl
      fun _ => ⟨rfl, rfl, rfl, rfl, rfl, rfl, rfl, rfl, rfl, rfl, rfl⟩, fun e low => ⟨_, issueWord_performs h _, ?_⟩, fun e high => h.traps ?_,
    fun h0 h1 h2 h7 => h.traps ?_⟩
  all_goals rw [Ctx.uni_covered covered]
  · rw [e, Ctx.writeSpecial, Ctx.remembers_modGrp]
  · rw [e, Ctx.writeSpecial, Ctx.remembers_modGrp]
    rw [ofNat_low6]
    exact h.writesFlags rfl
  · rw [e, Ctx.writeSpecial, Ctx.remembers_modGrp, ofNat_tbase]
  · rw [e, Ctx.writeSpecial, if_neg (by rw [h.grp_remembers]; exact not_lt.mpr low)]
    exact h.lowersPriority _
  · rw [e, Ctx.writeSpecial, if_pos (by rw [h.grp_remembers]; exact high)]
    rfl
  · rw [Ctx.writeSpecial_illegal _ _ _ h0 h1 h2 h7]
    rfl

end

/-- Settles O28: the reads are scalar results, EVADD a change of its counter alone (`State.addCounter_awake`), and WRSR goes index by index
(`Performs.writesSpecial`). -/
theorem ownState : Obligations.OwnState := by
  unfold Obligations.OwnState
  refine ⟨fun o s c m => ⟨fun h inTurn => ?evrd, fun h covered awake => ?evadd⟩, fun o s c m h inTurn => ?rdsr, fun o s c m h covered => ?wrsr⟩
  case evrd => exact h.scalar_next (f := 0) rfl rfl inTurn
  case evadd =>
    refine h.does (f := fun g => { g with ctr := modifyNth (fun y => y + (m.grp c.gi).scalarOf c.lane o.a) (bitsN o.mod 3 0) g.ctr }) ?_ rfl
      fun _ => ⟨rfl, rfl, rfl, rfl, rfl, rfl, rfl, rfl, rfl, rfl, rfl⟩
    simp only [Ctx.uni_covered covered, State.addCounter_awake h.lt' awake]
  case rdsr =>
    obtain ⟨t, runs, result⟩ := h.scalar_next (f := 0) (body := fun c s => .done (c.putS s o.d (((s.grp c.gi).asAt c.t).status o.imm.toNat c.t)))
      rfl rfl inTurn
    exact ⟨t, runs, result⟩
  case wrsr => exact h.writesSpecial covered

end Sys2Proof.Machine
end

section
/-! Name requests and SPAWN (O29): what a name's translation leaves, the request that is posted with its operation, and SPAWN's record to read. -/

namespace Sys2Proof.Machine

/-- A state that differs in its cores alone, and there in no quarter. -/
def OnlyCores (m u : State) : Prop := (∃ cs, u = { m with cores := cs }) ∧ ∀ p, (u.core p).qtr = (m.core p).qtr

theorem OnlyCores.refl (m : State) : OnlyCores m m := ⟨⟨m.cores, rfl⟩, fun _ => rfl⟩

theorem OnlyCores.modCore (m : State) (pkg : Nat) {f : Core → Core} (keeps : ∀ c, (f c).qtr = c.qtr) : OnlyCores m (m.modCore pkg f) :=
  ⟨⟨_, rfl⟩, fun p => by
    rw [m.core_modCore pkg p]
    by_cases here : p = pkg
    · rw [if_pos here, keeps, here]
    · rw [if_neg here]⟩

/-- A name's translation changes the core's cache of names alone (R62). -/
theorem State.lookName_cores (m : State) (pkg func sclass : Nat) (name : W64) (op : NameOp) (again : Bool) :
    OnlyCores m (m.lookName pkg func sclass name op again).2 := by
  unfold State.lookName
  dsimp only
  split
  · split <;> exact .refl m
  · split
    · split <;> exact .modCore m pkg (f := fun c => { c with ncache := _ }) fun _ => rfl
    · exact .modCore m pkg (f := fun c => { c with ncache := _ }) fun _ => rfl

section
variable {i : Instr} {s m x : State} {c : Ctx} {o : VOps}

theorem Ctx.leave_of_mayLeave (h : c.mayLeave m) : c.leave m = none := by
  obtain ⟨clear, paid⟩ := h
  simp [Ctx.leave, clear, paid]

/-- The scope of the release before a request whose name was found as r (R69). -/
def NameRes.scope (rel : Bool) : NameRes → Option Nat
  | .go e => if rel then some (if e.state = 4 then 4 else 3) else none
  | _ => none

/-- The first stage of a request whose name was found as r. -/
def NameRes.stage (rel : Bool) : NameRes → ReqStage
  | .answer x => .answered x
  | .denied => .answered 2
  | .go e => if rel then .release (if e.state = 4 then 4 else 3) else .send

/-- The entry found for a name, where there is one. -/
def NameRes.entry : NameRes → NameEnt
  | .go e => e
  | _ => ⟨0, 0, 0, 0, 0⟩

/-- In t, a name instruction has posted its request, with its operation (R247 to R249). -/
def Ctx.posted (c : Ctx) (m : State) (d : RegCode) (name : W64) (op : NameOp) (rel : Bool) (r : NameRes) (t : State) : Prop :=
  (t.grp c.gi).others = { (m.grp c.gi).others with ops := (m.grp c.gi).ops ++ [c.operation m.seq d 1 (.request (r.scope rel))] } ∧
    t.reqs = m.reqs ++ [⟨m.seq, .group c.gi m.seq, some (m.grp c.gi).pkg, (m.grp c.gi).func, m.classOf c.gi, name, op, r.stage rel,
      r.entry.w0, r.entry.w1, 0⟩] ∧
    t.escrow = match r.scope rel with
      | some sc => (m.sealEscrow c.gi sc m.seq).escrow
      | none => m.escrow

variable {d : RegCode} {name : W64} {op : NameOp} {rel : Bool} {r : NameRes}

theorem Ctx.close_posted (index : c.gi < x.groups.length) (h : c.posted m d name op rel r x) : c.posted m d name op rel r (c.close (.done x)) := by
  obtain ⟨group, reqs, escrow⟩ := h
  obtain ⟨outside, -, -⟩ := c.close_done_elsewhere x
  refine ⟨?_, (congrArg State.reqs outside :).trans reqs, (congrArg State.escrow outside :).trans escrow⟩
  rw [← group, c.close_done_grp x c.gi, if_pos ⟨rfl, index⟩, Group.wordDone_others]

/-- A request is posted where its operation is outstanding and the group keeps its registers and its place. -/
theorem Performs.posts (h : Performs i s c m)
    (look : (m.lookName (m.grp c.gi).pkg (m.grp c.gi).func (m.classOf c.gi) name op false).1 = r) (length : x.groups.length = m.groups.length)
    (anchored : (x.grp c.gi).anchor = (m.grp c.gi).anchor) (quarters : ∀ p, (x.core p).qtr = (m.core p).qtr)
    (request : (r = .denied → m.ringVa (m.grp c.gi).func = 0) → c.posted m d name op rel r x) :
    Posts c m (c.close (.done x)) d name op rel := by
  obtain ⟨kept, proceeds⟩ := h.passes_anchored length anchored quarters
  refine ⟨kept, proceeds, ?_⟩
  rintro _ found silent
  obtain rfl := look.symm.trans found
  obtain ⟨others, reqs, escrow⟩ := Ctx.close_posted (by rw [length]; exact h.lt') (request silent)
  refine ⟨m.seq, ?_⟩
  cases r with
  | answer | denied | go => exact ⟨others, reqs, escrow⟩

/-- A denial is recorded where the world has a ring (R67, R333), and its request is answered. -/
theorem Performs.postsDenied (h : Performs i s c m) {y : State} {payload : List W64}
    (look : (m.lookName (m.grp c.gi).pkg (m.grp c.gi).func (m.classOf c.gi) name op false).1 = .denied) (length : y.groups.length = m.groups.length)
    (group : y.grp c.gi = { m.grp c.gi with ops := (m.grp c.gi).ops ++ [c.operation m.seq d 1 (.request none)] })
    (quarters : ∀ p, (y.core p).qtr = (m.core p).qtr) (hub : y.hub = m.hub) (reqs : y.reqs = m.reqs) (escrow : y.escrow = m.escrow) :
    let z := y.raiseLog (m.grp c.gi).func evDenial payload (m.grp c.gi).name (some m.seq)
    Posts c m (c.close (.done { z with reqs := z.reqs ++ [⟨m.seq, .group c.gi m.seq, some (m.grp c.gi).pkg, (m.grp c.gi).func, m.classOf c.gi, name, op,
      .answered 2, 0, 0, 0⟩] })) d name op rel := by
  intro z
  have steady : Steady y z := (Steady.refl y).raiseLog
  have undisturbed : Undisturbed y z := (Undisturbed.refl y).raiseLog
  refine h.posts look (steady.length.trans length) ((steady.anchor c.gi).trans (congrArg Group.anchor group :))
    (fun p => (undisturbed.quarters p).trans (quarters p)) fun silent => ?_
  have silent' : y.ringVa (m.grp c.gi).func = 0 := by
    rw [← silent rfl, State.ringVa, State.ringVa, State.regN, State.regN, State.reg, State.reg, hub]
  have same : z = y := if_pos silent'
  refine ⟨?_, ?_, ?_⟩
  · exact (congrArg (fun t : State => (t.grp c.gi).others) same).trans (congrArg Group.others group)
  · rw [same, reqs]
    rfl
  · exact (congrArg State.escrow same).trans escrow

/-- A name request of a performed word: its name is found, its operation is outstanding, and the request follows what was found. -/
theorem Performs.nameRequest (h : Performs i s c m) (d : RegCode) (name : W64) (op : NameOp) (rel : Bool) :
    Posts c m (c.close (.done (c.nameRequest m d name op rel))) d name op rel := by
  have onlyCores := m.lookName_cores (m.grp c.gi).pkg (m.grp c.gi).func (m.classOf c.gi) name op false
  rcases look : m.lookName (m.grp c.gi).pkg (m.grp c.gi).func (m.classOf c.gi) name op false with ⟨r, u⟩
  rw [look] at onlyCores
  obtain ⟨⟨cs, rfl⟩, quarters⟩ := onlyCores
  have found := congrArg Prod.fst look
  have group (scope : Option Nat) : (c.issueOp { m with cores := cs } d 1 (.request scope)).2.grp c.gi =
      { m.grp c.gi with ops := (m.grp c.gi).ops ++ [c.operation m.seq d 1 (.request scope)] } := State.grp_modGrp_self _ _ h.lt'
  have anchored (scope : Option Nat) : ((c.issueOp { m with cores := cs } d 1 (.request scope)).2.grp c.gi).anchor = (m.grp c.gi).anchor :=
    (congrArg Group.anchor (group scope) :)
  have length (scope : Option Nat) : (c.issueOp { m with cores := cs } d 1 (.request scope)).2.groups.length = m.groups.length :=
    State.modGrp_length ..
  simp only [Ctx.nameRequest, look]
  cases r with
  | answer => exact h.posts found (length _) (anchored _) quarters fun _ => ⟨congrArg Group.others (group _), rfl, rfl⟩
  | denied => exact h.postsDenied found (length _) (group _) quarters rfl rfl rfl
  | go e =>
    cases rel with
    | true =>
      simp only [if_true, beq_iff_eq]
      exact h.posts found (length _) (anchored _) quarters fun _ => ⟨congrArg Group.others (group _), rfl, rfl⟩
    | false => exact h.posts found (length _) (anchored _) quarters fun _ => ⟨congrArg Group.others (group _), rfl, rfl⟩

theorem Performs.postsRequest (h : Performs i s c m) {body : Ctx → State → Res} (e : body c m = .done (c.nameRequest m d name op rel)) :
    ∃ t, issueWord i body s = .next t ∧ Posts c m t d name op rel :=
  ⟨_, issueWord_performs h body, by rw [e]; exact h.nameRequest d name op rel⟩

/-! SPAWN -/

theorem bitsN_low6 (a : W64) : bitsN a 5 0 = a.toNat % 64 := by
  have wide := a.isLt
  rw [bitsN, BitVec.extractLsb'_toNat, Nat.shiftRight_eq_div_pow]
  omega

/-- The description of SPAWN with a free slot and the address a of its record (R247). -/
def Ctx.spawnFrom (c : Ctx) (m : State) (d : RegCode) (a : W64) : Res :=
  if bitsN a 63 57 ≠ 0 then .trap m .space 0 a
  else if bitsN a 5 0 ≠ 0 then .trap m .misalign 0 a
  else match c.leave m with
    | some r => r
    | none => .done ((c.issueOp m d 1 (.spawn a.toNat (m.grp c.gi).prioBase true)).2.sealEscrow c.gi 3 m.seq)

theorem Performs.exec_spawn (h : Performs (.spawn o) s c m) (free : c.slotFree m) (covered : c.covered m o.a) :
    exec (.spawn o) s = .next (c.close (c.spawnFrom m o.d ((m.grp c.gi).scalarOf c.lane o.a))) := by
  refine (issueWord_performs h _).trans (congrArg (fun r => Host.Outcome.next (c.close r)) ?_)
  rw [Ctx.slotFull_eq_false.mpr free, Ctx.uni_covered covered]
  simp only [Bool.false_eq_true, if_false, bne_iff_ne, Res.at_, BitVec.ofNat_toNat, BitVec.setWidth_eq]
  rfl

section
variable {d : RegCode} {a : W64}

theorem Ctx.spawnFrom_far (far : 2 ^ 57 ≤ a.toNat) : c.spawnFrom m d a = .trap m .space 0 a :=
  if_pos fun low => absurd ((bitsN_high_eq_zero _).mp low) (not_lt.mpr far)

theorem Ctx.spawnFrom_odd (near : a.toNat < 2 ^ 57) (odd : a.toNat % 64 ≠ 0) : c.spawnFrom m d a = .trap m .misalign 0 a :=
  (if_neg (not_not.mpr ((bitsN_high_eq_zero _).mpr near))).trans (if_pos (by rw [bitsN_low6]; exact odd))

theorem Ctx.spawnFrom_goes (near : a.toNat < 2 ^ 57) (aligned : a.toNat % 64 = 0) (leave : c.mayLeave m) : c.spawnFrom m d a =
    .done ((c.issueOp m d 1 (.spawn a.toNat (m.grp c.gi).prioBase true)).2.sealEscrow c.gi 3 m.seq) := by
  rw [Ctx.spawnFrom, if_neg (not_not.mpr ((bitsN_high_eq_zero _).mpr near)), if_neg (not_not.mpr (by rw [bitsN_low6]; exact aligned)),
    Ctx.leave_of_mayLeave leave]

end

/-- An operation behind a release at device scope (R120). -/
theorem Performs.closes_released (h : Performs i s c m) (d : RegCode) (n : Nat) (kind : OpKind) :
    let t := c.close (.done ((c.issueOp m d n kind).2.sealEscrow c.gi 3 m.seq))
    RegsKept c.gi m t ∧ Proceeds c m t c.cl.taken c.cl.target ∧ ∃ id, Changes c.gi m t
      (fun g => { g with ops := g.ops ++ [c.operation id d n kind] }) (fun s => s.sealEscrow c.gi 3 id) := by
  have group : ((c.issueOp m d n kind).2.sealEscrow c.gi 3 m.seq).grp c.gi = { m.grp c.gi with ops := (m.grp c.gi).ops ++ [c.operation m.seq d n kind] } :=
    State.grp_modGrp_self _ _ h.lt'
  have changes : Changes c.gi m ((c.issueOp m d n kind).2.sealEscrow c.gi 3 m.seq)
      (fun g => { g with ops := g.ops ++ [c.operation m.seq d n kind] }) (fun s => s.sealEscrow c.gi 3 m.seq) :=
    ⟨congrArg Group.others group, rfl, fun j ne => State.grp_modGrp_ne _ _ ne, fun _ => rfl⟩
  have anchored : (((c.issueOp m d n kind).2.sealEscrow c.gi 3 m.seq).grp c.gi).anchor = (m.grp c.gi).anchor := (congrArg Group.anchor group :)
  have length : ((c.issueOp m d n kind).2.sealEscrow c.gi 3 m.seq).groups.length = m.groups.length := State.modGrp_length ..
  obtain ⟨kept, proceeds⟩ := h.passes_anchored length anchored fun _ => rfl
  exact ⟨kept, proceeds, m.seq, Ctx.close_done_changes (by rw [length]; exact h.lt') changes⟩

end

/-- Settles O29: the four requests are one operation (`Performs.nameRequest`), and SPAWN is its tests and an operation behind a release. -/
theorem nameRequests : Obligations.NameRequests := by
  unfold Obligations.NameRequests
  refine ⟨fun o s c m free leave covered => ⟨fun h covered' => ?_, fun h => ?_, fun h covered' => ?_, fun h => ?_⟩,
    fun o s c m h free covered => ⟨fun far => ?_, fun near odd => ?_, fun near aligned leave => ?_⟩⟩
  · exact h.postsRequest (by simp only [Ctx.before_of_free free, Ctx.leave_of_mayLeave leave, Ctx.uni_covered covered, Ctx.uni_covered covered', bitAt])
  · exact h.postsRequest (by simp only [Ctx.before_of_free free, Ctx.leave_of_mayLeave leave, Ctx.uni_covered covered, bitAt])
  · exact h.postsRequest (by simp only [Ctx.before_of_free free, Ctx.leave_of_mayLeave leave, Ctx.uni_covered covered, Ctx.uni_covered covered', bitAt])
  · exact h.postsRequest (by simp only [Ctx.before_of_free free, Ctx.leave_of_mayLeave leave, Ctx.uni_covered covered])
  · rw [h.exec_spawn free covered, Ctx.spawnFrom_far far]
    rfl
  · rw [h.exec_spawn free covered, Ctx.spawnFrom_odd near odd]
    rfl
  · rw [h.exec_spawn free covered, Ctx.spawnFrom_goes near aligned leave]
    exact ⟨_, rfl, h.closes_released ..⟩

end Sys2Proof.Machine
end

section
/-! TRAP and BRK (O22): the trap that each takes, and the group that a claimed BREAK event holds. -/

namespace Sys2Proof.Machine

section
variable {s m : State} {c : Ctx} {o : IOps}

/-- A group that BRK holds for the owner of BREAK events (R411, R417). -/
def Group.heldAt (g : Group) (r : TrapAt) : Group := { g.record r with st := .pending, heldBrk := true, waiting := false }

theorem Group.heldAt_asleep (g : Group) (r : TrapAt) : (g.heldAt r).wakeable = false := rfl

/-- A lane of the word's run resumes where the record says. -/
theorem Group.record_resumes (g : Group) (r : TrapAt) {i : Nat} (small : i < 64) (runs : r.run.getLsbD i = true) :
    (g.record r).pc.getD i 0 = r.resume ∧ (g.record r).rpos.getD i 0 = r.rpos := by
  constructor
  all_goals
    unfold Group.record
    dsimp only
    rw [getD_range_map, if_pos small, if_pos runs]

/-- A claimed BREAK event in a world with a ring: the group is held, and the event is queued. -/
theorem State.raiseBreak_queues {m : State} {gi code pos : Nat} {header : W64} (ring : m.ringVa (m.grp gi).func ≠ 0) :
    ∃ e, m.raiseBreak gi code pos header = (m.modGrp gi fun g => { g with st := .pending, heldBrk := true, waiting := false }).queueEvent e := by
  unfold State.raiseBreak
  dsimp only
  rw [if_neg ring]
  exact ⟨_, rfl⟩

/-- BRK that takes its trap: no one owns BREAK events, or TS is set (R328, R239). -/
theorem Performs.brkTraps (h : Performs (.brk o) s c m)
    (unowned : (m.grp c.gi).ts = true ∨ (m.evHost (m.grp c.gi).func evBreak = false ∧ m.evClerk (m.grp c.gi).func evBreak = false)) :
    exec (.brk o) s = .next (m.trapWord c .break_ o.imm.toNat c.cl.wordAddr) := by
  refine h.traps (if_neg ?_)
  rcases unowned with ts | ⟨host, clerk⟩
  · simp [ts]
  · simp [host, clerk]

/-- BRK that is claimed leaves its group as it is held, but for what the event's record may write. -/
theorem Performs.brkHolds (h : Performs (.brk o) s c m) (clear : (m.grp c.gi).ts = false)
    (owned : m.evHost (m.grp c.gi).func evBreak = true ∨ m.evClerk (m.grp c.gi).func evBreak = true) (ring : m.ringVa (m.grp c.gi).func ≠ 0) :
    ∃ x, exec (.brk o) s = .next (c.close (.done x)) ∧ c.gi < x.groups.length ∧
      (x.grp c.gi).unmarked = ((m.grp c.gi).heldAt ⟨c.cl.lanes, c.cl.pos, c.cl.next, 0⟩).unmarked := by
  have claimed : (!(m.grp c.gi).ts && (m.evHost (m.grp c.gi).func evBreak || m.evClerk (m.grp c.gi).func evBreak)) = true := by
    rcases owned with host | clerk
    · simp [clear, host]
    · simp [clear, clerk]
  let recorded := m.modGrp c.gi (fun g => g.record ⟨c.cl.lanes, c.cl.pos, c.cl.next, 0⟩)
  have group : recorded.grp c.gi = (m.grp c.gi).record ⟨c.cl.lanes, c.cl.pos, c.cl.next, 0⟩ := m.grp_modGrp_self _ h.lt'
  have index : c.gi < recorded.groups.length := by rw [State.modGrp_length]; exact h.lt'
  have ring' : recorded.ringVa (recorded.grp c.gi).func ≠ 0 := by rw [group]; exact ring
  obtain ⟨e, queues⟩ := State.raiseBreak_queues (code := o.imm.toNat) (pos := c.cl.pos) (header := c.cl.hdr) ring'
  have held := recorded.grp_modGrp_self (fun g => { g with st := .pending, heldBrk := true, waiting := false }) index
  rw [group] at held
  have undisturbed := (Undisturbed.refl (recorded.modGrp c.gi fun g => { g with st := .pending, heldBrk := true, waiting := false })).queueEvent (e := e)
  refine ⟨_, (issueWord_performs h _).trans (congrArg (fun r => Host.Outcome.next (c.close r)) ((if_pos claimed).trans (congrArg Res.done queues))), ?_, ?_⟩
  · rw [undisturbed.length, State.modGrp_length]
    exact index
  · have same := undisturbed.group c.gi
    rw [held] at same
    exact same rfl

/-- A word after whose description no clause is left: nothing of its group changes but when it may issue again. -/
theorem Ctx.close_done_emptied {x : State} (index : c.gi < x.groups.length) (emptied : (x.grp c.gi).clauses = []) :
    ∃ mark, (c.close (.done x)).grp c.gi = { x.grp c.gi with emark := mark } := by
  have gone : (x.grp c.gi).clauses[c.k]? = none := by rw [emptied]; rfl
  rw [c.close_done_grp x c.gi, if_pos ⟨rfl, index⟩, Group.wordDone, gone]
  exact ⟨_, rfl⟩

end

/-- Settles O22: the traps are the words' descriptions; of a claimed BRK, what the event's record may write leaves the group as it is held
(`Performs.brkHolds`). -/
theorem trapWords : Obligations.TrapWords := by
  unfold Obligations.TrapWords
  refine ⟨fun o s c m => ⟨fun h => h.traps rfl, fun h unowned => h.brkTraps unowned⟩, fun o s c m h clear owned ring => ?_⟩
  obtain ⟨x, runs, index, same⟩ := h.brkHolds clear owned ring
  obtain ⟨mark, group⟩ := Ctx.close_done_emptied index (congrArg Group.clauses same :)
  refine ⟨_, runs, ?_, ?_, ?_, ?_, fun i small runs => ?_⟩
  · constructor <;> rw [group]
    exacts [(congrArg Group.v same :), (congrArg Group.s same :), (congrArg Group.flags same :), (congrArg Group.pendw same :), (congrArg Group.pendf same :)]
  all_goals rw [group]
  · exact (congrArg Group.st same :)
  · exact (congrArg Group.heldBrk same :)
  · exact (congrArg Group.clauses same :)
  · have resumes := (m.grp c.gi).record_resumes ⟨c.cl.lanes, c.cl.pos, c.cl.next, 0⟩ small runs
    rw [show (x.grp c.gi).pc = ((m.grp c.gi).record ⟨c.cl.lanes, c.cl.pos, c.cl.next, 0⟩).pc from (congrArg Group.pc same :),
      show (x.grp c.gi).rpos = ((m.grp c.gi).record ⟨c.cl.lanes, c.cl.pos, c.cl.next, 0⟩).rpos from (congrArg Group.rpos same :)]
    exact resumes

end Sys2Proof.Machine
end

section
/-! Barriers (O27): a group's arrival, the release of every sleeper by the last one, and a team's one message to the grid's port. -/

namespace Sys2Proof.Machine

/-! Wakes at a barrier -/

/-- A group as its wake leaves it. -/
def Group.woken (g : Group) : Group := if g.st = .suspended then { g with st := .pending, cond := .none } else { g with cond := .none }

theorem State.wake_eq (s : State) (gi : Nat) : s.wake gi false = s.modGrp gi Group.woken := rfl

/-- A group that waits in its quarter or sleeps there, and not in memory. -/
def Group.inPlace (g : Group) : Prop := g.st ≠ .saved ∧ g.st ≠ .moving

theorem Group.inPlace_woken {g : Group} (h : g.inPlace) : g.woken.inPlace := by
  unfold Group.woken
  split
  · exact ⟨nofun, nofun⟩
  · exact h

theorem Group.woken_woken (g : Group) : g.woken.woken = g.woken := by
  unfold Group.woken
  by_cases asleep : g.st = .suspended
  · simp [asleep]
  · simp [asleep]

theorem State.releaseWaiter_inPlace {s : State} {gi : Nat} (h : (s.grp gi).inPlace) : s.releaseWaiter gi = s.modGrp gi Group.woken := by
  obtain ⟨saved, moving⟩ := h
  unfold State.releaseWaiter
  dsimp only
  split
  next st => exact absurd st saved
  next st => exact absurd st moving
  · rfl

/-- The release of a barrier whose waiters are all in place wakes each of them, and changes nothing else. -/
theorem State.foldl_releaseWaiter (l : List Nat) (s : State) (present : ∀ j ∈ l, j < s.groups.length ∧ (s.grp j).inPlace) :
    let t := l.foldl State.releaseWaiter s
    (∀ j, t.grp j = if j ∈ l then (s.grp j).woken else s.grp j) ∧ Steady s t ∧ (∀ p, (t.core p).qtr = (s.core p).qtr) := by
  induction l generalizing s with
  | nil => exact ⟨fun j => by simp, .refl s, fun _ => rfl⟩
  | cons k l ih =>
    obtain ⟨index, here⟩ := present k List.mem_cons_self
    rw [List.foldl_cons, State.releaseWaiter_inPlace here]
    obtain ⟨groups, steady, quarters⟩ := ih (s.modGrp k Group.woken) fun j hj => by
      obtain ⟨index', present'⟩ := present j (List.mem_cons_of_mem _ hj)
      refine ⟨by rw [State.modGrp_length]; exact index', ?_⟩
      rw [State.grp_modGrp]
      split
      · exact Group.inPlace_woken present'
      · exact present'
    refine ⟨fun j => ?_, Steady.trans ((Steady.refl s).wake (gi := k) (acq := false)) steady, fun p => (quarters p).trans rfl⟩
    rw [groups j, State.grp_modGrp]
    by_cases same : j = k
    · subst same
      simp [index, Group.woken_woken]
    · simp [same]

/-! Inherited priorities -/

section
variable (w : State)

theorem State.inherit_length : w.inherit.groups.length = w.groups.length := by
  obtain ⟨f, steady, -, -⟩ := w.inherit_spec
  exact steady.length.trans (List.length_map ..)

theorem State.inherit_anchor (j : Nat) : (w.inherit.grp j).anchor = (w.grp j).anchor := by
  obtain ⟨f, steady, -, -⟩ := w.inherit_spec
  obtain ⟨n, same⟩ := w.grp_reprioritised f j
  rw [steady.anchor j, same]
  rfl

theorem State.inherit_quarters (p : Nat) : (w.inherit.core p).qtr = (w.core p).qtr := by
  obtain ⟨f, -, undisturbed, -⟩ := w.inherit_spec
  exact undisturbed.quarters p

theorem State.inherit_hub : w.inherit.hub = w.hub := by
  obtain ⟨f, -, -, hub⟩ := w.inherit_spec
  exact hub

theorem State.inherit_unmarked {j : Nat} (asleep : (w.grp j).wakeable = false) : (w.inherit.grp j).unmarked = (w.grp j).unmarked := by
  obtain ⟨f, -, undisturbed, -⟩ := w.inherit_spec
  exact ((Undisturbed.refl w).reprioritised f).trans undisturbed |>.group j asleep

/-- A group that no write may wake is neither woken nor put to sleep. -/
theorem State.inherit_waits {j : Nat} (asleep : (w.grp j).wakeable = false) : (w.inherit.grp j).st = (w.grp j).st ∧ (w.inherit.grp j).cond = (w.grp j).cond :=
  ⟨(congrArg Group.st (w.inherit_unmarked asleep) :), (congrArg Group.cond (w.inherit_unmarked asleep) :)⟩

end

/-! Arrivals -/

section
variable {i : Instr} {s m : State} {c : Ctx} {gi : Nat} {cond : Cond}

/-- A group that has come to a barrier, before it is tried. -/
def State.comeTo (m : State) (gi : Nat) (cond : Cond) : State := m.modGrp gi fun g => { g with cond := cond }

theorem State.grp_comeTo_self (index : gi < m.groups.length) : (m.comeTo gi cond).grp gi = { m.grp gi with cond := cond } := m.grp_modGrp_self _ index

theorem State.grp_comeTo_ne {j : Nat} (ne : j ≠ gi) : (m.comeTo gi cond).grp j = m.grp j := m.grp_modGrp_ne _ ne

theorem sameBarrier_comeTo (b : Cond) (x y : Group) (d e : Cond) : sameBarrier b { x with cond := d } { y with cond := e } = sameBarrier b x y := by
  cases b <;> rfl

theorem State.mem_grpsWhere_comeTo (index : gi < m.groups.length) {p : Group → Bool} (blind : ∀ g d, p { g with cond := d } = p g) {j : Nat} :
    j ∈ (m.comeTo gi cond).grpsWhere p ↔ j ∈ m.grpsWhere p := by
  rw [State.mem_grpsWhere, State.mem_grpsWhere, State.comeTo, State.modGrp_length]
  by_cases same : j = gi
  · rw [same, m.grp_modGrp_self _ index, blind]
  · rw [m.grp_modGrp_ne _ same]

theorem State.mem_participants_comeTo (index : gi < m.groups.length) {j : Nat} :
    j ∈ (m.comeTo gi cond).participants ((m.comeTo gi cond).grp gi) cond ↔ j ∈ m.participants (m.grp gi) cond := by
  rw [State.grp_comeTo_self index]
  refine (State.mem_grpsWhere_comeTo index fun g d => ?_).trans ?_
  · exact congrArg (g.alive && ·) (sameBarrier_comeTo cond g (m.grp gi) d cond)
  · rw [State.participants, State.mem_grpsWhere, State.mem_grpsWhere]
    exact and_congr_right fun _ => iff_of_eq (congrArg (fun b => ((m.grp j).alive && b) = true) (sameBarrier_comeTo cond (m.grp j) (m.grp gi) (m.grp j).cond cond))

/-- A barrier of a team or a cluster. -/
def Cond.ofGroups (b : Cond) : Prop := ∃ id, b = .teamBarrier id ∨ b = .clusterBarrier id

theorem State.arrive_groups (b : cond.ofGroups) : m.arrive gi cond =
    ((((m.comeTo gi cond).tryBarrier gi cond).grp gi).cond == .none, ((m.comeTo gi cond).tryBarrier gi cond).inherit) := by
  obtain ⟨id, rfl | rfl⟩ := b <;> rfl

/-- A barrier that not every participant has reached stays as it is. -/
theorem State.tryBarrier_early (index : gi < m.groups.length) {j : Nat} (mem : j ∈ m.participants (m.grp gi) cond) (ne : j ≠ gi)
    (elsewhere : (m.grp j).cond ≠ cond) : (m.comeTo gi cond).tryBarrier gi cond = m.comeTo gi cond := by
  refine if_neg fun all => elsewhere ?_
  have there := List.all_eq_true.mp all j ((State.mem_participants_comeTo index).mpr mem)
  rw [State.grp_comeTo_ne ne] at there
  exact eq_of_beq there

/-- A barrier that every participant has reached. -/
theorem State.tryBarrier_last (index : gi < m.groups.length)
    (all : ∀ j ∈ m.participants (m.grp gi) cond, j ≠ gi → (m.grp j).cond = cond) :
    (m.comeTo gi cond).tryBarrier gi cond =
      ((m.comeTo gi cond).participants ((m.comeTo gi cond).grp gi) cond).foldl State.releaseWaiter (m.comeTo gi cond) := by
  refine if_pos (List.all_eq_true.mpr fun j mem => beq_iff_eq.mpr ?_)
  by_cases same : j = gi
  · rw [same, State.grp_comeTo_self index]
  · rw [State.grp_comeTo_ne same]
    exact all j ((State.mem_participants_comeTo index).mp mem) same

theorem Cond.ofGroups_ne_none (b : cond.ofGroups) : cond ≠ .none := by
  obtain ⟨id, rfl | rfl⟩ := b <;> exact nofun

/-- One who waits at such a barrier is woken by its release alone. -/
theorem Group.asleep_ofGroups {g : Group} (b : g.cond.ofGroups) : g.wakeable = false := by
  obtain ⟨id, e | e⟩ := b <;> simp [Group.wakeable, e]

theorem Group.asleep_of_st {g : Group} (st : g.st ≠ .suspended) : g.wakeable = false := by
  simp [Group.wakeable, st]

theorem Ctx.close_done_others (x : State) (j : Nat) : ((c.close (.done x)).grp j).others = (x.grp j).others := by
  rw [c.close_done_grp x j]
  split
  next here => rw [Group.wordDone_others, here.1]
  · rfl

theorem Ctx.close_done_waits (x : State) (j : Nat) :
    ((c.close (.done x)).grp j).st = (x.grp j).st ∧ ((c.close (.done x)).grp j).cond = (x.grp j).cond :=
  ⟨(congrArg Group.st (Ctx.close_done_others x j) :), (congrArg Group.cond (Ctx.close_done_others x j) :)⟩

/-- A word after whose description its group sleeps. -/
theorem Performs.sleeps (h : Performs i s c m) {x : State} (length : x.groups.length = m.groups.length)
    (anchored : (x.grp c.gi).anchor = (m.grp c.gi).anchor) (quarters : ∀ p, (x.core p).qtr = (m.core p).qtr) :
    let t := c.close (.done (x.modGrp c.gi fun g => { g with st := .suspended, waiting := false }))
    RegsKept c.gi m t ∧ (t.grp c.gi).st = .suspended ∧ (t.grp c.gi).cond = (x.grp c.gi).cond ∧ Proceeds c m t c.cl.taken c.cl.target ∧
      ∀ j, j ≠ c.gi → (t.grp j).st = (x.grp j).st ∧ (t.grp j).cond = (x.grp j).cond := by
  intro t
  have index : c.gi < x.groups.length := by rw [length]; exact h.lt'
  have self := x.grp_modGrp_self (fun g => { g with st := .suspended, waiting := false }) index
  obtain ⟨kept, proceeds⟩ := h.passes_anchored (x := x.modGrp c.gi fun g => { g with st := .suspended, waiting := false })
    ((State.modGrp_length ..).trans length) (by rw [self]; exact anchored) quarters
  obtain ⟨st, cond⟩ := c.close_done_waits (x.modGrp c.gi fun g => { g with st := .suspended, waiting := false }) c.gi
  refine ⟨kept, st.trans (by rw [self]), cond.trans (by rw [self]), proceeds, fun j ne => ?_⟩
  obtain ⟨st, cond⟩ := c.close_done_waits (x.modGrp c.gi fun g => { g with st := .suspended, waiting := false }) j
  rw [x.grp_modGrp_ne _ ne] at st cond
  exact ⟨st, cond⟩

theorem Ctx.arrives_free (free : (m.grp c.gi).ops.any (fun o => o.commitStep.isSome) = false) : c.arrives m cond =
    if (m.arrive c.gi cond).1 then .done (m.arrive c.gi cond).2
    else .done ((m.arrive c.gi cond).2.modGrp c.gi (fun g => { g with st := .suspended, waiting := false })) := by
  rw [Ctx.arrives, if_neg (by rw [free]; exact Bool.false_ne_true)]

/-- An arrival that is not the last (R48, R50). -/
theorem Performs.arrivesEarly (h : Performs i s c m) {body : Ctx → State → Res} (e : body c m = c.arrives m cond)
    (free : (m.grp c.gi).ops.any (fun o => o.commitStep.isSome) = false) (b : cond.ofGroups) (active : (m.grp c.gi).st = .active)
    (early : ∃ j ∈ m.participants (m.grp c.gi) cond, j ≠ c.gi ∧ (m.grp j).cond ≠ cond) :
    ∃ t, issueWord i body s = .next t ∧ RegsKept c.gi m t ∧ (t.grp c.gi).st = .suspended ∧ (t.grp c.gi).cond = cond ∧
      Proceeds c m t c.cl.taken c.cl.target ∧
      ∀ j ∈ m.participants (m.grp c.gi) cond, j ≠ c.gi → (m.grp j).cond = cond → (t.grp j).st = (m.grp j).st ∧ (t.grp j).cond = cond := by
  obtain ⟨j, mem, ne, elsewhere⟩ := early
  have here := m.grp_comeTo_self (cond := cond) h.lt'
  have arrived : m.arrive c.gi cond = (false, (m.comeTo c.gi cond).inherit) := by
    rw [State.arrive_groups b, State.tryBarrier_early h.lt' mem ne elsewhere, here]
    exact congrArg (·, _) (beq_eq_false_iff_ne.mpr (Cond.ofGroups_ne_none b))
  have anchored : ((m.comeTo c.gi cond).inherit.grp c.gi).anchor = (m.grp c.gi).anchor := by
    rw [State.inherit_anchor, here]
    rfl
  obtain ⟨kept, st, at_, proceeds, others⟩ := h.sleeps ((State.inherit_length _).trans (State.modGrp_length ..)) anchored fun p => State.inherit_quarters _ p
  obtain ⟨-, waits⟩ := (m.comeTo c.gi cond).inherit_waits (j := c.gi) (Group.asleep_of_st (by rw [here, active]; exact nofun))
  refine ⟨_, issueWord_performs h body, ?_⟩
  rw [e, Ctx.arrives_free free, arrived]
  refine ⟨kept, st, at_.trans (waits.trans (by rw [here])), proceeds, fun j _ ne there => ?_⟩
  have stays := m.grp_comeTo_ne (cond := cond) ne
  obtain ⟨st, cond'⟩ := (m.comeTo c.gi cond).inherit_waits (j := j) (Group.asleep_ofGroups (by rw [stays, there]; exact b))
  obtain ⟨st', cond''⟩ := others j ne
  rw [stays] at st cond'
  exact ⟨st'.trans st, cond''.trans (cond'.trans there)⟩

/-- The last arrival: the group goes on, and every sleeper is pending (R48, R50, R53). -/
theorem Performs.arrivesLast (h : Performs i s c m) {body : Ctx → State → Res} (e : body c m = c.arrives m cond)
    (free : (m.grp c.gi).ops.any (fun o => o.commitStep.isSome) = false) (b : cond.ofGroups) (active : (m.grp c.gi).st = .active)
    (last : ∀ j ∈ m.participants (m.grp c.gi) cond, j ≠ c.gi → (m.grp j).cond = cond ∧ (m.grp j).st = .suspended) :
    ∃ t, issueWord i body s = .next t ∧ RegsKept c.gi m t ∧ (t.grp c.gi).st = .active ∧ (t.grp c.gi).cond = .none ∧
      Proceeds c m t c.cl.taken c.cl.target ∧
      ∀ j ∈ m.participants (m.grp c.gi) cond, j ≠ c.gi → (t.grp j).st = .pending ∧ (t.grp j).cond = .none := by
  have here := m.grp_comeTo_self (cond := cond) h.lt'
  have itself : c.gi ∈ m.participants (m.grp c.gi) cond := by
    rw [State.participants, State.mem_grpsWhere]
    refine ⟨h.lt', ?_⟩
    obtain ⟨id, rfl | rfl⟩ := b <;> simp [Group.alive, active, sameBarrier, sameTeam, sameCluster]
  obtain ⟨groups, steady, quarters⟩ := State.foldl_releaseWaiter ((m.comeTo c.gi cond).participants ((m.comeTo c.gi cond).grp c.gi) cond)
    (m.comeTo c.gi cond) fun j mem => by
      have mem' := (State.mem_participants_comeTo h.lt').mp mem
      refine ⟨(State.mem_grpsWhere.mp mem).1, ?_⟩
      by_cases same : j = c.gi
      · rw [same, here, Group.inPlace, active]
        exact ⟨nofun, nofun⟩
      · rw [State.grp_comeTo_ne same, Group.inPlace, (last j mem' same).2]
        exact ⟨nofun, nofun⟩
  rw [← State.tryBarrier_last h.lt' fun j mem ne => (last j mem ne).1] at groups steady quarters
  have arrived := m.arrive_groups (gi := c.gi) b
  generalize (m.comeTo c.gi cond).tryBarrier c.gi cond = r at groups steady quarters arrived
  have self : r.grp c.gi = { m.grp c.gi with cond := .none } := by
    rw [groups, if_pos ((State.mem_participants_comeTo h.lt').mpr itself), here, Group.woken, if_neg (by rw [active]; exact nofun)]
  have released : m.arrive c.gi cond = (true, r.inherit) := by
    rw [arrived, self]
    rfl
  have length : r.inherit.groups.length = m.groups.length := (State.inherit_length _).trans (steady.length.trans (State.modGrp_length ..))
  obtain ⟨kept, proceeds⟩ := h.passes_anchored length (by rw [State.inherit_anchor, self]; rfl)
    fun p => (State.inherit_quarters _ p).trans (quarters p)
  refine ⟨_, issueWord_performs h body, ?_⟩
  rw [e, Ctx.arrives_free free, released]
  obtain ⟨st, at_⟩ := r.inherit_waits (j := c.gi) (Group.asleep_of_st (by rw [self, active]; exact nofun))
  obtain ⟨st', at'⟩ := c.close_done_waits r.inherit c.gi
  refine ⟨kept, st'.trans (st.trans (by rw [self, active])), at'.trans (at_.trans (by rw [self])), proceeds, fun j mem ne => ?_⟩
  have woken : r.grp j = { m.grp j with st := .pending, cond := .none } := by
    rw [groups, if_pos ((State.mem_participants_comeTo h.lt').mpr mem), State.grp_comeTo_ne ne, Group.woken, if_pos (last j mem ne).2]
  obtain ⟨st, at_⟩ := r.inherit_waits (j := j) (Group.asleep_of_st (by rw [woken]; exact nofun))
  obtain ⟨st', at'⟩ := c.close_done_waits r.inherit j
  exact ⟨st'.trans (st.trans (by rw [woken])), at'.trans (at_.trans (by rw [woken]))⟩

/-! The grid's barriers -/

/-- A team's message to the port: sent once every live group of it has arrived, and no message of its own is on the way (R49). -/
theorem State.tryTeam_eq (s : State) (launch tidx id : Nat) :
    let team := s.grpsWhere (fun x => x.alive && x.launch == launch && x.tidx == tidx)
    let message := (launch, id, tidx)
    let sent := message ∈ s.hub.barMsgs ∨ message ∈ s.hub.barPort ∨ message ∈ s.hub.barRel
    ∃ msgs, s.tryTeam launch tidx id = { s with hub := { s.hub with barMsgs := msgs } } ∧
      msgs = if (team ≠ [] ∧ ∀ j ∈ team, (s.grp j).cond = .gridBarrier id) ∧ ¬sent then s.hub.barMsgs ++ [message] else s.hub.barMsgs := by
  intro team message sent
  have whether : (!team.isEmpty && team.all (fun p => (s.grp p).cond == .gridBarrier id) && !s.hub.barMsgs.contains message &&
      !s.hub.barPort.contains message && !s.hub.barRel.contains message) = true ↔
      (team ≠ [] ∧ ∀ j ∈ team, (s.grp j).cond = .gridBarrier id) ∧ ¬sent := by
    simp [sent, and_assoc]
  unfold State.tryTeam
  dsimp only
  by_cases goes : (team ≠ [] ∧ ∀ j ∈ team, (s.grp j).cond = .gridBarrier id) ∧ ¬sent
  · exact ⟨_, if_pos (whether.mpr goes), by rw [if_pos goes]⟩
  · exact ⟨_, if_neg (mt whether.mp goes), by rw [if_neg goes]⟩

theorem State.forall_comeTo_iff (index : gi < m.groups.length) (l : List Nat) (b : Cond) :
    (∀ j ∈ l, ((m.comeTo gi b).grp j).cond = b) ↔ ∀ j ∈ l, j ≠ gi → (m.grp j).cond = b := by
  refine forall₂_congr fun j _ => ?_
  by_cases same : j = gi
  · rw [same, State.grp_comeTo_self index]
    simp
  · rw [State.grp_comeTo_ne same]
    simp [same]

theorem Performs.arrivesAtGrid (h : Performs i s c m) {body : Ctx → State → Res} {id : Nat} (e : body c m = c.arrives m (.gridBarrier id))
    (free : (m.grp c.gi).ops.any (fun o => o.commitStep.isSome) = false) (alive : (m.grp c.gi).alive = true) :
    ∃ t, issueWord i body s = .next t ∧ RegsKept c.gi m t ∧ (t.grp c.gi).st = .suspended ∧ (t.grp c.gi).cond = .gridBarrier id ∧
      Proceeds c m t c.cl.taken c.cl.target ∧
      let team := m.grpsWhere (fun x => x.alive && x.launch == (m.grp c.gi).launch && x.tidx == (m.grp c.gi).tidx)
      let message := ((m.grp c.gi).launch, id, (m.grp c.gi).tidx)
      let sent := message ∈ m.hub.barMsgs ∨ message ∈ m.hub.barPort ∨ message ∈ m.hub.barRel
      t.hub.barMsgs = if (∀ j ∈ team, j ≠ c.gi → (m.grp j).cond = .gridBarrier id) ∧ ¬sent then m.hub.barMsgs ++ [message] else m.hub.barMsgs := by
  have here := m.grp_comeTo_self (cond := .gridBarrier id) h.lt'
  have arrived : m.arrive c.gi (.gridBarrier id) =
      (false, ((m.comeTo c.gi (.gridBarrier id)).tryTeam (m.grp c.gi).launch (m.grp c.gi).tidx id).inherit) := rfl
  obtain ⟨msgs, tells, sends⟩ := (m.comeTo c.gi (.gridBarrier id)).tryTeam_eq (m.grp c.gi).launch (m.grp c.gi).tidx id
  rw [tells] at arrived
  generalize tried : ({ m.comeTo c.gi (.gridBarrier id) with hub := { (m.comeTo c.gi (.gridBarrier id)).hub with barMsgs := msgs } } : State) = w at arrived
  have self : w.grp c.gi = { m.grp c.gi with cond := .gridBarrier id } := by rw [← tried]; exact here
  have length : w.groups.length = m.groups.length := by rw [← tried]; exact State.modGrp_length ..
  have quarters (p : Nat) : (w.core p).qtr = (m.core p).qtr := by rw [← tried]; rfl
  obtain ⟨kept, st, at_, proceeds, -⟩ := h.sleeps ((State.inherit_length w).trans length)
    (by rw [State.inherit_anchor, self]; rfl) fun p => (State.inherit_quarters w p).trans (quarters p)
  obtain ⟨-, waits⟩ := w.inherit_waits (j := c.gi) (by rw [self]; simp [Group.wakeable])
  refine ⟨_, issueWord_performs h body, ?_⟩
  rw [e, Ctx.arrives_free free, arrived]
  refine ⟨kept, st, at_.trans (waits.trans (by rw [self])), proceeds, ?_⟩
  intro team message sent
  obtain ⟨outside, -, -⟩ := c.close_done_elsewhere (w.inherit.modGrp c.gi fun g => { g with st := .suspended, waiting := false })
  refine (congrArg (fun t => t.hub.barMsgs) outside :).trans ?_
  show w.inherit.hub.barMsgs = _
  rw [State.inherit_hub, ← tried, sends]
  refine if_congr (and_congr_left' ?_) rfl rfl
  have members {j : Nat} : j ∈ (m.comeTo c.gi (.gridBarrier id)).grpsWhere
      (fun x => x.alive && x.launch == (m.grp c.gi).launch && x.tidx == (m.grp c.gi).tidx) ↔ j ∈ team :=
    State.mem_grpsWhere_comeTo h.lt' fun _ _ => rfl
  have itself : c.gi ∈ team := State.mem_grpsWhere.mpr ⟨h.lt', by simp [alive]⟩
  rw [and_iff_right (List.ne_nil_of_mem (members.mpr itself)), State.forall_comeTo_iff h.lt']
  exact forall_congr' fun j => imp_congr_left members

end

/-- Settles O27: arrivals that are not the last, the last one, and those at the grid's barriers. -/
theorem barriers : Obligations.Barriers := by
  unfold Obligations.Barriers
  refine ⟨fun o p mem s c m h free clusters active => ?_, fun o s c m => ⟨fun h near free alive => ?_, fun h far => h.traps (if_pos far),
    fun h one => h.traps (if_pos one), fun h owes => h.holds (if_pos owes)⟩⟩
  · simp only [List.mem_cons, List.not_mem_nil, or_false] at mem
    rcases mem with rfl | rfl
    · exact ⟨fun early => h.arrivesEarly rfl free ⟨_, .inl rfl⟩ active early, fun last => h.arrivesLast rfl free ⟨_, .inl rfl⟩ active last⟩
    · exact ⟨fun early => h.arrivesEarly (if_neg (clusters rfl)) free ⟨_, .inr rfl⟩ active early,
        fun last => h.arrivesLast (if_neg (clusters rfl)) free ⟨_, .inr rfl⟩ active last⟩
  · exact h.arrivesAtGrid (if_neg (not_le.mpr near)) free alive

end Sys2Proof.Machine
end

section
/-! Deaths, halts and traps owed (O45): what stays of a group that is dead, on the way from its entry's last update to the end of its launch; the
death of a group with nothing left, its save, and the trap taken first. -/

namespace Sys2Proof.Machine

/-! The dead (R54) -/

/-- No group goes, and a dead one is left dead, with its acceptance flag as it was. -/
structure LeavesDead (s t : State) : Prop where
  length : t.groups.length = s.groups.length
  dead : ∀ j, (s.grp j).st = .dead → (t.grp j).st = .dead ∧ (t.grp j).accept = (s.grp j).accept

variable {s t u : State}

theorem LeavesDead.refl (s : State) : LeavesDead s s := ⟨rfl, fun _ h => ⟨h, rfl⟩⟩

theorem LeavesDead.trans (h : LeavesDead s t) (k : LeavesDead t u) : LeavesDead s u :=
  ⟨k.length.trans h.length, fun j dead => by
    obtain ⟨dead', same⟩ := h.dead j dead
    obtain ⟨dead'', same'⟩ := k.dead j dead'
    exact ⟨dead'', same'.trans same⟩⟩

theorem LeavesDead.regroup (h : LeavesDead s t) (e : u.groups = t.groups := by rfl) : LeavesDead s u :=
  h.trans ⟨congrArg List.length e, fun j dead => by
    rw [State.grp, e]
    exact ⟨dead, rfl⟩⟩

theorem LeavesDead.modGrp (h : LeavesDead s t) {gi : Nat} {f : Group → Group} (hf : ∀ g, (f g).st = g.st ∧ (f g).accept = g.accept) :
    LeavesDead s (t.modGrp gi f) :=
  h.trans ⟨State.modGrp_length .., fun j dead => by
    rw [State.grp_modGrp]
    split
    · exact ⟨(hf _).1.trans dead, (hf _).2⟩
    · exact ⟨dead, rfl⟩⟩

theorem LeavesDead.ite {p : Prop} [Decidable p] (h : LeavesDead s t) (k : LeavesDead s u) : LeavesDead s (if p then t else u) := by
  split
  · exact h
  · exact k

theorem LeavesDead.foldl {α : Type} {f : State → α → State} {l : List α} (h : LeavesDead s t) (hf : ∀ u, ∀ a ∈ l, LeavesDead u (f u a)) :
    LeavesDead s (l.foldl f t) :=
  List.foldlRecOn (motive := fun u => LeavesDead s u) l f h fun u hu a ha => hu.trans (hf u a ha)

/-- A write of the device leaves the dead. -/
theorem LeavesDead.steady (h : LeavesDead s t) (k : Steady t u) : LeavesDead s u :=
  h.trans ⟨k.length, fun j dead => by
    have resident : (u.grp j).resident = false := by rw [k.resident, Group.resident, dead]
    have st : (u.grp j).steady.st = (t.grp j).steady.st := congrArg Group.st (k.group j)
    rw [Group.steady, Group.steady, ← k.resident, resident] at st
    exact ⟨st.trans dead, (congrArg Group.accept (k.group j) :)⟩⟩

/-! Requests to names (R63, R72, R74, R76) -/

theorem Steady.putPhys (h : Steady s t) {pa : Nat} {w : W64} : Steady s (t.putPhys pa w) := h.devWriteBytes
theorem Steady.putEntry (h : Steady s t) {pa k : Nat} {w : W64} : Steady s (t.putEntry pa k w) := h.devWriteBytes

theorem Steady.postWord (h : Steady s t) {func pa : Nat} {f : W64 → W64} : Steady s (t.postWord func pa f) := h.rekey.devWriteBytes

theorem Steady.sendNote (h : Steady s t) {func na : Nat} {nd : List Byte} : Steady s (t.sendNote func na nd) := by
  have put := h.hubPut (func := func) (va := na) (bs := nd) (sys := true)
  unfold State.sendNote
  refine .ite h.raiseLog ?_
  split <;> rename_i e <;> rw [e] at put
  · exact put
  · exact put.regroup
  · exact put.raiseLog

theorem Steady.notify (h : Steady s t) {func pa : Nat} : Steady s (t.notify func pa) := by
  unfold State.notify
  exact .ite h h.sendNote

theorem Steady.applyHost (h : Steady s t) {func va : Nat} {op : NameOp} : Steady s (t.applyHost func va op).2 := by
  have found := h.hubTr (die := 0) (func := func) (va := va) (access := accAtomic)
  unfold State.applyHost
  split
  · exact h
  next posts =>
    split <;> rename_i e <;> rw [e] at found
    · exact found
    · split
      · exact found
      · cases op with
        | signal | wake =>
          dsimp only [NameOp.step]
          exact Steady.notify found.postWord.postWord
        | deposit =>
          dsimp only [NameOp.step]
          exact Steady.notify found.postWord.postWord.postWord
        | join caller => exact absurd rfl (posts caller)
    · exact found

theorem Steady.applyImage (h : Steady s t) {e : NameEnt} {op : NameOp} : Steady s (t.applyImage e op) := by
  unfold State.applyImage
  cases op with
  | signal | wake => exact .ite (Steady.putEntry h.putPhys) h.putPhys
  | deposit => exact .ite (Steady.putEntry (Steady.putPhys h.putPhys)) (Steady.putPhys h.putPhys)
  | join => exact .ite h.putEntry h

theorem LeavesDead.addCounter (h : LeavesDead s t) {gi k : Nat} {v : W64} : LeavesDead s (t.addCounter gi k v) := by
  have raised : LeavesDead s (t.modGrp gi (fun g => { g with ctr := modifyNth (fun c => c + v) k g.ctr })) := h.modGrp fun _ => ⟨rfl, rfl⟩
  unfold State.addCounter
  dsimp only
  split
  · exact .ite (raised.steady (Steady.refl _).wake) raised
  · exact raised

theorem LeavesDead.applySlot (h : LeavesDead s t) {gi : Nat} {op : NameOp} : LeavesDead s (t.applySlot gi op) := by
  cases op with
  | signal | wake => exact h.addCounter
  | deposit b v => exact LeavesDead.addCounter (h.modGrp (f := fun g => { g with box := setNth g.box b v }) fun _ => ⟨rfl, rfl⟩)
  | join => exact h

theorem LeavesDead.signalJoiner (h : LeavesDead s t) {func : Nat} {name : W64} {op : NameOp} : LeavesDead s (t.signalJoiner func name op).2 := by
  unfold State.signalJoiner
  split
  · exact h
  split
  · exact h
  split
  · split
    · exact h.applySlot
    · exact h
  · have applied (e : NameEnt) : Steady t (t.applyImage e op) := (Steady.refl t).applyImage
    dsimp only
    exact h.steady (applied _)
  · have applied (va : Nat) : Steady t (t.applyHost func va op).2 := (Steady.refl t).applyHost
    dsimp only
    exact h.steady (applied _)
  · exact h

theorem LeavesDead.deviceSignal (h : LeavesDead s t) {func : Nat} {name : W64} {op : NameOp} : LeavesDead s (t.deviceSignal func name op) := by
  have signalled := h.signalJoiner (func := func) (name := name) (op := op)
  unfold State.deviceSignal
  split <;> rename_i e <;> rw [e] at signalled
  · exact signalled
  · exact signalled.regroup

theorem LeavesDead.nameDeath (h : LeavesDead s t) {func : Nat} {name : W64} {code : BitVec 32} : LeavesDead s (t.nameDeath func name code) := by
  unfold State.nameDeath
  split
  · exact h
  split
  · exact h
  · exact LeavesDead.foldl (h.steady (.ite (Steady.refl t).putEntry (Steady.refl t).putEntry.devWriteBytes)) fun u _ _ =>
      .ite (.refl u) (LeavesDead.refl u).deviceSignal

/-! Barriers, blocks and launches after a death (R45, R50, R369) -/

theorem LeavesDead.inherit (h : LeavesDead s t) : LeavesDead s t.inherit := by
  obtain ⟨f, steady, -, -⟩ := t.inherit_spec
  refine LeavesDead.steady (h.trans ⟨List.length_map .., fun j dead => ?_⟩) steady
  obtain ⟨n, same⟩ := t.grp_reprioritised f j
  rw [same]
  exact ⟨dead, rfl⟩

theorem LeavesDead.releaseWaiter (h : LeavesDead s t) {gi : Nat} : LeavesDead s (t.releaseWaiter gi) := by
  have freed : LeavesDead s (t.modGrp gi fun g => { g with cond := .none }) := h.modGrp fun _ => ⟨rfl, rfl⟩
  unfold State.releaseWaiter
  dsimp only
  split
  · split
    · exact .ite (freed.steady (Steady.refl _).putPhys.putEntry) freed
    · exact freed
  · exact freed
  · exact h.steady (Steady.refl t).wake

theorem LeavesDead.tryBarrier (h : LeavesDead s t) {gi : Nat} {c : Cond} : LeavesDead s (t.tryBarrier gi c) :=
  .ite (h.foldl fun u _ _ => (LeavesDead.refl u).releaseWaiter) h

theorem LeavesDead.tryTeam (h : LeavesDead s t) {launch tidx id : Nat} : LeavesDead s (t.tryTeam launch tidx id) := .ite h.regroup h
theorem LeavesDead.tryGrid (h : LeavesDead s t) {launch id : Nat} : LeavesDead s (t.tryGrid launch id) := .ite h.regroup h

theorem LeavesDead.barriersAfter (h : LeavesDead s t) {gi : Nat} : LeavesDead s (t.barriersAfter gi) := by
  refine LeavesDead.inherit (h.foldl fun u w _ => ?_)
  split
  · exact (LeavesDead.refl u).tryTeam.tryGrid
  · exact (LeavesDead.refl u).tryBarrier
  · exact (LeavesDead.refl u).tryBarrier
  · exact .refl u

theorem LeavesDead.poolReturn (h : LeavesDead s t) {pkg q : Nat} : LeavesDead s (t.poolReturn pkg q) := by
  unfold State.poolReturn
  refine h.foldl fun u gi _ => ?_
  split
  · exact .ite ((LeavesDead.refl u).modGrp fun _ => ⟨rfl, rfl⟩) (.refl u)
  · exact .refl u

theorem Steady.signalHost (h : Steady s t) {func ck : Nat} {cname : W64} : Steady s (t.signalHost func cname ck).2 := by
  unfold State.signalHost
  split
  · exact h
  next e _ =>
    split
    · exact h
    have applied := h.applyHost (func := func) (va := e.addr) (op := .signal ck 1)
    split <;> rename_i k <;> rw [k] at applied <;> exact applied

theorem Steady.completeFrom (h : Steady s t) {func q : Nat} {tag : BitVec 32} {note : BitVec 8} {cname caddr : W64} {status : Nat} {value : W64}
    {recorded : Bool} : Steady s (t.completeFrom func q tag note cname caddr status value recorded) := by
  have put := h.hubPut (func := func) (va := caddr.toNat) (bs := completionBytes status tag value) (sys := true)
  unfold State.completeFrom
  extract_lets later signal
  have signals {x : State} (hx : Steady s x) : Steady s (signal x) := .ite (.ite hx.signalHost hx.signalHost.regroup) hx
  split
  · exact signals h
  split <;> rename_i e <;> rw [e] at put
  · exact signals put
  · exact put.regroup
  · exact signals put

theorem LeavesDead.launchEnd (h : LeavesDead s t) {l : Nat} : LeavesDead s (t.launchEnd l) := by
  unfold State.launchEnd
  split
  · exact h
  next x _ =>
    split
    · exact h
    have ended : LeavesDead s { t with launches := setNth t.launches l { x with done := true } } := h.regroup
    dsimp only
    split
    · exact ended.steady (Steady.refl _).completeFrom
    · exact ended

theorem LeavesDead.finishMoves (h : LeavesDead s t) : LeavesDead s t.finishMoves := by
  unfold State.finishMoves
  exact LeavesDead.foldl h.regroup fun u _ _ => (LeavesDead.refl u).steady (Steady.refl u).completeFrom

/-! The end of a group (R54, R76) -/

section
variable {gi : Nat}

theorem State.letAllGo_idle (idle : (s.grp gi).ops = []) : s.letAllGo gi = s := by
  rw [State.letAllGo, idle, List.foldl_nil]

/-- A group that ends with nothing outstanding is dead, and accepts nothing. -/
theorem State.endGroup_dead (code : BitVec 32) (index : gi < s.groups.length) (idle : (s.grp gi).ops = []) :
    ((s.endGroup gi code).grp gi).st = .dead ∧ ((s.endGroup gi code).grp gi).accept = false := by
  have named : LeavesDead s (s.nameDeath (s.grp gi).func (s.grp gi).name code) := (LeavesDead.refl s).nameDeath
  unfold State.endGroup
  extract_lets g s1 hub s2 s3 s4
  have index2 : gi < s2.groups.length := by
    show gi < s1.groups.length
    rw [show s1 = s.nameDeath g.func g.name code from congrArg (fun t => State.nameDeath t g.func g.name code) (State.letAllGo_idle idle), named.length]
    exact index
  have dead : (s3.grp gi).st = .dead ∧ (s3.grp gi).accept = false := by
    rw [s2.grp_modGrp_self _ index2]
    exact ⟨rfl, rfl⟩
  have after : LeavesDead s3 (((s4.barriersAfter gi).launchEnd g.launch).finishMoves) :=
    LeavesDead.finishMoves (LeavesDead.launchEnd (LeavesDead.barriersAfter (.ite (LeavesDead.refl s3).poolReturn (.refl s3))))
  obtain ⟨st, accept⟩ := after.dead gi dead.1
  exact ⟨st, accept.trans dead.2⟩

/-! The exit commit (R54) -/

theorem Undisturbed.servedPage (h : Undisturbed s t) {pa access : Nat} : Undisturbed s (t.servedPage pa access) := by
  unfold State.servedPage
  dsimp only
  split
  · exact .ite h.raiseLog h
  · exact h

theorem Steady.servedPage (h : Steady s t) {pa access : Nat} : Steady s (t.servedPage pa access) := by
  unfold State.servedPage
  dsimp only
  split
  · exact .ite h.raiseLog h
  · exact h

theorem Undisturbed.drainEgress (h : Undisturbed s t) : Undisturbed s t.drainEgress :=
  h.foldl fun u e _ => .ite (Undisturbed.sendEgress (Undisturbed.servedPage (Undisturbed.regroup (Undisturbed.refl u)))) (.refl u)

theorem Steady.drainEgress (h : Steady s t) : Steady s t.drainEgress :=
  h.foldl fun u e _ => .ite (Steady.sendEgress (Steady.servedPage (Steady.regroup (Steady.refl u)))) (.refl u)

theorem State.keepLines_idle (idle : (s.grp gi).ops = []) (es : List Esc) : s.keepLines gi es = s := by
  rw [State.keepLines, idle]
  rfl

/-- An exit commit that finds nothing to bring. -/
theorem State.moveEscrow_nothing {id scope : Nat} {sel : List Nat} {mine : Esc → Bool} (far : scope = 3 ∨ scope = 4) (idle : (s.grp gi).ops = [])
    (nothing : ∀ e ∈ s.escrow, mine e = false) : s.moveEscrow gi id scope sel true mine = if scope = 4 then s.drainEgress else s := by
  unfold State.moveEscrow
  extract_lets chosen s1 s2 es ready s3
  have same : s1 = s := by
    show (s.escrow.filter (fun e => chosen e && e.marked && e.space == .glob)).foldl State.retranslate s = s
    rw [List.filter_eq_nil_iff.mpr fun e mem => by simp [chosen, nothing e mem]]
    rfl
  have drained : Undisturbed s s2 ∧ Steady s s2 := by
    show Undisturbed s (if scope = 4 then s1.drainEgress else s1) ∧ Steady s (if scope = 4 then s1.drainEgress else s1)
    rw [same]
    exact ⟨.ite (Undisturbed.refl s).drainEgress (.refl s), .ite (Steady.refl s).drainEgress (.refl s)⟩
  have empty : es = [] := by
    show s2.escrow.filter chosen = []
    rw [drained.1.escrow]
    exact List.filter_eq_nil_iff.mpr fun e mem => by simp [chosen, nothing e mem]
  have unready : ready = [] := by
    show byAge (es.filter _) = []
    rw [empty]
    rfl
  have kept : s3 = s2 := State.keepLines_idle ((drained.2.ops gi).trans idle) _
  rw [if_neg (by omega), if_neg (by omega), unready, List.foldl_nil, kept]
  exact congrArg (fun t : State => if scope = 4 then t.drainEgress else t) same

/-- The death of a group of which nothing is left in escrow (R54). -/
theorem State.runDeath_dead {sel : List Nat} (index : gi < s.groups.length) (dying : (s.grp gi).dying = true) (alive : (s.grp gi).killing = none)
    (paid : (s.grp gi).debt = []) (idle : (s.grp gi).ops = []) (clear : (s.grp gi).owedInteg = false) (none : ∀ e ∈ s.escrow, e.owner ≠ gi) :
    ((s.runDeath gi sel).grp gi).st = .dead ∧ ((s.runDeath gi sel).grp gi).accept = false := by
  have goes : (!(s.grp gi).dying || !(s.grp gi).debt.isEmpty || !(s.grp gi).dropFailed.ops.isEmpty) = false := by
    rw [dying, paid, Group.dropFailed, idle]
    rfl
  have scope : (if (s.grp gi).exitSys then 4 else 3) = 3 ∨ (if (s.grp gi).exitSys then 4 else 3) = 4 := by
    cases (s.grp gi).exitSys
    · exact .inl rfl
    · exact .inr rfl
  have brought := State.moveEscrow_nothing (id := 0) (sel := sel) (mine := fun e => e.owner == gi) scope idle fun e mem => beq_false_of_ne (none e mem)
  have ends : s.runDeath gi sel = (if (if (s.grp gi).exitSys then 4 else 3) = 4 then s.drainEgress else s).endGroup gi (s.grp gi).exitCode := by
    unfold State.runDeath
    dsimp only
    rw [alive]
    dsimp only
    rw [goes, clear, if_neg Bool.false_ne_true, Bool.false_and, if_neg Bool.false_ne_true, if_neg Bool.false_ne_true, brought]
    refine if_neg ?_
    have escrow : (if (if (s.grp gi).exitSys then 4 else 3) = 4 then s.drainEgress else s).escrow = s.escrow := by
      split
      · exact (Undisturbed.refl s).drainEgress.escrow
      · rfl
    rw [escrow]
    simpa using none
  have steady : Steady s (if (if (s.grp gi).exitSys then 4 else 3) = 4 then s.drainEgress else s) :=
    .ite (Steady.refl s).drainEgress (.refl s)
  rw [ends]
  exact State.endGroup_dead _ (by rw [steady.length]; exact index) ((steady.ops gi).trans idle)

/-! Forced saves (R399, R402) -/

/-- A group with nothing outstanding that a forced halt saves: CGEN is one higher. -/
theorem State.saveGroup_forced (index : gi < s.groups.length) (idle : (s.grp gi).ops = []) (saves : s.saveGroup gi true false = .done t) :
    (t.grp gi).st = .saved ∧ (t.grp gi).cgen = (s.grp gi).cgen + 1 := by
  have checked := s.grp_modGrp_self Group.checked index
  have landed : (s.modGrp gi Group.checked).landReturned gi = s.modGrp gi Group.checked :=
    State.landReturned_idle (by rw [checked]; exact idle)
  generalize forced : (s.modGrp gi Group.checked).modGrp gi (fun g => { g with cgen := g.cgen + 1 }) = m
  have index' : gi < m.groups.length := by
    rw [← forced, State.modGrp_length, State.modGrp_length]
    exact index
  have cgen : (m.grp gi).cgen = (s.grp gi).cgen + 1 := by
    rw [← forced, State.grp_modGrp_self _ _ (by rw [State.modGrp_length]; exact index), checked]
    rfl
  unfold State.saveGroup at saves
  rw [State.settle_idle index idle] at saves
  dsimp only at saves
  rw [landed, Bool.not_true, if_neg Bool.false_ne_true, if_pos rfl, forced] at saves
  split at saves
  · split at saves <;> cases saves
  next a _ =>
    obtain rfl := SaveRes.done.inj saves
    obtain ⟨-, group, -⟩ := State.putAway (s := m.imageStored gi a) (x := (m.grp gi).husk .saved a (m.sealsOf gi))
      (by rw [State.imageStored_length]; exact index') rfl rfl (m.grp gi).func (m.grp gi).name false (m.grp gi).wakesAtSave a (m.grp gi).pkg (m.grp gi).qtr
    refine ⟨(congrArg Group.st group :), ?_⟩
    exact (congrArg Group.cgen group :).trans cgen

/-- EVICTION of a group alone in its quarter that waits on the pool (R46). -/
theorem exec_eviction_alone {n : Nat} {s1 : State} (alone : s.inQuarter (s.grp gi).pkg (s.grp gi).qtr = [gi]) (waits : (s.grp gi).st = .pending)
    (pool : (s.grp gi).cond = .pool n) (saves : s.saveGroup gi true false = .done s1) :
    exec (.eviction (s.grp gi).pkg (s.grp gi).qtr) s = .next s1 := by
  show execEviction _ _ s = _
  unfold execEviction
  rw [alone]
  simp [pool, waits, sortBy, insertBy, saves]

/-- FORCED_HALT of a group whose world's slice is over (R400 to R402). -/
theorem exec_forcedHalt_over {s1 : State} (between : (s.grp gi).between = true) (still : ∀ m ∈ s.hub.moves, gi ∉ m.groups)
    (fresh : (s.grp gi).halting = false) (room : (s.grp gi).image ≠ 1) (past : s.sliceCurrent (s.grp gi).func = false)
    (unposted : (s.grp gi).graceAt = none) (saves : s.saveGroup gi true false = .done s1) : exec (.forcedHalt gi) s = .next s1 := by
  have unmoved : s.hub.moves.any (fun m => m.groups.contains gi) = false := by simpa using still
  have halts : s.halt gi true = s1 := by rw [State.halt, saves]
  show execForcedHalt gi s = _
  unfold execForcedHalt
  dsimp only
  rw [between, unmoved, fresh, if_neg (by decide), if_neg Bool.false_ne_true, if_neg room, if_pos ⟨past, .inl unposted⟩, halts]

/-! Traps owed at an issue boundary (R239, R353, R420) -/

theorem State.takeOwed_done {r : Run} {cause : Cause} {code : Nat} {faddr : W64} {paid : Group → Group}
    (takes : (s.modGrp gi paid).takeTrap gi cause code faddr ⟨r.lanes, 0, r.addr, r.pos⟩ = .done t) : s.takeOwed gi r cause code faddr paid = t := by
  rw [State.takeOwed, takes]

/-- The first trap owed is the one that is taken. -/
theorem exec_asyncTrap_first {r head : Run} (boundary : s.atBoundary gi = true) (about : s.aboutTo gi = some r) (first : (s.grp gi).runs.head? = some head) :
    let g := s.grp gi
    let takes := fun (r : Run) (cause : Cause) (code : Nat) (faddr : W64) (paid : Group → Group) =>
      exec (.asyncTrapTaken gi) s = .next (s.takeOwed gi r cause code faddr paid)
    (g.owedInteg = true → takes r .integrity 0 r.addr (fun g => { g with owedInteg := false })) ∧
    (∀ p, g.owedInteg = false → g.duePage = some p →
      (p.2.2 ≠ 4 → takes r .page p.2.2 (BitVec.ofNat 64 p.2.1) Group.clearPages) ∧
      (p.2.2 = 4 → takes r .space 0 (BitVec.ofNat 64 p.2.1) Group.clearPages)) ∧
    (g.owedInteg = false → g.duePage = none → g.ts = false → g.owedSoft = true →
      takes head .soft 0 g.sfaddr (fun g => { g with owedSoft := false, sfaddr := 0 })) ∧
    (g.owedInteg = false → g.duePage = none → g.ts = false → g.owedSoft = false → g.preempt = true →
      takes head .preempt 0 0 (fun g => { g with preempt := false })) := by
  dsimp only
  have headRun : (s.grp gi).headRun = head := by rw [Group.headRun, first]; rfl
  have unfolded : exec (.asyncTrapTaken gi) s = execAsyncTrapTaken gi s := rfl
  simp only [unfolded, execAsyncTrapTaken, boundary, about, headRun]
  refine ⟨fun integ => ?_, fun p clear due => ⟨fun page => ?_, fun space => ?_⟩, fun clear due ts soft => ?_,
    fun clear due ts soft preempt => ?_⟩
  · simp [integ]
  · simp [clear, due, page]
  · simp [clear, due, space]
  · simp [clear, due, ts, soft]
  · simp [clear, due, ts, soft, preempt]

end

/-- Settles O45: the trap taken is the first of the order (`exec_asyncTrap_first`), a death with nothing left ends in `State.endGroup`, and the halts are
forced saves (`State.saveGroup_forced`). -/
theorem owedTrapsAndHalts : Obligations.OwedTrapsAndHalts := by
  unfold Obligations.OwedTrapsAndHalts
  intro s gi g
  refine ⟨fun r head t boundary about first => ?_, fun sel index dying alive paid idle clear none => ⟨_, rfl, State.runDeath_dead index dying alive paid idle clear none⟩,
    fun n s1 index alone waits pool idle saves => ⟨exec_eviction_alone alone waits pool saves, State.saveGroup_forced index idle saves⟩,
    fun s1 index between fresh room still past unposted idle saves =>
      ⟨exec_forcedHalt_over between still fresh room past unposted saves, State.saveGroup_forced index idle saves⟩⟩
  obtain ⟨integ, page, soft, preempt⟩ := exec_asyncTrap_first boundary about first
  refine ⟨fun owed taken => ?_, fun p clear due => ⟨fun code taken => ?_, fun code taken => ?_⟩, fun clear due ts owed taken => ?_,
    fun clear due ts later owed taken => ?_⟩
  · exact State.takeOwed_done taken ▸ integ owed
  · exact State.takeOwed_done taken ▸ (page p clear due).1 code
  · exact State.takeOwed_done taken ▸ (page p clear due).2 code
  · exact State.takeOwed_done taken ▸ soft clear due ts owed
  · exact State.takeOwed_done taken ▸ preempt clear due ts later owed

end Sys2Proof.Machine
end

section
/-! Returning from a trap (O24): where a lane's frame lies, the first live lane whose PC is bad, and the group that a double trap ends. -/

namespace Sys2Proof.Machine

/-! The frames' page (R84, R326) -/

section
variable (g : Group)

/-- Every lane's frame lies in one page of the window, whose first byte is the first lane's. -/
theorem Group.privAddr_frame (i p : Nat) : g.privAddr i (g.frameOff + p) = g.privAddr 0 g.frameOff + (256 * (p / 4) + 4 * i + p % 4) := by
  unfold Group.privAddr Group.frameOff
  omega

theorem Group.privAddr_frame_aligned : g.privAddr 0 g.frameOff % 4096 = 0 := by
  unfold Group.privAddr Group.frameOff
  omega

/-- The 2 KiB of the frames are in one page. -/
theorem Group.pagesOf_frames : pagesOf (g.privAddr 0 g.frameOff) 2048 = [g.privAddr 0 g.frameOff] := by
  have aligned := g.privAddr_frame_aligned
  have one : (g.privAddr 0 g.frameOff + 2048 - 1) / 4096 - g.privAddr 0 g.frameOff / 4096 + 1 = 1 := by omega
  rw [pagesOf, if_neg (by decide), one, List.range_one, List.map_singleton, alignDown, aligned]
  rfl

end

/-- The place of a byte of a page under one translation. -/
theorem placeIn_page {a pa k : Nat} (aligned : a % 4096 = 0) (inside : k < 4096) : placeIn [(a, pa)] (a + k) = pa + k := by
  have page : alignDown (a + k) 4096 = a := by
    rw [alignDown]
    omega
  rw [placeIn, page, lookupD, if_pos rfl]
  omega

/-! PCs of frames -/

/-- A lane's PC to which no return may go (R240). -/
def badPc (pc : W64) : Bool := bitsN pc 63 57 != 0 || bitsN pc 2 0 != 0

theorem badPc_eq_false {pc : W64} : badPc pc = false ↔ pc.toNat < 2 ^ 57 ∧ pc.toNat % 8 = 0 := by
  rw [badPc, Bool.or_eq_false_iff, bne_eq_false_iff_eq, bne_eq_false_iff_eq, bitsN_high_eq_zero, bitsN_low3]

theorem badFrame_eq (live : BitVec 64) (f : List (W64 × W64)) :
    badFrame live f = (((List.range 64).filter (fun i => live.getLsbD i)).map (fun i => (f.getD i (0, 0)).1)).find? badPc := rfl

/-- No live lane's PC is bad. -/
theorem badFrame_none {live : BitVec 64} {f : List (W64 × W64)} (good : ∀ i < 64, live.getLsbD i = true → badPc (f.getD i (0, 0)).1 = false) :
    badFrame live f = none := by
  rw [badFrame_eq, List.find?_eq_none]
  intro pc mem
  obtain ⟨i, lane, rfl⟩ := List.mem_map.mp mem
  obtain ⟨small, alive⟩ := List.mem_filter.mp lane
  rw [good i (List.mem_range.mp small) alive]
  exact Bool.false_ne_true

/-- The lowest live lane's PC that is bad. -/
theorem badFrame_first {live : BitVec 64} {f : List (W64 × W64)} {i : Nat} (small : i < 64) (alive : live.getLsbD i = true)
    (bad : badPc (f.getD i (0, 0)).1 = true) (good : ∀ j < i, live.getLsbD j = true → badPc (f.getD j (0, 0)).1 = false) :
    badFrame live f = some (f.getD i (0, 0)).1 := by
  rw [badFrame_eq, List.find?_map, List.find?_filter]
  refine congrArg (Option.map _) (List.find?_range_eq_some.mpr ⟨by simpa [alive] using bad, List.mem_range.mpr small, fun j below => ?_⟩)
  by_cases lives : live.getLsbD j = true
  · simpa [lives] using good j below lives
  · simp [lives]

/-! Double traps (R239, R409) -/

section
variable {s : State} {gi : Nat}

theorem Steady.dropEsc {s t : State} (h : Steady s t) {e : Esc} : Steady s (t.dropEsc e) := by
  have hit : Steady s (t.hitRetract e) := by
    unfold State.hitRetract
    extract_lets layer newer hits
    exact .ite h (h.foldl fun u _ _ => .ite ((Steady.refl u).modGrp fun _ => rfl) (.refl u))
  exact hit.regroup

/-- A resident group with nothing outstanding that is killed is dead. -/
theorem State.killGroup_dead (code : BitVec 32) (index : gi < s.groups.length) (resident : (s.grp gi).resident = true) (idle : (s.grp gi).ops = []) :
    ((s.killGroup gi code).grp gi).st = .dead := by
  have alive : (s.grp gi).alive = true := by
    revert resident
    unfold Group.resident Group.alive
    cases (s.grp gi).st <;> simp
  have checked := s.grp_modGrp_self Group.checked index
  have steady : ∀ l : List Esc, Steady (s.modGrp gi Group.checked) (l.foldl State.dropEsc (s.modGrp gi Group.checked)) :=
    fun l => (Steady.refl _).foldl fun u _ _ => (Steady.refl u).dropEsc
  unfold State.killGroup
  dsimp only
  rw [alive, resident, Bool.not_true, if_neg Bool.false_ne_true, if_pos rfl, State.settle_idle index idle]
  refine (State.endGroup_dead code ?_ ?_).1
  · rw [(steady _).length, State.modGrp_length]
    exact index
  · rw [(steady _).ops, checked]
    exact idle

/-- A group fault in a world without an event ring ends a group with nothing outstanding. -/
theorem State.groupFault_dead {cause second reason : Nat} {faddr : W64} (index : gi < s.groups.length) (resident : (s.grp gi).resident = true)
    (idle : (s.grp gi).ops = []) (silent : s.ringVa (s.grp gi).func = 0) : ((s.groupFault gi cause second reason faddr).grp gi).st = .dead := by
  unfold State.groupFault
  dsimp only
  rw [State.raiseLog, if_pos silent]
  exact State.killGroup_dead _ index resident idle

/-- A trap with TS set is a double trap: the group faults. -/
theorem State.trapEntry_double {cause : Cause} {code : Nat} {faddr : W64} {r : TrapAt} (double : (s.grp gi).ts = true) : ∃ cause' second,
    s.trapEntry gi cause code faddr r = .done ((s.setGrp gi ((s.grp gi).record r)).groupFault gi cause' second 0 faddr) := by
  unfold State.trapEntry
  dsimp only
  rw [if_pos double]
  exact ⟨_, _, rfl⟩

theorem State.takeTrap_double {cause : Cause} {code : Nat} {faddr : W64} {r : TrapAt} (index : gi < s.groups.length) (double : (s.grp gi).ts = true)
    (resident : (s.grp gi).resident = true) (idle : (s.grp gi).ops = []) (silent : s.ringVa (s.grp gi).func = 0) :
    ∃ t, s.takeTrap gi cause code faddr r = .done t ∧ (t.grp gi).st = .dead := by
  have faults : ∀ code, ∃ t, s.trapEntry gi cause code faddr r = .done t ∧ (t.grp gi).st = .dead := by
    intro code
    obtain ⟨cause', second, entry⟩ := State.trapEntry_double (s := s) (cause := cause) (code := code) (faddr := faddr) (r := r) double
    have group : (s.setGrp gi ((s.grp gi).record r)).grp gi = (s.grp gi).record r := s.grp_modGrp_self (fun _ => (s.grp gi).record r) index
    refine ⟨_, entry, State.groupFault_dead ?_ ?_ ?_ ?_⟩
    · show gi < (s.modGrp gi fun _ => _).groups.length
      rw [State.modGrp_length]
      exact index
    · rw [group]; exact resident
    · rw [group]; exact idle
    · rw [group]; exact silent
  unfold State.takeTrap
  split
  · obtain ⟨t, entry, -⟩ := faults 0
    have unrecorded : s.pageRecord gi faddr.toNat code = s := if_pos silent
    rw [entry]
    dsimp only
    rw [unrecorded]
    exact faults 0
  · exact faults code

/-- A trap that nothing delays is taken at its word. -/
theorem State.trapWord_now {c : Ctx} {x : State} {cause : Cause} {code : Nat} {faddr : W64} (now : c.trapsNow x) :
    x.trapWord c cause code faddr = x.enterTrap c cause code faddr := by
  unfold State.trapWord
  dsimp only
  rcases now with owes | free
  · have late : c.cl.owes.isNone = false := Option.isNone_eq_false_iff.mpr (Option.isSome_iff_ne_none.mpr owes)
    rw [late, Bool.and_false, Bool.and_false, if_neg Bool.false_ne_true, if_neg Bool.false_ne_true]
  · have owed : (dropNth c.k (x.grp c.gi).clauses).any (fun y => y.owes.isSome) = false := List.any_eq_false.mpr fun y mem => by simp [(free y mem).1]
    have due : (dropNth c.k (x.grp c.gi).clauses).any (fun y => decide (y.mark ≤ c.t)) = false :=
      List.any_eq_false.mpr fun y mem => by simpa using (free y mem).2
    rw [owed, due, Bool.false_and, if_neg Bool.false_ne_true, if_neg Bool.false_ne_true]

theorem State.trapWord_double {c : Ctx} {x : State} {cause : Cause} {code : Nat} {faddr : W64} (index : c.gi < x.groups.length) (now : c.trapsNow x)
    (double : (x.grp c.gi).ts = true) (resident : (x.grp c.gi).resident = true) (idle : (x.grp c.gi).ops = [])
    (silent : x.ringVa (x.grp c.gi).func = 0) : ((x.trapWord c cause code faddr).grp c.gi).st = .dead := by
  have governed := x.grp_modGrp_self (fun y => { y with tbase := ((x.grp c.gi).asAt c.t).tbase }) index
  rw [State.trapWord_now now, State.enterTrap]
  obtain ⟨t, taken, dead⟩ := State.takeTrap_double (s := x.modGrp c.gi fun y => { y with tbase := ((x.grp c.gi).asAt c.t).tbase }) (gi := c.gi)
    (cause := cause) (code := code) (faddr := faddr)
    (r := ⟨c.cl.lanes, c.cl.pos, if (cause == .trap || cause == .break_) = true then c.cl.next else c.cl.hdr,
      if (cause == .trap || cause == .break_) = true then 0 else c.cl.pos⟩)
    (by rw [State.modGrp_length]; exact index) (by rw [governed]; exact double) (by rw [governed]; exact resident) (by rw [governed]; exact idle)
    (by rw [governed]; exact silent)
  rw [taken]
  dsimp only
  rw [State.grp_moveCur, State.grp_takeSlot, State.grp_modGrp]
  split
  · exact dead
  · exact dead

end

/-! TRET (R240) -/

section
variable {s m m1 : State} {c : Ctx} {o : VOps} {pa : Nat}

/-- The word of lane i's frame at byte n, as the group's own loads see it (R85, R240, R358). -/
def State.frameWord (s : State) (gi pa i n : Nat) : W64 :=
  BitVec.ofNat 64 (ofBytesLE ((List.range 8).map (fun k => s.privSeen gi (pa + 256 * ((n + k) / 4) + 4 * i + k % 4))))

/-- The frames under one translation are the words of their page. -/
theorem State.getFrames_getD {gi i : Nat} (small : i < 64) (alive : (s.grp gi).live.getLsbD i = true) :
    (s.getFrames gi [((s.grp gi).privAddr 0 (s.grp gi).frameOff, pa)]).getD i (0, 0) = (s.frameWord gi pa i 0, s.frameWord gi pa i 24) := by
  have byte (n : Nat) (near : n = 0 ∨ n = 24) :
      (List.range 8).map (fun k => s.privSeen gi (placeIn [((s.grp gi).privAddr 0 (s.grp gi).frameOff, pa)]
        ((s.grp gi).privAddr i ((s.grp gi).frameOff + n + k)))) =
      (List.range 8).map (fun k => s.privSeen gi (pa + 256 * ((n + k) / 4) + 4 * i + k % 4)) := by
    refine List.map_congr_left fun k mem => ?_
    have few := List.mem_range.mp mem
    rw [Nat.add_assoc (s.grp gi).frameOff, Group.privAddr_frame, placeIn_page (Group.privAddr_frame_aligned _) (by omega)]
    congr 1
    omega
  unfold State.getFrames
  dsimp only
  rw [getD_range_map, if_pos small, if_pos alive, byte 0 (.inl rfl), byte 24 (.inr rfl)]
  rfl

/-- The lines of the frames' page that a poisoned line makes fail (R240). -/
theorem poisonedFrames_iff {a : Nat} (aligned : a % 4096 = 0) :
    ([a].any (fun p => (List.range 32).any (fun k => s.poisoned .glob (placeIn [(a, pa)] p + 128 * k) &&
      decide (a < p + 128 * k + 128 ∧ p + 128 * k < a + 2048))) = true) ↔ ∃ k < 16, s.poisoned .glob (pa + 128 * k) = true := by
  have place : placeIn [(a, pa)] a = pa := placeIn_page aligned (by omega : 0 < 4096)
  rw [List.any_cons, List.any_nil, Bool.or_false, place, List.any_eq_true]
  constructor
  · rintro ⟨k, -, poisoned⟩
    rw [Bool.and_eq_true, decide_eq_true_iff] at poisoned
    exact ⟨k, by omega, poisoned.1⟩
  · rintro ⟨k, few, poisoned⟩
    exact ⟨k, List.mem_range.mpr (by omega), by rw [poisoned, Bool.true_and, decide_eq_true_iff]; omega⟩

/-- What TRET does with its frames' page translated to pa in m1 (R240). -/
def Ctx.returnsFrom (c : Ctx) (m m1 : State) (pa : Nat) : Res :=
  let g := m.grp c.gi
  let a := g.privAddr 0 g.frameOff
  if ∃ k < 16, m1.poisoned .glob (pa + 128 * k) = true then .trap (m1.integRecord c.gi 1 a) .integrity 0 c.cl.hdr
  else match badFrame g.live (m1.getFrames c.gi [(a, pa)]) with
    | some pc => .trap m1 .misalign 0 pc
    | none => .done (m1.modGrp c.gi (fun g => g.trapReturn (m1.getFrames c.gi [(a, pa)])))

/-- The description of TRET. -/
def Ctx.returns (c : Ctx) (s : State) : Res :=
  let g := s.grp c.gi
  let a := g.privAddr 0 g.frameOff
  if !g.ts then c.trap s .illegal
  else if g.ops.any Op.isAccess then .hold s
  else if g.privLen < g.frameOff + 32 then .at_ s .space g.frameOff
  else match s.pageMap c.gi accRead (pagesOf a 2048) [] with
    | (.ok _, m, s1) =>
      if (pagesOf a 2048).any (fun p => (List.range 32).any (fun k => s1.poisoned .glob (placeIn m p + 128 * k) &&
          decide (a < p + 128 * k + 128 ∧ p + 128 * k < a + 2048))) then .trap (s1.integRecord c.gi 1 a) .integrity 0 c.cl.hdr
      else
        let f := s1.getFrames c.gi m
        match badFrame g.live f with
        | some pc => .trap s1 .misalign 0 pc
        | none => .done (s1.modGrp c.gi (fun g => g.trapReturn f))
    | (.hold, _, s1) => .wait s1
    | (.space, _, s1) => .at_ s1 .space a
    | (_, _, s1) => .page s1 a accRead

theorem exec_tret (o : VOps) (s : State) : exec (.tret o) s = issueWord (.tret o) Ctx.returns s := rfl

section
variable (ts : (m.grp c.gi).ts = true) (free : (m.grp c.gi).ops.any Op.isAccess = false) (room : (m.grp c.gi).frameOff + 32 ≤ (m.grp c.gi).privLen)
include ts free

theorem Ctx.returns_far (none : (m.grp c.gi).privLen < (m.grp c.gi).frameOff + 32) :
    c.returns m = .trap m .space 0 (BitVec.ofNat 64 (m.grp c.gi).frameOff) := by
  unfold Ctx.returns
  dsimp only
  rw [ts, free, if_neg (by decide), if_neg Bool.false_ne_true, if_pos none]
  rfl

include room

theorem Ctx.returns_page (absent : m.translate c.gi ((m.grp c.gi).privAddr 0 (m.grp c.gi).frameOff) accRead = (.page, m1)) :
    c.returns m = .trap m1 .page accRead (BitVec.ofNat 64 ((m.grp c.gi).privAddr 0 (m.grp c.gi).frameOff)) := by
  unfold Ctx.returns
  dsimp only
  rw [ts, free, if_neg (by decide), if_neg Bool.false_ne_true, if_neg (not_lt.mpr room), Group.pagesOf_frames, State.pageMap, absent]
  rfl

theorem Ctx.returns_refused (found : m.translate c.gi ((m.grp c.gi).privAddr 0 (m.grp c.gi).frameOff) accRead = (.ok pa, m1))
    (same : m1.grp c.gi = m.grp c.gi) (refused : m1.destOk (m.grp c.gi).func (some (m.grp c.gi).pkg) pa = false) :
    c.returns m = .trap m1 .space 0 (BitVec.ofNat 64 ((m.grp c.gi).privAddr 0 (m.grp c.gi).frameOff)) := by
  unfold Ctx.returns
  dsimp only
  rw [ts, free, if_neg (by decide), if_neg Bool.false_ne_true, if_neg (not_lt.mpr room), Group.pagesOf_frames, State.pageMap, found]
  dsimp only
  rw [same, refused]
  rfl

theorem Ctx.returns_found (found : m.translate c.gi ((m.grp c.gi).privAddr 0 (m.grp c.gi).frameOff) accRead = (.ok pa, m1))
    (same : m1.grp c.gi = m.grp c.gi) (allowed : m1.destOk (m.grp c.gi).func (some (m.grp c.gi).pkg) pa = true) :
    c.returns m = c.returnsFrom m m1 pa := by
  unfold Ctx.returns
  dsimp only
  rw [ts, free, if_neg (by decide), if_neg Bool.false_ne_true, if_neg (not_lt.mpr room), Group.pagesOf_frames, State.pageMap, found]
  dsimp only
  rw [same, allowed, if_pos rfl, State.pageMap, List.nil_append]
  exact if_congr (poisonedFrames_iff (Group.privAddr_frame_aligned _)) rfl rfl

end

/-- The frames' page is clean. -/
theorem Ctx.returnsFrom_clean (clean : ∀ k < 16, m1.poisoned .glob (pa + 128 * k) = false) : c.returnsFrom m m1 pa =
    match badFrame (m.grp c.gi).live (m1.getFrames c.gi [((m.grp c.gi).privAddr 0 (m.grp c.gi).frameOff, pa)]) with
    | some pc => .trap m1 .misalign 0 pc
    | none => .done (m1.modGrp c.gi (fun g => g.trapReturn (m1.getFrames c.gi [((m.grp c.gi).privAddr 0 (m.grp c.gi).frameOff, pa)]))) := by
  refine if_neg ?_
  rintro ⟨k, few, poisoned⟩
  rw [clean k few] at poisoned
  cases poisoned

theorem Performs.doubleTraps (h : Performs (.tret o) s c m) (ts : (m.grp c.gi).ts = true) {x : State} {cause : Cause} {code : Nat} {faddr : W64}
    (e : c.returns m = .trap x cause code faddr) : exec (.tret o) s = .next (x.trapWord c cause code faddr) ∧
    (x.grp c.gi = m.grp c.gi → c.gi < x.groups.length → c.trapsNow x → (m.grp c.gi).resident = true → (m.grp c.gi).ops = [] →
      x.ringVa (m.grp c.gi).func = 0 → ((x.trapWord c cause code faddr).grp c.gi).st = .dead) :=
  ⟨h.traps e, fun same index now resident idle silent => by
    rw [← same] at ts resident idle silent
    exact State.trapWord_double index now ts resident idle silent⟩

/-- Every live lane is back where its frame says, and TS is clear. -/
theorem Performs.trapReturns (h : Performs (.tret o) s c m) (length : m1.groups.length = m.groups.length) {f : List (W64 × W64)}
    (e : c.returns m = .done (m1.modGrp c.gi (fun g => g.trapReturn f))) :
    ∃ t, exec (.tret o) s = .next t ∧ RegsKept c.gi m1 t ∧ Changes c.gi m1 t (fun g => { g with ts := false, sel := [] }) (fun s => s) ∧
      ∀ i < 64, (m1.grp c.gi).live.getLsbD i = true →
        (t.grp c.gi).pc.getD i 0 = (f.getD i (0, 0)).1 ∧ (t.grp c.gi).rpos.getD i 0 = bitsN (f.getD i (0, 0)).2 4 0 := by
  have index : c.gi < m1.groups.length := by rw [length]; exact h.lt'
  have group := m1.grp_modGrp_self (fun g => g.trapReturn f) index
  have index' : c.gi < (m1.modGrp c.gi fun g => g.trapReturn f).groups.length := by rw [State.modGrp_length]; exact index
  obtain ⟨mark, closed⟩ := Ctx.close_done_emptied index' (by rw [group]; rfl)
  refine ⟨_, (issueWord_performs h Ctx.returns).trans (congrArg (fun r => Host.Outcome.next (c.close r)) e),
    Ctx.close_done_kept index' (.modGrp index _ ⟨rfl, rfl, rfl, rfl, rfl⟩), Ctx.close_done_changes index' (.modGrp index _ _ rfl),
    fun i small alive => ?_⟩
  rw [closed, group]
  unfold Group.trapReturn
  dsimp only
  rw [getD_range_map, getD_range_map, if_pos small, if_pos small, if_pos alive, if_pos alive]
  exact ⟨rfl, rfl⟩

end

/-- Settles O24: each way through TRET's description, whose frames lie in one page (`Group.pagesOf_frames`); a trap that it takes finds TS set
(`State.trapWord_double`). -/
theorem trapReturn : Obligations.TrapReturn := by
  unfold Obligations.TrapReturn
  intro o s c m m1 pa h g a doubleTrap
  have kept : ∀ {r}, m.translate c.gi a accRead = (r, m1) → m1.groups = m.groups := fun {r} found => by
    have same := (m.translate_samePlace (gi := c.gi) (va := a) (access := accRead)).1
    rwa [found] at same
  have same : ∀ {r}, m.translate c.gi a accRead = (r, m1) → m1.grp c.gi = m.grp c.gi := fun found => by rw [State.grp, kept found, State.grp]
  refine ⟨fun clear => h.traps ?_, fun ts waits => h.holds ?_, fun ts free none => h.doubleTraps ts (Ctx.returns_far ts free none),
    fun ts free room => ⟨fun absent => h.doubleTraps ts (Ctx.returns_page ts free room absent),
      fun found refused => h.doubleTraps ts (Ctx.returns_refused ts free room found (same found) refused),
      fun found allowed _ poisoned => h.doubleTraps ts ?_⟩,
    fun ts free room found allowed _ clean => ?_⟩
  · exact if_pos (by rw [clear]; rfl)
  · exact (if_neg (by rw [ts]; decide)).trans (if_pos waits)
  · exact (Ctx.returns_found ts free room found (same found) allowed).trans (if_pos poisoned)
  · intro word good
    have returns := (Ctx.returns_found ts free room found (same found) allowed).trans (Ctx.returnsFrom_clean clean)
    have frames (i : Nat) (small : i < 64) (alive : g.live.getLsbD i = true) :
        (m1.getFrames c.gi [(a, pa)]).getD i (0, 0) = (word i 0, word i 24) := by
      have read := State.getFrames_getD (s := m1) (gi := c.gi) (pa := pa) small (by rw [same found]; exact alive)
      rwa [same found] at read
    refine ⟨fun i small alive bad before => h.doubleTraps ts ?_, fun all => ?_⟩
    · have first : badFrame g.live (m1.getFrames c.gi [(a, pa)]) = some (word i 0) := by
        refine (badFrame_first small alive ?_ fun j below lives => ?_).trans (by rw [frames i small alive])
        · rw [frames i small alive]
          exact Bool.not_eq_false _ |>.mp fun fine => bad (badPc_eq_false.mp fine)
        · rw [frames j (below.trans small) lives]
          exact badPc_eq_false.mpr (before j below lives)
      exact returns.trans (by rw [first])
    · have none : badFrame g.live (m1.getFrames c.gi [(a, pa)]) = none := badFrame_none fun i small alive => by
        rw [frames i small alive]
        exact badPc_eq_false.mpr (all i small alive)
      obtain ⟨t, runs, regs, changes, places⟩ := h.trapReturns (congrArg List.length (kept found)) (returns.trans (by rw [none]))
      refine ⟨t, runs, regs, changes, fun i small alive => ?_⟩
      have place := places i small (by rw [same found]; exact alive)
      rwa [frames i small alive] at place

end Sys2Proof.Machine
end

section
/-! SUSPEND on a monitor (O25). The statement says that on a fenced line it leaves the group as it is, but for its place in the program. Where the line is
one of this device's own that it exports without owning its frame, the exporting world gets a PAGE record (R434, R439), and a write of the hub on its
way hits the group's own watch (R104): here the walk for the record sets A in the world's table, a sector of which the group watches. -/

namespace Sys2Proof.Machine

/-- SUSPEND on a monitor, of the value in s1, at the address in s2. -/
def monitorOps : VOps := ⟨0xFF, 0xC1, 0xC2, 0xFF, 2, ⟨0, 0, 0, 0⟩⟩

/-- Its word. -/
def monitorWord : W64 := (encode (.suspendMonitor monitorOps)).getD 0

/-- The group of that word, due: it monitors the address 0x20800, and it watches the first sector of its world's page table. -/
def watcher : Group :=
  { fetchGroup monitorWord 0 1 with s := 0 :: 0 :: 0x20800 :: List.replicate 45 0, watch := [⟨.glob, 0x1000, 1, false⟩] }

/-- Registers of the hub: endpoint 5 is this device's own, fenced in its window, and exported at the unit from 0x20000 on, whose frame is no world's;
world 0 has its page table at 0x1000 and its event ring at 0x2000. -/
def windowRegs (s : State) : State :=
  (((((s.setReg (offWin 63) 0x0000000500000002).setReg (offPart 0 6) 0xFFFFFFFF).setReg offExpwin 0x8000000000020001).setReg offOwnep 5).setReg
    (offWorld 0 1) 0x1000).setReg (offFrt 0 1) 0x2000

/-- The group in its place, with the page at 0x20000 held, a page of endpoint 5; the table's entries 0 and 2 are the table itself and the ring. -/
def fencedState : State :=
  let s := windowRegs (State.reset.placeWord monitorWord)
  { s.modCore 0 (fun c => { c with tlb := ⟨0, 0x20000, 4096, 0x180028000001000, true, true, true⟩ :: c.tlb }) with
    groups := [watcher]
    mem := (s.mem.write 0x1000 (bytesLE 8 0x1001)).write 0x1010 (bytesLE 8 0x1003) }

/-- The issue of its word: the clock, the clause, and the state. -/
def monitorIssue : Nat × Clause × State := fencedState.enterWord 0 0 (watcher.clauses.head (List.cons_ne_nil _ _))

/-- What the word is to the core. -/
def monitorView : View := (view (.suspendMonitor monitorOps)).getD trapCtx.view

/-- The context of its word. -/
def monitorCtx : Ctx := wordCtx ((monitorIssue.2.2.grp 0).asAt monitorIssue.1) 0 0 monitorIssue.2.1 monitorIssue.1 monitorView

theorem monitor_performs : Performs (.suspendMonitor monitorOps) fencedState monitorCtx monitorIssue.2.2 where
  cursor := by decide +kernel
  begun := ⟨watcher.clauses.head (List.cons_ne_nil _ _), by decide +kernel, rfl⟩
  owesNone := by decide +kernel
  row := by decide +kernel
  passes := by decide +kernel
  timely := by decide +kernel
  context := rfl
  acts := by decide +kernel

/-- The translation of the address that it monitors. -/
def monitored : Tr × State := monitorIssue.2.2.translate 0 0x20800 accRead

/-- The address lies in endpoint 5, which has a window entry, fenced. -/
theorem monitored_fenced : monitored.1 = .ok 0x180028000001800 ∧ monitored.2.destOk (monitorIssue.2.2.grp 0).func (some (monitorIssue.2.2.grp 0).pkg)
    0x180028000001800 = true ∧ monitored.2.fenced 0x180028000001800 = true := by decide +kernel

/-- The group's watch, before the word and after it. -/
theorem watch_hit : (monitored.2.grp 0).watch = [⟨.glob, 0x1000, 1, false⟩] ∧
    (match exec (.suspendMonitor monitorOps) fencedState with
    | .next t => (t.grp 0).watch
    | _ => []) = [⟨.glob, 0x1000, 1, true⟩] := by decide +kernel

/-- Refutes O25: in `fencedState` a SUSPEND on a monitor of a fenced line is performed, and the group's watch is hit (`watch_hit`). -/
theorem not_suspendOnConditions : ¬ Obligations.SuspendOnConditions := by
  rintro ⟨conditions, -⟩
  obtain ⟨place, dest, fenced⟩ := monitored_fenced
  obtain ⟨before, after⟩ := watch_hit
  obtain ⟨-, -, monitor⟩ := conditions monitorOps fencedState monitorCtx monitorIssue.2.2 monitored.2 0x180028000001800
  have address : ((monitorIssue.2.2.grp monitorCtx.gi).scalarOf monitorCtx.lane monitorOps.b).toNat = 0x20800 := by decide +kernel
  have clear : ∀ r ∈ [monitorOps.a, monitorOps.b], monitorCtx.covered monitorIssue.2.2 r := by
    unfold Ctx.covered
    decide +kernel
  obtain ⟨stays, -⟩ := monitor monitor_performs (clear _ (by decide)) (clear _ (by decide)) (by rw [address]; decide) (by rw [address])
    (by rw [address]; exact Prod.ext place rfl) dest
  obtain ⟨t, runs, -, same, -⟩ := stays fenced
  rw [runs] at after
  have watch : (t.grp 0).watch = (monitored.2.grp 0).watch := (congrArg Group.watch same :)
  have hit : (t.grp 0).watch = [⟨.glob, 0x1000, 1, true⟩] := after
  exact absurd ((hit.symm.trans watch).trans before) (by decide)

end Sys2Proof.Machine
end
